-- ==== Sys2Proof/Word.lean ====
section
/-!
DEFINITION. The word types of the Jotin and its plainest arithmetic (spec/00 R6, spec/01 R12, R15).
-/
namespace Sys2Proof

/-- One byte (R6). -/
abbrev Byte := BitVec 8

/-- A 64-bit scalar, slot or system register word (R12, R61). -/
abbrev Word := BitVec 64

/-- A window line or vector register: 512 bytes, byte 0 in bits 7 to 0 (R6, R15). -/
abbrev Line := BitVec 4096

/-- A scalar register number s0 to s63 (R70). -/
abbrev Reg := BitVec 6

/-- The six engines, by their ENG codes 000 to 101 (R61). -/
inductive Engine where
  | ctl | vec | mat | spe | mem | syn
deriving DecidableEq, Repr

/-- The ENG code of an engine (R61). -/
def Engine.code : Engine → Nat
  | .ctl => 0 | .vec => 1 | .mat => 2 | .spe => 3 | .mem => 4 | .syn => 5

/-- The engine of an ENG code; 110 and 111 name none (R61, R66). -/
def Engine.ofCode : Nat → Option Engine
  | 0 => some .ctl | 1 => some .vec | 2 => some .mat
  | 3 => some .spe | 4 => some .mem | 5 => some .syn | _ => none

/-- The engines in code order. -/
def Engine.all : List Engine := [.ctl, .vec, .mat, .spe, .mem, .syn]

/-- Sixteen element types by TYPE code (R33, Table 7). -/
inductive ElemType where
  | i4 | i8 | i16 | i32 | b4 | b8 | b16 | b32
  | f8e4 | f8e5 | f16 | bf16 | f32 | f64 | sp32 | i64
deriving DecidableEq, Repr

/-- The TYPE code of an element type (Table 7). -/
def ElemType.code : ElemType → Nat
  | .i4 => 0 | .i8 => 1 | .i16 => 2 | .i32 => 3 | .b4 => 4 | .b8 => 5 | .b16 => 6 | .b32 => 7
  | .f8e4 => 8 | .f8e5 => 9 | .f16 => 10 | .bf16 => 11 | .f32 => 12 | .f64 => 13 | .sp32 => 14
  | .i64 => 15

/-- The element type of a TYPE code; every 4-bit code is assigned (Table 7). -/
def ElemType.ofCode (n : Nat) : ElemType :=
  match n with
  | 0 => .i4 | 1 => .i8 | 2 => .i16 | 3 => .i32 | 4 => .b4 | 5 => .b8 | 6 => .b16 | 7 => .b32
  | 8 => .f8e4 | 9 => .f8e5 | 10 => .f16 | 11 => .bf16 | 12 => .f32 | 13 => .f64 | 14 => .sp32
  | _ => .i64

/-- The width in bits of an element (Table 7). -/
def ElemType.width : ElemType → Nat
  | .i4 | .b4 => 4
  | .i8 | .b8 | .f8e4 | .f8e5 => 8
  | .i16 | .b16 | .f16 | .bf16 => 16
  | .i32 | .b32 | .f32 | .sp32 => 32
  | .f64 | .i64 => 64

/-- The number of elements of the type in a 512-byte line (Table 7). -/
def ElemType.count (t : ElemType) : Nat := 4096 / t.width

/-- Group INT of Table 30. -/
def ElemType.isInt : ElemType → Bool
  | .i4 | .i8 | .i16 | .i32 | .i64 | .b4 | .b8 | .b16 | .b32 => true
  | _ => false

/-- The signed integers, the i types (R33). -/
def ElemType.isSigned : ElemType → Bool
  | .i4 | .i8 | .i16 | .i32 | .i64 => true
  | _ => false

/-- Group FP of Table 30. -/
def ElemType.isFp : ElemType → Bool
  | .f16 | .bf16 | .f32 | .f64 => true
  | _ => false

/-- The types INT, FP and sp32 that most element operations accept (R122). -/
def ElemType.isNum (t : ElemType) : Bool := t.isInt || t.isFp || t == .sp32

/-- The rounding field RM (R73). -/
inductive Rm where
  | fpmode | rne | rz | rup | rdn | sr
deriving DecidableEq, Repr

/-- The RM code (R73). -/
def Rm.code : Rm → Nat
  | .fpmode => 0 | .rne => 1 | .rz => 2 | .rup => 3 | .rdn => 4 | .sr => 5

/-- The rounding of an RM code; 110 and 111 are reserved (R73). -/
def Rm.ofCode : Nat → Option Rm
  | 0 => some .fpmode | 1 => some .rne | 2 => some .rz | 3 => some .rup | 4 => some .rdn
  | 5 => some .sr | _ => none

end Sys2Proof
end

