-- ==== Sys2Proof/Machine/Shake.lean ====
section
/-!
DEFINITION. SHAKE256 of FIPS 202, which the spec names for the Hadamard sign words (spec/02 R53), hop keys (spec/16 R357),
measurements and quotes (spec/22). The permutation's state is one number of 1600 bits: bit z of lane (x, y) is its bit
64(5y + x) + z.
-/
namespace Sys2Proof.Machine

/-- The lane of a state at a column and a row, both modulo 5. -/
def laneAt (s x y : Nat) : Nat := s / 2 ^ (64 * (5 * (y % 5) + x % 5)) % 2 ^ 64

/-- The state whose lane at a column and a row is given. -/
def ofLanes (f : Nat → Nat → Nat) : Nat := (List.range 25).foldr (fun i v => f (i % 5) (i / 5) + 2 ^ 64 * v) 0

/-- Rotate a lane left. -/
def rotLane (v k : Nat) : Nat := v * 2 ^ k % 2 ^ 64 + v / 2 ^ (64 - k)

/-- The parity of a column of lanes. -/
def columnSum (s x : Nat) : Nat := (List.range 5).foldl (fun v y => v ^^^ laneAt s x y) 0

/-- θ: every lane takes the parities of the column before it and, rotated, of the one after it. -/
def thetaStep (s : Nat) : Nat := s ^^^ ofLanes fun x _ => columnSum s (x + 4) ^^^ rotLane (columnSum s (x + 1)) 1

/-- ρ and π together, along the path of FIPS 202's ρ from (1, 0) by (x, y) ↦ (y, 2x + 3y): the lane at step t moves to the
next place of the path, rotated by (t + 1)(t + 2)/2. The first argument counts the steps left of 24. -/
def spiral (s : Nat) : Nat → Nat → Nat → Nat
  | 0, _, _ => 0
  | left + 1, x, y =>
    let y' := (2 * x + 3 * y) % 5
    rotLane (laneAt s x y) ((24 - left) * (25 - left) / 2 % 64) * 2 ^ (64 * (5 * y' + y)) + spiral s left y y'

/-- χ: every lane against the next two of its row. -/
def chiStep (s : Nat) : Nat :=
  ofLanes fun x y => laneAt s x y ^^^ (laneAt s (x + 2) y - (laneAt s (x + 1) y &&& laneAt s (x + 2) y))

/-- A step of the shift register that yields ι's bits: x⁸ = x⁶ + x⁵ + x⁴ + 1. -/
def iotaShift (r : Nat) : Nat := if r < 128 then 2 * r else (2 * r) ^^^ 0x171

/-- The round constant that a register state yields in its next seven bits, bit j of them at place 2^j - 1, and the register
after them. -/
def iotaWord (r : Nat) : Nat → Nat × Nat
  | 0 => (0, r)
  | j + 1 =>
    let (w, q) := iotaWord r j
    (w + q % 2 * 2 ^ (2 ^ j - 1), iotaShift q)

/-- Rounds of the permutation from a state and a register state. -/
def keccakRounds : Nat → Nat → Nat → Nat
  | 0, s, _ => s
  | n + 1, s, r =>
    let t := thetaStep s
    let w := iotaWord r 7
    keccakRounds n (chiStep (t % 2 ^ 64 + spiral t 24 1 0) ^^^ w.1) w.2

/-- A number from bytes, least significant first. -/
def numOfBytes : List Byte → Nat
  | [] => 0
  | b :: r => b.toNat + 256 * numOfBytes r

/-- Absorb a message of `len` bytes held in a number, 136 bytes at a time, with SHAKE's padding at its end; the first argument
bounds the blocks. -/
def sponge : Nat → Nat → Nat → Nat → Nat
  | 0, _, _, s => s
  | fuel + 1, len, n, s =>
    if 136 ≤ len then sponge fuel (len - 136) (n / 2 ^ 1088) (keccakRounds 24 (s ^^^ n % 2 ^ 1088) 1)
    else keccakRounds 24 (s ^^^ (n % 2 ^ (8 * len) + 31 * 2 ^ (8 * len)) ^^^ 2 ^ 1087) 1

/-- The first `out` bytes, at most 136, of SHAKE256 of the low `len` bytes of a number. -/
def shake256 (out len n : Nat) : Nat := sponge (len / 136 + 1) len n 0 % 2 ^ (8 * out)

/-- HadSign (R53). -/
def hadSign (seed b : Nat) : Nat := shake256 4 16 (seed % 2 ^ 64 + b % 2 ^ 64 * 2 ^ 64)

end Sys2Proof.Machine
end

