-- ==== Sys2Proof/Machine/Ed448.lean ====
section
/-!
DEFINITION. Ed448 signatures (spec/22 R408, R412), after RFC 8032 with an empty context (log 56), on natural numbers.
-/
namespace Sys2Proof.Machine

/-- The field's prime. -/
def edP : Nat := 2 ^ 448 - 2 ^ 224 - 1

/-- The order of the base point. -/
def edL : Nat := 2 ^ 446 - 0x8335DC163BB124B65129C96FDE933D8D723A70AADC873D6D54A7BB0D

/-- A difference in the field. -/
def edSub (a b : Nat) : Nat := (a + edP - b % edP) % edP

/-- A power in the field, by the exponent's low `n` bits. -/
def edPow (a e : Nat) : Nat → Nat
  | 0 => 1
  | n + 1 => (if e % 2 = 1 then a else 1) * edPow (a * a % edP) (e / 2) n % edP

/-- A point, in projective coordinates. -/
structure EdPoint where
  x : Nat
  y : Nat
  z : Nat
deriving DecidableEq, Repr

/-- The sum of two points of x² + y² = 1 - 39081 x² y²; the law has no exceptions. -/
def EdPoint.add (p q : EdPoint) : EdPoint :=
  let z := p.z * q.z % edP
  let xx := p.x * q.x % edP
  let yy := p.y * q.y % edP
  let t := 39081 * xx * yy % edP
  let zz := z * z % edP
  let m := edSub ((p.x + p.y) * (q.x + q.y)) (xx + yy)
  ⟨z * (zz + t) % edP * m % edP, z * edSub zz t % edP * edSub yy xx % edP, (zz + t) * edSub zz t % edP⟩

/-- A multiple of a point, by the factor's low `n` bits. -/
def EdPoint.times (p : EdPoint) (k : Nat) : Nat → EdPoint
  | 0 => ⟨0, 1, 1⟩
  | n + 1 =>
    let r := (p.add p).times (k / 2) n
    if k % 2 = 1 then r.add p else r

/-- Two points alike. -/
def EdPoint.same (p q : EdPoint) : Bool :=
  p.x * q.z % edP == q.x * p.z % edP && p.y * q.z % edP == q.y * p.z % edP

/-- The point that 57 bytes encode, if they encode one: y, and the lowest bit of x in the highest bit. -/
def edDecode (v : Nat) : Option EdPoint :=
  let y := v % 2 ^ 455
  let sign := v / 2 ^ 455 % 2
  let u := edSub (y * y) 1
  let w := edSub (edP - 39081 * (y * y % edP) % edP) 1
  let x := u * u * u % edP * w % edP * edPow (u * u % edP * u % edP * u % edP * u % edP * w % edP * w % edP * w) ((edP - 3) / 4) 448 % edP
  if edP ≤ y ∨ w * (x * x % edP) % edP ≠ u ∨ (x = 0 ∧ sign = 1) then none
  else some ⟨if x % 2 = sign then x else edP - x, y, 1⟩

/-- The base point. -/
def edBase : EdPoint :=
  ⟨0x4F1970C66BED0DED221D15A622BF36DA9E146570470F1767EA6DE324A3D3A46412AE1AF72AB66511433B80E18B00938E2626A82BC70CC05E,
   0x693F46716EB6BC248876203756C9C7624BEA73736CA3984087789C1E05A0C2D73AD3FF1CE67C39C4FDBD132C4ED7C8AD9808795BF230FA14, 1⟩

/-- The 57 bytes that encode a point. -/
def EdPoint.code (p : EdPoint) : Nat :=
  let i := edPow p.z (edP - 2) 448
  p.y * i % edP + p.x * i % edP % 2 * 2 ^ 455

/-- The hash of a message under Ed448, modulo the order, with `n` bytes before it. -/
def edHash (n before : Nat) (msg : List Byte) : Nat :=
  shake256 114 (10 + n + msg.length)
    (0x38343464456769 * 2 ^ 8 + 0x53 + before * 2 ^ 80 + numOfBytes msg * 2 ^ (80 + 8 * n)) % edL

/-- The signature of a message under a private key. -/
def ed448Sign (key : BitVec 456) (msg : List Byte) : BitVec 912 :=
  let h := shake256 114 57 key.toNat
  let a := h % 2 ^ 447 / 4 * 4 + 2 ^ 447
  let r := edHash 57 (h / 2 ^ 456) msg
  let c := (edBase.times r 448).code
  let k := edHash 114 (c + (edBase.times a 448).code * 2 ^ 456) msg
  BitVec.ofNat 912 (c + (r + k * a) % edL * 2 ^ 456)

/-- Whether a signature of 114 bytes over a message fits a public key of 57 bytes. -/
def ed448Fits (key : BitVec 456) (sig : BitVec 912) (msg : List Byte) : Bool :=
  let r := sig.toNat % 2 ^ 456
  let t := sig.toNat / 2 ^ 456
  match edDecode key.toNat, edDecode r with
  | some a, some b =>
    let k := edHash 114 (r + key.toNat * 2 ^ 456) msg
    t < edL && ((edBase.times t 448).times 4 3).same ((b.add (a.times k 448)).times 4 3)
  | _, _ => false

end Sys2Proof.Machine
end

