-- ==== Sys2Proof/Syntax.lean ====
section
/-!
DEFINITION. The instructions, steps and events of the Jotin: one constructor of `Instr` per row of
spec/opcode_table.json, with the operand fields of spec/03 (Tables 14 to 16) as structures.
-/
namespace Sys2Proof

/-- A 13-bit vector operand specifier by its kind (R71). -/
inductive Spec where
  | reg (v : BitVec 6)
  | line (n : BitVec 11)
  | handle (h : BitVec 5)
  | scalar (s : BitVec 6)
deriving DecidableEq, Repr

/-- Class CREG with D, A and B (R70). -/
structure R3 where
  d : Reg
  a : Reg
  b : Reg
deriving DecidableEq, Repr

/-- Class CREG with D and A (R91). -/
structure R2 where
  d : Reg
  a : Reg
deriving DecidableEq, Repr

/-- Class CREG with D, A, B and C (R92, R93). -/
structure R4 where
  d : Reg
  a : Reg
  b : Reg
  c : Reg
deriving DecidableEq, Repr

/-- Scalar floating point with D, A, B and the format: `dbl` is T1 = f64, else f32 (R96). -/
structure F3 where
  d : Reg
  a : Reg
  b : Reg
  dbl : Bool
deriving DecidableEq, Repr

/-- FSQRT (R97). -/
structure F2 where
  d : Reg
  a : Reg
  dbl : Bool
deriving DecidableEq, Repr

/-- FFMA (R97). -/
structure F4 where
  d : Reg
  a : Reg
  b : Reg
  c : Reg
  dbl : Bool
deriving DecidableEq, Repr

/-- FCVT: T1 the destination, T2 the source (R99). -/
structure FCvt where
  d : Reg
  a : Reg
  t1 : ElemType
  t2 : ElemType
  rm : Rm
deriving DecidableEq, Repr

/-- FCLASS (R100). -/
structure FCls where
  d : Reg
  a : Reg
  t : ElemType
deriving DecidableEq, Repr

/-- EGET and EPEEK: the exchange register in K (R101). -/
structure ExOp where
  d : Reg
  k : BitVec 3
deriving DecidableEq, Repr

/-- MCFG: the level in K (R159). -/
structure McfgOp where
  k : BitVec 3
  a : Reg
  b : Reg
deriving DecidableEq, Repr

/-- Immediate ALU operands (R94). -/
structure I2 where
  d : Reg
  a : Reg
  imm : BitVec 32
deriving DecidableEq, Repr

/-- Immediate shifts (R94). -/
structure Sh where
  d : Reg
  a : Reg
  n : BitVec 6
deriving DecidableEq, Repr

/-- MOVI and MOVHI (R94). -/
structure I1 where
  d : Reg
  imm : BitVec 32
deriving DecidableEq, Repr

/-- LEA (R94). -/
structure LeaOp where
  d : Reg
  a : Reg
  k : BitVec 4
  imm : BitVec 32
deriving DecidableEq, Repr

/-- Width codes of CMEM (R75). -/
inductive MemW where
  | b8 | b16 | b32 | w64 | i8 | i16 | i32
deriving DecidableEq, Repr

/-- LDS and STS (R95). -/
structure CMem where
  d : Reg
  base : Reg
  w : MemW
  off : BitVec 24
deriving DecidableEq, Repr

/-- SYSRD (R108). -/
structure SysRd where
  d : Reg
  n : BitVec 12
deriving DecidableEq, Repr

/-- SYSWR (R108). -/
structure SysWr where
  n : BitVec 12
  a : Reg
deriving DecidableEq, Repr

/-- SYSWR to a register of a numbered group: TSHAPEn, FPCn, TXWn (R147, R318, R155). -/
structure SysWrK where
  k : BitVec 3
  a : Reg
deriving DecidableEq, Repr

/-- BR (R103). -/
structure BrOp where
  slot : BitVec 3
  off : BitVec 30
deriving DecidableEq, Repr

/-- Condition kinds CK (R74). -/
inductive CondKind where
  | nz | z | lt | ge | any | none
deriving DecidableEq, Repr

/-- BC (R103). -/
structure BcOp where
  x : Reg
  slot : BitVec 3
  off : BitVec 30
  ck : CondKind
deriving DecidableEq, Repr

/-- CALL (R104). -/
structure CallOp where
  x : Reg
  slot : BitVec 3
  off : BitVec 30
deriving DecidableEq, Repr

/-- JMPT (R105). -/
structure JmptOp where
  x : Reg
  y : Reg
deriving DecidableEq, Repr

/-- LOOP (R106). -/
structure LoopOp where
  x : Reg
  y : Reg
  slot : BitVec 3
  off : BitVec 30
deriving DecidableEq, Repr

/-- Class V3 with its DLY (R70, R65). -/
structure V3 where
  dly : BitVec 4
  ty : ElemType
  pred : BitVec 4
  d : Spec
  a : Spec
  b : Spec
deriving DecidableEq, Repr

/-- Class V2 with its DLY; unused fields hold zero (R70, R78). -/
structure V2 where
  dly : BitVec 4
  ty : ElemType
  pred : BitVec 4
  d : Spec
  a : Spec
  t2 : ElemType
  rm : Rm
  x : BitVec 6
  q : Bool
deriving DecidableEq, Repr

/-- Comparison codes CC (spec/03 under Table 18). -/
inductive CmpCode where
  | eq | ne | lt | le | gt | ge | un
deriving DecidableEq, Repr

/-- Class VP (R70). -/
structure VP where
  ty : ElemType
  pred : BitVec 4
  pd : BitVec 4
  cc : CmpCode
  a : Spec
  b : Spec
deriving DecidableEq, Repr

/-- Class PP (R70); unused fields hold zero. -/
structure PP where
  ty : ElemType
  pd : BitVec 4
  pa : BitVec 4
  pb : BitVec 4
  imm : BitVec 11
deriving DecidableEq, Repr

/-- Class TM with its DLY (R70); unused fields hold zero. -/
structure TM where
  dly : BitVec 4
  t : BitVec 3
  ty : ElemType
  l : Spec
  s : Reg
  o1 : BitVec 6
  o2 : BitVec 6
  rm : Rm
  f : BitVec 6
deriving DecidableEq, Repr

/-- Class SPF with its DLY (R70); unused fields hold zero. -/
structure SPF where
  dly : BitVec 4
  ya : BitVec 12
  yb : BitVec 12
  l : Spec
  cnt : BitVec 8
  m : BitVec 3
deriving DecidableEq, Repr

/-- The parameters of a subtree record (R69, Table 16): LEAF, WGT and KEEP fields packed as the
slots hold them, entry 0 lowest. -/
structure Subtree where
  nmask : BitVec 7
  nops : BitVec 21
  root : BitVec 12
  doff : BitVec 12
  kcnt : BitVec 3
  wmask : BitVec 8
  leaves : BitVec 96
  wgts : BitVec 96
  keeps : BitVec 90
deriving DecidableEq, Repr

/-- SPUP or SPDN: DLY and the record's parameters (R69). -/
structure SpRec where
  dly : BitVec 4
  tree : Subtree
deriving DecidableEq, Repr

/-- Class MV with its DLY (R70, R247). -/
structure MV where
  dly : BitVec 4
  l : Spec
  base : Reg
  m : BitVec 5
  off : BitVec 24
deriving DecidableEq, Repr

/-- Class MX with its DLY (R70). -/
structure MX where
  dly : BitVec 4
  l : Spec
  x : BitVec 6
  s : Reg
  m : BitVec 7
deriving DecidableEq, Repr

/-- Class MG with its DLY (R70). -/
structure MG where
  dly : BitVec 4
  l : Spec
  i : Spec
  base : Reg
  ty : ElemType
  pred : BitVec 4
  m : BitVec 4
deriving DecidableEq, Repr

/-- Fetch-and-ops AOP (R76). -/
inductive Aop where
  | add | min | max | minz | maxz | and | or | xor | swap | cas | fadd
deriving DecidableEq, Repr

/-- Class MA: `w64` is W = 01 (R76). -/
structure MA where
  d : Reg
  a : Reg
  b : Reg
  c : Reg
  aop : Aop
  w64 : Bool
deriving DecidableEq, Repr

/-- KIND of FENCE (R77). -/
inductive FenceKind where
  | acq | rel | full
deriving DecidableEq, Repr

/-- Scopes (R77, R260). -/
inductive Scope where
  | ctx | core | die | pkg | circ | sys
deriving DecidableEq, Repr

/-- FENCE (R274). -/
structure FenceOp where
  kind : FenceKind
  scope : Scope
  circ : BitVec 8
deriving DecidableEq, Repr

/-- HCFG (R196). -/
structure HcfgOp where
  h : BitVec 5
  a : Reg
deriving DecidableEq, Repr

/-- HSTAT (R197). -/
structure HstatOp where
  d : Reg
  h : BitVec 5
deriving DecidableEq, Repr

/-- WAITF, WAITE, ADVC, ADVP (R198). -/
structure GateOp where
  h : BitVec 5
  n : BitVec 8
deriving DecidableEq, Repr

/-- TKSEND and TKWAIT (R199). -/
structure TokOp where
  snd : Engine
  rcv : Engine
  n : BitVec 8
deriving DecidableEq, Repr

/-- LAUNCH (R224). -/
structure LaunchOp where
  e : BitVec 3
  a : Reg
deriving DecidableEq, Repr

/-- CPOST (R292). -/
structure CpostOp where
  q : BitVec 4
  l : Spec
deriving DecidableEq, Repr

/-- WAITSEQ (R301). -/
structure WaitseqOp where
  q : BitVec 4
  a : Reg
deriving DecidableEq, Repr

/-- SEQRD (R301). -/
structure SeqrdOp where
  d : Reg
  q : BitVec 4
deriving DecidableEq, Repr

/-- CSTAT (R361). -/
structure CstatOp where
  d : Reg
  c : BitVec 8
deriving DecidableEq, Repr

/-- The V3 operations (Table 18). -/
inductive V3Op where
  | vadd | vsub | vmul | vfma | vfms | vmin | vmax | vdiv | vand | vor | vxor
  | vshl | vshr | vsha | vadds | vsubs | vmulh | vsel | vperm | vrotl | vzip | vunzip | vbcast
deriving DecidableEq, Repr

/-- The V2 operations (Table 18). -/
inductive V2Op where
  | vabs | vneg | vnot | vmov | vsqrt | vrsqrt | vrcp | vexp2 | vlog2 | vtanh | vsig | verf
  | vcvt | vwiden | vnarrow | vhad | vqnt | vdqnt | vradd | vrmax | vrmin | vscan
  | vcompr | vexpd | viota
deriving DecidableEq, Repr

/-- The MV operations that lead a nest, and WST (Table 21, R68). -/
inductive MvOp where
  | vld | vst | wld | wst | pref
deriving DecidableEq, Repr

/-- The lead of a nest record (R68). -/
inductive Lead where
  | v3 (op : V3Op) (o : V3)
  | v2 (op : V2Op) (o : V2)
  | mv (op : MvOp) (o : MV)
  | mx (store : Bool) (o : MX)
  | mg (store : Bool) (o : MG)
deriving DecidableEq, Repr

/-- Nest parameter slots (R66, Table 14): strides packed as the slots hold them, level 0 lowest. -/
structure NestP where
  t0 : BitVec 14
  t1 : BitVec 14
  t2 : BitVec 14
  t3 : BitVec 14
  tsend : Option Engine
  twait : Option Engine
  dstr : BitVec 128
  astr : BitVec 128
  bstr : BitVec 128
deriving DecidableEq, Repr

/-- EST (R351, Table 94). -/
structure EstOp where
  c : BitVec 8
  da : BitVec 4
  pa : BitVec 3
  db : BitVec 4
  pb : BitVec 3
  wg : BitVec 8
  nr : BitVec 2
  r0d : BitVec 4
  r0i : BitVec 3
  r0o : BitVec 3
  r1d : BitVec 4
  r1i : BitVec 3
  r1o : BitVec 3
  x : Bool
  lpos : Bool
deriving DecidableEq, Repr

/-- STEP (R351). -/
structure StepOp where
  fcnt : BitVec 8
  pmask : BitVec 16
  s : BitVec 32
deriving DecidableEq, Repr

/-- GAP (R351). -/
structure GapOp where
  ports : BitVec 8
  dmask : BitVec 16
deriving DecidableEq, Repr

/-- LMOVE (R351). -/
structure LmoveOp where
  cf : BitVec 8
  ct : BitVec 8
  mg : BitVec 8
deriving DecidableEq, Repr

/-- VECT (R351): `all` names every handle. -/
structure VectOp where
  c : BitVec 8
  all : Bool
  t : BitVec 32
deriving DecidableEq, Repr

/-- MODE of RETRY (R351). -/
inductive RetryMode where
  | any | path | waves | relock
deriving DecidableEq, Repr

/-- RETRY (R351, R354). -/
structure RetryOp where
  c : BitVec 8
  mode : RetryMode
  limit : BitVec 8
deriving DecidableEq, Repr

/-- Subcodes of an optical fault (Table 92). -/
inductive OptSub where
  | laser | ringdet | lock
deriving DecidableEq, Repr

/-- The parties that may write the management aperture: the three kinds of candidate (R408). -/
inductive Master where
  | os | mgmt | peer (dev : BitVec 8)
deriving DecidableEq, Repr

/-- A resource that the assay tests and may retire, by its defect kind (R326, Table 87). -/
structure Resource where
  kind : BitVec 8
  die : BitVec 4
  index : BitVec 32
deriving DecidableEq, Repr

/-- A part of a context's own arrays (R324): a scalar, a predicate, a window line, a tile, an operand slot, a y bank. -/
inductive OwnPart where
  | s (n : Nat) | p (n : Nat) | line (n : Nat) | tile (t : Nat) | slot (o : Nat) | ybank (b : Nat)
deriving DecidableEq, Repr

/-- Where an error lies (R324 to R326): a sector of memory by its location, in its own array or in the way of the die cache
that holds it; an array of the context at a position; the save area of a task; the interface of an HBM
channel; a switch path. -/
inductive ErrLoc where
  | mem (loc : Nat) (way : Option (BitVec 4))
  | channel (die : BitVec 4) (ch : BitVec 5)
  | path (p : BitVec 16)
  | own (pos : Nat) (p : OwnPart)
  | save (lid wid : Nat)
deriving DecidableEq, Repr

/-- What has come of an error (R324 to R326): corrected; found uncorrectable with no consumer; or uncorrectable and not found
yet. -/
inductive ErrFound where
  | corrected | scrubbed | latent
deriving DecidableEq, Repr

/-- An error, and what has come of it. -/
structure ScrubErr where
  loc : ErrLoc
  found : ErrFound
deriving DecidableEq, Repr

/-- The tag of a loaded operand slot as a debugger writes it (R152): a TYPE code or 16 + BFMT, KLEN, HEN and HSEED. -/
structure DbgTag where
  fmt : Nat
  klen : Nat
  hen : Bool
  seed : Nat
deriving DecidableEq, Repr

/-- What a debugger writes in a halted context (R336, R337). -/
inductive DbgTarget where
  | scalar (r : Reg) (v : Word)
  | banked (r : Reg) (v : Word)
  | pred (p : BitVec 4) (v : BitVec 128)
  | line (n : Nat) (v : Line)
  | exch (e : BitVec 3) (v : Word) (full : Bool)
  | handleBit (h : BitVec 5) (slot : Nat) (full : Bool)
  | handleHead (h : BitVec 5) (head tail : Nat)
  | handleDesc (h : BitVec 5) (base size count : Nat) (peng ceng : Engine)
  | sysreg (n : BitVec 12) (v : Word)
  | tile (word : Nat) (v : BitVec 32)
  | slot (o : BitVec 6) (row : Nat) (v : Line)
  /-- A slot released, claimed without a tag, or loaded. -/
  | slotTag (o : BitVec 6) (tag : Option (Option DbgTag))
  | yreg (y : BitVec 12) (v : BitVec 32)
  | token (snd rcv : Engine) (n : Nat)
  | pc (e : Engine) (v : Word)
  | clearFailed (q : BitVec 4)
deriving DecidableEq, Repr

/-- A bind record as the firmware writes it (R219, Table 60). -/
structure BindReq where
  pos : Nat
  lid : Nat
  wid : Nat
  pad : Bool
  pers : Bool
  cls : BitVec 2
  res : Bool
  tidx : Nat
  tsize : Nat
  phase : Nat
deriving DecidableEq, Repr

/-- A link's peer as training finds it (R410, R411). -/
structure PeerInfo where
  dev : BitVec 8
  link : BitVec 5
  secret : BitVec 256
deriving DecidableEq, Repr

/-- The fields of a full header (R358). -/
structure Header where
  kind : BitVec 4
  addr : BitVec 56
  len : BitVec 32
  requester : BitVec 32
  reqid : BitVec 32
deriving DecidableEq, Repr

/-- A packet that arrives at a port, on a circuit: its header's bytes (R358). -/
structure Packet where
  circ : BitVec 8
  die : Nat
  port : Nat
  head : List (BitVec 8)
deriving DecidableEq, Repr

/-- The instructions, steps and events, one constructor per row of spec/opcode_table.json. -/
inductive Instr where
  -- CTL
  | nop
  | add (o : R3) | sub (o : R3) | mul (o : R3) | mulh (o : R3) | mulhz (o : R3)
  | div (o : R3) | divz (o : R3) | rem (o : R3) | remz (o : R3)
  | and (o : R3) | or (o : R3) | xor (o : R3) | andn (o : R3)
  | shl (o : R3) | shr (o : R3) | sha (o : R3) | rotl (o : R3)
  | clz (o : R2) | ctz (o : R2) | popc (o : R2)
  | min (o : R3) | minz (o : R3) | max (o : R3) | maxz (o : R3)
  | seq (o : R3) | sne (o : R3) | slt (o : R3) | sltz (o : R3) | sle (o : R3) | slez (o : R3)
  | sel (o : R4) | bfx (o : R4) | bfxz (o : R4) | bfi (o : R4)
  | fadd (o : F3) | fsub (o : F3) | fmul (o : F3) | fdiv (o : F3)
  | fsqrt (o : F2) | ffma (o : F4)
  | fmin (o : F3) | fmax (o : F3) | feq (o : F3) | flt (o : F3) | fle (o : F3)
  | fcvt (o : FCvt) | fclass (o : FCls)
  | eget (o : ExOp) | epeek (o : ExOp)
  | mcfg (o : McfgOp) | mgo | mwait | mstat (d : Reg)
  | addi (o : I2) | andi (o : I2) | ori (o : I2) | xori (o : I2)
  | shli (o : Sh) | shri (o : Sh) | shai (o : Sh) | rotli (o : Sh)
  | movi (o : I1) | movhi (o : I1) | lea (o : LeaOp)
  | lds (o : CMem) | sts (o : CMem)
  | sysrd (o : SysRd) | syswr (o : SysWr)
  | syswrTshape (o : SysWrK) | syswrSpm (a : Reg) | syswrFpc (o : SysWrK) | syswrTxw (o : SysWrK)
  | prio (n : BitVec 2) | heart | trap (n : BitVec 16) | bkpt (n : BitVec 16)
  | idle
  -- ALL
  | br (o : BrOp) | bc (o : BcOp) | call (o : CallOp) | ret (x : Reg) | jmpt (o : JmptOp)
  | loop (o : LoopOp) | endTask | tret
  -- VEC
  | vadd (o : V3) | vsub (o : V3) | vmul (o : V3) | vfma (o : V3) | vfms (o : V3)
  | vmin (o : V3) | vmax (o : V3) | vdiv (o : V3) | vand (o : V3) | vor (o : V3) | vxor (o : V3)
  | vshl (o : V3) | vshr (o : V3) | vsha (o : V3) | vadds (o : V3) | vsubs (o : V3)
  | vmulh (o : V3) | vsel (o : V3) | vperm (o : V3) | vrotl (o : V3) | vzip (o : V3)
  | vunzip (o : V3) | vbcast (o : V3)
  | vabs (o : V2) | vneg (o : V2) | vnot (o : V2) | vmov (o : V2)
  | vsqrt (o : V2) | vrsqrt (o : V2) | vrcp (o : V2) | vexp2 (o : V2) | vlog2 (o : V2)
  | vtanh (o : V2) | vsig (o : V2) | verf (o : V2)
  | vcvt (o : V2) | vwiden (o : V2) | vnarrow (o : V2) | vhad (o : V2) | vqnt (o : V2)
  | vdqnt (o : V2) | vradd (o : V2) | vrmax (o : V2) | vrmin (o : V2) | vscan (o : V2)
  | vcompr (o : V2) | vexpd (o : V2) | viota (o : V2)
  | vcmp (o : VP)
  | pand (o : PP) | por (o : PP) | pxor (o : PP) | pnot (o : PP) | pfirst (o : PP)
  | pcnt (o : PP) | pseti (o : PP)
  | nestIssue (lead : Lead) (p : NestP)
  -- MAT
  | tcfg (o : TM) | tzero (o : TM) | trowld (o : TM) | trowst (o : TM) | tcolld (o : TM)
  | tcolst (o : TM) | tld (o : TM) | tst (o : TM) | tmma (o : TM) | tout (o : TM)
  | oclaim (o : TM) | orel (o : TM) | oload (o : TM)
  | matrixNestStart (pos : Nat) | matrixNestComplete (pos : Nat)
  -- SPE
  | spmode (o : SPF) | spld (o : SPF) | spst (o : SPF) | spmov (o : SPF) | spclr (o : SPF)
  | spnorm (o : SPF) | spup (o : SpRec) | spdn (o : SpRec)
  -- MEM
  | vld (o : MV) | vst (o : MV) | vldt (o : MX) | vstt (o : MX) | vgath (o : MG) | vscat (o : MG)
  | wld (o : MV) | wst (o : MV) | pref (o : MV)
  | atom (o : MA) | red (o : MA)
  | fence (o : FenceOp) | sbar (sm : BitVec 3) | swfence
  -- SYN
  | hcfg (o : HcfgOp) | hstat (o : HstatOp)
  | waitf (o : GateOp) | waite (o : GateOp) | advc (o : GateOp) | advp (o : GateOp)
  | handleFillRelease (pos : Nat) (h : BitVec 5) | handleDrainRelease (pos : Nat) (h : BitVec 5)
  | tksend (o : TokOp) | tokenRelease (pos : Nat) (snd rcv : Engine) | tkwait (o : TokOp)
  | bar (k : BitVec 3) | barrierArrivalAdd (pos : Nat) | barrierComplete (lid level group : Nat)
  | phase | phaseComplete (lid : Nat)
  | launch (o : LaunchOp)
  | cpost (o : CpostOp) | waitseq (o : WaitseqOp) | seqrd (o : SeqrdOp)
  | fstep (a : Reg) | cstat (o : CstatOp) | cwait (c : BitVec 8) | fhint (a : Reg)
  -- the fabric sequencer, and what it does by itself
  | est (o : EstOp) | tear (c : BitVec 8) | hold (c : BitVec 8) | seqStep (o : StepOp)
  | gap (o : GapOp) | lmove (o : LmoveOp) | vect (o : VectOp) | retry (o : RetryOp)
  | signal (addr : BitVec 56) | seqDone
  | stepIssue (lid : Nat) | settleElapsed (c : BitVec 8) | drainComplete (c : BitVec 8)
  -- job cards
  | copy (id : Nat) | fill (id : Nat) | crc (id : Nat) | transpose (id : Nat) | convert (id : Nat)
  | quantise (id : Nat) | dequantise (id : Nat) | compress (id : Nat) | decompress (id : Nat)
  | rread (id : Nat) | rwrite (id : Nat) | rreduce (id : Nat) | rfetch (id : Nat)
  | rsignal (id : Nat) | dispatch (id : Nat)
  | cardRetire (id : Nat) | segmentCommit (id : Nat) | chainDisableComplete (pos : Nat) (q : BitVec 4)
  -- fetch-and-op requests
  | atomicAtHome (rid : Nat)
  -- launches and tasks
  | launchSubmit (addr root : Nat) | admitNext | launchComplete (lid : Nat)
  | bindRecordWrite (b : BindReq) | taskDispatch (pos : Nat) | resume (pos : Nat)
  | handlerEntry (pos : Nat)
  -- steps that other steps make, and inputs
  | preempt (pos : Nat) | watchdogFire (pos : Nat)
  | chainEnable (a : Reg) | chainDisable (a : Reg) | chainFailedClear (a : Reg)
  | idleTimeout (pos : Nat) | alloy (router p q : Nat) | part (entry : Nat)
  | receiptQuery (c : BitVec 8) | lostCircuitSettle (c : BitVec 8)
  | scrubError (e : ScrubErr) | assay (r : Resource) (passed : Bool)
  | debugHalt (pos : Nat) | debugWrite (pos : Nat) (t : DbgTarget) | debugStep (pos : Nat)
  | tlbShootdown (root va size : Nat) | rangeRegisterWrite (die n : Nat) (rgb rgl : Word)
  | wsctlOpen (die lid : Nat) (open_ : Bool)
  -- the fabric: what happens to circuits
  | drainBoundExpiry (c : BitVec 8)
  | opticalFaultReport (c : BitVec 8) (die : BitVec 4) (port : BitVec 3) (wave : BitVec 6)
      (sub : OptSub)
  | recoveryAttemptEnd (c : BitVec 8) (locked : Bool) | sequencerFailover
  | groupRetrain (die port group : Nat)
  | pause (c : BitVec 8) (hop : Nat) (dir : Bool) | resumeSymbol (c : BitVec 8) (hop : Nat) (dir : Bool)
  | frameReceive (c : BitVec 8) (hop : Nat) (dir : Bool) (body : List Byte) (tag : BitVec 128)
  | streamOpen (p : Packet) | accept (p : Packet) | refuse (p : Packet)
  -- links, owner, management
  | linkSteer (pair : Nat) | linkWavelengthRetrain (link wave : Nat) (done : Bool)
  | linkTrain (link : Nat) (peer : PeerInfo) | linkset (peers : List (Nat × PeerInfo))
  | fqtailWrite (m : Master) (v : Word) | devnoWrite (m : Master) (v : Word)
  | lsecretWrite (m : Master) (v : BitVec 256) | okeysWrite (m : Master) (i : BitVec 3) (v : BitVec 512)
  | oklockCommit (m : Master) (v : Word)
  | electionNonce (n : BitVec 256) | ownerAnswer (m : Master) (key : BitVec 456) (sig : BitVec 912)
  | handoverWrite (m : Master) (v : Word) | handoverTimeout | keepaliveTimeout
  | quote (nonce : BitVec 256) | bootStageMeasure (image : List Byte)
  | pcapWrite (m : Master) (v : Word) | governorStep (draw : BitVec 16)
  | laserBankRemove (b : Nat) | laserBankReturn (b : Nat) (passed : Bool)
  | dieReset (d : Nat) | readinessSet (bit : Nat) | debuggerAttach (lid : Nat)
  | partnerCircuitChange (link : BitVec 5) (pos : Bool) (settled : Bool) (groups : BitVec 8)
      (die : BitVec 4)
  | linkDown (link : Nat) | ownerKeepalive (m : Master) | channelCopyComplete (die ch : Nat)
deriving DecidableEq, Repr

end Sys2Proof
end

