-- ==== Sys2Proof/WellFormed.lean ====
section
/-!
DEFINITION. The checks that the encoding rules R66 to R78, and the chapters' tables of accepted codes, make on the
fields of an instruction. A slot whose fields break one of them raises ILLOP or ILLREC when it is decoded (R63).
-/
namespace Sys2Proof

/-- The all-zero specifier that an absent operand must hold (R71). -/
def Spec.isZero (s : Spec) : Bool := s == .reg 0

/-- Kinds 00, 01 and 10: the specifier names a line (R71). -/
def Spec.isLine : Spec → Bool
  | .scalar _ => false
  | _ => true

/-- An exchange-register destination: kind 11 with value bits 10 to 3 zero (R72). -/
def Spec.isExch : Spec → Bool
  | .scalar s => decide (s.toNat < 8)
  | _ => false

/-- The floating-point types of VRSQRT and the functions after it, and of the block formats (R126, R133). -/
def ElemType.isSmallFp : ElemType → Bool
  | .f16 | .bf16 | .f32 => true
  | _ => false

/-- The types FCVT and FCLASS accept (R99). -/
def ElemType.isScalarCvt : ElemType → Bool
  | .i32 | .b32 | .f16 | .bf16 | .f32 | .f64 | .sp32 | .i64 => true
  | _ => false

/-- The TYPE codes each V3 operation accepts (Table 35, R124, R138). -/
def V3Op.accepts (op : V3Op) (t : ElemType) : Bool :=
  match op with
  | .vadd | .vsub | .vmul | .vfma | .vfms | .vmin | .vmax => t.isNum
  | .vdiv => t.isFp || t == .sp32
  | .vshl | .vshr | .vsha | .vadds | .vsubs | .vmulh => t.isInt
  | .vand | .vor | .vxor | .vsel | .vperm | .vrotl | .vzip | .vunzip | .vbcast => true

/-- A V3 instruction (R71, R73): an accepted type, and no scalar destination. -/
def V3.wf (op : V3Op) (o : V3) : Bool := op.accepts o.ty && o.d.isLine

/-- The unused T2, RM, X and Q of a V2 instruction are zero (R78). -/
def V2.plain (o : V2) : Bool := o.t2 == .i4 && o.rm == .fpmode && o.x == 0 && !o.q

/-- A V2 instruction (Table 18 and the rules of chapter 05). -/
def V2.wf (op : V2Op) (o : V2) : Bool :=
  match op with
  | .vabs | .vneg => (o.ty.isInt || o.ty.isFp) && o.d.isLine && o.plain
  | .vnot | .vmov | .vcompr | .vexpd => o.d.isLine && o.plain
  | .vsqrt | .vrcp => o.ty.isFp && o.d.isLine && o.plain
  | .vrsqrt | .vexp2 | .vlog2 | .vtanh | .vsig | .verf => o.ty.isSmallFp && o.d.isLine && o.plain
  | .vcvt => o.d.isLine && o.x == 0 && !o.q
  | .vwiden => o.d.isLine && o.x == 0 && !o.q && o.rm == .fpmode &&
      decide (o.ty.width ≥ 2 * o.t2.width)
  | .vnarrow => o.d.isLine && o.x == 0 && !o.q && decide (o.t2.width ≥ 2 * o.ty.width)
  | .vhad => o.ty.isSmallFp && o.d.isLine && o.t2 == .i4 && o.rm == .fpmode
  | .vqnt => o.ty.isSmallFp && o.d.isLine && o.t2 == .i4 && !o.q
  | .vdqnt => o.ty.isSmallFp && o.d.isLine && o.t2 == .i4 && !o.q && o.rm != .sr
  | .vradd | .vrmax | .vrmin => o.ty.isNum && (o.d.isLine || o.d.isExch) && o.plain
  | .vscan => o.ty.isNum && o.d.isLine && o.plain
  | .viota => o.ty.isInt && o.d.isLine && o.a.isZero && o.plain

/-- VCMP (R128). -/
def VP.wf (o : VP) : Bool := o.ty.isNum && !(o.cc == .un && o.ty.isInt)

/-- The fields a MAT instruction does not use are zero (R78): one flag per field that it does use. -/
def TM.uses (o : TM) (t ty l s o1 o2 rm f : Bool) : Bool :=
  (t || o.t == 0) && (ty || o.ty == .i4) && (if l then o.l.isLine else o.l.isZero) &&
  (s || o.s == 0) && (o1 || o.o1 == 0) && (o2 || o.o2 == 0) && (rm || o.rm == .fpmode) &&
  (f || o.f == 0)

/-- The product classes of TMMA (Table 40). -/
def ElemType.isClass : ElemType → Bool
  | .f64 | .f32 | .f16 | .bf16 | .f8e4 | .b4 | .i8 | .i4 => true
  | _ => false

/-- TOUT's static checks (R162, R163). -/
def TM.wfTout (o : TM) : Bool :=
  o.uses true true true true false false true true && !o.f.getLsbD 4 &&
  !(o.ty == .sp32 && o.rm == .sr) && !(o.f.getLsbD 3 && o.ty != .f32)

/-- The fields an SPE instruction does not use are zero (Table 20). -/
def SPF.uses (o : SPF) (ya yb l cnt m : Bool) : Bool :=
  (ya || o.ya == 0) && (yb || o.yb == 0) && (if l then o.l.isLine else o.l.isZero) &&
  (cnt || o.cnt == 0) && (m || o.m == 0)

/-- A register range from `y` of CNT + 1 registers stays within y4095 (Table 20). -/
def SPF.inRange (o : SPF) (y : BitVec 12) : Bool := decide (y.toNat + o.cnt.toNat ≤ 4095)

/-- Bit field `len` wide at `lo` of a packed parameter. -/
def bitsAt {n : Nat} (x : BitVec n) (lo len : Nat) : Nat := (x.toNat >>> lo) % 2 ^ len

/-- A subtree record's static field rules (R69). -/
def Subtree.wf (t : Subtree) : Bool :=
  decide (t.kcnt.toNat ≤ 6) &&
  (List.range 7).all (fun n =>
    decide (bitsAt t.nops (3 * n) 3 ≤ 4) && (t.nmask.getLsbD n || bitsAt t.nops (3 * n) 3 == 0)) &&
  (List.range 8).all (fun j => t.wmask.getLsbD j || bitsAt t.wgts (12 * j) 12 == 0) &&
  (List.range 6).all (fun k =>
    if k < t.kcnt.toNat then decide (bitsAt t.keeps (15 * k + 12) 3 ≤ 5)
    else bitsAt t.keeps (15 * k) 15 == 0)

/-- The M field of an MV instruction (R247). -/
def MV.wf (op : MvOp) (o : MV) : Bool :=
  bitsAt o.m 0 2 != 3 && !o.m.getLsbD 4 && !(o.m.getLsbD 2 && o.m.getLsbD 3) &&
  (!o.m.getLsbD 2 || !o.base.getLsbD 5) &&
  (match op with
   | .vld | .vst => o.l.isLine
   | .wld | .wst => o.l.isLine && !o.m.getLsbD 2 && !o.m.getLsbD 3
   | .pref => o.l.isZero && !o.m.getLsbD 3)

/-- The M field of a tensor line move (R247). -/
def MX.wf (o : MX) : Bool := o.l.isLine && bitsAt o.m 0 2 != 3 && bitsAt o.m 2 5 == 0

/-- A gather or scatter (R247, R254). -/
def MG.wf (o : MG) : Bool :=
  o.l.isLine && o.i.isLine && bitsAt o.m 0 2 != 3 && !o.m.getLsbD 3 && decide (o.ty.width ≥ 16)

/-- The engine that leads the nest (R66). -/
def Lead.engine : Lead → Engine
  | .v3 _ _ | .v2 _ _ => .vec
  | _ => .mem

/-- The lead slot's own rules, and R68. -/
def Lead.wf : Lead → Bool
  | .v3 op o => o.wf op
  | .v2 op o => o.wf op && o.d.isLine
  | .mv op o => o.wf op && op != .wst
  | .mx _ o => o.wf
  | .mg _ o => o.wf

/-- Whether the lead has a D, A and B operand that a stride may move: absent operands and scalar broadcasts must
have zero strides (R67). -/
def Lead.strided : Lead → Bool × Bool × Bool
  | .v3 _ o => (true, o.a.isLine, o.b.isLine)
  | .v2 op o => (true, op != .viota && o.a.isLine, false)
  | .mv op _ => (op != .pref, true, false)
  | .mx _ _ => (true, true, false)
  | .mg _ _ => (true, true, true)

/-- Nest parameter slots (R66, R67). -/
def NestP.wf (l : Lead) (p : NestP) : Bool :=
  p.tsend != some l.engine && p.twait != some l.engine &&
  (l.strided.1 || p.dstr == 0) && (l.strided.2.1 || p.astr == 0) && (l.strided.2.2 || p.bstr == 0)

/-- System register numbers whose SYSWR has a row of its own: TSHAPE, SPM, FPC, TXW (R147, R169, R318, R155). -/
def sysOwnRow (n : Nat) : Bool :=
  (decide (0x010 ≤ n) && decide (n ≤ 0x017)) || n == 0x019 ||
  (decide (0x088 ≤ n) && decide (n ≤ 0x08D)) || (decide (0x021 ≤ n) && decide (n ≤ 0x028))

/-- The instruction's fields obey R66 to R78. Steps and events that no slot encodes have no such fields. -/
def Instr.wf : Instr → Bool
  | .fcvt o => o.t1.isScalarCvt && o.t2.isScalarCvt && o.rm != .sr
  | .fclass o => o.t.isScalarCvt
  | .mcfg o => decide (o.k.toNat < 6)
  | .sts o => o.w == .b8 || o.w == .b16 || o.w == .b32 || o.w == .w64
  | .syswr o => !sysOwnRow o.n.toNat
  | .syswrFpc o => decide (o.k.toNat < 6)
  | .bc o => !(o.ck == .any || o.ck == .none) || decide (o.x.toNat < 16)
  | .vadd o => o.wf .vadd | .vsub o => o.wf .vsub | .vmul o => o.wf .vmul
  | .vfma o => o.wf .vfma | .vfms o => o.wf .vfms | .vmin o => o.wf .vmin | .vmax o => o.wf .vmax
  | .vdiv o => o.wf .vdiv | .vand o => o.wf .vand | .vor o => o.wf .vor | .vxor o => o.wf .vxor
  | .vshl o => o.wf .vshl | .vshr o => o.wf .vshr | .vsha o => o.wf .vsha
  | .vadds o => o.wf .vadds | .vsubs o => o.wf .vsubs | .vmulh o => o.wf .vmulh
  | .vsel o => o.wf .vsel | .vperm o => o.wf .vperm | .vrotl o => o.wf .vrotl
  | .vzip o => o.wf .vzip | .vunzip o => o.wf .vunzip | .vbcast o => o.wf .vbcast
  | .vabs o => o.wf .vabs | .vneg o => o.wf .vneg | .vnot o => o.wf .vnot | .vmov o => o.wf .vmov
  | .vsqrt o => o.wf .vsqrt | .vrsqrt o => o.wf .vrsqrt | .vrcp o => o.wf .vrcp
  | .vexp2 o => o.wf .vexp2 | .vlog2 o => o.wf .vlog2 | .vtanh o => o.wf .vtanh
  | .vsig o => o.wf .vsig | .verf o => o.wf .verf | .vcvt o => o.wf .vcvt
  | .vwiden o => o.wf .vwiden | .vnarrow o => o.wf .vnarrow | .vhad o => o.wf .vhad
  | .vqnt o => o.wf .vqnt | .vdqnt o => o.wf .vdqnt | .vradd o => o.wf .vradd
  | .vrmax o => o.wf .vrmax | .vrmin o => o.wf .vrmin | .vscan o => o.wf .vscan
  | .vcompr o => o.wf .vcompr | .vexpd o => o.wf .vexpd | .viota o => o.wf .viota
  | .vcmp o => o.wf
  | .pand o | .por o | .pxor o => o.ty == .i4 && o.imm == 0
  | .pnot o => o.ty == .i4 && o.imm == 0 && o.pb == 0
  | .pfirst o => o.imm == 0 && o.pb == 0
  | .pcnt o => o.imm == 0 && o.pb == 0 && decide (o.pd.toNat < 8)
  | .pseti o => o.pa == 0 && o.pb == 0 && decide (o.imm.toNat ≤ o.ty.count)
  | .nestIssue l p => l.wf && p.wf l
  | .tcfg o => o.uses true false false true false false false false
  | .tzero o => o.uses true false false false false false false false
  | .trowld o | .trowst o | .tcolld o | .tcolst o =>
      o.uses true false true true false false false false
  | .tld o | .tst o => o.uses true false true false false false false false
  | .tmma o => o.uses true true false false true true false false && o.ty.isClass
  | .tout o => o.wfTout
  | .oclaim o | .orel o => o.uses false false false false true false false false
  | .oload o => o.uses false false false true true false false true
  | .spmode o => o.uses false false false false true && decide (o.m.toNat ≤ 3)
  | .spld o | .spst o => o.uses true false true true false && o.inRange o.ya
  | .spmov o => o.uses true true false true false && o.inRange o.ya && o.inRange o.yb
  | .spclr o => o.uses true false false true false && o.inRange o.ya
  | .spnorm o => o.uses true true false true true && o.inRange o.ya && decide (o.m.toNat ≤ 2)
  | .spup o | .spdn o => o.tree.wf
  | .vld o => o.wf .vld | .vst o => o.wf .vst | .wld o => o.wf .wld | .wst o => o.wf .wst
  | .pref o => o.wf .pref
  | .vldt o | .vstt o => o.wf
  | .vgath o | .vscat o => o.wf
  | .atom o => o.aop == .cas || o.c == 0
  | .red o => o.aop != .cas && o.c == 0 && o.d == 0
  | .fence o => o.scope == .circ || o.circ == 0
  | .sbar sm => sm != 0
  | .waitf o | .waite o | .advc o | .advp o => decide (1 ≤ o.n.toNat) && decide (o.n.toNat ≤ 64)
  | .tksend o | .tkwait o => o.snd != o.rcv && decide (1 ≤ o.n.toNat) && decide (o.n.toNat ≤ 15)
  | .bar k => decide (k.toNat < 6)
  | .cpost o => o.l.isLine
  | .est o => (o.x || !o.lpos) && o.nr != 3
  | .signal a => a.toNat % 8 == 0
  | _ => true

end Sys2Proof
end

