-- ==== Sys2Proof/Decode.lean ====
section
/-!
DEFINITION. The decoder and the encoder of records, slots and sequencer operations (spec/03 R61 to R79,
spec/16 R351), both written from Tables 13 to 23 and 94. Decoding is total; what fits no instruction is rejected by
name as ILLOP or ILLREC (R63).
-/
namespace Sys2Proof

/-- The two ways a slot fails to decode (R63). -/
inductive DecErr where
  | illop | illrec
deriving DecidableEq, Repr

/-- The outcome of decoding a slot. -/
abbrev Dec := Except DecErr Instr

/-- Bits `lo + len - 1` to `lo` of a slot. -/
def fld (w : Word) (lo len : Nat) : BitVec len := w.extractLsb' lo len

/-- ILLOP unless the reserved or unused bits are zero (R78). -/
def needZero (b : Bool) (i : Instr) : Dec := if b then .ok i else .error .illop

/-- ILLOP unless the optional field decodes. -/
def need {α : Type} (x : Option α) (k : α → Dec) : Dec :=
  match x with
  | some a => k a
  | none => .error .illop

/-- A 13-bit operand specifier (R71); the value bits its kind does not use must be zero. -/
def Spec.decode (x : BitVec 13) : Option Spec :=
  let v := x.extractLsb' 0 11
  match (x.extractLsb' 11 2).toNat with
  | 0 => if v.extractLsb' 6 5 == 0 then some (.reg (v.extractLsb' 0 6)) else none
  | 1 => some (.line v)
  | 2 => if v.extractLsb' 5 6 == 0 then some (.handle (v.extractLsb' 0 5)) else none
  | _ => if v.extractLsb' 6 5 == 0 then some (.scalar (v.extractLsb' 0 6)) else none

/-- The 13 bits of a specifier (R71). -/
def Spec.encode : Spec → BitVec 13
  | .reg v => 0#2 ++ (0#5 ++ v)
  | .line n => 1#2 ++ n
  | .handle h => 2#2 ++ (0#6 ++ h)
  | .scalar s => 3#2 ++ (0#5 ++ s)

/-- A TYPE field (R73). -/
def ElemType.decode (x : BitVec 4) : ElemType := ElemType.ofCode x.toNat

/-- A TYPE field's bits (R73). -/
def ElemType.encode (t : ElemType) : BitVec 4 := BitVec.ofNat 4 t.code

/-- T1 of the scalar floating-point operations: f32 or f64 (R96). -/
def dblOfType : ElemType → Option Bool
  | .f32 => some false
  | .f64 => some true
  | _ => none

/-- The T1 code of a scalar floating-point format (R96). -/
def typeOfDbl (dbl : Bool) : ElemType := if dbl then .f64 else .f32

/-- An RM field (R73). -/
def Rm.decode (x : BitVec 3) : Option Rm := Rm.ofCode x.toNat

/-- An RM field's bits (R73). -/
def Rm.encode (r : Rm) : BitVec 3 := BitVec.ofNat 3 r.code

/-- A width code W of CMEM (R75). -/
def MemW.decode (x : BitVec 4) : Option MemW :=
  match x.toNat with
  | 0 => some .b8 | 1 => some .b16 | 2 => some .b32 | 3 => some .w64
  | 4 => some .i8 | 5 => some .i16 | 6 => some .i32 | _ => none

/-- The bits of a width code (R75). -/
def MemW.encode : MemW → BitVec 4
  | .b8 => 0 | .b16 => 1 | .b32 => 2 | .w64 => 3 | .i8 => 4 | .i16 => 5 | .i32 => 6

/-- A condition kind CK (R74). -/
def CondKind.decode (x : BitVec 3) : Option CondKind :=
  match x.toNat with
  | 0 => some .nz | 1 => some .z | 2 => some .lt | 3 => some .ge | 4 => some .any | 5 => some .none
  | _ => Option.none

/-- The bits of a condition kind (R74). -/
def CondKind.encode : CondKind → BitVec 3
  | .nz => 0 | .z => 1 | .lt => 2 | .ge => 3 | .any => 4 | .none => 5

/-- A comparison code CC (Table 18). -/
def CmpCode.decode (x : BitVec 3) : Option CmpCode :=
  match x.toNat with
  | 0 => some .eq | 1 => some .ne | 2 => some .lt | 3 => some .le | 4 => some .gt | 5 => some .ge
  | 6 => some .un | _ => none

/-- The bits of a comparison code (Table 18). -/
def CmpCode.encode : CmpCode → BitVec 3
  | .eq => 0 | .ne => 1 | .lt => 2 | .le => 3 | .gt => 4 | .ge => 5 | .un => 6

/-- The operation field AOP (R76). -/
def Aop.ofCode : Nat → Option Aop
  | 0 => some .add
  | 1 => some .min
  | 2 => some .max
  | 3 => some .minz
  | 4 => some .maxz
  | 5 => some .and
  | 6 => some .or
  | 7 => some .xor
  | 8 => some .swap
  | 9 => some .cas
  | 10 => some .fadd
  | _ => none

/-- The AOP code (R76). -/
def Aop.code : Aop → Nat
  | .add => 0
  | .min => 1
  | .max => 2
  | .minz => 3
  | .maxz => 4
  | .and => 5
  | .or => 6
  | .xor => 7
  | .swap => 8
  | .cas => 9
  | .fadd => 10

/-- SCOPE (R77). -/
def Scope.ofCode : Nat → Option Scope
  | 0 => some .ctx | 1 => some .core | 2 => some .die | 3 => some .pkg | 4 => some .circ
  | 5 => some .sys | _ => none

/-- The SCOPE code (R77). -/
def Scope.code : Scope → Nat
  | .ctx => 0 | .core => 1 | .die => 2 | .pkg => 3 | .circ => 4 | .sys => 5

/-- KIND of FENCE (R77). -/
def FenceKind.ofCode : Nat → Option FenceKind
  | 0 => some .acq | 1 => some .rel | 2 => some .full | _ => none

/-- The KIND code (R77). -/
def FenceKind.code : FenceKind → Nat
  | .acq => 0 | .rel => 1 | .full => 2

/-- OP codes of the V3 operations (Table 18). -/
def V3Op.ofCode : Nat → Option V3Op
  | 0 => some .vadd
  | 1 => some .vsub
  | 2 => some .vmul
  | 3 => some .vfma
  | 4 => some .vfms
  | 5 => some .vmin
  | 6 => some .vmax
  | 7 => some .vdiv
  | 8 => some .vand
  | 9 => some .vor
  | 10 => some .vxor
  | 11 => some .vshl
  | 12 => some .vshr
  | 13 => some .vsha
  | 14 => some .vadds
  | 15 => some .vsubs
  | 16 => some .vmulh
  | 17 => some .vsel
  | 18 => some .vperm
  | 19 => some .vrotl
  | 20 => some .vzip
  | 21 => some .vunzip
  | 22 => some .vbcast
  | _ => none

/-- OP codes of the V3 operations (Table 18). -/
def V3Op.code : V3Op → Nat
  | .vadd => 0
  | .vsub => 1
  | .vmul => 2
  | .vfma => 3
  | .vfms => 4
  | .vmin => 5
  | .vmax => 6
  | .vdiv => 7
  | .vand => 8
  | .vor => 9
  | .vxor => 10
  | .vshl => 11
  | .vshr => 12
  | .vsha => 13
  | .vadds => 14
  | .vsubs => 15
  | .vmulh => 16
  | .vsel => 17
  | .vperm => 18
  | .vrotl => 19
  | .vzip => 20
  | .vunzip => 21
  | .vbcast => 22

/-- OP codes of the V2 operations (Table 18). -/
def V2Op.ofCode : Nat → Option V2Op
  | 32 => some .vabs
  | 33 => some .vneg
  | 34 => some .vnot
  | 35 => some .vmov
  | 36 => some .vsqrt
  | 37 => some .vrsqrt
  | 38 => some .vrcp
  | 39 => some .vexp2
  | 40 => some .vlog2
  | 41 => some .vtanh
  | 42 => some .vsig
  | 43 => some .verf
  | 44 => some .vcvt
  | 45 => some .vwiden
  | 46 => some .vnarrow
  | 47 => some .vhad
  | 48 => some .vqnt
  | 49 => some .vdqnt
  | 50 => some .vradd
  | 51 => some .vrmax
  | 52 => some .vrmin
  | 53 => some .vscan
  | 54 => some .vcompr
  | 55 => some .vexpd
  | 56 => some .viota
  | _ => none

/-- OP codes of the V2 operations (Table 18). -/
def V2Op.code : V2Op → Nat
  | .vabs => 32
  | .vneg => 33
  | .vnot => 34
  | .vmov => 35
  | .vsqrt => 36
  | .vrsqrt => 37
  | .vrcp => 38
  | .vexp2 => 39
  | .vlog2 => 40
  | .vtanh => 41
  | .vsig => 42
  | .verf => 43
  | .vcvt => 44
  | .vwiden => 45
  | .vnarrow => 46
  | .vhad => 47
  | .vqnt => 48
  | .vdqnt => 49
  | .vradd => 50
  | .vrmax => 51
  | .vrmin => 52
  | .vscan => 53
  | .vcompr => 54
  | .vexpd => 55
  | .viota => 56

/-- The instruction of a V3 operation. -/
def V3Op.instr : V3Op → V3 → Instr
  | .vadd => .vadd
  | .vsub => .vsub
  | .vmul => .vmul
  | .vfma => .vfma
  | .vfms => .vfms
  | .vmin => .vmin
  | .vmax => .vmax
  | .vdiv => .vdiv
  | .vand => .vand
  | .vor => .vor
  | .vxor => .vxor
  | .vshl => .vshl
  | .vshr => .vshr
  | .vsha => .vsha
  | .vadds => .vadds
  | .vsubs => .vsubs
  | .vmulh => .vmulh
  | .vsel => .vsel
  | .vperm => .vperm
  | .vrotl => .vrotl
  | .vzip => .vzip
  | .vunzip => .vunzip
  | .vbcast => .vbcast

/-- The instruction of a V2 operation. -/
def V2Op.instr : V2Op → V2 → Instr
  | .vabs => .vabs
  | .vneg => .vneg
  | .vnot => .vnot
  | .vmov => .vmov
  | .vsqrt => .vsqrt
  | .vrsqrt => .vrsqrt
  | .vrcp => .vrcp
  | .vexp2 => .vexp2
  | .vlog2 => .vlog2
  | .vtanh => .vtanh
  | .vsig => .vsig
  | .verf => .verf
  | .vcvt => .vcvt
  | .vwiden => .vwiden
  | .vnarrow => .vnarrow
  | .vhad => .vhad
  | .vqnt => .vqnt
  | .vdqnt => .vdqnt
  | .vradd => .vradd
  | .vrmax => .vrmax
  | .vrmin => .vrmin
  | .vscan => .vscan
  | .vcompr => .vcompr
  | .vexpd => .vexpd
  | .viota => .viota

/-- The MV operations (Table 21). -/
def MvOp.ofCode : Nat → Option MvOp
  | 0 => some .vld | 1 => some .vst | 6 => some .wld | 7 => some .wst | 8 => some .pref | _ => none

/-- OP codes of the MV operations (Table 21). -/
def MvOp.code : MvOp → Nat
  | .vld => 0 | .vst => 1 | .wld => 6 | .wst => 7 | .pref => 8

/-- The instruction of an MV operation. -/
def MvOp.instr : MvOp → MV → Instr
  | .vld => .vld | .vst => .vst | .wld => .wld | .wst => .wst | .pref => .pref

/-! Format classes (Table 15): one decoder each. -/

/-- CREG with D, A, B (R70). -/
def decR3 (k : R3 → Instr) (w : Word) : Dec :=
  needZero (fld w 0 30 == 0) (k ⟨fld w 42 6, fld w 36 6, fld w 30 6⟩)

/-- CREG with D, A (R70). -/
def decR2 (k : R2 → Instr) (w : Word) : Dec :=
  needZero (fld w 0 36 == 0) (k ⟨fld w 42 6, fld w 36 6⟩)

/-- CREG with D, A, B, C (R70). -/
def decR4 (k : R4 → Instr) (w : Word) : Dec :=
  needZero (fld w 0 24 == 0) (k ⟨fld w 42 6, fld w 36 6, fld w 30 6, fld w 24 6⟩)

/-- CREG floating point with D, A, B, T1 (R96). -/
def decF3 (k : F3 → Instr) (w : Word) : Dec :=
  need (dblOfType (ElemType.decode (fld w 20 4))) fun dbl =>
    needZero (fld w 0 20 == 0 && fld w 24 6 == 0) (k ⟨fld w 42 6, fld w 36 6, fld w 30 6, dbl⟩)

/-- FSQRT (R97). -/
def decF2 (k : F2 → Instr) (w : Word) : Dec :=
  need (dblOfType (ElemType.decode (fld w 20 4))) fun dbl =>
    needZero (fld w 0 20 == 0 && fld w 24 12 == 0) (k ⟨fld w 42 6, fld w 36 6, dbl⟩)

/-- FFMA (R97). -/
def decF4 (k : F4 → Instr) (w : Word) : Dec :=
  need (dblOfType (ElemType.decode (fld w 20 4))) fun dbl =>
    needZero (fld w 0 20 == 0) (k ⟨fld w 42 6, fld w 36 6, fld w 30 6, fld w 24 6, dbl⟩)

/-- FCVT (R99). -/
def decFCvt (w : Word) : Dec :=
  need (Rm.decode (fld w 13 3)) fun rm =>
    needZero (fld w 0 13 == 0 && fld w 24 12 == 0)
      (.fcvt ⟨fld w 42 6, fld w 36 6, ElemType.decode (fld w 20 4), ElemType.decode (fld w 16 4), rm⟩)

/-- FCLASS (R100). -/
def decFCls (w : Word) : Dec :=
  needZero (fld w 0 20 == 0 && fld w 24 12 == 0)
    (.fclass ⟨fld w 42 6, fld w 36 6, ElemType.decode (fld w 20 4)⟩)

/-- EGET and EPEEK: D and K, K from 0 to 7 (R101). -/
def decEx (k : ExOp → Instr) (w : Word) : Dec :=
  needZero (fld w 0 8 == 0 && fld w 11 31 == 0) (k ⟨fld w 42 6, fld w 8 3⟩)

/-- MCFG: A, B, K (R159). -/
def decMcfg (w : Word) : Dec :=
  needZero (fld w 0 8 == 0 && fld w 11 19 == 0 && fld w 42 6 == 0)
    (.mcfg ⟨fld w 8 3, fld w 36 6, fld w 30 6⟩)

/-- CIMM with D, A, IMM (R94). -/
def decI2 (k : I2 → Instr) (w : Word) : Dec :=
  needZero (fld w 32 4 == 0) (k ⟨fld w 42 6, fld w 36 6, fld w 0 32⟩)

/-- CIMM with a shift count in IMM bits 5 to 0 (R94). -/
def decSh (k : Sh → Instr) (w : Word) : Dec :=
  needZero (fld w 6 30 == 0) (k ⟨fld w 42 6, fld w 36 6, fld w 0 6⟩)

/-- CIMM with D and IMM (R94). -/
def decI1 (k : I1 → Instr) (w : Word) : Dec :=
  needZero (fld w 32 10 == 0) (k ⟨fld w 42 6, fld w 0 32⟩)

/-- CMEM (R95). -/
def decCMem (k : CMem → Instr) (w : Word) : Dec :=
  need (MemW.decode (fld w 32 4)) fun m =>
    needZero (fld w 24 8 == 0) (k ⟨fld w 42 6, fld w 36 6, m, fld w 0 24⟩)

/-- The SYSWR row of a register number: TSHAPEn, SPM, FPCn and TXWn have rows of their own. -/
def syswrInstr (n : BitVec 12) (a : Reg) : Instr :=
  if 0x010 ≤ n.toNat ∧ n.toNat ≤ 0x017 then .syswrTshape ⟨n.extractLsb' 0 3, a⟩
  else if n.toNat = 0x019 then .syswrSpm a
  else if 0x088 ≤ n.toNat ∧ n.toNat ≤ 0x08D then .syswrFpc ⟨n.extractLsb' 0 3, a⟩
  else if 0x021 ≤ n.toNat ∧ n.toNat ≤ 0x028 then .syswrTxw ⟨(n - 0x21).extractLsb' 0 3, a⟩
  else .syswr ⟨n, a⟩

/-- V3 (R70). -/
def decV3 (k : V3 → Instr) (w : Word) : Dec :=
  need (Spec.decode (fld w 27 13)) fun d => need (Spec.decode (fld w 14 13)) fun a =>
    need (Spec.decode (fld w 1 13)) fun b =>
      needZero (fld w 0 1 == 0)
        (k ⟨fld w 48 4, ElemType.decode (fld w 44 4), fld w 40 4, d, a, b⟩)

/-- V2 (R70). -/
def decV2 (k : V2 → Instr) (w : Word) : Dec :=
  need (Spec.decode (fld w 27 13)) fun d => need (Spec.decode (fld w 14 13)) fun a =>
    need (Rm.decode (fld w 7 3)) fun rm =>
      .ok (k ⟨fld w 48 4, ElemType.decode (fld w 44 4), fld w 40 4, d, a,
        ElemType.decode (fld w 10 4), rm, fld w 1 6, (fld w 0 1 == 1)⟩)

/-- VP (R70). -/
def decVP (w : Word) : Dec :=
  need (CmpCode.decode (fld w 33 3)) fun cc => need (Spec.decode (fld w 14 13)) fun a =>
    need (Spec.decode (fld w 1 13)) fun b =>
      needZero (fld w 0 1 == 0 && fld w 27 6 == 0)
        (.vcmp ⟨ElemType.decode (fld w 44 4), fld w 40 4, fld w 36 4, cc, a, b⟩)

/-- PP (R70). -/
def decPP (k : PP → Instr) (w : Word) : Dec :=
  needZero (fld w 40 4 == 0 && fld w 11 17 == 0)
    (k ⟨ElemType.decode (fld w 44 4), fld w 36 4, fld w 32 4, fld w 28 4, fld w 0 11⟩)

/-- TM (R70). -/
def decTM (k : TM → Instr) (w : Word) : Dec :=
  need (Spec.decode (fld w 28 13)) fun l => need (Rm.decode (fld w 7 3)) fun rm =>
    needZero (fld w 0 1 == 0)
      (k ⟨fld w 48 4, fld w 45 3, ElemType.decode (fld w 41 4), l, fld w 22 6, fld w 16 6,
        fld w 10 6, rm, fld w 1 6⟩)

/-- SPF (R70). -/
def decSPF (k : SPF → Instr) (w : Word) : Dec :=
  need (Spec.decode (fld w 11 13)) fun l =>
    .ok (k ⟨fld w 48 4, fld w 36 12, fld w 24 12, l, fld w 3 8, fld w 0 3⟩)

/-- MV (R70). -/
def decMV (k : MV → Instr) (w : Word) : Dec :=
  need (Spec.decode (fld w 35 13)) fun l =>
    .ok (k ⟨fld w 48 4, l, fld w 29 6, fld w 24 5, fld w 0 24⟩)

/-- MX (R70). -/
def decMX (k : MX → Instr) (w : Word) : Dec :=
  need (Spec.decode (fld w 35 13)) fun l =>
    needZero (fld w 0 16 == 0) (k ⟨fld w 48 4, l, fld w 29 6, fld w 23 6, fld w 16 7⟩)

/-- MG (R70). -/
def decMG (k : MG → Instr) (w : Word) : Dec :=
  need (Spec.decode (fld w 35 13)) fun l => need (Spec.decode (fld w 22 13)) fun i =>
    needZero (fld w 0 4 == 0)
      (k ⟨fld w 48 4, l, i, fld w 16 6, ElemType.decode (fld w 12 4), fld w 8 4, fld w 4 4⟩)

/-- MA (R76). -/
def decMA (k : MA → Instr) (w : Word) : Dec :=
  need (Aop.ofCode (fld w 20 4).toNat) fun aop =>
    needZero (fld w 0 18 == 0 && fld w 19 1 == 0)
      (k ⟨fld w 42 6, fld w 36 6, fld w 30 6, fld w 24 6, aop, (fld w 18 1 == 1)⟩)

/-- The SG fields D, A, IDX, CNT, L an operation does not use are zero (R78). -/
def sgZero (w : Word) (d a idx cnt l : Bool) : Bool :=
  (d || fld w 42 6 == 0) && (a || fld w 36 6 == 0) && (idx || fld w 28 8 == 0) &&
  (cnt || fld w 20 8 == 0) && (l || fld w 7 13 == 0) && fld w 0 7 == 0

/-- A gate slot (R198): IDX names a handle 0 to 31. -/
def decGate (k : GateOp → Instr) (w : Word) : Dec :=
  needZero (sgZero w false false true true false && fld w 33 3 == 0) (k ⟨fld w 28 5, fld w 20 8⟩)

/-- TKSEND and TKWAIT (R199). -/
def decTok (k : TokOp → Instr) (w : Word) : Dec :=
  need (Engine.ofCode (fld w 33 3).toNat) fun s => need (Engine.ofCode (fld w 30 3).toNat) fun r =>
    needZero (sgZero w false false true true false && fld w 28 2 == 0) (k ⟨s, r, fld w 20 8⟩)

/-- The CTL opcode space (Table 17); `none` where the code is unassigned. -/
def decodeCtl (op : Nat) (w : Word) : Option Dec :=
  match op with
  | 0x00 => some (needZero (fld w 0 48 == 0) .nop)
  | 1 => some (decR3 .add w)
  | 2 => some (decR3 .sub w)
  | 3 => some (decR3 .mul w)
  | 4 => some (decR3 .mulh w)
  | 5 => some (decR3 .mulhz w)
  | 6 => some (decR3 .div w)
  | 7 => some (decR3 .divz w)
  | 8 => some (decR3 .rem w)
  | 9 => some (decR3 .remz w)
  | 10 => some (decR3 .and w)
  | 11 => some (decR3 .or w)
  | 12 => some (decR3 .xor w)
  | 13 => some (decR3 .andn w)
  | 14 => some (decR3 .shl w)
  | 15 => some (decR3 .shr w)
  | 16 => some (decR3 .sha w)
  | 17 => some (decR3 .rotl w)
  | 21 => some (decR3 .min w)
  | 22 => some (decR3 .minz w)
  | 23 => some (decR3 .max w)
  | 24 => some (decR3 .maxz w)
  | 25 => some (decR3 .seq w)
  | 26 => some (decR3 .sne w)
  | 27 => some (decR3 .slt w)
  | 28 => some (decR3 .sltz w)
  | 29 => some (decR3 .sle w)
  | 30 => some (decR3 .slez w)
  | 18 => some (decR2 .clz w)
  | 19 => some (decR2 .ctz w)
  | 20 => some (decR2 .popc w)
  | 31 => some (decR4 .sel w)
  | 32 => some (decR4 .bfx w)
  | 33 => some (decR4 .bfxz w)
  | 34 => some (decR4 .bfi w)
  | 48 => some (decF3 .fadd w)
  | 49 => some (decF3 .fsub w)
  | 50 => some (decF3 .fmul w)
  | 51 => some (decF3 .fdiv w)
  | 54 => some (decF3 .fmin w)
  | 55 => some (decF3 .fmax w)
  | 56 => some (decF3 .feq w)
  | 57 => some (decF3 .flt w)
  | 58 => some (decF3 .fle w)
  | 0x34 => some (decF2 .fsqrt w)
  | 0x35 => some (decF4 .ffma w)
  | 0x3B => some (decFCvt w)
  | 0x3C => some (decFCls w)
  | 0x40 => some (decEx .eget w)
  | 0x41 => some (decEx .epeek w)
  | 0x50 => some (decMcfg w)
  | 0x51 => some (needZero (fld w 0 48 == 0) .mgo)
  | 0x52 => some (needZero (fld w 0 48 == 0) .mwait)
  | 0x53 => some (needZero (fld w 0 42 == 0) (.mstat (fld w 42 6)))
  | 128 => some (decI2 .addi w)
  | 129 => some (decI2 .andi w)
  | 130 => some (decI2 .ori w)
  | 131 => some (decI2 .xori w)
  | 132 => some (decSh .shli w)
  | 133 => some (decSh .shri w)
  | 134 => some (decSh .shai w)
  | 135 => some (decSh .rotli w)
  | 0x88 => some (decI1 .movi w)
  | 0x89 => some (decI1 .movhi w)
  | 0x8A => some (.ok (.lea ⟨fld w 42 6, fld w 36 6, fld w 32 4, fld w 0 32⟩))
  | 0x90 => some (decCMem .lds w)
  | 0x91 => some (decCMem .sts w)
  | 0xA0 => some (needZero (fld w 12 30 == 0) (.sysrd ⟨fld w 42 6, fld w 0 12⟩))
  | 0xA1 => some (needZero (fld w 12 24 == 0 && fld w 42 6 == 0) (syswrInstr (fld w 0 12) (fld w 36 6)))
  | 0xA2 => some (needZero (fld w 2 46 == 0) (.prio (fld w 0 2)))
  | 0xA3 => some (needZero (fld w 0 48 == 0) .heart)
  | 0xA4 => some (needZero (fld w 16 32 == 0) (.trap (fld w 0 16)))
  | 0xA5 => some (needZero (fld w 16 32 == 0) (.bkpt (fld w 0 16)))
  | 0xA6 => some (needZero (fld w 0 48 == 0) .idle)
  | _ => none

/-- The VEC opcode space (Table 18). -/
def decodeVec (op : Nat) (w : Word) : Option Dec :=
  match V3Op.ofCode op, V2Op.ofCode op with
  | some k, _ => some (decV3 k.instr w)
  | none, some k => some (decV2 k.instr w)
  | none, none =>
    match op with
    | 0x40 => some (decVP w)
    | 0x50 => some (decPP .pand w)
    | 0x51 => some (decPP .por w)
    | 0x52 => some (decPP .pxor w)
    | 0x53 => some (decPP .pnot w)
    | 0x54 => some (decPP .pcnt w)
    | 0x55 => some (decPP .pfirst w)
    | 0x56 => some (decPP .pseti w)
    | _ => none

/-- The MAT opcode space (Table 19). -/
def decodeMat (op : Nat) (w : Word) : Option Dec :=
  match op with
  | 0 => some (decTM .tcfg w)
  | 1 => some (decTM .tzero w)
  | 2 => some (decTM .trowld w)
  | 3 => some (decTM .trowst w)
  | 4 => some (decTM .tcolld w)
  | 5 => some (decTM .tcolst w)
  | 6 => some (decTM .tld w)
  | 7 => some (decTM .tst w)
  | 8 => some (decTM .tmma w)
  | 9 => some (decTM .tout w)
  | 10 => some (decTM .oclaim w)
  | 11 => some (decTM .orel w)
  | 12 => some (decTM .oload w)
  | _ => none

/-- The parameters of a subtree record, slots 1 to 7 (Table 16); reserved bits must be zero. -/
def decodeSubtree (s : Nat → Word) : Option Subtree :=
  let z := fld (s 1) 63 1 == 0 && fld (s 2) 48 16 == 0 && fld (s 3) 48 16 == 0 &&
    fld (s 4) 48 16 == 0 && fld (s 5) 48 16 == 0 && fld (s 6) 60 4 == 0 && fld (s 7) 30 34 == 0
  if z then
    some { nmask := fld (s 1) 0 7, nops := fld (s 1) 7 21, root := fld (s 1) 28 12,
           doff := fld (s 1) 40 12, kcnt := fld (s 1) 52 3, wmask := fld (s 1) 55 8,
           leaves := fld (s 3) 0 48 ++ fld (s 2) 0 48, wgts := fld (s 5) 0 48 ++ fld (s 4) 0 48,
           keeps := fld (s 7) 0 30 ++ fld (s 6) 0 60 }
  else none

/-- A token field of Table 14: an enable bit and an engine code, zero when not enabled (R66). -/
def decodeTokField (en : BitVec 1) (code : BitVec 3) : Option (Option Engine) :=
  if en == 1 then (Engine.ofCode code.toNat).map some
  else if code == 0 then some none else none

/-- The nest parameter slots (Table 14). -/
def decodeNestP (s : Nat → Word) : Option NestP :=
  match decodeTokField (fld (s 1) 56 1) (fld (s 1) 57 3),
        decodeTokField (fld (s 1) 60 1) (fld (s 1) 61 3) with
  | some snd, some wt =>
    some { t0 := fld (s 1) 0 14, t1 := fld (s 1) 14 14, t2 := fld (s 1) 28 14, t3 := fld (s 1) 42 14,
           tsend := snd, twait := wt, dstr := s 3 ++ s 2, astr := s 5 ++ s 4, bstr := s 7 ++ s 6 }
  | _, _ => none

/-- The SPE opcode space outside subtree records (Table 20). -/
def decodeSpe (op : Nat) (w : Word) : Option Dec :=
  match op with
  | 0 => some (decSPF .spmode w)
  | 1 => some (decSPF .spld w)
  | 2 => some (decSPF .spst w)
  | 3 => some (decSPF .spmov w)
  | 4 => some (decSPF .spclr w)
  | 5 => some (decSPF .spnorm w)
  | 0x10 => some (.error .illrec)
  | 0x11 => some (.error .illrec)
  | _ => none

/-- The MEM opcode space (Table 21). -/
def decodeMem (op : Nat) (w : Word) : Option Dec :=
  match MvOp.ofCode op with
  | some k => some (decMV k.instr w)
  | none =>
    match op with
    | 0x02 => some (decMX .vldt w)
    | 0x03 => some (decMX .vstt w)
    | 0x04 => some (decMG .vgath w)
    | 0x05 => some (decMG .vscat w)
    | 0x10 => some (decMA .atom w)
    | 0x11 => some (decMA .red w)
    | 0x20 => some (need (FenceKind.ofCode (fld w 46 2).toNat) fun k =>
        need (Scope.ofCode (fld w 43 3).toNat) fun sc =>
          needZero (fld w 0 35 == 0) (.fence ⟨k, sc, fld w 35 8⟩))
    | 0x21 => some (needZero (fld w 0 32 == 0 && fld w 35 13 == 0) (.sbar (fld w 32 3)))
    | 0x22 => some (needZero (fld w 0 48 == 0) .swfence)
    | _ => none

/-- The SYN opcode space (Table 22). -/
def decodeSyn (op : Nat) (w : Word) : Option Dec :=
  match op with
  | 0x00 => some (needZero (sgZero w false true true false false && fld w 33 3 == 0)
      (.hcfg ⟨fld w 28 5, fld w 36 6⟩))
  | 0x01 => some (needZero (sgZero w true false true false false && fld w 33 3 == 0)
      (.hstat ⟨fld w 42 6, fld w 28 5⟩))
  | 0x02 => some (decGate .waitf w)
  | 0x03 => some (decGate .waite w)
  | 0x04 => some (decGate .advc w)
  | 0x05 => some (decGate .advp w)
  | 0x08 => some (decTok .tksend w)
  | 0x09 => some (decTok .tkwait w)
  | 0x10 => some (needZero (sgZero w false false true false false && fld w 31 5 == 0)
      (.bar (fld w 28 3)))
  | 0x11 => some (needZero (fld w 0 48 == 0) .phase)
  | 0x12 => some (needZero (sgZero w false true true false false && fld w 31 5 == 0)
      (.launch ⟨fld w 28 3, fld w 36 6⟩))
  | 0x18 => some (need (Spec.decode (fld w 7 13)) fun l =>
      needZero (sgZero w false false true false true && fld w 32 4 == 0) (.cpost ⟨fld w 28 4, l⟩))
  | 0x19 => some (needZero (sgZero w false true true false false && fld w 32 4 == 0)
      (.waitseq ⟨fld w 28 4, fld w 36 6⟩))
  | 0x1A => some (needZero (sgZero w true false true false false && fld w 32 4 == 0)
      (.seqrd ⟨fld w 42 6, fld w 28 4⟩))
  | 0x20 => some (needZero (sgZero w false true false false false) (.fstep (fld w 36 6)))
  | 0x21 => some (needZero (sgZero w true false true false false) (.cstat ⟨fld w 42 6, fld w 28 8⟩))
  | 0x22 => some (needZero (sgZero w false false true false false) (.cwait (fld w 28 8)))
  | 0x23 => some (needZero (sgZero w false true false false false) (.fhint (fld w 36 6)))
  | _ => none

/-- The ALL opcode space (Table 23). -/
def decodeAll (op : Nat) (w : Word) : Option Dec :=
  let x : Reg := fld w 42 6
  let y : Reg := fld w 36 6
  let sl : BitVec 3 := fld w 33 3
  let off : BitVec 30 := fld w 3 30
  match op with
  | 0x00 => some (needZero (fld w 36 12 == 0 && fld w 0 3 == 0) (.br ⟨sl, off⟩))
  | 0x01 => some (need (CondKind.decode (fld w 0 3)) fun ck =>
      needZero (fld w 36 6 == 0) (.bc ⟨x, sl, off, ck⟩))
  | 0x02 => some (needZero (fld w 36 6 == 0 && fld w 0 3 == 0) (.call ⟨x, sl, off⟩))
  | 0x03 => some (needZero (fld w 0 42 == 0) (.ret x))
  | 0x04 => some (needZero (fld w 0 36 == 0) (.jmpt ⟨x, y⟩))
  | 0x05 => some (needZero (fld w 0 3 == 0) (.loop ⟨x, y, sl, off⟩))
  | 0x06 => some (needZero (fld w 0 48 == 0) .endTask)
  | 0x07 => some (needZero (fld w 0 48 == 0) .tret)
  | _ => none

/-- The operation of a slot's ENG and OP; `none` where unassigned (Tables 17 to 23, R79). -/
def decodeOp (w : Word) : Option Dec :=
  let op := (fld w 52 8).toNat
  match (fld w 61 3).toNat with
  | 0 => decodeCtl op w
  | 1 => decodeVec op w
  | 2 => decodeMat op w
  | 3 => decodeSpe op w
  | 4 => decodeMem op w
  | 5 => decodeSyn op w
  | 7 => decodeAll op w
  | _ => none

/-- LeadsRecord of R63 with R68: nestable VEC and MEM operations, SPUP and SPDN. -/
def leadsRecord (w : Word) : Bool :=
  let op := (fld w 52 8).toNat
  match (fld w 61 3).toNat with
  | 1 =>
    match V3Op.ofCode op, V2Op.ofCode op with
    | some _, _ => true
    | none, some k =>
      !((k == .vradd || k == .vrmax || k == .vrmin) && (fld w 38 2 == 3#2))
    | none, none => false
  | 4 => op ≤ 6 || op == 8
  | 3 => op == 0x10 || op == 0x11
  | _ => false

/-- Slot 0 makes the record a nest or subtree record (R63). -/
def isLedRecord (w0 : Word) : Bool := (fld w0 60 1 == 1) && leadsRecord w0

/-- The nest lead that an instruction may be (R68). -/
def Instr.lead? (i : Instr) (w : Word) : Option Lead :=
  let op := (fld w 52 8).toNat
  match i with
  | .vldt o => some (.mx false o) | .vstt o => some (.mx true o)
  | .vgath o => some (.mg false o) | .vscat o => some (.mg true o)
  | .vld o => some (.mv .vld o) | .vst o => some (.mv .vst o)
  | .wld o => some (.mv .wld o) | .pref o => some (.mv .pref o)
  | _ =>
    match V3Op.ofCode op, V2Op.ofCode op with
    | some k, _ => match decV3 (fun o => .nestIssue (.v3 k o) ⟨0, 0, 0, 0, none, none, 0, 0, 0⟩) w with
      | .ok (.nestIssue l _) => some l
      | _ => none
    | none, some k => match decV2 (fun o => .nestIssue (.v2 k o) ⟨0, 0, 0, 0, none, none, 0, 0, 0⟩) w with
      | .ok (.nestIssue l _) => some l
      | _ => none
    | none, none => none

/-- ILLOP unless the instruction's fields obey R70 to R78. -/
def checkWf (i : Instr) : Dec := if i.wf then .ok i else .error .illop

/-- A nest or subtree record led by slot 0 (R66, R69). -/
def decodeLed (s : Nat → Word) : Dec :=
  if (fld (s 0) 61 3).toNat = 3 then
    need (decodeSubtree s) fun t =>
      if fld (s 0) 0 48 == 0 then
        checkWf (if (fld (s 0) 52 8).toNat = 0x10 then .spup ⟨fld (s 0) 48 4, t⟩
                 else .spdn ⟨fld (s 0) 48 4, t⟩)
      else .error .illop
  else
    match decodeOp (s 0) with
    | some (.ok i) => need (i.lead? (s 0)) fun l => need (decodeNestP s) fun p =>
        checkWf (.nestIssue l p)
    | some (.error e) => .error e
    | none => .error .illop

/-- Decode slot `k` of a record whose slots are `s 0` to `s 7`, in the order of R63. A branch into slot 1 to 7 of a
nest or subtree record raises ILLREC (R27). -/
def decodeSlot (s : Nat → Word) (k : Nat) : Dec :=
  if k ≠ 0 ∧ isLedRecord (s 0) then .error .illrec
  else
    match decodeOp (s k) with
    | none => .error .illop
    | some r =>
      if fld (s k) 60 1 == 1 then
        if k ≠ 0 then .error .illrec
        else if leadsRecord (s 0) then decodeLed s else .error .illrec
      else
        match r with
        | .ok i => checkWf i
        | .error e => .error e

/-- An operation of a circuit program (R351, Table 94); `none` where an opcode or field is reserved. -/
def decodeSeqOp (w : Word) : Option Instr :=
  let z (b : Bool) (i : Instr) : Option Instr := if b then some i else none
  let c : BitVec 8 := fld w 52 8
  match (fld w 60 4).toNat with
  | 1 => z (fld w 0 6 == 0 && (fld w 7 1 == 1 || fld w 6 1 == 0) && fld w 28 2 != 3)
      (.est { c := c, da := fld w 48 4, pa := fld w 45 3, db := fld w 41 4, pb := fld w 38 3,
              wg := fld w 30 8, nr := fld w 28 2, r0d := fld w 24 4, r0i := fld w 21 3,
              r0o := fld w 18 3, r1d := fld w 14 4, r1i := fld w 11 3, r1o := fld w 8 3,
              x := (fld w 7 1 == 1), lpos := (fld w 6 1 == 1) })
  | 2 => z (fld w 0 52 == 0) (.tear c)
  | 3 => z (fld w 0 52 == 0) (.hold c)
  | 4 => z (fld w 56 4 == 0) (.seqStep ⟨fld w 48 8, fld w 32 16, fld w 0 32⟩)
  | 5 => z (fld w 56 4 == 0 && fld w 0 32 == 0) (.gap ⟨fld w 48 8, fld w 32 16⟩)
  | 6 => z (fld w 0 36 == 0) (.lmove ⟨c, fld w 44 8, fld w 36 8⟩)
  | 7 => z (fld w 32 19 == 0) (.vect ⟨c, (fld w 51 1 == 1), fld w 0 32⟩)
  | 8 =>
    let mode : Option RetryMode := match (fld w 48 4).toNat with
      | 0 => some .any | 1 => some .path | 2 => some .waves | 3 => some .relock | _ => none
    mode.bind fun m => z (fld w 0 40 == 0) (.retry ⟨c, m, fld w 40 8⟩)
  | 9 => z (fld w 56 4 == 0 && fld w 0 3 == 0) (.signal (fld w 0 56))
  | 10 => z (fld w 0 60 == 0) .seqDone
  | _ => none

/-! The encoder. -/

/-- A slot from its fields (Table 13). -/
def slotWord (eng : BitVec 3) (n : BitVec 1) (op : Nat) (dly : BitVec 4) (operands : BitVec 48) : Word :=
  eng ++ (n ++ (BitVec.ofNat 8 op ++ (dly ++ operands)))

/-- CTL slots. DLY has no meaning there and is written as zero. -/
def encCtl (op : Nat) (operands : BitVec 48) : Word := slotWord 0 0 op 0 operands

def encR3 (op : Nat) (o : R3) : Word := encCtl op (o.d ++ (o.a ++ (o.b ++ 0#30)))
def encR2 (op : Nat) (o : R2) : Word := encCtl op (o.d ++ (o.a ++ 0#36))
def encR4 (op : Nat) (o : R4) : Word := encCtl op (o.d ++ (o.a ++ (o.b ++ (o.c ++ 0#24))))
def encF3 (op : Nat) (o : F3) : Word :=
  encCtl op (o.d ++ (o.a ++ (o.b ++ (0#6 ++ ((typeOfDbl o.dbl).encode ++ 0#20)))))
def encI2 (op : Nat) (o : I2) : Word := encCtl op (o.d ++ (o.a ++ (0#4 ++ o.imm)))
def encSh (op : Nat) (o : Sh) : Word := encCtl op (o.d ++ (o.a ++ (0#30 ++ o.n)))
def encI1 (op : Nat) (o : I1) : Word := encCtl op (o.d ++ (0#10 ++ o.imm))
def encCMem (op : Nat) (o : CMem) : Word :=
  encCtl op (o.d ++ (o.base ++ (o.w.encode ++ (0#8 ++ o.off))))
def encV3 (n : BitVec 1) (op : Nat) (o : V3) : Word :=
  slotWord 1 n op o.dly
    (o.ty.encode ++ (o.pred ++ (o.d.encode ++ (o.a.encode ++ (o.b.encode ++ 0#1)))))
def encV2 (n : BitVec 1) (op : Nat) (o : V2) : Word :=
  slotWord 1 n op o.dly
    (o.ty.encode ++ (o.pred ++ (o.d.encode ++ (o.a.encode ++ (o.t2.encode ++ (o.rm.encode ++
      (o.x ++ (if o.q then 1#1 else 0#1))))))))
def encPP (op : Nat) (o : PP) : Word :=
  slotWord 1 0 op 0 (o.ty.encode ++ (0#4 ++ (o.pd ++ (o.pa ++ (o.pb ++ (0#17 ++ o.imm))))))
def encTM (op : Nat) (o : TM) : Word :=
  slotWord 2 0 op o.dly
    (o.t ++ (o.ty.encode ++ (o.l.encode ++ (o.s ++ (o.o1 ++ (o.o2 ++ (o.rm.encode ++
      (o.f ++ 0#1))))))))
def encSPF (op : Nat) (o : SPF) : Word :=
  slotWord 3 0 op o.dly (o.ya ++ (o.yb ++ (o.l.encode ++ (o.cnt ++ o.m))))
def encMV (n : BitVec 1) (op : Nat) (o : MV) : Word :=
  slotWord 4 n op o.dly (o.l.encode ++ (o.base ++ (o.m ++ o.off)))
def encMX (n : BitVec 1) (op : Nat) (o : MX) : Word :=
  slotWord 4 n op o.dly (o.l.encode ++ (o.x ++ (o.s ++ (o.m ++ 0#16))))
def encMG (n : BitVec 1) (op : Nat) (o : MG) : Word :=
  slotWord 4 n op o.dly
    (o.l.encode ++ (o.i.encode ++ (o.base ++ (o.ty.encode ++ (o.pred ++ (o.m ++ 0#4))))))
def encMA (op : Nat) (o : MA) : Word :=
  slotWord 4 0 op 0
    (o.d ++ (o.a ++ (o.b ++ (o.c ++ (BitVec.ofNat 4 o.aop.code ++
      ((if o.w64 then 1#2 else 0#2) ++ 0#18))))))
def encSG (op : Nat) (d a : Reg) (idx cnt : BitVec 8) (l : BitVec 13) : Word :=
  slotWord 5 0 op 0 (d ++ (a ++ (idx ++ (cnt ++ (l ++ 0#7)))))
def encBra (op : Nat) (x y : Reg) (sl : BitVec 3) (off : BitVec 30) (ck : BitVec 3) : Word :=
  slotWord 7 0 op 0 (x ++ (y ++ (sl ++ (off ++ ck))))

/-- The lead slot of a nest record, N = 1 (R66). -/
def Lead.encode : Lead → Word
  | .v3 op o => encV3 1 op.code o
  | .v2 op o => encV2 1 op.code o
  | .mv op o => encMV 1 op.code o
  | .mx st o => encMX 1 (if st then 3 else 2) o
  | .mg st o => encMG 1 (if st then 5 else 4) o

/-- A token field of Table 14. -/
def encTokField : Option Engine → BitVec 4
  | none => 0
  | some e => BitVec.ofNat 3 e.code ++ 1#1

/-- The nest parameter slots (Table 14). -/
def NestP.encode (p : NestP) : List Word :=
  [encTokField p.twait ++ (encTokField p.tsend ++ (p.t3 ++ (p.t2 ++ (p.t1 ++ p.t0)))),
   p.dstr.extractLsb' 0 64, p.dstr.extractLsb' 64 64, p.astr.extractLsb' 0 64,
   p.astr.extractLsb' 64 64, p.bstr.extractLsb' 0 64, p.bstr.extractLsb' 64 64]

/-- The subtree parameter slots (Table 16). -/
def Subtree.encode (t : Subtree) : List Word :=
  [0#1 ++ (t.wmask ++ (t.kcnt ++ (t.doff ++ (t.root ++ (t.nops ++ t.nmask))))),
   0#16 ++ t.leaves.extractLsb' 0 48, 0#16 ++ t.leaves.extractLsb' 48 48,
   0#16 ++ t.wgts.extractLsb' 0 48, 0#16 ++ t.wgts.extractLsb' 48 48,
   0#4 ++ t.keeps.extractLsb' 0 60, 0#34 ++ t.keeps.extractLsb' 60 30]

/-- One bit from a Bool. -/
def bit1 (b : Bool) : BitVec 1 := if b then 1#1 else 0#1

/-- The words of a well-formed instruction: one slot, the eight slots of a nest or subtree record, one word of a circuit
program, or none for a step or event that no bits encode. -/
def encode : Instr → List Word
  | .nop => [0]
  | .add o => [encR3 1 o]
  | .sub o => [encR3 2 o]
  | .mul o => [encR3 3 o]
  | .mulh o => [encR3 4 o]
  | .mulhz o => [encR3 5 o]
  | .div o => [encR3 6 o]
  | .divz o => [encR3 7 o]
  | .rem o => [encR3 8 o]
  | .remz o => [encR3 9 o]
  | .and o => [encR3 10 o]
  | .or o => [encR3 11 o]
  | .xor o => [encR3 12 o]
  | .andn o => [encR3 13 o]
  | .shl o => [encR3 14 o]
  | .shr o => [encR3 15 o]
  | .sha o => [encR3 16 o]
  | .rotl o => [encR3 17 o]
  | .min o => [encR3 21 o]
  | .minz o => [encR3 22 o]
  | .max o => [encR3 23 o]
  | .maxz o => [encR3 24 o]
  | .seq o => [encR3 25 o]
  | .sne o => [encR3 26 o]
  | .slt o => [encR3 27 o]
  | .sltz o => [encR3 28 o]
  | .sle o => [encR3 29 o]
  | .slez o => [encR3 30 o]
  | .clz o => [encR2 18 o]
  | .ctz o => [encR2 19 o]
  | .popc o => [encR2 20 o]
  | .sel o => [encR4 31 o]
  | .bfx o => [encR4 32 o]
  | .bfxz o => [encR4 33 o]
  | .bfi o => [encR4 34 o]
  | .fadd o => [encF3 48 o]
  | .fsub o => [encF3 49 o]
  | .fmul o => [encF3 50 o]
  | .fdiv o => [encF3 51 o]
  | .fmin o => [encF3 54 o]
  | .fmax o => [encF3 55 o]
  | .feq o => [encF3 56 o]
  | .flt o => [encF3 57 o]
  | .fle o => [encF3 58 o]
  | .fsqrt o => [encCtl 0x34 (o.d ++ (o.a ++ (0#12 ++ ((typeOfDbl o.dbl).encode ++ 0#20))))]
  | .ffma o => [encCtl 0x35 (o.d ++ (o.a ++ (o.b ++ (o.c ++ ((typeOfDbl o.dbl).encode ++ 0#20)))))]
  | .fcvt o => [encCtl 0x3B (o.d ++ (o.a ++ (0#12 ++ (o.t1.encode ++ (o.t2.encode ++ (o.rm.encode ++ 0#13))))))]
  | .fclass o => [encCtl 0x3C (o.d ++ (o.a ++ (0#12 ++ (o.t.encode ++ 0#20))))]
  | .eget o => [encCtl 0x40 (o.d ++ (0#31 ++ (o.k ++ 0#8)))]
  | .epeek o => [encCtl 0x41 (o.d ++ (0#31 ++ (o.k ++ 0#8)))]
  | .mcfg o => [encCtl 0x50 (0#6 ++ (o.a ++ (o.b ++ (0#19 ++ (o.k ++ 0#8)))))]
  | .mgo => [encCtl 0x51 0]
  | .mwait => [encCtl 0x52 0]
  | .mstat d => [encCtl 0x53 (d ++ 0#42)]
  | .addi o => [encI2 128 o]
  | .andi o => [encI2 129 o]
  | .ori o => [encI2 130 o]
  | .xori o => [encI2 131 o]
  | .shli o => [encSh 132 o]
  | .shri o => [encSh 133 o]
  | .shai o => [encSh 134 o]
  | .rotli o => [encSh 135 o]
  | .movi o => [encI1 0x88 o]
  | .movhi o => [encI1 0x89 o]
  | .lea o => [encCtl 0x8A (o.d ++ (o.a ++ (o.k ++ o.imm)))]
  | .lds o => [encCMem 0x90 o]
  | .sts o => [encCMem 0x91 o]
  | .sysrd o => [encCtl 0xA0 (o.d ++ (0#30 ++ o.n))]
  | .syswr o => [encCtl 0xA1 (0#6 ++ (o.a ++ (0#24 ++ o.n)))]
  | .syswrTshape o => [encCtl 0xA1 (0#6 ++ (o.a ++ (0#24 ++ (0x010#12 + o.k.setWidth 12))))]
  | .syswrSpm a => [encCtl 0xA1 (0#6 ++ (a ++ (0#24 ++ 0x019#12)))]
  | .syswrFpc o => [encCtl 0xA1 (0#6 ++ (o.a ++ (0#24 ++ (0x088#12 + o.k.setWidth 12))))]
  | .syswrTxw o => [encCtl 0xA1 (0#6 ++ (o.a ++ (0#24 ++ (0x021#12 + o.k.setWidth 12))))]
  | .prio n => [encCtl 0xA2 (0#46 ++ n)]
  | .heart => [encCtl 0xA3 0]
  | .trap n => [encCtl 0xA4 (0#32 ++ n)]
  | .bkpt n => [encCtl 0xA5 (0#32 ++ n)]
  | .idle => [encCtl 0xA6 0]
  | .br o => [encBra 0 0 0 o.slot o.off 0]
  | .bc o => [encBra 1 o.x 0 o.slot o.off o.ck.encode]
  | .call o => [encBra 2 o.x 0 o.slot o.off 0]
  | .ret x => [encBra 3 x 0 0 0 0]
  | .jmpt o => [encBra 4 o.x o.y 0 0 0]
  | .loop o => [encBra 5 o.x o.y o.slot o.off 0]
  | .endTask => [encBra 6 0 0 0 0 0]
  | .tret => [encBra 7 0 0 0 0 0]
  | .vadd o => [encV3 0 0 o]
  | .vsub o => [encV3 0 1 o]
  | .vmul o => [encV3 0 2 o]
  | .vfma o => [encV3 0 3 o]
  | .vfms o => [encV3 0 4 o]
  | .vmin o => [encV3 0 5 o]
  | .vmax o => [encV3 0 6 o]
  | .vdiv o => [encV3 0 7 o]
  | .vand o => [encV3 0 8 o]
  | .vor o => [encV3 0 9 o]
  | .vxor o => [encV3 0 10 o]
  | .vshl o => [encV3 0 11 o]
  | .vshr o => [encV3 0 12 o]
  | .vsha o => [encV3 0 13 o]
  | .vadds o => [encV3 0 14 o]
  | .vsubs o => [encV3 0 15 o]
  | .vmulh o => [encV3 0 16 o]
  | .vsel o => [encV3 0 17 o]
  | .vperm o => [encV3 0 18 o]
  | .vrotl o => [encV3 0 19 o]
  | .vzip o => [encV3 0 20 o]
  | .vunzip o => [encV3 0 21 o]
  | .vbcast o => [encV3 0 22 o]
  | .vabs o => [encV2 0 32 o]
  | .vneg o => [encV2 0 33 o]
  | .vnot o => [encV2 0 34 o]
  | .vmov o => [encV2 0 35 o]
  | .vsqrt o => [encV2 0 36 o]
  | .vrsqrt o => [encV2 0 37 o]
  | .vrcp o => [encV2 0 38 o]
  | .vexp2 o => [encV2 0 39 o]
  | .vlog2 o => [encV2 0 40 o]
  | .vtanh o => [encV2 0 41 o]
  | .vsig o => [encV2 0 42 o]
  | .verf o => [encV2 0 43 o]
  | .vcvt o => [encV2 0 44 o]
  | .vwiden o => [encV2 0 45 o]
  | .vnarrow o => [encV2 0 46 o]
  | .vhad o => [encV2 0 47 o]
  | .vqnt o => [encV2 0 48 o]
  | .vdqnt o => [encV2 0 49 o]
  | .vradd o => [encV2 0 50 o]
  | .vrmax o => [encV2 0 51 o]
  | .vrmin o => [encV2 0 52 o]
  | .vscan o => [encV2 0 53 o]
  | .vcompr o => [encV2 0 54 o]
  | .vexpd o => [encV2 0 55 o]
  | .viota o => [encV2 0 56 o]
  | .vcmp o => [slotWord 1 0 0x40 0 (o.ty.encode ++ (o.pred ++ (o.pd ++ (o.cc.encode ++ (0#6 ++
      (o.a.encode ++ (o.b.encode ++ 0#1)))))))]
  | .pand o => [encPP 0x50 o]
  | .por o => [encPP 0x51 o]
  | .pxor o => [encPP 0x52 o]
  | .pnot o => [encPP 0x53 o]
  | .pcnt o => [encPP 0x54 o]
  | .pfirst o => [encPP 0x55 o]
  | .pseti o => [encPP 0x56 o]
  | .nestIssue l p => l.encode :: p.encode
  | .tcfg o => [encTM 0 o]
  | .tzero o => [encTM 1 o]
  | .trowld o => [encTM 2 o]
  | .trowst o => [encTM 3 o]
  | .tcolld o => [encTM 4 o]
  | .tcolst o => [encTM 5 o]
  | .tld o => [encTM 6 o]
  | .tst o => [encTM 7 o]
  | .tmma o => [encTM 8 o]
  | .tout o => [encTM 9 o]
  | .oclaim o => [encTM 10 o]
  | .orel o => [encTM 11 o]
  | .oload o => [encTM 12 o]
  | .spmode o => [encSPF 0 o]
  | .spld o => [encSPF 1 o]
  | .spst o => [encSPF 2 o]
  | .spmov o => [encSPF 3 o]
  | .spclr o => [encSPF 4 o]
  | .spnorm o => [encSPF 5 o]
  | .spup o => slotWord 3 1 0x10 o.dly 0 :: o.tree.encode
  | .spdn o => slotWord 3 1 0x11 o.dly 0 :: o.tree.encode
  | .vld o => [encMV 0 0 o]
  | .vst o => [encMV 0 1 o]
  | .vldt o => [encMX 0 2 o]
  | .vstt o => [encMX 0 3 o]
  | .vgath o => [encMG 0 4 o]
  | .vscat o => [encMG 0 5 o]
  | .wld o => [encMV 0 6 o]
  | .wst o => [encMV 0 7 o]
  | .pref o => [encMV 0 8 o]
  | .atom o => [encMA 0x10 o]
  | .red o => [encMA 0x11 o]
  | .fence o => [slotWord 4 0 0x20 0 (BitVec.ofNat 2 o.kind.code ++ (BitVec.ofNat 3 o.scope.code ++
      (o.circ ++ 0#35)))]
  | .sbar sm => [slotWord 4 0 0x21 0 (0#13 ++ (sm ++ 0#32))]
  | .swfence => [slotWord 4 0 0x22 0 0]
  | .hcfg o => [encSG 0 0 o.a (0#3 ++ o.h) 0 0]
  | .hstat o => [encSG 1 o.d 0 (0#3 ++ o.h) 0 0]
  | .waitf o => [encSG 2 0 0 (0#3 ++ o.h) o.n 0]
  | .waite o => [encSG 3 0 0 (0#3 ++ o.h) o.n 0]
  | .advc o => [encSG 4 0 0 (0#3 ++ o.h) o.n 0]
  | .advp o => [encSG 5 0 0 (0#3 ++ o.h) o.n 0]
  | .tksend o => [encSG 8 0 0 (BitVec.ofNat 3 o.snd.code ++ (BitVec.ofNat 3 o.rcv.code ++ 0#2)) o.n 0]
  | .tkwait o => [encSG 9 0 0 (BitVec.ofNat 3 o.snd.code ++ (BitVec.ofNat 3 o.rcv.code ++ 0#2)) o.n 0]
  | .bar k => [encSG 0x10 0 0 (0#5 ++ k) 0 0]
  | .phase => [encSG 0x11 0 0 0 0 0]
  | .launch o => [encSG 0x12 0 o.a (0#5 ++ o.e) 0 0]
  | .cpost o => [encSG 0x18 0 0 (0#4 ++ o.q) 0 o.l.encode]
  | .waitseq o => [encSG 0x19 0 o.a (0#4 ++ o.q) 0 0]
  | .seqrd o => [encSG 0x1A o.d 0 (0#4 ++ o.q) 0 0]
  | .fstep a => [encSG 0x20 0 a 0 0 0]
  | .cstat o => [encSG 0x21 o.d 0 o.c 0 0]
  | .cwait c => [encSG 0x22 0 0 c 0 0]
  | .fhint a => [encSG 0x23 0 a 0 0 0]
  | .est o => [1#4 ++ (o.c ++ (o.da ++ (o.pa ++ (o.db ++ (o.pb ++ (o.wg ++ (o.nr ++ (o.r0d ++ (o.r0i ++
      (o.r0o ++ (o.r1d ++ (o.r1i ++ (o.r1o ++ (bit1 o.x ++ (bit1 o.lpos ++ 0#6)))))))))))))))]
  | .tear c => [2#4 ++ (c ++ 0#52)]
  | .hold c => [3#4 ++ (c ++ 0#52)]
  | .seqStep o => [4#4 ++ (0#4 ++ (o.fcnt ++ (o.pmask ++ o.s)))]
  | .gap o => [5#4 ++ (0#4 ++ (o.ports ++ (o.dmask ++ 0#32)))]
  | .lmove o => [6#4 ++ (o.cf ++ (o.ct ++ (o.mg ++ 0#36)))]
  | .vect o => [7#4 ++ (o.c ++ (bit1 o.all ++ (0#19 ++ o.t)))]
  | .retry o => [8#4 ++ (o.c ++ ((match o.mode with
      | .any => 0#4 | .path => 1#4 | .waves => 2#4 | .relock => 3#4) ++ (o.limit ++ 0#40)))]
  | .signal a => [9#4 ++ (0#4 ++ a)]
  | .seqDone => [10#4 ++ 0#60]
  | .chainEnable _ => []
  | .chainDisable _ => []
  | .chainFailedClear _ => []
  | .idleTimeout _ => []
  | .matrixNestStart _ => []
  | .matrixNestComplete _ => []
  | .handleFillRelease _ _ => []
  | .handleDrainRelease _ _ => []
  | .tokenRelease _ _ _ => []
  | .barrierArrivalAdd _ => []
  | .barrierComplete _ _ _ => []
  | .phaseComplete _ => []
  | .copy _ => []
  | .fill _ => []
  | .crc _ => []
  | .transpose _ => []
  | .convert _ => []
  | .quantise _ => []
  | .dequantise _ => []
  | .compress _ => []
  | .decompress _ => []
  | .rread _ => []
  | .rwrite _ => []
  | .rreduce _ => []
  | .rfetch _ => []
  | .rsignal _ => []
  | .dispatch _ => []
  | .cardRetire _ => []
  | .segmentCommit _ => []
  | .chainDisableComplete _ _ => []
  | .atomicAtHome _ => []
  | .alloy _ _ _ => []
  | .part _ => []
  | .receiptQuery _ => []
  | .lostCircuitSettle _ => []
  | .launchSubmit _ _ => []
  | .admitNext => []
  | .launchComplete _ => []
  | .bindRecordWrite _ => []
  | .taskDispatch _ => []
  | .resume _ => []
  | .preempt _ => []
  | .handlerEntry _ => []
  | .watchdogFire _ => []
  | .scrubError _ => []
  | .assay _ _ => []
  | .debugHalt _ => []
  | .debugWrite _ _ => []
  | .debugStep _ => []
  | .tlbShootdown _ _ _ => []
  | .rangeRegisterWrite _ _ _ _ => []
  | .wsctlOpen _ _ _ => []
  | .stepIssue _ => []
  | .settleElapsed _ => []
  | .drainComplete _ => []
  | .drainBoundExpiry _ => []
  | .opticalFaultReport _ _ _ _ _ => []
  | .recoveryAttemptEnd _ _ => []
  | .sequencerFailover => []
  | .groupRetrain _ _ _ => []
  | .pause _ _ _ => []
  | .resumeSymbol _ _ _ => []
  | .frameReceive _ _ _ _ _ => []
  | .streamOpen _ => []
  | .accept _ => []
  | .refuse _ => []
  | .linkSteer _ => []
  | .linkWavelengthRetrain _ _ _ => []
  | .linkTrain _ _ => []
  | .linkset _ => []
  | .fqtailWrite _ _ => []
  | .devnoWrite _ _ => []
  | .lsecretWrite _ _ => []
  | .okeysWrite _ _ _ => []
  | .oklockCommit _ _ => []
  | .electionNonce _ => []
  | .ownerAnswer _ _ _ => []
  | .handoverWrite _ _ => []
  | .handoverTimeout => []
  | .keepaliveTimeout => []
  | .quote _ => []
  | .bootStageMeasure _ => []
  | .pcapWrite _ _ => []
  | .governorStep _ => []
  | .laserBankRemove _ => []
  | .laserBankReturn _ _ => []
  | .dieReset _ => []
  | .readinessSet _ => []
  | .debuggerAttach _ => []
  | .partnerCircuitChange _ _ _ _ _ => []
  | .linkDown _ => []
  | .ownerKeepalive _ => []
  | .channelCopyComplete _ _ => []

/-- The eight slots of a record of 512 bits, slot 0 lowest (R61). -/
def slotsOf (r : BitVec 512) (k : Nat) : Word := r.extractLsb' (64 * k) 64

/-- The instruction the decoder reads from a slot (up to 64 bits), or from a record led by slot 0 (above 64 bits), whose
bits are `w`; the bits above `nbits` are zero. -/
def decodeTableWord (nbits w : Nat) : Option Instr :=
  match decodeSlot (fun k => BitVec.ofNat 64 ((w % 2 ^ nbits) >>> (64 * k))) 0 with
  | .ok i => some i
  | .error _ => none

end Sys2Proof
end

