-- ==== Sys2Proof/Config.lean ====
section
/-!
DEFINITION. The values the spec leaves open, as constants without a body: nothing can evaluate one, and a statement
about one holds for every value of it (logs 5, 8, 9, 11, 17, 19, 20, 29, 51, 52 and 55).
-/
namespace Sys2Proof.Config

/-- Whether an access takes a cached translation that differs from the page tables as they stand (R242). The
arguments are the free counter and the virtual address. -/
opaque staleTranslation : Nat → Nat → Bool

/-- Whether a core holds the translation of a page that none of its accesses has walked for: R242 does not say when one enters a
cache. The free counter and the virtual address (log 19). -/
opaque heldTranslation : Nat → Nat → Bool

/-- Whether an OLOAD takes a cached sector that differs from memory (R155). -/
opaque staleSector : Nat → Nat → Bool

/-- What an OLOAD puts in the blocks of a block-format operand whose positions a duplication map would gather from
several stored blocks: R154 moves whole blocks and states no result there (log 17). The free counter and the block. -/
opaque mappedBlock : Nat → Nat → BitVec 288

/-- Whether a line's write is still under way at the reader's issue, in throughput mode (R192). -/
opaque writeUnderWay : Nat → Nat → Bool

/-- An entry of the default slot table image (R349): the die, and the entry's place in that die's image. -/
opaque defaultImage : Nat → Nat → Nat

/-- Where and how the default slot table image gives a core router a way out and a way in: the die and the router (R244, R349). -/
opaque defaultPath : Nat → Nat → Nat

/-- How many cycles of a die have passed since its cycle number was last moved (R349). -/
opaque cycleAdvance : Nat → Nat

/-- How far WREFR.POS has moved since it was last read (R238). -/
opaque refreshAdvance : Nat → Nat

/-- How a peer device refuses a card that acts on its memory (R367, R368, R391). -/
inductive PeerFail where
  | page | prot | guard | eccu | wstore
deriving DecidableEq, Repr

/-- Whether, and with which address, the peer device refuses a card's remote region: its page tables and its checks lie
outside this device (R391). The free counter and the card's identity. -/
opaque peerRefuses : Nat → Nat → Option (PeerFail × Nat)

/-- A byte of a peer device's memory that nothing has written since reset, by its key in `State.peerMem` (R391). -/
opaque peerByte : Nat → Byte

/-- The guard tag that arrives with the block of a card's data at an address: the free counter and the address (R395). -/
opaque peerTag : Nat → Nat → BitVec 64

/-- Whether the peer's gateway finds the tag of a block sent to an address to fit what arrives: the free counter, the address
and the tag (R395). -/
opaque peerFits : Nat → Nat → BitVec 64 → Bool

/-- Which 64-byte sectors of its uncommitted segments a card that its circuit failed has written: the free counter and the
sector's offset (R380). -/
opaque sectorWritten : Nat → Nat → Bool

/-- Of which blocks such a card has written the guard tags. -/
opaque tagWritten : Nat → Nat → Bool

/-- The device identity key, an Ed448 private key that never leaves the system die (R412). -/
opaque identityKey : BitVec 456

/-- The device identity digest of the owner election (R408). -/
opaque deviceIdentity : List Byte

/-- Whether the launch queue refuses a host submission (LQFULL, Table 59): the spec states no capacity. -/
opaque hostRefused : Nat → Bool

/-- Power in W of a number of islands at their 1.0 GHz floor (R413). -/
opaque floorPower : Nat → Nat

/-- Whether the entries of a slot table image reserve the paths of R244 (R350): the spec does not say how a path
runs through the entries. -/
opaque imageServes : List Nat → Bool

/-- Which 64-byte sectors of a line an access finds as they were before another engine's write that is not ordered before
it (R194): the free counter, the line and the write's place. -/
opaque sectorMix : Nat → Nat → Nat → BitVec 8

/-- The row of the weight store or of the HBM in which a location lies (Table 87): the spec gives no place of a row. -/
opaque memoryRow : Nat → Nat

/-- The HBM location of the save area that the firmware has allocated for a task: the launch and the task (R329). -/
opaque saveArea : Nat → Nat → Nat

/-- How many µs a context's watchdog count has run on since it was last looked at (R334). -/
opaque watchdogAdvance : Nat → Nat

/-- The move that the peer decides for a pair of links, where its device number is the lower (R396): toward the first
link, toward the second, or none. -/
opaque peerSteers : Nat → Nat → Option Bool

/-- How many ms have passed without a keep-alive from the owner since it was last looked at (R409). -/
opaque quietAdvance : Nat → Nat

/-- The dies with an island at its floor or holding issue after a step of the governor (R413). -/
opaque floorBits : Nat → BitVec 16

/-- The package secret, which no agent can read (R357). -/
opaque packageSecret : BitVec 256

/-- How many bytes a hop's receiver has taken out of its buffer since it was last looked at (R356). -/
opaque rxDrain : Nat → Nat → Nat

/-- The path of the interposer that a circuit takes (R342): the sequencer chooses it, and the spec does not say how. -/
opaque pathOf : Nat → Nat

/-- Whether the laser bank at a place in service feeds a wavelength of a circuit (R414): the spec does not assign wavelengths to
banks. -/
opaque bankFeeds : Nat → Nat → Bool

end Sys2Proof.Config
end

