-- ==== Sys2Proof/Machine/Formats.lean ====
section
/-!
DEFINITION. Exact values, the element formats, Round and the arithmetic helpers of spec/02 (R33 to R46, R98 to R100).
-/
namespace Sys2Proof.Machine

/-- An exact value (R10, R43): a NaN (signalling or not), an infinity, or `(−1)^neg × n × 2^e`, where `n = 0` is a
signed zero. A quotient, root or transcendental value is carried to so many bits that its last bit stands for "and
something more" (log 7), which Round cannot tell from the exact value. -/
inductive Val where
  | nan (sig : Bool)
  | inf (neg : Bool)
  | fin (neg : Bool) (n : Nat) (e : Int)
deriving DecidableEq, Repr

/-- The sticky flags IV DZ OF UF NX QUF, bit 0 upwards (R46). -/
abbrev Flags := BitVec 6

def fIV : Flags := 1
def fDZ : Flags := 2
def fOF : Flags := 4
def fUF : Flags := 8
def fNX : Flags := 16
def fQUF : Flags := 32

/-- Rounding modes; SR carries the lane word (R44). -/
inductive RMode where
  | rne | rz | rup | rdn | sr (w : Nat)
deriving DecidableEq, Repr

/-- The mode of FPMODE bits 1 to 0 (R44, Table 3). -/
def RMode.ofFpmode (m : BitVec 2) : RMode :=
  match m.toNat with
  | 0 => .rne | 1 => .rz | 2 => .rup | _ => .rdn

/-- The rounding that RM selects (R73). -/
def RMode.ofRm (rm : Rm) (fpmode : BitVec 2) (lane : Nat) : RMode :=
  match rm with
  | .fpmode => .ofFpmode fpmode
  | .rne => .rne | .rz => .rz | .rup => .rup | .rdn => .rdn
  | .sr => .sr lane

/-- How a format treats its all-ones exponent (Table 8). -/
inductive FmtKind where
  | ieee | e5m2 | e4m3 | finite
deriving DecidableEq, Repr

/-- A signed floating-point format (R34). -/
structure Fmt where
  ew : Nat
  mw : Nat
  bias : Nat
  kind : FmtKind
deriving DecidableEq, Repr

def Fmt.f64 : Fmt := ⟨11, 52, 1023, .ieee⟩
def Fmt.f32 : Fmt := ⟨8, 23, 127, .ieee⟩
def Fmt.f16 : Fmt := ⟨5, 10, 15, .ieee⟩
def Fmt.bf16 : Fmt := ⟨8, 7, 127, .ieee⟩
def Fmt.e4m3 : Fmt := ⟨4, 3, 7, .e4m3⟩
def Fmt.e5m2 : Fmt := ⟨5, 2, 15, .e5m2⟩
def Fmt.e2m3 : Fmt := ⟨2, 3, 1, .finite⟩
def Fmt.e3m2 : Fmt := ⟨3, 2, 3, .finite⟩
def Fmt.e2m1 : Fmt := ⟨2, 1, 1, .finite⟩

/-- The canonical NaN (Table 8); the formats without one give +0 (R45). -/
def Fmt.canonNan (f : Fmt) : Nat :=
  match f.kind with
  | .ieee => ((2 ^ f.ew - 1) <<< f.mw) + 2 ^ (f.mw - 1)
  | .e5m2 => 0x7E
  | .e4m3 => 0x7F
  | .finite => 0

/-- The code of the largest finite value (Table 8). -/
def Fmt.maxCode (f : Fmt) : Nat :=
  match f.kind with
  | .ieee | .e5m2 => ((2 ^ f.ew - 1) <<< f.mw) - 1
  | .e4m3 => 0x7E
  | .finite => 2 ^ (f.ew + f.mw) - 1

/-- The code of +∞ in the formats that have one. -/
def Fmt.infCode (f : Fmt) : Nat := (2 ^ f.ew - 1) <<< f.mw

/-- A code with its sign bit. -/
def Fmt.signed (f : Fmt) (neg : Bool) (mag : Nat) : Nat := if neg then 2 ^ (f.ew + f.mw) + mag else mag

/-- The value of a code (R34, R35). -/
def Fmt.decode (f : Fmt) (code : Nat) : Val :=
  let neg := (code >>> (f.ew + f.mw)) % 2 == 1
  let e := (code >>> f.mw) % 2 ^ f.ew
  let m := code % 2 ^ f.mw
  let normal := Val.fin neg (2 ^ f.mw + m) ((e : Int) - f.bias - f.mw)
  if e = 0 then .fin neg m (1 - (f.bias : Int) - f.mw)
  else if e = 2 ^ f.ew - 1 then
    match f.kind with
    | .ieee => if m = 0 then .inf neg else .nan (m < 2 ^ (f.mw - 1))
    | .e5m2 => if m = 0 then .inf neg else .nan false
    | .e4m3 => if m = 7 then .nan false else normal
    | .finite => normal
  else normal

/-- `⌊n × 2^sh⌋` and the part cut off, as a numerator over `2^k` (R44's n and t). -/
def splitAt (n : Nat) (sh : Int) : Nat × Nat × Nat :=
  if 0 ≤ sh then (n <<< sh.toNat, 0, 0)
  else let k := (-sh).toNat
       (n >>> k, n % 2 ^ k, k)

/-- R44's `up` for the part `rem / 2^k` cut off a number whose integer part is `n`. -/
def roundsUp (mode : RMode) (neg : Bool) (n rem k : Nat) : Bool :=
  match mode with
  | .rne => 2 ^ k < 2 * rem || (2 * rem == 2 ^ k && n % 2 == 1 && rem != 0)
  | .rz => false
  | .rup => rem != 0 && !neg
  | .rdn => rem != 0 && neg
  | .sr w => 2 ^ 32 ≤ ((rem <<< 32) >>> k) + w % 2 ^ 32

/-- OverflowOut (R45, Table 10). -/
def Fmt.overflowOut (f : Fmt) (neg : Bool) (mode : RMode) : Nat :=
  let toInf := match f.kind, mode with
    | .ieee, .rne => true
    | .ieee, .sr _ => true
    | .ieee, .rup => !neg
    | .ieee, .rdn => neg
    | _, _ => false
  f.signed neg (if toInf then f.infCode else f.maxCode)

/-- The magnitude code of `n × 2^e` rounded to `mw` fraction bits with least exponent `emin`, and whether it was
inexact: R44's `m`, in units of the format's own spacing, which grows with the code. -/
def magCode (mw : Nat) (emin : Int) (mode : RMode) (neg : Bool) (n : Nat) (e : Int) : Nat × Bool :=
  let q := max ((Nat.log2 n : Int) + e) emin
  let (i, rem, k) := splitAt n (e - q + mw)
  let up := roundsUp mode neg i rem k
  ((q - emin).toNat * 2 ^ mw + i + (if up then 1 else 0), rem != 0)

/-- Round into a signed floating-point format (R44, R45). -/
def Fmt.round (f : Fmt) (mode : RMode) (v : Val) : Nat × Flags :=
  match v with
  | .nan sig =>
    (f.canonNan, if f.kind = .finite then fIV else if sig then fIV else 0)
  | .inf neg =>
    match f.kind with
    | .ieee | .e5m2 => (f.signed neg f.infCode, 0)
    | .e4m3 => (f.canonNan, fIV)
    | .finite => (f.signed neg f.maxCode, fOF)
  | .fin neg n e =>
    if n = 0 then (f.signed neg 0, 0)
    else
      let (c, inexact) := magCode f.mw (1 - (f.bias : Int)) mode neg n e
      if c > f.maxCode then (f.overflowOut neg mode, fOF ||| fNX)
      else (f.signed neg c,
        if inexact then (if c < 2 ^ f.mw then fUF ||| fNX else fNX) else 0)

/-- The value of an SP32 code (R36). -/
def sp32Decode (code : Nat) : Val :=
  let e := (code >>> 22) % 1024
  let m := code % 2 ^ 22
  if code % 2 ^ 32 = 0xFFFFFFFF then .nan false
  else if e = 0 then .fin false 0 0
  else .fin false (2 ^ 22 + m) ((e : Int) - 960 - 22)

/-- Round into SP32, always to nearest even (R37). -/
def sp32Round (v : Val) : Nat × Flags :=
  match v with
  | .nan sig => (0xFFFFFFFF, if sig then fIV else 0)
  | .inf neg => if neg then (0xFFFFFFFF, fIV) else (0xFFFFFFFE, fOF)
  | .fin neg n e =>
    if n = 0 then (0, 0)
    else if neg then (0xFFFFFFFF, fIV)
    else
      let (c, inexact) := magCode 22 (-959) .rne false n e
      if c > 0xFFFFFFFE then (0xFFFFFFFE, fOF ||| fNX)
      else if c < 2 ^ 22 then (0, fUF ||| fNX)
      else (c, if inexact then fNX else 0)

/-- A w-bit integer code as an integer (R33). -/
def intOf (signed : Bool) (w code : Nat) : Int :=
  let c := code % 2 ^ w
  if signed && 2 ^ (w - 1) ≤ c then (c : Int) - 2 ^ w else c

/-- The low w bits of an integer (R38). -/
def intCode (w : Nat) (x : Int) : Nat := (x % (2 ^ w : Int)).toNat

/-- The least integer of an integer type (R38). -/
def minOfType (t : ElemType) : Int := if t.isSigned then -((2 ^ (t.width - 1) : Nat) : Int) else 0

/-- The greatest integer of an integer type (R38). -/
def maxOfType (t : ElemType) : Int :=
  if t.isSigned then ((2 ^ (t.width - 1) : Nat) : Int) - 1 else ((2 ^ t.width : Nat) : Int) - 1

/-- An integer as an exact value; zero is +0. -/
def Val.ofInt (x : Int) : Val := .fin (x < 0) x.natAbs 0

/-- Round an exact value to an integer under a mode; also whether it was inexact (R38, R44). -/
def roundInt (mode : RMode) (neg : Bool) (n : Nat) (e : Int) : Int × Bool :=
  let (i, rem, k) := splitAt n e
  let m : Nat := i + (if roundsUp mode neg i rem k then 1 else 0)
  (if neg then -(m : Int) else m, rem != 0)

/-- Float to integer (R38): out of range clamps with IV, NaN gives 0 with IV, in range and inexact sets NX. -/
def toIntType (t : ElemType) (mode : RMode) (v : Val) : Nat × Flags :=
  match v with
  | .nan _ => (0, fIV)
  | .inf neg => (intCode t.width (if neg then (minOfType t) else (maxOfType t)), fIV)
  | .fin neg n e =>
    let (x, inexact) := roundInt mode neg n e
    if x < (minOfType t) then (intCode t.width (minOfType t), fIV)
    else if (maxOfType t) < x then (intCode t.width (maxOfType t), fIV)
    else (intCode t.width x, if inexact then fNX else 0)

/-- The floating-point format of an element type, where it has one (Table 8). -/
def fmtOf : ElemType → Option Fmt
  | .f8e4 => some .e4m3 | .f8e5 => some .e5m2 | .f16 => some .f16 | .bf16 => some .bf16
  | .f32 => some .f32 | .f64 => some .f64 | _ => none

/-- The value of an element code of any type (R33 to R36). -/
def valOf (t : ElemType) (code : Nat) : Val :=
  match fmtOf t with
  | some f => f.decode code
  | none => if t = .sp32 then sp32Decode code else .ofInt (intOf t.isSigned t.width code)

/-- Deliver an exact value into an element type (R44, R37, R38). -/
def deliver (t : ElemType) (mode : RMode) (v : Val) : Nat × Flags :=
  match fmtOf t with
  | some f => f.round mode v
  | none => if t = .sp32 then sp32Round v else toIntType t mode v

/-- Convert an element code (R99, R129): integer to integer keeps or extends bits, everything else rounds once. -/
def convert (dst src : ElemType) (mode : RMode) (code : Nat) : Nat × Flags :=
  if dst.isInt && src.isInt then (intCode dst.width (intOf src.isSigned src.width code), 0)
  else deliver dst mode (valOf src code)

/-- A NaN that signals (R35). -/
def Val.isSig : Val → Bool
  | .nan s => s
  | _ => false

def Val.isNan : Val → Bool
  | .nan _ => true
  | _ => false

def Val.isInf : Val → Bool
  | .inf _ => true
  | _ => false

def Val.isZero : Val → Bool
  | .fin _ n _ => n == 0
  | _ => false

def Val.neg? : Val → Bool
  | .nan _ => false
  | .inf s => s
  | .fin s _ _ => s

/-- The value with its sign inverted. -/
def Val.negate : Val → Val
  | .nan s => .nan s
  | .inf s => .inf (!s)
  | .fin s n e => .fin (!s) n e

/-- The value scaled by a power of two. -/
def Val.scale2 (k : Int) : Val → Val
  | .fin s n e => .fin s n (e + k)
  | v => v

/-- An exact product (R43): the sign is the exclusive-or, and 0 × ∞ is invalid. -/
def mulVal (a b : Val) : Val × Flags :=
  match a, b with
  | .nan s, b => (.nan false, if s || b.isSig then fIV else 0)
  | a, .nan s => (.nan false, if s || a.isSig then fIV else 0)
  | .inf s, b => if b.isZero then (.nan false, fIV) else (.inf (s != b.neg?), 0)
  | a, .inf s => if a.isZero then (.nan false, fIV) else (.inf (s != a.neg?), 0)
  | .fin s n e, .fin s' n' e' => (.fin (s != s') (n * n') (e + e'), 0)

/-- The least exponent of the nonzero finite terms. -/
def minExp : List Val → Option Int
  | [] => none
  | .fin _ n e :: r =>
    if n = 0 then minExp r
    else match minExp r with
      | some m => some (min e m)
      | none => some e
  | _ :: r => minExp r

/-- The exact sum of the finite terms in units of `2^m`, for an `m` at or below every nonzero term's exponent. -/
def sumAt (m : Int) : List Val → Int
  | [] => 0
  | .fin s n e :: r =>
    let x : Int := ((n <<< (e - m).toNat : Nat) : Int)
    (if n = 0 then 0 else if s then -x else x) + sumAt m r
  | _ :: r => sumAt m r

/-- An exact sum of any number of terms (R43, R56): NaN and ∞ − ∞ give NaN; a zero sum takes its sign from R43. -/
def sumVals (mode : RMode) (ts : List Val) : Val × Flags :=
  let sig : Flags := if ts.any Val.isSig then fIV else 0
  let posInf := ts.any (fun v => v == .inf false)
  let negInf := ts.any (fun v => v == .inf true)
  if ts.any Val.isNan then (.nan false, sig ||| (if posInf && negInf then fIV else 0))
  else if posInf && negInf then (.nan false, fIV)
  else if posInf then (.inf false, 0)
  else if negInf then (.inf true, 0)
  else
    let m := (minExp ts).getD 0
    let x := sumAt m ts
    if x = 0 then
      let allZero := ts.all Val.isZero
      let allNeg := ts.all Val.neg?
      let allPos := ts.all (fun v => !v.neg?)
      if allZero && allNeg && !ts.isEmpty then (.fin true 0 0, 0)
      else if allZero && allPos then (.fin false 0 0, 0)
      else (.fin (mode == .rdn) 0 0, 0)
    else (.fin (x < 0) x.natAbs m, 0)

/-- How many quotient bits a division carries beyond its sticky bit (log 7). -/
def divBits : Nat := 256

/-- An exact quotient, carried as a truncated one with a sticky bit (R43, R97, log 7). -/
def divVal (a b : Val) : Val × Flags :=
  match a, b with
  | .nan s, b => (.nan false, if s || b.isSig then fIV else 0)
  | a, .nan s => (.nan false, if s || a.isSig then fIV else 0)
  | .inf _, .inf _ => (.nan false, fIV)
  | .inf s, .fin s' _ _ => (.inf (s != s'), 0)
  | .fin s _ _, .inf s' => (.fin (s != s') 0 0, 0)
  | .fin s n e, .fin s' n' e' =>
    if n' = 0 then
      if n = 0 then (.nan false, fIV) else (.inf (s != s'), fDZ)
    else if n = 0 then (.fin (s != s') 0 0, 0)
    else
      let k := divBits + Nat.log2 n' - Nat.log2 n
      let q := (n <<< k) / n'
      let st := if (n <<< k) % n' = 0 then 0 else 1
      (.fin (s != s') (2 * q + st) (e - e' - k - 1), 0)

/-- Integer square root, one bit per unit of fuel, from bit `b` down. -/
def isqrtFrom (n : Nat) : Nat → Nat → Nat
  | 0, r => r
  | b + 1, r =>
    let r' := r + 2 ^ b
    isqrtFrom n b (if r' * r' ≤ n then r' else r)

/-- `⌊√n⌋`. -/
def isqrt (n : Nat) : Nat := isqrtFrom n (Nat.log2 n / 2 + 1) 0

/-- An exact square root, carried as a truncated one with a sticky bit (R43, R97, log 7). -/
def sqrtVal (a : Val) : Val × Flags :=
  match a with
  | .nan s => (.nan false, if s then fIV else 0)
  | .inf s => if s then (.nan false, fIV) else (.inf false, 0)
  | .fin s n e =>
    if n = 0 then (.fin s 0 0, 0)
    else if s then (.nan false, fIV)
    else
      let odd := e % 2 == 1
      let n' := (if odd then 2 * n else n) <<< (2 * divBits)
      let e' := (if odd then e - 1 else e) - 2 * divBits
      let r := isqrt n'
      (.fin false (2 * r + (if r * r = n' then 0 else 1)) (e' / 2 - 1), 0)

/-- Compare two values; a NaN is unordered, and −0 equals +0. -/
def cmpVal (a b : Val) : Option Ordering :=
  match a, b with
  | .nan _, _ => none
  | _, .nan _ => none
  | .inf s, .inf s' => some (if s = s' then .eq else if s then .lt else .gt)
  | .inf s, _ => some (if s then .lt else .gt)
  | _, .inf s => some (if s then .gt else .lt)
  | a, b =>
    let ts := [a, b.negate]
    let x := sumAt ((minExp ts).getD 0) ts
    some (if x < 0 then .lt else if x = 0 then .eq else .gt)

/-- An SP32 code that a selection delivers: a reserved code becomes zero (R36). -/
def canonCode (t : ElemType) (code : Nat) : Nat :=
  if t = .sp32 ∧ (code >>> 22) % 1024 = 0 then 0 else code

/-- The canonical NaN of a floating-point or SP32 type (Table 8). -/
def canonNanOf (t : ElemType) : Nat :=
  match fmtOf t with
  | some f => f.canonNan
  | none => 0xFFFFFFFF

/-- FMIN and FMAX (R98), and VMIN, VMAX of every type (R122): never rounded. -/
def minMaxCode (wantMax : Bool) (t : ElemType) (a b : Nat) : Nat × Flags :=
  if t.isInt then
    let x := intOf t.isSigned t.width a
    let y := intOf t.isSigned t.width b
    (if (x < y) != wantMax then a else b, 0)
  else
    let x := valOf t a
    let y := valOf t b
    let fl : Flags := if x.isSig || y.isSig then fIV else 0
    match x.isNan, y.isNan with
    | true, true => (canonNanOf t, fl)
    | true, false => (canonCode t b, fl)
    | false, true => (canonCode t a, fl)
    | false, false =>
      let less := match cmpVal x y with
        | some .lt => true
        | some .eq => x.neg? && !y.neg?
        | _ => false
      (canonCode t (if less != wantMax then a else b), fl)

/-- FCLASS (R100, Table 26): the mask with one bit set. -/
def classMask (t : ElemType) (code : Nat) : Nat :=
  let c := code % 2 ^ t.width
  if t = .sp32 then
    if c = 0xFFFFFFFF then 2 ^ 9
    else if c = 0 then 2 ^ 4
    else if c < 2 ^ 22 then 2 ^ 10
    else 2 ^ 6
  else
    match valOf t c with
    | .nan s => if s then 2 ^ 8 else 2 ^ 9
    | .inf s => if s then 2 ^ 0 else 2 ^ 7
    | .fin s n _ =>
      if n = 0 then (if s then 2 ^ 3 else 2 ^ 4)
      else
        let sub := match fmtOf t with
          | some f => decide (n < 2 ^ f.mw)
          | none => false
        if sub then (if s then 2 ^ 2 else 2 ^ 5) else (if s then 2 ^ 1 else 2 ^ 6)

/-! Lines as lists of elements (R15). -/

/-- Element i of width w of a line (R15). -/
def lineEl (l : Line) (w i : Nat) : Nat := (l.toNat >>> (w * i)) % 2 ^ w

/-- The elements of width w of a line (R15). -/
def lineEls (l : Line) (w : Nat) : List Nat := (List.range (4096 / w)).map fun i => lineEl l w i

/-- A number from elements of width w, element 0 lowest (R15). -/
def packEls (w : Nat) : List Nat → Nat
  | [] => 0
  | x :: r => x % 2 ^ w + packEls w r <<< w

/-- A line from its elements, the rest zero (R15). -/
def lineOfEls (w : Nat) (xs : List Nat) : Line := BitVec.ofNat 4096 (packEls w xs)

/-- A line with element i replaced (R15). -/
def lineSetEl (l : Line) (w i x : Nat) : Line :=
  let n := l.toNat
  let old := (n >>> (w * i)) % 2 ^ w
  BitVec.ofNat 4096 (n - old <<< (w * i) + (x % 2 ^ w) <<< (w * i))

/-! Stochastic rounding words (R47). -/

def mul32 (a b : Nat) : Nat := (a * b) % 2 ^ 32

/-- RowWord (R47). -/
def rowWord (seed c row : Nat) : Nat :=
  let x := (seed % 2 ^ 32) ^^^ (c % 2 ^ 32) ^^^ mul32 row 0x9E3779B9
  let x := mul32 (x ^^^ (x >>> 16)) 0x85EBCA6B
  let x := mul32 (x ^^^ (x >>> 13)) 0xC2B2AE35
  x ^^^ (x >>> 16)

/-- ROTL32 (R47). -/
def rotl32 (x k : Nat) : Nat := ((x <<< k) ||| (x >>> (32 - k))) % 2 ^ 32

/-- LaneWord (R47). -/
def laneWord (seed c row j : Nat) : Nat := rotl32 (rowWord seed c row) ((5 * j) % 32)

end Sys2Proof.Machine
end

