-- ==== Sys2Proof/Machine/Store.lean ====
section
/-!
DEFINITION. Sparse plain-data maps: association lists with strictly rising keys and no entry that holds the default.
Registers, lines, memory and tables are held in them, so equal contents are equal data.
-/
namespace Sys2Proof.Machine

/-- A sparse map from Nat, keys strictly rising. -/
abbrev Store (α : Type) := List (Nat × α)

/-- The entry at a key. -/
def find? {α : Type} : Store α → Nat → Option α
  | [], _ => none
  | (k, v) :: r, n => if k = n then some v else find? r n

/-- The value at a key, `d` where nothing is listed. -/
def lookD {α : Type} (m : Store α) (n : Nat) (d : α) : α :=
  match find? m n with
  | some v => v
  | none => d

/-- The map with the entry at a key removed. -/
def del {α : Type} : Store α → Nat → Store α
  | [], _ => []
  | (k, v) :: r, n => if k = n then del r n else (k, v) :: del r n

/-- The map with an entry put at its place. -/
def put {α : Type} : Store α → Nat → α → Store α
  | [], n, v => [(n, v)]
  | (k, w) :: r, n, v =>
    if n < k then (n, v) :: (k, w) :: r
    else if n = k then (n, v) :: r
    else (k, w) :: put r n v

/-- The map with a value written at a key; writing the default removes the entry. -/
def putD {α : Type} [DecidableEq α] (m : Store α) (n : Nat) (v d : α) : Store α :=
  if v = d then del m n else put m n v

/-- Keys strictly rising from a bound. -/
def risingFrom {α : Type} : Nat → Store α → Bool
  | _, [] => true
  | b, (k, _) :: r => decide (b ≤ k) && risingFrom (k + 1) r

/-- The canonical form: keys strictly rising and no entry that holds the default. -/
def wfD {α : Type} [DecidableEq α] (m : Store α) (d : α) : Bool :=
  risingFrom 0 m && m.all fun e => decide (e.2 ≠ d)

/-- The bytes of the machine's memories (R232), by canonical location; see `Machine.loc`. -/
abbrev Memory := List Host.Cell

/-- What a byte that nothing has written reads as. DESIGN CHOICE (log 1): the spec gives no contents of memory at
power-on; this is unsafe. -/
def unlistedByte : Byte := 0

/-- Memory's canonical form. -/
def Memory.wf (m : Memory) : Bool := wfD m unlistedByte

/-- One byte of memory. -/
def Memory.read (m : Memory) (a : Nat) : Byte := lookD m a unlistedByte

/-- Memory with one byte written. -/
def Memory.write (m : Memory) (a : Nat) (b : Byte) : Memory := putD m a b unlistedByte

/-- The `n` bytes from location `a` as a number, least significant byte first (R6). -/
def Memory.readN (m : Memory) (a : Nat) : Nat → Nat
  | 0 => 0
  | n + 1 => (m.read a).toNat + 256 * Memory.readN m (a + 1) n

/-- Memory with the low `n` bytes of a number written from location `a` (R6). -/
def Memory.writeN (m : Memory) (a : Nat) : Nat → Nat → Memory
  | 0, _ => m
  | n + 1, v => Memory.writeN (m.write a (BitVec.ofNat 8 v)) (a + 1) n (v / 256)

end Sys2Proof.Machine
end

