-- ==== Sys2Proof/Machine/State.lean ====
section
/-!
DEFINITION. The state of the machine as plain data (spec/01 R12, R21; 06; 07; 09 to 14; 16; 17; 20; 22), the reasons a
step can stop, and the state after reset.
-/
namespace Sys2Proof.Machine

/-- Why the machine stops with a fault. Faults of the hardware itself (Table 85) are no stop: they are delivered as
the spec says and the machine goes on. -/
inductive Fault where
  /-- Raised by `exec` of an instruction fetched by a context when no running context stands at `State.cur`: the spec
  gives an instruction no meaning without a context. Safe: no step reaches it. -/
  | noContext
deriving DecidableEq, Repr

/-- Why a step has no meaning. -/
inductive Refusal where
  /-- Raised by the arm of an instruction that the model does not give a meaning yet. Safe. -/
  | notModelled (mnemonic : String)
deriving DecidableEq, Repr

/-- The fault codes of Table 85. -/
inductive FaultCode where
  | page | prot | align | guard | crc | qlen | eccu | wstore | illop | illrec | latviol | bankconf
  | spbank | hndl | tuncfg | oslot | qseed | nocirc | footprint | wdog | fabric | debug | trapi
deriving DecidableEq, Repr

/-- The number of a fault code (Table 85). -/
def FaultCode.num : FaultCode → Nat
  | .page => 0x10 | .prot => 0x11 | .align => 0x12 | .guard => 0x13 | .crc => 0x14 | .qlen => 0x15
  | .eccu => 0x16 | .wstore => 0x17 | .illop => 0x18 | .illrec => 0x40 | .latviol => 0x41
  | .bankconf => 0x42 | .spbank => 0x43 | .hndl => 0x44 | .tuncfg => 0x45 | .oslot => 0x46
  | .qseed => 0x47 | .nocirc => 0x48 | .footprint => 0x49 | .wdog => 0x4A | .fabric => 0x4B
  | .debug => 0x4C | .trapi => 0x4D

/-- A fault to be delivered (Tables 84 and 85): the engine code (7 for no engine, none for the
engine that performs the instruction), what the fault registers hold,
whether the faulting engine resumes at the slot after, the resource in which an uncorrectable error was found (R326), and
whether PAIR names no circuit at all (R348). -/
structure Trap where
  code : FaultCode
  eng : Option Nat := none
  addr : Nat := 0
  arg : Nat := 0
  chain : Nat := 0
  circ : Nat := 0
  card : Bool := false
  seq : Nat := 0
  slot : Option Nat := none
  resumeNext : Bool := false
  found : Option Resource := none
  nopair : Bool := false
deriving DecidableEq, Repr

/-- One engine's place in the record stream (R25, R187, R188): record address, slot, records passed and slots
passed since the task started. -/
structure EnginePos where
  addr : Nat := 0
  slot : Nat := 0
  ord : Nat := 0
  idx : Nat := 0
deriving DecidableEq, Repr

/-- The places of the six engines. -/
structure SixPos where
  ctl : EnginePos := {}
  vec : EnginePos := {}
  mat : EnginePos := {}
  spe : EnginePos := {}
  mem : EnginePos := {}
  syn : EnginePos := {}
deriving DecidableEq, Repr

/-- The resolved outcome of an ALL slot (R189): where every engine goes on, and whether that leaves the record. -/
structure Resolved where
  addr : Nat
  slot : Nat
  leaves : Bool
deriving DecidableEq, Repr

/-- What R190 interlocks, by physical name, and the handle indices that R198 reads in program order. -/
inductive RegName where
  | s (n : Nat)
  | p (n : Nat)
  | rbase
  | head (h : Nat)
  | tail (h : Nat)
  | ex (e : Nat)
deriving DecidableEq, Repr

/-- A version owed to readers that lie before the writer in program order (R190). -/
structure Owed where
  reg : RegName
  idx : Nat
  old : Nat
deriving DecidableEq, Repr

/-- A line write in flight, for the shadow scoreboard (R192). `age` is the least number of cycles from its issue to its
engine's next issue, by the issue intervals of Table 31 and the delays that DLY made; `waited` marks that the engine has
also waited a time that the model does not count (log 29); `stamp` is the issue that made the write. -/
structure Flight where
  eng : Engine
  line : Nat
  dly : Nat
  lat : Nat
  age : Nat := 0
  waited : Bool := false
  stamp : Nat := 0
deriving DecidableEq, Repr

/-- Y registers that an instruction of SPE is still writing (R182): its latency, and the cycles since its issue. -/
structure YBusy where
  regs : List Nat
  lat : Nat
  age : Nat
deriving DecidableEq, Repr

/-- A release that ADVP, ADVC or TKSEND has recorded (R198, R199). -/
inductive Release where
  | fill (h n first : Nat)
  | drain (h n first : Nat)
  | token (snd rcv : Engine) (n : Nat)
deriving DecidableEq, Repr

/-- A recorded release, the place in program order of the instruction that recorded it, and the issues that its context had
made by then (R195, R198 to R200): it awaits every earlier instruction of its engine. -/
structure Recorded where
  rel : Release
  idx : Nat
  stamp : Nat
deriving DecidableEq, Repr

/-- What a line held before and after a write (R194): the writer (none outside the context's engines), its place, the issues that
its context had made, and whether a release of the writer has ordered it (R195). An ordered write is kept while an older one that
is not may still be met on its line. -/
structure Mix where
  line : Nat
  old : Line
  new : Line
  eng : Option Engine
  idx : Nat
  stamp : Nat
  settled : Bool := false
deriving DecidableEq, Repr

/-- An SBAR that MEM has performed (R201): its place and its mask. -/
structure Bar where
  idx : Nat
  mask : BitVec 3
deriving DecidableEq, Repr

/-- An access that SBARs have ordered after earlier ones (R195): its engine, its place, the issues that its context had made, its
streams, and the place before which every write of a line comes before it. -/
structure Chained where
  eng : Engine
  idx : Nat
  stamp : Nat
  streams : BitVec 3
  lim : Nat
deriving DecidableEq, Repr

/-- A handle (R18, R196). For a shared handle the full bits and the pending marks are the die instance's (R196,
R217); head and tail are the task's own (R218). -/
structure Handle where
  base : Nat := 0
  size : Nat := 1
  count : Nat := 1
  peng : Engine := .ctl
  ceng : Engine := .ctl
  head : Nat := 0
  tail : Nat := 0
  full : BitVec 64 := 0
  fillPend : BitVec 64 := 0
  clearPend : BitVec 64 := 0
  shared : Bool := false
  region : Nat := 0
deriving DecidableEq, Repr

/-- The tag of a loaded operand slot (R152): `fmt` is a TYPE code, or 16 + BFMT. -/
structure OTag where
  fmt : Nat
  klen : Nat
  hen : Bool
  hseed : Nat
deriving DecidableEq, Repr

/-- A claimed operand slot (R152): its tag, if loaded, and its sixteen rows. `rin` marks the rows that lie inside the tensor
and `kin` counts the k-positions that do: the other lanes are padding (R46, R154). -/
structure OSlot where
  tag : Option OTag := none
  rows : Store Line := []
  rin : BitVec 16 := 0
  kin : Nat := 0
deriving DecidableEq, Repr

/-- The matrix engine's part of a context (R146, R159 to R161). `loose` marks a running nest whose MGO a handler's
redirection has left behind (R320). -/
structure MatState where
  tshape : Store Word := []
  acc : Store (BitVec 32) := []
  oslots : Store OSlot := []
  shadow : Store Word := []
  active : Store Word := []
  go : Bool := false
  running : Bool := false
  loose : Bool := false
  steps : Nat := 0
  stepAt : Nat := 0
  kAt : Nat := 0
  nflags : BitVec 6 := 0
deriving DecidableEq, Repr

/-- A job chain descriptor (R289, Table 78), and the write that disables it while cards remain (R290). -/
structure Chain where
  en : Bool := false
  ring : Bool := false
  failed : Bool := false
  ecode : Nat := 0
  base : Nat := 0
  rsize : Nat := 0
  tail : Nat := 0
  done : Nat := 0
  sqaddr : Nat := 0
  lpos : Nat := 0
  failedSeq : Nat := 0
  disabling : Bool := false
deriving DecidableEq, Repr

/-- Register files, exchange registers and the writable system registers (R12 to R17, R21). -/
structure RegFile where
  s : Store Word := []
  bank : Store Word := []
  p : Store (BitVec 128) := []
  ex : Store Word := []
  exFull : BitVec 8 := 0
  rbase : Nat := 0
  fpmode : BitVec 2 := 0
  flags : BitVec 6 := 0
  srseed : BitVec 32 := 0
  latmode : Bool := false
  span : Nat := 0
  txsel : Nat := 0
  qsel : Nat := 0
  gver : Nat := 0
  frep : Word := 0
  cls : Nat := 0
deriving DecidableEq, Repr

/-- What a launch and a binding fix for a task (R21, R30, R212). -/
structure Binding where
  lid : Nat := 0
  wid : Nat := 0
  root : Nat := 0
  traph : Nat := 0
  window : Nat := 1
  det : Bool := false
  pad : Bool := false
  pers : Bool := false
  hbeat : Nat := 0
  grant : Nat := 0
  tidx : Nat := 0
  tsize : Nat := 0
  phase : Nat := 0
  sel : Nat := 0xFF
  sh : List Nat := [0, 0, 0, 0]
  hmark : Nat := 0
deriving DecidableEq, Repr

/-- The fault registers of Table 84, and the places the engines stopped at (R318, R320). -/
structure FaultRegs where
  fcause : Word := 0
  faddr : Word := 0
  fslot : Word := 0
  fseq : Word := 0
  fpc : Store Word := []
  fnestv : Word := 0
  fnestm : Word := 0
  redirected : Bool := false
deriving DecidableEq, Repr

/-- The iteration a VEC or MEM nest stands at (R67, R200); `none` when its next issue is the first. -/
structure NestPos where
  i0 : Nat := 0
  i1 : Nat := 0
  i2 : Nat := 0
  i3 : Nat := 0
deriving DecidableEq, Repr

/-- A read of memory that has issued and of which nothing shows yet that its data has come (R325): its engine, its place, the
iteration of its nest and its issue; the addresses, locations and lengths that it reads; and what its destination held, with the
parts that were uncorrectable. -/
structure LateRead where
  eng : Engine
  place : EnginePos
  nest : Option NestPos
  stamp : Nat
  src : List (Nat × Nat × Nat)
  lines : List (Nat × Line)
  regs : List (Nat × Word)
  slots : Store OSlot
  own : List OwnPart
deriving DecidableEq, Repr

/-- What an exchange register awaits from a LAUNCH, and the value once it is known: an answer that comes before an earlier
LAUNCH's of the same register waits for it (R202, R224). -/
structure FillDue where
  e : Nat
  ticket : Nat
  val : Option Word := none
deriving DecidableEq, Repr

/-- A RED performed with an uncorrectable error, still to be reported (R277). -/
structure RedErr where
  slot : Nat
  addr : Nat
deriving DecidableEq, Repr

/-- A storage unit of a core that a context owns (R330). -/
inductive UnitKind where
  | plate (wpl : Nat) | tile (t : Nat) | slot (o : Nat) | ybank (b : Nat)
deriving DecidableEq, Repr

/-- One context: a task with all its state (R12, R187, R329). `pendingFault` is a fault whose stop is not complete
(R316), `preempting` a pre-emption that awaits what has issued, `haltCode` the ARG of a DEBUG halt to be reported
(R336), `own` what is uncorrectable in the context's own arrays (R324), `clean` the units of which the save area holds a
copy that has not been written since (R330), `stamp` the issues that its engines have made apart (R195), `late` the reads
whose data may still be on its way (R325), `yBusy` what SPE
still writes and `spGroup` the records of its latest group with the y registers that they write (R182). -/
structure Context where
  bind : Binding := {}
  r : RegFile := {}
  lines : Store Line := []
  handles : Store Handle := []
  mat : MatState := {}
  y : Store (BitVec 32) := []
  spmode : Nat := 0
  tens : Store (BitVec 512) := []
  tgen : Store Nat := []
  chains : Store Chain := []
  pos : SixPos := {}
  hpos : EnginePos := {}
  handler : Bool := false
  log : Store Resolved := []
  owed : List Owed := []
  flight : List Flight := []
  late : List LateRead := []
  yBusy : List YBusy := []
  spGroup : Nat := 0
  spGroupW : List Nat := []
  stamp : Nat := 0
  releases : List Recorded := []
  mixes : List Mix := []
  bars : List Bar := []
  chained : List Chained := []
  tokens : Store Nat := []
  tokPend : Store Nat := []
  nestV : Option NestPos := none
  nestM : Option NestPos := none
  sendV : Bool := false
  sendM : Bool := false
  flt : FaultRegs := {}
  sFlt : Bool := false
  sMigr : Bool := false
  idle : Bool := false
  cwaiting : Option Nat := none
  fillsDue : List FillDue := []
  redErrs : List RedErr := []
  barCount : Store Nat := []
  barWait : Option Nat := none
  wdog : Nat := 0
  ending : Bool := false
  halted : Bool := false
  stepping : Bool := false
  pendingFault : Option Trap := none
  preempting : Bool := false
  haltCode : Option Nat := none
  own : List OwnPart := []
  clean : List UnitKind := []
deriving DecidableEq, Repr

/-- A bind record (Table 60). -/
structure BindRec where
  run : Bool := false
  pad : Bool := false
  pers : Bool := false
  cls : Nat := 0
  res : Bool := false
  lid : Nat := 0
  wid : Nat := 0
  tidx : Nat := 0
  tsize : Nat := 0
  ph : Nat := 0
deriving DecidableEq, Repr

/-- Who awaits a child launch's id (R224). -/
structure Parent where
  lid : Nat
  wid : Nat
  e : Nat
  ticket : Nat
deriving DecidableEq, Repr

/-- A launch submitted and not yet admitted or refused (R208, R224): the header's bytes once copied, or its
address when the firmware reads it; `full` marks one that a full queue refuses, whose completion word is still to be written. -/
structure Submission where
  addr : Nat
  hdr : Option (BitVec 4096)
  root : Nat
  depth : Nat := 0
  grant : Nat := 3
  parent : Option Parent := none
  full : Bool := false
deriving DecidableEq, Repr

/-- A circuit program as it was admitted, and its run (R347, R353): `cur` is the step whose operations issue, `held`
the circuit a HOLD of the step awaits, `due` the vector routines still to run, `gaps` the GAPs in force (R355), `image`
the entries of its slot table images (R349; none: the default image). -/
structure CProg where
  ops : List Word := []
  hmask : BitVec 256 := 0
  pair : BitVec 2048 := 0
  pc : Nat := 0
  opened : Option StepOp := none
  cur : Nat := 0
  stepNo : Nat := 0
  ended : Bool := false
  held : Option Nat := none
  vects : Store Nat := []
  vectAll : Option Nat := none
  image : Option (List Nat) := none
  routine : Option Nat := none
  rheld : Option Nat := none
  due : List Nat := []
  gaps : List GapOp := []
  counts : Store Nat := []
deriving DecidableEq, Repr

/-- What a task that has ended leaves to the barriers (R221, R222): its arrivals at each level, 6 for PHASE. -/
structure EndedTask where
  wid : Nat
  arrivals : Store Nat
deriving DecidableEq, Repr

/-- A shared handle table entry (R217): region, descriptor. -/
structure ShEntry where
  idx : Nat
  region : Nat
  size : Nat
  count : Nat
  full : Bool
  peng : Engine
  ceng : Engine
deriving DecidableEq, Repr

/-- One die's instance of a shared handle (R217, R218): full bits, pending marks, dispatch cursors, and the slots that tasks
have claimed and not yet drained or filled. -/
structure ShInst where
  full : BitVec 64 := 0
  fillPend : BitVec 64 := 0
  clearPend : BitVec 64 := 0
  headCur : Nat := 0
  tailCur : Nat := 0
  headClaim : BitVec 64 := 0
  tailClaim : BitVec 64 := 0
deriving DecidableEq, Repr

/-- An admitted launch (R208 to R216); `pinned` are the cores whose islands it pins (R413). -/
structure Launch where
  hdr : BitVec 4096 := 0
  root : Nat := 0
  entry : Nat := 0
  traph : Nat := 0
  bucket : Nat := 15
  variant : Nat := 15
  pext : List Nat := []
  place : BitVec 512 := 0
  hmark : Nat := 0
  depth : Nat := 0
  grant : Nat := 0
  phase : Nat := 0
  bound : Nat := 0
  left : Nat := 0
  faulted : Bool := false
  endedTasks : List EndedTask := []
  sh : List ShEntry := []
  tens : Store (BitVec 512) := []
  imgs : Store Line := []
  chains : Store Chain := []
  prog : Option CProg := none
  hints : Store Word := []
  debugger : Bool := false
  budget : Nat := 0
  pinned : List Nat := []
deriving DecidableEq, Repr

/-- Circuit states (Table 90). -/
inductive CState where
  | idle | settling | live | draining | recovering | lost
deriving DecidableEq, Repr

/-- A recovery under way (R354): the subcode that began it, the last fault report, the RETRY in force. `planned` marks a
re-establishment that no fault report began (R328, R414). -/
structure Recovery where
  first : OptSub
  die : Nat
  port : Nat
  wave : Nat
  step : Nat
  sub : OptSub
  retry : Option RetryOp := none
  tries : Nat := 0
  planned : Bool := false
deriving DecidableEq, Repr

/-- A circuit (R342, R345): `cut` marks one whose recovery a LINKSET abandoned (R402), and `renew` one that the change of a
laser bank re-establishes in its next window (R414). -/
structure Circuit where
  state : CState := .idle
  lid : Nat := 0
  est : Option EstOp := none
  groups : BitVec 8 := 0
  fcnt : Nat := 0
  inst : BitVec 32 := 0
  settled : Bool := false
  tearPend : Bool := false
  recovery : Option Recovery := none
  cut : Bool := false
  renew : Bool := false
deriving DecidableEq, Repr

/-- What a translation gives: the leaf entry, the page's size and the physical address (R240). -/
structure Trans where
  va : Nat
  pte : Nat
  size : Nat
  pa : Nat
deriving DecidableEq, Repr

/-- One part of an access that lies in one page: its translation and its length (R243, R270). -/
structure Part where
  t : Trans
  len : Nat
deriving DecidableEq, Repr

/-- A region of a card, with its parts as they were translated when the card started (R300, R367); of one at a peer device, `far`
is the key of its first byte in `State.peerMem` (R391). -/
structure Side where
  window : Bool := false
  addr : Nat := 0
  len : Nat := 0
  parts : List Part := []
  far : Option Nat := none
deriving DecidableEq, Repr

/-- A segment that has been performed and awaits its acknowledgement (R380): what was written, its length, flags, and the
status and output length that it leaves; `again` marks a segment of RREAD or RWRITE that is sent again. -/
structure SegDone where
  val : Nat
  n : Nat
  flags : BitVec 6 := 0
  status : Nat := 0
  olen : Nat := 0
  again : Bool := false
deriving DecidableEq, Repr

/-- Where a card stands (R293, R297, R300). -/
inductive CardState where
  | posted | running | failed | retired
deriving DecidableEq, Repr

/-- A posted card (R287 to R300, R372): `line` with SEQ, and what its completion record will hold; `ext` marks a card
on an external circuit, `norec` one whose CREC failed its check; `circ` is the circuit that it did not reach (R322), and
`spilt` marks one whose segments a lost circuit has left partly written (R380). `src`, `dst` and `ctr` are its regions as it
found them at its start, and `seg` the segment on its way. Of a DISPATCH, `adds` counts the fetch-and-adds sent and `slots` holds
the slots that they returned, by record (R399). -/
structure Card where
  line : BitVec 512
  lid : Nat
  wid : Nat
  die : Nat
  core : Nat
  window : Nat
  det : Bool
  q : Nat
  seq : Nat
  preds : List (Nat × Nat)
  st : CardState := .posted
  performed : Bool := false
  status : Nat := 0
  sub : Nat := 0
  faddr : Nat := 0
  rlen : Nat := 0
  olen : Nat := 0
  crc : Nat := 0
  flags : BitVec 6 := 0
  result : Nat := 0
  segs : Nat := 0
  restarts : Nat := 0
  rpt : Nat := 0
  rslv : Bool := false
  rej : Nat := 0
  ext : Bool := false
  srseed : BitVec 32 := 0
  engine : Nat := 0
  norec : Bool := false
  circ : Nat := 0
  spilt : Bool := false
  src : Side := {}
  dst : Side := {}
  ctr : Side := {}
  seg : Option SegDone := none
  adds : Nat := 0
  slots : Store Nat := []
deriving DecidableEq, Repr

/-- Who awaits the reply of a fetch-and-op request (R275, R370, R282): a context's instruction, with its place in
program order; a card; a record of a DISPATCH card (R399); a parting entry; the barrier arrival of a task at a level (R222, R280); the
peer device of an external circuit, with the address and the bytes it asked for (R391); nobody any more. -/
inductive Asker where
  | ctx (lid wid : Nat) (d : Reg) (red : Bool) (slot addr idx : Nat)
  | card (id : Nat)
  | slot (id i : Nat)
  | entry (id : Nat)
  | arrival (lid wid level : Nat)
  | peer (c addr n : Nat)
  | gone
deriving DecidableEq, Repr

/-- A fetch-and-op request on its way (R276, R280). `word` is set for a barrier arrival: the keys of its group's total and of
its arrival word (R222). `site` is the router at which it was last alloyed (R281), and `via` the circuit on which an alloyed
request travels. `ext` marks a location at a peer device (R391), `back` holds the value of a request that its home has
performed while the reply is on its way, `ask` that its receipt is asked for before it goes on (R379), and `rem` marks an alloyed
request that carries a remote one (R377). -/
structure Req where
  asker : Asker
  red : Bool
  loc : Nat
  aop : Aop
  w64 : Bool
  b : Nat
  c : Nat
  lid : Nat
  requester : Nat
  reqid : Nat
  combine : Bool
  word : Option (Nat × Nat) := none
  site : Option Nat := none
  via : Option Nat := none
  ext : Bool := false
  back : Option Nat := none
  ask : Bool := false
  rem : Bool := false
deriving DecidableEq, Repr

/-- A parting entry (R281, R282): the two constituents and the first's operand; the reply once it is back. -/
structure PartEntry where
  router : Nat
  p : Req
  q : Req
  reply : Option Nat := none
deriving DecidableEq, Repr

/-- A receipt (R378): the request id and the old value returned, or none for a RED. -/
structure Receipt where
  reqid : Nat
  old : Option Nat
deriving DecidableEq, Repr

/-- A link (R390, R392): `away` are its wavelengths under retraining, `moving` a wavelength being steered to it, and `offered`
the bytes offered to it for sending in this interval. -/
structure Link where
  up : Bool := false
  away : List Nat := []
  moving : Bool := false
  drain : Bool := false
  width : Nat := 0
  pdev : Nat := 0
  plink : Nat := 0
  demand : Nat := 0
  offered : Nat := 0
  secret : BitVec 256 := 0
  trained : Bool := false
deriving DecidableEq, Repr

/-- The partner circuit at one position of a link, as the peer device reports it (R391). -/
structure Partner where
  settled : Bool
  groups : BitVec 8
  die : Nat
deriving DecidableEq, Repr

/-- A sector in an operand cache (R155), with the task whose tensor identifier it is tagged with. -/
structure OcEntry where
  lid : Nat
  wid : Nat
  x : Nat
  gen : Nat
  addr : Nat
  data : BitVec 512
deriving DecidableEq, Repr

/-- A cached translation (R242). -/
structure TlbEntry where
  root : Nat
  va : Nat
  size : Nat
  pte : Word
deriving DecidableEq, Repr

/-- A storage unit that stays on a core after its owner was pre-empted, with its owner's task (R330). -/
structure UnitRes where
  kind : UnitKind
  lid : Nat
  wid : Nat
deriving DecidableEq, Repr

/-- A core's own state (R155, R206, R230, R242, R330): `plates` is its plate table without DIRTY, which the owner's `clean`
gives, and `owner` the WID of each plate's task; `rr` holds the pointer of engine `e` and class `k` at `4 * e + k`, 3 where
nothing is listed. -/
structure Core where
  ocache : List OcEntry := []
  tlb : List TlbEntry := []
  plates : Store Word := []
  owner : Store Nat := []
  units : List UnitRes := []
  rr : Store Nat := []
deriving DecidableEq, Repr

/-- A die's own state (R219, R224, R235, R238, R349). -/
structure Die where
  slots : Store BindRec := []
  queue : List Submission := []
  ranges : Store Word := []
  refreshPos : Nat := 0
  cycle : Nat := 0
  slotImg : Option Nat := none
  image : Option (List Nat) := none
deriving DecidableEq, Repr

/-- What is told to the firmware, the owner or a debugger (R216, R219, R300, R325, R326, R335, R336, R354, R391, R412). -/
inductive Report where
  | bindDiscarded (pos : Nat)
  | positionFree (pos : Nat)
  | systemFault (lid wid : Nat) (t : Trap)
  | snapshot (c : Context)
  | debug (lid wid : Nat) (code : Nat)
  | opticalFault (frep : Word)
  | scrub (l : ErrLoc)
  | assayDue (r : Resource)
  | transient (r : Resource)
  | quoteOf (body : BitVec 512) (sig : BitVec 912)
  | refusedWrite
  | tagFailure (c hop : Nat)
  | peerReply (c status faddr value : Nat) (tags : List Word)
deriving DecidableEq, Repr

/-- A pre-empted task's saved context (R329), the order of its pre-emption, and whether its save area is uncorrectable
(R325). -/
structure Saved where
  ctx : Context
  pos : Nat
  order : Nat
  bad : Bool := false
deriving DecidableEq, Repr

/-- The phases of a LINKSET after Stop (R401): it drains; its circuits are closed; its links are mapped anew; they have trained. -/
inductive LinksetPhase where
  | drain | closed | mapped | trained
deriving DecidableEq, Repr

/-- A LINKSET card that runs (R400, R401): its number, its links, the peers its map names (a device and a link, or
unconnected), where its record goes, the cards it has torn, its phase, and the links whose peer did not match. -/
structure LinksetRun where
  seq : Nat
  lmask : BitVec 32
  map : List (Option (Nat × Nat))
  crec : Nat
  torn : Nat := 0
  phase : LinksetPhase := .drain
  bad : Nat := 0
deriving DecidableEq, Repr

/-- The owner's and the management core's registers (R407 to R414), the fabric queue and the owner area by aperture offset,
the bank that is the spare, the bank at each of the four places in service where it is another than at first, the spare HBM
channels in use of each die's stack, the time without a keep-alive in ms, and the LINKSET that runs. -/
structure Mgmt where
  ready : BitVec 2048 := 0
  ownerKind : Nat := 0
  ownerDev : Nat := 0
  handover : Word := 0
  nonce : Option (BitVec 256) := none
  keysAtNonce : Store (BitVec 512) := []
  devno : Nat := 0
  fqtail : BitVec 32 := 0
  fqdone : BitVec 32 := 0
  fqstatus : Nat := 0
  fq : Store Byte := []
  area : Store Byte := []
  lsecret : BitVec 256 := 0
  okeysStaged : Store (BitVec 512) := []
  okeys : Store (BitVec 512) := []
  oklock : Bool := false
  meas : BitVec 512 := 0
  pcap : Nat := 5700
  pdraw : Nat := 0
  floor : BitVec 16 := 0
  spare : Option Nat := some 4
  serves : Store Nat := []
  copied : Store Nat := []
  defects : List Word := []
  epoch : Word := 0
  standby : Bool := false
  quiet : Nat := 0
  lset : Option LinksetRun := none
  wdlim : Nat := 100000
  nextLid : Nat := 1
  nextTicket : Nat := 0
  nextCard : Nat := 0
  nextReq : Nat := 0
  hostQ : List Submission := []
  reports : List Report := []
deriving DecidableEq, Repr

/-- What a card of the peer device asks of this device's memory over an external circuit (R366, R371, R391, R395): the check of
its remote region at its start, by its KIND; the bytes of a read region, with the place that they are carried to; bytes and
their tags for a write region; elements with OPT[9:2]; a fetch-and-op, with the launch of the peer device that sent it where that
launch grants combining (R280); RSIGNAL's word. -/
inductive PeerOp where
  | check (kind va len : Nat)
  | read (va len ver dst : Nat)
  | write (va len v ver : Nat) (tags : List Word)
  | reduce (va len v ver opt : Nat) (tags : List Word)
  | fetch (va : Nat) (aop : Aop) (w64 red : Bool) (b ver requester reqid : Nat) (grant : Option Nat) (tags : List Word)
  | signal (va v ver : Nat) (tags : List Word)
deriving DecidableEq, Repr

/-- A stream of a receiver port (R358): its circuit, and the header that its last packet stands for. -/
structure Stream where
  circ : Nat
  head : Header
deriving DecidableEq, Repr

/-- One thing that moves next: an engine of the context at a bind position, the sequencer on a launch's circuit
program, an event, a master's write of a word of the management aperture, an access of a peer device's card that an external
circuit brings, or a store of `n` bytes that a peer device makes to its own memory (log 3). -/
inductive Act where
  | engine (pos : Nat) (e : Engine)
  | sequencer (lid : Nat)
  | event (i : Instr)
  | aperture (m : Master) (off : Nat) (v : Word)
  | peer (c : Nat) (op : PeerOp)
  | peerStore (key n v : Nat)
deriving DecidableEq, Repr

/-- The state of the machine. `cur` and `eng` name the context and the engine whose instruction is being run, and
`curLid` the launch whose circuit program is; `turn` is the default order's place; `freeCtr` numbers the free values
taken. These, and `agenda`, are the model's own fields (logs 3 and 5). `relayed` holds, by hop and direction, the frames that a
relay has decrypted and sends on (R357), and `opening` the packets that ask for a stream (R358). `peerMem` holds the bytes of peer
devices' memory that have been written, by `peerKey` (R391, log 63). -/
structure State where
  agenda : List Act := []
  cur : Nat := 0
  eng : Engine := .ctl
  curLid : Nat := 0
  turn : Nat := 0
  freeCtr : Nat := 0
  mem : Memory := []
  tags : Store Word := []
  bad : Store (Option Nat) := []
  ctxs : Store Context := []
  saved : Store Saved := []
  cores : Store Core := []
  dies : Store Die := []
  launches : Store Launch := []
  shInsts : Store ShInst := []
  wsOpen : Store Unit := []
  arrivals : Store Nat := []
  arrWords : Store Nat := []
  cards : Store Card := []
  reqs : Store Req := []
  parts : Store PartEntry := []
  reqIds : Store Nat := []
  receipts : Store (List Receipt) := []
  circuits : Store Circuit := []
  retraining : Store Unit := []
  paused : Store Unit := []
  rx : Store Nat := []
  flits : Store Nat := []
  relayed : Store (List (List Byte)) := []
  streams : Store Stream := []
  opening : Store Packet := []
  links : Store Link := []
  partners : Store Partner := []
  peerMem : Store Byte := []
  aborted : Store Nat := []
  m : Mgmt := {}
deriving DecidableEq, Repr

/-- The machine right after reset: every field at the value the spec states, and the values of logs 1, 5 and 12
where it states none. No context, launch, card or circuit exists until one is made. -/
def State.reset : State := {}

end Sys2Proof.Machine
end

