-- ==== Sys2Proof/Machine/Ops.lean ====
section
/-!
DEFINITION. The named operations over registers, lines, places and memory; taking a fault and returning from one
(spec/01 R12 to R16, R22, R28; spec/09 R189, R190, R198; spec/11 R232 to R243; spec/14 R316 to R320).
-/
namespace Sys2Proof.Machine

/-- What `exec` answers. -/
abbrev HO := Host.Outcome State Fault Refusal

/-- Why a meaning does not complete: a fault to deliver, or a wait that leaves the state as it is. -/
inductive Stop where
  | trap (t : Trap)
  | wait
deriving DecidableEq, Repr

/-- A meaning's result. -/
abbrev Res := Except Stop

/-- Raise a fault (Table 85). -/
def raise {α : Type} (code : FaultCode) (addr : Nat := 0) (arg : Nat := 0) : Res α :=
  .error (.trap { code := code, addr := addr, arg := arg })

/-- Wait. -/
def hold {α : Type} : Res α := .error .wait

/-- Go on if a condition holds, else raise a fault. -/
def check (b : Bool) (code : FaultCode) (addr : Nat := 0) (arg : Nat := 0) : Res Unit :=
  if b then .ok () else raise code addr arg

/-- Go on if a condition holds, else wait. -/
def await (b : Bool) : Res Unit := if b then .ok () else hold

/-! Places (R25, R187, R188). -/

/-- The next slot (R26). -/
def EnginePos.next (p : EnginePos) : EnginePos :=
  if p.slot = 7 then { addr := (p.addr + 64) % 2 ^ 56, slot := 0, ord := p.ord + 1, idx := p.idx + 1 }
  else { addr := p.addr, slot := p.slot + 1, ord := p.ord, idx := p.idx + 1 }

/-- Slot 0 of the next record, after a nest or subtree record (R26). -/
def EnginePos.nextRecord (p : EnginePos) : EnginePos :=
  { addr := (p.addr + 64) % 2 ^ 56, slot := 0, ord := p.ord + 1, idx := p.idx + 1 }

/-- A branch target (R102): the record being left counts as passed. -/
def EnginePos.jump (addr slot : Nat) (p : EnginePos) : EnginePos :=
  { addr := addr, slot := slot, ord := p.ord + 1, idx := p.idx + 1 }

/-- The code address word of a place (R74, R104). -/
def EnginePos.word (p : EnginePos) : Nat := p.addr + p.slot

/-- The record address of a code address word; bits 63 to 56 and 5 to 3 are ignored (R74). -/
def codeAddr (w : Nat) : Nat := w % 2 ^ 56 / 64 * 64

/-- The slot of a code address word (R74). -/
def codeSlot (w : Nat) : Nat := w % 8

def SixPos.get (p : SixPos) : Engine → EnginePos
  | .ctl => p.ctl | .vec => p.vec | .mat => p.mat | .spe => p.spe | .mem => p.mem | .syn => p.syn

def SixPos.set (p : SixPos) (e : Engine) (q : EnginePos) : SixPos :=
  match e with
  | .ctl => { p with ctl := q }
  | .vec => { p with vec := q }
  | .mat => { p with mat := q }
  | .spe => { p with spe := q }
  | .mem => { p with mem := q }
  | .syn => { p with syn := q }

def SixPos.map (f : EnginePos → EnginePos) (p : SixPos) : SixPos :=
  ⟨f p.ctl, f p.vec, f p.mat, f p.spe, f p.mem, f p.syn⟩

/-- All six engines at one slot. -/
def SixPos.together (p : SixPos) : Bool :=
  p.vec.idx == p.ctl.idx && p.mat.idx == p.ctl.idx && p.spe.idx == p.ctl.idx &&
    p.mem.idx == p.ctl.idx && p.syn.idx == p.ctl.idx

/-- The place of the engine least far in program order. -/
def SixPos.minIdx (p : SixPos) : Nat :=
  min (min (min p.ctl.idx p.vec.idx) (min p.mat.idx p.spe.idx)) (min p.mem.idx p.syn.idx)

/-- The least count of records passed (R188). -/
def SixPos.minOrd (p : SixPos) : Nat :=
  min (min (min p.ctl.ord p.vec.ord) (min p.mat.ord p.spe.ord)) (min p.mem.ord p.syn.ord)

/-- One program counter for all engines: handler mode, or SPAN 0, or a debugger's step, with the engines at one slot
(R28, R188, R319, R337). -/
def Context.together (c : Context) : Bool := c.handler || ((c.r.span == 0 || c.stepping) && c.pos.together)

/-- Where an engine stands. -/
def Context.posOf (c : Context) (e : Engine) : EnginePos := if c.handler then c.hpos else c.pos.get e

/-- Move the engine, and with one program counter all of them. -/
def Context.move (c : Context) (e : Engine) (f : EnginePos → EnginePos) : Context :=
  if c.handler then { c with hpos := f c.hpos }
  else if c.together then { c with pos := c.pos.map f }
  else { c with pos := c.pos.set e (f (c.pos.get e)) }

/-- Continue at PC.next. -/
def Context.advance (c : Context) (e : Engine) : Context := c.move e EnginePos.next

/-- Continue at the next record. -/
def Context.advanceRecord (c : Context) (e : Engine) : Context := c.move e EnginePos.nextRecord

/-- Keep a resolved ALL slot for the engines that have still to reach it (R189). -/
def Context.resolve (c : Context) (r : Resolved) : Context :=
  if c.together then c else { c with log := put c.log (c.pos.get .ctl).idx r }

/-- A taken branch: CTL resolves the ALL slot and goes to the target (R102, R189). -/
def Context.branchTo (c : Context) (addr slot : Nat) : Context :=
  (c.resolve ⟨addr, slot, true⟩).move .ctl (EnginePos.jump addr slot)

/-- A branch not taken (R102, R189). -/
def Context.branchPast (c : Context) : Context :=
  let q := (c.posOf .ctl).next
  (c.resolve ⟨q.addr, q.slot, q.slot == 0⟩).advance .ctl

/-! Registers (R12 to R16, R190, R319). -/

/-- The handle of a number, if configured. -/
def Context.handle? (c : Context) (h : Nat) : Option Handle := find? c.handles h

/-- The value a register holds now. -/
def Context.now (c : Context) : RegName → Nat
  | .s n => (lookD c.r.s n 0).toNat
  | .p n => (lookD c.r.p n 0).toNat
  | .rbase => c.r.rbase
  | .head h => match c.handle? h with | some d => d.head | none => 0
  | .tail h => match c.handle? h with | some d => d.tail | none => 0
  | .ex n => (lookD c.r.ex n 0).toNat

/-- The version owed to a reader at a place: that of the first write at or after it (R190). -/
def owedAt : List Owed → RegName → Nat → Option Nat
  | [], _, _ => none
  | o :: r, n, i => if o.reg = n ∧ i ≤ o.idx then some o.old else owedAt r n i

/-- The value program order gives a register at an engine's place (R190). -/
def Context.seen (c : Context) (e : Engine) (n : RegName) : Nat :=
  if c.together then c.now n
  else match owedAt c.owed n (c.pos.get e).idx with
    | some v => v
    | none => c.now n

/-- RBASE at an engine's place (R113). -/
def Context.rbase (c : Context) (e : Engine) : Nat := c.seen e .rbase

/-- Read a scalar (R13, R319). -/
def Context.rdS (c : Context) (e : Engine) (r : Reg) : Word :=
  if r = 0 then 0
  else if c.handler ∧ 56 ≤ r.toNat then lookD c.r.bank r.toNat 0
  else BitVec.ofNat 64 (c.seen e (.s r.toNat))

/-- The versions still owed once a handler or a debugger has changed a register: the new value stands for every engine
(R319, R337). -/
def Context.purge (c : Context) (n : RegName) : Context := { c with owed := c.owed.filter fun o => o.reg ≠ n }

/-- What a handler's write of a register leaves owed; outside handler mode nothing changes (R319). -/
def Context.purgeH (c : Context) (n : RegName) : Context := if c.handler then c.purge n else c

/-- Write a scalar; a write to s0 is discarded (R13). In handler mode s56 to s63 are the bank's (R319), and the
handler's value of another scalar stands for every engine. -/
def Context.wrS (c : Context) (r : Reg) (v : Word) : Context :=
  if r = 0 then c
  else if c.handler ∧ 56 ≤ r.toNat then { c with r := { c.r with bank := putD c.r.bank r.toNat v 0 } }
  else { c with r := { c.r with s := putD c.r.s r.toNat v 0 } }.purgeH (.s r.toNat)

/-- The physical predicate of a name (R16). -/
def predPhys (rbase n : Nat) : Nat := if n < 8 then n else 8 + (n - 8 + rbase) % 8

/-- The window line of a vector register name (R15, R16). -/
def vecLine (rbase n : Nat) : Nat := if n < 32 then n else 32 + (n - 32 + rbase) % 32

def ones128 : BitVec 128 := BitVec.allOnes 128

/-- Read a predicate (R14). -/
def Context.rdP (c : Context) (e : Engine) (n : Nat) : BitVec 128 :=
  if n = 0 then ones128
  else if n = 1 then (if c.bind.pad then 0 else ones128)
  else BitVec.ofNat 128 (c.seen e (.p (predPhys (c.rbase e) n)))

/-- Write a physical predicate; p0 and p1 discard writes (R14). -/
def Context.wrPhys (c : Context) (n : Nat) (v : BitVec 128) : Context :=
  if n < 2 then c else { c with r := { c.r with p := putD c.r.p n v 0 } }.purgeH (.p n)

/-- Write a predicate by name (R14, R16). -/
def Context.wrP (c : Context) (e : Engine) (n : Nat) (v : BitVec 128) : Context :=
  c.wrPhys (predPhys (c.rbase e) n) v

/-- Write RBASE (R16); a handler's value stands for every engine (R319). -/
def Context.wrRbase (c : Context) (n : Nat) : Context := { c with r := { c.r with rbase := n } }.purgeH .rbase

/-- FCAUSE (Table 84). -/
def fcauseWord (e : Engine) (t : Trap) : Word :=
  BitVec.ofNat 64 (t.code.num + (t.eng.getD e.code) * 2 ^ 8 + (if t.card then 2 ^ 11 else 0) +
    t.arg % 2 ^ 16 * 2 ^ 16 + t.chain % 16 * 2 ^ 32 + t.circ % 256 * 2 ^ 40 + 2 ^ 63)

/-- FNESTV and FNESTM (Table 84). -/
def nestWord : Option NestPos → Word
  | none => 0
  | some p => BitVec.ofNat 64 (p.i0 + p.i1 * 2 ^ 14 + p.i2 * 2 ^ 28 + p.i3 * 2 ^ 42 + 2 ^ 56)

/-- The six resume points as code address words (R318). -/
def fpcWords (p : SixPos) : Store Word :=
  let w (q : EnginePos) := BitVec.ofNat 64 q.word
  putD (putD (putD (putD (putD (putD [] 0 (w p.ctl) 0) 1 (w p.vec) 0) 2 (w p.mat) 0) 3 (w p.spe) 0)
    4 (w p.mem) 0) 5 (w p.syn) 0

/-- A context halts with DEBUG (R318, R336, R337): outside handler mode the fault registers are written, with ACTIVE 0 and
each FPC at the place where its engine stops; the halt is a pre-emption, which reports the code. In handler mode the
registers keep what the handler returns by. DEDUCED (log 43). -/
def Context.debugHalt (c : Context) (e : Engine) (arg slot : Nat) : Context :=
  let flt : FaultRegs :=
    if c.handler then c.flt
    else
      { fcause := fcauseWord e { code := .debug, arg := arg } &&& BitVec.ofNat 64 (2 ^ 63 - 1)
        fslot := BitVec.ofNat 64 slot
        fpc := fpcWords c.pos
        fnestv := nestWord c.nestV
        fnestm := nestWord c.nestM }
  { c with flt := flt, halted := true, stepping := false, preempting := true, haltCode := some arg }

/-- ARG of a DEBUG halt after a step (R337, Table 85). -/
def stepArg : Nat := 0xFFFF

/-- A debugger's step has been made by engine `e` at a slot (R337): the context halts. -/
def Context.stepped (c : Context) (e : Engine) (slot : Nat) : Context :=
  if c.stepping && (c.handler || c.pos.together) then c.debugHalt e stepArg slot else c

/-- An IDLE ends: the context goes on at PC.next (R112). -/
def Context.endIdle (c : Context) : Context :=
  if c.idle then ({ c.advance .ctl with idle := false }.stepped .ctl (c.posOf .ctl).word) else c

/-- An event ends an IDLE (R112): what the context awaited has changed, so that an ordinary count of the watchdog starts again (R334);
only an IDLE that its time limit ends counts on. -/
def Context.wake (c : Context) : Context :=
  if c.idle && !c.bind.pers then { c.endIdle with wdog := 0 } else c.endIdle

/-- Fill an exchange register (R17); it wakes IDLE (R112). -/
def Context.fill (c : Context) (n : Nat) (v : Word) : Context :=
  { c with r := { c.r with ex := putD c.r.ex n v 0, exFull := c.r.exFull ||| (1#8 <<< n) } }.wake

/-- Whether an exchange register is full (R17). -/
def Context.isFull (c : Context) (n : Nat) : Bool := c.r.exFull.getLsbD n

/-- Set sticky flags (R46). -/
def Context.addFlags (c : Context) (f : Flags) : Context :=
  { c with r := { c.r with flags := c.r.flags ||| f } }

/-! Window lines (R15, R22). -/

/-- A line number inside the window (R22). -/
def Context.lineOk (c : Context) (n : Nat) : Bool := n < 64 * c.bind.window

def Context.rdL (c : Context) (n : Nat) : Line := lookD c.lines n 0

/-- Write a line; the save area's copy of its plate is no copy any more (R330), and a line written whole is correct again
(R324, R325). -/
def Context.wrL (c : Context) (n : Nat) (l : Line) : Context :=
  { c with
    lines := putD c.lines n l 0
    clean := c.clean.filter fun u => u != .plate (n / 64)
    own := c.own.filter fun u => u != .line n }

/-- What something outside the context's engines has written of its window lines comes after what the engines wrote before, for
all of them (R269, R271, R301): `t` is the context after the write. -/
def Context.outside (c : Context) (ns : List Nat) (t : Context) : Context :=
  { t with mixes := t.mixes ++ (ns.eraseDups.filter fun n => c.mixes.any (·.line == n)).map fun n =>
      ({ line := n, old := c.rdL n, new := t.rdL n, eng := none, idx := 0, stamp := c.stamp, settled := true } : Mix) }

/-- PROT unless the line lies in the window (R22). -/
def Context.needLine (c : Context) (n : Nat) : Res Unit := check (c.lineOk n) .prot n

/-! The machine's parts. -/

/-- The die of a bind position (R219). -/
def dieOf (pos : Nat) : Nat := pos / 128

/-- The core of a bind position, over the package. -/
def coreOf (pos : Nat) : Nat := pos / 4

def State.ctx? (s : State) (pos : Nat) : Option Context := find? s.ctxs pos

def State.setCtx (s : State) (pos : Nat) (c : Context) : State := { s with ctxs := put s.ctxs pos c }

def State.launch? (s : State) (lid : Nat) : Option Launch := find? s.launches lid

def State.setLaunch (s : State) (lid : Nat) (l : Launch) : State :=
  { s with launches := put s.launches lid l }

def State.core (s : State) (k : Nat) : Core := lookD s.cores k {}

def State.setCore (s : State) (k : Nat) (c : Core) : State := { s with cores := putD s.cores k c {} }

def State.die (s : State) (d : Nat) : Die := lookD s.dies d {}

def State.setDie (s : State) (d : Nat) (x : Die) : State := { s with dies := putD s.dies d x {} }

def State.circuit (s : State) (c : Nat) : Circuit := lookD s.circuits c {}

def State.setCircuit (s : State) (c : Nat) (x : Circuit) : State :=
  { s with circuits := putD s.circuits c x {} }

def State.report (s : State) (r : Report) : State := { s with m := { s.m with reports := s.m.reports ++ [r] } }

/-! Handles and releases (R198, R199, R207). -/

/-- The key of a die's instance of a shared handle (R217). -/
def shKey (lid die h : Nat) : Nat := (lid * 16 + die) * 32 + h

/-- The full bits and the pending marks of a handle, wherever they are held (R196, R217). -/
structure HBits where
  full : BitVec 64
  fillPend : BitVec 64
  clearPend : BitVec 64
deriving DecidableEq, Repr

def hBits (s : State) (c : Context) (pos h : Nat) (d : Handle) : HBits :=
  if d.shared then
    let i := lookD s.shInsts (shKey c.bind.lid (dieOf pos) h) {}
    ⟨i.full, i.fillPend, i.clearPend⟩
  else ⟨d.full, d.fillPend, d.clearPend⟩

/-- Whether a task's context holds a die's instance of a shared handle (R217). -/
def Context.shares (c : Context) (pos lid die h : Nat) : Bool :=
  c.bind.lid == lid && dieOf pos == die && (c.handle? h).any (·.shared)

/-- A change of a shared handle's bits wakes the idle contexts of its launch on the die that hold the handle, those of
pre-empted tasks too (R112). -/
def wakeDie (s : State) (lid die h : Nat) : State :=
  { s with
    ctxs := s.ctxs.map fun e => if e.2.shares e.1 lid die h then (e.1, e.2.wake) else e
    saved := s.saved.map fun e => if e.2.ctx.shares e.2.pos lid die h then (e.1, { e.2 with ctx := e.2.ctx.wake }) else e }

/-- Write a handle's bits where they are held; a change of a full/empty bit, and not of a pending mark, wakes IDLE
(R112). -/
def setHBits (s : State) (c : Context) (pos h : Nat) (d : Handle) (b : HBits) : State × Context :=
  if d.shared then
    let k := shKey c.bind.lid (dieOf pos) h
    let i := lookD s.shInsts k {}
    let s1 := { s with
      shInsts := put s.shInsts k
        { i with
          full := b.full, fillPend := b.fillPend, clearPend := b.clearPend
          headClaim := i.headClaim &&& b.full, tailClaim := i.tailClaim &&& ~~~b.full } }
    if i.full = b.full then (s1, c) else (wakeDie s1 c.bind.lid (dieOf pos) h, c.wake)
  else
    let c1 := { c with
      handles := put c.handles h { d with full := b.full, fillPend := b.fillPend, clearPend := b.clearPend } }
    (s, if d.full = b.full then c1 else c1.wake)

/-- The mask of `n` slots from `first`, modulo the slot count (R198). -/
def slotMask (count first : Nat) : Nat → BitVec 64
  | 0 => 0
  | n + 1 => (1#64 <<< (first % count)) ||| slotMask count (first + 1) n

/-- Let a recorded release take effect (R198, R199). -/
def applyRelease (pos : Nat) (sc : State × Context) (r : Release) : State × Context :=
  let (s, c) := sc
  match r with
  | .fill h n first =>
    match c.handle? h with
    | none => (s, c)
    | some d =>
      let b := hBits s c pos h d
      let k := slotMask d.count first n
      setHBits s c pos h d { b with full := b.full ||| k, fillPend := b.fillPend &&& ~~~k }
  | .drain h n first =>
    match c.handle? h with
    | none => (s, c)
    | some d =>
      let b := hBits s c pos h d
      let k := slotMask d.count first n
      setHBits s c pos h d { b with full := b.full &&& ~~~k, clearPend := b.clearPend &&& ~~~k }
  | .token snd rcv n =>
    let k := snd.code * 8 + rcv.code
    (s, { c with tokens := putD c.tokens k (lookD c.tokens k 0 + n) 0,
                 tokPend := putD c.tokPend k (lookD c.tokPend k 0 - n) 0 })

/-- Let every recorded release take effect, in order (R207, R316). -/
def applyReleases (pos : Nat) (s : State) (c : Context) : State × Context :=
  let (s', c') := c.releases.foldl (fun sc r => applyRelease pos sc r.rel) (s, c)
  (s', { c' with releases := [] })

/-! Requests on their way (R272, R278). -/

/-- Whether an asker is an instruction of a task that a test of its place in program order accepts. -/
def Asker.of (lid wid : Nat) (p : Nat → Bool) : Asker → Bool
  | .ctx l w _ _ _ _ i => l == lid && w == wid && p i
  | _ => false

/-- Requests of a task still on their way, at the places in program order that a test accepts (R272, R278). -/
def requestsWhere (s : State) (lid wid : Nat) (p : Nat → Bool) : Bool :=
  s.reqs.any (fun e => e.2.asker.of lid wid p) ||
  s.parts.any (fun e => e.2.p.asker.of lid wid p || e.2.q.asker.of lid wid p)

/-- Requests of the task still on their way (R272, R278). -/
def requestsOut (s : State) (lid wid : Nat) : Bool := requestsWhere s lid wid fun _ => true

/-! Taking a fault (R316 to R321) and returning (R320). -/

/-- The fault registers of a fault raised by engine `e` (Table 84). -/
def faultRegs (c : Context) (e : Engine) (t : Trap) (resume : SixPos) : FaultRegs :=
  { fcause := fcauseWord e t
    faddr := BitVec.ofNat 64 t.addr
    fslot := BitVec.ofNat 64 (t.slot.getD (c.posOf e).word)
    fseq := BitVec.ofNat 64 t.seq
    fpc := fpcWords resume
    fnestv := nestWord c.nestV
    fnestm := nestWord c.nestM }

/-- Nothing that SPE writes is still under way, and its group ends (R182, R316). -/
def Context.settleSpe (c : Context) : Context := { c with yBusy := [], spGroup := 0, spGroupW := [] }

/-- A context none of whose engines issues: it halts, stops, is being pre-empted, ends, or is IDLE. -/
def Context.still (c : Context) : Bool := c.halted || c.preempting || c.pendingFault.isSome || c.ending || c.idle

/-- A context where its engines resume after a fault of engine `e` (R318): at the faulting slot, and after a TRAP past it (R111). -/
def Context.resumeAt (c : Context) (e : Engine) (t : Trap) : Context := if t.resumeNext then c.advance e else c

/-- Enter handler mode (R318, R319). Every engine stops where it stands, the recorded releases take effect, and no
line write is in flight any more (R193, R316). -/
def enterHandler (s : State) (pos : Nat) (c : Context) (e : Engine) (t : Trap) : State :=
  let (s2, c2) := applyReleases pos s
    { (c.resumeAt e t).settleSpe with
      flt := faultRegs c e t (c.resumeAt e t).pos
      sFlt := true
      handler := true
      hpos := { addr := codeAddr c.bind.traph, slot := codeSlot c.bind.traph }
      flight := []
      late := []
      mixes := []
      nestV := none
      nestM := none
      idle := false
      cwaiting := none
      pendingFault := none }
  s2.setCtx pos c2

/-- Whether a debugger is attached to the context's launch (R336). -/
def State.debugged (s : State) (c : Context) : Bool :=
  match s.launch? c.bind.lid with
  | some l => l.debugger
  | none => false

/-- Deliver a fault whose stop is complete (R318, R319, R321, R335, R336). The state is the one before the instruction
(R29). A halt for a debugger is a pre-emption (R336). A task that the firmware ends, because TRAPH is 0, has its fault
registers and STATUS.FLT written, with ACTIVE 0, and halts first (R318). -/
def deliverTrap (s : State) (pos : Nat) (c : Context) (e : Engine) (t : Trap) : State :=
  let c1 := c.resumeAt e t
  if c.handler then
    (s.setCtx pos { c1 with halted := s.debugged c, preempting := s.debugged c, ending := !s.debugged c }).report
      (.systemFault c.bind.lid c.bind.wid t)
  else if c.bind.traph = 0 then
    if t.code = .wdog then s.setCtx pos c
    else s.setCtx pos { c1 with
      flt := { faultRegs c e t c1.pos with fcause := fcauseWord e t &&& BitVec.ofNat 64 (2 ^ 63 - 1) }
      sFlt := true
      halted := s.debugged c
      preempting := s.debugged c
      ending := true }
  else enterHandler s pos c e t

/-- The engine of a fault, by its code; CTL for END and the watchdog (Table 84). -/
def Trap.engine (t : Trap) (e : Engine) : Engine :=
  match t.eng with
  | none => e
  | some k => (Engine.ofCode k).getD .ctl

/-- A fault with what it names fixed where it was raised. -/
def Trap.pin (t : Trap) (c : Context) (e : Engine) : Trap :=
  { t with eng := some (t.eng.getD e.code), slot := some (t.slot.getD (c.posOf e).word) }

/-- Of two faults raised while the engines stop, the one whose instruction comes first in program order (R317). -/
def weigh (c : Context) (t : Trap) : Trap :=
  match c.pendingFault with
  | none => t
  | some u => if (c.pos.get (t.engine .ctl)).idx < (c.pos.get (u.engine .ctl)).idx then t else u

/-- An uncorrectable error that has met its consumer schedules an assay (R324, R326). -/
def State.noteFound (s : State) (t : Trap) : State :=
  match t.found with
  | some r => s.report (.assayDue r)
  | none => s

/-- Deliver a fault of the context at `pos` raised by engine `e` (R316 to R319). DEBUG goes to the debugger alone. While
requests that the context has issued are on their way, the stop is not complete: the fault is kept, and the context
issues nothing (R316, R317). -/
def takeTrap (s0 : State) (pos : Nat) (c : Context) (e : Engine) (t : Trap) : State :=
  let s := s0.noteFound t
  if t.code = .debug then
    s.setCtx pos ((c.resumeAt e t).debugHalt e t.arg (c.posOf e).word)
  else if requestsOut s c.bind.lid c.bind.wid && !c.handler then
    s.setCtx pos { c with pendingFault := some (weigh c (t.pin c e)) }
  else deliverTrap s pos c e t

/-- What a meaning's stop does to the machine. -/
def stopWith (s : State) (pos : Nat) (c : Context) (e : Engine) : Stop → State
  | .trap t => takeTrap s pos c e t
  | .wait => s

/-- Run a meaning that touches its context alone. -/
def runC (s : State) (f : Engine → Context → Res Context) : HO :=
  match s.ctx? s.cur with
  | none => .fault .noContext
  | some c =>
    match f s.eng c with
    | .ok c' => .next (s.setCtx s.cur c')
    | .error st => .next (stopWith s s.cur c s.eng st)

/-- Run a meaning that touches the machine. -/
def runS (s : State) (f : Engine → Context → Res State) : HO :=
  match s.ctx? s.cur with
  | none => .fault .noContext
  | some c =>
    match f s.eng c with
    | .ok s' => .next s'
    | .error st => .next (stopWith s s.cur c s.eng st)

/-- An engine's place after TRET (R320): FPCn, which is where it stopped, or the place that a handler wrote to all six FPC. -/
def resumePos (f : FaultRegs) (top : Nat) (e : Engine) (p : EnginePos) : EnginePos :=
  let w := (lookD f.fpc e.code 0).toNat
  if f.redirected then { p with addr := codeAddr w, slot := codeSlot w, idx := top } else p

/-- The greatest number of slots passed. -/
def SixPos.maxIdx (p : SixPos) : Nat :=
  max (max (max p.ctl.idx p.vec.idx) (max p.mat.idx p.spe.idx)) (max p.mem.idx p.syn.idx)

/-- A write of an FPC: all six take the value, V is cleared in FNESTV and FNESTM, and the whole context is redirected
(R318). -/
def FaultRegs.redirect (f : FaultRegs) (v : Word) : FaultRegs :=
  { f with
    fpc := [0, 1, 2, 3, 4, 5].foldl (fun m k => putD m k v 0) f.fpc
    fnestv := f.fnestv &&& ~~~(1#64 <<< 56)
    fnestm := f.fnestm &&& ~~~(1#64 <<< 56)
    redirected := true }

/-- A nest position register after a handler's writes (R318, R320): valid only with V set. -/
def nestOfWord (w : Word) : Option NestPos :=
  let n := w.toNat
  if n / 2 ^ 56 % 2 = 1 then some ⟨n % 2 ^ 14, n / 2 ^ 14 % 2 ^ 14, n / 2 ^ 28 % 2 ^ 14, n / 2 ^ 42 % 2 ^ 14⟩
  else none

/-- The engines' places after TRET (R320). -/
def resumePoints (c : Context) : SixPos :=
  let top := c.pos.maxIdx
  let f := c.flt
  ⟨resumePos f top .ctl c.pos.ctl, resumePos f top .vec c.pos.vec, resumePos f top .mat c.pos.mat,
    resumePos f top .spe c.pos.spe, resumePos f top .mem c.pos.mem, resumePos f top .syn c.pos.syn⟩

/-- Return from handler mode (R320). `leads e` tells that engine e's resume point names a nest record that e leads: only
there does V = 1 restore a nest's position. The go bit stays as it is, also where FPC passes the MGO of a nest that has not started:
R160 clears it at that nest's start alone, a DESIGN CHOICE (log 68). -/
def leaveHandler (leads : Engine → Bool) (c : Context) : Context :=
  let f := c.flt
  { c with
    handler := false
    flt := { f with fcause := f.fcause &&& BitVec.ofNat 64 (2 ^ 63 - 1), redirected := false }
    pos := resumePoints c
    nestV := if leads .vec then nestOfWord f.fnestv else none
    nestM := if leads .mem then nestOfWord f.fnestm else none
    mat := { c.mat with loose := c.mat.loose || (f.redirected && c.mat.running) }
    sendV := c.sendV && !f.redirected
    sendM := c.sendM && !f.redirected
    barWait := if f.redirected then none else c.barWait
    log := if f.redirected then [] else c.log
    owed := if f.redirected then [] else c.owed }

/-! Physical addresses, homes and translation (R232, R233, R240 to R243). -/

/-- The home die of a physical address (R233). -/
def homeDie (interleaved : Bool) (pa : Nat) : Nat :=
  let d := pa / 2 ^ 40 % 16
  if pa / 2 ^ 44 % 16 = 0 && interleaved then (d + pa / 2 ^ 12 % 16) % 16 else d

/-- The canonical location of a physical byte: the same for both names of an HBM byte (R233). -/
def locOf (interleaved : Bool) (pa : Nat) : Nat :=
  pa / 2 ^ 44 % 16 * 2 ^ 44 + homeDie interleaved pa * 2 ^ 40 + pa % 2 ^ 36

/-- The home slice of a physical address (R233). -/
def sliceOf (pa : Nat) : Nat :=
  (pa / 2 ^ 9 % 32) ^^^ (pa / 2 ^ 14 % 32) ^^^ (pa / 2 ^ 19 % 32) ^^^ (pa / 2 ^ 24 % 32) ^^^ (pa / 2 ^ 29 % 32) ^^^
    (pa / 2 ^ 34 % 4)

/-- A physical address that exists (R232). -/
def paOk (pa : Nat) : Bool :=
  pa / 2 ^ 36 % 16 == 0 && pa < 2 ^ 48 &&
    (pa / 2 ^ 44 == 0 || (pa / 2 ^ 44 == 1 && pa % 2 ^ 36 < 2 ^ 29))

/-- Bits `lo + n - 1` to `lo`. -/
def bitsOf (w lo n : Nat) : Nat := w / 2 ^ lo % 2 ^ n

/-- The page a leaf maps at a level, in bits (R240). -/
def levelBits : Nat → Nat
  | 2 => 30 | 3 => 21 | _ => 16

/-- Index bits of a level (R240): low bit and count. -/
def levelIndex : Nat → Nat × Nat
  | 1 => (43, 13) | 2 => (30, 13) | 3 => (21, 9) | _ => (16, 5)

/-- A well-formed entry at a level (R241). -/
def pteOk (level w : Nat) : Bool :=
  bitsOf w 0 1 == 1 && bitsOf w 48 16 == 0 &&
    if bitsOf w 1 1 == 1 then
      level != 1 && bitsOf w 5 2 != 3 && bitsOf w 7 2 != 3 && bitsOf w 12 4 == 0 &&
        (bitsOf w 16 32 * 2 ^ 16) % 2 ^ levelBits level == 0 &&
        paOk (bitsOf w 16 32 * 2 ^ 16) && paOk (bitsOf w 16 32 * 2 ^ 16 + 2 ^ levelBits level - 1)
    else
      level != 4 && bitsOf w 2 6 == 0 &&
        (bitsOf w 8 40 * 256) % (if level == 1 then 2 ^ 16 else if level == 2 then 4096 else 256) == 0 &&
        paOk (bitsOf w 8 40 * 256)

def Trans.home (t : Trans) : Nat := homeDie (bitsOf t.pte 11 1 == 1) t.pa
def Trans.loc (t : Trans) : Nat := locOf (bitsOf t.pte 11 1 == 1) t.pa
def Trans.ws (t : Trans) : Bool := t.pa / 2 ^ 44 == 1
def Trans.canR (t : Trans) : Bool := bitsOf t.pte 2 1 == 1
def Trans.canW (t : Trans) : Bool := bitsOf t.pte 3 1 == 1
def Trans.canX (t : Trans) : Bool := bitsOf t.pte 4 1 == 1
def Trans.cmp (t : Trans) : Bool := bitsOf t.pte 9 1 == 1
def Trans.grd (t : Trans) : Bool := bitsOf t.pte 10 1 == 1

/-- A strongly ordered page (R241, R266). -/
def Trans.so (t : Trans) : Bool := bitsOf t.pte 5 2 == 0

/-- Who accesses memory: its die and core, its launch and the root of its page tables. -/
structure Who where
  die : Nat
  core : Nat
  lid : Nat
  root : Nat
deriving DecidableEq, Repr

def Context.who (c : Context) (pos : Nat) : Who := ⟨dieOf pos, coreOf pos, c.bind.lid, c.bind.root⟩

/-- PAIR of a launch's circuit program (R348); 255 is none. -/
def pairOf (s : State) (lid src home : Nat) : Nat :=
  match s.launch? lid with
  | some l =>
    match l.prog with
    | some p => (p.pair.toNat >>> (8 * (16 * src + home))) % 256
    | none => 255
  | none => 255

/-- The number that stands for the system die where a die is named: the firmware reads the launch's tables from
there over the control path and needs no circuit (log 19). -/
def systemDie : Nat := 16

/-- A (die, port) as one number. -/
def portKey (die port : Nat) : Nat := die * 8 + port

/-- The relays of an EST: die, in port, out port (Table 94). -/
def relaysOf (o : EstOp) : List (Nat × Nat × Nat) :=
  [(o.r0d.toNat, o.r0i.toNat, o.r0o.toNat), (o.r1d.toNat, o.r1i.toNat, o.r1o.toNat)].take o.nr.toNat

/-- The ports a circuit ends or relays at; an external circuit's other end is a link (R342, R391). -/
def portsOf (o : EstOp) : List Nat :=
  portKey o.da.toNat o.pa.toNat :: ((if o.x then [] else [portKey o.db.toNat o.pb.toNat]) ++
    (relaysOf o).flatMap fun r => [portKey r.1 r.2.1, portKey r.1 r.2.2])

/-- The link of an external circuit (R391). -/
def linkOf (o : EstOp) : Nat := 2 * o.db.toNat + o.pb.toNat
/-- Its position on the link (R391). -/
def linkPosOf (o : EstOp) : Nat := 2 * linkOf o + (if o.lpos then 1 else 0)

/-- Whether the link of an external circuit is UP; other circuits have none (R391, R392). -/
def linkUp (s : State) (o : EstOp) : Bool := !o.x || (lookD s.links (linkOf o) {}).up

/-- TRAIN of a link: a wavelength of it is retraining or being steered (Table 116). -/
def Link.trains (l : Link) : Bool := l.moving || !l.away.isEmpty

/-- The ports of a circuit as a GAP names them: link L counts as port 6 + (L mod 2) of die L / 2 (R390). -/
def gapPorts (o : EstOp) : List Nat :=
  portsOf o ++ (if o.x then [portKey (linkOf o / 2) (6 + linkOf o % 2)] else [])

/-- Whether a program's GAP names a port (R355). -/
def inGap (p : CProg) (die port : Nat) : Bool :=
  p.gaps.any fun g => g.dmask.getLsbD die && g.ports.getLsbD port

/-- Whether a GAP in force names a port of a circuit: no traffic passes it (R351, R355). -/
def silent (s : State) (k : Circuit) : Bool :=
  match k.est with
  | none => false
  | some o => (gapPorts o).any fun x => s.launches.any fun e => e.2.prog.any fun p => inGap p (x / 8) (x % 8)

/-- Whether a circuit carries what is under way on it (R345, R351, R352, R401, R402): it is LIVE or drains, no GAP names a port
of it, and its link is UP. -/
def carries (s : State) (c : Nat) : Bool :=
  let k := s.circuit c
  (k.state == .live || k.state == .draining) && !k.cut && !silent s k && k.est.all (linkUp s)

/-- Whether accesses from one die reach a home die: its own, or over a live circuit (R233, R345, R348). -/
def reaches (s : State) (lid src home : Nat) : Bool :=
  src == home || src == systemDie ||
    (let h := pairOf s lid src home
     h != 255 && (s.circuit h).lid == lid && (s.circuit h).state == .live)

/-- Whether a walk from one die reads a table homed on another (R242): over the circuit that PAIR names for the pair, which must be
live; where PAIR names none, over the control path, as the firmware does. R242 states no result there, and R388's programs walk
so: a DESIGN CHOICE (log 19). -/
def tableReaches (s : State) (lid src home : Nat) : Bool := pairOf s lid src home == 255 || reaches s lid src home

/-- Whether a GAP silences the circuit over which accesses from one die reach a home die: they wait (R355). -/
def silenced (s : State) (lid src home : Nat) : Bool :=
  src != home && src != systemDie && silent s (s.circuit (pairOf s lid src home))

/-- Sectors found uncorrectable, by location / 64 (R325). -/
def isBad (s : State) (loc : Nat) : Bool := (find? s.bad (loc / 64)).isSome

/-- The HBM channel of a location within its die (R239). -/
def chanOf (loc : Nat) : Nat := (loc / 2 ^ 9 % 32) ^^^ (loc / 2 ^ 18 % 32)

/-- The place of a router (R244): 0 to 31 the core routers, 32 to 35 the port routers. -/
def routerXY (n : Nat) : Nat × Nat :=
  if n < 4 then (n + 1, 0)
  else if n < 28 then ((n - 4) % 6, 1 + (n - 4) / 6)
  else if n < 32 then (n - 27, 5)
  else ((n - 32) % 2 * 5, (n - 32) / 2 * 5)

/-- The distance between two places (R244). -/
def gridDist (a b : Nat × Nat) : Nat := (a.1 - b.1) + (b.1 - a.1) + ((a.2 - b.2) + (b.2 - a.2))

/-- The set of a location within its home slice: PA[17:9] xor PA[26:18], the same under both of its names (R233). -/
def cacheSetOf (loc : Nat) : Nat := (loc / 2 ^ 9 % 512) ^^^ (loc / 2 ^ 18 % 512)

/-- The bank group of a weight-store location: PA[15:12] (R238). -/
def bankGroupOf (loc : Nat) : Nat := loc / 2 ^ 12 % 16

/-- The row in which the error of a location lies, as Table 87 indexes it (R325, R326): of the weight store, by its bank group
and row; of the die cache, by its slice, its set and the way that is locked; of the HBM, by its channel and row. Which row of its
memory a location lies in is free (log 52). -/
def memRow (s : State) (loc : Nat) : Resource :=
  let die := BitVec.ofNat 4 (loc / 2 ^ 40)
  let row := Config.memoryRow loc % 2 ^ 16
  if loc / 2 ^ 44 != 0 then { kind := 0x11, die := die, index := BitVec.ofNat 32 (bankGroupOf loc + row * 2 ^ 4) }
  else
    match find? s.bad (loc / 64) with
    | some (some way) =>
      { kind := 0x10, die := die, index := BitVec.ofNat 32 (sliceOf loc + cacheSetOf loc * 2 ^ 5 + way % 16 * 2 ^ 14) }
    | _ => { kind := 0x12, die := die, index := BitVec.ofNat 32 (chanOf loc + row * 2 ^ 5) }

/-- The core of a bind position, as a resource (R326, Table 87). -/
def coreRes (pos : Nat) : Resource :=
  { kind := 1, die := BitVec.ofNat 4 (dieOf pos), index := BitVec.ofNat 32 (pos % 128 / 4) }

/-- ECCU with the resource in which the error lies (R324, R326). -/
def raiseEcc {α : Type} (addr : Nat) (r : Resource) : Res α := .error (.trap { code := .eccu, addr := addr, found := some r })

/-- NOCIRC, with the circuit that PAIR names and a FADDR of 0 (Tables 84 and 85). -/
def nocirc {α : Type} (s : State) (lid src home : Nat) : Res α :=
  let h := pairOf s lid src home
  .error (.trap { code := .nocirc, circ := if h = 255 then 0 else h, nopair := h == 255 })

/-- Readiness of the HBM channel and the home slice of a location (R239, R407); the weight store has neither. -/
def chanReady (s : State) (loc : Nat) : Bool :=
  loc / 2 ^ 44 != 0 ||
    s.m.ready.getLsbD (1216 + 32 * (loc / 2 ^ 40 % 16) + chanOf loc) &&
      s.m.ready.getLsbD (704 + 32 * (loc / 2 ^ 40 % 16) + sliceOf loc)

/-- A translation that the core caches (R242). -/
def cached? (s : State) (w : Who) (va : Nat) : Option TlbEntry :=
  (s.core w.core).tlb.find? fun t => t.root == w.root && t.va ≤ va && va < t.va + t.size

/-- One level of the walk and those below it (R240 to R242): tables are read as die-local. -/
def walkFrom (s : State) (w : Who) (va : Nat) : Nat → Nat → Nat → Res Trans
  | 0, _, _ => raise .page va
  | fuel + 1, level, table =>
    let (lo, n) := levelIndex level
    let a := table + 8 * bitsOf va lo n
    let loc := locOf false a
    if tableReaches s w.lid w.die (homeDie false a) then
      if !chanReady s loc || silenced s w.lid w.die (homeDie false a) then hold
      else if isBad s loc then raiseEcc va (memRow s loc)
      else
        let pte := s.mem.readN loc 8
        if pteOk level pte then
          if bitsOf pte 1 1 = 1 then
            let k := levelBits level
            .ok ⟨va, pte, 2 ^ k, bitsOf pte 16 32 * 2 ^ 16 + va % 2 ^ k⟩
          else walkFrom s w va fuel (level + 1) (bitsOf pte 8 40 * 256)
        else raise .page va
    else nocirc s w.lid w.die (homeDie false a)

/-- The walk from PTROOT (R240). -/
def walk (s : State) (w : Who) (va : Nat) : Res Trans :=
  if paOk w.root then walkFrom s w va 4 1 w.root else raise .page va

/-- The walk of an access whose page no access of the core has walked for. R242 does not say when a translation enters a cache, so
that whether the core holds this one already, and asks nothing of a circuit that is not live, is free (log 19). -/
def firstWalk (s : State) (w : Who) (va : Nat) : Res Trans :=
  match walk s w va with
  | .error (.trap x) =>
    if x.code = .nocirc ∧ Config.heldTranslation s.freeCtr va = true then walk s { w with die := systemDie } va
    else .error (.trap x)
  | r => r

/-- Translate a virtual address (R240, R242). A translation that the core caches needs no walk, and no circuit to the tables.
Where the tables have changed without a shootdown, the spec leaves open which translation is taken. -/
def translate (s : State) (w : Who) (va : Nat) : Res Trans :=
  match cached? s w va with
  | none => firstWalk s w va
  | some t =>
    let old : Trans := ⟨va, t.pte.toNat, t.size, bitsOf t.pte.toNat 16 32 * 2 ^ 16 + va % t.size⟩
    match walk s w va with
    | .ok new => if new = old ∨ Config.staleTranslation s.freeCtr va = true then .ok old else .ok new
    | .error (.trap x) => if x.code = .page ∧ Config.staleTranslation s.freeCtr va = false then .error (.trap x) else .ok old
    | .error .wait => .ok old

/-- Keep a translation in the core's cache of 512 (R242). The one made first leaves when it is full: a DESIGN CHOICE, since
the spec does not say which (log 19). -/
def noteTrans (core : Nat) (root : Nat) (s : State) (t : Trans) : State :=
  let k := s.core core
  let e : TlbEntry := ⟨root, t.va / t.size * t.size, t.size, BitVec.ofNat 64 t.pte⟩
  if k.tlb.contains e then s else s.setCore core { k with tlb := (e :: k.tlb).take 512 }

/-- Kinds of access (R243). -/
inductive AccKind where
  | read | write | both | fetch
deriving DecidableEq, Repr

/-- Permission for a kind of access. -/
def Trans.permits (t : Trans) : AccKind → Bool
  | .read => t.canR | .write => t.canW | .both => t.canR && t.canW | .fetch => t.canX

/-- AccessCheck's page parts (R243), in ascending order: translation, then permission, then the target test `ok`,
then the home die's circuit (R233). Pages are at least 64 KiB, so `fuel` parts cover any access of fuel − 1 pages. -/
def accessParts (s : State) (w : Who) (kind : AccKind) (ok : Trans → Bool) : Nat → Nat → Nat → Res (List Part)
  | 0, _, _ => .ok []
  | fuel + 1, va, len =>
    if len = 0 then .ok []
    else do
      let a := va % 2 ^ 56
      let t ← translate s w a
      check (t.permits kind) .prot a
      check (ok t) .prot a
      let n := min len (t.size - a % t.size)
      let rest ← accessParts s w kind ok fuel (a + n) (len - n)
      .ok (⟨t, n⟩ :: rest)

/-- The home dies of a part, each with the address it begins at: an interleaved page changes home at each 4 KiB block
(R233). -/
def partHomes (p : Part) : List (Nat × Nat) :=
  if bitsOf p.t.pte 11 1 == 1 then
    let first := 4096 - p.t.pa % 4096
    (p.t.va, p.t.home) :: ((List.range ((p.len - first + 4095) / 4096)).map fun k =>
      (p.t.va + first + 4096 * k, homeDie true (p.t.pa + first + 4096 * k)))
  else [(p.t.va, p.t.home)]

/-- The circuit to each home, in ascending order of address. -/
def homesReach (s : State) (w : Who) : List (Nat × Nat) → Res Unit
  | [] => .ok ()
  | h :: r =>
    if reaches s w.lid w.die h.2 then do
      await (!silenced s w.lid w.die h.2)
      homesReach s w r
    else nocirc s w.lid w.die h.2

/-- The circuit of every part, after AccessCheck (R233). -/
def partsReach (s : State) (w : Who) (ps : List Part) : Res Unit := homesReach s w (ps.flatMap partHomes)

/-- The location of byte `i` of the access: within one page the location follows the address, except that an
interleaved page changes home die at each 4 KiB block (R233). -/
def Trans.locAt (t : Trans) (i : Nat) : Nat := locOf (bitsOf t.pte 11 1 == 1) (t.pa + i)

/-- Every HBM channel is in service. -/
def allChannels (s : State) : Bool := s.m.ready.extractLsb' 704 1024 == BitVec.allOnes 1024

/-- Readiness of the channels of the 512-byte blocks of a part from byte `i` on. -/
def blocksReady (s : State) (p : Part) : Nat → Nat → Bool
  | 0, _ => true
  | fuel + 1, i =>
    if p.len ≤ i then true
    else chanReady s (p.t.locAt i) && blocksReady s p fuel (i + (512 - (p.t.pa + i) % 512))

/-- An address whose HBM channel is out of service waits (R328, R407). -/
def partsReady (s : State) (ps : List Part) : Bool :=
  allChannels s || ps.all fun p => p.t.ws || blocksReady s p (p.len / 512 + 2) 0

/-- AccessCheck for `len` bytes at `va`, with its alignment (R243). A fetched record needs no circuit: R388's
cores fetch without one (log 19). -/
def accessCheck (s : State) (w : Who) (kind : AccKind) (ok : Trans → Bool) (align va len : Nat) :
    Res (List Part) := do
  check (va % align == 0) .align (va % 2 ^ 56)
  let ps ← accessParts s w kind ok (len / 65536 + 2) va len
  if kind = .fetch then .ok () else partsReach s w ps
  await (partsReady s ps)
  .ok ps

/-- The translated pieces of a range of addresses, each inside one 4 KiB block, so that its locations are consecutive
(R233); a piece that does not translate is left out. `fuel` bounds the pieces. -/
def pieces (s : State) (w : Who) : Nat → Nat → Nat → List (Trans × Nat)
  | 0, _, _ => []
  | fuel + 1, va, len =>
    if len = 0 then []
    else
      let a := va % 2 ^ 56
      let n := min len (4096 - a % 4096)
      let rest := pieces s w fuel (a + n) (len - n)
      match translate s w a with
      | .ok t => (t, n) :: rest
      | .error _ => rest

/-- The pieces of a range. -/
def piecesOf (s : State) (w : Who) (r : Nat × Nat) : List (Trans × Nat) := pieces s w (r.2 / 4096 + 2) r.1 r.2

/-- Read the `n` bytes from byte `i` of a part, least significant first. -/
def readPart (m : Memory) (t : Trans) (i : Nat) : Nat → Nat
  | 0 => 0
  | n + 1 => (m.read (t.locAt i)).toNat + 256 * readPart m t (i + 1) n

/-- Read all parts as one number. -/
def readParts (m : Memory) : List Part → Nat
  | [] => 0
  | p :: r => readPart m p.t 0 p.len + readParts m r * 2 ^ (8 * p.len)

/-- Write the low `n` bytes of a number from byte `i` of a part. -/
def writePart (m : Memory) (t : Trans) (i : Nat) : Nat → Nat → Memory
  | 0, _ => m
  | n + 1, v => writePart (m.write (t.locAt i) (BitVec.ofNat 8 v)) t (i + 1) n (v / 256)

/-- Write all parts from one number. -/
def writeParts (m : Memory) : List Part → Nat → Memory
  | [], _ => m
  | p :: r, v => writeParts (writePart m p.t 0 p.len v) r (v / 2 ^ (8 * p.len))

/-- The lowest address of an access whose sector is uncorrectable, and its location (R325). -/
def badByte (s : State) (t : Trans) : Nat → Nat → Option (Nat × Nat)
  | _, 0 => none
  | i, n + 1 => if isBad s (t.locAt i) then some (t.va + i, t.locAt i) else badByte s t (i + 1) n

def badAddr (s : State) : List Part → Option (Nat × Nat)
  | [] => none
  | p :: r => match badByte s p.t 0 p.len with
    | some a => some a
    | none => badAddr s r

/-- The lowest address of a write that covers a bad sector in part only, and its location (R325). -/
def badPartial (s : State) (t : Trans) (len : Nat) : Nat → Nat → Option (Nat × Nat)
  | _, 0 => none
  | i, n + 1 =>
    let sec := (t.pa + i) / 64 * 64
    let whole := t.pa ≤ sec && sec + 64 ≤ t.pa + len
    if isBad s (t.locAt i) && !whole then some (t.va + i, t.locAt i) else badPartial s t len (i + 1) n

/-- ECCU for a write of less than a whole uncorrectable sector (R325). -/
def writeEcc (s : State) : List Part → Res Unit
  | [] => .ok ()
  | p :: r => match badPartial s p.t p.len 0 p.len with
    | some a => raiseEcc a.1 (memRow s a.2)
    | none => writeEcc s r

/-- ECCU for a read of an uncorrectable sector (R324). -/
def readEcc (s : State) (ps : List Part) : Res Unit :=
  if s.bad.isEmpty then .ok ()
  else match badAddr s ps with
    | some a => raiseEcc a.1 (memRow s a.2)
    | none => .ok ()

/-- A whole-sector write replaces what was uncorrectable (R325). -/
def clearBad (bad : Store (Option Nat)) (t : Trans) (len : Nat) : Nat → Nat → Store (Option Nat)
  | _, 0 => bad
  | i, n + 1 =>
    let sec := (t.pa + i) / 64 * 64
    let whole := t.pa ≤ sec && sec + 64 ≤ t.pa + len
    clearBad (if whole then del bad (t.locAt i / 64) else bad) t len (i + 1) n

/-- Perform a write whose checks are made. -/
def State.store (s : State) (ps : List Part) (v : Nat) : State :=
  { s with mem := writeParts s.mem ps v,
           bad := if s.bad.isEmpty then s.bad
                  else ps.foldl (fun b p => clearBad b p.t p.len 0 p.len) s.bad }

/-- Keep the translations of an access (R242). -/
def State.noteParts (s : State) (w : Who) (ps : List Part) : State :=
  ps.foldl (fun s p => noteTrans w.core w.root s p.t) s

/-- An ordinary data page: no weight-store page (R237). -/
def notWs (t : Trans) : Bool := !t.ws

end Sys2Proof.Machine
end

