-- ==== Sys2Proof/Machine/Access.lean ====
section
/-!
DEFINITION. Reading and writing memory with every check: AccessCheck, guard tags, uncorrectable sectors (spec/11 R243,
R249, R253; spec/13 R305, R311, R312; spec/14 R324, R325).
-/
namespace Sys2Proof.Machine

/-- One bit of Crc32c (R305). -/
def crcBit (c : Nat) : Nat := (c / 2) ^^^ (if c % 2 = 1 then 0x82F63B78 else 0)

/-- One byte of Crc32c (R305). -/
def crcByte (c b : Nat) : Nat :=
  crcBit (crcBit (crcBit (crcBit (crcBit (crcBit (crcBit (crcBit (c ^^^ b))))))))

/-- The running value of Crc32c over the low `n` bytes of a number, least significant first. -/
def crcNum (c : Nat) : Nat → Nat → Nat
  | 0, _ => c
  | n + 1, v => crcNum (crcByte c (v % 256)) n (v / 256)

/-- Crc32c (Castagnoli) of the low `n` bytes of a number (R305). -/
def crc32c (n v : Nat) : Nat := crcNum 0xFFFFFFFF n v ^^^ 0xFFFFFFFF

/-- The guard tag of a block (R311). -/
def tagOf (crc va ver : Nat) : Word :=
  BitVec.ofNat 64 (crc + va / 512 % 2 ^ 24 * 2 ^ 32 + ver % 256 * 2 ^ 56)

/-- The block that holds a part's byte `i`: its virtual address and its location. -/
def blockAt (t : Trans) (i : Nat) : Nat × Nat := ((t.va + i) / 512 * 512, t.locAt i / 512 * 512)

/-- Whether the stored tag matches a block read with version `ver`; 0 leaves the version unchecked (R312). -/
def tagMatches (s : State) (ver : Nat) (b : Nat × Nat) : Bool :=
  let t := (lookD s.tags (b.2 / 512) 0).toNat
  t % 2 ^ 56 == crc32c 512 (s.mem.readN b.2 512) + b.1 / 512 % 2 ^ 24 * 2 ^ 32 &&
    (ver == 0 || t / 2 ^ 56 == ver)

/-- The offsets in a part at which its blocks begin. -/
def blockStarts (t : Trans) (len : Nat) : List Nat :=
  let first := 512 - t.va % 512
  0 :: ((List.range (len / 512 + 1)).map (fun k => first + 512 * k)).filter (· < len)

/-- The lowest block of the guarded parts whose tag does not match (R253, R312). -/
def guardBad (s : State) (ver : Nat) : List Part → Option Nat
  | [] => none
  | p :: r =>
    if p.t.grd then
      match ((blockStarts p.t p.len).map (blockAt p.t)).find? (fun b => !tagMatches s ver b) with
      | some b => some b.1
      | none => guardBad s ver r
    else guardBad s ver r

/-- GUARD unless every guarded block read matches (R312). -/
def guardCheck (s : State) (ver : Nat) (ps : List Part) : Res Unit :=
  match guardBad s ver ps with
  | some a => raise .guard a
  | none => .ok ()

/-- Write the tags of the whole guarded blocks just written (R312). -/
def writeTags (s : State) (ver : Nat) (ps : List Part) : State :=
  ps.foldl (fun s p =>
    if p.t.grd then
      (blockStarts p.t p.len).foldl (fun s i =>
        let b := blockAt p.t i
        { s with tags := putD s.tags (b.2 / 512) (tagOf (crc32c 512 (s.mem.readN b.2 512)) b.1 ver) 0 }) s
    else s) s

/-- A read of `len` bytes at `va`: the value and the parts (R243, then GUARD and ECCU). -/
def readMem (s : State) (w : Who) (ver : Nat) (ok : Trans → Bool) (align va len : Nat) :
    Res (Nat × List Part) := do
  let ps ← accessCheck s w .read ok align va len
  guardCheck s ver ps
  readEcc s ps
  .ok (readParts s.mem ps, ps)

/-- A write of `len` bytes at `va` (R243, R253, R325). -/
def writeMem (s : State) (w : Who) (ver : Nat) (ok : Trans → Bool) (align va len v : Nat) : Res State := do
  let ps ← accessCheck s w .write ok align va len
  if s.bad.isEmpty then .ok () else writeEcc s ps
  .ok (writeTags ((s.store ps v).noteParts w ps) ver ps)

/-- A page that a store of less than a whole block may write: no weight-store and no guarded page (R237, R253). -/
def plainW (t : Trans) : Bool := !t.ws && !t.grd

/-- A page that a store of the aligned blocks at `va` may write (R253). -/
def blockW (va : Nat) (t : Trans) : Bool := !t.ws && (!t.grd || va % 512 == 0)

end Sys2Proof.Machine
end

