-- ==== Sys2Proof/Machine/CardBase.lean ====
section
/-!
DEFINITION. Cards and chains as every part of the machine sees them: the words of a card, its regions, retirement, the
advance of DONE, failure and the faults it raises, and the end of a task (spec/13 R287 to R302, R313; spec/14 R321, R323).
-/
namespace Sys2Proof.Machine

/-- The least number of a list. -/
def least (ns : List Nat) : Option Nat :=
  ns.foldl (fun m n => match m with | some k => some (min k n) | none => some n) none

/-- Bits of word `w` of a card (Table 76). -/
def cardBits (line : BitVec 512) (w lo n : Nat) : Nat := bitsOf line.toNat (64 * w + lo) n

def cardKind (l : BitVec 512) : Nat := cardBits l 0 0 6
def cardOpt (l : BitVec 512) : Nat := cardBits l 0 6 10
def cardSwin (l : BitVec 512) : Bool := cardBits l 0 6 1 == 1
def cardDwin (l : BitVec 512) : Bool := cardBits l 0 7 1 == 1
def cardScope (l : BitVec 512) : Nat := cardBits l 0 16 3
def cardCodec (l : BitVec 512) : Nat := cardBits l 0 19 3
def cardStrict (l : BitVec 512) : Bool := cardBits l 0 22 1 == 1
def cardCrcm (l : BitVec 512) : Nat := cardBits l 0 23 2
def cardCren (l : BitVec 512) : Bool := cardBits l 0 25 1 == 1
def cardPv (l : BitVec 512) (i : Nat) : Bool := cardBits l 0 (26 + i) 1 == 1
/-- Predecessor field `i` (Table 76). -/
def cardPred (l : BitVec 512) (i : Nat) : Nat := cardBits l (1 + i / 2) (32 * (i % 2)) 32
def cardLen (l : BitVec 512) : Nat := cardBits l 3 0 32
def cardDlen (l : BitVec 512) : Nat := cardBits l 3 32 32
def cardSrc (l : BitVec 512) : Nat := cardBits l 4 0 56
def cardCirc (l : BitVec 512) : Nat := cardBits l 4 56 8
def cardDst (l : BitVec 512) : Nat := cardBits l 5 0 56
def cardVer (l : BitVec 512) : Nat := cardBits l 5 56 8
def cardAux (l : BitVec 512) : Nat := cardBits l 6 0 56
def cardCrec (l : BitVec 512) : Nat := cardBits l 7 0 56

/-- OPT bits 9 to 2. -/
def cardOptHi (l : BitVec 512) : Nat := cardOpt l / 4

/-- Record size in bytes of a DISPATCH (Table 117). -/
def dispRec (l : BitVec 512) : Nat := 64 * cardOptHi l

/-- A remote kind (Table 100). -/
def cardRemote (l : BitVec 512) : Bool := 0x10 ≤ cardKind l

/-- One region of a footprint (R288, R366, R398): `write` also for a read-and-write region. -/
structure Region where
  write : Bool
  window : Bool
  addr : Nat
  len : Nat
deriving DecidableEq, Repr

/-! The memory of peer devices (R391, log 63). -/

/-- The key of an address of a peer device, as the circuit that names it translates it: the peer's device and link, the position
on that link, and the address (R391). -/
def peerKey (s : State) (c a : Nat) : Nat :=
  match (s.circuit c).est with
  | some o =>
    let l := lookD s.links (linkOf o) {}
    2 ^ 64 * (1 + 2 * (32 * l.pdev + l.plink) + linkPosOf o % 2) + a
  | none => 2 ^ 64 + a

/-- Bytes of a peer device's memory. -/
def farBytes (s : State) (k : Nat) : Nat → Nat
  | 0 => 0
  | n + 1 => (lookD s.peerMem k (Config.peerByte k)).toNat + 256 * farBytes s (k + 1) n

/-- Bytes written to a peer device's memory. -/
def farPut (s : State) (k : Nat) : Nat → Nat → State
  | 0, _ => s
  | n + 1, v => farPut { s with peerMem := put s.peerMem k (BitVec.ofNat 8 v) } (k + 1) n (v / 256)

/-- Bytes that this device offers to the link of a circuit for sending (R392). -/
def offer (s : State) (c n : Nat) : State :=
  match (s.circuit c).est with
  | some o =>
    if o.x then
      let l := lookD s.links (linkOf o) {}
      { s with links := putD s.links (linkOf o) { l with offered := l.offered + n } {} }
    else s
  | none => s

/-- The footprint of a card (Tables 77 and 100, R398); a region of length zero is absent. -/
def cardRegions (l : BitVec 512) : List Region :=
  let src : Region := ⟨false, cardSwin l, cardSrc l, cardLen l⟩
  let dst : Region := ⟨true, cardDwin l, cardDst l, cardDlen l⟩
  let aux : Region := ⟨false, false, cardAux l, 64⟩
  let rs := match cardKind l with
    | 1 => [src, dst]
    | 2 => [aux, dst]
    | 3 => [src, aux, dst]
    | 4 => [src]
    | 0x10 | 0x11 | 0x12 => [src, dst]
    | 0x13 => [⟨true, false, cardDst l, if cardBits l 0 12 1 = 1 then 8 else 4⟩]
    | 0x14 => [⟨true, false, cardDst l, 8⟩]
    | 0x15 => [src, ⟨true, false, cardAux l, 8⟩,
        ⟨true, false, cardDst l, cardDlen l * 64 * cardBits l 0 8 8⟩]
    | _ => []
  rs.filter fun r => r.len != 0

/-- Two ranges that share a byte. -/
def rangesMeet (a n b m : Nat) : Bool := a < b + m && b < a + n && n != 0 && m != 0

/-- Two regions that overlap (R294, R296): by virtual address, or by window offset within one context. -/
def regionsMeet (sameCtx : Bool) (x y : Region) : Bool :=
  x.window == y.window && (!x.window || sameCtx) && rangesMeet x.addr x.len y.addr y.len

/-- Two footprints conflict (R294); a region on a peer device counts by its virtual address too (R296, R394). -/
def conflicts (sameCtx : Bool) (xs ys : List Region) : Bool :=
  xs.any fun x => ys.any fun y => (x.write || y.write) && regionsMeet sameCtx x y

/-- A region that a card writes overlaps another of its regions (R288, R398). -/
def selfMeets : List Region → Bool
  | [] => false
  | x :: r => conflicts true [x] r || selfMeets r

/-- Whether a card belongs to a task. -/
def Card.of (k : Card) (lid wid : Nat) : Bool := k.lid == lid && k.wid == wid

/-- Whether a card has still to retire. -/
def Card.inFlight (k : Card) : Bool := k.st != .retired

/-- Scoreboard entries in use on a core (R302). -/
def scoreUsed (s : State) (core : Nat) : Nat :=
  ((s.cards.filter fun e => e.2.core == core && e.2.inFlight).map fun e => (cardRegions e.2.line).length).sum

/-- Whether the scoreboard holds an access of the posting context to memory (R302). -/
def scoreHoldsMem (s : State) (lid wid : Nat) (write : Bool) (va len : Nat) : Bool :=
  s.cards.any fun e => e.2.of lid wid && e.2.inFlight &&
    (cardRegions e.2.line).any fun r => !r.window && (write || r.write) && rangesMeet r.addr r.len va len

/-- Whether the scoreboard holds an access to a window line (R302). -/
def scoreHoldsLine (s : State) (lid wid : Nat) (write : Bool) (n : Nat) : Bool :=
  s.cards.any fun e => e.2.of lid wid && e.2.inFlight &&
    (cardRegions e.2.line).any fun r => r.window && (write || r.write) && rangesMeet r.addr r.len (512 * n) 512

/-- The card with a sequence number on a chain of a task. -/
def findCard? (s : State) (lid wid q seq : Nat) : Option (Nat × Card) :=
  s.cards.find? fun e => e.2.of lid wid && e.2.q == q && e.2.seq == seq

/-- The task's context, resident or saved. -/
def taskCtx? (s : State) (lid wid : Nat) : Option Context :=
  match s.ctxs.find? (fun e => e.2.bind.lid == lid && e.2.bind.wid == wid) with
  | some e => some e.2
  | none =>
    match s.saved.find? (fun e => e.2.ctx.bind.lid == lid && e.2.ctx.bind.wid == wid) with
    | some e => some e.2.ctx
    | none => none

/-- The task's bind position, resident or the one it left. -/
def taskPos? (s : State) (lid wid : Nat) : Option Nat :=
  match s.ctxs.find? (fun e => e.2.bind.lid == lid && e.2.bind.wid == wid) with
  | some e => some e.1
  | none =>
    match s.saved.find? (fun e => e.2.ctx.bind.lid == lid && e.2.ctx.bind.wid == wid) with
    | some e => some e.2.pos
    | none => none

/-- Change the task's context, resident or saved (R329). -/
def updTask (s : State) (lid wid : Nat) (f : Context → Context) : State :=
  { s with
    ctxs := s.ctxs.map fun e => if e.2.bind.lid == lid && e.2.bind.wid == wid then (e.1, f e.2) else e
    saved := s.saved.map fun e =>
      if e.2.ctx.bind.lid == lid && e.2.ctx.bind.wid == wid then (e.1, { e.2 with ctx := f e.2.ctx }) else e }

/-- A chain of a context. -/
def Context.chain (c : Context) (q : Nat) : Chain := lookD c.chains q {}

def Context.setChain (c : Context) (q : Nat) (k : Chain) : Context := { c with chains := putD c.chains q k {} }

/-- DONE after the retirements so far (R297): up to `fuel` cards past it. -/
def doneFrom (s : State) (lid wid q : Nat) : Nat → Nat → Nat
  | 0, d => d
  | fuel + 1, d =>
    let n := (d + 1) % 2 ^ 32
    match findCard? s lid wid q n with
    | some (_, k) => if k.st == .retired then doneFrom s lid wid q fuel n else d
    | none => d

/-- A sequence number at or below another, modulo 2^32 (R301). -/
def seqLe (a b : Nat) : Bool := (b + 2 ^ 32 - a % 2 ^ 32) % 2 ^ 32 < 2 ^ 31

/-- Whether no circuit carries what would travel from one die to a home die, so that the system die completes it: the circuit
is lost, or there is none (R300, R379, log 15). -/
def circuitGone (s : State) (c : Nat) : Bool := c == 255 || (s.circuit c).state == .lost || (s.circuit c).state == .idle

/-- A write of a card that has started, or of its chain (R300, R379): it is held while a circuit that it travels over recovers,
and one over a circuit that is lost is completed through the system die; none while it waits. A word that does not translate
is not written (log 15). -/
def cardStore (s : State) (w : Who) (align va len v : Nat) : Option State :=
  let put (w : Who) : Res State := writeMem s w 0 plainW align va len v
  match put w with
  | .ok t => some t
  | .error .wait => none
  | .error (.trap t) =>
    if t.code = .nocirc then
      if t.nopair || circuitGone s t.circ then
        match put { w with die := systemDie } with
        | .ok t => some t
        | .error .wait => none
        | .error _ => some s
      else none
    else some s

/-- Advance DONE, write the sequence word and forget the cards it covers (R297); nothing while the word's write waits. A card
is kept while a card that it names is, since a later card may be ordered through it (R295). -/
def advanceDone (s : State) (lid wid q : Nat) : State :=
  match taskCtx? s lid wid, taskPos? s lid wid with
  | some c, some pos =>
    let k := c.chain q
    let d := doneFrom s lid wid q s.cards.length k.done
    if (d == k.done) = true then s
    else
      match cardStore s (c.who pos) 8 k.sqaddr 8 d with
      | none => s
      | some t =>
        let t1 := updTask t lid wid fun c => (c.setChain q { c.chain q with done := d }).wake
        { t1 with cards := t1.cards.filter fun e =>
          !(e.2.of lid wid && e.2.q == q && e.2.st == .retired && seqLe e.2.seq d &&
            e.2.preds.all fun p => (findCard? s lid wid p.1 p.2).isNone) }
  | _, _ => s

/-- The failed cards of a chain. -/
def failedOn (s : State) (lid wid q : Nat) : List (Nat × Card) :=
  s.cards.filter fun e => e.2.of lid wid && e.2.q == q && e.2.st == .failed

/-- Report the held failure of lowest sequence number, if the chain reports none (R300). -/
def reportFailure (s : State) (lid wid q : Nat) : State :=
  match taskCtx? s lid wid with
  | none => s
  | some c =>
    let k := c.chain q
    if k.failed then s
    else
      match failedOn s lid wid q with
      | [] => s
      | e :: r =>
        let low := r.foldl (fun a b => if seqLe a.2.seq b.2.seq then a else b) e
        updTask s lid wid fun c =>
          c.setChain q { c.chain q with failed := true, ecode := low.2.status, failedSeq := low.2.seq }

/-- Writing 1 to FAILED (R300): the reported card counts as retired, and a held failure is reported at once. -/
def clearFailed (s : State) (lid wid q : Nat) : State :=
  match taskCtx? s lid wid with
  | none => s
  | some c =>
    let k := c.chain q
    if k.failed then
      let s1 := updTask s lid wid fun c => c.setChain q { c.chain q with failed := false, ecode := 0, failedSeq := 0 }
      let s2 := { s1 with
        cards := s1.cards.map fun e =>
          if e.2.of lid wid && e.2.q == q && e.2.st == .failed && e.2.seq == k.failedSeq then
            (e.1, { e.2 with st := .retired })
          else e }
      reportFailure (advanceDone s2 lid wid q) lid wid q
    else s

/-- The fault that a card's status names (Tables 81 and 102). -/
def statusFault : Nat → FaultCode
  | 0x10 => .page | 0x11 => .prot | 0x12 => .align | 0x13 => .guard | 0x14 => .crc | 0x15 => .qlen
  | 0x16 => .eccu | 0x17 => .wstore | 0x18 => .illop | 0x19 => .nocirc | 0x20 => .fabric
  | 0x21 => .nocirc | _ => .fabric

/-- The fault of a failed chain (R300, R323). CIRC is the circuit of a remote card whatever its status, where Table 85 gives it for
NOCIRC and FABRIC alone and says nothing of the others: a DESIGN CHOICE (log 66). -/
def chainTrap (s : State) (lid wid q : Nat) (k : Chain) (eng : Option Nat) : Trap :=
  match findCard? s lid wid q k.failedSeq with
  | some (_, cd) =>
    { code := statusFault k.ecode, eng := eng, addr := cd.faddr, arg := k.ecode + cd.sub * 256, chain := q,
      circ := if cardRemote cd.line && cd.status != 0x19 then cardCirc cd.line else cd.circ, card := true, seq := k.failedSeq }
  | none =>
    { code := statusFault k.ecode, eng := eng, arg := k.ecode, chain := q, card := true, seq := k.failedSeq }

/-- Whether a predecessor holds no card back: it has retired (R293). -/
def predDone (s : State) (k : Card) (p : Nat × Nat) : Bool :=
  match findCard? s k.lid k.wid p.1 p.2 with
  | some (_, c) => c.st == .retired
  | none => true

/-- Whether a failed card of its chain stands before a card (R300). -/
def behindFailed (s : State) (k : Card) : Bool :=
  s.cards.any fun e => e.2.of k.lid k.wid && e.2.q == k.q && e.2.st == .failed && e.2.seq != k.seq && seqLe e.2.seq k.seq

/-- One round of the cards that go no further (R313). -/
def stuckRound (s : State) (lid wid : Nat) (stuck : List Nat) : List Nat :=
  (s.cards.filter fun e => e.2.of lid wid && e.2.inFlight &&
    (e.2.st == .failed || e.2.st == .posted && behindFailed s e.2 ||
     e.2.st == .posted && e.2.preds.any fun p =>
       match findCard? s lid wid p.1 p.2 with
       | some (i, _) => stuck.contains i
       | none => false)).map (·.1)

def stuckFrom (s : State) (lid wid : Nat) : Nat → List Nat → List Nat
  | 0, l => l
  | fuel + 1, l => stuckFrom s lid wid fuel (stuckRound s lid wid l)

/-- The cards of a task that go no further (R313). -/
def stuckCards (s : State) (lid wid : Nat) : List Nat :=
  stuckFrom s lid wid (s.cards.length + 1) []

/-- Whether every card of the task has retired or goes no further, and DONE of every chain says so (R297, R313). -/
def cardsSettled (s : State) (lid wid : Nat) (c : Context) : Bool :=
  let st := stuckCards s lid wid
  s.cards.all (fun e => !(e.2.of lid wid) || !e.2.inFlight || st.contains e.1) &&
    (List.range 16).all fun q => doneFrom s lid wid q s.cards.length (c.chain q).done == (c.chain q).done

/-- Discard the cards that go no further, clear FAILED and advance DONE (R313). -/
def discardStuck (s : State) (lid wid : Nat) : State :=
  let st := stuckCards s lid wid
  let s1 := { s with cards := s.cards.map fun e => if st.contains e.1 then (e.1, { e.2 with st := .retired }) else e }
  let s2 := updTask s1 lid wid fun c =>
    { c with chains := c.chains.map fun e => (e.1, { e.2 with failed := false, ecode := 0, failedSeq := 0 }) }
  (List.range 16).foldl (fun s q => advanceDone s lid wid q) s2

/-- The lowest-numbered failed chain (R313). -/
def failedChain? (c : Context) : Option Nat := (List.range 16).find? fun q => (c.chain q).failed

/-- Change one card. -/
def updCard (s : State) (id : Nat) (f : Card → Card) : State :=
  { s with cards := s.cards.map fun e => if e.1 = id then (e.1, f e.2) else e }

/-- The collective attempt of a card: launch, CID and EXCL (R382); none for a card of no collective. -/
def attemptOf (k : Card) : Option Nat :=
  if 0x10 ≤ cardKind k.line ∧ cardKind k.line ≤ 0x12 ∧ cardBits k.line 6 0 16 ≠ 0 then
    some ((k.lid * 2 ^ 16 + cardBits k.line 6 0 16) * 2 ^ 32 + cardBits k.line 6 32 32)
  else none

/-- A card fails with a status, unless it has failed already (R300, R373, R382); its retirement is still to come. -/
def Card.fail (status sub faddr : Nat) (k : Card) : Card :=
  if k.inFlight && k.st != .failed && !(k.performed && 3 < k.status) then
    { k with st := .running, performed := true, status := status, sub := sub, faddr := faddr }
  else k

/-- Some cards fail together, and with them every other unretired card of their collective attempts (R373, R381, R382). An
attempt keeps the subcode of the first failure for the cards that are posted later. -/
def failCards (s : State) (ids : List Nat) (status sub faddr : Nat) : State :=
  let as := ids.filterMap fun id => (find? s.cards id).bind attemptOf
  { s with
    aborted := as.foldl (fun m a => if (find? m a).isSome then m else put m a sub) s.aborted
    cards := s.cards.map fun e =>
      if ids.contains e.1 then (e.1, Card.fail status sub faddr e.2)
      else if (attemptOf e.2).any as.contains then (e.1, Card.fail 0x22 sub 0 e.2)
      else e }

/-- Fail one card, and with it every other unretired card of its collective attempt (R382). -/
def failCard (s : State) (id status sub faddr : Nat) : State := failCards s [id] status sub faddr

end Sys2Proof.Machine
end

