-- ==== Sys2Proof/Machine/Groups.lean ====
section
/-!
DEFINITION. The launch header's fields, work identifiers, teams and groups (spec/10 R208, R210, R211).
-/
namespace Sys2Proof.Machine

/-- `n` bytes at an offset of a header (Table 57). -/
def hdrAt (h : BitVec 4096) (off n : Nat) : Nat := h.toNat / 2 ^ (8 * off) % 2 ^ (8 * n)

def hdrNfield (h : BitVec 4096) : Nat := hdrAt h 4 1
def hdrWidth (h : BitVec 4096) (f : Nat) : Nat := hdrAt h (0x40 + 8 * f) 1
def hdrWindow (h : BitVec 4096) : Nat := hdrAt h 0x008 1
def hdrClass (h : BitVec 4096) : Nat := hdrAt h 0x009 1 / 4 % 4
def hdrExt (h : BitVec 4096) (f : Nat) : Nat := hdrAt h (0x44 + 8 * f) 4

/-- The team level of a phase (R208, R223). -/
def hdrTeamLevel (h : BitVec 4096) (phase : Nat) : Nat :=
  if phase = 0 then hdrAt h 5 1 else hdrAt h (0x70 + (phase - 1)) 1

/-- The bit at which field f begins (R210). -/
def fieldOff (h : BitVec 4096) : Nat → Nat
  | 0 => 0
  | f + 1 => fieldOff h f + hdrWidth h f

/-- Field f of a work identifier (R210). -/
def widField (h : BitVec 4096) (wid f : Nat) : Nat := wid / 2 ^ fieldOff h f % 2 ^ hdrWidth h f

/-- The dispatch extent of field f (R210). -/
def extentOf (pext : List Nat) (f : Nat) : Nat := pext.getD f 1

/-- What tells a task's level-k group from the others (R211): its fields above k, or nothing when the group is the
whole launch. -/
def groupOf (h : BitVec 4096) (wid k : Nat) : Nat :=
  if hdrNfield h ≤ k + 1 then 0 else wid / 2 ^ fieldOff h (k + 1)

/-- The fields that a level-k group spans. -/
def spanFields (h : BitVec 4096) (k : Nat) : Nat := min (k + 1) (hdrNfield h)

/-- The index over fields `f …` of a task, `n` of them (R211). -/
def indexFrom (h : BitVec 4096) (pext : List Nat) (wid f : Nat) : Nat → Nat
  | 0 => 0
  | n + 1 => widField h wid f + extentOf pext f * indexFrom h pext wid (f + 1) n

/-- A task's index in its level-k group (R211). -/
def groupIndex (h : BitVec 4096) (pext : List Nat) (wid k : Nat) : Nat :=
  indexFrom h pext wid 0 (spanFields h k)

/-- The product of the extents of `n` fields from `f` on. -/
def extentsFrom (pext : List Nat) (f : Nat) : Nat → Nat
  | 0 => 1
  | n + 1 => extentOf pext f * extentsFrom pext (f + 1) n

/-- The size of a level-k group (R211). -/
def groupSize (h : BitVec 4096) (pext : List Nat) (k : Nat) : Nat := extentsFrom pext 0 (spanFields h k)

/-- The number of tasks of a launch (R210). -/
def taskCount (h : BitVec 4096) (pext : List Nat) : Nat := extentsFrom pext 0 (hdrNfield h)

/-- The team number of a task under team level `tl` (R211). -/
def teamNumber (h : BitVec 4096) (pext : List Nat) (wid tl : Nat) : Nat :=
  indexFrom h pext wid (tl + 1) (hdrNfield h - (tl + 1))

/-- The work identifier with index `i` over fields `f …`, `n` of them (R210, R211). -/
def widFrom (h : BitVec 4096) (pext : List Nat) (f i : Nat) : Nat → Nat
  | 0 => 0
  | n + 1 =>
    let p := extentOf pext f
    (if p = 0 then 0 else i % p) * 2 ^ fieldOff h f + widFrom h pext (f + 1) (if p = 0 then 0 else i / p) n

/-- The task at index `i` of the whole launch. -/
def widAt (h : BitVec 4096) (pext : List Nat) (i : Nat) : Nat := widFrom h pext 0 i (hdrNfield h)

/-- Whether a task is padded (R210). -/
def isPadded (h : BitVec 4096) (wid : Nat) : Bool :=
  (List.range (hdrNfield h)).any fun f => hdrExt h f ≤ widField h wid f

/-- The team level of a launch's phase. -/
def Launch.tl (l : Launch) : Nat := hdrTeamLevel l.hdr l.phase

/-- Whether two tasks of a launch are members of one level-k group (R211). -/
def sameGroup (h : BitVec 4096) (k a b : Nat) : Bool := groupOf h a k == groupOf h b k

end Sys2Proof.Machine
end

