-- ==== Sys2Proof/Machine/Circ.lean ====
section
/-!
DEFINITION. Circuit programs: their words, the checks of admission, and what circuits are (spec/16 R341 to R350; spec/20
R390, R391).
-/
namespace Sys2Proof.Machine

/-- The reading agent that stands for the firmware on the system die (log 19). -/
def firmware (lid root : Nat) : Who := ⟨systemDie, 512, lid, root⟩

/-- The streams of a circuit are closed, and with them what asks to be one (R352, R358). -/
def closeStreams (s : State) (c : Nat) : State :=
  { s with
    streams := s.streams.filter fun e => e.2.circ != c
    opening := s.opening.filter fun e => e.2.circ.toNat != c }

/-- Endpoints, kind and relays alike (R351, LMOVE). -/
def sameWay (a b : EstOp) : Bool :=
  a.da == b.da && a.pa == b.pa && a.db == b.db && a.pb == b.pb && a.x == b.x && relaysOf a == relaysOf b

/-- Whether a list names no value twice. -/
def noTwice : List Nat → Bool
  | [] => true
  | a :: r => !r.contains a && noTwice r

/-- Set bits of a group mask. -/
def groupCount (g : BitVec 8) : Nat := countOnes g.toNat 8
where
  /-- Ones among the low `n` bits. -/
  countOnes (v : Nat) : Nat → Nat
    | 0 => 0
    | n + 1 => v % 2 + countOnes (v / 2) n

/-- Added latency (R344). -/
def clat (o : EstOp) : Nat := 320 + 192 * o.nr.toNat

/-- The default RETRY of a circuit without a vector routine (R354). -/
def defaultRetry (c : Nat) : RetryOp := ⟨BitVec.ofNat 8 c, .any, 3⟩

/-- The fields of one operation under Table 94, R351 and R391. -/
def seqOpOk : Instr → Bool
  | .est o => o.wg != 0 && noTwice (portsOf o) && (!o.x || o.pb.toNat ≤ 1) && (o.x || !o.lpos) &&
      (o.nr.toNat ≥ 1 || (o.r0d == 0 && o.r0i == 0 && o.r0o == 0)) &&
      (o.nr.toNat ≥ 2 || (o.r1d == 0 && o.r1i == 0 && o.r1o == 0))
  | .seqStep o => o.fcnt != 0 && o.s != 0
  | .retry o => o.limit != 0
  | .vect o => !o.all || o.c == 0
  | _ => true

/-- The handles an operation names (R350). -/
def seqHandles : Instr → List Nat
  | .est o => [o.c.toNat]
  | .tear c | .hold c => [c.toNat]
  | .lmove o => [o.cf.toNat, o.ct.toNat]
  | .vect o => if o.all then [] else [o.c.toNat]
  | .retry o => [o.c.toNat]
  | _ => []

/-- The main program: the operations before the first DONE, with no RETRY; none when no DONE ends it (R350, R351). -/
def mainOf : List Instr → Option (List Instr)
  | [] => none
  | .seqDone :: _ => some []
  | .retry _ :: _ => none
  | i :: r => (mainOf r).map (i :: ·)

/-- A routine: up to its DONE, with no STEP (R350). -/
def routineOf : List Instr → Option (List Instr)
  | [] => none
  | .seqDone :: _ => some []
  | .seqStep _ :: _ => none
  | i :: r => (routineOf r).map (i :: ·)

/-- STEP numbers rise (R350). -/
def stepsRise : Nat → List Instr → Bool
  | _, [] => true
  | b, .seqStep o :: r => b < o.s.toNat && stepsRise o.s.toNat r
  | b, _ :: r => stepsRise b r

/-! The simulation of R350: every state that the program, the settling and draining of its circuits, fault reports on them and
the outcomes of RETRY can reach. -/

/-- A circuit in the simulation, not IDLE: whether a TEAR is pending, and whether a RETRY is in force (R352, R354). -/
structure SimCirc where
  est : EstOp
  groups : BitVec 8
  st : CState := .settling
  tear : Bool := false
  retry : Bool := false
deriving DecidableEq

/-- What a program has done: its circuits, its vectors, and the routines that are due. -/
structure Sim where
  circs : Store SimCirc := []
  vects : Store Nat := []
  vectAll : Option Nat := none
  due : List Nat := []
deriving DecidableEq

/-- A state of the simulation: where the routine that runs and the main program stand. -/
structure SimAt where
  sim : Sim := {}
  routine : Option Nat := none
  pc : Nat := 0
deriving DecidableEq

/-- The group masks of the circuits on a port. -/
def portMasks (cs : Store SimCirc) (p : Nat) : List Nat :=
  (cs.filter fun e => (portsOf e.2.est).contains p).map fun e => e.2.groups.toNat

/-- At most four circuits on a port, with disjoint groups (R342). -/
def portOk (masks : List Nat) : Bool :=
  masks.length ≤ 4 && masks.sum == masks.foldl (· ||| ·) 0

/-- Every port within its limits. -/
def portsOk (cs : Store SimCirc) : Bool :=
  (cs.flatMap fun e => (portsOf e.2.est)).all fun p => portOk (portMasks cs p)

/-- One operation, under the rules of Table 94 and R342: none for a breach, nothing where it waits. -/
def simOp (s : Sim) (i : Instr) : Option (List Sim) :=
  match i with
  | .est o =>
    let cs := put s.circs o.c.toNat { est := o, groups := o.wg }
    match find? s.circs o.c.toNat with
    | some a => if a.st = .lost ∧ portsOk cs = true then some [{ s with circs := cs }] else none
    | none => if portsOk cs then some [{ s with circs := cs }] else none
  | .tear c =>
    match find? s.circs c.toNat with
    | none => none
    | some a => some [{ s with
        circs := match a.st with
          | .lost => del s.circs c.toNat
          | .recovering => put s.circs c.toNat { a with tear := true }
          | _ => put s.circs c.toNat { a with st := .draining } }]
  | .hold c =>
    match find? s.circs c.toNat with
    | some a => some (if a.st = .live ∨ a.st = .lost then [s] else [])
    | none => some []
  | .lmove o =>
    match find? s.circs o.cf.toNat, find? s.circs o.ct.toNat with
    | some a, some b =>
      let cs := put (put s.circs o.cf.toNat { a with groups := a.groups &&& ~~~o.mg }) o.ct.toNat
        { b with groups := b.groups ||| o.mg }
      if a.st == .live && b.st == .live && sameWay a.est b.est && o.mg &&& ~~~a.groups == 0 &&
          a.groups &&& ~~~o.mg != 0 && o.cf != o.ct && portsOk cs then
        some [{ s with circs := cs }]
      else none
    | _, _ => none
  | .vect o =>
    some [if o.all then { s with vectAll := some o.t.toNat }
          else { s with vects := put s.vects o.c.toNat o.t.toNat }]
  | .retry o =>
    match find? s.circs o.c.toNat with
    | some a => some [{ s with circs := put s.circs o.c.toNat { a with retry := a.retry || a.st == .recovering } }]
    | none => some [s]
  | _ => some [s]

/-- A fault report on a circuit: it recovers under its vector routine, or under the default RETRY (R354). -/
def simFault (s : Sim) (k : Nat) (a : SimCirc) : Sim :=
  let t := match find? s.vects k with | some t => some t | none => s.vectAll
  { s with
    circs := put s.circs k { a with st := .recovering, tear := a.tear || a.st == .draining, retry := t.isNone }
    due := s.due ++ t.toList }

/-- What can happen to one circuit by itself (Table 90). -/
def simMoves (s : Sim) (e : Nat × SimCirc) : List Sim :=
  let turn (st : CState) : Sim := { s with circs := put s.circs e.1 { e.2 with st := st, tear := false, retry := false } }
  let idle : Sim := { s with circs := del s.circs e.1 }
  match e.2.st with
  | .settling => [turn .live, simFault s e.1 e.2]
  | .live => [simFault s e.1 e.2]
  | .draining => [idle, simFault s e.1 e.2]
  | .recovering =>
    if e.2.retry then (if e.2.tear then [turn .draining, idle] else [turn .live, turn .lost]) else []
  | .idle | .lost => []

/-- What the sequencer does next (R353): the routine that runs, else one that is due, else the main program; none for a
breach. After its DONE the main program is over, and routines still run. -/
def simStep (ops : List Instr) (x : SimAt) : Option (List SimAt) :=
  match x.routine, x.sim.due with
  | some r, _ =>
    match ops[r]? with
    | none | some (.seqStep _) => none
    | some .seqDone => some [{ x with routine := none }]
    | some i => (simOp x.sim i).map fun l => l.map fun t => { x with sim := t, routine := some (r + 1) }
  | none, t :: rest => some [{ x with sim := { x.sim with due := rest }, routine := some t }]
  | none, [] =>
    match ops[x.pc]? with
    | none | some (.retry _) => none
    | some .seqDone => some []
    | some i => (simOp x.sim i).map fun l => l.map fun t => { x with sim := t, pc := x.pc + 1 }

/-- Whether no state that these reach holds a breach: the nearest states come first. -/
def simReach (ops : List Instr) : Nat → List SimAt → List SimAt → Bool
  | 0, _, _ => true
  | _ + 1, _, [] => true
  | fuel + 1, seen, x :: todo =>
    if seen.contains x then simReach ops fuel seen todo
    else
      match simStep ops x with
      | none => false
      | some l =>
        simReach ops fuel (x :: seen)
          (todo ++ l ++ (x.sim.circs.flatMap (simMoves x.sim)).map fun t => { x with sim := t })

/-- The fuel of the search: more than the states that a program's circuits, vectors and places have, with thousands of routines
due (log 20). -/
def simFuel : Nat := 2 ^ 2 ^ 16

/-- EST operations of a program. -/
def estsOf (ops : List Instr) : List EstOp :=
  ops.filterMap fun i => match i with | .est o => some o | _ => none

/-- Two circuits that name one position of one link (R391). -/
def linksOk (es : List EstOp) : Bool :=
  es.all fun a => !a.x || es.all fun b => !b.x || linkPosOf a != linkPosOf b || a.c == b.c

/-- PAIR[s][h] of a header's table (R348). -/
def pairAt (pair : BitVec 2048) (s h : Nat) : Nat := pair.toNat / 2 ^ (8 * (16 * s + h)) % 256

/-- PAIR's rule for one entry (R347, R348): the program establishes the handle, and always between these two dies. -/
def pairOk (hmask : BitVec 256) (es : List EstOp) (s h b : Nat) : Bool :=
  b == 255 || (s != h && hmask.getLsbD b && es.any (fun e => e.c.toNat == b) && es.all fun e => e.c.toNat != b ||
    (!e.x && (e.da.toNat == s && e.db.toNat == h || e.da.toNat == h && e.db.toNat == s)))

/-- The defects of a kind: die and index (R327). -/
def defectsOf (s : State) (kind : Nat) : List (Nat × Nat) :=
  (s.m.defects.filter fun w => bitsOf w.toNat 0 8 == kind).map fun w => (bitsOf w.toNat 8 4, bitsOf w.toNat 16 32)

/-- A port barred in the defect map (Table 87). -/
def portBarred (s : State) (p : Nat) : Bool :=
  (defectsOf s 2).any fun d => portKey d.1 (d.2 % 8) == p

/-- The wavelengths barred at a port, in the order of their retirement. -/
def wavesBarred (s : State) (p : Nat) : List Nat :=
  ((defectsOf s 4).filter fun d => portKey d.1 (d.2 % 8) == p).map fun d => d.2 / 8 % 256

/-- A group barred at a port (R341): the eight spares, less those that are barred themselves, have replaced the wavelengths that
were barred first, and the group holds one that no spare has replaced. -/
def groupBarred (s : State) (p g : Nat) : Bool :=
  let w := wavesBarred s p
  let spares := 8 - (w.filter fun v => 64 ≤ v && v < 72).length
  ((w.filter fun v => v < 64).drop spares).any fun v => v / 8 == g

/-- Nothing barred in an establishment (R341, R350). -/
def estClear (s : State) (o : EstOp) : Bool :=
  (portsOf o).all fun p => !portBarred s p &&
    (List.range 8).all fun g => !(o.wg.getLsbD g && groupBarred s p g)

/-- An entry of a slot table image (R349, R350). -/
def imageEntryOk (w : Nat) : Bool :=
  let ins := (List.range 5).map fun o => bitsOf w (3 * o) 3
  bitsOf w 15 1 == 0 && ins.all (fun i => i != 5 && i != 6) && noTwice (ins.filter (· != 7))

/-- The inputs of a router of R349's numbering that come from a router beside it, which the same numbers name as outputs (R244,
R280). -/
def sidesOf (r : Nat) : List Nat :=
  let p := routerXY (if r < 4 then 32 + r else r - 4)
  [1, 2, 3, 4].filter fun k => match k with
    | 1 => 0 < p.2 | 2 => p.1 < 5 | 3 => p.2 < 5 | _ => 0 < p.1

/-- The input that an output takes in an entry, 7 for free (R349). -/
def entryInput (w o : Nat) : Nat := bitsOf w (3 * o) 3

/-- An entry in which an output takes an input, which no other output takes any more (R350). -/
def connect (o x w : Nat) : Nat :=
  ((List.range 5).map fun k =>
    (if k = o then x else if entryInput w k = x then 7 else entryInput w k) * 2 ^ (3 * k)).sum

/-- Whether a router's entries have a way out of its core or slice to a router beside it, and a way in (R244). -/
def routerServes (r : Nat) (es : List Nat) : Bool :=
  (es.any fun w => (sidesOf r).any fun o => entryInput w o == 0) && es.any fun w => (sidesOf r).contains (entryInput w 0)

/-- Whether the entries of an image, router by router from router `k` on, can hold the paths of R244: a path between a core and
the slice of another router leaves the one's and enters the other's, and every core and slice has such paths. -/
def imagePaths (es : List Nat) : Nat → Nat → Bool
  | _, 0 => true
  | k, n + 1 => (k % 36 < 4 || routerServes (k % 36) (es.take 256)) && imagePaths (es.drop 256) (k + 1) n

/-- An entry of the default image of a die (R349), which takes no input twice and names no input 5 or 6 (R350). Every core router has
a way out in one slot and a way in in another or the same, as R244 needs: where they are is free (log 20). -/
def defaultEntry (d i : Nat) : Nat :=
  let w := Config.defaultImage d i % 65536
  let w0 := if imageEntryOk w then w else 0x7FFF
  let r := i / 256
  if r < 4 then w0
  else
    let n := Config.defaultPath d r
    let sides := sidesOf r
    let side (k : Nat) : Nat := sides.getD (k % sides.length) 1
    let w1 := if i % 256 = n % 256 then connect (side (n / 2 ^ 8 % 12)) 0 w0 else w0
    if i % 256 = n / 2 ^ 12 % 256 then connect 0 (side (n / 2 ^ 20)) w1 else w1

/-- The default image, die by die (R349). -/
def defaultEntries : List Nat := (List.range 16).flatMap fun d => (List.range 9216).map (defaultEntry d)

/-- Whether an image meets R244: the default image does (R349); one whose routers have no way out or in does not; of another it is
open (log 20). -/
def imageServes (es : List Nat) : Bool := es == defaultEntries || (imagePaths es 0 576 && Config.imageServes es)

/-- The checks of R350 on a decoded program. -/
def progOk (s : State) (hmask : BitVec 256) (pair : BitVec 2048) (ops : List Instr) : Bool :=
  let es := estsOf ops
  ops.all seqOpOk && ops.all (fun i => (seqHandles i).all fun c => hmask.getLsbD c) &&
    ops.all (fun i => match i with
      | .vect o => (routineOf (ops.drop o.t.toNat)).isSome
      | _ => true) &&
    linksOk es && es.all (estClear s) &&
    (List.range 16).all (fun a => (List.range 16).all fun b => pairOk hmask es a b (pairAt pair a b)) &&
    match mainOf ops with
    | none => false
    | some m => stepsRise 0 m && simReach ops simFuel [] [{}]

/-- A word list of `n` words from a number. -/
def wordsOf (v : Nat) : Nat → List Word
  | 0 => []
  | n + 1 => BitVec.ofNat 64 v :: wordsOf (v / 2 ^ 64) n

/-- 16-bit entries from a number. -/
def entriesOf (v : Nat) : Nat → List Nat
  | 0 => []
  | n + 1 => v % 65536 :: entriesOf (v / 65536) n

/-- Errors that refuse a launch (Table 59); `wait` only holds it, while an HBM channel it needs is out of service
(R407). -/
inductive LErr where
  | hdr | nbv | novar | nobkt | prot | depth | res | qfull | power | wait
deriving DecidableEq, Repr

/-- The code of a launch error (Table 59). -/
def LErr.code : LErr → Nat
  | .hdr => 1 | .nbv => 2 | .novar => 3 | .nobkt => 4 | .prot => 5 | .depth => 6 | .res => 7 | .qfull => 8 | .power => 9
  | .wait => 0

/-- The firmware's read of `n` bytes; unreadable refuses with LPROT (R209). -/
def fwRead (s : State) (root a n : Nat) : Except LErr Nat :=
  if n = 0 then .ok 0
  else
    match readMem s (firmware 0 root) 0 notWs 1 a n with
    | .ok (v, _) => .ok v
    | .error .wait => .error .wait
    | .error (.trap _) => .error .prot

/-- The entries of a slot table image, router by router (R349). -/
def readImage (s : State) (root a : Nat) : Nat → Except LErr (List Nat)
  | 0 => .ok []
  | n + 1 => do
    let v ← fwRead s root a 512
    let r ← readImage s root (a + 512) n
    .ok (entriesOf v 256 ++ r)

/-- Refuse with LHDR unless. -/
def lhdr (b : Bool) : Except LErr Unit := if b then .ok () else .error .hdr

/-- Load and check a circuit program (R347 to R351). -/
def loadProg (s : State) (root a : Nat) (det : Bool) : Except LErr CProg := do
  let h ← fwRead s root a 320
  lhdr (a % 64 == 0 && bitsOf h 0 16 == 1 && bitsOf h 16 16 == 0 && bitsOf h (8 * 0x38) 64 == 0)
  let n := bitsOf h 32 32
  let oa := bitsOf h 64 64
  let img := bitsOf h 128 64
  lhdr (1 ≤ n && n ≤ 65536 && oa % 8 == 0 && oa / 2 ^ 56 == 0 && img / 2 ^ 56 == 0 && (det || img == 0))
  let v ← fwRead s root oa (8 * n)
  let words := wordsOf v n
  let hmask := BitVec.ofNat 256 (bitsOf h (8 * 0x18) 256)
  let pair := BitVec.ofNat 2048 (bitsOf h (8 * 0x40) 2048)
  let image ← if img = 0 then .ok none
    else do
      let es ← readImage s root img 576
      lhdr (es.all imageEntryOk && imageServes es)
      .ok (some es)
  match words.mapM decodeSeqOp with
  | none => .error .hdr
  | some ops =>
    lhdr (progOk s hmask pair ops)
    .ok { ops := words, hmask := hmask, pair := pair, image := image }

/-- The handles a mask sets. -/
def handlesOf (hmask : BitVec 256) : List Nat := (List.range 256).filter fun c => hmask.getLsbD c

/-- The link positions a program names. -/
def linkPositions (p : CProg) : List Nat :=
  ((estsOf (p.ops.filterMap decodeSeqOp)).filter (·.x)).map linkPosOf

/-- Whether a launch holds a handle (R343). -/
def holds (s : State) (lid c : Nat) : Bool := lid != 0 && (s.circuit c).lid == lid

/-- Whether a program establishes a handle (R362). -/
def establishes (p : CProg) (c : Nat) : Bool :=
  (estsOf (p.ops.filterMap decodeSeqOp)).any fun o => o.c.toNat == c

/-- The other conditions under which a settled external circuit is LIVE (R391): its link is UP, and the partner at
its position has settled and names as many groups. -/
def extLive (s : State) (o : EstOp) : Bool :=
  linkUp s o &&
    match find? s.partners (linkPosOf o) with
    | some p => p.settled && groupCount p.groups == groupCount o.wg
    | none => false

/-- The state of a circuit whose own half has settled (R345, R391). -/
def settledState (s : State) (k : Circuit) : CState :=
  match k.est with
  | some o => if o.x && !extLive s o then .settling else .live
  | none => .idle

/-! Laser banks (R407, R414). -/

/-- The bank that serves at a place: at first banks 0 to 3 at places 0 to 3 (R414). -/
def bankAt (s : State) (p : Nat) : Nat := lookD s.m.serves p p

/-- The banks that feed a circuit (R414). -/
def banksOf (s : State) (c : Nat) : List Nat := ((List.range 4).filter fun p => Config.bankFeeds p c).map (bankAt s)

/-- Whether every bank that feeds a circuit is ready to be used (R407). -/
def banksReady (s : State) (c : Nat) : Bool :=
  (List.range 4).all fun p => s.m.ready.getLsbD (18 + bankAt s p) || !Config.bankFeeds p c

end Sys2Proof.Machine
end

