-- ==== Sys2Proof/Machine/Fetch.lean ====
section
/-!
DEFINITION. Fetching a record, the engine that performs a slot, and the slots that lagging engines have still to perform
(spec/01 R25 to R27; spec/03 R63; spec/09 R187 to R191).
-/
namespace Sys2Proof.Machine

/-- The check of a record's fetch (R240, R243). -/
def fetchParts (s : State) (w : Who) (addr : Nat) : Res (List Part) := accessCheck s w .fetch notWs 1 (addr % 2 ^ 56) 64

/-- The record at an address as a context fetches it (R25, R240, R243): PAGE, PROT, NOCIRC, ECCU. -/
def fetchRecord (s : State) (w : Who) (addr : Nat) : Res (BitVec 512) := do
  let ps ← fetchParts s w addr
  readEcc s ps
  .ok (BitVec.ofNat 512 (readParts s.mem ps))

/-- The core keeps the translation of a record that one of its engines has gone on from (R240, R242). -/
def noteFetch (s : State) (pos : Nat) (c : Context) (p : EnginePos) (t : State) : State :=
  if t.ctx? pos = s.ctx? pos then t
  else
    match fetchParts s (c.who pos) p.addr with
    | .ok ps => t.noteParts (c.who pos) ps
    | .error _ => t

/-- What stands at a place: whether its record is one instruction, the slot's word, and what it decodes to. -/
structure SlotAt where
  led : Bool
  word : Word
  dec : Dec

/-- The slot at a place of a record. -/
def slotIn (r : BitVec 512) (k : Nat) : SlotAt :=
  { led := isLedRecord (slotsOf r 0), word := slotsOf r k, dec := decodeSlot (slotsOf r) k }

/-- Fetch the slot at a place. -/
def fetchSlot (s : State) (w : Who) (p : EnginePos) : Res SlotAt := do
  let r ← fetchRecord s w p.addr
  .ok (slotIn r p.slot)

/-- The engine code of a slot. -/
def SlotAt.eng (x : SlotAt) : Nat := (fld x.word 61 3).toNat

/-- An ALL slot (R189). -/
def SlotAt.isAll (x : SlotAt) : Bool := x.eng == 7

/-- A place inside a nest or subtree record (R27). -/
def SlotAt.inside (x : SlotAt) (p : EnginePos) : Bool := x.led && p.slot != 0

/-- The consumer or producer engine of a handle; SYN for an unconfigured one (R191). -/
def gateEngine (c : Context) (producer : Bool) (h : Nat) : Engine :=
  match c.handle? h with
  | some d => if producer then d.peng else d.ceng
  | none => .syn

/-- The engine that performs a slot (R187, R191); CTL for an ALL slot and for the reserved code. -/
def SlotAt.owner (x : SlotAt) (c : Context) : Engine :=
  match x.dec with
  | .ok (.waitf o) => gateEngine c false o.h.toNat
  | .ok (.advc o) => gateEngine c false o.h.toNat
  | .ok (.waite o) => gateEngine c true o.h.toNat
  | .ok (.advp o) => gateEngine c true o.h.toNat
  | .ok (.tksend o) => o.snd
  | .ok (.tkwait o) => o.rcv
  | _ =>
    match x.eng with
    | 1 => .vec | 2 => .mat | 3 => .spe | 4 => .mem | 5 => .syn | _ => .ctl

/-- The place after a slot that an engine passes. -/
def SlotAt.after (x : SlotAt) (p : EnginePos) : EnginePos := if x.led then p.nextRecord else p.next

/-- The place after a resolved ALL slot (R189). -/
def Resolved.after (r : Resolved) (p : EnginePos) : EnginePos :=
  { addr := r.addr, slot := r.slot, ord := if r.leaves then p.ord + 1 else p.ord, idx := p.idx + 1 }

/-- Whether a place names a nest record that an engine leads (R320). A place whose record cannot be fetched keeps its nest
position: the fetch faults, and its handler returns there. -/
def leadsAt (s : State) (w : Who) (e : Engine) (p : EnginePos) : Bool :=
  match fetchSlot s w p with
  | .error _ => true
  | .ok x =>
    match x.dec with
    | .ok (.nestIssue _ _) => x.eng == e.code
    | _ => false

/-- An instruction that serialises (R113, R196, R197, R221, R223, R224). -/
def serialises : Instr → Bool
  | .sysrd _ | .syswr _ | .syswrTshape _ | .syswrSpm _ | .syswrFpc _ | .syswrTxw _ => true
  | .chainEnable _ | .chainDisable _ | .chainFailedClear _ => true
  | .hcfg _ | .hstat _ | .bar _ | .phase | .launch _ | .endTask | .tret => true
  | _ => false

/-- A slot of the stream that some engine has still to perform: its number, its engine, what it decodes to. `lost` marks a place
from which on the stream cannot be fetched now. -/
structure Pending where
  idx : Nat
  eng : Engine
  instr : Instr
  lost : Bool := false

/-- The slots from a place on, before the slot numbered `stop`, that their engines have not passed, and every SBAR
among them (R190, R201). -/
def pendingFrom (s : State) (w : Who) (c : Context) (stop : Nat) : Nat → EnginePos → List Pending
  | 0, _ => []
  | fuel + 1, p =>
    if stop ≤ p.idx then []
    else
      match fetchSlot s w p with
      | .error _ => [{ idx := p.idx, eng := .ctl, instr := .nop, lost := true }]
      | .ok x =>
        let o := x.owner c
        let here : List Pending :=
          match x.dec with
          | .ok (.sbar sm) => [{ idx := p.idx, eng := o, instr := .sbar sm }]
          | .ok i => if (c.pos.get o).idx ≤ p.idx then [{ idx := p.idx, eng := o, instr := i }] else []
          | .error _ => []
        let next : Option EnginePos :=
          if x.isAll then (find? c.log p.idx).map fun r => r.after p else some (x.after p)
        match next with
        | some q => here ++ pendingFrom s w c stop fuel q
        | none => here

/-- The engine least far in program order. -/
def SixPos.last (p : SixPos) : Engine :=
  ([Engine.vec, .mat, .spe, .mem, .syn].foldl (fun a e => if (p.get e).idx < (p.get a).idx then e else a) Engine.ctl)

/-- What lagging engines have still to perform before the slot numbered `stop`. -/
def pendingBefore (s : State) (pos : Nat) (c : Context) (stop : Nat) : List Pending :=
  let p := c.pos.get c.pos.last
  if c.together || stop ≤ p.idx then [] else pendingFrom s (c.who pos) c stop (stop - p.idx) p

end Sys2Proof.Machine
end

