-- ==== Sys2Proof/Machine/Operands.lean ====
section
/-!
DEFINITION. Operand forms: the line a vector operand names as source or destination (spec/01 R16, R18, R22; spec/03 R71),
scalar addresses (R95), code addresses and branch conditions (R74), access widths (R75).
-/
namespace Sys2Proof.Machine

/-- A handle usable as an operand (R18): configured and not shared (R248). -/
def Context.needHandle (c : Context) (h : BitVec 5) : Res Handle :=
  match c.handle? h.toNat with
  | none => raise .hndl
  | some d => if d.shared then raise .hndl else .ok d

/-- The window line an operand names as a source, before the window check: a register, a line, or the head slot's
first line (R16, R18, R71). A scalar names no line. -/
def Context.srcLine (c : Context) (e : Engine) : Spec → Res Nat
  | .reg v => .ok (vecLine (c.rbase e) v.toNat)
  | .line n => .ok n.toNat
  | .handle h => do
    let d ← c.needHandle h
    .ok (d.base + c.seen e (.head h.toNat) * d.size)
  | .scalar _ => raise .illop

/-- The window line an operand names as a destination: the tail slot's first line for a handle (R18). -/
def Context.dstLine (c : Context) (e : Engine) : Spec → Res Nat
  | .reg v => .ok (vecLine (c.rbase e) v.toNat)
  | .line n => .ok n.toNat
  | .handle h => do
    let d ← c.needHandle h
    .ok (d.base + c.seen e (.tail h.toNat) * d.size)
  | .scalar _ => raise .illop

/-- A source line inside the window (R22). -/
def Context.srcLineIn (c : Context) (e : Engine) (x : Spec) : Res Nat := do
  let n ← c.srcLine e x
  c.needLine n
  .ok n

/-- A destination line inside the window (R22). -/
def Context.dstLineIn (c : Context) (e : Engine) (x : Spec) : Res Nat := do
  let n ← c.dstLine e x
  c.needLine n
  .ok n

/-- A scalar address with an offset, as a 56-bit virtual address (R95). The sum before it is cut decides alignment. -/
def Context.addr (c : Context) (e : Engine) (base : Reg) (off : BitVec 24) : Nat :=
  (c.rdS e base + off.signExtend 64).toNat

/-- The bytes of a width (R75). -/
def memBytes : MemW → Nat
  | .b8 | .i8 => 1 | .b16 | .i16 => 2 | .b32 | .i32 => 4 | .w64 => 8

/-- A loaded value extended to 64 bits (R75, R95). -/
def memExtend (w : MemW) (v : Nat) : Word :=
  match w with
  | .i8 => (BitVec.ofNat 8 v).signExtend 64
  | .i16 => (BitVec.ofNat 16 v).signExtend 64
  | .i32 => (BitVec.ofNat 32 v).signExtend 64
  | _ => BitVec.ofNat 64 v

/-- A branch target from SLOT and OFF: OFF records from the record of the branch (R74). -/
def targetAddr (p : EnginePos) (off : BitVec 30) : Nat :=
  (((p.addr : Int) + 64 * off.toInt) % (2 ^ 56 : Int)).toNat

/-- A condition CK on register X (R74). -/
def Context.cond (c : Context) (e : Engine) (ck : CondKind) (x : Reg) : Bool :=
  match ck with
  | .nz => c.rdS e x != 0
  | .z => c.rdS e x == 0
  | .lt => (c.rdS e x).toInt < 0
  | .ge => 0 ≤ (c.rdS e x).toInt
  | .any => c.rdP e (x.toNat % 16) != 0
  | .none => c.rdP e (x.toNat % 16) == 0

end Sys2Proof.Machine
end

