-- ==== Sys2Proof/Machine/Classes.lean ====
section
/-!
DEFINITION. The groups of barriers, and the effective class of a task: its own and what is lent to it (spec/09 R205;
spec/10 R211, R223, R226).
-/
namespace Sys2Proof.Machine

/-- The level number that stands for PHASE. -/
def phaseLevel : Nat := 6

/-- What tells a task's group at a level from the others (R211, R223). -/
def barGroup (l : Launch) (wid k : Nat) : Nat := if k = phaseLevel then 0 else groupOf l.hdr wid k


/-- A task as lending sees it: its class, its arrivals at each level, and the level at which it waits. -/
structure Member where
  lid : Nat
  wid : Nat
  cls : Nat
  counts : Store Nat := []
  wait : Option Nat := none

/-- A task with a context, resident or saved. -/
def Context.member (c : Context) : Member := ⟨c.bind.lid, c.bind.wid, c.r.cls, c.barCount, c.barWait⟩

/-- The class with which the tasks of a launch start: its initial class, and no more than its grant, which its parent's limits (R209,
R224). That a child whose initial class is above the limited grant is admitted, and starts at the grant, is a DESIGN CHOICE
(log 65). -/
def startClass (l : Launch) : Nat := min (hdrClass l.hdr) l.grant

/-- A task that has not been bound yet: its initial class, and no arrival (R226). -/
def unboundMember (lid : Nat) (l : Launch) (wid : Nat) : Member := { lid := lid, wid := wid, cls := startClass l }

/-- Every live task: resident ones and pre-empted ones, which still lend. -/
def allTasks (s : State) : List Context := s.ctxs.map (·.2) ++ s.saved.map fun e => e.2.ctx

/-- A task that waits at a barrier lends to a member that has not arrived (R205). -/
def lends (s : State) (y x : Member) : Bool :=
  y.lid == x.lid &&
    match y.wait, s.launch? y.lid with
    | some k, some l => barGroup l y.wid k == barGroup l x.wid k && lookD x.counts k 0 < lookD y.counts k 0
    | _, _ => false

/-- One round of lending over tasks with their classes so far. -/
def lendRound (s : State) (xs : List (Member × Nat)) : List (Member × Nat) :=
  xs.map fun x => (x.1, xs.foldl (fun m y => if lends s y.1 x.1 then max m y.2 else m) x.2)

/-- Lending is transitive: a chain of lenders has no more edges than there are waiting tasks. -/
def lendRounds (s : State) : Nat → List (Member × Nat) → List (Member × Nat)
  | 0, xs => xs
  | n + 1, xs => lendRounds s n (lendRound s xs)

/-- The effective class EC of a task, among the live ones (R205, R226). -/
def effOf (s : State) (x : Member) : Nat :=
  let ms := (allTasks s).map (·.member)
  let ys := lendRounds s (ms.filter fun y => y.wait.isSome).length (ms.map fun y => (y, y.cls))
  ys.foldl (fun m y => if lends s y.1 x then max m y.2 else m) x.cls

/-- The effective class of a context. -/
def effClass (s : State) (c : Context) : Nat := effOf s c.member

end Sys2Proof.Machine
end

