-- ==== Sys2Proof/Machine/Residency.lean ====
section
/-!
DEFINITION. Storage units of a core: what resident contexts use, and the eviction of a pre-empted owner's units
(spec/11 R230; spec/14 R330).
-/
namespace Sys2Proof.Machine

/-- Kinds of storage a core gives out (R330). -/
inductive Space where
  | plates | tiles | slots | ybanks
deriving DecidableEq, Repr

/-- How much of a kind a core has: plates, KiB of accumulator store, operand slots, y banks of its four contexts
(Table 62, R146, R152, R330). -/
def Space.total : Space → Nat
  | .plates => 64 | .tiles => 1024 | .slots => 64 | .ybanks => 64

/-- KiB of a tile under its TSHAPE (R146); 0 when unconfigured. -/
def tileKib (w : Word) : Nat :=
  let n := w.toNat
  let a := bitsOf n 2 4 * bitsOf n 6 4
  match n % 4 with
  | 0 => 0
  | 2 => 2 * a
  | _ => a

/-- What a context uses of a kind. -/
def useOf (c : Context) : Space → Nat
  | .plates => c.bind.window
  | .tiles => (c.mat.tshape.map fun e => tileKib e.2).sum
  | .slots => c.mat.oslots.length
  | .ybanks => 16

/-- The contexts resident on a core. -/
def residents (s : State) (core : Nat) : List Context := (s.ctxs.filter fun e => coreOf e.1 == core).map (·.2)

/-- What the resident contexts of a core use. -/
def residentUse (s : State) (core : Nat) (k : Space) : Nat := ((residents s core).map fun c => useOf c k).sum

/-- The saved task that owns a unit. -/
def savedOf? (s : State) (lid wid : Nat) : Option Saved :=
  match s.saved.find? (fun e => e.2.ctx.bind.lid == lid && e.2.ctx.bind.wid == wid) with
  | some e => some e.2
  | none => none

/-- The kind of a unit, and its number. -/
def UnitKind.space : UnitKind → Space
  | .plate _ => .plates | .tile _ => .tiles | .slot _ => .slots | .ybank _ => .ybanks

def UnitKind.number : UnitKind → Nat
  | .plate n | .tile n | .slot n | .ybank n => n

/-- The space a unit takes. -/
def unitSize (s : State) (u : UnitRes) : Nat :=
  match u.kind, savedOf? s u.lid u.wid with
  | .tile t, some v => tileKib (lookD v.ctx.mat.tshape t 0)
  | _, _ => 1

/-- The units of a kind that stay on a core. -/
def unitsOf (s : State) (core : Nat) (k : Space) : List UnitRes := (s.core core).units.filter fun u => u.kind.space == k

/-- Whether a unit may be evicted: a plate in a window region of a card in flight may not (R313, R330). -/
def evictable (s : State) (u : UnitRes) : Bool :=
  match u.kind with
  | .plate n => !(s.cards.any fun e => e.2.of u.lid u.wid && e.2.inFlight &&
      (cardRegions e.2.line).any fun r => r.window && rangesMeet r.addr r.len (32768 * n) 32768)
  | _ => true

/-- Whether the save area holds a copy of a unit that has not been written since (R330). -/
def isClean (s : State) (u : UnitRes) : Bool :=
  match savedOf? s u.lid u.wid with
  | some v => v.ctx.clean.contains u.kind
  | none => false

/-- R330's order of victims as one number: clean first, then the owner's effective class, the time of its pre-emption, the
unit's number. -/
def victimRank (s : State) (u : UnitRes) : Nat :=
  let o := savedOf? s u.lid u.wid
  let cls := match o with | some v => effClass s v.ctx | none => 0
  let ord := match o with | some v => v.order | none => 0
  (if isClean s u then 0 else 2 ^ 72) + cls * 2 ^ 68 + ord * 2 ^ 8 + u.kind.number

/-- The victim, if any (R330). -/
def victim? (s : State) (core : Nat) (k : Space) : Option UnitRes :=
  ((unitsOf s core k).filter (evictable s)).foldl (fun b u => match b with
    | none => some u
    | some v => some (if victimRank s u < victimRank s v then u else v)) none

/-! The plate table (R230, R231). -/

/-- Whether an entry of a core's plate table is a task's plate. The owner tag of Table 63 is the bind position and the launch
id; two tasks of one launch may have had one position, so the core keeps whose it is. -/
def plateOf (k : Core) (lid wid : Nat) (e : Nat × Word) : Bool :=
  bitsOf e.2.toNat 0 1 == 1 && bitsOf e.2.toNat 16 32 == lid % 2 ^ 32 && lookD k.owner e.1 0 == wid

/-- The window plate of an entry (Table 63). -/
def plateWpl (w : Word) : Nat := bitsOf w.toNat 3 5

/-- Change the entries of a task's plates. -/
def Core.updPlates (k : Core) (lid wid : Nat) (f : Word → Word) : Core :=
  { k with plates := k.plates.map fun e => if plateOf k lid wid e then (e.1, f e.2) else e }

/-- Free a task's plates: all, or those that a test of the window plate names. -/
def Core.freePlates (k : Core) (lid wid : Nat) (p : Nat → Bool) : Core :=
  k.updPlates lid wid fun w => if p (plateWpl w) then w &&& ~~~1 else w

/-- A plate table entry as the management aperture reads it (Table 63): DIRTY is 0 while the save area holds a copy of the
plate that has not been written since (R231, R330). -/
def plateEntry (s : State) (core n : Nat) : Word :=
  let k := s.core core
  let w := lookD k.plates n 0
  let dirty := !((taskCtx? s (bitsOf w.toNat 16 32) (lookD k.owner n 0)).any fun c => c.clean.contains (.plate (plateWpl w)))
  if bitsOf w.toNat 0 1 = 1 ∧ dirty then w ||| 4 else w

/-- Evict one unit (R330): it is freed, and from now on the save area, which the saved context holds, has its contents. -/
def evictOne (s : State) (core : Nat) (u : UnitRes) : State :=
  let k := s.core core
  let k1 := match u.kind with
    | .plate n => k.freePlates u.lid u.wid (· == n)
    | _ => k
  updTask (s.setCore core { k1 with units := k.units.erase u }) u.lid u.wid fun c =>
    { c with clean := if c.clean.contains u.kind then c.clean else u.kind :: c.clean }

/-- Evict until `need` more fit, or nothing evictable is left (R330). -/
def evictFor (core : Nat) (k : Space) (need : Nat) : Nat → State → State
  | 0, s => s
  | fuel + 1, s =>
    if residentUse s core k + ((unitsOf s core k).map (unitSize s)).sum + need ≤ k.total then s
    else match victim? s core k with
      | none => s
      | some u => evictFor core k need fuel (evictOne s core u)

/-- Make room on a core (R330). -/
def makeRoom (s : State) (core : Nat) (k : Space) (need : Nat) : State :=
  evictFor core k need (s.core core).units.length s

/-- How much of a kind a core can still give: what is free, and what pre-empted owners hold that may be evicted (R313,
R330). -/
def canGive (s : State) (core : Nat) (k : Space) (need : Nat) : Bool :=
  residentUse s core k + (((unitsOf s core k).filter fun u => !evictable s u).map (unitSize s)).sum + need ≤ k.total

/-- The end of a task takes effect (R32, R219, R231, R222): its position, plates and units are freed, its cards
are done with, and its launch counts it. -/
def finishTask (s : State) (pos : Nat) (c : Context) (faulted : Bool) : State :=
  let d := dieOf pos
  let lid := c.bind.lid
  let die := s.die d
  let s1 := { s with ctxs := del s.ctxs pos, cards := s.cards.filter fun e => !e.2.of lid c.bind.wid }
  let s2 := s1.setDie d { die with slots := del die.slots (pos % 128) }
  let k := s2.core (coreOf pos)
  let s3 := s2.setCore (coreOf pos)
    { k.freePlates lid c.bind.wid (fun _ => true) with
      units := k.units.filter fun u => !(u.lid == lid && u.wid == c.bind.wid) }
  let s4 := match s3.launch? lid with
    | none => s3
    | some l => s3.setLaunch lid
        { l with
          left := l.left - 1
          faulted := l.faulted || faulted
          endedTasks := l.endedTasks ++ [({ wid := c.bind.wid, arrivals := c.barCount } : EndedTask)] }
  s4.report (.positionFree pos)

end Sys2Proof.Machine
end

