-- ==== Sys2Proof/Machine/Flow.lean ====
section
/-!
DEFINITION. The ALL slots: branches, calls, LOOP, END and TRET (spec/04 R102 to R107; spec/13 R313; spec/14 R320, R321).
The fetch of a target faults at the target (R25, R27, R102), so a branch's own effects remain.
-/
namespace Sys2Proof.Machine

/-- BR (R103). -/
def execBr (o : BrOp) (s : State) : HO :=
  runC s fun _ c => .ok (c.branchTo (targetAddr (c.posOf .ctl) o.off) o.slot.toNat)

/-- BC (R103). -/
def execBc (o : BcOp) (s : State) : HO :=
  runC s fun _ c =>
    .ok (if c.cond .ctl o.ck o.x then c.branchTo (targetAddr (c.posOf .ctl) o.off) o.slot.toNat
         else c.branchPast)

/-- CALL: the link is the code address word of PC.next (R104). -/
def execCall (o : CallOp) (s : State) : HO :=
  runC s fun _ c =>
    let p := c.posOf .ctl
    .ok ((c.wrS o.x (BitVec.ofNat 64 p.next.word)).branchTo (targetAddr p o.off) o.slot.toNat)

/-- RET (R104). -/
def execRet (x : Reg) (s : State) : HO :=
  runC s fun _ c =>
    let w := (c.rdS .ctl x).toNat
    .ok (c.branchTo (codeAddr w) (codeSlot w))

/-- JMPT (R105). -/
def execJmpt (o : JmptOp) (s : State) : HO :=
  runS s fun _ c => do
    let a := (c.rdS .ctl o.y + 8 * c.rdS .ctl o.x).toNat
    let w := c.who s.cur
    let (v, ps) ← readMem s w c.r.gver notWs 8 a 8
    .ok ((s.noteParts w ps).setCtx s.cur (c.branchTo (codeAddr v) (codeSlot v)))

/-- A pass of LOOP: RBASE and the p8 of the next pass (R16, R106). -/
def Context.loopPass (c : Context) (r : Reg) (v : Word) (p8 : BitVec 128) : Context :=
  let rb := (c.r.rbase + 31) % 32
  ((c.wrS r v).wrRbase rb).wrPhys (predPhys rb 8) p8

/-- LOOP (R106). -/
def execLoop (o : LoopOp) (s : State) : HO :=
  runC s fun _ c =>
    let n := c.rdS .ctl o.x
    let k := c.rdS .ctl o.y
    let t := targetAddr (c.posOf .ctl) o.off
    .ok (if 0 < n.toInt then (c.loopPass o.x (n - 1) ones128).branchTo t o.slot.toNat
         else if 0 < k.toInt then (c.loopPass o.y (k - 1) 0).branchTo t o.slot.toNat
         else c.branchPast)

/-- END of a task that its handler or the firmware ends (R313, R321): the recorded releases have taken effect (R207). -/
def forcedEnd (s : State) (pos : Nat) (c : Context) : State :=
  if requestsOut s c.bind.lid c.bind.wid || !(cardsSettled s c.bind.lid c.bind.wid c) then s
  else
    let (s1, c1) := applyReleases pos s c
    let s2 := discardStuck (s1.setCtx pos c1) c.bind.lid c.bind.wid
    let c2 := (s2.ctx? pos).getD c1
    if cardsSettled s2 c.bind.lid c.bind.wid c2 then finishTask s2 pos c2 true else s

/-- The ECCU of an earlier RED, raised by END or FENCE (R277). -/
def redTrap (r : RedErr) (eng : Nat) : Trap :=
  { code := .eccu, eng := some eng, addr := r.addr, slot := some r.slot }

/-- END (R32, R107, R166, R272, R277, R313): a handler's END ends the task with FAULTED (R321); the ECCU of a RED before it is a
double fault there (R319). -/
def execEndTask (s : State) : HO :=
  match s.ctx? s.cur with
  | none => .fault .noContext
  | some c =>
    if c.ending then .next (forcedEnd s s.cur c)
    else
      match c.redErrs with
      | r :: rest => .next (takeTrap s s.cur { c with redErrs := rest } .ctl (redTrap r 7))
      | [] =>
        if c.handler then .next (forcedEnd s s.cur c)
        else if c.mat.running || c.mat.go || !c.releases.isEmpty || requestsOut s c.bind.lid c.bind.wid ||
            !(cardsSettled s c.bind.lid c.bind.wid c) then .next s
        else
          match failedChain? c with
          | some q =>
            .next (takeTrap s s.cur c .ctl (chainTrap s c.bind.lid c.bind.wid q (c.chain q) (some 7)))
          | none => .next (finishTask s s.cur c false)

/-- TRET (R107, R320). -/
def execTret (s : State) : HO :=
  runC s fun _ c =>
    if c.handler then .ok (leaveHandler (fun e => leadsAt s (c.who s.cur) e ((resumePoints c).get e)) c)
    else raise .illop

end Sys2Proof.Machine
end

