-- ==== Sys2Proof/Machine/Flags.lean ====
section
/-!
DEFINITION. The sticky flags (spec/02 R46): what an operation over many elements raises, and their merging into FLAGS.
-/
namespace Sys2Proof.Machine

/-- The flags of all elements together (R46). -/
def orFlags : List Flags → Flags
  | [] => 0
  | f :: r => f ||| orFlags r

/-- The codes and the merged flags of a list of results. -/
def unzipFlags (xs : List (Nat × Flags)) : List Nat × Flags :=
  (xs.map (·.1), orFlags (xs.map (·.2)))

/-- A result delivered to a scalar with its flags (R96): the context with `s[d]` and FLAGS written. -/
def Context.deliverS (c : Context) (d : Reg) (r : Nat × Flags) : Context :=
  (c.wrS d (BitVec.ofNat 64 r.1)).addFlags r.2

/-- FLAGS as a word (Table 3). -/
def Context.flagsWord (c : Context) : Word := c.r.flags.setWidth 64

end Sys2Proof.Machine
end

