-- ==== Sys2Proof/Machine/Quant.lean ====
section
/-!
DEFINITION. Block formats, the quantiser and the Hadamard rotation (spec/02 R39 to R42, R49 to R53).
-/
namespace Sys2Proof.Machine

/-- The block formats by BFMT code (Table 9). -/
inductive BFmt where
  | mxf8e4 | mxf8e5 | mxf6e2 | mxf6e3 | mxf4 | mxi8 | o4 | o8 | o4x
deriving DecidableEq, Repr

/-- The format of a BFMT code; 0 is a plain type and 10 to 15 are reserved (R39). -/
def BFmt.ofCode : Nat → Option BFmt
  | 1 => some .mxf8e4 | 2 => some .mxf8e5 | 3 => some .mxf6e2 | 4 => some .mxf6e3 | 5 => some .mxf4
  | 6 => some .mxi8 | 7 => some .o4 | 8 => some .o8 | 9 => some .o4x | _ => none

/-- Bits of an element code (Table 9). -/
def BFmt.bits : BFmt → Nat
  | .mxf8e4 | .mxf8e5 | .mxi8 | .o8 => 8
  | .mxf6e2 | .mxf6e3 => 6
  | .mxf4 | .o4 | .o4x => 4

/-- Element bytes of a block (Table 9). -/
def BFmt.elemBytes (f : BFmt) : Nat := 4 * f.bits

/-- Metadata bytes of a block (Table 9, R132). -/
def BFmt.metaBytes : BFmt → Nat
  | .o4 | .o8 | .o4x => 4
  | _ => 1

/-- The element format of an MX floating-point block. -/
def BFmt.elem : BFmt → Option Fmt
  | .mxf8e4 => some .e4m3 | .mxf8e5 => some .e5m2 | .mxf6e2 => some .e2m3 | .mxf6e3 => some .e3m2
  | .mxf4 => some .e2m1 | _ => none

/-- emax of R49. -/
def BFmt.emax : BFmt → Int
  | .mxf8e4 => 8 | .mxf8e5 => 15 | .mxf6e2 => 2 | .mxf6e3 => 4 | .mxf4 => 2
  | .mxi8 => 0 | .o4 => 2 | .o4x => 2 | .o8 => 6

/-- A value under an E8M0 scale (R40). -/
def scaled (s : Nat) (v : Val) : Val := if s = 255 then .nan false else v.scale2 ((s : Int) - 127)

/-- One element of a block other than O4X, from its code, scale and zero point (R40, R41). -/
def BFmt.elemVal (f : BFmt) (s z code : Nat) : Val :=
  scaled s (match f.elem with
    | some g => g.decode code
    | none => if f = .mxi8 then (Val.ofInt (intOf true 8 code)).scale2 (-6) else .ofInt ((code : Int) - z))

/-- O4X decoding of the pairs from `k` on, with `n` outliers met (R42). Where the scale is NaN, R42's pseudocode gives the partner
slot of a marked pair +0, and R40 and R41 make every value NaN: the model takes NaN for the partner too, a DESIGN CHOICE
(log 17). -/
def o4xVals (s z side : Nat) (code : Nat → Nat) : Nat → Nat → Nat → List Val
  | 0, _, _ => []
  | fuel + 1, k, n =>
    let a := code (2 * k)
    let b := code (2 * k + 1)
    if n < 4 ∧ (a = 15 ∨ b = 15) then
      let side4 := side / 16 ^ n % 16
      let out (q : Nat) : Val := scaled s (Fmt.e4m3.decode (side4 * 16 + q))
      (if a = 15 then [out b, scaled s (.fin false 0 0)] else [scaled s (.fin false 0 0), out a]) ++
        o4xVals s z side code fuel (k + 1) (n + 1)
    else
      [scaled s (.ofInt ((a : Int) - z)), scaled s (.ofInt ((b : Int) - z))] ++
        o4xVals s z side code fuel (k + 1) n

/-- The 32 exact values of a block, from its element field and its metadata (R40 to R42). -/
def BFmt.decodeBlock (f : BFmt) (els hdr : Nat) : List Val :=
  let s := hdr % 256
  let code (i : Nat) : Nat := els / 2 ^ (f.bits * i) % 2 ^ f.bits
  match f with
  | .o4x => o4xVals s (hdr / 256 % 16) (hdr / 4096 % 65536) code 16 0 0
  | .o8 => (List.range 32).map fun i => f.elemVal s (hdr / 256 % 256) (code i)
  | .o4 => (List.range 32).map fun i => f.elemVal s (hdr / 256 % 16) (code i)
  | _ => (List.range 32).map fun i => f.elemVal s 0 (code i)

/-- A quantised block: its element field, its metadata, the flags of each element and of the block as a whole. -/
structure QBlock where
  els : Nat
  hdr : Nat
  flags : List Flags
  all : Flags
deriving DecidableEq, Repr

/-- The zero point the quantiser writes (R49). -/
def BFmt.zero : BFmt → Nat
  | .o4 | .o4x => 8
  | .o8 => 128
  | _ => 0

/-- A block of one element code (R50). -/
def BFmt.constBlock (f : BFmt) (scale code : Nat) (all : Flags) : QBlock :=
  ⟨packEls f.bits (List.replicate 32 code), scale + f.zero * 256, List.replicate 32 0, all⟩

/-- The element code of a NanBlock (R50). -/
def BFmt.nanCode : BFmt → Nat
  | .mxf8e4 => 0x7F | .mxf8e5 => 0x7E
  | f => f.zero

/-- Round to an integer and clamp; clamping sets NX (R49). -/
def clampInt (mode : RMode) (lo hi : Int) (v : Val) : Int × Flags :=
  match v with
  | .fin neg n e =>
    let (x, inexact) := roundInt mode neg n e
    if x < lo then (lo, fNX) else if hi < x then (hi, fNX) else (x, if inexact then fNX else 0)
  | _ => (0, 0)

/-- Saturation within Elem sets NX and never OF (R49). -/
def noOF (f : Flags) : Flags := if f &&& fOF = 0 then f else (f &&& ~~~fOF) ||| fNX

/-- Elem (R49): an element already divided by `2^e`. -/
def BFmt.quantElem (f : BFmt) (mode : RMode) (v : Val) : Nat × Flags :=
  match f.elem with
  | some g => let (c, fl) := g.round mode v; (c, noOF fl)
  | none =>
    match f with
    | .mxi8 => let (d, fl) := clampInt mode (-127) 127 (v.scale2 6); (intCode 8 d, fl)
    | .o8 => let (d, fl) := clampInt mode (-128) 127 v; ((d + 128).toNat, fl)
    | .o4x => let (d, fl) := clampInt mode (-8) 6 v; ((d + 8).toNat, fl)
    | _ => let (d, fl) := clampInt mode (-8) 7 v; ((d + 8).toNat, fl)

/-- Magnitudes of finite values in units of `2^m`. -/
def magsAt (m : Int) : List Val → List Nat
  | [] => []
  | .fin _ n e :: r => (if n = 0 then 0 else n <<< (e - m).toNat) :: magsAt m r
  | _ :: r => 0 :: magsAt m r

/-- The index of the greatest eligible magnitude, lowest index first on ties. -/
def bestOf (mags : List Nat) (taken : List Nat) : Nat → Nat → Option Nat → Option Nat
  | 0, _, b => b
  | fuel + 1, i, b =>
    let x := mags.getD i 0
    let ok := x != 0 && !taken.contains i && !taken.contains (i ^^^ 1)
    let better := match b with
      | none => true
      | some j => decide (mags.getD j 0 < x)
    bestOf mags taken fuel (i + 1) (if ok && better then some i else b)

/-- The outlier set of O4X: up to four, in the order of R51. -/
def outliers (mags : List Nat) : Nat → List Nat → List Nat
  | 0, acc => acc
  | n + 1, acc =>
    match bestOf mags acc 32 0 none with
    | none => acc
    | some i => outliers mags n (acc ++ [i])

/-- An O4X outlier's code, divided by `2^e` already (R51). -/
def outlierCode (mode : RMode) (i : Nat) (v : Val) : Nat × Flags :=
  let (c, fl) := Fmt.e4m3.round mode v
  let fl := noOF fl
  if i % 2 = 1 ∧ c % 16 = 15 then (c - 1, fl ||| fNX) else (c, fl)

/-- ⌊log2⌋ of a magnitude in units of `2^m`. -/
def log2At (m : Int) (x : Nat) : Int := (Nat.log2 x : Int) + m

/-- The derived exponent clamped, and QUF (R49). -/
def clampExp (e : Int) : Int × Flags :=
  if e < -127 then (-127, fQUF) else if 127 < e then (127, 0) else (e, 0)

/-- QuantBlock for O4X, with amax finite and nonzero (R51). -/
def quantO4x (xs : List Val) (mode : Nat → RMode) (m : Int) (mags : List Nat) (amax : Nat) : QBlock :=
  let o := outliers mags 4 []
  let rest := (List.range 32).filter fun i => i ∉ o ∧ (i ^^^ 1) ∉ o
  let ain := (rest.map fun i => mags.getD i 0).foldl max 0
  let eo := log2At m amax - 8
  let (e, qf) := clampExp (if ain = 0 then eo else max (log2At m ain - 2) eo)
  let out (i : Nat) : Nat × Flags := outlierCode (mode i) i ((xs.getD i (.fin false 0 0)).scale2 (-e))
  let code (i : Nat) : Nat × Flags :=
    if i ∈ o then (15, (out i).2)
    else if (i ^^^ 1) ∈ o then ((out (i ^^^ 1)).1 % 16, 0)
    else BFmt.quantElem .o4x (mode i) ((xs.getD i (.fin false 0 0)).scale2 (-e))
  let cs := (List.range 32).map code
  let sides := ((List.range 32).filter fun i => i ∈ o).map fun i => (out i).1 / 16
  ⟨packEls 4 (cs.map (·.1)), (e + 127).toNat + 8 * 256 + packEls 4 sides * 4096, cs.map (·.2), qf⟩

/-- QuantBlock (R49, R50, R51); `mode i` is the rounding of element i. -/
def BFmt.quantBlock (f : BFmt) (xs : List Val) (mode : Nat → RMode) : QBlock :=
  if xs.any Val.isNan then f.constBlock 255 f.nanCode fIV
  else if xs.any Val.isInf then f.constBlock 255 f.nanCode 0
  else
    let m := (minExp xs).getD 0
    let mags := magsAt m xs
    let amax := mags.foldl max 0
    if amax = 0 then f.constBlock 0 f.zero 0
    else if f = .o4x then quantO4x xs mode m mags amax
    else
      let (e, qf) := clampExp (log2At m amax - f.emax)
      let cs := (List.range 32).map fun i => f.quantElem (mode i) ((xs.getD i (.fin false 0 0)).scale2 (-e))
      ⟨packEls f.bits (cs.map (·.1)), (e + 127).toNat + f.zero * 256, cs.map (·.2), qf⟩

/-- Parity of the one bits of a five-bit number. -/
def parity5 (x : Nat) : Bool := (x + x / 2 + x / 4 + x / 8 + x / 16) % 2 == 1

/-- A value with its sign inverted on a condition. -/
def Val.flipIf (b : Bool) (v : Val) : Val := if b then v.negate else v

/-- HadFwd of 32 values with a sign word; each output is an exact sum (R53). -/
def hadFwd (mode : RMode) (sgn : Nat) (xs : List Val) : List (Val × Flags) :=
  (List.range 32).map fun i => sumVals mode ((List.range 32).map fun j =>
    (xs.getD j (.fin false 0 0)).flipIf (parity5 (i &&& j) != (sgn / 2 ^ j % 2 == 1)))

/-- HadInv of 32 values with a sign word, scaled exactly by 2^−5 (R53). -/
def hadInv (mode : RMode) (sgn : Nat) (ys : List Val) : List (Val × Flags) :=
  (List.range 32).map fun i =>
    let (v, fl) := sumVals mode ((List.range 32).map fun j =>
      (ys.getD j (.fin false 0 0)).flipIf (parity5 (i &&& j) != (sgn / 2 ^ i % 2 == 1)))
    (v.scale2 (-5), fl)

end Sys2Proof.Machine
end

