-- ==== Sys2Proof/Machine/Special.lean ====
section
/-!
DEFINITION. The special functions and the activations as exact values (spec/05 R126, R127; spec/06 R163). A value that is
no number of the format is carried to hundreds of bits with a last bit that stands for "and something more" (log 7).
-/
namespace Sys2Proof.Machine

/-- `⌊v × 2^e⌋`. -/
def shiftInt (v : Nat) (e : Int) : Nat := if 0 ≤ e then v <<< e.toNat else v >>> (-e).toNat

/-- Σ t·r^j / (2j + 1) with `r = num / den`: the series of atanh and, with `alt`, of arctan. -/
def oddSeries (alt : Bool) (num den : Nat) : Nat → Nat → Nat → Int → Int
  | 0, _, _, acc => acc
  | fuel + 1, j, t, acc =>
    if t = 0 then acc
    else
      let x : Int := ((t / (2 * j + 1) : Nat) : Int)
      oddSeries alt num den fuel (j + 1) (t * num / den) (if alt && j % 2 == 1 then acc - x else acc + x)

/-- ln 2 at `p` bits. -/
def ln2Fix (p : Nat) : Nat := (2 * oddSeries false 1 9 p 0 (2 ^ p / 3) 0).toNat

/-- arctan(1 / x) at `p` bits. -/
def atanInv (p x : Nat) : Int := oddSeries true 1 (x * x) p 0 (2 ^ p / x) 0

/-- π at `p` bits. -/
def piFix (p : Nat) : Nat := (16 * atanInv p 5 - 4 * atanInv p 239).toNat

/-- ln m at `p` bits, for `2^p ≤ m < 2^(p+1)`. -/
def lnFix (p m : Nat) : Nat :=
  let z := ((m - 2 ^ p) <<< p) / (m + 2 ^ p)
  (2 * oddSeries false (z * z) (2 ^ (2 * p)) p 0 z 0).toNat

/-- The exponential series at `p` bits: Σ t^k / k!. -/
def expSeries (p t : Nat) : Nat → Nat → Nat → Nat → Nat
  | 0, _, _, acc => acc
  | fuel + 1, k, term, acc =>
    if term = 0 then acc else expSeries p t fuel (k + 1) (((term * t) >>> p) / (k + 1)) (acc + term)

/-- `e^(a / 2^p)` as `S × 2^(k − p)`. -/
def expPos (p a : Nat) : Nat × Nat :=
  let l := ln2Fix p
  let k := a / l
  (expSeries p (a - k * l) p 0 (2 ^ p) 0, k)

/-- A positive value `q × 2^-b` and something more. -/
def sticky (neg : Bool) (q b : Nat) : Val := .fin neg (2 * q + 1) (-(b : Int) - 1)

/-- A value just below 1. -/
def justBelowOne (neg : Bool) : Val := .fin neg (2 ^ 600 - 1) (-600)

/-- A value far below every format. -/
def tiny (neg : Bool) : Val := .fin neg 1 (-40000)

/-- The working precision for an argument `n × 2^e`. -/
def workBits (n : Nat) (e : Int) : Nat := 512 + 2 * Nat.log2 n + 2 * e.natAbs

/-- Whether `n × 2^e ≥ 2^k`. -/
def atLeast (n : Nat) (e : Int) (k : Int) : Bool := k ≤ (Nat.log2 n : Int) + e

/-- NaN in, NaN out (R43). -/
def nanOut (sig : Bool) : Val × Flags := (.nan false, if sig then fIV else 0)

/-- 1 / √x (R126, R127). -/
def rsqrtVal (x : Val) : Val × Flags :=
  match x with
  | .nan s => nanOut s
  | .inf s => if s then (.nan false, fIV) else (.fin false 0 0, 0)
  | .fin s n e =>
    if n = 0 then (.inf s, fDZ)
    else if s then (.nan false, fIV)
    else
      let odd := e % 2 == 1
      let n' := if odd then 2 * n else n
      let e' := if odd then e - 1 else e
      let b := 256 + Nat.log2 n'
      let r := isqrt (2 ^ (2 * b) / n')
      let exact := r * r * n' == 2 ^ (2 * b)
      (.fin false (2 * r + (if exact then 0 else 1)) (-(b : Int) - e' / 2 - 1), 0)

/-- 1 / x (R126, R127). -/
def rcpVal (x : Val) : Val × Flags := divVal (.fin false 1 0) x

/-- 2^x (R126, R127). -/
def exp2Val (x : Val) : Val × Flags :=
  match x with
  | .nan s => nanOut s
  | .inf s => (if s then .fin false 0 0 else .inf false, 0)
  | .fin s n e =>
    if n = 0 then (.fin false 1 0, 0)
    else if atLeast n e 16 then (if s then tiny false else .fin false 1 40000, 0)
    else
      let p := workBits n e
      let a := shiftInt n (e + p)
      let k := a >>> p
      let f := a % 2 ^ p
      let ki : Int := k
      if f = 0 then (.fin false 1 (if s then -ki else ki), 0)
      else
        let up := if s then 2 ^ p - f else f
        let base : Int := if s then -ki - 1 else ki
        let m := expSeries p ((up * ln2Fix p) >>> p) p 0 (2 ^ p) 0
        (.fin false (2 * m + 1) (base - p - 1), 0)

/-- log2 x (R126, R127). -/
def log2Val (x : Val) : Val × Flags :=
  match x with
  | .nan s => nanOut s
  | .inf s => if s then (.nan false, fIV) else (.inf false, 0)
  | .fin s n e =>
    if n = 0 then (.inf true, fDZ)
    else if s then (.nan false, fIV)
    else
      let l := Nat.log2 n
      let ex : Int := e + l
      if n = 2 ^ l then (Val.ofInt ex, 0)
      else
        let p := 512 + 2 * l
        let m := (n <<< p) >>> l
        let g := (lnFix p m <<< p) / ln2Fix p
        let r : Int := ex * 2 ^ p + g
        (.fin (r < 0) (2 * r.natAbs + 1) (-(p : Int) - 1), 0)

/-- tanh x (R126, R127). -/
def tanhVal (x : Val) : Val × Flags :=
  match x with
  | .nan s => nanOut s
  | .inf s => (.fin s 1 0, 0)
  | .fin s n e =>
    if n = 0 then (.fin s 0 0, 0)
    else if atLeast n e 8 then (justBelowOne s, 0)
    else
      let p := workBits n e
      let (m, k) := expPos p (shiftInt n (e + p + 1))
      let ex := m <<< k
      (sticky s (((ex - 2 ^ p) <<< p) / (ex + 2 ^ p)) p, 0)

/-- `1 / (1 + e^−z)` for `z = ± a / 2^p`, as a quotient and its bits. -/
def sigFix (neg : Bool) (p a : Nat) : Nat × Nat :=
  let (m, k) := expPos p a
  let ex := m <<< k
  let b := p + k + 8
  (((if neg then 2 ^ p else ex) <<< b) / (ex + 2 ^ p), b)

/-- The logistic function (R126, R127). -/
def sigVal (x : Val) : Val × Flags :=
  match x with
  | .nan s => nanOut s
  | .inf s => (if s then .fin false 0 0 else .fin false 1 0, 0)
  | .fin s n e =>
    if n = 0 then (.fin false 1 (-1), 0)
    else if atLeast n e 13 then (if s then tiny false else justBelowOne false, 0)
    else
      let p := workBits n e
      let (q, b) := sigFix s p (shiftInt n (e + p))
      (sticky false q b, 0)

/-- Σ x·(2x²)^k / (2k + 1)!! at `p` bits, with `r = 2x²`. -/
def erfSeries (p r : Nat) : Nat → Nat → Nat → Nat → Nat
  | 0, _, _, acc => acc
  | fuel + 1, k, term, acc =>
    if term = 0 then acc else erfSeries p r fuel (k + 1) (((term * r) >>> p) / (2 * k + 3)) (acc + term)

/-- erf x (R126, R127). -/
def erfVal (x : Val) : Val × Flags :=
  match x with
  | .nan s => nanOut s
  | .inf s => (.fin s 1 0, 0)
  | .fin s n e =>
    if n = 0 then (.fin s 0 0, 0)
    else if atLeast n e 4 then (justBelowOne s, 0)
    else
      let p := workBits n e + 64
      let a := shiftInt n (e + p)
      let sq := (a * a) >>> p
      let sum := erfSeries p (2 * sq) (4 * p) 0 a 0
      let (m, k) := expPos p sq
      let root := isqrt (piFix p <<< p)
      let v := (((2 * sum) <<< (2 * p)) / root) / (m <<< k)
      (if 2 ^ p ≤ v then justBelowOne s else sticky s v p, 0)

/-! Activations (R163). -/

/-- ReLU. -/
def reluVal (x : Val) : Val × Flags :=
  match x with
  | .nan s => nanOut s
  | .inf s => (if s then .fin false 0 0 else .inf false, 0)
  | .fin s n e => (if s || n == 0 then .fin false 0 0 else .fin false n e, 0)

/-- `x × 1 / (1 + e^−z)` for finite nonzero x, with z of x's sign and magnitude `a / 2^p`; `big` where z is beyond
every rounding. -/
def gated (s : Bool) (n : Nat) (e : Int) (big : Bool) (p a : Nat) : Val :=
  if big then (if s then tiny true else .fin false ((n <<< 600) - 1) (e - 600))
  else
    let (q, b) := sigFix s p a
    .fin s (n * (2 * q + 1)) (e - b - 1)

/-- SiLU: x / (1 + e^−x). -/
def siluVal (x : Val) : Val × Flags :=
  match x with
  | .nan s => nanOut s
  | .inf s => (if s then .fin true 0 0 else .inf false, 0)
  | .fin s n e =>
    if n = 0 then (.fin s 0 0, 0)
    else
      let p := workBits n e
      (gated s n e (atLeast n e 14) p (if atLeast n e 14 then 0 else shiftInt n (e + p)), 0)

/-- GELU-tanh: 0.5·x·(1 + tanh z) = x / (1 + e^−2z), with z = √(2/π)·(x + 0.044715·x³). -/
def geluVal (x : Val) : Val × Flags :=
  match x with
  | .nan s => nanOut s
  | .inf s => (if s then .fin true 0 0 else .inf false, 0)
  | .fin s n e =>
    if n = 0 then (.fin s 0 0, 0)
    else if atLeast n e 8 then (gated s n e true 0 0, 0)
    else
      let p := workBits n e + 64
      let inner := (shiftInt (200000 * n) (e + p) + shiftInt (8943 * n * n * n) (3 * e + p)) / 200000
      let c := isqrt (2 ^ (3 * p + 1) / piFix p)
      (gated s n e false p ((2 * c * inner) >>> p), 0)

end Sys2Proof.Machine
end

