-- ==== Sys2Proof/Machine/Vec.lean ====
section
/-!
DEFINITION. The vector operations (spec/05). Each operation's issue takes the strides' offsets, so that a nest
(spec/03 R67) and a plain slot share it.
-/
namespace Sys2Proof.Machine

/-- How far a nest issue's strides move its operands, in lines (R67); zero in a plain slot. -/
structure Offs where
  d : Int := 0
  a : Int := 0
  b : Int := 0
deriving DecidableEq, Repr

/-- A resolved source: a line, or a scalar broadcast (R71). -/
inductive Opd where
  | at (n : Int)
  | all (v : Word)
deriving DecidableEq, Repr

/-- Resolve a source with its stride offset; HNDL alone can be raised (R18, R67, R71). -/
def Context.vsrc (c : Context) (e : Engine) (x : Spec) (off : Int) : Res Opd :=
  match x with
  | .scalar r => .ok (.all (c.rdS e r))
  | x => do
    let n ← c.srcLine e x
    .ok (.at (n + off))

/-- Resolve a destination line with its stride offset (R71). -/
def Context.vdst (c : Context) (e : Engine) (x : Spec) (off : Int) : Res Int := do
  let n ← c.dstLine e x
  .ok (n + off)

/-- PROT unless lines `n` to `n + k − 1` lie in the window (R22, R115). A line below 0, which a negative stride reaches, is
named by the low 64 bits of its number: the spec gives it no form (log 44). -/
def Context.inWin (c : Context) (k : Nat) (n : Int) : Res Nat :=
  if n < 0 then raise .prot (BitVec.ofInt 64 n).toNat
  else if n.toNat + k ≤ 64 * c.bind.window then .ok n.toNat
  else raise .prot (max n.toNat (64 * c.bind.window))

/-- The window check of a source of `k` lines. -/
def Context.opdIn (c : Context) (k : Nat) : Opd → Res Unit
  | .at n => do let _ ← c.inWin k n; .ok ()
  | .all _ => .ok ()

/-- The lines a source reads (R117). -/
def Opd.lines (k : Nat) : Opd → List Nat
  | .at n => (List.range k).map (n.toNat + ·)
  | .all _ => []

/-- Whether no two of the distinct lines share a bank group (R24). -/
def distinctBanks (ls : List Nat) : Bool :=
  let ds := ls.eraseDups
  (ds.map (· % 16)).eraseDups.length == ds.length

/-- BANKCONF, in deterministic mode alone (R24, R117). -/
def Context.bankCheck (c : Context) (ls : List Nat) : Res Unit :=
  check (!c.bind.det || distinctBanks ls) .bankconf

/-- The elements of line `j` of a source (R71). -/
def Context.opdEls (c : Context) (w j : Nat) : Opd → List Nat
  | .at n => lineEls (c.rdL (n.toNat + j)) w
  | .all v => List.replicate (4096 / w) (v.toNat % 2 ^ w)

/-- The predicate bit that governs element i of width w (R14). -/
def govBit (w i : Nat) : Nat :=
  match w with
  | 4 => i / 8 | 8 => i / 4 | 16 => i / 2 | 32 => i | _ => 2 * i

/-- Whether element i of width w is enabled (R14). -/
def enabled (p : BitVec 128) (w i : Nat) : Bool := p.getLsbD (govBit w i)

/-- New elements: results where enabled, else the old ones (R116). -/
def keepEls (p : BitVec 128) (w : Nat) : Nat → List Nat → List (Nat × Flags) → List Nat
  | i, x :: xs, r :: rs => (if enabled p w i then r.1 else x) :: keepEls p w (i + 1) xs rs
  | _, xs, [] => xs
  | _, [], _ => []

/-- The flags of the enabled results (R46, R116). -/
def keepFlags (p : BitVec 128) (w : Nat) : Nat → List (Nat × Flags) → Flags
  | _, [] => 0
  | i, r :: rs => (if enabled p w i then r.2 else 0) ||| keepFlags p w (i + 1) rs

/-- Write results to a line under a predicate, and their flags (R116); elements beyond the results keep their value. -/
def Context.putEls (c : Context) (p : BitVec 128) (w n : Nat) (rs : List (Nat × Flags)) : Context :=
  (c.wrL n (lineOfEls w (keepEls p w 0 (lineEls (c.rdL n) w) rs))).addFlags (keepFlags p w 0 rs)

/-- The rounding mode of FPMODE (R44). -/
def Context.fpm (c : Context) : RMode := .ofFpmode c.r.fpmode

/-- The stochastic lane word of element `j` of destination line `n` (R47, R48). -/
def Context.lane (c : Context) (n j : Nat) : Nat :=
  laneWord c.r.srseed.toNat (c.bind.wid % 2 ^ 32 ^^^ (n * 0x00010001)) 0 j

/-- The mode RM selects for element `j` of destination line `n` (R73). -/
def Context.rmAt (c : Context) (rm : Rm) (n j : Nat) : RMode := .ofRm rm c.r.fpmode (c.lane n j)

/-! Three operands (R122 to R124, R138). -/

/-- Clamp an integer to a type's range (Table 35). -/
def clampTo (t : ElemType) (x : Int) : Nat × Flags := (intCode t.width (max (minOfType t) (min (maxOfType t) x)), 0)

/-- An integer element of a V3 operation (Table 35). -/
def v3Int (op : V3Op) (t : ElemType) (a b d : Nat) : Nat × Flags :=
  let w := t.width
  let x := intOf t.isSigned w a
  let y := intOf t.isSigned w b
  let z := intOf t.isSigned w d
  match op with
  | .vadd => (intCode w (x + y), 0)
  | .vsub => (intCode w (x - y), 0)
  | .vmul => (intCode w (x * y), 0)
  | .vfma => (intCode w (x * y + z), 0)
  | .vfms => (intCode w (x * y - z), 0)
  | .vshl => (a <<< (b % w) % 2 ^ w, 0)
  | .vshr => (a >>> (b % w), 0)
  | .vsha => (intCode w (intOf true w a / 2 ^ (b % w)), 0)
  | .vadds => clampTo t (x + y)
  | .vsubs => clampTo t (x - y)
  | .vmulh => (intCode w (x * y / 2 ^ w), 0)
  | _ => (0, 0)

/-- A floating-point or SP32 element of a V3 operation (Table 35). -/
def v3Fp (op : V3Op) (t : ElemType) (m : RMode) (a b d : Nat) : Nat × Flags :=
  let x := valOf t a
  let y := valOf t b
  let z := valOf t d
  let (v, fl) := match op with
    | .vadd => sumVals m [x, y]
    | .vsub => sumVals m [x, y.negate]
    | .vmul => mulVal x y
    | .vfma => let (p, f1) := mulVal x y; let (r, f2) := sumVals m [p, z]; (r, f1 ||| f2)
    | .vfms => let (p, f1) := mulVal x y; let (r, f2) := sumVals m [p, z.negate]; (r, f1 ||| f2)
    | _ => divVal x y
  let (r, fl2) := deliver t m v
  (r, fl ||| fl2)

/-- One element of an elementwise V3 operation. -/
def v3Elem (op : V3Op) (t : ElemType) (m : RMode) (a b d : Nat) : Nat × Flags :=
  match op with
  | .vmin => minMaxCode false t a b
  | .vmax => minMaxCode true t a b
  | .vand => (a &&& b, 0)
  | .vor => (a ||| b, 0)
  | .vxor => (a ^^^ b, 0)
  | op => if t.isInt then v3Int op t a b d else v3Fp op t m a b d

/-- Apply an element operation along three lists. -/
def zip3 (f : Nat → Nat → Nat → Nat × Flags) : List Nat → List Nat → List Nat → List (Nat × Flags)
  | a :: as, b :: bs, d :: ds => f a b d :: zip3 f as bs ds
  | _, _, _ => []

/-- The permuted source element for destination element i of n (R138). -/
def permEl (op : V3Op) (n : Nat) (as bs : List Nat) (i : Nat) : Nat :=
  let k := bs.getD 0 0 % n
  match op with
  | .vperm => as.getD (bs.getD i 0 % n) 0
  | .vrotl => as.getD ((i + n - k) % n) 0
  | .vbcast => as.getD k 0
  | .vzip => if i % 2 = 0 then as.getD (i / 2) 0 else bs.getD (i / 2) 0
  | _ => if i < n / 2 then as.getD (2 * i) 0 else bs.getD (2 * i - n) 0

/-- The results of a V3 operation for every element, and the predicate under which they are written. -/
def v3Results (op : V3Op) (t : ElemType) (m : RMode) (p : BitVec 128) (as bs ds : List Nat) :
    BitVec 128 × List (Nat × Flags) :=
  match op with
  | .vsel =>
    (ones128, (List.range t.count).map fun i =>
      (if enabled p t.width i then as.getD i 0 else bs.getD i 0, 0))
  | .vperm | .vrotl | .vbcast | .vzip | .vunzip =>
    (p, (List.range t.count).map fun i => (permEl op t.count as bs i, 0))
  | op => (p, zip3 (v3Elem op t m) as bs ds)

/-- VFMA and VFMS read D (R117, R123). -/
def v3ReadsD : V3Op → Bool
  | .vfma | .vfms => true
  | _ => false

/-- One issue of a V3 operation (R115 to R124, R138). -/
def v3Issue (op : V3Op) (o : V3) (f : Offs) (e : Engine) (c : Context) : Res Context := do
  check (o.wf op) .illop
  let d ← c.vdst e o.d f.d
  let n ← c.inWin 1 d
  let a ← c.vsrc e o.a f.a
  c.opdIn 1 a
  let b ← c.vsrc e o.b f.b
  c.opdIn 1 b
  c.bankCheck (a.lines 1 ++ b.lines 1 ++ (if v3ReadsD op then [n] else []))
  let w := o.ty.width
  let (p, rs) := v3Results op o.ty c.fpm (c.rdP e o.pred.toNat) (c.opdEls w 0 a) (c.opdEls w 0 b)
    (lineEls (c.rdL n) w)
  .ok (c.putEls p w n rs)

/-! Two operands (R125 to R127, R129 to R137, R139). -/

/-- A value function through Round (R126). -/
def viaRound (t : ElemType) (m : RMode) (f : Val → Val × Flags) (a : Nat) : Nat × Flags :=
  let (v, fl) := f (valOf t a)
  let (r, fl2) := deliver t m v
  (r, fl ||| fl2)

/-- VABS and VNEG of one element (R125): an FP NaN gives the canonical NaN. -/
def absNeg (neg : Bool) (t : ElemType) (a : Nat) : Nat × Flags :=
  if t.isInt then
    let x := intOf t.isSigned t.width a
    (intCode t.width (if neg then -x else if x < 0 then -x else x), 0)
  else
    let v := valOf t a
    if v.isNan then (canonNanOf t, if v.isSig then fIV else 0)
    else (if neg then a ^^^ 2 ^ (t.width - 1) else a % 2 ^ (t.width - 1), 0)

/-- One element of an elementwise V2 operation (R125, R126). -/
def v2Elem (op : V2Op) (t : ElemType) (m : RMode) (a : Nat) : Nat × Flags :=
  match op with
  | .vabs => absNeg false t a
  | .vneg => absNeg true t a
  | .vnot => (2 ^ t.width - 1 - a, 0)
  | .vsqrt => viaRound t m sqrtVal a
  | .vrsqrt => viaRound t m rsqrtVal a
  | .vrcp => viaRound t m rcpVal a
  | .vexp2 => viaRound t m exp2Val a
  | .vlog2 => viaRound t m log2Val a
  | .vtanh => viaRound t m tanhVal a
  | .vsig => viaRound t m sigVal a
  | .verf => viaRound t m erfVal a
  | _ => (a, 0)

/-- VCVT's results for the first `n` destination elements (R129). -/
def cvtResults (c : Context) (o : V2) (dl : Nat) (as : List Nat) : List (Nat × Flags) :=
  (List.range (4096 / max o.ty.width o.t2.width)).map fun i =>
    convert o.ty o.t2 (c.rmAt o.rm dl i) (as.getD i 0)

/-- The results VWIDEN writes to line `r` of its k destination lines (R130). -/
def widenResults (c : Context) (o : V2) (k r : Nat) (as : List Nat) : List (Nat × Flags) :=
  (List.range o.ty.count).map fun i => convert o.ty o.t2 c.fpm (as.getD (k * i + r) 0)

/-- Write VWIDEN's lines (R130). -/
def widenPut (o : V2) (p : BitVec 128) (k : Nat) (src c : Context) (dl : Nat) (as : List Nat) : Nat → Context
  | 0 => c
  | j + 1 => (widenPut o p k src c dl as j).putEls p o.ty.width (dl + j) (widenResults src o k j as)

/-- VNARROW's results from its k source lines (R131). -/
def narrowResults (c : Context) (o : V2) (dl k : Nat) (lines : List (List Nat)) : List (Nat × Flags) :=
  (List.range o.ty.count).map fun i =>
    convert o.ty o.t2 (c.rmAt o.rm dl i) ((lines.getD (i % k) []).getD (i / k) 0)

/-- Reductions (R57, R136). -/
inductive Reduction where
  | sum | max | min
deriving DecidableEq, Repr

/-- The identity of a reduction (R57, R136). -/
def Reduction.identity (r : Reduction) (t : ElemType) : Nat :=
  if t.isInt then
    match r with
    | .sum => 0
    | .max => intCode t.width (minOfType t)
    | .min => intCode t.width (maxOfType t)
  else
    match fmtOf t, r with
    | some f, .sum => f.signed true 0
    | some f, .max => f.signed true f.infCode
    | some f, .min => f.infCode
    | none, .min => 0xFFFFFFFE
    | none, _ => 0

/-- One combination of the tree (R57, R136). -/
def Reduction.combine (r : Reduction) (t : ElemType) (m : RMode) (a b : Nat) : Nat × Flags :=
  match r with
  | .sum => if t.isInt then v3Int .vadd t a b 0 else v3Fp .vadd t m a b 0
  | .max => minMaxCode true t a b
  | .min => minMaxCode false t a b

/-- One level of the tree; an element without a partner passes (R57, R137). -/
def treeLevel (f : Nat → Nat → Nat × Flags) : List Nat → List Nat × Flags
  | a :: b :: r =>
    let (x, fl) := f a b
    let (xs, fl2) := treeLevel f r
    (x :: xs, fl ||| fl2)
  | r => (r, 0)

/-- The tree over up to `2^fuel` elements. -/
def treeReduce (f : Nat → Nat → Nat × Flags) : Nat → List Nat → Nat × Flags
  | 0, xs => (xs.headD 0, 0)
  | fuel + 1, xs =>
    let (ys, fl) := treeLevel f xs
    let (r, fl2) := treeReduce f fuel ys
    (r, fl ||| fl2)

/-- The elements of a reduction's source, with identities where disabled (R57). -/
def withIdentity (r : Reduction) (t : ElemType) (p : BitVec 128) (as : List Nat) : List Nat :=
  (List.range t.count).map fun i => if enabled p t.width i then as.getD i 0 else r.identity t

/-- The result of a reduction over a line (R136); an SP32 reserved code that the tree passes reads as zero (R36). -/
def reduceLine (r : Reduction) (t : ElemType) (m : RMode) (p : BitVec 128) (as : List Nat) : Nat × Flags :=
  treeReduce (r.combine t m) 10 (withIdentity r t p as)

/-- VSCAN's prefix i (R137); a NaN that the tree passes is delivered canonical (R35). A signalling NaN that the tree passes
without an operation, such as element 0 in prefix 0, sets no IV: the spec leaves that open (log 28). -/
def scanPrefix (t : ElemType) (m : RMode) (xs : List Nat) (i : Nat) : Nat × Flags :=
  let (x, fl) := treeReduce (Reduction.combine .sum t m) 10 (xs.take (i + 1))
  (if (valOf t x).isNan then canonNanOf t else canonCode t x, fl)

/-- VCOMPR: the enabled elements in order (R139). -/
def comprEls (p : BitVec 128) (w : Nat) : Nat → List Nat → List Nat
  | _, [] => []
  | i, a :: r => if enabled p w i then a :: comprEls p w (i + 1) r else comprEls p w (i + 1) r

/-- VEXPD: the next source elements at the enabled places (R139). -/
def expdEls (p : BitVec 128) (w : Nat) : Nat → List Nat → List Nat → List Nat
  | _, [], _ => []
  | i, d :: ds, as =>
    if enabled p w i then as.headD 0 :: expdEls p w (i + 1) ds as.tail else d :: expdEls p w (i + 1) ds as

/-- The exchange register a kind-11 destination names (R72). -/
def exchOf : Spec → Option Nat
  | .scalar s => some (s.toNat % 8)
  | _ => none

/-- A reduction's result as an exchange register's value (R136). -/
def exchVal (t : ElemType) (code : Nat) : Word :=
  if t.isSigned then BitVec.ofInt 64 (intOf true t.width code) else BitVec.ofNat 64 code

/-- A fill of an exchange register waits while a LAUNCH before it has still to fill the register (R202). -/
def Context.awaitFill (c : Context) (k : Nat) : Res Unit := await (!(c.fillsDue.any fun f => f.e == k))

/-- A reduction delivered to a line or an exchange register (R136). -/
def reduceIssue (r : Reduction) (o : V2) (f : Offs) (e : Engine) (c : Context) : Res Context := do
  let p := c.rdP e o.pred.toNat
  let w := o.ty.width
  match exchOf o.d with
  | some k =>
    let a ← c.vsrc e o.a f.a
    c.opdIn 1 a
    c.awaitFill k
    let (x, fl) := reduceLine r o.ty c.fpm p (c.opdEls w 0 a)
    .ok ((c.fill k (exchVal o.ty x)).addFlags fl)
  | none =>
    let d ← c.vdst e o.d f.d
    let n ← c.inWin 1 d
    let a ← c.vsrc e o.a f.a
    c.opdIn 1 a
    let (x, fl) := reduceLine r o.ty c.fpm p (c.opdEls w 0 a)
    .ok ((c.wrL n (lineOfEls w [x])).addFlags fl)

/-- A word of a tensor identifier entry (Table 33). -/
def Context.tensWord (c : Context) (x k : Nat) : Nat := (lookD c.tens x 0).toNat / 2 ^ (64 * k) % 2 ^ 64

/-- The entry fields the block operations use (R119). -/
structure BlockEntry where
  v : Bool
  bfmt : Nat
  etype : Nat
  hen : Bool
  lbase : Nat
  bbase : Nat
  seed : Nat
deriving DecidableEq, Repr

def Context.blockEntry (c : Context) (x : Nat) : BlockEntry :=
  let w0 := c.tensWord x 0
  { v := w0 % 2 == 1, bfmt := w0 / 2 % 16, etype := w0 / 32 % 16, hen := w0 / 512 % 2 == 1,
    lbase := w0 / 2 ^ 14 % 2048, bbase := c.tensWord x 5 / 2 ^ 32, seed := c.tensWord x 6 }

/-- The sign word of block `j` of source line `l` with `g` blocks a line (R121, R53). -/
def BlockEntry.sign (b : BlockEntry) (g : Nat) (l j : Nat) : Nat :=
  hadSign b.seed (((b.bbase : Int) + g * ((l : Int) - b.lbase) + j) % (2 ^ 64 : Int)).toNat

/-- The line that numbers the blocks: the source's, or the destination's for a broadcast (R121). -/
def Opd.lineOr (d : Nat) : Opd → Nat
  | .at n => n.toNat
  | .all _ => d

/-- The values of block `j` of a line, a disabled element taken as +0 (R133, R135). -/
def blockVals (t : ElemType) (p : BitVec 128) (as : List Nat) (j : Nat) : List Val :=
  (List.range 32).map fun i =>
    if enabled p t.width (32 * j + i) then valOf t (as.getD (32 * j + i) 0) else .fin false 0 0

/-- The flags of a block's enabled elements. -/
def enabledFlags (p : BitVec 128) (w j : Nat) (fs : List Flags) : Flags :=
  orFlags ((List.range 32).map fun i => if enabled p w (32 * j + i) then fs.getD i 0 else 0)

/-- VQNT's blocks (R133). -/
def vqntBlocks (c : Context) (o : V2) (b : BlockEntry) (bf : BFmt) (p : BitVec 128) (l dl : Nat) (as : List Nat) :
    List QBlock :=
  (List.range (o.ty.count / 32)).map fun j =>
    let xs := blockVals o.ty p as j
    let m := c.rmAt o.rm dl 0
    let ys := if b.hen then (hadFwd m (b.sign (o.ty.count / 32) l j) xs).map (·.1) else xs
    bf.quantBlock ys fun i => c.rmAt o.rm dl (32 * j + i)

/-- A segment from its blocks (R132). -/
def segment (bf : BFmt) (bs : List QBlock) : Line :=
  BitVec.ofNat 4096 (packEls (8 * bf.elemBytes) (bs.map (·.els)) +
    packEls (8 * bf.metaBytes) (bs.map (·.hdr)) * 2 ^ (8 * bf.elemBytes * bs.length))

/-- The exact values of block `j` of a segment of `g` blocks held in a number (R132, R134). -/
def segmentVals (bf : BFmt) (g seg j : Nat) : List Val :=
  bf.decodeBlock (seg / 2 ^ (8 * bf.elemBytes * j) % 2 ^ (8 * bf.elemBytes))
    (seg / 2 ^ (8 * bf.elemBytes * g + 8 * bf.metaBytes * j) % 2 ^ (8 * bf.metaBytes))

/-- Round the values of a block's elements (R52, R53). -/
def roundAll (t : ElemType) (m : RMode) (vs : List (Val × Flags)) : List (Nat × Flags) :=
  vs.map fun v => let (r, fl) := deliver t m v.1; (r, v.2 ||| fl)

/-- VQNT (R133). -/
def vqntIssue (o : V2) (f : Offs) (e : Engine) (c : Context) : Res Context := do
  let b := c.blockEntry o.x.toNat
  match BFmt.ofCode b.bfmt with
  | none => raise .illop
  | some bf =>
    check (b.v && b.etype == 0) .illop
    let d ← c.vdst e o.d f.d
    let n ← c.inWin 1 d
    let a ← c.vsrc e o.a f.a
    c.opdIn 1 a
    let p := c.rdP e o.pred.toNat
    let qs := vqntBlocks c o b bf p (a.lineOr n) n (c.opdEls o.ty.width 0 a)
    let fl := orFlags (qs.map (·.all)) |||
      orFlags ((List.range qs.length).map fun j =>
        enabledFlags p o.ty.width j ((qs.map (·.flags)).getD j []))
    .ok ((c.wrL n (segment bf qs)).addFlags fl)

/-- VDQNT (R134). -/
def vdqntIssue (o : V2) (f : Offs) (e : Engine) (c : Context) : Res Context := do
  let b := c.blockEntry o.x.toNat
  match BFmt.ofCode b.bfmt with
  | none => raise .illop
  | some bf =>
    check (b.v && b.etype == 0) .illop
    let d ← c.vdst e o.d f.d
    let n ← c.inWin 1 d
    let a ← c.vsrc e o.a f.a
    c.opdIn 1 a
    let w := o.ty.width
    let g := o.ty.count / 32
    let m := c.rmAt o.rm n 0
    let seg := packEls w (c.opdEls w 0 a)
    let block (j : Nat) : List (Val × Flags) :=
      let vs := segmentVals bf g seg j
      if b.hen then hadInv m (b.sign g (a.lineOr n) j) vs else vs.map fun v => (v, 0)
    .ok (c.putEls (c.rdP e o.pred.toNat) w n (roundAll o.ty m ((List.range g).flatMap block)))

/-- VHAD (R135); an entry with a reserved BFMT raises ILLOP (R39). -/
def vhadIssue (o : V2) (f : Offs) (e : Engine) (c : Context) : Res Context := do
  let b := c.blockEntry o.x.toNat
  check (b.v && b.hen && b.bfmt < 10) .illop
  let d ← c.vdst e o.d f.d
  let n ← c.inWin 1 d
  let a ← c.vsrc e o.a f.a
  c.opdIn 1 a
  let w := o.ty.width
  let g := o.ty.count / 32
  let p := c.rdP e o.pred.toNat
  let as := c.opdEls w 0 a
  let block (j : Nat) : List (Val × Flags) :=
    let xs := blockVals o.ty p as j
    let sg := b.sign g (a.lineOr n) j
    if o.q then hadInv c.fpm sg xs else hadFwd c.fpm sg xs
  .ok (c.putEls p w n (roundAll o.ty c.fpm ((List.range g).flatMap block)))

/-- A V2 operation with one source line and one destination line: its results from A's and D's elements. -/
def v2Line (op : V2Op) (o : V2) (c : Context) (p : BitVec 128) (n : Nat) (as : List Nat) : Context :=
  let w := o.ty.width
  match op with
  | .vscan =>
    let xs := withIdentity .sum o.ty p as
    c.putEls p w n ((List.range o.ty.count).map (scanPrefix o.ty c.fpm xs))
  | .vcompr => c.wrL n (lineOfEls w (comprEls p w 0 as))
  | .vexpd => c.wrL n (lineOfEls w (expdEls p w 0 (lineEls (c.rdL n) w) as))
  | .viota => c.putEls p w n ((List.range o.ty.count).map fun i => (i % 2 ^ w, 0))
  | .vcvt => c.putEls p w n (cvtResults c o n as)
  | op => c.putEls p w n (as.map (v2Elem op o.ty c.fpm))

/-- One issue of a V2 operation. -/
def v2Issue (op : V2Op) (o : V2) (f : Offs) (e : Engine) (c : Context) : Res Context := do
  check (o.wf op) .illop
  match op with
  | .vradd => reduceIssue .sum o f e c
  | .vrmax => reduceIssue .max o f e c
  | .vrmin => reduceIssue .min o f e c
  | .vqnt => vqntIssue o f e c
  | .vdqnt => vdqntIssue o f e c
  | .vhad => vhadIssue o f e c
  | .vwiden =>
    let k := o.ty.width / o.t2.width
    let d ← c.vdst e o.d f.d
    let n ← c.inWin k d
    let a ← c.vsrc e o.a f.a
    c.opdIn 1 a
    .ok (widenPut o (c.rdP e o.pred.toNat) k c c n (c.opdEls o.t2.width 0 a) k)
  | .vnarrow =>
    let k := o.t2.width / o.ty.width
    let d ← c.vdst e o.d f.d
    let n ← c.inWin 1 d
    let a ← c.vsrc e o.a f.a
    c.opdIn k a
    c.bankCheck (a.lines k)
    .ok (c.putEls (c.rdP e o.pred.toNat) o.ty.width n
      (narrowResults c o n k ((List.range k).map fun j => c.opdEls o.t2.width j a)))
  | op =>
    let d ← c.vdst e o.d f.d
    let n ← c.inWin 1 d
    let a ← c.vsrc e o.a f.a
    if op = .viota then .ok () else c.opdIn 1 a
    .ok (v2Line op o c (c.rdP e o.pred.toNat) n
      (c.opdEls (if op = .vcvt then o.t2.width else o.ty.width) 0 a))

/-! Compare and predicates (R128, R140 to R142). -/

/-- Cmp for one condition code, from the order of two elements; `none` is unordered (R128). -/
def ccHolds (cc : CmpCode) (o : Option Ordering) : Bool :=
  match cc with
  | .eq => o == some .eq
  | .ne => o != some .eq
  | .lt => o == some .lt
  | .le => o == some .lt || o == some .eq
  | .gt => o == some .gt
  | .ge => o == some .gt || o == some .eq
  | .un => o == none

/-- Whether a condition code sets IV for a quiet NaN (R128). -/
def ccOrdered : CmpCode → Bool
  | .lt | .le | .gt | .ge => true
  | _ => false

/-- The order of two elements of a type (R128). -/
def elemOrder (t : ElemType) (a b : Nat) : Option Ordering :=
  if t.isInt then
    let x := intOf t.isSigned t.width a
    let y := intOf t.isSigned t.width b
    some (if x < y then .lt else if x = y then .eq else .gt)
  else cmpVal (valOf t a) (valOf t b)

/-- Cmp of two elements and its flags (R128). -/
def cmpEl (cc : CmpCode) (t : ElemType) (a b : Nat) : Bool × Flags :=
  let o := elemOrder t a b
  let sig := !t.isInt && ((valOf t a).isSig || (valOf t b).isSig)
  (ccHolds cc o, if sig || (ccOrdered cc && o == none) then fIV else 0)

/-- The elements that predicate bit k governs at width w (R14). -/
def governed (w k : Nat) : List Nat :=
  if w = 64 then [k / 2] else (List.range (32 / w)).map fun j => 32 / w * k + j

/-- The predicate with the given bits, bit 0 upwards. -/
def predOf : List Bool → Nat
  | [] => 0
  | b :: r => (if b then 1 else 0) + 2 * predOf r

/-- The result and the flags of VCMP (R128). -/
def vcmpResult (cc : CmpCode) (t : ElemType) (p : BitVec 128) (as bs : List Nat) : BitVec 128 × Flags :=
  let w := t.width
  let gov (k : Nat) : Nat := if w = 64 then k / 2 * 2 else k
  let at' (i : Nat) : Bool × Flags := cmpEl cc t (as.getD i 0) (bs.getD i 0)
  let on (k : Nat) : Bool := p.getLsbD (gov k)
  (BitVec.ofNat 128 (predOf ((List.range 128).map fun k => on k && (governed w k).all fun i => (at' i).1)),
    orFlags ((List.range 128).map fun k =>
      if on k then orFlags ((governed w k).map fun i => (at' i).2) else 0))

/-- VCMP (R128). -/
def execVcmp (o : VP) (s : State) : HO :=
  runC s fun e c => do
    check o.wf .illop
    let a ← c.vsrc e o.a 0
    c.opdIn 1 a
    let b ← c.vsrc e o.b 0
    c.opdIn 1 b
    c.bankCheck (a.lines 1 ++ b.lines 1)
    let w := o.ty.width
    let (v, fl) := vcmpResult o.cc o.ty (c.rdP e o.pred.toNat) (c.opdEls w 0 a) (c.opdEls w 0 b)
    .ok (((c.wrP e o.pd.toNat v).addFlags fl).advance e)

/-- A predicate operation (R140). -/
def predOp (f : BitVec 128 → BitVec 128 → BitVec 128) (o : PP) (s : State) : HO :=
  runC s fun e c => .ok ((c.wrP e o.pd.toNat (f (c.rdP e o.pa.toNat) (c.rdP e o.pb.toNat))).advance e)

/-- PAND (R140). -/
def execPand (o : PP) (s : State) : HO := predOp (· &&& ·) o s

/-- POR (R140). -/
def execPor (o : PP) (s : State) : HO := predOp (· ||| ·) o s

/-- PXOR (R140). -/
def execPxor (o : PP) (s : State) : HO := predOp (· ^^^ ·) o s

/-- PNOT (R140). -/
def execPnot (o : PP) (s : State) : HO := predOp (fun a _ => ~~~a) o s

/-- The lowest bit `i` with `p i` from `i` on, over `fuel` bits. -/
def lowestFrom (p : Nat → Bool) (i : Nat) : Nat → Option Nat
  | 0 => none
  | fuel + 1 => if p i then some i else lowestFrom p (i + 1) fuel

/-- PFIRST's result (R140). -/
def pfirstVal (w : Nat) (a : BitVec 128) : BitVec 128 :=
  if w = 64 then
    match lowestFrom (fun i => a.getLsbD (2 * i)) 0 64 with
    | some i => BitVec.ofNat 128 (3 * 2 ^ (2 * i))
    | none => 0
  else
    match lowestFrom (fun k => a.getLsbD k) 0 128 with
    | some k => BitVec.ofNat 128 (2 ^ k)
    | none => 0

/-- PFIRST (R140). -/
def execPfirst (o : PP) (s : State) : HO := predOp (fun a _ => pfirstVal o.ty.width a) o s

/-- The elements of width w that a predicate enables (R141). -/
def enabledCount (w : Nat) (a : BitVec 128) : Nat :=
  ((List.range (4096 / w)).filter fun i => enabled a w i).length

/-- PCNT (R141). -/
def execPcnt (o : PP) (s : State) : HO :=
  runC s fun e c => do
    c.awaitFill (o.pd.toNat % 8)
    .ok ((c.fill (o.pd.toNat % 8) (BitVec.ofNat 64 (enabledCount o.ty.width (c.rdP e o.pa.toNat)))).advance e)

/-- PSETI's result: governing bits of some element below IMM (R142). -/
def psetiVal (w imm : Nat) : BitVec 128 :=
  BitVec.ofNat 128 (2 ^ (if w = 64 then 2 * imm else (imm * w + 31) / 32) - 1)

/-- PSETI (R142). -/
def execPseti (o : PP) (s : State) : HO :=
  runC s fun e c => do
    check (o.imm.toNat ≤ o.ty.count) .illop
    .ok ((c.wrP e o.pd.toNat (psetiVal o.ty.width o.imm.toNat)).advance e)

/-- A V3 instruction in a slot of its own. -/
def v3Exec (op : V3Op) (o : V3) (s : State) : HO :=
  runC s fun e c => do
    let c' ← v3Issue op o {} e c
    .ok (c'.advance e)

/-- A V2 instruction in a slot of its own. -/
def v2Exec (op : V2Op) (o : V2) (s : State) : HO :=
  runC s fun e c => do
    let c' ← v2Issue op o {} e c
    .ok (c'.advance e)

/-- VADD (R122, Table 35). -/
def execVadd (o : V3) (s : State) : HO := v3Exec .vadd o s

/-- VSUB (R122, Table 35). -/
def execVsub (o : V3) (s : State) : HO := v3Exec .vsub o s

/-- VMUL (R122, Table 35). -/
def execVmul (o : V3) (s : State) : HO := v3Exec .vmul o s

/-- VFMA (R123). -/
def execVfma (o : V3) (s : State) : HO := v3Exec .vfma o s

/-- VFMS (R123). -/
def execVfms (o : V3) (s : State) : HO := v3Exec .vfms o s

/-- VMIN (R122, Table 35). -/
def execVmin (o : V3) (s : State) : HO := v3Exec .vmin o s

/-- VMAX (R122, Table 35). -/
def execVmax (o : V3) (s : State) : HO := v3Exec .vmax o s

/-- VDIV (R122, Table 35). -/
def execVdiv (o : V3) (s : State) : HO := v3Exec .vdiv o s

/-- VAND (R122, Table 35). -/
def execVand (o : V3) (s : State) : HO := v3Exec .vand o s

/-- VOR (R122, Table 35). -/
def execVor (o : V3) (s : State) : HO := v3Exec .vor o s

/-- VXOR (R122, Table 35). -/
def execVxor (o : V3) (s : State) : HO := v3Exec .vxor o s

/-- VSHL (R122, Table 35). -/
def execVshl (o : V3) (s : State) : HO := v3Exec .vshl o s

/-- VSHR (R122, Table 35). -/
def execVshr (o : V3) (s : State) : HO := v3Exec .vshr o s

/-- VSHA (R122, Table 35). -/
def execVsha (o : V3) (s : State) : HO := v3Exec .vsha o s

/-- VADDS (R122, Table 35). -/
def execVadds (o : V3) (s : State) : HO := v3Exec .vadds o s

/-- VSUBS (R122, Table 35). -/
def execVsubs (o : V3) (s : State) : HO := v3Exec .vsubs o s

/-- VMULH (R122, Table 35). -/
def execVmulh (o : V3) (s : State) : HO := v3Exec .vmulh o s

/-- VSEL (R124). -/
def execVsel (o : V3) (s : State) : HO := v3Exec .vsel o s

/-- VPERM (R138). -/
def execVperm (o : V3) (s : State) : HO := v3Exec .vperm o s

/-- VROTL (R138). -/
def execVrotl (o : V3) (s : State) : HO := v3Exec .vrotl o s

/-- VZIP (R138). -/
def execVzip (o : V3) (s : State) : HO := v3Exec .vzip o s

/-- VUNZIP (R138). -/
def execVunzip (o : V3) (s : State) : HO := v3Exec .vunzip o s

/-- VBCAST (R138). -/
def execVbcast (o : V3) (s : State) : HO := v3Exec .vbcast o s

/-- VABS (R125). -/
def execVabs (o : V2) (s : State) : HO := v2Exec .vabs o s

/-- VNEG (R125). -/
def execVneg (o : V2) (s : State) : HO := v2Exec .vneg o s

/-- VNOT (R125). -/
def execVnot (o : V2) (s : State) : HO := v2Exec .vnot o s

/-- VMOV (R125). -/
def execVmov (o : V2) (s : State) : HO := v2Exec .vmov o s

/-- VSQRT (R126, R127). -/
def execVsqrt (o : V2) (s : State) : HO := v2Exec .vsqrt o s

/-- VRSQRT (R126, R127). -/
def execVrsqrt (o : V2) (s : State) : HO := v2Exec .vrsqrt o s

/-- VRCP (R126, R127). -/
def execVrcp (o : V2) (s : State) : HO := v2Exec .vrcp o s

/-- VEXP2 (R126, R127). -/
def execVexp2 (o : V2) (s : State) : HO := v2Exec .vexp2 o s

/-- VLOG2 (R126, R127). -/
def execVlog2 (o : V2) (s : State) : HO := v2Exec .vlog2 o s

/-- VTANH (R126, R127). -/
def execVtanh (o : V2) (s : State) : HO := v2Exec .vtanh o s

/-- VSIG (R126, R127). -/
def execVsig (o : V2) (s : State) : HO := v2Exec .vsig o s

/-- VERF (R126, R127). -/
def execVerf (o : V2) (s : State) : HO := v2Exec .verf o s

/-- VCVT (R129). -/
def execVcvt (o : V2) (s : State) : HO := v2Exec .vcvt o s

/-- VWIDEN (R130). -/
def execVwiden (o : V2) (s : State) : HO := v2Exec .vwiden o s

/-- VNARROW (R131). -/
def execVnarrow (o : V2) (s : State) : HO := v2Exec .vnarrow o s

/-- VHAD (R135). -/
def execVhad (o : V2) (s : State) : HO := v2Exec .vhad o s

/-- VQNT (R133). -/
def execVqnt (o : V2) (s : State) : HO := v2Exec .vqnt o s

/-- VDQNT (R134). -/
def execVdqnt (o : V2) (s : State) : HO := v2Exec .vdqnt o s

/-- VRADD (R136). -/
def execVradd (o : V2) (s : State) : HO := v2Exec .vradd o s

/-- VRMAX (R136). -/
def execVrmax (o : V2) (s : State) : HO := v2Exec .vrmax o s

/-- VRMIN (R136). -/
def execVrmin (o : V2) (s : State) : HO := v2Exec .vrmin o s

/-- VSCAN (R137). -/
def execVscan (o : V2) (s : State) : HO := v2Exec .vscan o s

/-- VCOMPR (R139). -/
def execVcompr (o : V2) (s : State) : HO := v2Exec .vcompr o s

/-- VEXPD (R139). -/
def execVexpd (o : V2) (s : State) : HO := v2Exec .vexpd o s

/-- VIOTA (R139). -/
def execViota (o : V2) (s : State) : HO := v2Exec .viota o s

end Sys2Proof.Machine
end

