-- ==== Sys2Proof/Machine/Atomics.lean ====
section
/-!
DEFINITION. ATOM, RED, the fetch-and-op at its home, alloying and parting, FENCE and SBAR (spec/09 R201; spec/12 R274 to
R285).
-/
namespace Sys2Proof.Machine

/-- The width in bits of W (R76). -/
def aopWidth (w64 : Bool) : Nat := if w64 then 64 else 32

/-- FAddRNE (R276): no flag. -/
def faddRne (w64 : Bool) (a b : Nat) : Nat :=
  let t : ElemType := if w64 then .f64 else .f32
  (deliver t .rne (sumVals .rne [valOf t a, valOf t b]).1).1

/-- A fetch-and-op on w-bit values; the new value (R276). CAS compares with `c`. -/
def aopNew (op : Aop) (w64 : Bool) (x b c : Nat) : Nat :=
  let w := aopWidth w64
  match op with
  | .add => (x + b) % 2 ^ w
  | .min => if intOf true w x < intOf true w b then x else b
  | .max => if intOf true w x < intOf true w b then b else x
  | .minz => min x b
  | .maxz => max x b
  | .and => x &&& b
  | .or => x ||| b
  | .xor => x ^^^ b
  | .swap => b
  | .cas => if x = c then b else x
  | .fadd => faddRne w64 x b

/-- AtomicAt (R276): memory after the operation, and the old value. A CAS that fails writes nothing. -/
def atomicAt (m : Memory) (loc : Nat) (op : Aop) (w64 : Bool) (b c : Nat) : Memory × Nat :=
  let n := aopWidth w64 / 8
  let x := m.readN loc n
  (if op = .cas ∧ x ≠ c then m else m.writeN loc n (aopNew op w64 x b c), x)

/-- Pages a fetch-and-op may touch (R277). -/
def atomPage (t : Trans) : Bool := !t.ws && !t.cmp && !t.grd

/-- R277's checks: the parts of the one access. -/
def atomCheck (s : State) (c : Context) (o : MA) (a : Nat) : Res (List Part) :=
  let n := aopWidth o.w64 / 8
  do
    check (a % n == 0) .align (a % 2 ^ 56)
    accessCheck s (c.who s.cur) .both atomPage 1 (a % 2 ^ 56) n

/-- The location of an access of one part. -/
def partLoc : List Part → Nat
  | [] => 0
  | p :: _ => p.t.loc

/-- Whether the launch grants combining of an operation (R280). -/
def combines (s : State) (lid : Nat) (op : Aop) : Bool :=
  match s.launch? lid with
  | none => false
  | some l =>
    let m := l.hdr.toNat / 2 ^ 24 % 256
    op != .cas && (if op = .fadd then m / 8 % 2 == 1 else m / 4 % 2 == 1)

/-- The requester number of a context or an engine (R378): die, unit, context and device. -/
def requesterOf (s : State) (die unit ctx : Nat) : Nat :=
  die % 16 + unit * 16 + ctx * 2 ^ 10 + s.m.devno % 256 * 2 ^ 12

/-- The die a location is homed on. -/
def locHome (loc : Nat) : Nat := loc / 2 ^ 40 % 16

/-- Whether an asker is a peer device. -/
def Asker.isPeer : Asker → Bool
  | .peer _ _ _ => true
  | _ => false

/-- A request whose home is on another die or device than its requester, or that carries one (R377, R378). -/
def Req.remote (r : Req) : Bool := r.ext || r.rem || r.asker.isPeer || r.requester % 16 != locHome r.loc

/-- A request for the fetch-and-op of a context (R276, R378). -/
def ctxReq (s : State) (c : Context) (o : MA) (red : Bool) (e : Engine) (a loc b cc : Nat) : Req :=
  let rq := requesterOf s (dieOf s.cur) (s.cur % 128 / 4) (s.cur % 4)
  { asker := .ctx c.bind.lid c.bind.wid o.d red (c.posOf e).word (a % 2 ^ 56) (c.posOf e).idx, red := red, loc := loc
    aop := o.aop, w64 := o.w64, b := b, c := cc, lid := c.bind.lid, requester := rq
    reqid := lookD s.reqIds rq 0, combine := combines s c.bind.lid o.aop }

/-- The next request id of a requester, when the request is remote (R378). -/
def takeId (s : State) (r : Req) : State :=
  if r.remote then { s with reqIds := put s.reqIds r.requester ((r.reqid + 1) % 2 ^ 32) } else s

/-- Put a request on its way. -/
def addReq (s : State) (r : Req) : State :=
  let s1 := takeId s r
  { s1 with
    reqs := put s1.reqs s1.m.nextReq r
    m := { s1.m with nextReq := s1.m.nextReq + 1 } }

/-- The requests whose replies are still awaited: on their way, or held as constituents (R281, R378). -/
def openReqs (s : State) : List Req :=
  s.reqs.map (·.2) ++ ((s.parts.flatMap fun e => [e.2.p, e.2.q]).filter fun r => r.asker != .gone)

/-- Whether the requester has room for another remote fetch-and-op: at most 32 request ids of it are out (R378). An alloyed request
that keeps a constituent's id counts with it. -/
def roomFor (s : State) (r : Req) : Bool :=
  !r.remote ||
    (((openReqs s).filter fun x => x.requester == r.requester && x.remote).map fun x => x.reqid).eraseDups.length < 32

/-- The circuit that a request travels on, from its asker's die to the home (R348, R375): of an alloyed one the first's; none on
its own die, and none for what a peer device's card has sent here. -/
def reqCirc? (s : State) (r : Req) : Option Nat :=
  match r.via, r.asker with
  | some c, _ => some c
  | none, .card id | none, .slot id _ => (find? s.cards id).map fun k => cardCirc k.line
  | none, .ctx _ _ _ _ _ _ _ => if r.remote then some (pairOf s r.lid (r.requester % 16) (locHome r.loc)) else none
  | none, _ => none

/-- The key of a requester's receipts at a home slice of this device, or at the end of a peer's circuit (R378, R391). -/
def receiptKey (r : Req) : Nat :=
  (if r.ext then 512 + r.loc / 2 ^ 64 else locHome r.loc * 32 + sliceOf r.loc) * 2 ^ 32 + r.requester

/-- The home keeps the receipt of a remote request, the last 64 of each requester (R378). -/
def keepReceipt (s : State) (r : Req) (old : Nat) : State :=
  if r.remote then
    { s with
      receipts := put s.receipts (receiptKey r)
        (((⟨r.reqid, if r.red then none else some old⟩ : Receipt) :: lookD s.receipts (receiptKey r) []).take 64) }
  else s

/-- AtomicAt at a peer device (R276, R391). -/
def farAtomic (s : State) (r : Req) : State × Nat :=
  let n := aopWidth r.w64 / 8
  let x := farBytes s r.loc n
  (farPut s r.loc n (aopNew r.aop r.w64 x r.b r.c), x)

/-- The home slice performs a request and keeps its receipt (R276, R378). A barrier arrival adds to its arrival word, and
its operand to the group's total at the package barrier unit (R222). -/
def homeStep (s : State) (r : Req) : State × Nat :=
  match r.word with
  | some (total, word) =>
    ({ s with
      arrivals := putD s.arrivals total (lookD s.arrivals total 0 + r.b) 0
      arrWords := putD s.arrWords word (lookD s.arrWords word 0 + r.b) 0 }, lookD s.arrWords word 0)
  | none =>
    if r.ext then
      let (t, x) := farAtomic s r
      (keepReceipt t r x, x)
    else
      let (m, x) := atomicAt s.mem r.loc r.aop r.w64 r.b r.c
      (keepReceipt { s with mem := m } r x, x)

/-- Whether an asker is the ATOM a context waits for. -/
def isAtomOf (lid wid : Nat) : Asker → Bool
  | .ctx l w _ red _ _ _ => l == lid && w == wid && !red
  | _ => false

/-- Whether a context's ATOM is on its way. -/
def atomOut (s : State) (c : Context) : Bool :=
  s.reqs.any (fun e => isAtomOf c.bind.lid c.bind.wid e.2.asker) ||
  s.parts.any (fun e => isAtomOf c.bind.lid c.bind.wid e.2.p.asker || isAtomOf c.bind.lid c.bind.wid e.2.q.asker)

/-- Whether the context's instruction at an engine's place has already sent its request. -/
def hasSent (s : State) (c : Context) (e : Engine) : Bool := requestsWhere s c.bind.lid c.bind.wid (· == (c.posOf e).idx)

/-- ATOM (R275 to R277): the request leaves, and MEM, under one program counter the whole context, waits at the slot for the
reply. -/
def execAtom (o : MA) (s : State) : HO :=
  runS s fun e c => do
    check (o.aop == .cas || o.c == 0) .illop
    await (!atomOut s c && !hasSent s c e)
    let w := aopWidth o.w64
    let a := (c.rdS e o.a).toNat
    let b := (c.rdS e o.b).toNat % 2 ^ w
    let cc := (c.rdS e o.c).toNat % 2 ^ w
    let ps ← atomCheck s c o a
    let r := ctxReq s c o false e a (partLoc ps) b cc
    await (roomFor s r)
    .ok (addReq (s.noteParts (c.who s.cur) ps) r)

/-- RED (R275 to R277): the request leaves, and MEM goes on; under one program counter the context waits until it is performed
(R28, R188). -/
def execRed (o : MA) (s : State) : HO :=
  runS s fun e c => do
    check (o.aop != .cas && o.c == 0 && o.d == 0) .illop
    await (!hasSent s c e)
    let w := aopWidth o.w64
    let a := (c.rdS e o.a).toNat
    let b := (c.rdS e o.b).toNat % 2 ^ w
    let ps ← atomCheck s c o a
    let r := ctxReq s c o true e a (partLoc ps) b 0
    await (roomFor s r)
    let s1 := addReq (s.noteParts (c.who s.cur) ps) r
    .ok (if c.together then s1 else s1.setCtx s.cur (c.advance e))

/-- The context goes on past the instruction of MEM whose request it awaited (R278, R337). -/
def Context.passMem (c : Context) : Context :=
  if c.together then (c.advance .mem).stepped .mem (c.posOf .mem).word else c.advance .mem

/-- A RED at a place in program order has been performed: a context under one program counter has awaited it there. -/
def Context.redPassed (c : Context) (idx : Nat) : Context :=
  if c.together && (c.posOf .mem).idx == idx then c.passMem else c

/-- An ATOM's reply at its context: the register is written, and correct from now on, and MEM goes on (R276, R278, R324). -/
def atomDone (c : Context) (d : Reg) (x : Nat) : Context :=
  let c1 := c.wrS d (BitVec.ofNat 64 x)
  { c1 with own := c1.own.filter fun (u : OwnPart) => u != OwnPart.s d.toNat }.passMem

/-- A reply goes to who asked (R275, R282, R370, R392, R399). -/
def deliverReply (s : State) (a : Asker) (x : Nat) : State :=
  match a with
  | .ctx lid wid d red _ _ _ => if red then s else updTask s lid wid fun c => atomDone c d x
  | .card id =>
    { s with cards := s.cards.map fun e => if e.1 = id then (e.1, { e.2 with result := x, performed := true }) else e }
  | .slot id i => updCard s id fun k => { k with slots := put k.slots i x }
  | .entry id => { s with parts := s.parts.map fun e => if e.1 = id then (e.1, { e.2 with reply := some x }) else e }
  | .peer c _ n => (offer s c n).report (.peerReply c 0 0 x [])
  | .arrival _ _ _ | .gone => s

/-- The askers of a request, down through its parting entries; those entries are freed (R285). -/
def constituents (s : State) : Nat → Asker → List Asker × List Nat
  | 0, a => ([a], [])
  | fuel + 1, .entry id =>
    match find? s.parts id with
    | none => ([], [])
    | some e =>
      let x := constituents s fuel e.p.asker
      let y := constituents s fuel e.q.asker
      (x.1 ++ y.1, id :: (x.2 ++ y.2))
  | _ + 1, a => ([a], [])

/-- ECCU at the home slice for one constituent (R277, R285). -/
def failAsker (s : State) : Asker → State
  | .ctx lid wid _ red slot addr idx =>
    if red then updTask s lid wid fun c =>
      { c with redErrs := c.redErrs ++ [({ slot := slot, addr := addr } : RedErr)] }.redPassed idx
    else
      match taskPos? s lid wid with
      | none => s
      | some pos =>
        match s.ctx? pos with
        | some c =>
          if c.bind.lid == lid && c.bind.wid == wid then
            takeTrap s pos c .mem { code := .eccu, eng := some 4, addr := addr, slot := some slot }
          else updTask s lid wid fun c =>
            { c with pendingFault := some { code := .eccu, eng := some 4, addr := addr, slot := some slot } }
        | none => updTask s lid wid fun c =>
          { c with pendingFault := some { code := .eccu, eng := some 4, addr := addr, slot := some slot } }
  | .card id | .slot id _ =>
    updCard s id fun k =>
      if k.status = 0 then
        { k with
          status := 0x16
          faddr := if cardKind k.line = 0x15 then cardAux k.line else cardDst k.line
          performed := true }
      else k
  | .peer c addr _ => s.report (.peerReply c 0x16 addr 0 [])
  | _ => s

/-- One RED has been performed: a card or a context that awaits it goes on (R188, R371). -/
def redDone (s : State) : Asker → State
  | .ctx lid wid _ _ _ _ idx => updTask s lid wid fun c => c.redPassed idx
  | .card id => { s with cards := s.cards.map fun e => if e.1 = id then (e.1, { e.2 with performed := true }) else e }
  | .peer c _ _ => s.report (.peerReply c 0 0 0 [])
  | _ => s

/-- The REDs below an asker have been performed; their parting entries are freed (R282). -/
def finishReds (s : State) (a : Asker) : State :=
  let (as, ids) := constituents s (s.parts.length + 1) a
  as.foldl redDone { s with parts := s.parts.filter fun e => !ids.contains e.1 }

/-- The REDs among the constituents of a request that has been performed are outstanding no longer, although the reply is
still on its way to the others (R278, R282). -/
def settleReds : Nat → Asker → State → State
  | fuel + 1, .entry id, s =>
    match find? s.parts id with
    | none => s
    | some e =>
      let s1 := if e.p.red then finishReds s e.p.asker else settleReds fuel e.p.asker s
      let s2 := if e.q.red then finishReds s1 e.q.asker else settleReds fuel e.q.asker s1
      let gone (r : Req) : Req := if r.red then { r with asker := .gone } else r
      { s2 with parts := s2.parts.map fun x => if x.1 = id then (x.1, { x.2 with p := gone e.p, q := gone e.q }) else x }
  | _, _, s => s

/-- The old value of a request that has been performed: it travels back over the circuit on which the request came; on one die it
is there (R278, R379). -/
def sendBack (s : State) (rid : Nat) (r : Req) (x : Nat) : State :=
  let s1 := settleReds (s.parts.length + 1) r.asker s
  if (reqCirc? s r).isSome then { s1 with reqs := put s1.reqs rid { r with back := some x } }
  else deliverReply s1 r.asker x

/-- The home performs a request, and the reply leaves; or the reply of one that has been performed arrives (R276, R277,
R283). -/
def performReq (s : State) (rid : Nat) : State :=
  match find? s.reqs rid with
  | none => s
  | some r =>
    let s1 := { s with reqs := del s.reqs rid }
    let (as, ids) := constituents s (s.parts.length + 1) r.asker
    match r.back with
    | some x => deliverReply s1 r.asker x
    | none =>
      if r.word.isNone && !r.ext && isBad s r.loc then
        as.foldl failAsker { s1.report (.assayDue (memRow s r.loc)) with parts := s1.parts.filter fun e => !ids.contains e.1 }
      else
        let (s2, x) := homeStep s1 r
        if r.red then finishReds s2 r.asker else sendBack s2 rid r x

/-! The order of requests (R263, R264, R342). -/

/-- The requests that were alloyed into a request, itself if it is none. -/
def leavesOf (s : State) : Nat → Req → List Req
  | 0, r => [r]
  | fuel + 1, r =>
    match r.asker with
    | .entry id =>
      match find? s.parts id with
      | some e => leavesOf s fuel e.p ++ leavesOf s fuel e.q
      | none => []
    | _ => [r]

/-- The requests that a request carries. -/
def carried (s : State) (r : Req) : List Req := leavesOf s (s.parts.length + 1) r

/-- Who makes fetch-and-ops in an order of its own: a task, a DISPATCH card, or a requester of a peer device. -/
inductive Origin where
  | task (lid wid : Nat)
  | records (id : Nat)
  | far (requester : Nat)
deriving DecidableEq, Repr

/-- Who makes a request, and its place in that order (R264, R378, R399). -/
def originOf (r : Req) : Option (Origin × Nat) :=
  match r.asker with
  | .ctx l w _ _ _ _ i => some (.task l w, i)
  | .slot id i => some (.records id, i)
  | .peer _ _ _ => some (.far r.requester, r.reqid)
  | _ => none

/-- The first of two requests comes before the other in their maker's order; the ids of a requester wrap (R378). -/
def madeBefore (p q : Req) : Bool :=
  match originOf p, originOf q with
  | some (.far a, i), some (.far b, j) => a == b && i != j && seqLe i j
  | some (a, i), some (b, j) => a == b && decide (i < j)
  | _, _ => false

/-- A request carries an access that one engine makes to a location before an access of the other request (R264, R281, R399). -/
def precedes (s : State) (p q : Req) : Bool :=
  p.word.isNone && q.word.isNone && p.ext == q.ext &&
    rangesMeet p.loc (aopWidth p.w64 / 8) q.loc (aopWidth q.w64 / 8) &&
    (carried s p).any fun x => (carried s q).any fun y => madeBefore x y

/-- The circuit over which a request reaches its home slice: its own, or that over which a peer device has sent it. -/
def arrivesBy? (s : State) (r : Req) : Option Nat :=
  match r.asker with
  | .peer c _ _ => some c
  | _ => reqCirc? s r

/-- A request travels before another on one circuit, from one sender to one home slice (R342). -/
def circBefore (s : State) (p q : Nat × Req) : Bool :=
  (arrivesBy? s p.2).isSome && arrivesBy? s p.2 == arrivesBy? s q.2 && p.2.requester == q.2.requester && p.2.ext == q.2.ext &&
    locHome p.2.loc == locHome q.2.loc && sliceOf p.2.loc == sliceOf q.2.loc && decide (p.1 < q.1)

/-- Some request on its way, other than those named, goes before a request (R264, R342). -/
def heldBehind (s : State) (but : List Nat) (q : Nat × Req) : Bool :=
  s.reqs.any fun e => !but.contains e.1 && e.2.back.isNone && (precedes s e.2 q.2 || circBefore s e q)

/-- Whether a request, or one that it carries, is outstanding on a circuit (R377, R379). -/
def onCirc (s : State) (c : Nat) (r : Req) : Bool := (r :: carried s r).any fun x => reqCirc? s x == some c

/-- Whether the receipts of requests on a circuit are still to be asked for (R379). -/
def asking (s : State) (c : Nat) : Bool := s.reqs.any fun e => e.2.ask && onCirc s c e.2

/-- Whether a request, or its reply, travels: on its die, or over a circuit that carries traffic and whose earlier requests have
their receipts (R345, R354, R379). -/
def reqMoves (s : State) (r : Req) : Bool :=
  match reqCirc? s r with
  | none => true
  | some c => carries s c && !asking s c

/-- A request is performed at its home slice (R276). -/
def execAtomicAtHome (rid : Nat) (s : State) : HO :=
  match find? s.reqs rid with
  | none => .next s
  | some r => .next (if reqMoves s r && (r.back.isSome || !heldBehind s [rid] (rid, r)) then performReq s rid else s)

/-- Combine (R281). -/
def combine (op : Aop) (w64 : Bool) (a b : Nat) : Nat := aopNew op w64 a b 0

/-- Two matching requests (R280): barrier arrivals match those of their own counter alone. -/
def matching (p q : Req) : Bool :=
  p.back.isNone && q.back.isNone && p.loc == q.loc && p.aop == q.aop && p.w64 == q.w64 && p.aop != .cas && p.lid == q.lid &&
    p.combine && q.combine &&
    p.word == q.word

/-! The routers of a die (R244, R280, R281). -/

/-- The port router beside a unit of a requester number that is no core (R378), as `routerXY` numbers it. -/
def unitRouter (u : Nat) : Nat := if u < 32 then u else if u < 40 then 32 + (u - 32) / 2 else 32 + (u - 40) % 4

/-- The dies of a circuit's path toward a home die, each with the ports at which a request arrives and leaves (R342). -/
def circPath (o : EstOp) (home : Nat) : List (Nat × Option Nat × Option Nat) :=
  let rs : List (Nat × Nat × Nat) := relaysOf o
  if o.x then (o.da.toNat, none, some o.pa.toNat) :: rs.map fun r => (r.1, some r.2.1, some r.2.2)
  else if o.db.toNat = home then
    (o.da.toNat, none, some o.pa.toNat) :: rs.map (fun r => (r.1, some r.2.1, some r.2.2)) ++ [(o.db.toNat, some o.pb.toNat, none)]
  else
    (o.db.toNat, none, some o.pb.toNat) :: (rs.reverse).map (fun r => (r.1, some r.2.2, some r.2.1)) ++
      [(o.da.toNat, some o.pa.toNat, none)]

/-- The ports at which a request's circuit crosses a die (R342, R376). -/
def crossings (s : State) (r : Req) (d : Nat) : List (Option Nat × Option Nat) :=
  match (reqCirc? s r).bind fun k => (s.circuit k).est with
  | none => []
  | some o => ((circPath o (locHome r.loc)).filter fun x => x.1 == d).map (·.2)

/-- The ports at which a request leaves a die for a circuit. -/
def leavePorts (s : State) (r : Req) (d : Nat) : List Nat := (crossings s r d).filterMap (·.2)

/-- Where a request may enter and leave a die, as routers: its own unit, the router at which it was alloyed, or the port where it
arrives, which on a relay counts as the leaving port's own side (R376); and its home slice or the port where it leaves. A barrier
arrival may come from any router and go to any slice of its die (R222). -/
def dieLegs (s : State) (r : Req) (d : Nat) : List (Nat × Nat) :=
  let all := List.range 36
  if r.word.isSome then
    if locHome r.loc = d then all.flatMap fun a => (List.range 32).map fun b => (a, b) else []
  else
    let own : Option Nat := match r.site with
      | some x => if x / 64 = d then some (x % 64) else none
      | none => if r.requester % 16 = d then some (unitRouter (r.requester / 16 % 64)) else none
    if (reqCirc? s r).isNone then
      match own with
      | some a => if locHome r.loc = d then [(a, sliceOf r.loc)] else []
      | none => []
    else
      (crossings s r d).filterMap fun x =>
        match x with
        | (some i, none) => some (own.getD (32 + i / 2), sliceOf r.loc)
        | (none, some o) => own.map fun a => (a, 32 + o / 2)
        | (some _, some o) => some (32 + o / 2, 32 + o / 2)
        | (none, none) => none

/-- The inputs of a router at which a request may stand on a shortest path (R244, R280): 0 local, 1 to 4 its neighbours. -/
def inputsAt (s : State) (r : Req) (d x : Nat) : List Nat :=
  (dieLegs s r d).flatMap fun l =>
    let a := routerXY l.1
    let b := routerXY l.2
    let p := routerXY x
    if gridDist a p + gridDist p b ≠ gridDist a b then []
    else if a = p then [0]
    else
      (if gridDist a (p.1, p.2 - 1) < gridDist a p ∧ 0 < p.2 then [1] else []) ++
        (if gridDist a (p.1 + 1, p.2) < gridDist a p then [2] else []) ++
        (if gridDist a (p.1, p.2 + 1) < gridDist a p then [3] else []) ++
        (if gridDist a (p.1 - 1, p.2) < gridDist a p ∧ 0 < p.1 then [4] else [])

/-- The die and the router, as `routerXY` numbers it, of a parting buffer. -/
def bufferSite (router : Nat) : Nat × Nat :=
  if router < 1024 then (router / 64, router % 64) else ((router - 1024) / 8, 32 + (router - 1024) % 8 / 2)

/-- Whether a parting buffer stands on a request's way: one onto a circuit at a port by which it leaves, and one inside a die at
a router at which it does not leave the die (R376). -/
def leavesBy (s : State) (router : Nat) (r : Req) : Bool :=
  let out := leavePorts s r (bufferSite router).1
  if router < 1024 then out.all fun p => 32 + p / 2 != (bufferSite router).2
  else out.contains ((router - 1024) % 8)

/-- Two requests may wait at one output of a router, the first on an input numbered no higher (R281). Which shortest path
the slot table gives is not stated, so that any is allowed (log 46). -/
def mayMeet (s : State) (router : Nat) (p q : Req) : Bool :=
  let (d, x) := bufferSite router
  leavesBy s router p && leavesBy s router q &&
    (inputsAt s p d x).any fun i => (inputsAt s q d x).any fun j => decide (i ≤ j)

/-- Entries of a router's parting buffer: 32, or 64 on a gateway's or relay's output onto a circuit (R280, R376).
Routers are numbered 64 × die + router; outputs onto circuits from 1024 on, as 1024 + 8 × die + port. -/
def partingRoom (router : Nat) : Nat := if router < 1024 then 32 else 64

/-- The port router, as a requester, by which an alloyed request leaves its die over a circuit (R377, R378); none for one that goes
on to its home slice. -/
def leavesAs? (s : State) (router : Nat) (p : Req) : Option Nat :=
  let die := (bufferSite router).1
  if router < 1024 then (leavePorts s p die).head?.map fun o => requesterOf s die (40 + o / 2) 0
  else some (requesterOf s die (40 + (router - 1024) % 8 / 2) 0)

/-- What an alloyed request carries as its requester and its request id: those of the port router by which it leaves the die (R377,
R378), which keeps the id of a constituent that is its own; else those of its first remote constituent, or of its first. For a
request that a core router has alloyed, to which R378 gives no number of its own, that is a DESIGN CHOICE (log 46). -/
def alloyName (s : State) (router : Nat) (a b : Req) : Nat × Nat :=
  match leavesAs? s router a with
  | some rq =>
    (rq, if a.requester = rq then a.reqid else if b.requester = rq then b.reqid else lookD s.reqIds rq 0)
  | none => if !a.remote && b.remote then (b.requester, b.reqid) else (a.requester, a.reqid)

/-- The request that two matching ones become (R281, R377). -/
def alloyed (s : State) (router id : Nat) (a b : Req) : Req :=
  let (rq, rid) := alloyName s router a b
  { a with
    asker := .entry id
    red := a.red && b.red
    b := combine a.aop a.w64 a.b b.b
    requester := rq
    reqid := rid
    rem := a.remote || b.remote
    site := some (if router < 1024 then router else 64 * ((router - 1024) / 8) + (bufferSite router).2)
    via := reqCirc? s a }

/-- Two requests meet at a router and travel on as one, the first being `p` (R281); a context's accesses to one location keep
their order (R264), and the router, as the requester of what leaves it, has room for a request (R377, R378). -/
def execAlloy (router p q : Nat) (s : State) : HO :=
  match find? s.reqs p, find? s.reqs q with
  | some a, some b =>
    let room := (s.parts.filter fun e => e.2.router == router && !(e.2.p.red && e.2.q.red)).length < partingRoom router
    let order := mayMeet s router a b && !precedes s b a && !heldBehind s [p, q] (p, a) && !heldBehind s [p, q] (q, b)
    let id := s.m.nextReq
    let r := alloyed s router id a b
    let new := r.requester != a.requester && r.requester != b.requester
    let free := !new || roomFor s r
    if p ≠ q ∧ matching a b = true ∧ room = true ∧ order = true ∧ free = true then
      let s1 := if new then takeId s r else s
      .next { s1 with
        reqs := put (del (del s1.reqs p) q) (id + 1) r
        parts := put s1.parts id ⟨router, a, b, none⟩
        m := { s1.m with nextReq := id + 2 } }
    else .next s
  | _, _ => .next s

/-- A reply that has reached the router of an entry reaches one constituent (R282, R379): a RED takes none, and one of another die
gets it over the circuit by which it came. -/
def replyMoves (s : State) (router : Nat) (r : Req) : Bool :=
  r.red || r.requester % 16 == (bufferSite router).1 || reqMoves s r

/-- The reply x of an alloyed request splits: x toward the first, and what it would have left toward the second (R282). -/
def partReply (s : State) (entry : Nat) (e : PartEntry) (x : Nat) : State :=
  let s1 := { s with parts := del s.parts entry }
  let s2 := if e.p.red then finishReds s1 e.p.asker else deliverReply s1 e.p.asker x
  let y := if e.p.aop = .swap then e.p.b else combine e.p.aop e.p.w64 x e.p.b
  if e.q.red then finishReds s2 e.q.asker else deliverReply s2 e.q.asker y

/-- The reply of an alloyed request splits, once it can go on to both constituents (R282): a reply toward a RED is discarded. -/
def execPart (entry : Nat) (s : State) : HO :=
  match find? s.parts entry with
  | none => .next s
  | some e =>
    match e.reply with
    | none => .next s
    | some x => .next (if replyMoves s e.router e.p && replyMoves s e.router e.q then partReply s entry e x else s)

/-- Whether a task has a request on its way over circuit c, seen from its die, alloyed or not (R260, R274). -/
def requestsOver (s : State) (c : Context) (pos circ : Nat) : Bool :=
  let mine (r : Req) : Bool := r.asker.of c.bind.lid c.bind.wid (fun _ => true) &&
    pairOf s c.bind.lid (dieOf pos) (locHome r.loc) == circ
  s.reqs.any (fun e => mine e.2) || s.parts.any fun e => mine e.2.p || mine e.2.q

/-- FENCE (R274): every other access of the context is performed when its instruction completes (log 13), so it waits
for the fetch-and-op requests alone; a RED's uncorrectable error is raised here (R277). -/
def execFence (o : FenceOp) (s : State) : HO :=
  runS s fun e c => do
    check (o.scope == .circ || o.circ == 0) .illop
    match o.kind, c.redErrs with
    | .acq, _ => await (!atomOut s c)
    | _, [] =>
      await (if o.scope = .circ then !requestsOver s c s.cur o.circ.toNat
             else !requestsOut s c.bind.lid c.bind.wid)
    | _, _ :: _ => .ok ()
    match o.kind, c.redErrs with
    | .acq, _ => .ok (s.setCtx s.cur (c.advance e))
    | _, [] => .ok (s.setCtx s.cur (c.advance e))
    | _, r :: rest => .ok (takeTrap s s.cur { c with redErrs := rest } e (redTrap r 4))

/-- SBAR: every access of a named stream before it has completed when it issues (R201); the engines that walk apart
are held where they issue. -/
def execSbar (sm : BitVec 3) (s : State) : HO :=
  runC s fun e c => do
    check (sm != 0) .illop
    .ok ((if c.together then c else { c with bars := c.bars ++ [(⟨(c.pos.get e).idx, sm⟩ : Bar)] }).advance e)

end Sys2Proof.Machine
end

