-- ==== Sys2Proof/Machine/Teams.lean ====
section
/-!
DEFINITION. Where teams may run: working cores, the dies that can hold a team, and the die on which a team belongs (spec/10
R211, R215, R220, R223).
-/
namespace Sys2Proof.Machine

/-- A working core: ready, on a ready die, and not fenced (R215, R326, R407). -/
def coreWorks (s : State) (d c : Nat) : Bool :=
  s.m.ready.getLsbD d && s.m.ready.getLsbD (192 + 32 * d + c) && !(defectsOf s 1).any fun x => x.1 == d && x.2 % 32 == c

/-- The allowed, working cores of a die (R213, R215). -/
def dieCores (s : State) (place : BitVec 512) (d : Nat) : List Nat :=
  (List.range 32).filter fun c => place.getLsbD (32 * d + c) && coreWorks s d c

/-- Contexts whose windows one core can hold (R215, R220). -/
def coreCap (window : Nat) : Nat := min 4 (64 / window)

/-- The greatest team of any phase (R211). -/
def maxTeam (h : BitVec 4096) (pext : List Nat) : Nat :=
  (List.range (hdrAt h 6 1 + 1)).foldl (fun m p => max m (groupSize h pext (hdrTeamLevel h p))) 0

/-- The dies that can hold a whole team of a size (R215, R220). -/
def teamDies (s : State) (h : BitVec 4096) (place : BitVec 512) (size : Nat) : List Nat :=
  (List.range 16).filter fun d => size ≤ (dieCores s place d).length * coreCap (hdrWindow h)

/-- The allowed die that a team is placed on (R220): the t-th, counted cyclically. -/
def fixedDie (s : State) (l : Launch) (t : Nat) : Option Nat :=
  let ds := teamDies s l.hdr l.place (maxTeam l.hdr l.pext)
  ds[t % max 1 ds.length]?

/-- The team number of a task in its launch's phase (R211). -/
def Launch.teamOf (l : Launch) (wid : Nat) : Nat := teamNumber l.hdr l.pext wid l.tl

/-- The dies on which a team's live tasks are, or, pre-empted, were. -/
def diesOfTeam (s : State) (lid : Nat) (l : Launch) (t : Nat) : List Nat :=
  let mine (c : Context) : Bool := c.bind.lid == lid && l.teamOf c.bind.wid == t
  (((s.ctxs.filter fun e => mine e.2).map fun e => dieOf e.1) ++
    ((s.saved.filter fun e => mine e.2.ctx).map fun e => dieOf e.2.pos)).eraseDups

/-- The one position of a task in deterministic mode (R220): by its team's number and its index in the team. -/
def detPos (s : State) (l : Launch) (wid : Nat) : Option Nat :=
  (fixedDie s l (l.teamOf wid)).map fun d =>
    let i := groupIndex l.hdr l.pext wid l.tl
    let cap := max 1 (coreCap (hdrWindow l.hdr))
    128 * d + 4 * (dieCores s l.place d).getD (i / cap) 0 + i % cap

/-- Whether a task stands at another position than the one of deterministic mode. -/
def misplaced (s : State) (l : Launch) (wid pos : Nat) : Bool := hdrAt l.hdr 3 1 % 2 == 1 && detPos s l wid != some pos

/-- Whether a team is not where it belongs: on more than one die, or, in deterministic mode, with a member at another position
than its own (R211, R220). -/
def scattered (s : State) (lid : Nat) (l : Launch) (t : Nat) : Bool :=
  1 < (diesOfTeam s lid l t).length || s.ctxs.any fun e =>
    e.2.bind.lid == lid && l.teamOf e.2.bind.wid == t && misplaced s l e.2.bind.wid e.1

/-- A new phase may make teams of tasks that are not together (R211, R223): the firmware pre-empts every member of such a team,
and binds them anew (R220). -/
def gatherTeams (s : State) (lid : Nat) (l : Launch) : State :=
  { s with ctxs := s.ctxs.map fun e =>
    if e.2.bind.lid == lid && scattered s lid l (l.teamOf e.2.bind.wid) then (e.1, { e.2 with preempting := true }) else e }

end Sys2Proof.Machine
end

