-- ==== Sys2Proof/Machine/Barrier.lean ====
section
/-!
DEFINITION. Barriers and phases (spec/10 R221 to R223). Level 6 stands for PHASE, whose group is the whole launch.
-/
namespace Sys2Proof.Machine

/-- The size of a level's groups. -/
def barSize (l : Launch) (k : Nat) : Nat :=
  if k = phaseLevel then taskCount l.hdr l.pext else groupSize l.hdr l.pext k

/-- Whether a level is built above the die's barrier unit (R222, R223). -/
def barAbove (l : Launch) (k : Nat) : Bool :=
  if k = phaseLevel then l.tl < hdrNfield l.hdr - 1 else l.tl < k

/-- The key of a group's total at the package barrier unit, and of its arrival word on a die (R222). -/
def barKey (lid k g : Nat) : Nat := (lid * 8 + k) * 2 ^ 64 + g
def wordKey (lid k g die : Nat) : Nat := barKey lid k g * 16 + die

/-- The live tasks of a launch, resident or saved. -/
def liveTasks (s : State) (lid : Nat) : List Context :=
  (s.ctxs.map (·.2) ++ s.saved.map (fun e => e.2.ctx)).filter fun c => c.bind.lid == lid

/-- Arrivals that ended members stand for: each counts as arrived at every later barrier (R221, R222). -/
def endedLack (l : Launch) (k g n : Nat) : Nat :=
  ((l.endedTasks.filter fun t => barGroup l t.wid k == g).map fun t => n - lookD t.arrivals k 0).sum

/-- Arrivals so far at the n-th barrier of a group (R222): those performed at the arrival words above the team level,
those made at the die's unit at or below it. -/
def arrivedAt (s : State) (l : Launch) (lid k g n : Nat) : Nat :=
  (if barAbove l k then lookD s.arrivals (barKey lid k g) 0
   else (((liveTasks s lid).filter fun c => barGroup l c.bind.wid k == g).map fun c =>
       min n (lookD c.barCount k 0)).sum +
     ((l.endedTasks.filter fun t => barGroup l t.wid k == g).map fun t => min n (lookD t.arrivals k 0)).sum) +
    endedLack l k g n

/-- Whether the n-th barrier of a group completes (R222). -/
def barDone (s : State) (l : Launch) (lid k g n : Nat) : Bool := n * barSize l k ≤ arrivedAt s l lid k g n

/-- A member leaves a barrier: its place moves on, also while its handler runs (R319, R335). -/
def Context.leaveBar (c : Context) : Context :=
  let q := if (c.r.span == 0 || c.stepping) && c.pos.together then c.pos.map EnginePos.next
    else c.pos.set .syn c.pos.syn.next
  if c.stepping && c.pos.together then { c with pos := q, barWait := none }.debugHalt .syn stepArg c.pos.syn.word
  else { c with pos := q, barWait := none }

/-- A task's new team and s3, TEAM and BAR counts at the start of a phase (R223). -/
def enterPhase (l : Launch) (c : Context) : Context :=
  let tl := l.tl
  let i := groupIndex l.hdr l.pext c.bind.wid tl
  let n := groupSize l.hdr l.pext tl
  let c1 := { c with
    bind := { c.bind with tidx := i, tsize := n, phase := l.phase }
    barCount := c.barCount.filter fun e => e.1 == phaseLevel }
  c1.wrS 3 (BitVec.ofNat 64 (i + n * 2 ^ 32))

/-- Change every live task of a launch. -/
def updLaunchTasks (s : State) (lid : Nat) (f : Context → Context) : State :=
  { s with
    ctxs := s.ctxs.map fun e => if e.2.bind.lid == lid then (e.1, f e.2) else e
    saved := s.saved.map fun e => if e.2.ctx.bind.lid == lid then (e.1, { e.2 with ctx := f e.2.ctx }) else e }

/-- The waiting members of a group leave. -/
def releaseBar (s : State) (l : Launch) (lid k g : Nat) : State :=
  let left (c : Context) : Bool := c.barWait == some k && barGroup l c.bind.wid k == g
  updLaunchTasks s lid fun c => if left c then c.leaveBar else c

/-- The count that a group's waiting members await. -/
def barTarget? (s : State) (l : Launch) (lid k g : Nat) : Option Nat :=
  ((liveTasks s lid).find? fun c => c.barWait == some k && barGroup l c.bind.wid k == g).map fun c =>
    lookD c.barCount k 0

/-- A barrier completes and releases its waiting members (R222). -/
def execBarrierComplete (lid level group : Nat) (s : State) : HO :=
  match s.launch? lid with
  | none => .next s
  | some l =>
    match barTarget? s l lid level group with
    | none => .next s
    | some n =>
      .next (if level < phaseLevel ∧ barDone s l lid level group n = true then releaseBar s l lid level group else s)

/-- The new phase takes effect before any member leaves (R223). -/
def newPhase (s : State) (l : Launch) (lid : Nat) : State :=
  let l1 := { l with
    phase := l.phase + 1
    endedTasks := l.endedTasks.map fun t => { t with arrivals := t.arrivals.filter fun e => e.1 == phaseLevel } }
  let below (e : Nat × Nat) (d : Nat) : Bool :=
    e.1 / d / 2 ^ 64 / 8 == lid && e.1 / d / 2 ^ 64 % 8 != phaseLevel
  let s1 := updLaunchTasks
    { s.setLaunch lid l1 with
      reqs := s.reqs.filter fun e => match e.2.word with | some (a, _) => !below (a, 0) 1 | none => true
      arrivals := s.arrivals.filter fun e => !below e 1
      arrWords := s.arrWords.filter fun e => !below e 16 }
    lid (enterPhase l1)
  gatherTeams s1 lid l1

/-- A phase barrier completes (R223). -/
def execPhaseComplete (lid : Nat) (s : State) : HO :=
  match s.launch? lid with
  | none => .next s
  | some l =>
    match barTarget? s l lid phaseLevel 0 with
    | none => .next s
    | some n =>
      .next (if barDone s l lid phaseLevel 0 n then releaseBar (newPhase s l lid) l lid phaseLevel 0 else s)

/-- A context arrives: its count rises, and it waits (R221). -/
def Context.arrive (c : Context) (k : Nat) : Context :=
  { c with
    barCount := putD c.barCount k (lookD c.barCount k 0 + 1) 0
    barWait := some k }

/-- A member's arrival at the die's barrier unit: that at a PHASE counts with the launch's total, from which a later PHASE above the
team level goes on, since PHASE keeps one count (R223). -/
def arriveHere (s : State) (lid k g : Nat) : State :=
  if k = phaseLevel then { s with arrivals := putD s.arrivals (barKey lid k g) (lookD s.arrivals (barKey lid k g) 0 + 1) 0 } else s

/-- A member's arrival above the team level leaves for the arrival word of its die, as a fetch-and-add that the die's barrier
unit issues (R222): no memory of a program holds the word (log 23). At or below it the die's unit counts it. -/
def arriveAt (s : State) (l : Launch) (c : Context) (pos k : Nat) : State :=
  if barAbove l k then
    let g := barGroup l c.bind.wid k
    let d := dieOf pos
    let r : Req :=
      { asker := .arrival c.bind.lid c.bind.wid k, red := true, loc := d % 16 * 2 ^ 40, aop := .add, w64 := true, b := 1, c := 0
        lid := c.bind.lid, requester := d % 16, reqid := 0, combine := true
        word := some (barKey c.bind.lid k g, wordKey c.bind.lid k g d) }
    { s with reqs := put s.reqs s.m.nextReq r, m := { s.m with nextReq := s.m.nextReq + 1 } }
  else arriveHere s c.bind.lid k (barGroup l c.bind.wid k)

/-- What BAR and PHASE await before they arrive: every earlier instruction and access (R221). -/
def barReady (s : State) (c : Context) : Bool :=
  c.releases.isEmpty && !requestsOut s c.bind.lid c.bind.wid

/-- BAR (R221). A group of one completes at once. -/
def execBar (k : BitVec 3) (s : State) : HO :=
  runS s fun e c => do
    check (k.toNat < 6) .illop
    match s.launch? c.bind.lid with
    | none => hold
    | some l =>
      await (c.barWait.isNone && barReady s c)
      let c1 := c.arrive k.toNat
      .ok (if barSize l k.toNat ≤ 1 then s.setCtx s.cur { c1.advance e with barWait := none }
           else (arriveAt s l c s.cur k.toNat).setCtx s.cur c1)

/-- PHASE (R223): ILLOP past the last phase. A launch of one task completes it at once. -/
def execPhase (s : State) : HO :=
  runS s fun e c => do
    match s.launch? c.bind.lid with
    | none => hold
    | some l =>
      check (c.barWait == some phaseLevel || l.phase < hdrAt l.hdr 6 1) .illop
      await (c.barWait.isNone && barReady s c)
      let c1 := c.arrive phaseLevel
      .ok (if barSize l phaseLevel ≤ 1 then
             newPhase (s.setCtx s.cur ({ c1.advance e with barWait := none })) l c.bind.lid
           else (arriveAt s l c s.cur phaseLevel).setCtx s.cur c1)

/-- Whether a request carries the arrival of a task (R222, R280). -/
def carriesArrival (s : State) (lid wid : Nat) (r : Req) : Bool :=
  (carried s r).any fun a => match a.asker with
    | .arrival l w _ => l == lid && w == wid
    | _ => false

/-- An arrival above the team level is performed at its arrival word, alloyed or not, and counted at the package barrier
unit (R222). -/
def execBarrierArrivalAdd (pos : Nat) (s : State) : HO :=
  match s.ctx? pos with
  | none => .next s
  | some c =>
    match s.reqs.find? fun e => carriesArrival s c.bind.lid c.bind.wid e.2 with
    | some (rid, _) => .next (performReq s rid)
    | none => .next s

end Sys2Proof.Machine
end

