-- ==== Sys2Proof/Machine/System.lean ====
section
/-!
DEFINITION. The system registers and the system instructions (spec/01 R21; spec/04 R108 to R112; spec/05 R120; spec/07
R169; spec/10 R212; spec/11 R235, R237, R238; spec/13 R290, R300, R312; spec/14 R318, R334; spec/16 R346; spec/20 R392).
-/
namespace Sys2Proof.Machine

/-- STATUS (Table 6). -/
def statusWord (c : Context) : Word :=
  BitVec.ofNat 64 ((if c.bind.det then 1 else 0) + (if c.bind.pad then 2 else 0) + (if c.sMigr then 4 else 0) +
    (if c.sFlt then 8 else 0) + c.r.cls % 4 * 16)

/-- CORE (Table 3). -/
def coreWord (s : State) (pos : Nat) : Word :=
  BitVec.ofNat 64 (pos % 128 / 4 + dieOf pos % 16 * 2 ^ 8 + s.m.devno % 256 * 2 ^ 16)

/-- WREFR at a position in the refresh period (Table 65, R238). -/
def wrefrWord (pos : Nat) : Word :=
  let act := pos % 4000 < 360
  let grp := if act then pos / 4000 else (pos / 4000 + 1) % 16
  BitVec.ofNat 64 (pos + grp * 2 ^ 16 + (if act then 2 ^ 20 else 0))

/-- Word `k` of a chain descriptor (Table 78). -/
def chainWord (q : Chain) (k : Nat) : Word :=
  BitVec.ofNat 64 (match k with
    | 0 => (if q.en then 1 else 0) + (if q.ring then 2 else 0) + (if q.failed then 4 else 0) + q.ecode * 2 ^ 8
    | 1 => q.base | 2 => q.rsize | 3 => q.tail | 4 => q.done | 5 => q.sqaddr | 6 => q.lpos | _ => 0)

/-- LINKSTn (Table 116). -/
def linkWord (l : Link) : Word :=
  BitVec.ofNat 64 ((if l.up then 1 else 0) + (if l.trains then 2 else 0) + (if l.drain then 4 else 0) +
    (if l.up then l.width % 32 * 2 ^ 8 else 0) + l.pdev % 256 * 2 ^ 16 + l.plink % 32 * 2 ^ 24 +
    l.demand % 2 ^ 32 * 2 ^ 32)

/-- FSTEPNO (Table 91). -/
def fstepnoWord (s : State) (lid : Nat) : Word :=
  match s.launch? lid with
  | some l => match l.prog with
    | some p => BitVec.ofNat 64 (p.stepNo + (if p.ended then 2 ^ 32 else 0))
    | none => 0
  | none => 0

/-- Numbers that only handler mode may name (R318). -/
def isFaultReg (n : Nat) : Bool := 0x80 ≤ n && n ≤ 0x8F

/-- Those of them that no table assigns, which raise ILLOP in handler mode (R108). -/
def noFaultReg (n : Nat) : Bool := 0x84 ≤ n && n ≤ 0x87

/-- The fault registers (Table 84). -/
def faultRegWord (f : FaultRegs) (n : Nat) : Word :=
  if n = 0x80 then f.fcause else if n = 0x81 then f.faddr else if n = 0x82 then f.fslot
  else if n = 0x83 then f.fseq else if n = 0x8E then f.fnestv else if n = 0x8F then f.fnestm
  else lookD f.fpc (n - 0x88) 0

/-- The value of a system register other than WREFR and the fault registers; none for a number that no table
assigns (R108). -/
def sysRead (s : State) (pos : Nat) (c : Context) (n : Nat) : Option Word :=
  let nat (x : Nat) : Option Word := some (BitVec.ofNat 64 x)
  if n = 0x00 then some (statusWord c)
  else if n = 0x01 then some (coreWord s pos)
  else if n = 0x02 then nat (pos % 4)
  else if n = 0x03 then nat c.bind.wid
  else if n = 0x04 then nat c.bind.lid
  else if n = 0x08 then nat c.r.span
  else if n = 0x09 then nat c.r.rbase
  else if n = 0x0A then some (c.r.fpmode.setWidth 64)
  else if n = 0x0B then some (c.r.flags.setWidth 64)
  else if n = 0x0C then some (c.r.srseed.setWidth 64)
  else if n = 0x0D then nat (if c.r.latmode then 1 else 0)
  else if n = 0x0E then nat c.bind.window
  else if 0x10 ≤ n ∧ n ≤ 0x17 then some (lookD c.mat.tshape (n - 0x10) 0)
  else if n = 0x18 then some 2
  else if n = 0x19 then nat c.spmode
  else if n = 0x20 then nat c.r.txsel
  else if 0x21 ≤ n ∧ n ≤ 0x28 then some ((lookD c.tens c.r.txsel 0).extractLsb' (64 * (n - 0x21)) 64)
  else if n = 0x30 then nat (c.bind.tidx + c.bind.tsize * 2 ^ 32)
  else if n = 0x31 then nat c.bind.phase
  else if 0x32 ≤ n ∧ n ≤ 0x35 then nat (c.bind.sh.getD (n - 0x32) 0)
  else if n = 0x36 then nat c.bind.hmark
  else if n = 0x37 then nat (c.bind.hmark / 2 ^ 64)
  else if n = 0x38 then nat c.bind.sel
  else if n = 0x41 then nat (if (find? s.wsOpen (c.bind.lid * 16 + dieOf pos)).isSome then 1 else 0)
  else if n = 0x42 then nat c.bind.root
  else if n = 0x43 then nat c.r.gver
  else if n = 0x44 then nat c.r.qsel
  else if 0x45 ≤ n ∧ n ≤ 0x4C then some (chainWord (c.chain c.r.qsel) (n - 0x45))
  else if 0x50 ≤ n ∧ n ≤ 0x6F then some (lookD (s.die (dieOf pos)).ranges (n - 0x50) 0)
  else if n = 0x70 then nat 0x00002EE0096000A0
  else if n = 0x71 then some c.r.frep
  else if n = 0x72 then some (fstepnoWord s c.bind.lid)
  else if n = 0x7C then nat s.m.wdlim
  else if 0xA0 ≤ n ∧ n ≤ 0xBF then some (linkWord (lookD s.links (n - 0xA0) {}))
  else none

/-- SYSRD (R108). -/
def execSysrd (o : SysRd) (s : State) : HO :=
  runS s fun e c =>
    let n := o.n.toNat
    if isFaultReg n then
      if !c.handler then raise .prot
      else if noFaultReg n then raise .illop
      else .ok (s.setCtx s.cur ((c.wrS o.d (faultRegWord c.flt n)).advance e))
    else if n = 0x40 then
      let d := s.die (dieOf s.cur)
      let p := (d.refreshPos + Config.refreshAdvance s.freeCtr) % 64000
      .ok ((s.setDie (dieOf s.cur) { d with
          refreshPos := p, cycle := d.cycle + Config.cycleAdvance s.freeCtr }).setCtx s.cur
        ((c.wrS o.d (wrefrWord p)).advance e))
    else
      match sysRead s s.cur c n with
      | some v => .ok (s.setCtx s.cur ((c.wrS o.d v).advance e))
      | none => raise .illop

/-! Chains through QW0 to QW7 (R290, R300). -/

/-- What a chain must hold once EN is set (R290). -/
def chainReady (q : Chain) : Bool :=
  q.tail == q.done && (if q.ring then 1 ≤ q.rsize else q.rsize == 0) &&
    q.base % (if q.ring then 64 else 4096) == 0 && q.sqaddr % 8 == 0

/-- A chain with EN set: LPOS starts at BASE (R290). -/
def Chain.enabled (q : Chain) : Chain := { q with en := true, lpos := if q.ring then 0 else q.base }

/-- Whether a chain has cards that have not retired. -/
def chainBusy (s : State) (lid wid q : Nat) : Bool :=
  s.cards.any fun e => e.2.of lid wid && e.2.q == q && e.2.inFlight

/-- The write that sets EN (R290). -/
def setEn (c : Context) (q : Nat) (ring : Bool) : Res Context :=
  let k := { c.chain q with ring := ring }
  if chainReady k then .ok (c.setChain q k.enabled) else raise .illop

/-- The write that clears EN (R290): at once when every card has retired; else the chain is left disabling, and the
write waits. -/
def clearEn (s : State) (pos : Nat) (c : Context) (e : Engine) (q : Nat) : State :=
  let k := c.chain q
  if chainBusy s c.bind.lid c.bind.wid q then s.setCtx pos (c.setChain q { k with disabling := true })
  else
    s.setCtx pos ((c.setChain q { k with en := false, failed := false, ecode := 0, failedSeq := 0,
                                         disabling := false }).advance e)

/-- A write of QW0 (R290, R300). -/
def writeQw0 (s : State) (pos : Nat) (c : Context) (e : Engine) (v : Nat) : Res State :=
  let q := c.r.qsel
  let k := c.chain q
  let en := v % 2 == 1
  let ring := v / 2 % 2 == 1
  let clr := v / 4 % 2 == 1
  if k.en then
    if ring != k.ring then raise .illop
    else if en then
      let s1 := s.setCtx pos (c.advance e)
      .ok (if clr then clearFailed s1 c.bind.lid c.bind.wid q else s1)
    else .ok (clearEn s pos c e q)
  else if en then do
    let c' ← setEn c q ring
    .ok (s.setCtx pos (c'.advance e))
  else .ok (s.setCtx pos ((c.setChain q { k with ring := ring }).advance e))

/-- Word `k` (1 to 5) of a chain written; the other words are RO (Table 78). -/
def chainWrite (q : Chain) (k v : Nat) : Chain :=
  match k with
  | 1 => { q with base := v % 2 ^ 56 }
  | 2 => { q with rsize := v % 2 ^ 16 }
  | 3 => { q with tail := v % 2 ^ 32 }
  | 4 => { q with done := v % 2 ^ 32 }
  | 5 => { q with sqaddr := v % 2 ^ 56 }
  | _ => q

/-- A write of QW1 to QW7: with EN set it may change nothing (R290). -/
def writeQw (c : Context) (k v : Nat) : Res Context :=
  let q := c.r.qsel
  let old := c.chain q
  let new := chainWrite old k v
  if old.en && new != old then raise .illop else .ok (c.setChain q new)

/-- A system register write that touches the context alone and needs no test; none where `sysWrite` does not reach
(R108, field by field under R9). -/
def sysWrite (c : Context) (n : Nat) (v : Word) : Option Context :=
  let x := v.toNat
  if n = 0x00 then
    some { c with sMigr := c.sMigr && !v.getLsbD 2, sFlt := c.sFlt && !v.getLsbD 3 }
  else if n = 0x08 then some { c with r := { c.r with span := min x 64 } }
  else if n = 0x09 then some (c.wrRbase (x % 32))
  else if n = 0x0A then some { c with r := { c.r with fpmode := v.setWidth 2 } }
  else if n = 0x0B then some { c with r := { c.r with flags := v.setWidth 6 } }
  else if n = 0x0C then some { c with r := { c.r with srseed := v.setWidth 32 } }
  else if n = 0x0D then some { c with r := { c.r with latmode := v.getLsbD 0 } }
  else if n = 0x20 then some { c with r := { c.r with txsel := x % 64 } }
  else if n = 0x43 then some { c with r := { c.r with gver := x % 256 } }
  else if n = 0x44 then some { c with r := { c.r with qsel := x % 16 } }
  else if n = 0x71 then
    some { c with r := { c.r with frep := c.r.frep &&& ~~~(v &&& (3#64 <<< 62)) } }
  else none

/-- Numbers assigned as RO, whose write changes nothing (R108). -/
def isRo (n : Nat) : Bool :=
  (1 ≤ n && n ≤ 4) || n == 0x0E || n == 0x18 || (0x30 ≤ n && n ≤ 0x38) || (0x40 ≤ n && n ≤ 0x42) ||
    (0x50 ≤ n && n ≤ 0x6F) || n == 0x70 || n == 0x72 || n == 0x7C || (0xA0 ≤ n && n ≤ 0xBF)

/-- The bits of FNESTV and FNESTM that no reserved field holds (Table 84). -/
def nestMask : Word := BitVec.ofNat 64 (2 ^ 57 - 1)

/-- SYSWR of the registers without a row of their own (R108). -/
def execSyswr (o : SysWr) (s : State) : HO :=
  runS s fun e c =>
    let n := o.n.toNat
    let v := c.rdS e o.a
    if isFaultReg n then
      if !c.handler then raise .prot
      else if noFaultReg n then raise .illop
      else
        .ok (s.setCtx s.cur ((if n = 0x8E then { c with flt := { c.flt with fnestv := v &&& nestMask } }
                              else if n = 0x8F then { c with flt := { c.flt with fnestm := v &&& nestMask } }
                              else c).advance e))
    else if n = 0x45 then writeQw0 s s.cur c e v.toNat
    else if 0x46 ≤ n ∧ n ≤ 0x4C then do
      let c' ← writeQw c (n - 0x45) v.toNat
      .ok (s.setCtx s.cur (c'.advance e))
    else
      match sysWrite (c.advance e) n v with
      | some c' => .ok (s.setCtx s.cur c')
      | none => if isRo n then .ok (s.setCtx s.cur (c.advance e)) else raise .illop

/-- SYSWR SPM: MODE in bits 1 to 0 (R169). A change of MODE changes no y register. -/
def execSyswrSpm (a : Reg) (s : State) : HO :=
  runC s fun e c => .ok ({ c with spmode := (c.rdS e a).toNat % 4 }.advance e)

/-- SYSWR FPCn: all six take the value, and V is cleared in FNESTV and FNESTM (R318). -/
def execSyswrFpc (o : SysWrK) (s : State) : HO :=
  runC s fun e c =>
    if c.handler then
      .ok ({ c with flt := c.flt.redirect (c.rdS e o.a) }.advance e)
    else raise .prot

/-- The writable bits of word `k` of a tensor entry (Table 33). -/
def tensMask (k : Nat) : Word :=
  if k = 0 then BitVec.ofNat 64 (2 ^ 25 - 1)
  else if k = 1 ∨ k = 7 then BitVec.ofNat 64 (2 ^ 56 - 1)
  else BitVec.allOnes 64

/-- A tensor entry with word `k` written. -/
def tensWrite (t : BitVec 512) (k : Nat) (v : Word) : BitVec 512 :=
  let m : BitVec 512 := (BitVec.allOnes 64).setWidth 512 <<< (64 * k)
  (t &&& ~~~m) ||| ((v &&& tensMask k).setWidth 512 <<< (64 * k))

/-- SYSWR TXWn: word n of entry TXSEL, whose generation advances (R120, R155). -/
def execSyswrTxw (o : SysWrK) (s : State) : HO :=
  runC s fun e c =>
    let x := c.r.txsel
    .ok ({ c with
      tens := putD c.tens x (tensWrite (lookD c.tens x 0) o.k.toNat (c.rdS e o.a)) 0
      tgen := putD c.tgen x (lookD c.tgen x 0 + 1) 0 }.advance e)

/-- The write of QW0 that sets EN, on its own (R290); a chain already enabled is left as it is. -/
def execChainEnable (a : Reg) (s : State) : HO :=
  runS s fun e c => do
    let q := c.chain c.r.qsel
    let ring := (c.rdS e a).toNat / 2 % 2 == 1
    if q.en then
      if ring != q.ring then raise .illop else .ok (s.setCtx s.cur (c.advance e))
    else do
      let c' ← setEn c c.r.qsel ring
      .ok (s.setCtx s.cur (c'.advance e))

/-- The write of QW0 that clears EN, on its own (R290). -/
def execChainDisable (_a : Reg) (s : State) : HO :=
  runS s fun e c => .ok (clearEn s s.cur c e c.r.qsel)

/-- The write of QW0 that clears FAILED, on its own (R300). -/
def execChainFailedClear (_a : Reg) (s : State) : HO :=
  runS s fun e c =>
    .ok (clearFailed (s.setCtx s.cur (c.advance e)) c.bind.lid c.bind.wid c.r.qsel)

/-- The failed card and the unstarted cards behind it, discarded as the chain is disabled (R290). -/
def discardChain (s : State) (lid wid q : Nat) : State :=
  let s1 := { s with
    cards := s.cards.map fun e =>
      if e.2.of lid wid && e.2.q == q && (e.2.st == .failed || e.2.st == .posted && behindFailed s e.2) then
        (e.1, { e.2 with st := .retired })
      else e }
  advanceDone (updTask s1 lid wid fun c =>
    c.setChain q { c.chain q with failed := false, ecode := 0, failedSeq := 0 }) lid wid q

/-- A disable in progress goes on (R290): a failure discards what has not started, and once every card has retired
the chain is disabled. -/
def execChainDisableComplete (pos : Nat) (q : BitVec 4) (s : State) : HO :=
  match s.ctx? pos with
  | none => .next s
  | some c =>
    if (c.chain q.toNat).disabling then
      let lid := c.bind.lid
      let wid := c.bind.wid
      let s1 := if (c.chain q.toNat).failed then discardChain s lid wid q.toNat else s
      if chainBusy s1 lid wid q.toNat then .next s1
      else
        .next (updTask s1 lid wid fun c =>
          c.setChain q.toNat { c.chain q.toNat with en := false, disabling := false })
    else .next s

/-! The other system instructions (R109 to R112). -/

/-- PRIO: the lower of n and the grant (R109). -/
def execPrio (n : BitVec 2) (s : State) : HO :=
  runC s fun e c => .ok ({ c with r := { c.r with cls := min n.toNat c.bind.grant } }.advance e)

/-- HEART (R110, R334). -/
def execHeart (s : State) : HO :=
  runC s fun e c => .ok ((if c.bind.pers then { c with wdog := 0 } else c).advance e)

/-- TRAP (R111). -/
def execTrap (n : BitVec 16) (s : State) : HO :=
  runC s fun _ _ => .error (.trap { code := .trapi, arg := n.toNat, resumeNext := true })

/-- BKPT (R111). -/
def execBkpt (n : BitVec 16) (s : State) : HO :=
  runS s fun e c =>
    if s.debugged c then .error (.trap { code := .debug, arg := n.toNat, resumeNext := true })
    else .ok (s.setCtx s.cur (c.advance e))

/-- IDLE: the context's issue stops at the slot until an event of R112 wakes it, and then goes on at PC.next. -/
def execIdle (s : State) : HO := runC s fun _ c => .ok { c with idle := true }

/-- The time limit that ends an IDLE (R112). -/
def execIdleTimeout (pos : Nat) (s : State) : HO :=
  match s.ctx? pos with
  | none => .next s
  | some c => .next (if c.idle then s.setCtx pos c.endIdle else s)

end Sys2Proof.Machine
end

