-- ==== Sys2Proof/Machine/Launch.lean ====
section
/-!
DEFINITION. Launches: submission, admission, the completion word, binding and dispatch (spec/01 R30; spec/10 R208 to
R220, R224; spec/22 R407, R413).
-/
namespace Sys2Proof.Machine

/-! The header's checks (R208, R209). -/

/-- A 56-bit address in an 8-byte field (R208). -/
def addrOk (h : BitVec 4096) (off : Nat) : Bool := hdrAt h off 8 / 2 ^ 56 == 0

/-- One field of the work identifier (R209). -/
def fieldOk (h : BitVec 4096) (f : Nat) : Bool :=
  if f < hdrNfield h then
    hdrAt h (0x41 + 8 * f) 3 == 0 && hdrWidth h f != 0 && hdrExt h f != 0 && hdrExt h f ≤ 2 ^ hdrWidth h f
  else hdrAt h (0x40 + 8 * f) 8 == 0

/-- A table's address, which counts only when the table is read (R208). -/
def tableOk (h : BitVec 4096) (n off : Nat) : Bool := n == 0 || addrOk h off

def hdrNsh (h : BitVec 4096) : Nat := hdrAt h 0x00D 1
def hdrTmask (h : BitVec 4096) : Nat := hdrAt h 0x0D0 8
def hdrCmask (h : BitVec 4096) : Nat := hdrAt h 0x0E0 2
def hdrPmask (h : BitVec 4096) : Nat := hdrAt h 0x118 4
def hdrNbucket (h : BitVec 4096) : Nat := hdrAt h 0x00A 1
def hdrNvar (h : BitVec 4096) : Nat := hdrAt h 0x00B 1
def hdrNhint (h : BitVec 4096) : Nat := hdrAt h 0x00C 1
def hdrDet (h : BitVec 4096) : Bool := hdrAt h 0x003 1 % 2 == 1
def hdrPersist (h : BitVec 4096) : Bool := hdrAt h 0x003 1 / 2 % 2 == 1
def hdrGrant (h : BitVec 4096) : Nat := hdrAt h 0x009 1 % 4
def hdrElig (h : BitVec 4096) (i : Nat) : Nat := hdrAt h (0x078 + i) 1

/-- Step 2 of R209: the fields of the header. -/
def headerOk (h : BitVec 4096) : Bool :=
  hdrAt h 0 2 == 1 && hdrAt h 3 1 / 16 == 0 && hdrAt h 9 1 / 16 == 0 &&
    hdrAt h 0x0E 2 == 0 && hdrAt h 0x34 4 == 0 && hdrAt h 0x74 4 == 0 && hdrAt h 0xE2 6 == 0 &&
    hdrAt h 0x11C 228 == 0 &&
    1 ≤ hdrNfield h && hdrNfield h ≤ 6 && hdrAt h 5 1 ≤ 5 && hdrAt h 6 1 ≤ 4 && hdrAt h 7 1 ≤ 64 &&
    1 ≤ hdrWindow h && hdrWindow h ≤ 32 && hdrNbucket h ≤ 8 && hdrNvar h ≤ 8 && hdrNhint h ≤ 8 && hdrNsh h ≤ 32 &&
    ((List.range 4).all fun i => hdrAt h (0x70 + i) 1 ≤ 5) &&
    ((List.range 6).all fun f => fieldOk h f) && fieldOff h (min (hdrNfield h) 6) ≤ 64 &&
    ((List.range 8).all fun i => hdrElig h i / 32 % 4 == 0) &&
    ((List.range 8).all fun i => hdrAt h (0x80 + 8 * i) 8 / 2 ^ 57 == 0) &&
    hdrClass h ≤ hdrGrant h && addrOk h 0x10 && hdrAt h 0x10 8 % 8 == 0 && addrOk h 0x18 && addrOk h 0x20 &&
    addrOk h 0x38 && addrOk h 0xF8 && hdrAt h 0xF8 8 % 8 == 0 &&
    (if hdrPersist h then 1 ≤ hdrAt h 0x30 4 && hdrAt h 0x30 4 ≤ 1000000 else hdrAt h 0x30 4 == 0) &&
    tableOk h (hdrNsh h) 0xC0 && tableOk h (hdrTmask h) 0xC8 && tableOk h (hdrCmask h) 0xD8 &&
    tableOk h (hdrNbucket h) 0xE8 && tableOk h (hdrNvar h) 0xF0 && tableOk h (hdrPmask h) 0x110 &&
    hdrPmask h < 2 ^ hdrWindow h

/-! The tables (R209, R213, R214, R217, R290). -/

/-- The tables of a launch, as numbers. -/
structure Tables where
  sh : Nat
  tens : Nat
  chains : Nat
  bucket : Nat
  vars : Nat
  plates : Nat
deriving Repr

/-- The window plates that PLATEMASK names, with the addresses of their images. -/
def imageAddrs (mask tab : Nat) : List (Nat × Nat) :=
  ((List.range 32).filter fun n => mask / 2 ^ n % 2 == 1).map fun n => (n, bitsOf tab (64 * n) 64)

/-- The plate images, which Admit loads last (R215): window plate and bytes. -/
def readImages (s : State) (root : Nat) : List (Nat × Nat) → Except LErr (List (Nat × Nat))
  | [] => .ok []
  | e :: r => do
    let v ← fwRead s root (e.2 % 2 ^ 56) 32768
    let rest ← readImages s root r
    .ok ((e.1, v) :: rest)

/-- Step 3 of R209: each table, when its count or mask is nonzero. -/
def readTables (s : State) (root : Nat) (h : BitVec 4096) : Except LErr Tables := do
  let on (m n : Nat) : Nat := if m = 0 then 0 else n
  let sh ← fwRead s root (hdrAt h 0xC0 8) (16 * hdrNsh h)
  let tens ← fwRead s root (hdrAt h 0xC8 8) (on (hdrTmask h) 4096)
  let chains ← fwRead s root (hdrAt h 0xD8 8) (on (hdrCmask h) 1024)
  let bucket ← fwRead s root (hdrAt h 0xE8 8) (64 * hdrNbucket h)
  let vars ← fwRead s root (hdrAt h 0xF0 8) (32 * hdrNvar h)
  let plates ← fwRead s root (hdrAt h 0x110 8) (on (hdrPmask h) 256)
  .ok ⟨sh, tens, chains, bucket, vars, plates⟩

/-- A shared handle table entry (R217). -/
def shEntryAt (tab i : Nat) : Option ShEntry :=
  let w0 := bitsOf tab (128 * i) 64
  let w1 := bitsOf tab (128 * i + 64) 64
  match Engine.ofCode (bitsOf w1 18 3), Engine.ofCode (bitsOf w1 21 3) with
  | some p, some c =>
    if w0 % 64 = 0 ∧ w0 / 2 ^ 56 = 0 ∧ w1 / 2 ^ 24 = 0 then
      some { idx := bitsOf w1 0 5, region := w0, size := bitsOf w1 5 6 + 1, count := bitsOf w1 11 6 + 1
             full := bitsOf w1 17 1 == 1, peng := p, ceng := c }
    else none
  | _, _ => none

/-- The shared handle table. -/
def shEntries (tab n : Nat) : Option (List ShEntry) := (List.range n).mapM (shEntryAt tab)

/-- A chain descriptor of CHAINTAB (R290); none for a breach. -/
def chainAt (tab q : Nat) : Option Chain :=
  let w (k : Nat) := bitsOf tab (512 * q + 64 * k) 64
  let c : Chain :=
    { ring := bitsOf (w 0) 1 1 == 1, base := w 1, rsize := w 2, tail := w 3, done := w 4, sqaddr := w 5 }
  if w 0 / 4 = 0 ∧ w 1 < 2 ^ 56 ∧ w 2 < 2 ^ 16 ∧ w 3 < 2 ^ 32 ∧ w 4 < 2 ^ 32 ∧ w 5 < 2 ^ 56 then
    if bitsOf (w 0) 0 1 = 1 then (if chainReady c then some c.enabled else none)
    else some { c with lpos := if c.ring then 0 else c.base }
  else none

/-- The chains that CMASK names. -/
def chainsOf (h : BitVec 4096) (tab : Nat) : Option (Store Chain) :=
  (List.range 16).foldlM (fun m q =>
    if hdrCmask h / 2 ^ q % 2 = 1 then (chainAt tab q).map fun c => putD m q c {} else some m) []

/-- The handles of enabled ELIG bytes: inputs, then results (R218). -/
def eligOf (h : BitVec 4096) (lo : Nat) : List Nat :=
  (((List.range 4).map fun i => hdrElig h (lo + i)).filterMap fun b => if 128 ≤ b then some (b % 32) else none).eraseDups

/-- Step 4 of R209: the contents of the tables. -/
def tablesOk (h : BitVec 4096) (t : Tables) : Bool :=
  (imageAddrs (hdrPmask h) t.plates).all (fun e => e.2 % 512 == 0 && e.2 / 2 ^ 56 == 0) && (chainsOf h t.chains).isSome &&
    match shEntries t.sh (hdrNsh h) with
    | none => false
    | some es => noTwice (es.map (·.idx)) &&
        (eligOf h 0 ++ eligOf h 4).all fun i => es.any fun e => e.idx == i

/-! Selection and placement (R211, R213 to R215, R220). -/

/-- The hallmark (R327). -/
def hallmark (s : State) : Nat :=
  let ws := ((s.m.defects.map (·.toNat)).filter fun w => 1 ≤ w % 256 && w % 256 ≤ 15).mergeSort
  shake256 16 (8 * ws.length) (ws.foldr (fun w v => w + v * 2 ^ 64) 0)

/-- What selection fixes. -/
structure Choice where
  variant : Nat := 15
  delta : Nat := 0
  place : BitVec 512 := BitVec.allOnes 512
  bucket : Nat := 15
  pext : List Nat := []
  entry : Nat := 0
  traph : Nat := 0
deriving DecidableEq, Repr

/-- The variant whose hallmark matches (R213, R215). Bits 63 to 56 of its PLACE, which no rule limits, do not count: a DESIGN CHOICE
(log 22). -/
def pickVariant (s : State) (root : Nat) (h : BitVec 4096) (t : Tables) : Except LErr Choice :=
  if hdrNvar h = 0 then .ok {}
  else
    match (List.range (hdrNvar h)).find? fun i => bitsOf t.vars (256 * i) 128 == hallmark s with
    | none => .error .novar
    | some i =>
      let p := bitsOf t.vars (256 * i + 192) 64
      if p = 0 then .ok { variant := i, delta := bitsOf t.vars (256 * i + 128) 64 }
      else do
        let m ← fwRead s root (p % 2 ^ 56) 64
        .ok { variant := i, delta := bitsOf t.vars (256 * i + 128) 64, place := BitVec.ofNat 512 m }

/-- The shape value SHd of a header. -/
def hdrSh (h : BitVec 4096) (d : Nat) : Nat := hdrAt h (0x100 + 4 * d) 4

/-- The bucket whose bounds hold the shape values, and the places under DELTA (R214, R215). -/
def pickBucket (h : BitVec 4096) (t : Tables) (c : Choice) : Except LErr Choice :=
  let shift (a : Nat) : Nat := (a + c.delta) % 2 ^ 64 % 2 ^ 56
  let traph := if hdrAt h 0x18 8 = 0 then 0 else shift (hdrAt h 0x18 8)
  if hdrNbucket h = 0 then
    .ok { c with
      pext := (List.range (hdrNfield h)).map (hdrExt h)
      entry := shift (hdrAt h 0x10 8)
      traph := traph }
  else
    match (List.range (hdrNbucket h)).find? fun b => (List.range 4).all fun d =>
        bitsOf t.bucket (512 * b + 32 * d) 32 ≤ hdrSh h d && hdrSh h d ≤ bitsOf t.bucket (512 * b + 128 + 32 * d) 32 with
    | none => .error .nobkt
    | some b =>
      let px (f : Nat) := bitsOf t.bucket (512 * b + 256 + 32 * f) 32
      let e := bitsOf t.bucket (512 * b + 448) 64
      if (List.range 6).all fun f =>
          if f < hdrNfield h then hdrExt h f ≤ px f && px f ≤ 2 ^ hdrWidth h f else px f == 0 then
        .ok { c with
          bucket := b
          pext := (List.range (hdrNfield h)).map px
          entry := shift (if e = 0 then hdrAt h 0x10 8 else e)
          traph := traph }
      else .error .hdr

/-- The dies that deterministic placement touches (R220): the first allowed ones, one for each team. -/
def touchedDies (s : State) (h : BitVec 4096) (c : Choice) : List Nat :=
  (teamDies s h c.place (maxTeam h c.pext)).take
    (taskCount h c.pext / max 1 (groupSize h c.pext (hdrTeamLevel h 0)))

/-- The cores that deterministic placement may bind (R220), over the package: the first allowed ones of each die it touches. -/
def detCores (s : State) (h : BitVec 4096) (c : Choice) : List Nat :=
  let n := (maxTeam h c.pext + coreCap (hdrWindow h) - 1) / max 1 (coreCap (hdrWindow h))
  (touchedDies s h c).flatMap fun d => ((dieCores s c.place d).take n).map (32 * d + ·)

/-- The budget of a deterministic launch in W, and the number of its cores: 6 for each core it may bind, 110 for each die it
touches (R413). -/
def powerBudget (s : State) (h : BitVec 4096) (c : Choice) : Nat × Nat :=
  let cores := (detCores s h c).length
  (6 * cores + 110 * (touchedDies s h c).length, cores)

/-- R215 up to the circuit program: what is chosen and the plate images, or the error. LPOWER (R413) counts the islands that
a deterministic launch pins, and the spec does not say how many of a die's 64 islands a core has: the model takes two for each
core, the rest of the 1,024 standing at their floor. A DESIGN CHOICE (logs 9 and 22). -/
def choose (s : State) (sub : Submission) (h : BitVec 4096) : Except LErr (Tables × Choice × List (Nat × Nat)) := do
  lhdr (headerOk h && sub.addr % 64 == 0)
  let t ← readTables s sub.root h
  lhdr (tablesOk h t)
  if hdrAt h 2 1 = 1 then .ok () else .error .nbv
  let c0 ← pickVariant s sub.root h t
  let c ← pickBucket h t c0
  if maxTeam h c.pext ≤ 128 ∧ (teamDies s h c.place (maxTeam h c.pext)) ≠ [] then .ok () else .error .res
  if sub.depth ≤ 4 then .ok () else .error .depth
  let (w, cores) := powerBudget s h c
  if hdrDet h ∧ s.m.pcap < w + Config.floorPower (1024 - 2 * cores) then .error .power else .ok ()
  let images ← readImages s sub.root (imageAddrs (hdrPmask h) t.plates)
  .ok (t, c, images)

/-- The watts reserved by deterministic launches (R413). -/
def reserved (s : State) : Nat := (s.launches.map fun e => e.2.budget).sum

/-- The number of cores whose islands deterministic launches pin (R413). -/
def pinnedCount (s : State) : Nat := (s.launches.map fun e => e.2.pinned.length).sum

/-- The readiness bit of the sequencer that runs the programs (Table 123). -/
def seqReady (s : State) : Bool := s.m.ready.getLsbD (if s.m.standby then 17 else 16)

/-- The positions of links that circuits hold: those of launches that have ended drain still (R343, R391). -/
def heldPositions (s : State) : List Nat :=
  s.circuits.filterMap fun e => match e.2.est with
    | some o => if o.x && e.2.state != .idle then some (linkPosOf o) else none
    | none => none

/-- Whether admission holds the launch for now (R343, R349, R391, R407, R413). -/
def heldBack (s : State) (h : BitVec 4096) (c : Choice) (p : Option CProg) : Bool :=
  let (w, cores) := powerBudget s h c
  let hs := match p with | some p => handlesOf p.hmask | none => []
  let ls := match p with | some p => linkPositions p | none => []
  let ports := match p with
    | some p => (estsOf (p.ops.filterMap decodeSeqOp)).flatMap portsOf
    | none => []
  hs.any (fun k => (s.circuit k).lid != 0) ||
    s.launches.any (fun e => match e.2.prog with
      | some q => (linkPositions q).any fun x => ls.contains x
      | none => false) ||
    (heldPositions s).any ls.contains ||
    ls.any (fun x => !s.m.ready.getLsbD (160 + x / 2)) ||
    (p.isSome && !seqReady s) ||
    ports.any (fun k => !s.m.ready.getLsbD (32 + k)) ||
    hs.any (fun k => !banksReady s k) ||
    (hdrDet h && ((touchedDies s h c).any (fun d => (s.die d).slotImg.isSome) ||
      s.m.pcap < reserved s + Config.floorPower (1024 - 2 * (pinnedCount s + cores)) + w))

/-- The completion word (R216). -/
def doneWord (lid code : Nat) (faulted : Bool) : Nat :=
  lid % 2 ^ 32 + code * 2 ^ 32 + 2 ^ 40 + (if faulted then 2 ^ 41 else 0)

/-- Write the completion word, when the header names one: none while the word's HBM channel is out of service (R407), as the
firmware then waits. A word that does not translate is not written (log 15). -/
def writeDone (s : State) (root addr word : Nat) : Option State :=
  if addr = 0 ∨ addr % 8 ≠ 0 ∨ addr / 2 ^ 56 ≠ 0 then some s
  else
    match writeMem s (firmware 0 root) 0 plainW 8 addr 8 word with
    | .ok s' => some s'
    | .error .wait => none
    | .error _ => some s

/-- The answers of LAUNCHes that are known fill their registers, those of one register in program order (R202). The first
argument holds the fills that stay due. -/
def landFills : List FillDue → List FillDue → Context → Context
  | kept, [], c => { c with fillsDue := kept }
  | kept, f :: r, c =>
    match f.val with
    | some v => if kept.any (·.e == f.e) then landFills (kept ++ [f]) r c else landFills kept r (c.fill f.e v)
    | none => landFills (kept ++ [f]) r c

/-- Answer the parent of a child launch: the exchange register is filled (R202, R224). -/
def answerParent (s : State) (p : Option Parent) (lid code : Nat) : State :=
  match p with
  | none => s
  | some p => updTask s p.lid p.wid fun c =>
      landFills [] (c.fillsDue.map fun f =>
        if f.ticket == p.ticket then { f with val := some (BitVec.ofNat 64 (lid % 2 ^ 32 + code * 2 ^ 32)) } else f) c

/-- Refuse a launch (R215, R216): none while the completion word cannot be written. -/
def refuseLaunch (s : State) (sub : Submission) (h : Option (BitVec 4096)) (e : LErr) : Option State :=
  (match h with
   | some h => writeDone s sub.root (hdrAt h 0xF8 8) (doneWord 0 e.code false)
   | none => some s).map fun t => answerParent t sub.parent 0 e.code

/-- The image lines of a plate: 64 lines from 32 KiB. -/
def imageLines (wpl v : Nat) : List (Nat × Line) :=
  (List.range 64).map fun i => (64 * wpl + i, BitVec.ofNat 4096 (v / 2 ^ (4096 * i)))

/-- All image lines of a launch. -/
def imagesOf (images : List (Nat × Nat)) : Store Line :=
  images.foldl (fun m e => (imageLines e.1 e.2).foldl (fun m x => putD m x.1 x.2 0) m) []

/-- The tensor entries that TMASK names (R120, R208). -/
def tensOf (h : BitVec 4096) (tab : Nat) : Store (BitVec 512) :=
  (List.range 64).foldl (fun m n =>
    if hdrTmask h / 2 ^ n % 2 = 1 then
      let w : BitVec 512 := BitVec.ofNat 512 (bitsOf tab (512 * n) 512)
      putD m n ((List.range 8).foldl (fun t k => tensWrite t k (w.extractLsb' (64 * k) 64)) 0) 0
    else m) []

/-- The instances of the shared handles on every die (R217). -/
def shInstances (lid : Nat) (es : List ShEntry) (m : Store ShInst) : Store ShInst :=
  es.foldl (fun m e => (List.range 16).foldl (fun m d =>
    put m (shKey lid d e.idx) { full := if e.full then slotMask e.count 0 e.count else 0 }) m) m

/-- The entries of one die in slot table images, the default image's where the launch has none (R349). -/
def dieImage (img : Option (List Nat)) (d : Nat) : List Nat :=
  match img with
  | some es => (es.drop (9216 * d)).take 9216
  | none => (List.range 9216).map (defaultEntry d)

/-- Admit a launch whose checks are made (R215): everything is loaded, and the launch id assigned. -/
def admitLaunch (s : State) (sub : Submission) (h : BitVec 4096) (t : Tables) (c : Choice) (images : List (Nat × Nat))
    (p : Option CProg) : State :=
  let lid := s.m.nextLid
  let es := (shEntries t.sh (hdrNsh h)).getD []
  let n := taskCount h c.pext
  let l : Launch :=
    { hdr := h, root := sub.root, entry := c.entry, traph := c.traph, bucket := c.bucket, variant := c.variant
      pext := c.pext, place := c.place, hmark := hallmark s, depth := sub.depth, grant := min (hdrGrant h) sub.grant
      left := n, sh := es, tens := tensOf h t.tens, imgs := imagesOf images
      chains := (chainsOf h t.chains).getD [], prog := p
      hints := (List.range (hdrNhint h)).foldl (fun m i =>
        putD m i (BitVec.ofNat 64 (hdrAt h (0x80 + 8 * i) 8)) 0) []
      budget := if hdrDet h then (powerBudget s h c).1 else 0
      pinned := if hdrDet h then detCores s h c else [] }
  let s1 := s.setLaunch lid l
  let s2 := match p with
    | none => s1
    | some p => (handlesOf p.hmask).foldl (fun s k => s.setCircuit k { lid := lid, inst := (s.circuit k).inst }) s1
  let s3 := if hdrDet h then
      (touchedDies s h c).foldl (fun s d => s.setDie d { s.die d with
        slotImg := some lid, image := some (dieImage (p.bind (·.image)) d) }) s2
    else s2
  let s4 := { s3 with
    shInsts := shInstances lid es s3.shInsts
    m := { s3.m with nextLid := lid + 1 } }
  answerParent s4 sub.parent lid 0

/-- What the firmware answers a submission: a new state, or none while it is held, or while the completion word of its refusal
cannot be written (R215, R216). -/
def tryAdmit (s : State) (sub : Submission) : Option State :=
  let h? := match sub.hdr with
    | some h => Except.ok h
    | none => (fwRead s sub.root sub.addr 512).map fun v => BitVec.ofNat 4096 v
  match h? with
  | .error .wait => none
  | .error e => if sub.full then some s else refuseLaunch s sub none e
  | .ok h =>
    if sub.full then refuseLaunch s sub (some h) .qfull else
    match choose s sub h with
    | .error .wait => none
    | .error e => refuseLaunch s sub (some h) e
    | .ok (t, c, images) =>
      let p := if hdrAt h 0x38 8 = 0 then Except.ok none
        else (loadProg s sub.root (hdrAt h 0x38 8) (hdrDet h)).map some
      match p with
      | .error .wait => none
      | .error e => refuseLaunch s sub (some h) e
      | .ok p => if heldBack s h c p then none else some (admitLaunch s sub h t c images p)

/-- The first submission of a queue that is not held, and what becomes of it. -/
def admitFrom (s : State) : List Submission → Option (State × Submission)
  | [] => none
  | x :: r => match tryAdmit s x with
    | some s' => some (s', x)
    | none => admitFrom s r

/-- The first die whose queue has a submission that is not held. -/
def admitDies (s : State) : List Nat → Option State
  | [] => none
  | d :: r =>
    match admitFrom s (s.die d).queue with
    | some (s', x) => some (s'.setDie d { s'.die d with queue := (s'.die d).queue.erase x })
    | none => admitDies s r

/-- The firmware's next admission or refusal, if any: the host's queue first, then each die's (R208, R215, R224). -/
def admitNext? (s : State) : Option State :=
  match admitFrom s s.m.hostQ with
  | some (s', x) => some { s' with m := { s'.m with hostQ := s'.m.hostQ.erase x } }
  | none => admitDies s (List.range 16)

/-- The firmware admits or refuses a queued launch (R215). -/
def execAdmitNext (s : State) : HO := .next ((admitNext? s).getD s)

/-- The host submits a header (R208); the queue may refuse it with LQFULL (Table 59), whose completion word waits where it must.
Bits 63 to 56 of the header's address, which no rule limits, do not count: a DESIGN CHOICE (log 22). -/
def execLaunchSubmit (addr root : Nat) (s : State) : HO :=
  let sub : Submission := { addr := addr % 2 ^ 56, hdr := none, root := root, full := Config.hostRefused s.freeCtr }
  let later : State := { s with m := { s.m with hostQ := s.m.hostQ ++ [sub] } }
  .next (if sub.full then (tryAdmit s sub).getD later else later)

/-- LAUNCH (R224). -/
def execLaunch (o : LaunchOp) (s : State) : HO :=
  runS s fun e c => do
    let va := (c.rdS e o.a).toNat
    let w := c.who s.cur
    let ps ← accessCheck s w .read notWs 64 (va % 2 ^ 56) 512
    guardCheck s c.r.gver ps
    readEcc s ps
    await (c.releases.isEmpty && !requestsOut s c.bind.lid c.bind.wid)
    let die := s.die (dieOf s.cur)
    await (die.queue.length < 16)
    match s.launch? c.bind.lid with
    | none => hold
    | some l =>
      let n := s.m.nextTicket
      let sub : Submission :=
        { addr := va % 2 ^ 56, hdr := some (BitVec.ofNat 4096 (readParts s.mem ps)), root := c.bind.root
          depth := l.depth + 1, grant := c.bind.grant
          parent := some ⟨c.bind.lid, c.bind.wid, o.e.toNat, n⟩ }
      let s1 := (s.noteParts w ps).setDie (dieOf s.cur) { die with queue := die.queue ++ [sub] }
      .ok ({ s1 with m := { s1.m with nextTicket := n + 1 } }.setCtx s.cur
        ({ c with fillsDue := c.fillsDue ++ [({ e := o.e.toNat, ticket := n } : FillDue)] }.advance e))

/-- Give back a launch's circuits: TEAR's effect on each (R343, R352). A vector routine that has not run ended with its
launch, and the default RETRY takes its place (log 53). The instance number of a handle only rises (R357). -/
def freeCircuit (s : State) (c : Nat) : State :=
  let k := s.circuit c
  match k.state with
  | .live | .settling | .draining => s.setCircuit c { k with state := .draining, tearPend := false }
  | .recovering => s.setCircuit c { k with
      tearPend := true
      recovery := k.recovery.map fun r => { r with retry := r.retry.or (some (defaultRetry c)) } }
  | _ => (closeStreams s c).setCircuit c { inst := k.inst }

/-- What a launch that has ended leaves (R216, R217, R343, R349, R413). -/
def clearLaunch (s1 : State) (lid : Nat) : State :=
  let s2 := { s1 with
    launches := del s1.launches lid
    reqs := s1.reqs.filter fun e => !(e.2.word.isSome && e.2.lid == lid)
    parts := s1.parts.filter fun e => !(e.2.p.word.isSome && e.2.p.lid == lid)
    shInsts := s1.shInsts.filter fun e => e.1 / 512 != lid
    wsOpen := s1.wsOpen.filter fun e => e.1 / 16 != lid
    arrivals := s1.arrivals.filter fun e => e.1 / 2 ^ 64 / 8 != lid
    arrWords := s1.arrWords.filter fun e => e.1 / 16 / 2 ^ 64 / 8 != lid
    dies := s1.dies.map fun (e : Nat × Die) =>
      if e.2.slotImg == some lid then (e.1, { e.2 with slotImg := none, image := none }) else e }
  ((s2.circuits.filter fun e => e.2.lid == lid).map (·.1)).foldl freeCircuit s2

/-- The end of a launch: the completion word, and then everything it held (R216); none while the word cannot be written. -/
def endLaunch (s : State) (lid : Nat) (l : Launch) : Option State :=
  (writeDone s l.root (hdrAt l.hdr 0xF8 8) (doneWord lid 0 l.faulted)).map fun t => clearLaunch t lid

/-- Every task has ended: the completion word is written (R216). -/
def execLaunchComplete (lid : Nat) (s : State) : HO :=
  match s.launch? lid with
  | none => .next s
  | some l => .next (if l.left = 0 then (endLaunch s lid l).getD s else s)

/-! Binding and dispatch (R218 to R220, R30, R231). -/

/-- The bind positions of the package's 16 dies (R3, R219). -/
def posCount : Nat := 2048

/-- The firmware writes a bind record (R219), on a ready die and a ready core alone (R407). -/
def execBindRecordWrite (b : BindReq) (s : State) : HO :=
  let d := dieOf b.pos
  let die := s.die d
  if posCount ≤ b.pos ∨ coreWorks s d (b.pos % 128 / 4) = false then .next s
  else match find? die.slots (b.pos % 128) with
  | some _ => .next (s.report (.bindDiscarded b.pos))
  | none =>
    let r : BindRec :=
      { pad := b.pad, pers := b.pers, cls := b.cls.toNat, res := b.res, lid := b.lid % 2 ^ 32, wid := b.wid % 2 ^ 64
        tidx := b.tidx % 2 ^ 32, tsize := b.tsize % 2 ^ 32, ph := b.phase % 8 }
    let s1 := s.setDie d { die with slots := put die.slots (b.pos % 128) r }
    .next (match s1.launch? r.lid with
      | some l => if r.res then s1 else s1.setLaunch r.lid { l with bound := l.bound + 1 }
      | none => s1)

/-- The instance of a shared handle on a die. -/
def instOf (s : State) (lid d h : Nat) : ShInst := lookD s.shInsts (shKey lid d h) {}

/-- The shared handle table entry of a handle. -/
def entryOf (l : Launch) (h : Nat) : Option ShEntry := l.sh.find? fun e => e.idx == h

/-- Whether the slot at the dispatch cursor is full or empty, as asked, and unclaimed (R218). -/
def slotReady (s : State) (lid d : Nat) (l : Launch) (full : Bool) (h : Nat) : Bool :=
  match entryOf l h with
  | none => false
  | some e =>
    let i := instOf s lid d h
    let k := slotMask e.count (if full then i.headCur else i.tailCur) 1
    if full then i.full &&& k == k && (i.clearPend ||| i.headClaim) &&& k == 0
    else i.full &&& k == 0 && (i.fillPend ||| i.tailClaim) &&& k == 0

/-- Whether a bound task is eligible (R218). -/
def eligible (s : State) (lid d : Nat) (l : Launch) : Bool :=
  (eligOf l.hdr 0).all (slotReady s lid d l true) && (eligOf l.hdr 4).all (slotReady s lid d l false)

/-- Claim a slot: the dispatch cursor advances (R218). The claim stands until the slot has been drained or filled. -/
def claim (lid d : Nat) (l : Launch) (full : Bool) (s : State) (h : Nat) : State :=
  match entryOf l h with
  | none => s
  | some e =>
    let i := instOf s lid d h
    { s with
      shInsts := put s.shInsts (shKey lid d h)
        (if full then
          { i with headCur := (i.headCur + 1) % e.count, headClaim := i.headClaim ||| slotMask e.count i.headCur 1 }
         else
          { i with tailCur := (i.tailCur + 1) % e.count, tailClaim := i.tailClaim ||| slotMask e.count i.tailCur 1 }) }

/-- The shared handles as the task starts with them (R217, R218). -/
def sharedHandles (s : State) (lid d : Nat) (l : Launch) : Store Handle :=
  l.sh.foldl (fun m e =>
    let i := instOf s lid d e.idx
    put m e.idx
      { size := e.size, count := e.count, peng := e.peng, ceng := e.ceng, shared := true, region := e.region
        head := if (eligOf l.hdr 0).contains e.idx then i.headCur else 0
        tail := if (eligOf l.hdr 4).contains e.idx then i.tailCur else 0 }) []

/-- The first free physical plates of a core. -/
def freePlates (plates : Store Word) : List Nat :=
  (List.range 64).filter fun p => bitsOf (lookD plates p 0).toNat 0 1 == 0

/-- A plate table entry (Table 63): V and ACT set; DIRTY stands in the owner's `clean`. -/
def plateWord (wpl bpos lid : Nat) : Word :=
  BitVec.ofNat 64 (3 + wpl * 8 + bpos % 128 * 2 ^ 8 + lid % 2 ^ 32 * 2 ^ 16)

/-- Allocate one window plate (R231): which free physical plate it takes is left open (R23), and the model takes the lowest.
A DESIGN CHOICE (log 49). -/
def allocPlate (bpos lid wid : Nat) (k : Core) (wpl : Nat) : Core :=
  match freePlates k.plates with
  | [] => k
  | p :: _ => { k with plates := put k.plates p (plateWord wpl bpos lid), owner := putD k.owner p wid 0 }

/-- The state of a task at its start (R30, R120, R212, R218, R290); its class is at most its launch's grant (log 65). -/
def startContext (s : State) (pos : Nat) (r : BindRec) (l : Launch) : Context :=
  let h := l.hdr
  let p : EnginePos := { addr := codeAddr l.entry }
  { bind :=
      { lid := r.lid, wid := r.wid, root := l.root, traph := l.traph, window := hdrWindow h, det := hdrDet h
        pad := r.pad, pers := r.pers, hbeat := hdrAt h 0x30 4, grant := l.grant, tidx := r.tidx, tsize := r.tsize
        phase := r.ph, sel := l.bucket % 16 + l.variant % 16 * 16, sh := (List.range 4).map (hdrSh h), hmark := l.hmark }
    r :=
      { s := putD (putD (putD [] 1 (BitVec.ofNat 64 (hdrAt h 0x20 8)) 0) 2 (BitVec.ofNat 64 r.wid) 0) 3
          (BitVec.ofNat 64 (r.tidx + r.tsize * 2 ^ 32)) 0
        srseed := BitVec.ofNat 32 (hdrAt h 0x2C 4), latmode := hdrDet h, span := hdrAt h 7 1
        cls := min r.cls l.grant }
    lines := l.imgs
    handles := sharedHandles s r.lid (dieOf pos) l
    tens := l.tens
    chains := l.chains
    pos := ⟨p, p, p, p, p, p⟩ }

/-- Whether the dispatch unit may start the task bound at a position (R218, R219, R231, R407). -/
def canStart (s : State) (pos : Nat) (r : BindRec) (l : Launch) : Bool :=
  !r.run && !r.res && pos < posCount && (s.ctx? pos).isNone && coreWorks s (dieOf pos) (pos % 128 / 4) &&
    eligible s r.lid (dieOf pos) l && canGive s (coreOf pos) .plates (hdrWindow l.hdr)

/-- Start a task (R219, R30, R231). -/
def startTask (s : State) (pos : Nat) (r : BindRec) (l : Launch) : State :=
  let d := dieOf pos
  let k := coreOf pos
  let c := startContext s pos r l
  let s1 := (eligOf l.hdr 4).foldl (claim r.lid d l false) ((eligOf l.hdr 0).foldl (claim r.lid d l true) s)
  let s2 := makeRoom (makeRoom s1 k .plates (hdrWindow l.hdr)) k .ybanks 16
  let core := s2.core k
  let s3 := s2.setCore k ((List.range (hdrWindow l.hdr)).foldl (allocPlate pos r.lid r.wid) core)
  let die := s3.die d
  (s3.setDie d { die with slots := put die.slots (pos % 128) { r with run := true } }).setCtx pos c

/-- The dispatch unit starts a bound, eligible task (R219). -/
def execTaskDispatch (pos : Nat) (s : State) : HO :=
  match find? (s.die (dieOf pos)).slots (pos % 128) with
  | none => .next s
  | some r =>
    match s.launch? r.lid with
    | none => .next s
    | some l => .next (if canStart s pos r l then startTask s pos r l else s)

/-! Pre-emption and resume (R329 to R333). -/

/-- The units of a context (R330). -/
def unitKinds (c : Context) : List UnitKind :=
  ((List.range c.bind.window).map .plate) ++
    (((List.range 8).filter fun t => tileKib (lookD c.mat.tshape t 0) != 0).map .tile) ++
    (c.mat.oslots.map fun e => .slot e.1) ++ ((List.range 16).map .ybank)

/-- The units of a context as its core holds them after a pre-emption. -/
def unitsOfCtx (c : Context) : List UnitRes := (unitKinds c).map fun k => ⟨k, c.bind.lid, c.bind.wid⟩

/-- Set or clear ACT on a task's plates (R230, R330). -/
def Core.actPlates (k : Core) (on : Bool) (lid wid : Nat) : Core :=
  k.updPlates lid wid fun w => if on then w ||| 2 else w &&& ~~~2

/-- The order number of the next pre-emption. -/
def nextOrder (s : State) : Nat := (s.saved.map fun e => e.2.order + 1).foldl max 0

/-- A free key of the save areas. -/
def freshSave (s : State) : Nat := (s.saved.map fun e => e.1 + 1).foldl max 0

/-- The reports of a pre-emption: the snapshot of a context that the watchdog pre-empts (R335), the code of a halt (R336). -/
def stopReports (c : Context) (s : State) : State :=
  let s1 := match c.pendingFault with
    | some t => if t.code = .wdog then s.report (.snapshot c) else s
    | none => s
  match c.haltCode with
  | some n => s1.report (.debug c.bind.lid c.bind.wid n)
  | none => s1

/-- Pre-empt the context at a position (R329, R330): the engines have stopped, recorded releases take effect, and the context
goes to its save area. -/
def preemptCtx (s : State) (pos : Nat) (c : Context) : State :=
  let (s1, c1) := applyReleases pos s { c.settleSpe with flight := [], late := [], mixes := [], cwaiting := none, preempting := false }
  let k := (s1.core (coreOf pos)).actPlates false c.bind.lid c.bind.wid
  let die := s1.die (dieOf pos)
  let s2 := (s1.setCore (coreOf pos)
    { k with units := k.units ++ unitsOfCtx c1, ocache := k.ocache.filter fun o => !(o.lid == c.bind.lid &&
      o.wid == c.bind.wid) }).setDie
    (dieOf pos) { die with slots := del die.slots (pos % 128) }
  stopReports c1
    { s2 with
      ctxs := del s2.ctxs pos
      saved := put s2.saved (freshSave s2) { ctx := { c1 with haltCode := none }, pos := pos, order := nextOrder s2 } }

/-- A pre-emption stops the engines as R316 does: while requests that the context has issued are on their way it waits for
them, and the context issues nothing (R329). -/
def askPreempt (s : State) (pos : Nat) (c : Context) : State :=
  if requestsOut s c.bind.lid c.bind.wid then s.setCtx pos { c with preempting := true } else preemptCtx s pos c

/-- The firmware pre-empts a context (R329). -/
def execPreempt (pos : Nat) (s : State) : HO :=
  match s.ctx? pos with
  | none => .next s
  | some c => .next (askPreempt s pos c)

/-- The saved task that a bind record names, with its key. -/
def savedEntry? (s : State) (lid wid : Nat) : Option (Nat × Saved) :=
  s.saved.find? fun e => e.2.ctx.bind.lid == lid && e.2.ctx.bind.wid == wid

/-- Whether a card of the task with a window region is in flight (R313, R333). -/
def windowCards (s : State) (lid wid : Nat) : Bool :=
  s.cards.any fun e => e.2.of lid wid && e.2.inFlight && (cardRegions e.2.line).any (·.window)

/-- Whether a plate of a task stays on a core, by window plate. -/
def keepsPlate (k : Core) (lid wid wpl : Nat) : Bool := k.plates.any fun e => plateOf k lid wid e && plateWpl e.2 == wpl

/-- Take a saved task's units back on its core, or bring them to another (R331): there every unit is loaded from the save
area. Room is made for all of them, those that stayed on the core among them. -/
def bringUnits (s : State) (v : Saved) (pos : Nat) : State × Context :=
  let b := v.ctx.bind
  let old := coreOf v.pos
  let k := coreOf pos
  let ko := s.core old
  let ko1 := { ko with units := ko.units.filter fun u => !(u.lid == b.lid && u.wid == b.wid) }
  let s1 := s.setCore old (if old = k then ko1 else ko1.freePlates b.lid b.wid fun _ => true)
  let need := (List.range b.window).filter fun n => !keepsPlate (s1.core k) b.lid b.wid n
  let s2 := [(Space.plates, b.window), (.tiles, useOf v.ctx .tiles), (.slots, useOf v.ctx .slots), (.ybanks, 16)].foldl
    (fun s e => makeRoom s k e.1 e.2) s1
  let kn := (s2.core k).updPlates b.lid b.wid fun w => plateWord (plateWpl w) pos b.lid
  (s2.setCore k (need.foldl (allocPlate pos b.lid b.wid) kn),
    if old = k then v.ctx else { v.ctx with clean := unitKinds v.ctx })

/-- What a saved task needs of a kind on the core of a position: nothing of its own that stays there. -/
def fits (s : State) (v : Saved) (pos : Nat) : Bool :=
  let mine (k : Space) : Nat :=
    if coreOf v.pos = coreOf pos then
      ((unitsOf s (coreOf pos) k).filter fun u => u.lid == v.ctx.bind.lid && u.wid == v.ctx.bind.wid && !evictable s u).length
    else 0
  [Space.plates, .tiles, .slots].all fun k => canGive s (coreOf pos) k (useOf v.ctx k - mine k)

/-- A context that a debugger has halted, or lets make one step, as it resumes outside handler mode (R320, R331, R337): a write
of an FPC redirects it as TRET would, and a nest's position stands only where the resume point names a nest record that the
engine leads. -/
def Context.unhalt (leads : SixPos → Engine → Bool) (c : Context) : Context :=
  if !(c.halted || c.stepping) || c.handler then c
  else if c.flt.redirected then leaveHandler (leads (resumePoints c)) c
  else
    { c with
      nestV := if leads c.pos .vec then c.nestV else none
      nestM := if leads c.pos .mem then c.nestM else none }

/-- A context bound with RES = 1 resumes (R331, R333), once its requests have been performed and on a working core. Its engines
go on where they stopped, a fault that was being delivered is delivered, and a task whose save area is uncorrectable is ended
by the firmware (R325). -/
def execResume (pos : Nat) (s : State) : HO :=
  match find? (s.die (dieOf pos)).slots (pos % 128) with
  | none => .next s
  | some r =>
    match savedEntry? s r.lid r.wid with
    | none => .next s
    | some (key, v) =>
      let moved := coreOf v.pos != coreOf pos
      if r.res && !r.run && (s.ctx? pos).isNone && coreWorks s (dieOf pos) (pos % 128 / 4) && fits s v pos &&
          !requestsOut s r.lid r.wid && !(moved && windowCards s r.lid r.wid) then
        let (s1, c1) := bringUnits s v pos
        let s2 := { s1 with saved := del s1.saved key }
        let die := s2.die (dieOf pos)
        let s3 := s2.setDie (dieOf pos) { die with slots := put die.slots (pos % 128) { r with run := true } }
        let c2 := c1.unhalt fun p e => leadsAt s (c1.who pos) e (p.get e)
        let c := { c2 with sMigr := c2.sMigr || moved, halted := false }
        .next (if v.bad then s3.setCtx pos { c with ending := true }
          else match c.pendingFault with
            | some t => deliverTrap s3 pos { c with pendingFault := none } (t.engine .ctl) t
            | none => s3.setCtx pos c)
      else .next s

/-- A fault whose stop is complete is delivered (R316, R318); one that a pre-emption overtakes is delivered on resume
(R331). -/
def execHandlerEntry (pos : Nat) (s : State) : HO :=
  match s.ctx? pos with
  | none => .next s
  | some c =>
    match c.pendingFault with
    | none => .next s
    | some t =>
      .next (if c.preempting || requestsOut s c.bind.lid c.bind.wid then s
        else deliverTrap s pos { c with pendingFault := none } (t.engine .ctl) t)

end Sys2Proof.Machine
end

