-- ==== Sys2Proof/Machine/Gcm.lean ====
section
/-!
DEFINITION. AES-256-GCM for the frames of a hop (spec/16 R357), after FIPS 197 and NIST SP 800-38D (log 54), on natural numbers
that hold their first byte highest, as those standards write them.
-/
namespace Sys2Proof.Machine

/-! AES-256. -/

/-- Twice an element of GF(2⁸), under x⁸ + x⁴ + x³ + x + 1. -/
def aesDouble (a : Nat) : Nat := if a < 128 then 2 * a else (2 * a) ^^^ 0x11B

/-- The product of an element with a number's low bits. -/
def aesTimes (a b : Nat) : Nat → Nat
  | 0 => 0
  | n + 1 => (if b % 2 = 1 then a else 0) ^^^ aesTimes (aesDouble a) (b / 2) n

/-- The inverse in GF(2⁸), 0 for 0: the power 254, which is 2 + 4 + … + 128. -/
def aesInverse (a : Nat) : Nat → Nat
  | 0 => 1
  | n + 1 =>
    let q := aesTimes a a 8
    aesTimes q (aesInverse q n) 8

/-- SubBytes on a byte: bit i of the result adds bits i, i + 4, i + 5, i + 6 and i + 7 of the inverse, and 63 hex. -/
def aesSub (b : Nat) : Nat :=
  let v := aesInverse b 7
  let w := v + 256 * v
  (v ^^^ w / 2 ^ 4 ^^^ w / 2 ^ 5 ^^^ w / 2 ^ 6 ^^^ w / 2 ^ 7 ^^^ 0x63) % 256

/-- Byte `i` of a block of 16, the first highest. -/
def blockByte (s i : Nat) : Nat := s / 2 ^ (8 * (15 - i)) % 256

/-- The block with given bytes. -/
def blockOf (f : Nat → Nat) : Nat := (List.range 16).foldl (fun v i => 256 * v + f i) 0

/-- SubBytes and ShiftRows: row r of column c comes from column c + r. -/
def aesSubShift (s : Nat) : Nat :=
  blockOf fun i => aesSub (blockByte s (4 * ((i / 4 + i % 4) % 4) + i % 4))

/-- MixColumns. -/
def aesMix (s : Nat) : Nat :=
  blockOf fun i =>
    let b (k : Nat) := blockByte s (4 * (i / 4) + (i + k) % 4)
    aesTimes (b 0) 2 8 ^^^ aesTimes (b 1) 3 8 ^^^ b 2 ^^^ b 3

/-- SubBytes on a word of the key schedule. -/
def aesSubWord (w : Nat) : Nat :=
  (List.range 4).foldl (fun v i => 256 * v + aesSub (w / 2 ^ (8 * (3 - i)) % 256)) 0

/-- The key schedule, from its last eight words, oldest first: each new word adds the oldest to the newest, which every eighth
word rotates, substitutes and gives a round constant, and the word between them substitutes. -/
def aesSchedule : Nat → Nat → Nat → List Nat → List Nat
  | 0, _, _, _ => []
  | n + 1, i, rc, ws =>
    let last := ws.getD 7 0
    let t :=
      if i % 8 = 0 then aesSubWord (last % 2 ^ 24 * 256 + last / 2 ^ 24) ^^^ rc * 2 ^ 24
      else if i % 8 = 4 then aesSubWord last
      else last
    let w := ws.getD 0 0 ^^^ t
    w :: aesSchedule n (i + 1) (if i % 8 = 0 then aesDouble rc else rc) (ws.drop 1 ++ [w])

/-- The 15 round keys of a 256-bit key. -/
def aesKeys (key : Nat) : List Nat :=
  let k0 := (List.range 8).map fun i => key / 2 ^ (32 * (7 - i)) % 2 ^ 32
  let ws := k0 ++ aesSchedule 52 8 1 k0
  (List.range 15).map fun r => (List.range 4).foldl (fun v j => v * 2 ^ 32 + ws.getD (4 * r + j) 0) 0

/-- The rounds after the first key. -/
def aesRounds : List Nat → Nat → Nat
  | [], s => s
  | [k], s => aesSubShift s ^^^ k
  | k :: ks, s => aesRounds ks (aesMix (aesSubShift s) ^^^ k)

/-- AES-256 on one block. -/
def aesBlock (key s : Nat) : Nat :=
  match aesKeys key with
  | [] => s
  | k :: ks => aesRounds ks (s ^^^ k)

/-! GCM. -/

/-- The product in GCM's GF(2¹²⁸), whose highest bit is the coefficient of 1: `n` bits of `x` are left, and `v` is the other
factor times the power of the next one. -/
def gcmTimes (x : Nat) : Nat → Nat → Nat
  | 0, _ => 0
  | n + 1, v =>
    (if x / 2 ^ n % 2 = 1 then v else 0) ^^^
      gcmTimes x n (if v % 2 = 1 then v / 2 ^^^ 0xE1 * 2 ^ 120 else v / 2)

/-- GHASH of `n` blocks, the first highest. -/
def gcmHash (h x : Nat) : Nat → Nat → Nat
  | 0, y => y
  | n + 1, y => gcmHash h x n (gcmTimes (y ^^^ x / 2 ^ (128 * n) % 2 ^ 128) 128 h)

/-- The tag of `len` bytes of ciphertext under a key, a nonce of 12 bytes and additional data of 4 bytes. -/
def gcmTag (key nonce aad text len : Nat) : Nat :=
  let n := (len + 15) / 16
  let body := text * 2 ^ (8 * (16 * n - len))
  let x := (aad * 2 ^ 96 * 2 ^ (128 * n) + body) * 2 ^ 128 + 32 * 2 ^ 64 + 8 * len
  gcmHash (aesBlock key 0) x (n + 2) 0 ^^^ aesBlock key (nonce * 2 ^ 32 + 1)

/-- GCM's encryption of `len` bytes, which is its decryption too: counter blocks from 2 on. -/
def gcmCrypt (key nonce text len : Nat) : Nat :=
  let n := (len + 15) / 16
  let stream := (List.range n).foldl (fun v i => v * 2 ^ 128 + aesBlock key (nonce * 2 ^ 32 + 2 + i)) 0
  text ^^^ stream / 2 ^ (8 * (16 * n - len))

end Sys2Proof.Machine
end

