-- ==== Sys2Proof/Machine/Fabric.lean ====
section
/-!
DEFINITION. The fabric: FSTEP, CSTAT, CWAIT and FHINT, the sequencer's operations, and what happens to circuits (spec/16
R345, R346, R351 to R363; spec/20 R391, R393, R402).
-/
namespace Sys2Proof.Machine

/-- The circuit program of a launch. -/
def progOf? (s : State) (lid : Nat) : Option CProg :=
  match s.launch? lid with
  | some l => l.prog
  | none => none

/-- Change the circuit program of a launch. -/
def setProg (s : State) (lid : Nat) (p : CProg) : State :=
  match s.launch? lid with
  | some l => s.setLaunch lid { l with prog := some p }
  | none => s

/-! The instructions (R359 to R363). -/

/-- The key of a die's count for a step. -/
def stepKey (die n : Nat) : Nat := die * 2 ^ 32 + n

/-- FSTEP (R360). -/
def execFstep (a : Reg) (s : State) : HO :=
  runS s fun e c => do
    let v := (c.rdS e a).toNat
    check (v / 2 ^ 32 == 0 && v != 0) .illop
    let s1 := s.setCtx s.cur (c.advance e)
    match progOf? s c.bind.lid with
    | none => .ok s1
    | some p =>
      if v ≤ p.stepNo then .ok s1
      else do
        let d := dieOf s.cur
        let k := stepKey d v
        let pending := p.counts.filter fun e => e.1 / 2 ^ 32 == d
        await (lookD p.counts k 0 != 0 || pending.length < 16)
        .ok (setProg s1 c.bind.lid { p with counts := put p.counts k (min 255 (lookD p.counts k 0 + 1)) })

/-- The code of a circuit state (Table 90). -/
def CState.code : CState → Nat
  | .idle => 0 | .settling => 1 | .live => 2 | .draining => 3 | .recovering => 4 | .lost => 5

/-- CSTAT's word (Table 96, R393). Of an IDLE circuit, the endpoints and the latency of its last EST, 0 before the first, and of a LOST
one its groups, are a DESIGN CHOICE (log 64). -/
def cstatWord (s : State) (k : Circuit) : Nat :=
  match k.est with
  | none => k.state.code + k.fcnt * 2 ^ 48
  | some o =>
    let l := lookD s.links (linkOf o) {}
    k.state.code + (if k.state = .idle then 0 else k.groups.toNat * 2 ^ 8) + o.da.toNat * 2 ^ 16 + o.pa.toNat * 2 ^ 20 +
      o.db.toNat * 2 ^ 24 + o.pb.toNat * 2 ^ 28 + clat o * 2 ^ 32 + k.fcnt * 2 ^ 48 +
      (if o.x then (if l.up then l.width % 32 * 2 ^ 56 else 0) + (if l.trains then 2 ^ 61 else 0) +
        (if l.drain then 2 ^ 62 else 0) + (if l.up then 2 ^ 63 else 0) else 0)

/-- CSTAT (R361). -/
def execCstat (o : CstatOp) (s : State) : HO :=
  runC s fun e c =>
    let v := if holds s c.bind.lid o.c.toNat then cstatWord s (s.circuit o.c.toNat) else 0
    .ok ((c.wrS o.d (BitVec.ofNat 64 v)).advance e)

/-- CWAIT (R362): the context is marked as waiting, for the routing of reports (R354). -/
def execCwait (c : BitVec 8) (s : State) : HO :=
  runC s fun e x =>
    let k := s.circuit c.toNat
    let est := match progOf? s x.bind.lid with
      | some p => establishes p c.toNat
      | none => false
    if !est || !holds s x.bind.lid c.toNat || k.state == .lost then
      .error (.trap { code := .nocirc, circ := c.toNat })
    else if k.state == .live then .ok { x.advance e with cwaiting := none }
    else .ok { x with cwaiting := some c.toNat }

/-- FHINT (R363). -/
def execFhint (a : Reg) (s : State) : HO :=
  runS s fun e c => do
    let v := (c.rdS e a).toNat
    check (v / 2 ^ 60 == 0) .illop
    let w := if bitsOf v 32 24 = 0 then 0 else BitVec.ofNat 64 (v % 2 ^ 57)
    let s1 := s.setCtx s.cur (c.advance e)
    match s.launch? c.bind.lid with
    | none => .ok s1
    | some l => .ok (s1.setLaunch c.bind.lid { l with hints := putD l.hints (bitsOf v 57 3) w 0 })

/-! The sequencer (R351 to R353). -/

/-- Whether a HOLD still delays the operations after it (Table 94). -/
def holdOpen (s : State) : Option Nat → Bool
  | none => true
  | some c => (s.circuit c).state == .live || (s.circuit c).state == .lost

/-- The operation at a place of a program. -/
def opAt (p : CProg) (i : Nat) : Option Instr := (p.ops[i]?).bind decodeSeqOp

/-- Whether the step's operations have all issued: the next is a STEP or DONE (R353). -/
def stepOver (p : CProg) : Bool :=
  match opAt p p.pc with
  | some (.seqStep _) => true
  | some .seqDone => true
  | _ => false

/-- FSTEPNO takes the step whose operations have issued, and its arrivals and those before it are discarded (R353). -/
def closeStep (p : CProg) : CProg :=
  if stepOver p && p.cur != 0 then
    { p with
      stepNo := p.cur
      counts := p.counts.filter fun e => p.cur < e.1 % 2 ^ 32
      held := none }
  else p

/-- Go on to the next operation, of the routine or of the main program. -/
def CProg.advance (p : CProg) : CProg :=
  match p.routine with
  | some r => { p with routine := some (r + 1), rheld := none }
  | none => closeStep { p with pc := p.pc + 1, held := none }

/-- The place of the operation that issues now. -/
def CProg.here (p : CProg) : Nat := p.routine.getD p.pc

/-- Run an operation of the launch `curLid`, unless a HOLD or a STEP's counts delay it. -/
def runSeq (s : State) (f : CProg → State) : HO :=
  match progOf? s s.curLid with
  | none => .next s
  | some p =>
    let h := match p.routine with | some _ => p.rheld | none => p.held
    .next (if (p.ended && p.routine.isNone) || !holdOpen s h || (p.opened.isSome && p.routine.isNone) then s else f p)

/-- Whether the ports of an EST have room for it beside the circuits that are not IDLE (R342). That one which is LOST counts, as long
as no TEAR ends it, is a DESIGN CHOICE (log 64). -/
def estFits (s : State) (o : EstOp) : Bool :=
  let used : Store SimCirc := s.circuits.filterMap fun e =>
    match e.2.est with
    | some x => if e.2.state == .idle || e.1 == o.c.toNat then none else some (e.1, { est := x, groups := e.2.groups })
    | none => none
  portsOk (put used o.c.toNat { est := o, groups := o.wg })

/-- A new instance of a handle: counters start at 0, buffers empty, and the epoch rises when the number wraps (R357). -/
def newInstance (s : State) (c : Nat) (k : Circuit) : State × Circuit :=
  ({ s with
      flits := s.flits.filter fun e => e.1 / 1024 != c
      rx := s.rx.filter fun e => e.1 / 1024 != c
      paused := s.paused.filter fun e => e.1 / 1024 != c
      m := if k.inst = BitVec.allOnes 32 then { s.m with epoch := s.m.epoch + 1 } else s.m },
    { k with inst := k.inst + 1 })

/-- The key of one direction of a hop: `false` from A to B. -/
def hopKey (c hop : Nat) (dir : Bool) : Nat := c * 1024 + hop * 2 + (if dir then 1 else 0)

/-- The key of a stream context at a receiver port (R358). -/
def streamKey (p : Nat) (tag : Nat) : Nat := p * 4096 + tag

/-- The requests that are outstanding on a circuit must be asked for before they go on (R379). -/
def askAll (s : State) (c : Nat) : State :=
  { s with reqs := s.reqs.map fun e => if onCirc s c e.2 then (e.1, { e.2 with ask := true }) else e }

/-- EST (R351, R391, R402, R407): it waits for a LINKSET that holds its link and for the banks that feed it, and, a DESIGN CHOICE
(log 64), for a circuit that still drains and for the room on its ports that other circuits take. What is outstanding on a circuit
that was LOST may have gone by other relays, whose frames are lost (R379). -/
def execEst (o : EstOp) (s : State) : HO :=
  runSeq s fun p =>
    let c := o.c.toNat
    let k := s.circuit c
    if holds s s.curLid c && (k.state == .idle || k.state == .lost) && estFits s o &&
        banksReady s c && !(o.x && (lookD s.links (linkOf o) {}).drain) then
      let (s1, k1) := newInstance (askAll s c) c k
      setProg ({ s1 with relayed := s1.relayed.filter fun e => e.1 / 1024 != c }.setCircuit c { k1 with
        state := .settling, est := some o, groups := o.wg, settled := false, tearPend := false, recovery := none, cut := false
        renew := false }) s.curLid p.advance
    else s

/-- TEAR (R352). -/
def tearCircuit (s : State) (c : Nat) : State :=
  let k := s.circuit c
  match k.state with
  | .live | .settling => s.setCircuit c { k with state := .draining }
  | .recovering => s.setCircuit c { k with tearPend := true }
  | .lost => (closeStreams s c).setCircuit c { k with state := .idle, settled := false }
  | _ => s

def execTear (c : BitVec 8) (s : State) : HO :=
  runSeq s fun p =>
    setProg (if holds s s.curLid c.toNat then tearCircuit s c.toNat else s) s.curLid p.advance

/-- HOLD (Table 94). -/
def execHold (c : BitVec 8) (s : State) : HO :=
  runSeq s fun p =>
    let q := p.advance
    setProg s s.curLid
      (match p.routine with
       | some _ => { q with rheld := some c.toNat }
       | none => if stepOver q then q else { q with held := some c.toNat })

/-- STEP opens a step (R353); its operations issue once its counts are complete. -/
def execSeqStep (o : StepOp) (s : State) : HO :=
  runSeq s fun p => setProg s s.curLid { p with opened := some o }

/-- Whether a step's arrivals are complete (R353). -/
def countsDone (p : CProg) (o : StepOp) : Bool :=
  (List.range 16).all fun d => !o.pmask.getLsbD d || o.fcnt.toNat ≤ lookD p.counts (stepKey d o.s.toNat) 0

/-- A step issues (R353): the GAPs end. -/
def execStepIssue (lid : Nat) (s : State) : HO :=
  match progOf? s lid with
  | none => .next s
  | some p =>
    match p.opened with
    | none => .next s
    | some o =>
      .next (if countsDone p o && p.routine.isNone then
          setProg s lid (closeStep { p with opened := none, cur := o.s.toNat, pc := p.pc + 1, gaps := [], held := none })
        else s)

/-- GAP (R355): its ports carry no traffic until the next STEP or DONE issues. -/
def execGap (o : GapOp) (s : State) : HO :=
  runSeq s fun p => setProg s s.curLid { p.advance with gaps := p.gaps ++ [o] }

/-- Whether an LMOVE may act (Table 94). -/
def lmoveOk (a b : Circuit) (o : LmoveOp) : Bool :=
  match a.est, b.est with
  | some x, some y => a.state == .live && b.state == .live && sameWay x y && o.mg &&& ~~~a.groups == 0 &&
      a.groups &&& ~~~o.mg != 0 && o.cf != o.ct
  | _, _ => false

/-- LMOVE: the moved groups carry traffic for the other circuit, and both stay LIVE (R345, R351). -/
def execLmove (o : LmoveOp) (s : State) : HO :=
  runSeq s fun p =>
    let a := s.circuit o.cf.toNat
    let b := s.circuit o.ct.toNat
    let s1 := if lmoveOk a b o && holds s s.curLid o.cf.toNat && holds s s.curLid o.ct.toNat then
        (s.setCircuit o.cf.toNat { a with groups := a.groups &&& ~~~o.mg }).setCircuit o.ct.toNat
          { b with groups := b.groups ||| o.mg }
      else s
    setProg s1 s.curLid p.advance

/-- VECT (R351). -/
def execVect (o : VectOp) (s : State) : HO :=
  runSeq s fun p =>
    let q := p.advance
    setProg s s.curLid
      (if o.all then { q with vectAll := some o.t.toNat }
       else { q with vects := put q.vects o.c.toNat o.t.toNat })

/-- RETRY, in a routine (R351, R354): the routine goes on before the outcome is known; a further RETRY of a circuit that still
recovers replaces the one in force and counts its attempts from 0; one of a circuit that does not recover does nothing. These are a
DESIGN CHOICE (log 64). -/
def execRetry (o : RetryOp) (s : State) : HO :=
  runSeq s fun p =>
    let c := o.c.toNat
    let k := s.circuit c
    let s1 := match k.recovery with
      | some r => if holds s s.curLid c ∧ k.state = .recovering then
            s.setCircuit c { k with recovery := some { r with retry := some o, tries := 0 } }
          else s
      | none => s
    setProg s1 s.curLid p.advance

/-- SIGNAL (R351): a word that cannot be written yet holds the program; one that does not translate is not written (log
15). -/
def execSignal (addr : BitVec 56) (s : State) : HO :=
  runSeq s fun p =>
    let root := match s.launch? s.curLid with | some l => l.root | none => 0
    let v := p.cur + p.here * 2 ^ 32
    match writeMem s (firmware s.curLid root) 0 plainW 8 (addr.toNat / 8 * 8) 8 v with
    | .ok s' => setProg s' s.curLid p.advance
    | .error .wait => s
    | .error _ => setProg s s.curLid p.advance

/-- DONE ends the routine or the program, and every GAP (R351, R353, R355). -/
def execSeqDone (s : State) : HO :=
  runSeq s fun p =>
    setProg s s.curLid
      (match p.routine with
       | some _ => { p with routine := none, rheld := none, gaps := [] }
       | none => { p with ended := true, gaps := [] })

/-! What happens to circuits (R345, R346, R352, R354). -/

/-- The settle time elapses (R346, R391). -/
def execSettleElapsed (c : BitVec 8) (s : State) : HO :=
  let k := s.circuit c.toNat
  .next (if k.state = .settling ∧ k.lid ≠ 0 then
      s.setCircuit c.toNat { k with settled := true, state := settledState s k }
    else s)

/-- Cards in flight that name a circuit of a launch. -/
def cardsOn (s : State) (lid c : Nat) : List (Nat × Card) :=
  s.cards.filter fun e => e.2.lid == lid && e.2.inFlight && cardRemote e.2.line && cardCirc e.2.line == c &&
    e.2.st != .failed

/-- The requests whose replies are still to come: those on their way, and the constituents of a parting entry that has its
reply. -/
def outstanding (s : State) : List Req :=
  s.reqs.map (·.2) ++ (s.parts.filter fun e => e.2.reply.isSome).flatMap fun e => [e.2.p, e.2.q]

/-- Whether any request is outstanding on a circuit (R379). -/
def requestsOn (s : State) (c : Nat) : Bool := (outstanding s).any (onCirc s c)

/-- A circuit becomes IDLE; its handle is freed if its launch has ended (R343, R352). -/
def idleCircuit (s : State) (c : Nat) : State :=
  let k := s.circuit c
  let s1 := closeStreams s c
  if (s.launch? k.lid).isNone then s1.setCircuit c { inst := k.inst }
  else s1.setCircuit c { k with
    state := .idle, settled := false, tearPend := false, recovery := none, cut := false, renew := false }

/-- A circuit on a link that a LINKSET holds: its drain ends with the LINKSET's Close (R401). -/
def heldByLinkset (s : State) (k : Circuit) : Bool :=
  match k.est with
  | some o => o.x && (lookD s.links (linkOf o) {}).drain
  | none => false

/-- A drain completes (R352). -/
def execDrainComplete (c : BitVec 8) (s : State) : HO :=
  let k := s.circuit c.toNat
  .next (if k.state = .draining ∧ (cardsOn s k.lid c.toNat).isEmpty ∧ !requestsOn s c.toNat ∧ !heldByLinkset s k then
      idleCircuit s c.toNat
    else s)

/-- A LINKSET counts the cards that it tears (R401). -/
def countTorn (s : State) (n : Nat) : State :=
  match s.m.lset with
  | some r => { s with m := { s.m with lset := some { r with torn := r.torn + n } } }
  | none => s

/-- The drain bound passes (R352, R381, R401): the cards still in flight fail with TORN, and a LINKSET counts those that do. -/
def execDrainBoundExpiry (c : BitVec 8) (s : State) : HO :=
  let k := s.circuit c.toNat
  .next (if k.state = .draining then
      let ids := (cardsOn s k.lid c.toNat).map (·.1)
      let torn (s : State) : Nat := (s.cards.filter fun e => e.2.status == 0x21).length
      let s1 := failCards s ids 0x21 0 0
      if heldByLinkset s k then countTorn s1 (torn s1 - torn s) else idleCircuit s1 c.toNat
    else s)

/-- The number of a subcode (Table 92). -/
def optNum : OptSub → Nat
  | .laser => 1 | .ringdet => 2 | .lock => 3

/-- FREP's fields (Table 92), without NEW and OVF. -/
def frepWord (c die port wave sub out step : Nat) : Word :=
  BitVec.ofNat 64 (c + die % 16 * 2 ^ 8 + port % 8 * 2 ^ 12 + wave / 8 % 8 * 2 ^ 16 + wave % 8 * 2 ^ 19 + sub * 2 ^ 24 +
    out * 2 ^ 28 + step % 2 ^ 24 * 2 ^ 32)

/-- A report arrives at a context (R346, R354): OVF if NEW stands, and IDLE ends (R112). -/
def takeReport (w : Word) (c : Context) : Context :=
  let old := c.r.frep
  let ovf : Word := if old.getLsbD 63 ∨ old.getLsbD 62 then 1#64 <<< 62 else 0
  { c with r := { c.r with frep := w ||| (1#64 <<< 63) ||| ovf } }.wake

/-- Whether a context awaits something of a circuit (R354). -/
def concerned (s : State) (c : Nat) (x : Context) : Bool :=
  x.cwaiting == some c ||
    (cardsOn s x.bind.lid c).any (fun e => e.2.wid == x.bind.wid) ||
    (outstanding s).any fun r => onCirc s c r && (carried s r).any fun a => a.asker.of x.bind.lid x.bind.wid fun _ => true

/-- Route a report to the contexts of the launch that it concerns, and to the owner (R354). -/
def routeReport (s : State) (lid c : Nat) (w : Word) : State :=
  let f (x : Context) : Context := if x.bind.lid == lid && concerned s c x then takeReport w x else x
  ({ s with
    ctxs := s.ctxs.map fun (e : Nat × Context) => (e.1, f e.2)
    saved := s.saved.map fun (e : Nat × Saved) => (e.1, { e.2 with ctx := f e.2.ctx }) }).report (.opticalFault w)

/-- The vector routine in force for a circuit (R351). -/
def vectorOf? (p : CProg) (c : Nat) : Option Nat :=
  match find? p.vects c with
  | some t => some t
  | none => p.vectAll

/-- A recovery begins (R354): the vector routine becomes due, or the default RETRY begins. -/
def beginRecovery (s : State) (c : Nat) (k : Circuit) (r : Recovery) : State :=
  let pend := k.tearPend || k.state == .draining
  match progOf? s k.lid with
  | some p =>
    match vectorOf? p c with
    | some t => setProg (s.setCircuit c { k with state := .recovering, tearPend := pend, recovery := some r }) k.lid
        { p with due := p.due ++ [t] }
    | none => s.setCircuit c { k with
        state := .recovering, tearPend := pend, recovery := some { r with retry := some (defaultRetry c) } }
  | none => s.setCircuit c { k with
      state := .recovering, tearPend := pend, recovery := some { r with retry := some (defaultRetry c) } }

/-- What a fault report's assay tests (R326, Table 92): the laser banks that feed the circuit; the wavelength whose ring is
detuned; and, since the table names no resource for a receiver that has lost lock, its wavelength and its path both (log 52). -/
def opticalRes (s : State) (c die port wave : Nat) (sub : OptSub) : List Resource :=
  let ring : Resource := { kind := 4, die := BitVec.ofNat 4 die, index := BitVec.ofNat 32 (port % 8 + wave * 8) }
  match sub with
  | .laser => (banksOf s c).map fun b => { kind := 6, die := 0, index := BitVec.ofNat 32 b }
  | .ringdet => [ring]
  | .lock => [ring, { kind := 3, die := 0, index := BitVec.ofNat 32 (Config.pathOf c % 2 ^ 16) }]

/-- A fault report of a circuit (R354). -/
def opticalFault (s : State) (c die port wave : Nat) (sub : OptSub) : State :=
  let k := s.circuit c
  if k.state = .idle ∨ k.state = .lost ∨ k.lid = 0 then s
  else
    let step := match progOf? s k.lid with | some p => p.stepNo | none => 0
    let s0 := (opticalRes s c die port wave sub).foldl (fun s r => s.report (.assayDue r)) s
    let s1 := routeReport s0 k.lid c (frepWord c die port wave (optNum sub) 0 step)
    let s2 := { s1 with
      cards := s1.cards.map fun e =>
        if e.2.lid == k.lid && e.2.inFlight && cardRemote e.2.line && cardCirc e.2.line == c then
          (e.1, { e.2 with rpt := min 255 (e.2.rpt + 1) })
        else e }
    let k1 := { k with fcnt := min 255 (k.fcnt + 1) }
    let fresh : Recovery := { first := sub, die := die, port := port, wave := wave, step := step, sub := sub }
    match k.state, k.recovery with
    | .recovering, some r =>
      if r.planned then beginRecovery s2 c k1 fresh else s2.setCircuit c { k1 with recovery := some { r with sub := sub } }
    | _, _ => beginRecovery s2 c k1 fresh

/-- An optical fault is reported (R354). -/
def execOpticalFaultReport (c : BitVec 8) (die : BitVec 4) (port : BitVec 3) (wave : BitVec 6) (sub : OptSub)
    (s : State) : HO :=
  .next (opticalFault s c.toNat die.toNat port.toNat wave.toNat sub)

/-- The choices are: the same ring, other wavelengths, another path. -/
inductive Choice3 where
  | relock | waves | path
deriving DecidableEq, Repr

/-- The order of choices of a subcode, among those that a mode allows (R354). -/
def choicesOf (m : RetryMode) (sub : OptSub) : List Choice3 :=
  let order : List Choice3 := match sub with
    | .laser => [.waves, .path]
    | _ => [.relock, .waves, .path]
  match m with
  | .any => order
  | .path => order.filter (· == .path)
  | .waves => order.filter (· == .waves)
  | .relock => order.filter (· == .relock)

/-- The outcome report of a recovery (R354): the fields of the fault report, with the last report's subcode. -/
def outcomeWord (c : Nat) (r : Recovery) (out : Nat) : Word := frepWord c r.die r.port r.wave (optNum r.sub) out r.step

/-- Whether a card has segments or records still to commit (R380, R399). -/
def Card.unfinished (k : Card) : Bool :=
  (cardKind k.line == 0x15 || 0x10 ≤ cardKind k.line && cardKind k.line ≤ 0x12) && !k.performed

/-- Cards in flight on a re-established circuit restart from their first uncommitted segment: what has been written of it is
written again, and an RREDUCE's segment that has been applied is discarded when it arrives again (R380). -/
def restartCards (s : State) (lid c : Nat) : State :=
  { s with
    cards := s.cards.map fun e =>
      if e.2.lid == lid && e.2.st == .running && e.2.unfinished && cardRemote e.2.line && cardCirc e.2.line == c then
        (e.1, { e.2 with
          restarts := min 255 (e.2.restarts + 1)
          seg := e.2.seg.map fun g => { g with again := cardKind e.2.line != 0x12 } })
      else e }

/-- The circuit holds lock again (R354, R352); a re-establishment that no fault began is not reported (R414). -/
def recovered (s : State) (c : Nat) (k : Circuit) (r : Recovery) : State :=
  let s0 := if r.planned then s else routeReport s k.lid c (outcomeWord c r 1)
  let s1 := restartCards (closeStreams s0 c) k.lid c
  let (s2, k1) := newInstance s1 c k
  s2.setCircuit c { k1 with
    state := if k.tearPend then .draining else settledState s2 { k1 with settled := true }
    settled := true
    tearPend := false
    recovery := none }

/-- The circuit is LOST, or IDLE if a TEAR was pending (R352, R354): its cards fail with FABRIC. -/
def lostCircuit (s : State) (c : Nat) (k : Circuit) (r : Recovery) : State :=
  let s1 := routeReport s k.lid c (outcomeWord c r 2)
  let s2 := failCards s1 ((cardsOn s1 k.lid c).map (·.1)) 0x20 (optNum r.sub) 0
  if k.tearPend then idleCircuit s2 c
  else s2.setCircuit c { k with state := .lost, settled := false, tearPend := false, recovery := none }

/-- A recovery attempt ends (R354): an external circuit holds lock only where its link is UP again (R402). A re-establishment
that no fault began goes on until it holds lock. -/
def execRecoveryAttemptEnd (c : BitVec 8) (locked : Bool) (s : State) : HO :=
  let k := s.circuit c.toNat
  match k.state, k.recovery with
  | .recovering, some r =>
    let holds := locked && k.est.all (linkUp s)
    if r.planned then .next (if holds then recovered s c.toNat k r else s)
    else
      match r.retry with
      | none => .next s
      | some o =>
        if holds && !(choicesOf o.mode r.first).isEmpty then .next (recovered s c.toNat k r)
        else if o.limit.toNat ≤ r.tries + 1 then .next (lostCircuit s c.toNat k r)
        else .next (s.setCircuit c.toNat { k with recovery := some { r with tries := r.tries + 1 } })
  | _, _ => .next s

/-- The standby sequencer takes over, with every arrival and every circuit (R353). -/
def execSequencerFailover (s : State) : HO := .next { s with m := { s.m with standby := !s.m.standby } }

/-! Retraining, pacing, frames and streams (R355 to R358). -/

/-- Whether an idle hint range covers the current step (R355, R363). -/
def hintNow (l : Launch) (busy : Bool) : Bool :=
  match l.prog with
  | none => false
  | some p => l.hints.any fun e =>
      let w := e.2.toNat
      (bitsOf w 56 1 == 1) == busy && bitsOf w 32 24 != 0 && bitsOf w 0 32 ≤ p.stepNo &&
        p.stepNo < bitsOf w 0 32 + bitsOf w 32 24

/-- Whether a launch's circuits use a port, or the link that counts as it (R390). -/
def usesPort (s : State) (lid port : Nat) : Bool :=
  s.circuits.any fun e => e.2.lid == lid && e.2.state != .idle &&
    match e.2.est with
    | some o => (gapPorts o).contains port
    | none => false

/-- A launch opens a port to retraining: by a GAP, or by an idle hint where its circuits use the port; a busy hint forbids
it (R355, R363). -/
def opensPort (s : State) (lid : Nat) (l : Launch) (die port : Nat) : Bool :=
  !hintNow l true && ((match l.prog with | some p => inGap p die port | none => false) ||
    hintNow l false && usesPort s lid (portKey die port))

/-- Whether a port is in a window of R355: a launch opens it, and every launch that uses it does. -/
def portOpen (s : State) (die port : Nat) : Bool :=
  s.launches.any (fun e => opensPort s e.1 e.2 die port) &&
    s.launches.all fun e => !usesPort s e.1 (portKey die port) || opensPort s e.1 e.2 die port

/-- A port retrains one of its groups (R355): inside a window, or outside one, where 1 s has passed (log 4), one group at a
time. It changes timing only; the groups under retraining are kept. -/
def execGroupRetrain (die port group : Nat) (s : State) : HO :=
  let k := portKey die port
  let key := k * 8 + group % 8
  if (find? s.retraining key).isSome then .next { s with retraining := del s.retraining key }
  else
    let alone := s.retraining.all fun e => e.1 / 8 != k
    .next (if portOpen s die port || alone then { s with retraining := put s.retraining key () } else s)

/-! Frames of a hop (R356, R357, R391). -/

/-- The hop index of the link hop of an external circuit (R391). -/
def linkHop : Nat := 255

/-- Whether a circuit has a hop: one from each die of its path to the next, and the link hop of an external circuit. -/
def hasHop (o : EstOp) (hop : Nat) : Bool := hop ≤ o.nr.toNat || o.x && hop == linkHop

/-- The number that a hop's key and additional data name: the handle, or on the link hop the link (R357, R391). -/
def hopName (o : EstOp) (hop : Nat) : Nat := if hop = linkHop then linkOf o else o.c.toNat

/-- The secret of a hop: the package's, or on the link hop the pod's (R357, R391). -/
def hopSecret (s : State) (o : EstOp) (hop : Nat) : BitVec 256 :=
  if hop = linkHop then (lookD s.links (linkOf o) {}).secret else Config.packageSecret

/-- One bit of a Bool. -/
def bit (b : Bool) : Nat := if b then 1 else 0

/-- The 53 bytes from which a hop's key is drawn, the secret's first byte lowest (R357). -/
def keySeed (secret : BitVec 256) (epoch name hop : Nat) (inst : BitVec 32) (dir : Bool) : Nat :=
  secret.toNat + 0x504F484E544A * 2 ^ 256 + epoch % 2 ^ 64 * 2 ^ 304 + name % 256 * 2 ^ 368 + inst.toNat * 2 ^ 376 +
    hop % 256 * 2 ^ 408 + bit dir * 2 ^ 416

/-- Bytes of a number in reverse order. -/
def swapBytes (n v : Nat) : Nat := (List.range n).foldl (fun a i => 256 * a + v / 2 ^ (8 * i) % 256) 0

/-- The key of one direction of a hop, its first byte highest (R357). -/
def hopCipherKey (s : State) (o : EstOp) (inst : BitVec 32) (hop : Nat) (dir : Bool) : Nat :=
  swapBytes 32 (shake256 32 53 (keySeed (hopSecret s o hop) s.m.epoch.toNat (hopName o hop) hop inst dir))

/-- The nonce of a frame whose first flit has number `f` (R357). -/
def hopNonce (inst : BitVec 32) (f : Nat) : Nat := inst.toNat * 2 ^ 64 + f % 2 ^ 64

/-- The additional data of a frame (R357). -/
def hopAad (o : EstOp) (hop : Nat) (dir : Bool) (flits : Nat) : Nat :=
  hopName o hop % 256 * 2 ^ 24 + hop % 256 * 2 ^ 16 + bit dir * 2 ^ 8 + flits

/-- Bytes as a number, the first highest. -/
def bodyNum (body : List Byte) : Nat := body.foldl (fun v b => 256 * v + b.toNat) 0

/-- The bytes of a number, the highest first. -/
def bodyOf (n v : Nat) : List Byte := (List.range n).map fun i => BitVec.ofNat 8 (v / 2 ^ (8 * (n - 1 - i)))

/-- The nonce of the next frame of a hop's direction (R357). -/
def nextNonce (s : State) (o : EstOp) (inst : BitVec 32) (hop : Nat) (dir : Bool) : Nat :=
  hopNonce inst (lookD s.flits (hopKey o.c.toNat hop dir) 0)

/-- The tag that a frame of a hop must carry (R357). -/
def frameTag (s : State) (o : EstOp) (inst : BitVec 32) (hop : Nat) (dir : Bool) (body : List Byte) : Nat :=
  gcmTag (hopCipherKey s o inst hop dir) (nextNonce s o inst hop dir) (hopAad o hop dir (body.length / 64)) (bodyNum body)
    body.length

/-- The bytes of a hop's next frame encrypted, or decrypted (R357). -/
def hopCrypt (s : State) (o : EstOp) (inst : BitVec 32) (hop : Nat) (dir : Bool) (body : List Byte) : List Byte :=
  bodyOf body.length (gcmCrypt (hopCipherKey s o inst hop dir) (nextNonce s o inst hop dir) (bodyNum body) body.length)

/-- The hop by which a relay or a gateway sends a frame on that has arrived by another (R342, R357, R391). -/
def nextHop (o : EstOp) (hop : Nat) (dir : Bool) : Option Nat :=
  let n := o.nr.toNat
  if dir then (if hop = linkHop then some n else if hop = 0 then none else some (hop - 1))
  else if hop = linkHop then none
  else if hop < n then some (hop + 1)
  else if o.x then some linkHop
  else none

/-- A relay or a gateway has decrypted a frame, and keeps it, to be encrypted for its next hop, until the next endpoint has
taken it (R354, R357). -/
def sendOn (s : State) (o : EstOp) (hop : Nat) (dir : Bool) (plain : List Byte) : State :=
  match nextHop o hop dir with
  | none => s
  | some h =>
    let k := hopKey o.c.toNat h dir
    { s with relayed := putD s.relayed k (lookD s.relayed k [] ++ [plain]) [] }

/-- Whether a relay or a gateway sends on a hop what has arrived by another, and no endpoint of the circuit its own frames. -/
def relayedHop (o : EstOp) (hop : Nat) (dir : Bool) : Bool :=
  if dir then hop != linkHop && (o.x || hop != o.nr.toNat) else hop == linkHop || hop != 0

/-- The frame that the sender of a hop makes of some bytes: encrypted under the hop's key, with the tag of what it sends (R357). -/
def frameOf (s : State) (o : EstOp) (inst : BitVec 32) (hop : Nat) (dir : Bool) (plain : List Byte) : List Byte × Nat :=
  let body := hopCrypt s o inst hop dir plain
  (body, frameTag s o inst hop dir body)

/-- Whether the sender of a hop has sent a frame with these bytes: a relay or a gateway sends the first that it keeps (R354, R357). -/
def hasSentFrame (s : State) (o : EstOp) (inst : BitVec 32) (hop : Nat) (dir : Bool) (body : List Byte) : Bool :=
  !relayedHop o hop dir ||
    match lookD s.relayed (hopKey o.c.toNat hop dir) [] with
    | [] => false
    | p :: _ => (frameOf s o inst hop dir p).1 == body

/-- The frame that has arrived by a hop is kept no longer (R354). -/
def taken (s : State) (k : Nat) : State := { s with relayed := putD s.relayed k (lookD s.relayed k []).tail [] }

/-- Bytes of a receive buffer (R356). -/
def rxSize : Nat := 65536

/-- What a receive buffer holds: the receiver takes frames out of it meanwhile (R356, log 55). -/
def rxHeld (s : State) (k : Nat) : Nat := lookD s.rx k 0 - Config.rxDrain s.freeCtr k

/-- The die port at which a hop's frames of one direction arrive; none at a link (R342, R390). -/
def hopEnd (o : EstOp) (hop : Nat) (dir : Bool) : Option (Nat × Nat) :=
  if hop = linkHop then none
  else if dir then
    if hop = 0 then some (o.da.toNat, o.pa.toNat)
    else ((relaysOf o)[hop - 1]?).map fun r => (r.1, r.2.2)
  else
    match (relaysOf o)[hop]? with
    | some r => some (r.1, r.2.1)
    | none => if o.x then none else some (o.db.toNat, o.pb.toNat)

/-- A receiver whose free space has fallen to 32 KiB sends PAUSE, and the sender stops at a frame boundary (R356). -/
def execPause (c : BitVec 8) (hop : Nat) (dir : Bool) (s : State) : HO :=
  let k := hopKey c.toNat hop dir
  .next (if rxSize / 2 ≤ rxHeld s k then
      { s with rx := putD s.rx k (rxHeld s k) 0, paused := put s.paused k () }
    else s)

/-- A receiver whose free space has reached 48 KiB sends RESUME, and the sender goes on (R356). -/
def execResumeSymbol (c : BitVec 8) (hop : Nat) (dir : Bool) (s : State) : HO :=
  let k := hopKey c.toNat hop dir
  .next (if rxHeld s k ≤ rxSize / 4 then
      { s with rx := putD s.rx k (rxHeld s k) 0, paused := del s.paused k }
    else s)

/-- A frame of 1 to 16 flits arrives at a hop of a circuit that carries traffic, its sender not paused, with room for it in
the receive buffer (R356, R357): a good tag, of a frame that the hop's sender has sent, advances the flit counter, and a relay sends
the frame on; a bad one discards the frame, which is resent, and the failure is logged and feeds the assay of the hop. -/
def execFrameReceive (c : BitVec 8) (hop : Nat) (dir : Bool) (body : List Byte) (tag : BitVec 128) (s : State) : HO :=
  let x := s.circuit c.toNat
  let k := hopKey c.toNat hop dir
  let n := body.length / 64
  match x.est with
  | none => .next s
  | some o =>
    let takes := carries s c.toNat && hasHop o hop && body.length == 64 * n && 1 ≤ n && n ≤ 16 &&
      (find? s.paused k).isNone && rxHeld s k + 64 * n ≤ rxSize
    if !takes then .next s
    else if tag.toNat = frameTag s o x.inst hop dir body then
      let s1 := sendOn (taken s k) o hop dir (hopCrypt s o x.inst hop dir body)
      .next (if hasSentFrame s o x.inst hop dir body then
          { s1 with
            flits := putD s.flits k ((lookD s.flits k 0 + n) % 2 ^ 64) 0
            rx := putD s.rx k (rxHeld s k + 64 * n) 0 }
        else s)
    else
      let s1 := s.report (.tagFailure c.toNat hop)
      .next (match hopEnd o hop dir with
        | some p => s1.report (.assayDue { kind := 2, die := BitVec.ofNat 4 p.1, index := BitVec.ofNat 32 p.2 })
        | none => s1)

/-- A header as its bytes say: a full one, with OPEN, CLOSE and the stream tag, or a compressed one with its tag and its signed delta
in units of 64 bytes (R358). -/
inductive PacketHead where
  | full (opens closes : Bool) (tag : Nat) (h : Header)
  | delta (tag : Nat) (d : Int)
deriving DecidableEq, Repr

/-- The 24 bytes of a full header (R358); its reserved bits are not read. -/
def fullHead (v : Nat) : PacketHead :=
  .full (bitsOf v 4 1 == 1) (bitsOf v 5 1 == 1) (bitsOf v 16 12)
    { kind := BitVec.ofNat 4 v, addr := BitVec.ofNat 56 (bitsOf v 32 56), len := BitVec.ofNat 32 (bitsOf v 96 32)
      requester := BitVec.ofNat 32 (bitsOf v 128 32), reqid := BitVec.ofNat 32 (bitsOf v 160 32) }

/-- A header read from its bytes, the first lowest (R358): 24 bytes, or 2 with as many more as its delta size says. -/
def readHead (bs : List Byte) : Option PacketHead :=
  let v := numOfBytes bs
  let n := bitsOf v 12 4
  if bs.length = 24 then some (fullHead v)
  else if bs.length = 2 + n ∧ (n = 0 ∨ n = 2 ∨ n = 4) then some (.delta (bitsOf v 0 12) (intOf true (8 * n) (v / 65536)))
  else none

/-- The stream contexts of a receiver port that are in use (R358). -/
def streamsAt (s : State) (port : Nat) : Nat := (s.streams.filter fun e => e.1 / 4096 == port).length

/-- The lowest tag from `t` on that no stream of a port has. -/
def freeTag? (s : State) (port : Nat) : Nat → Nat → Option Nat
  | 0, _ => none
  | fuel + 1, t => if (find? s.streams (streamKey port t)).isNone then some t else freeTag? s port fuel (t + 1)

/-- The header that a packet with a delta stands for: it counts from the end of the packet before, and every other field is the
stream's (R358). -/
def nextHeader (h : Header) (d : Int) : Header := { h with addr := BitVec.ofInt 56 (h.addr.toNat + h.len.toNat + 64 * d) }

/-- What a packet of an open stream does to it (R358): the packet is the stream's next header, or closes it. -/
def streamNext (s : State) (p : Packet) (tag : Nat) (f : Stream → Option Stream) : State :=
  let k := streamKey (portKey p.die p.port) tag
  match find? s.streams k with
  | some x =>
    if x.circ != p.circ.toNat then s
    else
      match f x with
      | some y => { s with streams := put s.streams k y }
      | none => { s with streams := del s.streams k }
  | none => s

/-- A packet with OPEN, which asks for a stream, or one of an open stream, which is its next header, reaches a receiver (R358);
CLOSE closes the stream. -/
def execStreamOpen (p : Packet) (s : State) : HO :=
  .next (match readHead p.head with
    | some (.full true false tag _) => { s with opening := put s.opening (streamKey (portKey p.die p.port) tag) p }
    | some (.full _ closes tag h) => streamNext s p tag fun x => if closes then none else some { x with head := h }
    | some (.delta tag d) => streamNext s p tag fun x => some { x with head := nextHeader x.head d }
    | none => s)

/-- The packet with OPEN that one names, as it waits for its answer, with its header. -/
def asksOpen? (s : State) (p : Packet) : Option (Nat × Packet × Header) :=
  match readHead p.head with
  | some (.full _ _ tag _) =>
    let k := streamKey (portKey p.die p.port) tag
    (find? s.opening k).bind fun q => match readHead q.head with
      | some (.full _ _ _ h) => some (k, q, h)
      | _ => none
  | _ => none

/-- ACCEPT: the receiver assigns a free context, and the lowest tag that is free, to a packet that asks for one (R358); which free tag
it takes is a DESIGN CHOICE (log 64). -/
def execAccept (p : Packet) (s : State) : HO :=
  let port := portKey p.die p.port
  match asksOpen? s p, freeTag? s port 4096 0 with
  | some (k, q, h), some tag =>
    .next { s with streams := put s.streams (streamKey port tag) ⟨q.circ.toNat, h⟩, opening := del s.opening k }
  | _, _ => .next s

/-- REFUSE: no context is free, and the sender, whose packet asks no longer, goes on with full headers (R358). -/
def execRefuse (p : Packet) (s : State) : HO :=
  match asksOpen? s p with
  | some (k, _, _) => .next (if streamsAt s (portKey p.die p.port) < 4096 then s else { s with opening := del s.opening k })
  | none => .next s

/-! Fetch-and-ops over circuits (R378, R379). -/

/-- A receipt of a request at its home slice (R378). -/
def findReceipt? (s : State) (r : Req) : Option Receipt :=
  (lookD s.receipts (receiptKey r) []).find? fun x => x.reqid == r.reqid

/-- The RFETCH cards below an asker, whose results are settled (R372, R379). -/
def markSettled (s : State) (a : Asker) : State :=
  (constituents s (s.parts.length + 1) a).1.foldl (fun s a => match a with
    | .card id | .slot id _ => updCard s id fun k => { k with rslv := true }
    | _ => s) s

/-- A request's receipt returns its value, and it is not sent again (R379). -/
def settleReceipt (s : State) (rid : Nat) (r : Req) (x : Receipt) : State :=
  let s1 := markSettled { s with reqs := del s.reqs rid } r.asker
  match x.old with
  | some v => deliverReply (settleReds (s.parts.length + 1) r.asker s1) r.asker v
  | none => finishReds s1 r.asker

/-- The answer to the question for one request's receipt (R379). -/
def askReceipt (s : State) (e : Nat × Req) : State :=
  match findReceipt? s e.2 with
  | some x => settleReceipt s e.1 e.2 x
  | none => { s with reqs := put s.reqs e.1 { e.2 with ask := false } }

/-- After a re-establishment on other relays, and before any new fetch-and-op crosses the circuit, the gateway asks for the
receipts of the outstanding requests (R379). -/
def execReceiptQuery (c : BitVec 8) (s : State) : HO :=
  .next (if carries s c.toNat then
      (s.reqs.filter fun e => e.2.ask && onCirc s c.toNat e.2).foldl askReceipt s
    else s)

/-- One outstanding request of a circuit that has gone is settled (R379): by receipt, or by performing the operation, whose
value then needs no circuit. -/
def settleOne (s : State) (e : Nat × Req) : State :=
  match findReceipt? s e.2 with
  | some x => settleReceipt s e.1 e.2 x
  | none => performReq (performReq (markSettled s e.2.asker) e.1) e.1

/-- A reply that a parting entry holds is settled toward the constituents (R379): it needs no circuit. -/
def settlePart (s : State) (c : Nat) (e : Nat × PartEntry) (x : Nat) : State :=
  let mark (s : State) (r : Req) : State := if onCirc s c r then markSettled s r.asker else s
  partReply (mark (mark s e.2.p) e.2.q) e.1 e.2 x

/-- The requests on a circuit are settled one after another, each when nothing goes before it (R264), and then the replies that
parting entries hold. -/
def settleRound (c : Nat) : Nat → State → State
  | 0, s => s
  | fuel + 1, s =>
    match s.reqs.find? fun e => onCirc s c e.2 && (e.2.back.isSome || !heldBehind s [e.1] e) with
    | some e => settleRound c fuel (settleOne s e)
    | none =>
      match s.parts.find? fun e => e.2.reply.isSome && (onCirc s c e.2.p || onCirc s c e.2.q) with
      | some e => settleRound c fuel (settlePart s c e (e.2.reply.getD 0))
      | none => s

/-- What is outstanding on a circuit is settled (R379, R402); what follows a request of another circuit waits for it (R264). -/
def settleCircuit (s : State) (c : Nat) : State := settleRound c (s.reqs.length + s.parts.length) s

/-- The firmware settles what is outstanding on a circuit that is LOST or was torn past its bound (R379). -/
def execLostCircuitSettle (c : BitVec 8) (s : State) : HO :=
  let k := s.circuit c.toNat
  .next (if k.state = .lost ∨ k.state = .idle then settleCircuit s c.toNat else s)

end Sys2Proof.Machine
end

