-- ==== Sys2Proof/Machine/Links.lean ====
section
/-!
DEFINITION. External links: training, steering, retraining, the fabric queue's LINKSET, a link that fails, the partner
circuit (spec/20 R390 to R402; spec/22 R410, R411).
-/
namespace Sys2Proof.Machine

/-- A link. -/
def linkAt (s : State) (n : Nat) : Link := lookD s.links n {}

def State.setLink (s : State) (n : Nat) (l : Link) : State := { s with links := putD s.links n l {} }

/-- The circuits on a link that are not IDLE. -/
def circuitsOn (s : State) (n : Nat) : List (Nat × Circuit) :=
  s.circuits.filter fun e => e.2.state != .idle && match e.2.est with | some o => o.x && linkOf o == n | none => false

/-- The settled circuits of a link become LIVE, or leave LIVE, as R391's conditions now stand. -/
def resettle (s : State) (n : Nat) : State :=
  (circuitsOn s n).foldl (fun s e =>
    if e.2.settled && (e.2.state == .live || e.2.state == .settling) then
      s.setCircuit e.1 { e.2 with state := settledState s e.2 }
    else s) s

/-! Training (R410, R411). -/

/-- The other link of a link's pair. -/
def pairLink (n : Nat) : Nat := if n % 2 = 0 then n + 1 else n - 1

/-- The wavelengths of a link that carry nothing: those under retraining, and one that is being steered to it (R396, R397). -/
def Link.idleWaves (l : Link) : Nat := l.away.length + (if l.moving then 1 else 0)

/-- The other link of the pair of one that trains at 16 of the pair's 32 wavelengths is left with the other 16, fewer by those
under retraining (R390). DEDUCED (log 38). -/
def levelPair (s : State) (n : Nat) : State :=
  let l := linkAt s n
  if l.up then s.setLink n { l with width := 16 - l.idleWaves } else s

/-- A link is down, or faces another peer: no partner of its circuits is known (R391). -/
def unlinked (s : State) (n : Nat) : State :=
  let s1 := s.setLink n { linkAt s n with up := false, away := [], moving := false, width := 0 }
  { s1 with partners := s1.partners.filter fun e => e.1 / 2 != n }

/-- A link trains with the peer it finds (R390, R407, R410, R411): it takes the staged secret, and stays down where the
peer reports this device's own number or holds another secret. -/
def trainLink (s : State) (n : Nat) (peer : PeerInfo) : State :=
  let l := linkAt s n
  let ok := peer.dev.toNat != s.m.devno && peer.secret == s.m.lsecret
  let s1 := (unlinked s n).setLink n { l with
    up := ok
    away := []
    moving := false
    width := if ok then 16 else 0
    pdev := peer.dev.toNat
    plink := peer.link.toNat
    secret := s.m.lsecret
    trained := true }
  let s2 := if ok then levelPair s1 (pairLink n) else s1
  { s2 with m := { s2.m with ready := s2.m.ready ||| (1#2048 <<< (160 + n)) } }

/-- LINK_TRAIN (R390, R410): a link that is down and that no LINKSET holds. -/
def execLinkTrain (link : Nat) (peer : PeerInfo) (s : State) : HO :=
  let l := linkAt s link
  .next (if link < 32 ∧ l.up = false ∧ l.drain = false then resettle (trainLink s link peer) link else s)

/-! Steering and retraining (R396, R397). -/

/-- Whether a busy hint of a launch with a circuit on a link covers its current step (R363, R396). -/
def busyOn (s : State) (n : Nat) : Bool :=
  (circuitsOn s n).any fun e => match s.launch? e.2.lid with | some l => hintNow l true | none => false

/-- Whether a pair may be steered (R396). -/
def steerable (s : State) (a b : Nat) : Bool :=
  let x := linkAt s a
  let y := linkAt s b
  x.up && y.up && x.pdev == y.pdev && x.plink / 2 == y.plink / 2 && x.plink != y.plink && !x.trains && !y.trains &&
    !x.drain && !y.drain && !busyOn s a && !busyOn s b

/-- The demand rule for a move from b to a (R396). -/
def wantsMove (x y : Link) : Bool := 2 * y.demand + 16 < x.demand && 8 < y.width

/-- One wavelength moves from b to a: it carries nothing until a's retraining of it ends (R396). -/
def moveWave (s : State) (a b : Nat) : State :=
  let s1 := s.setLink b { linkAt s b with width := (linkAt s b).width - 1 }
  s1.setLink a { linkAt s1 a with moving := true }

/-- The interval of a link ends: DEMAND takes the bytes offered in it, in units of 64 KiB, saturating (R392). -/
def endInterval (s : State) (n : Nat) : State :=
  let l := linkAt s n
  s.setLink n { l with demand := min (l.offered / 2 ^ 16) (2 ^ 32 - 1), offered := 0 }

/-- LINK_STEER at the end of a 100 µs interval (R392, R396): DEMAND takes its new value, and the end with the lower
device number decides; the other follows its peer. -/
def execLinkSteer (pair : Nat) (s : State) : HO :=
  if 16 ≤ pair then .next s
  else
    let a := 2 * pair
    let b := 2 * pair + 1
    let s2 := endInterval (endInterval s a) b
    let x := linkAt s2 a
    let y := linkAt s2 b
    if steerable s2 a b then
      if s.m.devno < x.pdev then
        .next (if wantsMove x y then moveWave s2 a b else if wantsMove y x then moveWave s2 b a else s2)
      else
        .next (match Config.peerSteers s.freeCtr pair with
          | some true => if 8 < y.width then moveWave s2 a b else s2
          | some false => if 8 < x.width then moveWave s2 b a else s2
          | none => s2)
    else .next s2

/-- LINK_WAVELENGTH_RETRAIN (R397): a wavelength of the link leaves traffic, or comes back. In a window, which a GAP or an idle
hint opens (R355, R390), any number may be away; a forced retraining, of a wavelength that has gone 1 s without (log 4), takes
one at a time. The wavelength that comes back and was not away is the one that was steered to the link (R396). -/
def execLinkWavelengthRetrain (link wave : Nat) (done : Bool) (s : State) : HO :=
  let l := linkAt s link
  .next (if !l.up then s
    else if done then
      if l.away.contains wave then s.setLink link { l with away := l.away.erase wave, width := min 24 (l.width + 1) }
      else if l.moving then s.setLink link { l with moving := false, width := min 24 (l.width + 1) }
      else s
    else if l.width = 0 ∨ l.away.contains wave then s
    else if portOpen s (link / 2) (6 + link % 2) || !l.trains then
      s.setLink link { l with away := wave :: l.away, width := l.width - 1 }
    else s)

/-! The fabric queue (R400, R401, R411). -/

/-- Bytes of the aperture as a number. -/
def apBytes (m : Store Byte) (a : Nat) : Nat → Nat
  | 0 => 0
  | n + 1 => (lookD m a 0).toNat + 256 * apBytes m (a + 1) n

/-- Bytes of the aperture written. -/
def apWrite (m : Store Byte) (a : Nat) : Nat → Nat → Store Byte
  | 0, _ => m
  | n + 1, v => apWrite (putD m a (BitVec.ofNat 8 v) 0) (a + 1) n (v / 256)

/-- The slot of LINKSET number n (Table 126). -/
def fqSlot (n : Nat) : Nat := 0x4000 + 64 * (n % 64)

/-- A range of the owner area, 64-byte aligned. -/
def inArea (a n : Nat) : Bool := a % 64 == 0 && 0x8000 ≤ a && a + n ≤ 0x10000

/-- The links of a mask. -/
def linksOf (mask : BitVec 32) : List Nat := (List.range 32).filter fun n => mask.getLsbD n

/-- A well-formed LINKSET card (Table 118). -/
def linksetOk (v : Nat) : Bool :=
  let w (k : Nat) := bitsOf v (64 * k) 64
  w 0 % 2 ^ 32 == 0x30 && w 1 / 2 ^ 32 == 0 && w 1 != 0 && w 2 / 2 ^ 32 == 0 && w 3 == 0 && w 4 == 0 && w 5 == 0 &&
    w 6 == 0 && w 7 / 2 ^ 32 == 0 && inArea (w 2) 128 && inArea (w 7) 64

/-- The link map: a set reserved bit in an entry of a link of LMASK makes the card malformed. -/
def mapOk (area : Store Byte) (a : Nat) (mask : BitVec 32) : Bool :=
  (linksOf mask).all fun n => apBytes area (a + 4 * n) 4 / 2 ^ 14 == 0

/-- The peers a map names. -/
def mapPeers (area : Store Byte) (a : Nat) : List (Option (Nat × Nat)) :=
  (List.range 32).map fun n =>
    let v := apBytes area (a + 4 * n) 4
    if bitsOf v 13 1 = 1 then none else some (bitsOf v 0 8, bitsOf v 8 5)

/-- A LINKSET completes: its record where it has a place, and FQDONE (R401, R411). -/
def linksetDone (s : State) (seq status crec w1 w2 : Nat) : State :=
  let rec' := seq + status * 2 ^ 32 + 0x30 * 2 ^ 40 + w1 * 2 ^ 64 + w2 * 2 ^ 128
  { s with
    m := { s.m with
      area := if inArea crec 64 then apWrite s.m.area crec 64 rec' else s.m.area
      fqdone := BitVec.ofNat 32 seq
      fqstatus := status
      lset := none } }

/-- Stop on one circuit of a held link: no new traffic; a recovery is abandoned, no traffic passes any more, and what is
outstanding is settled as on a LOST circuit (R379, R401, R402). -/
def stopCircuit (s : State) (e : Nat × Circuit) : State :=
  match e.2.state with
  | .live | .settling => s.setCircuit e.1 { e.2 with state := .draining, settled := false }
  | .recovering => settleCircuit (s.setCircuit e.1 { e.2 with
      state := .draining, settled := false, tearPend := false, recovery := none, cut := true }) e.1
  | _ => s

/-- Stop (R401). -/
def stopLink (s : State) (n : Nat) : State :=
  (circuitsOn s n).foldl stopCircuit (s.setLink n { linkAt s n with drain := true })

/-- The next card of the queue starts (R400, R401, R411). -/
def linksetStart (s : State) : State :=
  let seq := (s.m.fqdone.toNat + 1) % 2 ^ 32
  let fq := apWrite s.m.fq (fqSlot seq + 4) 4 seq
  let v := apBytes fq (fqSlot seq) 64
  let s1 := { s with m := { s.m with fq := fq } }
  let mask : BitVec 32 := BitVec.ofNat 32 (bitsOf v 64 32)
  let a := bitsOf v 128 32
  let crec := bitsOf v 448 32
  if linksetOk v && mapOk s.m.area a mask then
    let s2 := (linksOf mask).foldl stopLink s1
    { s2 with
      m := { s2.m with
        lset := some { seq := seq, lmask := mask, map := mapPeers s.m.area a, crec := crec } } }
  else linksetDone s1 seq 2 crec 0 0

/-- What a link finds when it retrains. -/
def peerSeen? (peers : List (Nat × PeerInfo)) (n : Nat) : Option PeerInfo :=
  (peers.find? fun e => e.1 == n).map (·.2)

/-- Whether the peer that a link finds is the one its map names (R401). -/
def peerMatches (want : Option (Nat × Nat)) (got : Option PeerInfo) : Bool :=
  match want, got with
  | none, none => true
  | some (d, l), some p => p.dev.toNat == d && p.link.toNat == l
  | _, _ => false

/-- Close (R401): the circuits of the links become IDLE, and their streams are closed. -/
def closeLinks (s : State) (ls : List Nat) : State :=
  ls.foldl (fun s n => (circuitsOn s n).foldl (fun s e => idleCircuit s e.1) s) s

/-- Retrain of one link (R401): it trains where its map names the peer that it finds, and stays down otherwise. -/
def retrainLink (r : LinksetRun) (peers : List (Nat × PeerInfo)) (s : State) (n : Nat) : State :=
  let l := linkAt s n
  match peerSeen? peers n with
  | some p =>
    if peerMatches (r.map.getD n none) (some p) then
      let t := trainLink s n p
      t.setLink n { linkAt t n with pdev := l.pdev, plink := l.plink }
    else s
  | none => s

/-- Resume of one link (R401): DRAIN clears, and PDEV and PLINK take their new values. -/
def resumeLink (r : LinksetRun) (s : State) (n : Nat) : State :=
  s.setLink n { linkAt s n with
    drain := false
    pdev := match r.map.getD n none with | some (d, _) => d | none => 0
    plink := match r.map.getD n none with | some (_, l) => l | none => 0 }

/-- A phase of a LINKSET begins. -/
def inPhase (s : State) (r : LinksetRun) (p : LinksetPhase) : State := { s with m := { s.m with lset := some { r with phase := p } } }

/-- Resume, and the completion record (R401). -/
def linksetResume (s : State) (r : LinksetRun) : State :=
  let ls := linksOf r.lmask
  let t := ls.foldl (resumeLink r) s
  let up := ((ls.filter fun n => (linkAt t n).up).map fun n => 2 ^ n).sum
  linksetDone t r.seq (if ls.all fun n => (linkAt t n).up then 0 else 1) r.crec (up + r.bad * 2 ^ 32) r.torn

/-- The links of a LINKSET whose peer does not match its map, as a mask (R401). -/
def badPeers (r : LinksetRun) (peers : List (Nat × PeerInfo)) : Nat :=
  (((linksOf r.lmask).filter fun n => !peerMatches (r.map.getD n none) (peerSeen? peers n)).map fun n => 2 ^ n).sum

/-- Whether the drain of the held links has ended (R401). -/
def linksetDrained (s : State) (r : LinksetRun) : Bool :=
  (linksOf r.lmask).all fun n => (circuitsOn s n).all fun e =>
    (cardsOn s e.2.lid e.1).isEmpty && !requestsOn s e.1

/-- LINKSET (R400 to R402): the next card starts with Stop; while it drains nothing moves; then each phase in its order, Close,
Re-map, which clears UP, Retrain with the peers that the links find, and Resume. -/
def execLinkset (peers : List (Nat × PeerInfo)) (s : State) : HO :=
  match s.m.lset with
  | some r =>
    let ls := linksOf r.lmask
    .next (match r.phase with
      | .drain => if linksetDrained s r then inPhase (closeLinks s ls) r .closed else s
      | .closed => inPhase (ls.foldl unlinked s) r .mapped
      | .mapped => inPhase (ls.foldl (retrainLink r peers) s) { r with bad := badPeers r peers } .trained
      | .trained => linksetResume s r)
  | none => .next (if s.m.fqdone = s.m.fqtail then s else linksetStart s)

/-! A link that fails, and the partner circuit (R391, R402). -/

/-- LINK_DOWN (R401, R402): UP clears. While a LINKSET holds the link, the management-port agents settle what is outstanding on
its circuits, and the cards wait for the bound; otherwise its circuits report LOCK. Link L counts as port 6 + (L mod 2) of die
L / 2 (R390). -/
def execLinkDown (link : Nat) (s : State) : HO :=
  let l := linkAt s link
  if l.up then
    let s1 := unlinked s link
    .next ((circuitsOn s1 link).foldl (fun s e =>
      if l.drain then settleCircuit s e.1 else opticalFault s e.1 (link / 2) (6 + link % 2) 0 .lock) s1)
  else .next s

/-- PARTNER_CIRCUIT_CHANGE (R391): the peer of a link that is UP reports the circuit at a position. -/
def execPartnerCircuitChange (link : BitVec 5) (pos settled : Bool) (groups : BitVec 8) (die : BitVec 4) (s : State) :
    HO :=
  let k := 2 * link.toNat + (if pos then 1 else 0)
  .next (if (linkAt s link.toNat).up then
      resettle { s with partners := put s.partners k ⟨settled, groups, die.toNat⟩ } link.toNat
    else s)

end Sys2Proof.Machine
end

