-- ==== Sys2Proof/Machine/Zb.lean ====
section
/-!
DEFINITION. ZB encodings of one line (spec/13 R309).
-/
namespace Sys2Proof.Machine

/-- The most elements of width w that an encoding holds (R309). -/
def zbMax (w : Nat) : Nat := (4096 - 4096 / w) / w

/-- The bitmap of the first `k` nonzero elements, in index order. -/
def zbBitmap : Nat → List Nat → Nat
  | _, [] => 0
  | k, x :: r =>
    if x = 0 then 2 * zbBitmap k r
    else match k with
      | 0 => 2 * zbBitmap 0 r
      | k' + 1 => 1 + 2 * zbBitmap k' r

/-- The encoding of a line at width w, and whether it dropped elements (R309). -/
def zbEncode (w : Nat) (l : Line) : Line × Bool :=
  let xs := lineEls l w
  let nz := xs.filter (· != 0)
  let k := zbMax w
  (BitVec.ofNat 4096 (zbBitmap k xs + packEls w (nz.take k) * 2 ^ (4096 / w)), decide (k < nz.length))

/-- The elements an encoding gives, from element `i` on with `r` set bits before it (R309). -/
def zbPlace (w enc : Nat) : Nat → Nat → Nat → List Nat
  | 0, _, _ => []
  | fuel + 1, i, r =>
    if enc / 2 ^ i % 2 = 1 then
      (if r < zbMax w then enc / 2 ^ (4096 / w + w * r) % 2 ^ w else 0) :: zbPlace w enc fuel (i + 1) (r + 1)
    else 0 :: zbPlace w enc fuel (i + 1) r

/-- The line an encoding gives at width w (R309). -/
def zbDecode (w : Nat) (l : Line) : Line := lineOfEls w (zbPlace w l.toNat (4096 / w) 0 0)

end Sys2Proof.Machine
end

