-- ==== Sys2Proof/Machine/Tensor.lean ====
section
/-!
DEFINITION. Tensors in memory: entries, element addresses, compressed pages and runs of elements (spec/05 R119, R121;
spec/06 R154; spec/11 R251 to R253).
-/
namespace Sys2Proof.Machine

/-- A tensor identifier entry, unpacked (Table 33). -/
structure TEnt where
  v : Bool
  bfmt : Nat
  etype : Nat
  hen : Bool
  den : Bool
  rank : Nat
  base : Nat
  dim0 : Nat
  dim1 : Nat
  dim2 : Nat
  dim3 : Nat
  str1 : Nat
  str2 : Nat
  str3 : Nat
  seed : Nat
  dmap : Nat
deriving DecidableEq, Repr

/-- Entry x of a context (Table 33); the extents beyond RANK count as 1 (R251). -/
def Context.tent (c : Context) (x : Nat) : TEnt :=
  let w (k : Nat) : Nat := c.tensWord x k
  let rank := w 0 / 2 ^ 11 % 8
  { v := w 0 % 2 == 1
    bfmt := w 0 / 2 % 16
    etype := w 0 / 32 % 16
    hen := w 0 / 2 ^ 9 % 2 == 1
    den := w 0 / 2 ^ 10 % 2 == 1
    rank := rank
    base := w 1 % 2 ^ 56
    dim0 := w 2 % 2 ^ 32
    dim1 := if rank < 2 then 1 else w 2 / 2 ^ 32
    dim2 := if rank < 3 then 1 else w 3 % 2 ^ 32
    dim3 := if rank < 4 then 1 else w 3 / 2 ^ 32
    str1 := w 4 % 2 ^ 32
    str2 := w 4 / 2 ^ 32
    str3 := w 5 % 2 ^ 32
    seed := w 6
    dmap := w 7 % 2 ^ 56 }

/-- Coordinates as s[S] gives them (R154). -/
structure TCoord where
  k : Nat
  r : Nat
  i2 : Nat
  i3 : Nat
deriving DecidableEq, Repr

def coordOf (s : Word) : TCoord :=
  let n := s.toNat
  ⟨n % 2 ^ 24, n / 2 ^ 24 % 2 ^ 24, n / 2 ^ 48 % 256, n / 2 ^ 56⟩

/-- The address of a row of the tensor, modulo 2^56 (R251). -/
def TEnt.rowAddr (e : TEnt) (r i2 i3 : Nat) : Nat :=
  (e.base + r * e.str1 + i2 * e.str2 + i3 * e.str3) % 2 ^ 56

/-- Whether a row lies inside the tensor. -/
def TEnt.rowIn (e : TEnt) (r i2 i3 : Nat) : Bool := r < e.dim1 && i2 < e.dim2 && i3 < e.dim3

/-- The element width used on memory: the ETYPE's, or bytes for a block format. -/
def TEnt.width (e : TEnt) : Nat := if e.bfmt = 0 then (ElemType.ofCode e.etype).width else 8

/-- An entry usable in memory (R121, R154, R252). -/
def TEnt.usable (e : TEnt) : Bool :=
  e.v && e.bfmt ≤ 9 && (e.bfmt == 0 || e.etype == 0) && ((e.bfmt == 0 && !e.hen) || e.dim0 % 32 == 0)

/-- A nonzero I2 or I3 beyond RANK raises ILLOP (R154, R252). An entry of RANK 5 to 7, which Table 33 does not give, counts
as one of four dimensions whose I3 must be zero: a DESIGN CHOICE (log 32). -/
def TEnt.coordOk (e : TEnt) (k : TCoord) : Bool :=
  (k.i2 == 0 || 3 ≤ e.rank) && (k.i3 == 0 || e.rank == 4)

/-- A nonzero row index beyond RANK raises ILLOP in VLDT and VSTT (R251, R252); OLOAD tests I2 and I3 alone (R154). -/
def TEnt.rowOk (e : TEnt) (k : TCoord) : Bool := k.r == 0 || 2 ≤ e.rank

/-- A translation moved to another address of its page. -/
def Trans.atVa (t : Trans) (a : Nat) : Trans := { t with va := a, pa := t.pa + a - t.va }

/-- On a compressed page an access moves whole 512-byte positions (R253). -/
def cmpWiden (p : Part) : Part :=
  if p.t.cmp then
    let a := p.t.va / 512 * 512
    ⟨p.t.atVa a, ((p.t.va % 512 + p.len + 511) / 512) * 512⟩
  else p

/-- Decode or encode the positions of a widened compressed access, lowest first. -/
def zbBlocks (f : Line → Line) : Nat → Nat → Nat
  | 0, _ => 0
  | n + 1, v => (f (BitVec.ofNat 4096 v)).toNat + zbBlocks f n (v / 2 ^ 4096) * 2 ^ 4096

/-- The tensor bytes of one part: decoded at width w on a compressed page (R253). -/
def tensorPart (m : Memory) (w : Nat) (p : Part) : Nat :=
  if p.t.cmp then
    let q := cmpWiden p
    zbBlocks (zbDecode w) (q.len / 512) (readPart m q.t 0 q.len) / 2 ^ (8 * (p.t.va % 512)) % 2 ^ (8 * p.len)
  else readPart m p.t 0 p.len

/-- The tensor bytes of an access as one number. -/
def tensorVal (m : Memory) (w : Nat) : List Part → Nat
  | [] => 0
  | p :: r => tensorPart m w p + tensorVal m w r * 2 ^ (8 * p.len)

/-- AccessCheck of a tensor read; a block format on a compressed page raises ILLOP (R243, R252, R253). -/
def tensorAccess (s : State) (w : Who) (e : TEnt) (align va len : Nat) : Res (List Part) := do
  let ps ← accessCheck s w .read (fun _ => true) align (va % 2 ^ 56) len
  check (e.bfmt == 0 || !(ps.any fun p => p.t.cmp)) .illop
  .ok ps

/-- GUARD and ECCU over what a tensor read reads (R253, R312, R324). -/
def tensorSound (s : State) (ver : Nat) (ps : List Part) : Res Unit := do
  guardCheck s ver (ps.map cmpWiden)
  readEcc s (ps.map cmpWiden)

/-- The checks of a tensor read. -/
def tensorRead (s : State) (w : Who) (ver : Nat) (e : TEnt) (align va len : Nat) : Res (List Part) := do
  let ps ← tensorAccess s w e align va len
  tensorSound s ver ps
  .ok ps

/-- Whether an encoder of the position at `v` drops elements. -/
def zbDrops (w : Nat) : Nat → Nat → Bool
  | 0, _ => false
  | n + 1, v => (zbEncode w (BitVec.ofNat 4096 v)).2 || zbDrops w n (v / 2 ^ 4096)

/-- Write the tensor bytes of one part, encoding at width w on a compressed page; also whether elements were dropped
(R253, R309). A position written in part keeps its other elements (log 18). -/
def writeTensorPart (s : State) (w : Nat) (p : Part) (v : Nat) : State × Bool :=
  if p.t.cmp then
    let q := cmpWiden p
    let old := zbBlocks (zbDecode w) (q.len / 512) (readPart s.mem q.t 0 q.len)
    let sh := 8 * (p.t.va % 512)
    let low := old % 2 ^ sh
    let high := old / 2 ^ (sh + 8 * p.len)
    let new := low + (v % 2 ^ (8 * p.len)) * 2 ^ sh + high * 2 ^ (sh + 8 * p.len)
    (s.store [q] (zbBlocks (fun l => (zbEncode w l).1) (q.len / 512) new), zbDrops w (q.len / 512) new)
  else (s.store [p] v, false)

/-- Write the tensor bytes of an access. -/
def writeTensor (s : State) (w : Nat) : List Part → Nat → State × Bool
  | [], _ => (s, false)
  | p :: r, v =>
    let (s1, d1) := writeTensorPart s w p v
    let (s2, d2) := writeTensor s1 w r (v / 2 ^ (8 * p.len))
    (s2, d1 || d2)

/-- AccessCheck of a tensor write (R237, R243, R253). -/
def tensorPlace (s : State) (w : Who) (e : TEnt) (align va len : Nat) : Res (List Part) := do
  let a := va % 2 ^ 56
  let ps ← accessCheck s w .write (fun t => !t.ws && (!t.grd || (a % 512 == 0 && len == 512))) align a len
  check (e.bfmt == 0 || !(ps.any fun p => p.t.cmp)) .illop
  .ok ps

/-- ECCU of a tensor write that covers an uncorrectable sector in part (R325). -/
def tensorWhole (s : State) (ps : List Part) : Res Unit :=
  if s.bad.isEmpty then .ok () else writeEcc s (ps.map cmpWiden)

/-- The checks of a tensor write. -/
def tensorWrite (s : State) (w : Who) (e : TEnt) (align va len : Nat) : Res (List Part) := do
  let ps ← tensorPlace s w e align va len
  tensorWhole s ps
  .ok ps

/-- The bytes that hold elements `k` to `k + n − 1` of width w of a row: first byte and count (R251, R15). -/
def runBytes (w k n : Nat) : Nat × Nat := (k * w / 8, (k + n) * w / 8 + (if (k + n) * w % 8 = 0 then 0 else 1) - k * w / 8)

/-- The elements `k` to `k + n − 1` of a run's bytes. -/
def runEls (w k n v : Nat) : List Nat :=
  (List.range n).map fun j => v / 2 ^ ((k + j) * w - 8 * (k * w / 8)) % 2 ^ w

/-- The alignment of an element (R252). -/
def elemAlign (w : Nat) : Nat := if w ≤ 8 then 1 else w / 8

/-- Block `b` of a row in a block format: the addresses of its elements and of its metadata (R132, R251). -/
def blockAddrs (bf : BFmt) (row b : Nat) : Nat × Nat :=
  let seg := row + 512 * (b / 8)
  (seg + b % 8 * bf.elemBytes, seg + 8 * bf.elemBytes + b % 8 * bf.metaBytes)

/-- The ZeroBlock of a format: element field and metadata (R50). -/
def BFmt.zeroBlock (f : BFmt) : Nat × Nat :=
  let q := f.constBlock 0 f.zero 0
  (q.els, q.hdr)

/-- A segment line from eight blocks (R132). -/
def segmentOf (bf : BFmt) (bs : List (Nat × Nat)) : Line :=
  BitVec.ofNat 4096 (packEls (8 * bf.elemBytes) (bs.map (·.1)) +
    packEls (8 * bf.metaBytes) (bs.map (·.2)) * 2 ^ (8 * bf.elemBytes * bs.length))

end Sys2Proof.Machine
end

