-- ==== Sys2Proof/Machine/Mem.lean ====
section
/-!
DEFINITION. The MEM line moves: VLD, VST, VLDT, VSTT, VGATH, VSCAT, WLD, WST, PREF and SWFENCE (spec/11 R237, R247 to
R256). Each nestable operation's issue takes the strides' offsets (spec/03 R67).
-/
namespace Sys2Proof.Machine

/-- What an MV address names: memory, or an offset in a teammate's window (R248). -/
inductive MvTarget where
  | mem (a : Nat)
  | peer (t : Nat)
deriving DecidableEq, Repr

/-- The two flags of M (R247). -/
def mvHs (o : MV) : Bool := o.m.getLsbD 2
def mvPeer (o : MV) : Bool := o.m.getLsbD 3

/-- The address of a shared handle's slot (R248). -/
def sharedAddr (c : Context) (e : Engine) (pos : Nat) (store : Bool) (o : MV) : Res Nat := do
  let h := o.base.toNat % 32
  match c.handle? h with
  | none => raise .hndl
  | some d =>
    check d.shared .hndl
    let j := c.seen e (if store then .tail h else .head h)
    let off := o.off.toInt
    check (0 ≤ off && off ≤ (d.size : Int) * 512 - 512) .hndl
    .ok (d.region + dieOf pos * d.count * d.size * 512 + j * d.size * 512 + off.toNat)

/-- Where an MV instruction goes, with the nest's A offset of 512 bytes each (R67, R248). -/
def mvTarget (c : Context) (e : Engine) (pos : Nat) (store : Bool) (o : MV) (offA : Int) : Res MvTarget := do
  if mvHs o then
    let a ← sharedAddr c e pos store o
    .ok (.mem (((a : Int) + 512 * offA) % (2 ^ 64 : Int)).toNat)
  else
    let a := (c.rdS e o.base + o.off.signExtend 64 + BitVec.ofInt 64 (512 * offA)).toNat
    .ok (if mvPeer o then .peer a else .mem a)

/-- Whether the plates that 512 bytes of a pre-empted teammate's window lie in are still on its core (R248, R330). -/
def platesStay (s : State) (lid wid off : Nat) : Bool :=
  match s.saved.find? fun e => e.2.ctx.bind.lid == lid && e.2.ctx.bind.wid == wid with
  | none => false
  | some e => [off / 32768, (off + 511) / 32768].all fun n =>
      (s.core (coreOf e.2.pos)).units.contains ⟨.plate n, lid, wid⟩

/-- The WID of the teammate whose window an address names (R248): PROT for an index or offset out of range, or a teammate
that has ended; a wait for plates that are not resident. -/
def peerWid (s : State) (c : Context) (t : Nat) : Res Nat := do
  check (t / 2 ^ 20 < c.bind.tsize && t % 2 ^ 20 + 512 ≤ 32768 * c.bind.window) .prot t
  match s.launch? c.bind.lid with
  | none => raise .prot t
  | some l =>
    let mate (wid : Nat) : Bool := sameGroup l.hdr l.tl wid c.bind.wid && groupIndex l.hdr l.pext wid l.tl == t / 2 ^ 20
    check (!(l.endedTasks.any fun x => mate x.wid)) .prot t
    match s.ctxs.find? fun x => x.2.bind.lid == c.bind.lid && mate x.2.bind.wid with
    | some x => .ok x.2.bind.wid
    | none =>
      match s.saved.find? fun x => x.2.ctx.bind.lid == c.bind.lid && mate x.2.ctx.bind.wid with
      | some x => do
        await (platesStay s c.bind.lid x.2.ctx.bind.wid (t % 2 ^ 20))
        .ok x.2.ctx.bind.wid
      | none => hold

/-- 512 bytes at a byte offset of a window. -/
def windowRead (c : Context) (off : Nat) : Line :=
  let n := off / 512
  let v := (c.rdL n).toNat + (if off % 512 = 0 then 0 else (c.rdL (n + 1)).toNat * 2 ^ 4096)
  BitVec.ofNat 4096 (v / 2 ^ (8 * (off % 512)))

/-- 512 bytes written at a byte offset of a window. -/
def windowWrite (c : Context) (off : Nat) (l : Line) : Context :=
  let n := off / 512
  let b := 8 * (off % 512)
  if b = 0 then c.wrL n l
  else
    let lo := (c.rdL n).toNat % 2 ^ b
    let hi := (c.rdL (n + 1)).toNat / 2 ^ b
    (c.wrL n (BitVec.ofNat 4096 (lo + l.toNat * 2 ^ b))).wrL (n + 1)
      (BitVec.ofNat 4096 (l.toNat / 2 ^ (4096 - b) + hi * 2 ^ b))

/-- ECCU for 512 bytes of a window whose lines are uncorrectable, to the reader and not the owner (R324), and to a writer of part of
them (R325). -/
def windowEcc (s : State) (c : Context) (t : Nat) : Res Unit :=
  if c.own.contains (.line (t % 2 ^ 20 / 512)) || c.own.contains (.line ((t % 2 ^ 20 + 511) / 512)) then
    raiseEcc t (coreRes ((taskPos? s c.bind.lid c.bind.wid).getD s.cur))
  else .ok ()

/-- What an issue leaves: the machine without the context's own change, and the context. -/
abbrev Eff := Res (State × Context)

/-- VLD and WLD (R248 to R250): `ok` tells the pages it may read. -/
def loadIssue (ok : Trans → Bool) (o : MV) (f : Offs) (s : State) (e : Engine) (c : Context) : Eff := do
  let d ← c.vdst e o.l f.d
  let n ← c.inWin 1 d
  match ← mvTarget c e s.cur false o f.a with
  | .mem a =>
    check (a % 64 == 0) .align (a % 2 ^ 56)
    let (v, ps) ← readMem s (c.who s.cur) c.r.gver ok 1 (a % 2 ^ 56) 512
    .ok (s.noteParts (c.who s.cur) ps, c.wrL n (BitVec.ofNat 4096 v))
  | .peer t =>
    check (t % 64 == 0) .align t
    let p ← peerWid s c t
    let src := if p = c.bind.wid then c else (taskCtx? s c.bind.lid p).getD c
    windowEcc s src t
    .ok (s, c.wrL n (windowRead src (t % 2 ^ 20)))

/-- The weight store of every page part is open to the launch (R237, R243). -/
def storeOpen (s : State) (w : Who) (a : Nat) : Res Unit := do
  let ps ← accessCheck s w .write (fun t => t.ws && (!t.grd || a % 512 == 0)) 1 a 512
  check (ps.all fun p => (find? s.wsOpen (w.lid * 16 + p.t.home)).isSome) .wstore a

/-- VST and WST (R248 to R250, R253). -/
def storeIssue (ws : Bool) (o : MV) (f : Offs) (s : State) (e : Engine) (c : Context) : Eff := do
  let d ← c.vsrc e o.l f.d
  c.opdIn 1 d
  let l := c.rdL (d.lineOr 0)
  match ← mvTarget c e s.cur true o f.a with
  | .mem a =>
    check (a % 64 == 0) .align (a % 2 ^ 56)
    let va := a % 2 ^ 56
    if ws then storeOpen s (c.who s.cur) va else .ok ()
    let s1 ← writeMem s (c.who s.cur) c.r.gver
      (fun t => t.ws == ws && (!t.grd || va % 512 == 0)) 1 va 512 l.toNat
    .ok (s1, c)
  | .peer t =>
    check (t % 64 == 0) .align t
    let p ← peerWid s c t
    if t % 512 = 0 then .ok () else windowEcc s (if p = c.bind.wid then c else (taskCtx? s c.bind.lid p).getD c) t
    if p = c.bind.wid then .ok (s, windowWrite c (t % 2 ^ 20) l)
    else
      let o := t % 2 ^ 20
      .ok (updTask s c.bind.lid p fun x => x.outside [o / 512, (o + 511) / 512] (windowWrite x o l), c)

/-- One issue of an MV operation. PREF changes no architectural state (R255). -/
def mvIssue (op : MvOp) (o : MV) (f : Offs) (s : State) (e : Engine) (c : Context) : Eff := do
  check (o.wf op) .illop
  match op with
  | .vld => loadIssue (fun t => !t.ws) o f s e c
  | .wld => loadIssue Trans.ws o f s e c
  | .vst => storeIssue false o f s e c
  | .wst => storeIssue true o f s e c
  | .pref => .ok (s, c)

/-- The part of a line's elements that lies inside a plain tensor: first stored position and count (R252). -/
def insideRun (t : TEnt) (k : TCoord) (i0 : Int) (n : Nat) : Nat × Nat :=
  let lo := (max i0 0).toNat
  let hi := min t.dim0 (i0 + n).toNat
  if t.rowIn k.r k.i2 k.i3 && lo < hi then (lo, hi - lo) else (lo, 0)

/-- The number of blocks of a segment that are part of the tensor (R251, R252). -/
def insideBlocks (t : TEnt) (k : TCoord) (i0 : Int) : Nat :=
  if t.rowIn k.r k.i2 k.i3 && 0 ≤ i0 then min 8 ((t.dim0 - i0.toNat + 31) / 32) else 0

/-- The reader of a context's tensor access: row address, and the alignment of its units. -/
def rowOf (t : TEnt) (k : TCoord) : Nat := t.rowAddr k.r k.i2 k.i3

/-- VLDT's line (R252, R253): a segment moves as stored, with the bytes beyond its metadata. -/
def vldtLine (s : State) (c : Context) (t : TEnt) (k : TCoord) (i0 : Int) : Res (Line × List Part) :=
  let w := t.width
  let who := c.who s.cur
  match BFmt.ofCode t.bfmt with
  | none =>
    let (lo, n) := insideRun t k i0 (4096 / w)
    if n = 0 then .ok (0, [])
    else do
      let (b, len) := runBytes w lo n
      let ps ← tensorRead s who c.r.gver t (elemAlign w) (rowOf t k + b) len
      let v := tensorVal s.mem w ps
      .ok (BitVec.ofNat 4096 (packEls w (runEls w lo n v) * 2 ^ (w * ((lo : Int) - i0).toNat)), ps)
  | some bf =>
    let nb := insideBlocks t k i0
    let zeros := List.replicate (8 - nb) bf.zeroBlock
    if nb = 0 then .ok (segmentOf bf zeros, [])
    else do
      let seg := rowOf t k + 512 * (i0.toNat / 256)
      check (seg % 64 == 0) .align (seg % 2 ^ 56)
      let ps ← tensorAccess s who t 1 seg (nb * bf.elemBytes)
      let qs ← tensorAccess s who t 1 (seg + 8 * bf.elemBytes) (nb * bf.metaBytes)
      let held := 8 * bf.elemBytes + 8 * bf.metaBytes
      let rs ← tensorAccess s who t 1 (seg + held) (512 - held)
      tensorSound s c.r.gver (ps ++ qs ++ rs)
      let ev := tensorVal s.mem w ps
      let mv := tensorVal s.mem w qs
      let bs := (List.range nb).map fun j =>
        (ev / 2 ^ (8 * bf.elemBytes * j) % 2 ^ (8 * bf.elemBytes),
         mv / 2 ^ (8 * bf.metaBytes * j) % 2 ^ (8 * bf.metaBytes))
      .ok (segmentOf bf (bs ++ zeros) ||| (BitVec.ofNat 4096 (tensorVal s.mem w rs) <<< (8 * held)), ps ++ qs ++ rs)

/-- Write a run of tensor bytes and its tags; NX when a compressed position drops elements (R253, R309). -/
def putTensor (s : State) (c : Context) (w : Nat) (ps : List Part) (v : Nat) : State × Flags :=
  let (s1, d) := writeTensor s w ps v
  (writeTags (s1.noteParts (c.who s.cur) ps) c.r.gver ps, if d then fNX else 0)

/-- VSTT (R252, R253). -/
def vsttLine (s : State) (c : Context) (t : TEnt) (k : TCoord) (i0 : Int) (l : Line) : Res (State × Flags) :=
  let w := t.width
  let who := c.who s.cur
  match BFmt.ofCode t.bfmt with
  | none =>
    let (lo, n) := insideRun t k i0 (4096 / w)
    if n = 0 then .ok (s, 0)
    else do
      let (b, len) := runBytes w lo n
      let ps ← tensorWrite s who t (elemAlign w) (rowOf t k + b) len
      let old := tensorVal s.mem w ps
      let sh := lo * w - 8 * b
      let v := l.toNat / 2 ^ (w * ((lo : Int) - i0).toNat) % 2 ^ (w * n)
      .ok (putTensor s c w ps (old % 2 ^ sh + v * 2 ^ sh + old / 2 ^ (sh + w * n) * 2 ^ (sh + w * n)))
  | some bf =>
    let nb := insideBlocks t k i0
    if nb = 0 then .ok (s, 0)
    else do
      let seg := rowOf t k + 512 * (i0.toNat / 256)
      check (seg % 64 == 0) .align (seg % 2 ^ 56)
      let ps ← tensorPlace s who t 1 seg (nb * bf.elemBytes)
      let qs ← tensorPlace s who t 1 (seg + 8 * bf.elemBytes) (nb * bf.metaBytes)
      tensorWhole s (ps ++ qs)
      let (s1, _) := putTensor s c w ps (l.toNat % 2 ^ (8 * nb * bf.elemBytes))
      .ok (putTensor s1 c w qs (l.toNat / 2 ^ (64 * bf.elemBytes) % 2 ^ (8 * nb * bf.metaBytes)))

/-- One issue of VLDT or VSTT: a nest's A offset moves i0 by whole lines (R252). -/
def mxIssue (store : Bool) (o : MX) (f : Offs) (s : State) (e : Engine) (c : Context) : Eff := do
  check o.wf .illop
  let t := c.tent o.x.toNat
  let k := coordOf (c.rdS e o.s)
  let step : Int := if t.bfmt = 0 then 4096 / t.width else 256
  let i0 : Int := k.k + step * f.a
  check (t.usable && t.coordOk k && t.rowOk k && (t.bfmt == 0 || i0 % 256 == 0)) .illop
  if store then
    let d ← c.vsrc e o.l f.d
    c.opdIn 1 d
    let (s1, fl) ← vsttLine s c t k i0 (c.rdL (d.lineOr 0))
    .ok (s1, c.addFlags fl)
  else
    let d ← c.vdst e o.l f.d
    let n ← c.inWin 1 d
    let (l, ps) ← vldtLine s c t k i0
    .ok (s.noteParts (c.who s.cur) ps, c.wrL n l)

/-- The address of element i of a gather or scatter (R254). -/
def gatherAddr (base : Word) (byte : Bool) (w code : Nat) : Nat :=
  (base + BitVec.ofInt 64 (intOf true w code * (if byte then 1 else (w / 8 : Nat)))).toNat

/-- Pages a gather or scatter may touch (R254). -/
def gatherPage (store : Bool) (t : Trans) : Bool := !t.ws && !t.cmp && !(store && t.grd)

/-- The parts of every enabled element, ascending (R254). -/
def gatherParts (s : State) (w : Who) (store : Bool) (n : Nat) : List (Nat × Nat) → Res (List (Nat × List Part))
  | [] => .ok []
  | (i, a) :: r => do
    check (a % n == 0) .align (a % 2 ^ 56)
    let ps ← accessCheck s w (if store then .write else .read) (gatherPage store) 1 (a % 2 ^ 56) n
    let rest ← gatherParts s w store n r
    .ok ((i, ps) :: rest)

/-- Element values read, after GUARD and ECCU of each. -/
def gatherRead (s : State) (ver : Nat) : List (Nat × List Part) → Res (Store Nat)
  | [] => .ok []
  | (i, ps) :: r => do
    guardCheck s ver ps
    readEcc s ps
    let rest ← gatherRead s ver r
    .ok (put rest i (readParts s.mem ps))

/-- ECCU of every element's write (R325). -/
def scatterEcc (s : State) : List (Nat × List Part) → Res Unit
  | [] => .ok ()
  | x :: r => do
    if s.bad.isEmpty then .ok () else writeEcc s x.2
    scatterEcc s r

/-- Elements written in ascending order. -/
def scatterWrite (l : Line) (w : Nat) : State → List (Nat × List Part) → State
  | s, [] => s
  | s, (i, ps) :: r => scatterWrite l w (s.store ps (lineEl l w i)) r

/-- One issue of VGATH or VSCAT (R254). -/
def mgIssue (store : Bool) (o : MG) (f : Offs) (s : State) (e : Engine) (c : Context) : Eff := do
  check o.wf .illop
  let d ← if store then c.vsrc e o.l f.d else (do let n ← c.vdst e o.l f.d; .ok (Opd.at n))
  c.opdIn 1 d
  let ix ← c.vsrc e o.i f.b
  c.opdIn 1 ix
  let w := o.ty.width
  let p := c.rdP e o.pred.toNat
  let n := d.lineOr 0
  let base := c.rdS e o.base + BitVec.ofInt 64 (512 * f.a)
  let is := c.opdEls w 0 ix
  let as := ((List.range o.ty.count).filter fun i => enabled p w i).map fun i =>
    (i, gatherAddr base (o.m.getLsbD 2) w (is.getD i 0))
  let ps ← gatherParts s (c.who s.cur) store (w / 8) as
  let s1 := ps.foldl (fun s x => s.noteParts (c.who s.cur) x.2) s
  if store then
    scatterEcc s ps
    .ok (scatterWrite (c.rdL n) w s1 ps, c)
  else
    let vs ← gatherRead s c.r.gver ps
    let old := lineEls (c.rdL n) w
    .ok (s1, c.wrL n (lineOfEls w ((List.range o.ty.count).map fun i => lookD vs i (old.getD i 0))))

/-- An issue in a slot of its own. -/
def memExec (f : State → Engine → Context → Eff) (s : State) : HO :=
  runS s fun e c => do
    let (s1, c1) ← f s e c
    .ok (s1.setCtx s.cur (c1.advance e))

/-- VLD (R249). -/
def execVld (o : MV) (s : State) : HO := memExec (mvIssue .vld o {}) s

/-- VST (R249). -/
def execVst (o : MV) (s : State) : HO := memExec (mvIssue .vst o {}) s

/-- WLD (R250). -/
def execWld (o : MV) (s : State) : HO := memExec (mvIssue .wld o {}) s

/-- WST (R250). -/
def execWst (o : MV) (s : State) : HO := memExec (mvIssue .wst o {}) s

/-- PREF (R255). -/
def execPref (o : MV) (s : State) : HO := memExec (mvIssue .pref o {}) s

/-- VLDT (R252). -/
def execVldt (o : MX) (s : State) : HO := memExec (mxIssue false o {}) s

/-- VSTT (R252). -/
def execVstt (o : MX) (s : State) : HO := memExec (mxIssue true o {}) s

/-- VGATH (R254). -/
def execVgath (o : MG) (s : State) : HO := memExec (mgIssue false o {}) s

/-- VSCAT (R254). -/
def execVscat (o : MG) (s : State) : HO := memExec (mgIssue true o {}) s

/-- SWFENCE: the context's stores are performed, and the operand cache is emptied (R256). -/
def execSwfence (s : State) : HO :=
  runS s fun e c =>
    let k := s.core (coreOf s.cur)
    .ok ((s.setCore (coreOf s.cur) { k with ocache := [] }).setCtx s.cur (c.advance e))

end Sys2Proof.Machine
end

