-- ==== Sys2Proof/Machine/Syn.lean ====
section
/-!
DEFINITION. Handles, gates and tokens (spec/09 R196 to R200, R207), and the releases they record.
-/
namespace Sys2Proof.Machine

/-- Let a release by engine `e` take effect at once under one program counter, else record it with its place (R28, R198,
R319). -/
def release (pos : Nat) (s : State) (c : Context) (e : Engine) (r : Release) : State × Context :=
  if c.together then applyRelease pos (s, c) r else (s, { c with releases := c.releases ++ [⟨r, (c.pos.get e).idx, c.stamp⟩] })

/-- The head and the tail of a handle that a handler has changed stand for every engine (R319). -/
def Context.purgeEnds (c : Context) (h : Nat) : Context := (c.purgeH (.head h)).purgeH (.tail h)

/-- The descriptor HCFG writes with EN = 1 (Table 53). -/
def hcfgHandle (v : Word) (p q : Engine) : Handle :=
  let n := v.toNat
  { base := bitsOf n 0 11
    size := bitsOf n 11 6 + 1
    count := bitsOf n 17 6 + 1
    peng := p
    ceng := q
    full := if v.getLsbD 23 then slotMask (bitsOf n 17 6 + 1) 0 (bitsOf n 17 6 + 1) else 0 }

/-- Whether a number names a shared handle of the task. -/
def isShared (c : Context) (h : Nat) : Bool :=
  match c.handle? h with
  | some d => d.shared
  | none => false

/-- HCFG (R196). Deferred effects complete first. -/
def execHcfg (o : HcfgOp) (s : State) : HO :=
  runC s fun e c => do
    await c.releases.isEmpty
    let v := c.rdS e o.a
    let n := v.toNat
    let h := o.h.toNat
    check (bitsOf n 31 33 == 0) .illop
    if v.getLsbD 30 then
      match Engine.ofCode (bitsOf n 24 3), Engine.ofCode (bitsOf n 27 3) with
      | some p, some q =>
        let d := hcfgHandle v p q
        check (!isShared c h && d.base + d.count * d.size ≤ 64 * c.bind.window) .hndl
        .ok (({ c with handles := put c.handles h d }.purgeEnds h).advance e)
      | _, _ => raise .illop
    else do
      check (n == 0) .illop
      check (!isShared c h) .hndl
      .ok (({ c with handles := del c.handles h }.purgeEnds h).advance e)

/-- One bits among the low `n` of a slot mask. -/
def countBits (b : BitVec 64) : Nat → Nat
  | 0 => 0
  | n + 1 => (if b.getLsbD n then 1 else 0) + countBits b n

/-- HSTAT's result (Table 54). -/
def hstatWord (s : State) (c : Context) (pos h : Nat) : Word :=
  match c.handle? h with
  | none => 0
  | some d =>
    BitVec.ofNat 64 (d.head + d.tail * 2 ^ 8 + countBits (hBits s c pos h d).full 64 * 2 ^ 16 + 2 ^ 32 +
      (if d.shared then 2 ^ 33 else 0))

/-- HSTAT (R197). -/
def execHstat (o : HstatOp) (s : State) : HO :=
  runC s fun e c => do
    await c.releases.isEmpty
    .ok ((c.wrS o.d (hstatWord s c s.cur o.h.toNat)).advance e)

/-- The handle a gate names, with a count inside it (R198). -/
def gateHandle (c : Context) (o : GateOp) : Res Handle := do
  check (1 ≤ o.n.toNat && o.n.toNat ≤ 64) .illop
  match c.handle? o.h.toNat with
  | none => raise .hndl
  | some d =>
    check (o.n.toNat ≤ d.count) .hndl
    .ok d

/-- WAITF, performed by CENG (R198). -/
def execWaitf (o : GateOp) (s : State) : HO :=
  runC s fun e c => do
    let d ← gateHandle c o
    let k := slotMask d.count d.head o.n.toNat
    await ((hBits s c s.cur o.h.toNat d).full &&& k == k)
    .ok (c.advance e)

/-- WAITE, performed by PENG (R198). -/
def execWaite (o : GateOp) (s : State) : HO :=
  runC s fun e c => do
    let d ← gateHandle c o
    let k := slotMask d.count d.tail o.n.toNat
    await ((hBits s c s.cur o.h.toNat d).full &&& k == 0)
    .ok (c.advance e)

/-- ADVC, performed by CENG: the head moves at once, and the slots empty when released (R198). -/
def execAdvc (o : GateOp) (s : State) : HO :=
  runS s fun e c => do
    let d ← gateHandle c o
    let h := o.h.toNat
    let n := o.n.toNat
    let k := slotMask d.count d.head n
    let b := hBits s c s.cur h d
    check (b.full &&& k == k && (b.fillPend ||| b.clearPend) &&& k == 0) .hndl
    let (s1, c1) := setHBits s c s.cur h d { b with clearPend := b.clearPend ||| k }
    let d1 := (c1.handle? h).getD d
    let c2 := { c1 with handles := put c1.handles h { d1 with head := (d.head + n) % d.count } }.purgeEnds h
    let (s3, c3) := release s.cur s1 c2 e (.drain h n d.head)
    .ok (s3.setCtx s.cur (c3.advance e))

/-- ADVP, performed by PENG: the tail moves at once, and the slots fill when released (R198). -/
def execAdvp (o : GateOp) (s : State) : HO :=
  runS s fun e c => do
    let d ← gateHandle c o
    let h := o.h.toNat
    let n := o.n.toNat
    let k := slotMask d.count d.tail n
    let b := hBits s c s.cur h d
    check (b.full &&& k == 0 && (b.fillPend ||| b.clearPend) &&& k == 0) .hndl
    let (s1, c1) := setHBits s c s.cur h d { b with fillPend := b.fillPend ||| k }
    let d1 := (c1.handle? h).getD d
    let c2 := { c1 with handles := put c1.handles h { d1 with tail := (d.tail + n) % d.count } }.purgeEnds h
    let (s3, c3) := release s.cur s1 c2 e (.fill h n d.tail)
    .ok (s3.setCtx s.cur (c3.advance e))

/-- The key of an ordered pair's token counter (R199). -/
def tokKey (snd rcv : Engine) : Nat := snd.code * 8 + rcv.code

/-- Whether `n` more tokens fit (R199). -/
def tokenRoom (c : Context) (snd rcv : Engine) (n : Nat) : Bool :=
  lookD c.tokens (tokKey snd rcv) 0 + lookD c.tokPend (tokKey snd rcv) 0 + n ≤ 15

/-- Send tokens: pending until the release (R199). -/
def sendTokens (pos : Nat) (s : State) (c : Context) (snd rcv : Engine) (n : Nat) : State × Context :=
  let k := tokKey snd rcv
  release pos s { c with tokPend := putD c.tokPend k (lookD c.tokPend k 0 + n) 0 } snd (.token snd rcv n)

/-- Consume tokens, or wait (R199). -/
def takeTokens (c : Context) (snd rcv : Engine) (n : Nat) : Res Context := do
  let k := tokKey snd rcv
  await (n ≤ lookD c.tokens k 0)
  .ok { c with tokens := putD c.tokens k (lookD c.tokens k 0 - n) 0 }

/-- A pair and a count that R199 allows. -/
def tokOk (o : TokOp) : Bool := o.snd != o.rcv && 1 ≤ o.n.toNat && o.n.toNat ≤ 15

/-- TKSEND, performed by the sending engine (R199). -/
def execTksend (o : TokOp) (s : State) : HO :=
  runS s fun e c => do
    check (tokOk o) .illop
    await (tokenRoom c o.snd o.rcv o.n.toNat)
    let (s1, c1) := sendTokens s.cur s c o.snd o.rcv o.n.toNat
    .ok (s1.setCtx s.cur (c1.advance e))

/-- TKWAIT, performed by the receiving engine (R199). -/
def execTkwait (o : TokOp) (s : State) : HO :=
  runC s fun e c => do
    check (tokOk o) .illop
    let c1 ← takeTokens c o.snd o.rcv o.n.toNat
    .ok (c1.advance e)

/-- The engine whose release it is (R198, R199). -/
def releaseEngine (c : Context) : Release → Engine
  | .fill h _ _ => match c.handle? h with | some d => d.peng | none => .syn
  | .drain h _ _ => match c.handle? h with | some d => d.ceng | none => .syn
  | .token snd _ _ => snd

/-- The first recorded release that a test accepts, if no earlier one is of the same engine, and the others. -/
def pickRelease (c : Context) (p : Release → Bool) : List Engine → List Recorded → Option (Recorded × List Recorded)
  | _, [] => none
  | seen, r :: rest =>
    let e := releaseEngine c r.rel
    if p r.rel && !seen.contains e then some (r, rest)
    else match pickRelease c p (e :: seen) rest with
      | some (x, xs) => some (x, r :: xs)
      | none => none

/-- Whether every instruction of the releasing engine before a recorded release has completed: all but MEM's reductions
complete in the step that performs them (R198, R199, R278). -/
def releaseDue (s : State) (c : Context) (r : Recorded) : Bool :=
  releaseEngine c r.rel != .mem || !requestsWhere s c.bind.lid c.bind.wid (· < r.idx)

/-- The writes that something has still to be met on their line: those that are not ordered, and the ordered ones after an
older write of another engine that is not (R194). The first argument holds the older ones. -/
def keepMixes : List Mix → List Mix → List Mix
  | _, [] => []
  | older, m :: r =>
    if m.settled && !(older.any fun x => x.line == m.line && x.eng != m.eng && !x.settled) then keepMixes older r
    else m :: keepMixes (m :: older) r

/-- Writes that a link of R195 has ordered for every engine. -/
def Context.order (c : Context) (p : Mix → Bool) : Context :=
  { c with mixes := keepMixes [] (c.mixes.map fun m => if p m then { m with settled := true } else m) }

/-- The lines that an engine wrote before it recorded a release are written whole once it takes effect, those of the nest's
issue that it follows too, and those that SBARs order before its accesses (R194, R195, R200); and its writes of them are made
and its reads done (R192, R198, R199). -/
def Context.settle (c : Context) (e : Engine) (stamp : Nat) : Context :=
  let lim := (c.chained.filter fun x => x.eng == e && decide (x.stamp ≤ stamp)).foldl (fun n x => max n x.lim) 0
  let t := c.order fun m => (m.eng == some e && decide (m.stamp ≤ stamp)) || decide (m.idx < lim)
  { t with
    flight := t.flight.map fun (w : Flight) =>
      if w.eng == e && decide (w.stamp ≤ stamp) then { w with age := max w.age w.lat } else w
    late := t.late.filter fun (x : LateRead) => !(x.eng == e && decide (x.stamp ≤ stamp)) }

/-- A recorded release takes effect, in the order of its engine's releases (R198, R199, R207). -/
def releaseOne (pos : Nat) (p : Release → Bool) (s : State) : HO :=
  match s.ctx? pos with
  | none => .next s
  | some c =>
    match pickRelease c p [] c.releases with
    | none => .next s
    | some (r, rest) =>
      if releaseDue s c r then
        let (s1, c1) := applyRelease pos (s, { c with releases := rest }.settle (releaseEngine c r.rel) r.stamp) r.rel
        .next (s1.setCtx pos c1)
      else .next s

/-- The deferred filling of an ADVP (R198). -/
def execHandleFillRelease (pos : Nat) (h : BitVec 5) (s : State) : HO :=
  releaseOne pos (fun r => match r with | .fill k _ _ => k == h.toNat | _ => false) s

/-- The deferred emptying of an ADVC (R198). -/
def execHandleDrainRelease (pos : Nat) (h : BitVec 5) (s : State) : HO :=
  releaseOne pos (fun r => match r with | .drain k _ _ => k == h.toNat | _ => false) s

/-- The deferred release of a TKSEND (R199). -/
def execTokenRelease (pos : Nat) (snd rcv : Engine) (s : State) : HO :=
  releaseOne pos (fun r => match r with | .token a b _ => a == snd && b == rcv | _ => false) s

end Sys2Proof.Machine
end

