-- ==== Sys2Proof/Machine/Nest.lean ====
section
/-!
DEFINITION. Nest records: the iteration space, strides, token fields and one issue per step (spec/03 R66 to R68;
spec/09 R200; spec/14 R320).
-/
namespace Sys2Proof.Machine

/-- Whether a nest issues nothing at all (R67). -/
def nestEmpty (p : NestP) : Bool := p.t0 == 0 || p.t1 == 0 || p.t2 == 0 || p.t3 == 0

/-- The first iteration at or after a position, level 0 fastest; none when none remains, as in an empty nest (R67, R320). -/
def nestFirst (p : NestP) (x : NestPos) : Option NestPos :=
  let t0 := p.t0.toNat
  let t1 := p.t1.toNat
  let t2 := p.t2.toNat
  let t3 := p.t3.toNat
  let x := if t0 ≤ x.i0 then { x with i0 := 0, i1 := x.i1 + 1 } else x
  let x := if t1 ≤ x.i1 then { x with i0 := 0, i1 := 0, i2 := x.i2 + 1 } else x
  let x := if t2 ≤ x.i2 then { x with i0 := 0, i1 := 0, i2 := 0, i3 := x.i3 + 1 } else x
  if nestEmpty p || t3 ≤ x.i3 then none else some x

/-- Stride k of an operand, in lines (Table 14). -/
def strideAt (str : BitVec 128) (k : Nat) : Int := (str.extractLsb' (32 * k) 32).toInt

/-- The offset of an operand at an iteration (R67). -/
def offsetOf (str : BitVec 128) (x : NestPos) : Int :=
  x.i0 * strideAt str 0 + x.i1 * strideAt str 1 + x.i2 * strideAt str 2 + x.i3 * strideAt str 3

/-- The three operands' offsets (R67). -/
def nestOffs (p : NestP) (x : NestPos) : Offs := ⟨offsetOf p.dstr x, offsetOf p.astr x, offsetOf p.bstr x⟩

/-- The nest position of a lead engine. -/
def Context.nestPos (c : Context) (e : Engine) : Option NestPos := if e = .vec then c.nestV else c.nestM

def Context.setNest (c : Context) (e : Engine) (x : Option NestPos) : Context :=
  if e = .vec then { c with nestV := x } else { c with nestM := x }

/-- A token that the last issue has still to send (R200); a handler's nests keep none. -/
def Context.sendDue (c : Context) (e : Engine) : Bool := !c.handler && (if e = .vec then c.sendV else c.sendM)

def Context.setDue (c : Context) (e : Engine) (b : Bool) : Context :=
  if c.handler then c else if e = .vec then { c with sendV := b } else { c with sendM := b }

/-- One issue of a lead (R68). Its bases are resolved again at each issue: R67 fixes them at the nest's start, no saved state holds
them, and where a trap handler has changed RBASE or a handle's head or tail the rest of a nest takes them as they then stand, a
DESIGN CHOICE (log 30). -/
def leadIssue (l : Lead) (f : Offs) (s : State) (e : Engine) (c : Context) : Eff :=
  match l with
  | .v3 op o => do let c1 ← v3Issue op o f e c; .ok (s, c1)
  | .v2 op o => do let c1 ← v2Issue op o f e c; .ok (s, c1)
  | .mv op o => mvIssue op o f s e c
  | .mx st o => mxIssue st o f s e c
  | .mg st o => mgIssue st o f s e c

/-- Where the nest stands after an issue: done when no iteration is left and no token is due. -/
def nestAdvance (p : NestP) (e : Engine) (x : NestPos) (c : Context) : Context :=
  let nx := { x with i0 := x.i0 + 1 }
  match nestFirst p nx with
  | some y => c.setNest e (some y)
  | none =>
    if c.sendDue e then c.setNest e (some nx)
    else (c.setNest e none).advanceRecord e

/-- The token of an issue (R200): sent at once where it fits, else due before the nest goes on. -/
def nestSend (p : NestP) (e : Engine) (s : State) (c : Context) : State × Context :=
  match p.tsend with
  | none => (s, c)
  | some rcv =>
    if tokenRoom c e rcv 1 then sendTokens s.cur s c e rcv 1 else (s, c.setDue e true)

/-- One issue of a nest and what goes with it (R67, R200). -/
def nestOne (l : Lead) (p : NestP) (x : NestPos) (s : State) (e : Engine) (c : Context) : Res State := do
  let c1 ← match p.twait with
    | some from' => takeTokens c from' e 1
    | none => .ok c
  match p.tsend with
  | some rcv => await (!c.handler || tokenRoom c1 e rcv 1)
  | none => .ok ()
  let (s1, c2) ← leadIssue l (nestOffs p x) s e c1
  let (s2, c3) := nestSend p e s1 c2
  .ok (s2.setCtx s.cur (nestAdvance p e x c3))

/-- A step of a nest: a due token, or the next issue; a fault names the iteration (R29, R67, R320). -/
def execNestIssue (lead : Lead) (p : NestP) (s : State) : HO :=
  match s.ctx? s.cur with
  | none => .fault .noContext
  | some c =>
    let e := s.eng
    if !(lead.wf && p.wf lead) then .next (takeTrap s s.cur c e { code := .illop })
    else if nestEmpty p then .next (s.setCtx s.cur ((c.setNest e none).advanceRecord e))
    else if c.sendDue e then
      match p.tsend with
      | some rcv =>
        if tokenRoom c e rcv 1 then
          let (s1, c1) := sendTokens s.cur s (c.setDue e false) e rcv 1
          match nestFirst p ((c.nestPos e).getD {}) with
          | some _ => .next (s1.setCtx s.cur c1)
          | none => .next (s1.setCtx s.cur ((c1.setNest e none).advanceRecord e))
        else .next s
      | none => .next (s.setCtx s.cur (c.setDue e false))
    else
      match nestFirst p ((c.nestPos e).getD {}) with
      | none => .next (s.setCtx s.cur ((c.setNest e none).advanceRecord e))
      | some x =>
        match nestOne lead p x s e c with
        | .ok s1 => .next s1
        | .error st => .next (stopWith s s.cur (c.setNest e (some x)) e st)

end Sys2Proof.Machine
end

