-- ==== Sys2Proof/Machine/Manage.lean ====
section
/-!
DEFINITION. The device in its system: readiness, owners, the owner registers, attestation, power, laser banks, and what
the firmware writes on the dies (spec/22 R407 to R414; spec/11 R235 to R238, R242; spec/14 R325 to R328).
-/
namespace Sys2Proof.Machine

/-! Owners (R408, R409). -/

/-- A master's kind and peer device number (Table 124). -/
def masterId : Master → Nat × Nat
  | .os => (1, 0)
  | .mgmt => (2, 0)
  | .peer d => (3, d.toNat)

/-- Whether a master is the owner. -/
def owns (s : State) (m : Master) : Bool := masterId m == (s.m.ownerKind, s.m.ownerDev)

/-- A write that only the owner may make (R409): another master's is discarded and refused. -/
def ownerWrite (m : Master) (s : State) (f : Mgmt → Mgmt) : HO :=
  .next (if owns s m then { s with m := f s.m } else s.report .refusedWrite)

/-- A number's bytes. -/
def numBytes (v : Nat) : Nat → List Byte
  | 0 => []
  | n + 1 => BitVec.ofNat 8 v :: numBytes (v / 256) n

/-- The first 64 bytes of SHAKE256 of a message (R408, R412). -/
def digest (bs : List Byte) : List Byte := numBytes (shake256 64 bs.length (numOfBytes bs)) 64

/-- Letters as bytes. -/
def ascii (cs : List Nat) : List Byte := cs.map (BitVec.ofNat 8)

/-- "JTNOWN" and "JTNQUOTE". -/
def ownTag : List Byte := ascii [0x4A, 0x54, 0x4E, 0x4F, 0x57, 0x4E]
def quoteTag : List Byte := ascii [0x4A, 0x54, 0x4E, 0x51, 0x55, 0x4F, 0x54, 0x45]

/-- The digest of a public key. -/
def keyDigest (key : BitVec 456) : List Byte := digest (numBytes key.toNat 57)

/-- The owner-key list holds a digest; an all-zero entry is empty (Table 126). -/
def keyListed (ks : Store (BitVec 512)) (d : List Byte) : Bool :=
  ks.any fun e => e.2 != 0 && e.2 == BitVec.ofNat 512 (numOfBytes d)

/-- ELECTION_NONCE (R408, R409, R411): with no owner, or a named successor to challenge, a fresh nonce opens an
election, which uses the key list as it stands. -/
def execElectionNonce (n : BitVec 256) (s : State) : HO :=
  .next (if s.m.ownerKind = 0 ∨ s.m.handover ≠ 0 then
      { s with m := { s.m with nonce := some n, keysAtNonce := s.m.okeys, oklock := false } }
    else s)

/-- A valid answer (R408, R409). -/
def answerOk (s : State) (n : BitVec 256) (key : BitVec 456) (sig : BitVec 912) : Bool :=
  let d := keyDigest key
  keyListed s.m.keysAtNonce d &&
    (s.m.ownerKind == 0 || s.m.handover != 0 && s.m.handover == BitVec.ofNat 64 (numOfBytes (d.take 8))) &&
    ed448Fits key sig (digest (ownTag ++ Config.deviceIdentity ++ numBytes n.toNat 32 ++ d))

/-- OWNER_ANSWER (R408): the first valid answer wins; every other is refused. -/
def execOwnerAnswer (m : Master) (key : BitVec 456) (sig : BitVec 912) (s : State) : HO :=
  match s.m.nonce with
  | none => .next (s.report .refusedWrite)
  | some n =>
    if answerOk s n key sig then
      .next { s with
        m := { s.m with
          ownerKind := (masterId m).1
          ownerDev := (masterId m).2
          handover := 0
          nonce := none
          quiet := 0 } }
    else .next (s.report .refusedWrite)

/-- HANDOVER (R409): a challenge that is open ends, since each election has a nonce of its own (R408). -/
def execHandoverWrite (m : Master) (v : Word) (s : State) : HO :=
  ownerWrite m s fun g => { g with handover := v, nonce := none }

/-- A successor does not win within 10 s: the owner stays (R409). -/
def execHandoverTimeout (s : State) : HO :=
  .next (if s.m.handover = 0 then s else { s with m := { s.m with handover := 0, nonce := none } })

/-- Time passes without a keep-alive (R409): at 5 s the owner loses the device. -/
def execKeepaliveTimeout (s : State) : HO :=
  if s.m.ownerKind = 0 then .next s
  else
    let q := s.m.quiet + Config.quietAdvance s.freeCtr
    .next (if 5000 ≤ q then
        { s with m := { s.m with ownerKind := 0, ownerDev := 0, handover := 0, nonce := none, quiet := 0 } }
      else { s with m := { s.m with quiet := q } })

/-- A keep-alive from the owner (R409). -/
def execOwnerKeepalive (m : Master) (s : State) : HO :=
  .next (if owns s m then { s with m := { s.m with quiet := 0 } } else s)

/-! The owner registers (R410, R411). -/

/-- FQTAIL (R411): a number not above FQDONE, or more than 64 above it, is discarded. -/
def execFqtailWrite (m : Master) (v : Word) (s : State) : HO :=
  ownerWrite m s fun g =>
    let t : BitVec 32 := v.setWidth 32
    let n := (t - g.fqdone).toNat
    if 1 ≤ n ∧ n ≤ 64 then { g with fqtail := t } else g

/-- DEVNO (R410): only while no link is UP. -/
def execDevnoWrite (m : Master) (v : Word) (s : State) : HO :=
  ownerWrite m s fun g => if s.links.any fun e => e.2.up then g else { g with devno := v.toNat % 256 }

/-- LSECRET is staged (R411). -/
def execLsecretWrite (m : Master) (v : BitVec 256) (s : State) : HO := ownerWrite m s fun g => { g with lsecret := v }

/-- OKEYS is staged while it is not locked (R411). -/
def execOkeysWrite (m : Master) (i : BitVec 3) (v : BitVec 512) (s : State) : HO :=
  ownerWrite m s fun g => if g.oklock then g else { g with okeysStaged := putD g.okeysStaged i.toNat v 0 }

/-- OKLOCK: writing 1 commits the staged list and locks it (R411). -/
def execOklockCommit (m : Master) (v : Word) (s : State) : HO :=
  ownerWrite m s fun g =>
    if g.oklock || !v.getLsbD 0 then g else { g with okeys := g.okeysStaged, oklock := true }

/-! Attestation (R412). -/

/-- A stage is measured before it runs (R412). -/
def execBootStageMeasure (image : List Byte) (s : State) : HO :=
  .next { s with
    m := { s.m with
      meas := BitVec.ofNat 512 (numOfBytes (digest (numBytes s.m.meas.toNat 64 ++ digest image))) } }

/-- A quote's body (R412); NBVMAP is 2 (R60). -/
def quoteBody (s : State) (nonce : BitVec 256) : BitVec 512 :=
  BitVec.ofNat 512 (numOfBytes (digest
    (quoteTag ++ numBytes nonce.toNat 32 ++ numBytes s.m.meas.toNat 64 ++ numBytes (hallmark s) 16 ++ numBytes 2 8)))

/-- QUOTE: the body, signed with the device identity key, which never leaves the system die (R412). -/
def execQuote (nonce : BitVec 256) (s : State) : HO :=
  let b := quoteBody s nonce
  .next (s.report (.quoteOf b (ed448Sign Config.identityKey (numBytes b.toNat 64))))

/-! Power (R413). -/

/-- PCAP: less than 1,500 stores 1,500 (Table 125). -/
def execPcapWrite (m : Master) (v : Word) (s : State) : HO :=
  ownerWrite m s fun g => { g with pcap := max 1500 (v.toNat % 2 ^ 16) }

/-- The dies with an island that no deterministic launch pins (R4, R413). -/
def throughputDies (s : State) : BitVec 16 :=
  let held := s.launches.flatMap fun e => e.2.pinned
  BitVec.ofNat 16 (((List.range 16).filter fun d => (held.filter fun c => c / 32 == d).length < 32).map fun d => 2 ^ d).sum

/-- The power that the governor holds the package to (R4, R413): PCAP, for which it holds issue where the floor of the clocks is
not low enough; and where the budgets in force exceed it, these and every throughput island at its floor. -/
def powerLimit (s : State) : Nat :=
  if reserved s ≤ s.m.pcap then s.m.pcap else reserved s + Config.floorPower (1024 - 2 * pinnedCount s)

/-- GOVERNOR_STEP (R413): of the draw that the package would have, what it does to the throughput islands' clocks leaves no
more than the limit, and changes timing only; PDRAW and PISL show it. While the budgets exceed the cap, every throughput
island is at its floor. -/
def execGovernorStep (draw : BitVec 16) (s : State) : HO :=
  .next { s with
    m := { s.m with
      pdraw := min draw.toNat (powerLimit s)
      floor := throughputDies s &&& (if s.m.pcap < reserved s then BitVec.allOnes 16 else Config.floorBits s.freeCtr) } }

/-! Laser banks (R407, R414). -/

/-- A readiness bit. -/
def readyBit (s : State) (n : Nat) : Bool := s.m.ready.getLsbD n

def setReady (s : State) (n : Nat) (b : Bool) : State :=
  { s with
    m := { s.m with
      ready := if b then s.m.ready ||| (1#2048 <<< n) else s.m.ready &&& ~~~(1#2048 <<< n) } }

/-- A circuit is re-established with other wavelengths or by another path, without a fault report (R328, R345, R414): it is
RECOVERING until it holds lock, and its cards then continue from their first uncommitted segment; none fails. -/
def reEstablish (s : State) (e : Nat × Circuit) : State :=
  let k := e.2
  let step := match progOf? s k.lid with | some p => p.stepNo | none => 0
  match k.state with
  | .live | .draining =>
    s.setCircuit e.1 { k with
      state := .recovering
      tearPend := k.tearPend || k.state == .draining
      renew := false
      recovery := some { first := .laser, die := 0, port := 0, wave := 0, step := step, sub := .laser, planned := true } }
  | _ => s.setCircuit e.1 { k with renew := false }

/-- Whether a GAP or an idle hint range opens a port of a circuit (R355, R414). -/
def circuitOpen (s : State) (k : Circuit) : Bool :=
  k.est.any fun o => (gapPorts o).any fun p => portOpen s (p / 8) (p % 8)

/-- The circuits that a change of a bank has left to re-establish, those in a window, or all of them (R414). -/
def renewCircuits (s : State) (all : Bool) : State :=
  (s.circuits.filter fun e => e.2.renew && (all || circuitOpen s e.2)).foldl reEstablish s

/-- The place in service at which a bank serves. -/
def placeOf? (s : State) (b : Nat) : Option Nat := (List.range 4).find? fun p => bankAt s p == b

/-- The spare bank, if one is ready, takes a place: the circuits that the place feeds are to be re-established, those in a window now
(R414). -/
def switchBank (s : State) (p : Nat) : State :=
  match s.m.spare with
  | none => s
  | some x =>
    if readyBit s (18 + x) then
      let s1 := setReady { s with m := { s.m with spare := none, serves := putD s.m.serves p x p } } (18 + bankAt s p) false
      renewCircuits { s1 with circuits := s1.circuits.map fun e =>
        if e.2.state != .idle && Config.bankFeeds p e.1 then (e.1, { e.2 with renew := true }) else e } false
    else s

/-- A bank in service is switched to the spare bank (R414). -/
def removeBank (s : State) (b : Nat) : State :=
  match placeOf? s b with
  | some p => if readyBit s (18 + b) then switchBank s p else s
  | none => s

/-- LASER_BANK_REMOVE (R414): once the bank is out, it re-establishes the circuits for which no window has come. -/
def execLaserBankRemove (b : Nat) (s : State) : HO :=
  .next (if readyBit s (18 + b) then removeBank s b else renewCircuits s true)

/-- A defect map entry (R327). -/
def defectWord (r : Resource) : Word := BitVec.ofNat 64 (r.kind.toNat + r.die.toNat * 2 ^ 8 + r.index.toNat * 2 ^ 16)

/-- The first place whose bank was retired when no spare was ready (R326, R414). -/
def retiredPlace? (s : State) : Option Nat :=
  (List.range 4).find? fun p => !readyBit s (18 + bankAt s p) &&
    s.m.defects.contains (defectWord { kind := 6, die := 0, index := BitVec.ofNat 32 (bankAt s p) })

/-- LASER_BANK_RETURN (R414): the bit of a replacement that passes its assay is set. It becomes the spare, and takes the place of a
bank that was retired when no spare was ready; one whose place no other bank has taken serves there again, a DESIGN CHOICE
(log 64). -/
def execLaserBankReturn (b : Nat) (passed : Bool) (s : State) : HO :=
  .next (if passed && b < 5 && !readyBit s (18 + b) then
      let s1 := setReady s (18 + b) true
      match placeOf? s b with
      | some _ => s1
      | none =>
        let s2 : State := { s1 with m := { s1.m with spare := some b } }
        match retiredPlace? s2 with
        | some p => switchBank s2 p
        | none => s2
    else s)

/-! Readiness, resets, retirement (R238, R325 to R328, R407). -/

/-- The bits that Table 123 assigns. -/
def readyAssigned (n : Nat) : Bool := n < 23 || (32 ≤ n && n < 1728)

/-- READINESS_SET (R407). -/
def execReadinessSet (bit : Nat) (s : State) : HO := .next (if readyAssigned bit then setReady s bit true else s)

/-- DIE_RESET (R238, R349): the refresh period and the slot tables' cycles start again. -/
def execDieReset (d : Nat) (s : State) : HO := .next (s.setDie d { s.die d with refreshPos := 0, cycle := 0 })

/-- The bits of INDEX that Table 87 gives a kind. -/
def indexBits : Nat → Nat
  | 1 => 5 | 2 => 3 | 3 => 16 | 4 => 11 | 5 => 5 | 6 => 3 | 7 => 9 | 0x10 => 18 | 0x11 => 20 | 0x12 => 21 | _ => 20

/-- A kind whose resource belongs to the package, and not to a die: a path of the interposer, a laser bank (R327). -/
def packageKind (k : Nat) : Bool := k == 3 || k == 6

/-- A resource with the fields that Table 87 gives its kind (R327). -/
def trimRes (r : Resource) : Resource :=
  { r with
    die := if packageKind r.kind.toNat then 0 else r.die
    index := r.index &&& BitVec.ofNat 32 (2 ^ indexBits r.kind.toNat - 1) }

/-- The readiness bit of a retired function, if it has one (R407, Table 87). -/
def bitOfResource (r : Resource) : Option Nat :=
  let d := r.die.toNat
  let i := r.index.toNat
  match r.kind.toNat with
  | 1 => some (192 + 32 * d + i)
  | 2 => some (32 + 8 * d + i)
  | 5 => some (1216 + 32 * d + i)
  | 6 => if i < 5 then some (18 + i) else none
  | _ => none

/-- CHANNEL_COPY_COMPLETE (R328, R407, R414): a channel that has been retired serves again, from one of the two spare channels of
its stack. -/
def execChannelCopyComplete (die ch : Nat) (s : State) : HO :=
  let bit := 1216 + 32 * die + ch
  let used := lookD s.m.copied die 0
  let gone := s.m.defects.contains (defectWord { kind := 5, die := BitVec.ofNat 4 die, index := BitVec.ofNat 32 ch })
  .next (if die < 16 ∧ ch < 32 ∧ gone = true ∧ readyBit s bit = false ∧ used < 2 then
      setReady { s with m := { s.m with copied := putD s.m.copied die (used + 1) 0 } } bit true
    else s)

/-- A kind of Table 87. -/
def defectKind (k : Nat) : Bool := (1 ≤ k && k ≤ 7) || (0x10 ≤ k && k ≤ 0x13)

/-- The core that an assay tests, or whose row it tests, over the package (R326). -/
def coreOfRes (r : Resource) : Option Nat :=
  match r.kind.toNat with
  | 1 => some (r.die.toNat * 32 + r.index.toNat)
  | 0x13 => some (r.die.toNat * 32 + r.index.toNat % 32)
  | _ => none

/-- The contexts of a core. -/
def coreCtxs (s : State) (k : Nat) : List (Nat × Context) := s.ctxs.filter fun e => coreOf e.1 == k

/-- Whether an establishment of circuit `c`, with some groups, lies on a resource of the fabric. Which circuits cross a path of the
interposer is not given: every one may (log 52). -/
def estUses (s : State) (r : Resource) (c : Nat) (o : EstOp) (groups : BitVec 8) : Bool :=
  let p := portKey r.die.toNat (r.index.toNat % 8)
  match r.kind.toNat with
  | 2 => (portsOf o).contains p
  | 3 => !o.x
  | 4 => (portsOf o).contains p && groups.getLsbD (r.index.toNat / 8 / 8)
  | 6 => (banksOf s c).contains r.index.toNat
  | _ => false

/-- A circuit that uses a resource of the fabric. -/
def circuitUses (s : State) (r : Resource) (c : Nat) (k : Circuit) : Bool :=
  k.state != .idle && k.est.any fun o => estUses s r c o k.groups

/-- Whether a launch holds a resource by a handle: it does until its last task ends, whether the circuit is IDLE or not (R326,
R343). -/
def launchHolds (s : State) (r : Resource) (l : Launch) : Bool :=
  l.prog.any fun p => (estsOf (p.ops.filterMap decodeSeqOp)).any fun o => estUses s r o.c.toNat o o.wg

/-- A kind whose resource is part of memory: a cache way or row, a row, a channel. -/
def memKind (k : Nat) : Bool := k == 5 || k == 7 || k == 0x10 || k == 0x11 || k == 0x12

/-- A launch's idle hint covers its current step, and no busy one does: its circuits leave their ports to optical assays
(R363). -/
def restsNow (s : State) (lid : Nat) : Bool :=
  match s.launch? lid with
  | some l => hintNow l false && !hintNow l true
  | none => false

/-- Whether a task, a card or a circuit uses a resource now (R326): a context its core, a request or a running card the
memory, a circuit its part of the fabric, unless its launch's hints give it leave. -/
def inUse (s : State) (r : Resource) : Bool :=
  (match coreOfRes r with
    | some k => !(coreCtxs s k).isEmpty || s.cards.any fun e => e.2.core == k && e.2.st == .running
    | none => false) ||
    (memKind r.kind.toNat && (!s.reqs.isEmpty || s.cards.any fun e => e.2.st == .running)) ||
    s.circuits.any fun e => circuitUses s r e.1 e.2 && !restsNow s e.2.lid

/-- Whether a deterministic launch holds the resource (R326): its tasks' cores, what its handles establish, and, since its tables may
map any of it, the memory. -/
def detHolds (s : State) (r : Resource) : Bool :=
  let isDet (lid : Nat) : Bool := match s.launch? lid with | some l => hdrDet l.hdr | none => false
  (match coreOfRes r with
    | some k => (s.die (k / 32)).slots.any fun e => e.1 / 4 == k % 32 && isDet e.2.lid
    | none => false) ||
    (memKind r.kind.toNat && s.launches.any fun e => hdrDet e.2.hdr) ||
    s.launches.any (fun e => hdrDet e.2.hdr && launchHolds s r e.2) ||
    s.circuits.any fun e => circuitUses s r e.1 e.2 && isDet e.2.lid

/-- The bind records of a core whose tasks have not started are taken back, for the firmware to bind the tasks elsewhere
(R219, R328). -/
def unbindCore (s : State) (k : Nat) : State :=
  let d := s.die (k / 32)
  let mine (e : Nat × BindRec) : Bool := e.1 / 4 == k % 32 && !e.2.run
  let s1 := s.setDie (k / 32) { d with slots := d.slots.filter fun e => !mine e }
  ((d.slots.filter mine).filter fun e => !e.2.res).foldl (fun s e =>
    match s.launch? e.2.lid with
    | some l => s.setLaunch e.2.lid { l with bound := l.bound - 1 }
    | none => s) s1

/-- A core is fenced (R328, R329): its contexts are pre-empted, to resume elsewhere. -/
def fence (s : State) (k : Nat) : State := unbindCore ((coreCtxs s k).foldl (fun s e => askPreempt s e.1 e.2) s) k

/-- A failed assay retires the resource (R326 to R328): a core is fenced, a laser bank is switched, the circuits of a barred
port, path or wavelength are established again, and the retirement goes to the defect map. -/
def retire (s : State) (r : Resource) : State :=
  let s0 := match r.kind.toNat with
    | 1 => fence s (r.die.toNat * 32 + r.index.toNat)
    | 6 => removeBank s r.index.toNat
    | 2 | 3 | 4 => (s.circuits.filter fun e => circuitUses s r e.1 e.2).foldl reEstablish s
    | _ => s
  let s1 := match bitOfResource r with | some b => setReady s0 b false | none => s0
  let w := defectWord r
  { s1 with m := { s1.m with defects := if s1.m.defects.contains w then s1.m.defects else s1.m.defects ++ [w] } }

/-- ASSAY (R326): it passes, and the error is transient, or it fails, and the resource is retired. It runs only while no task,
card or circuit uses the resource and no deterministic launch holds it. -/
def execAssay (r0 : Resource) (passed : Bool) (s : State) : HO :=
  let r := trimRes r0
  .next (if !defectKind r.kind.toNat || detHolds s r || inUse s r then s
    else if passed then s.report (.transient r)
    else retire s r)

/-- The context at a position has an uncorrectable part (R324). -/
def spoil (s : State) (pos : Nat) (p : OwnPart) : State :=
  match s.ctx? pos with
  | some c => if c.own.contains p then s else s.setCtx pos { c with own := p :: c.own }
  | none => s

/-- Where an uncorrectable error lies from now on (R324, R325); one of a channel's interface or of a switch path stays nowhere. -/
def spoilAt (s : State) : ErrLoc → State
  | .mem loc way => { s with bad := put s.bad (loc / 64) (way.map (·.toNat)) }
  | .own pos p => spoil s pos p
  | .save lid wid =>
    { s with
      saved := s.saved.map fun (e : Nat × Saved) =>
        if e.2.ctx.bind.lid == lid && e.2.ctx.bind.wid == wid then (e.1, { e.2 with bad := true }) else e }
  | .channel _ _ | .path _ => s

/-- The resource that an error's assay tests (R326). A save area is HBM of the firmware's, in a free place (log 52). -/
def errRes (s : State) : ErrLoc → Option Resource
  | .mem loc way => some (memRow (spoilAt s (.mem loc way)) loc)
  | .own pos _ => some (coreRes pos)
  | .save lid wid => some (memRow s (Config.saveArea lid wid % 2 ^ 44))
  | .channel die ch => some { kind := 5, die := die, index := ch.setWidth 32 }
  | .path p => some { kind := 3, die := 0, index := p.setWidth 32 }

/-- An error schedules an assay (R326). -/
def assayOf (s : State) (l : ErrLoc) : State :=
  match errRes s l with
  | some r => s.report (.assayDue r)
  | none => s

/-- A read that has issued writes nothing after all, and its engine stands at its slot again (R325). -/
def Context.unread (c : Context) (r : LateRead) : Context :=
  let c1 := r.lines.foldl (fun c l => c.wrL l.1 l.2) c
  let c2 := if r.eng = .mem then c1.setNest .mem r.nest else c1
  { c2 with
    pos := c2.pos.set r.eng r.place
    r := { c2.r with s := r.regs.foldl (fun m (v : Nat × Word) => putD m v.1 v.2 0) c2.r.s }
    mat := if r.eng = Engine.mat then { c2.mat with oslots := r.slots } else c2.mat
    own := r.own ++ c2.own.filter (!r.own.contains ·)
    flight := c2.flight.filter fun (w : Flight) => !(w.eng == r.eng && w.stamp == r.stamp)
    mixes := c2.mixes.filter fun (m : Mix) => !(m.eng == some r.eng && m.idx == r.place.idx) }

/-- The address at which a read meets the sector of a location (R325). -/
def LateRead.meets (r : LateRead) (loc : Nat) : Option Nat :=
  least ((r.src.filter fun x => rangesMeet x.2.1 x.2.2 (loc / 64 * 64) 64).map fun x => x.1 + (loc / 64 * 64 - x.2.1))

/-- A context whose read of a sector is on its way there when the error arises is its consumer (R325): the read faults at its own
slot. Of several the first issued does. -/
def lateFault (loc : Nat) (s : State) (e : Nat × Context) : State :=
  let c := e.2
  if c.handler || c.halted || c.preempting || c.ending || c.pendingFault.isSome || c.together then s
  else
    match c.late.findSome? fun r => (r.meets loc).map fun a => (r, a) with
    | none => s
    | some (r, a) =>
      if r.eng = .mat ∧ c.mat.running = true then s
      else takeTrap s e.1 (c.unread r) r.eng { code := .eccu, addr := a, found := some (memRow s loc) }

/-- An error that nothing has found arises: a read on its way meets it (R325). -/
def lateFaults (s : State) : ErrLoc → State
  | .mem loc _ => s.ctxs.foldl (lateFault loc) s
  | _ => s

/-- SCRUB_ERROR (R324 to R326): a corrected error is logged and changes nothing; an uncorrectable one stays where it is until
it is replaced, is told to the firmware if no consumer has found it, and faults its next reader,
which may be one on its way. -/
def execScrubError (e : ScrubErr) (s : State) : HO :=
  let l := e.loc
  .next (match e.found with
    | .corrected => assayOf s l
    | .scrubbed => assayOf ((spoilAt s l).report (.scrub l)) l
    | .latent => lateFaults (spoilAt s l) l)

/-! What the firmware writes on the dies (R235 to R237, R242). -/

/-- TLB_SHOOTDOWN (R242): every core drops the translations of a range. -/
def execTlbShootdown (root va size : Nat) (s : State) : HO :=
  .next { s with
    cores := s.cores.map fun (e : Nat × Core) =>
      (e.1, { e.2 with tlb := e.2.tlb.filter fun t => !(t.root == root && rangesMeet t.va t.size va size) }) }

/-- RANGE_REGISTER_WRITE (R235, R236): words RGBn and RGLn of a die. -/
def execRangeRegisterWrite (die n : Nat) (rgb rgl : Word) (s : State) : HO :=
  .next (if die < 16 ∧ n < 16 then
      let d := s.die die
      let b : Word := rgb &&& 0x0000_FFFF_FFFF_0003
      let l : Word := rgl &&& 0x01FF_FFFF_FFFF_FFFF
      s.setDie die { d with ranges := putD (putD d.ranges (2 * n) b 0) (2 * n + 1) l 0 }
    else s)

/-- Whether a launch is the only one bound on a die (R237). -/
def soleOn (s : State) (die lid : Nat) : Bool :=
  !(s.die die).slots.isEmpty && (s.die die).slots.all fun e => e.2.lid == lid

/-- WSCTL_OPEN (R237): opened only for a launch that is alone on the die. -/
def execWsctlOpen (die lid : Nat) (open_ : Bool) (s : State) : HO :=
  let k := lid * 16 + die
  .next (if open_ then
      (if die < 16 && (s.launch? lid).isSome && soleOn s die lid then { s with wsOpen := put s.wsOpen k () } else s)
    else { s with wsOpen := del s.wsOpen k })

end Sys2Proof.Machine
end

