-- ==== Sys2Proof/Machine/Aperture.lean ====
section
/-!
DEFINITION. The management aperture as its masters see it: reading a word of it, and writing one (spec/22 R407, R409, R411;
Tables 123 to 126).
-/
namespace Sys2Proof.Machine

/-- A word of a byte area. -/
def areaWord (m : Store Byte) (off : Nat) : Word := BitVec.ofNat 64 (apBytes m off 8)

/-- Where the aperture shows the default slot table image, at an offset that no table assigns: R349 makes it readable and names no
place. A DESIGN CHOICE (log 20). -/
def defaultAt : Nat := 0x40000

/-- Four entries of the default image, from entry `i` on (R349). -/
def imageWord (i : Nat) : Word :=
  BitVec.ofNat 64 ((List.range 4).map fun j => defaultEntry ((i + j) / 9216) ((i + j) % 9216) * 2 ^ (16 * j)).sum

/-- The word at an offset of the aperture, as any master reads it: LSECRET and what no table assigns read as zero. -/
def apertureRead (s : State) (off : Nat) : Word :=
  let g := s.m
  let nat (n : Nat) : Word := BitVec.ofNat 64 n
  if off % 8 ≠ 0 then 0
  else if off = 0x0000 then nat (g.ownerKind % 4 + (if g.ownerKind = 3 then g.ownerDev % 256 * 4 else 0))
  else if off = 0x0008 then g.handover
  else if off = 0x0010 then nat g.devno
  else if off = 0x0100 then nat g.pcap
  else if off = 0x0108 then nat (g.pdraw % 2 ^ 16 + reserved s % 2 ^ 16 * 2 ^ 16)
  else if off = 0x0110 then g.floor.setWidth 64
  else if off = 0x0200 then g.fqtail.setWidth 64
  else if off = 0x0208 then nat (g.fqdone.toNat + g.fqstatus % 256 * 2 ^ 32)
  else if 0x0400 ≤ off ∧ off < 0x0600 then
    nat ((lookD g.okeys ((off - 0x400) / 64) 0).toNat / 2 ^ (8 * (off % 64)))
  else if off = 0x0600 then (if g.oklock then 1 else 0)
  else if 0x1000 ≤ off ∧ off < 0x1100 then nat (g.ready.toNat / 2 ^ (8 * (off - 0x1000)))
  else if 0x4000 ≤ off ∧ off < 0x5000 then areaWord g.fq off
  else if 0x8000 ≤ off ∧ off < 0x10000 then areaWord g.area off
  else if defaultAt ≤ off ∧ off < defaultAt + 2 * 147456 then imageWord ((off - defaultAt) / 2)
  else 0

/-- A word put into a wider value, at a byte of it. -/
def putWord {n : Nat} (x : BitVec n) (at' : Nat) (v : Word) : BitVec n :=
  (x &&& ~~~(BitVec.ofNat n ((2 ^ 64 - 1) * 2 ^ (8 * at')))) ||| BitVec.ofNat n (v.toNat * 2 ^ (8 * at'))

/-- A master writes a word of the aperture (R409, R411): each register as its own rule says; the fabric queue and the owner
area take the word; what no table lets the owner write stays as it is. Another master's write is refused. -/
def apertureWrite (m : Master) (off : Nat) (v : Word) (s : State) : HO :=
  if off % 8 ≠ 0 then ownerWrite m s id
  else if off = 0x0008 then execHandoverWrite m v s
  else if off = 0x0010 then execDevnoWrite m v s
  else if off = 0x0100 then execPcapWrite m v s
  else if off = 0x0200 then execFqtailWrite m v s
  else if 0x0300 ≤ off ∧ off < 0x0320 then execLsecretWrite m (putWord s.m.lsecret (off - 0x300) v) s
  else if 0x0400 ≤ off ∧ off < 0x0600 then
    let i := (off - 0x400) / 64
    execOkeysWrite m (BitVec.ofNat 3 i) (putWord (lookD s.m.okeysStaged i 0) (off % 64) v) s
  else if off = 0x0600 then execOklockCommit m v s
  else if 0x4000 ≤ off ∧ off < 0x5000 then ownerWrite m s fun g => { g with fq := apWrite g.fq off 8 v.toNat }
  else if 0x8000 ≤ off ∧ off < 0x10000 then ownerWrite m s fun g => { g with area := apWrite g.area off 8 v.toNat }
  else ownerWrite m s id

end Sys2Proof.Machine
end

