-- ==== Sys2Proof/Machine/Zstd.lean ====
section
/-!
DEFINITION. Zstandard expansion (spec/13 R308), after RFC 8878 (log 57). The input is a number, its first byte lowest; the
output is an array of bytes; `none` is a corrupt, cut off or refused frame.
-/
namespace Sys2Proof.Machine

/-- `n` bytes at byte `i` of a number. -/
def zBytes (v i n : Nat) : Nat := v / 2 ^ (8 * i) % 2 ^ (8 * n)

/-! Bit streams that are read backward from a final 1 bit. -/

/-- The bits of a backward stream: a number, and how many of its low bits are unread, negative once more have been asked for
than there are. -/
structure ZBits where
  bits : Nat
  left : Int

/-- The backward stream in `n` bytes at byte `i`. -/
def zStream (v i n : Nat) : Option ZBits :=
  let b := zBytes v i n
  if n = 0 ∨ b / 2 ^ (8 * (n - 1)) = 0 then none else some ⟨b, Nat.log2 b⟩

/-- The next `n` bits; those beyond the end are 0. -/
def ZBits.peek (z : ZBits) (n : Nat) : Nat :=
  let have' := z.left.toNat
  if n ≤ have' then z.bits / 2 ^ (have' - n) % 2 ^ n else z.bits % 2 ^ have' * 2 ^ (n - have')

def ZBits.skip (z : ZBits) (n : Nat) : ZBits := { z with left := z.left - n }

/-! Finite state entropy. -/

/-- A decoding table: in each state a symbol, how many bits lead on, and from where. -/
structure ZFse where
  log : Nat
  rows : Array (Nat × Nat × Nat)

/-- The table with one symbol, which takes no bits. -/
def ZFse.single (sym : Nat) : ZFse := ⟨0, #[(sym, 0, 0)]⟩

/-- A state's row. -/
def ZFse.row (t : ZFse) (st : Nat) : Nat × Nat × Nat := t.rows.getD st (0, 0, 0)

/-- The first place from `p` on, by steps of the spread, that lies below `high`. -/
def zNextPlace (size high : Nat) : Nat → Nat → Nat
  | 0, p => p
  | fuel + 1, p =>
    let q := (p + size / 2 + size / 8 + 3) % size
    if q < high then q else zNextPlace size high fuel q

/-- Spread `k` of one symbol. -/
def zSpread (size high sym : Nat) : Nat → Array Nat × Nat → Array Nat × Nat
  | 0, x => x
  | k + 1, (a, p) => zSpread size high sym k (a.setIfInBounds p sym, zNextPlace size high size p)

/-- The symbols of the states: those of probability "less than 1" from the top down, the others spread. -/
def zSymbols (size : Nat) (freqs : List Int) : Array Nat × Nat :=
  let syms := (List.range freqs.length).zip freqs
  let low := (syms.filter fun e => e.2 == -1).map (·.1)
  let high := size - low.length
  let top := (List.range low.length).foldl (fun (a : Array Nat) i => a.setIfInBounds (size - 1 - i) (low.getD i 0))
    (Array.replicate size 0)
  syms.foldl (fun x e => zSpread size high e.1 e.2.toNat x) (top, 0)

/-- A table from the probabilities of its symbols. -/
def zTable (log : Nat) (freqs : List Int) : ZFse :=
  let size := 2 ^ log
  let first : Array Nat := (freqs.map fun f => if f == -1 then 1 else f.toNat).toArray
  let (rows, _) := (zSymbols size freqs).1.foldl (fun (x : Array (Nat × Nat × Nat) × Array Nat) sym =>
    let n := x.2.getD sym 1
    let b := log - Nat.log2 n
    (x.1.push (sym, b, n * 2 ^ b - size), x.2.setIfInBounds sym (n + 1))) (#[], first)
  ⟨log, rows⟩

/-- How many further symbols of probability 0 follow: two bits at a time, as long as they say 3. -/
def zZeros (v : Nat) : Nat → Nat → Nat → Nat × Nat
  | 0, bit, k => (bit, k)
  | fuel + 1, bit, k =>
    let r := v / 2 ^ bit % 4
    if r = 3 then zZeros v fuel (bit + 2) (k + 3) else (bit + 2, k + r)

/-- The probabilities of a table's description, from bit `bit` of a number on, with `left` points to give. -/
def zFreqs (v : Nat) : Nat → Nat → Nat → List Int → Option (Nat × List Int)
  | _, bit, 0, fs => some (bit, fs)
  | 0, _, _, _ => none
  | fuel + 1, bit, left, fs =>
    let n := Nat.log2 (left + 1) + 1
    let w := v / 2 ^ bit % 2 ^ n
    let half := 2 ^ (n - 1)
    let short := 2 ^ n - 1 - (left + 1)
    let (val, bit') := if w % half < short then (w % half, bit + n - 1) else (if half ≤ w then w - short else w, bit + n)
    let p : Int := (val : Int) - 1
    if left < p.natAbs then none
    else if p = 0 then
      let (bit2, k) := zZeros v 256 bit' 0
      zFreqs v fuel bit2 left (fs ++ List.replicate (k + 1) 0)
    else zFreqs v fuel bit' (left - p.natAbs) (fs ++ [p])

/-- A table's description in at most `n` bytes at byte `i`: the table, and how many bytes it takes. -/
def zFse (v i n maxLog maxSym : Nat) : Option (ZFse × Nat) := do
  let b := zBytes v i n
  let log := b % 16 + 5
  if n = 0 ∨ maxLog < log then none
  else
    let (bit, fs) ← zFreqs b (maxSym + 2) 4 (2 ^ log) []
    let used := (bit + 7) / 8
    if n < used ∨ maxSym + 1 < fs.length then none else some (zTable log fs, used)

/-! Huffman coding. -/

/-- A decoding table: for every `log` bits, a symbol and how many of the bits are its code. -/
structure ZHuf where
  log : Nat
  rows : Array (Nat × Nat)

/-- The weights of two interleaved states, until the stream is used up. -/
def zWeights (t : ZFse) : Nat → ZBits → Nat → Nat → Option (List Nat)
  | 0, _, _, _ => none
  | fuel + 1, z, a, b =>
    let (sym, n, base) := t.row a
    let z1 := z.skip n
    if z1.left < 0 then some [sym, (t.row b).1]
    else (zWeights t fuel z1 b (base + z.peek n)).map (sym :: ·)

/-- The weights that a tree's description lists, and the bytes it takes. -/
def zTreeWeights (v i n : Nat) : Option (List Nat × Nat) := do
  let head := zBytes v i 1
  if n = 0 then none
  else if 128 ≤ head then
    let k := head - 127
    let used := 1 + (k + 1) / 2
    if n < used then none
    else some ((List.range k).map fun j => zBytes v (i + 1 + j / 2) 1 / (if j % 2 = 0 then 16 else 1) % 16, used)
  else if n < 1 + head then none
  else
    let (t, used) ← zFse v (i + 1) head 6 12
    let z ← zStream v (i + 1 + used) (head - used)
    let a := z.peek t.log
    let z1 := z.skip t.log
    let b := z1.peek t.log
    let z2 := z1.skip t.log
    if z2.left < 0 then none
    else
      let ws ← zWeights t 254 z2 a b
      some (ws, 1 + head)

/-- A power of two. -/
def isPow2 (n : Nat) : Bool := n != 0 && 2 ^ Nat.log2 n == n

/-- The table of a tree whose listed weights are given: the last symbol's weight makes up a power of two. -/
def zTree (ws : List Nat) : Option ZHuf :=
  let sum := (ws.map fun w => if w = 0 then 0 else 2 ^ (w - 1)).sum
  if sum = 0 then none
  else
    let log := Nat.log2 sum + 1
    let rest := 2 ^ log - sum
    if 11 < log ∨ !isPow2 rest ∨ ws.any (log < ·) then none
    else
      let all := ws ++ [Nat.log2 rest + 1]
      let syms := (List.range all.length).zip all
      some ⟨log, ((List.range log).flatMap fun w =>
        (syms.filter fun e => e.2 == w + 1).flatMap fun e => List.replicate (2 ^ w) (e.1, log - w)).toArray⟩

/-- `n` literals of one stream, which they use up. -/
def zLiterals (t : ZHuf) : Nat → ZBits → Array Nat → Option (Array Nat)
  | 0, z, out => if z.left = 0 then some out else none
  | n + 1, z, out =>
    let (sym, k) := t.rows.getD (z.peek t.log) (0, 1)
    if z.left < k then none else zLiterals t n (z.skip k) (out.push sym)

/-! A compressed block. -/

/-- What a frame carries from block to block: where it began in the output, the last three offsets, and the last tables. -/
structure ZFrame where
  start : Nat
  window : Nat
  reps : Nat × Nat × Nat := (1, 4, 8)
  huf : Option ZHuf := none
  ll : Option ZFse := none
  off : Option ZFse := none
  ml : Option ZFse := none

/-- The literals section of a block of `n` bytes at byte `i`: the literals, the tree in force, and the bytes it takes. -/
def zLiteralSection (v i n maxLits : Nat) (f : ZFrame) : Option (Array Nat × Option ZHuf × Nat) := do
  let head := zBytes v i 5
  let kind := head % 4
  let form := head / 4 % 4
  if n = 0 then none
  else if kind ≤ 1 then
    let (used, size) := if form % 2 = 0 then (1, head / 8 % 32)
      else if form = 1 then (2, head / 16 % 2 ^ 12) else (3, head / 16 % 2 ^ 20)
    let total := used + (if kind = 0 then size else 1)
    if n < total ∨ maxLits < size then none
    else some ((List.range size).foldl
      (fun a j => a.push (zBytes v (i + used + (if kind = 0 then j else 0)) 1)) #[], f.huf, total)
  else
    let (used, w) := if form ≤ 1 then (3, 10) else if form = 2 then (4, 14) else (5, 18)
    let size := head / 16 % 2 ^ w
    let comp := head / 2 ^ (4 + w) % 2 ^ w
    if n < used + comp ∨ maxLits < size then none
    else
      let (t, tree) ← if kind = 2 then do
          let (ws, k) ← zTreeWeights v (i + used) comp
          let t ← zTree ws
          some (t, k)
        else f.huf.map fun t => (t, 0)
      let at' := i + used + tree
      let room := comp - tree
      if form = 0 then
        let z ← zStream v at' room
        let a ← zLiterals t size z #[]
        some (a, some t, used + comp)
      else
        let s1 := zBytes v at' 2
        let s2 := zBytes v (at' + 2) 2
        let s3 := zBytes v (at' + 4) 2
        let each := (size + 3) / 4
        if room < 6 + s1 + s2 + s3 ∨ size < 3 * each then none
        else
          let z1 ← zStream v (at' + 6) s1
          let z2 ← zStream v (at' + 6 + s1) s2
          let z3 ← zStream v (at' + 6 + s1 + s2) s3
          let z4 ← zStream v (at' + 6 + s1 + s2 + s3) (room - 6 - s1 - s2 - s3)
          let a1 ← zLiterals t each z1 #[]
          let a2 ← zLiterals t each z2 a1
          let a3 ← zLiterals t each z3 a2
          let a4 ← zLiterals t (size - 3 * each) z4 a3
          some (a4, some t, used + comp)

/-- Extra bits of the literals length codes from 16 on, and of the match length codes from 32 on. -/
def zLlExtra : List Nat := [1, 1, 1, 1, 2, 2, 3, 3, 4, 6, 7, 8, 9, 10, 11, 12, 13, 14, 15, 16]
def zMlExtra : List Nat := [1, 1, 1, 1, 2, 2, 3, 3, 4, 4, 5, 7, 8, 9, 10, 11, 12, 13, 14, 15, 16]

/-- The base and the extra bits of a length code: the first `plain` codes have none, and each base follows the last range. -/
def zCode (plain least : Nat) (extra : List Nat) (c : Nat) : Nat × Nat :=
  if c < plain then (least + c, 0)
  else (least + plain + ((extra.take (c - plain)).map (2 ^ ·)).sum, extra.getD (c - plain) 0)

/-- The predefined tables. -/
def zLlDefault : ZFse :=
  zTable 6 ([4, 3] ++ List.replicate 11 2 ++ [1, 1, 1] ++ List.replicate 9 2 ++ [3, 2] ++ List.replicate 5 1 ++ List.replicate 4 (-1))
def zMlDefault : ZFse :=
  zTable 6 ([1, 4, 3] ++ List.replicate 6 2 ++ List.replicate 37 1 ++ List.replicate 7 (-1))
def zOffDefault : ZFse :=
  zTable 5 (List.replicate 6 1 ++ [2, 2, 2] ++ List.replicate 15 1 ++ List.replicate 5 (-1))

/-- The table that a mode gives, and the bytes it takes. -/
def zModeTable (v i n mode maxLog maxSym : Nat) (default' : ZFse) (last : Option ZFse) : Option (ZFse × Nat) :=
  match mode with
  | 0 => some (default', 0)
  | 1 => if n = 0 ∨ maxSym < zBytes v i 1 then none else some (.single (zBytes v i 1), 1)
  | 2 => zFse v i n maxLog maxSym
  | _ => last.map fun t => (t, 0)

/-- The offset that an offset value means after `ll` literals, and the last offsets after it. -/
def zOffset (reps : Nat × Nat × Nat) (value ll : Nat) : Nat × (Nat × Nat × Nat) :=
  let (a, b, c) := reps
  if 3 < value then (value - 3, value - 3, a, b)
  else
    match value - 1 + (if ll = 0 then 1 else 0) with
    | 0 => (a, a, b, c)
    | 1 => (b, b, a, c)
    | 2 => (c, c, a, b)
    | _ => (a - 1, a - 1, a, b)

/-- Copy `n` bytes from `d` back. -/
def zCopy (d : Nat) : Nat → Array Nat → Array Nat
  | 0, out => out
  | n + 1, out => zCopy d n (out.push (out.getD (out.size - d) 0))

/-- Append literals. -/
def zTake (lits : Array Nat) (at' n : Nat) (out : Array Nat) : Array Nat :=
  (List.range n).foldl (fun o j => o.push (lits.getD (at' + j) 0)) out

/-- The sequences of a block, in the states of its three tables: literals, then a match, each; `at'` is the next literal. -/
def zSequences (f : ZFrame) (ll off ml : ZFse) (lits : Array Nat) :
    Nat → ZBits → Nat → Nat → Nat → Nat → Nat × Nat × Nat → Array Nat → Option (Array Nat × Nat × (Nat × Nat × Nat))
  | 0, z, _, _, _, at', reps, out => if z.left = 0 then some (out, at', reps) else none
  | n + 1, z, sl, so, sm, at', reps, out =>
    let (oc, ob, onext) := off.row so
    let (lc, lb, lnext) := ll.row sl
    let (mc, mb, mnext) := ml.row sm
    let value := 2 ^ oc + z.peek oc
    let z1 := z.skip oc
    let (mbase, mx) := zCode 32 3 zMlExtra mc
    let mlen := mbase + z1.peek mx
    let z2 := z1.skip mx
    let (lbase, lx) := zCode 16 0 zLlExtra lc
    let llen := lbase + z2.peek lx
    let z3 := z2.skip lx
    let (d, reps') := zOffset reps value llen
    let out1 := zTake lits at' llen out
    if z3.left < 0 ∨ lits.size < at' + llen ∨ d = 0 ∨ out1.size - f.start < d ∨ f.window < d then none
    else
      let out2 := zCopy d mlen out1
      if n = 0 then zSequences f ll off ml lits n z3 sl so sm (at' + llen) reps' out2
      else
        let z4 := z3.skip lb
        let z5 := z4.skip mb
        let z6 := z5.skip ob
        if z6.left < 0 then none
        else zSequences f ll off ml lits n z6 (lnext + z3.peek lb) (onext + z5.peek ob) (mnext + z4.peek mb) (at' + llen)
          reps' out2

/-- The number of sequences that a section's head gives, and the bytes it takes. -/
def zCount (v i n : Nat) : Option (Nat × Nat) :=
  let b := zBytes v i 1
  if n = 0 then none
  else if b < 128 then some (b, 1)
  else if b < 255 then (if n < 2 then none else some ((b - 128) * 256 + zBytes v (i + 1) 1, 2))
  else if n < 3 then none
  else some (zBytes v (i + 1) 2 + 0x7F00, 3)

/-- A compressed block of `n` bytes at byte `i`, which gives at most `most` bytes. -/
def zCompressed (v i n most : Nat) (f : ZFrame) (out : Array Nat) : Option (Array Nat × ZFrame) := do
  let (lits, huf, used) ← zLiteralSection v i n most f
  let f1 := { f with huf := huf }
  let (count, k) ← zCount v (i + used) (n - used)
  let p := used + k
  if count = 0 then (if p = n then some (zTake lits 0 lits.size out, f1) else none)
  else
    let modes := zBytes v (i + p) 1
    if n ≤ p ∨ modes % 4 ≠ 0 then none
    else
      let p0 := p + 1
      let (ll, n1) ← zModeTable v (i + p0) (n - p0) (modes / 64) 9 35 zLlDefault f.ll
      let p1 := p0 + n1
      let (off, n2) ← zModeTable v (i + p1) (n - p1) (modes / 16 % 4) 8 31 zOffDefault f.off
      let p2 := p1 + n2
      let (ml, n3) ← zModeTable v (i + p2) (n - p2) (modes / 4 % 4) 9 52 zMlDefault f.ml
      let p3 := p2 + n3
      let z ← zStream v (i + p3) (n - p3)
      let z1 := z.skip ll.log
      let z2 := z1.skip off.log
      let z3 := z2.skip ml.log
      if z3.left < 0 then none
      else
        let (out1, at', reps) ← zSequences f1 ll off ml lits count z3 (z.peek ll.log) (z1.peek off.log) (z2.peek ml.log) 0
          f.reps out
        let out2 := zTake lits at' (lits.size - at') out1
        if most < out2.size - out.size then none
        else some (out2, { f1 with reps := reps, ll := some ll, off := some off, ml := some ml })

/-! Frames. -/

/-- The blocks of a frame from byte `i` on, each of at most `most` bytes: the output, and where the frame's blocks end. -/
def zBlocks (v n most : Nat) : Nat → Nat → ZFrame → Array Nat → Array Nat × Option Nat
  | 0, _, _, out => (out, none)
  | fuel + 1, i, f, out =>
    let head := zBytes v i 3
    let size := head / 8
    let kind := head / 2 % 4
    let held := if kind = 1 then 1 else size
    if n < i + 3 + held ∨ most < size then (out, none)
    else
      let next := i + 3 + held
      let block : Option (Array Nat × ZFrame) :=
        match kind with
        | 0 => some ((List.range size).foldl (fun a j => a.push (zBytes v (i + 3 + j) 1)) out, f)
        | 1 => some ((List.range size).foldl (fun a _ => a.push (zBytes v (i + 3) 1)) out, f)
        | 2 => zCompressed v (i + 3) size most f out
        | _ => none
      match block with
      | none => (out, none)
      | some (out1, f1) => if head % 2 = 1 then (out1, some next) else zBlocks v n most fuel next f1 out1

/-- A frame's header after its magic number: its window, its content's size if it is given, whether a checksum follows, and
the bytes it takes. -/
def zHeader (v i n : Nat) : Option (Nat × Option Nat × Bool × Nat) :=
  let d := zBytes v i 1
  let single := d / 32 % 2 = 1
  let wd := if single then 0 else 1
  let dict := [0, 1, 2, 4].getD (d % 4) 0
  let size := [if single then 1 else 0, 2, 4, 8].getD (d / 64) 0
  let used := 1 + wd + dict + size
  let content := zBytes v (i + 1 + wd + dict) size + (if size = 2 then 256 else 0)
  let w := zBytes v (i + 1) 1
  let window := if single then content else 2 ^ (10 + w / 8) + 2 ^ (10 + w / 8) / 8 * (w % 8)
  if n < i + used ∨ d / 8 % 2 = 1 ∨ zBytes v (i + 1 + wd) dict ≠ 0 ∨ 2 ^ 20 < window then none
  else some (window, if size = 0 then none else some content, d / 4 % 2 = 1, used)

/-- The frames from byte `i` on: the output, and whether decoding stopped at a frame that is not wholly decoded (R308). -/
def zFrames (v n : Nat) : Nat → Nat → Array Nat → Array Nat × Bool
  | 0, _, out => (out, true)
  | fuel + 1, i, out =>
    if i = n then (out, false)
    else if n < i + 4 then (out, true)
    else if zBytes v i 4 / 16 = 0x184D2A5 then
      let next := i + 8 + zBytes v (i + 4) 4
      if n < next then (out, true) else zFrames v n fuel next out
    else if zBytes v i 4 = 0xFD2FB528 then
      match zHeader v (i + 4) n with
      | none => (out, true)
      | some (window, content, sum, used) =>
        match zBlocks v n (min window 131072) n (i + 4 + used) { start := out.size, window := window } out with
        | (out1, none) => (out1, true)
        | (out1, some e) =>
          let next := e + (if sum then 4 else 0)
          let whole := match content with | some c => out1.size - out.size == c | none => true
          if n < next ∨ !whole then (out1, true)
          else zFrames v n fuel next out1
    else (out, true)

/-- What `n` bytes of frames expand to, as a number, its length, and whether decoding stopped early (R308). -/
def zstdExpand (n v : Nat) : Nat × Nat × Bool :=
  let (out, bad) := zFrames v n (n + 1) 0 #[]
  (out.foldr (fun b a => b + 256 * a) 0, out.size, bad)

end Sys2Proof.Machine
end

