-- ==== Sys2Proof/Machine/Cards.lean ====
section
/-!
DEFINITION. Posting cards, waiting for them, the local kinds and retirement (spec/13 R287 to R312; spec/17 R366, R367).
-/
namespace Sys2Proof.Machine

/-! The checks of CPOST on the card's words (R287, R288, R303 to R306, R366 to R371, R398). -/

/-- Element width of a ZB width code (R303). -/
def zbWidth (code : Nat) : Nat := 4 * 2 ^ code

/-- The fields common to every kind (R287). -/
def cardCommonOk (l : BitVec 512) : Bool :=
  cardBits l 0 30 2 == 0 && cardCrcm l != 3 && cardBits l 7 56 8 == 0 && (cardCren l || cardCrec l == 0) &&
    (List.range 4).all fun i => if cardPv l i then cardPred l i / 16 % 16 == 0 else cardPred l i == 0

/-- The local kinds (R287, R303 to R306, Table 77). OPT[9:2] of a CRC card must be zero: Table 76 gives it by kind, and no rule
gives that kind a meaning of it, so a set bit raises ILLOP, a DESIGN CHOICE (log 24). -/
def cardLocalOk (l : BitVec 512) : Bool :=
  let opt := cardOptHi l
  let cd := cardCodec l
  (cardScope l ≤ 3 || cardScope l == 5) && cardCirc l == 0 && cardBits l 6 56 8 == 0 && cd ≤ 2 &&
    match cardKind l with
    | 1 => cardBits l 6 32 24 == 0 && (cardCrcm l == 2 || cardBits l 6 0 32 == 0) && opt / 8 == 0 &&
        (if cd = 2 then opt ≤ 4 && cardLen l % 512 == 0 else opt == 0) && (cd != 0 || cardDlen l == cardLen l)
    | 2 => opt == 0 && cd == 0 && cardCrcm l != 2 && cardLen l == 0 && cardSrc l == 0
    | 3 => cd == 0 && opt % 16 ≤ 5 && opt / 16 == 0 &&
        (opt % 16 < 4 || (cardLen l == cardDlen l && cardLen l % 512 == 0))
    | 4 => cardBits l 6 32 24 == 0 && (cardCrcm l == 2 || cardBits l 6 0 32 == 0) && opt == 0 && cd == 0 &&
        cardDlen l == 0 && cardDst l == 0 && (cardCrcm l == 1 || cardCrcm l == 2)
    | _ => false

/-- The element type that OPT[9:2] of an RREDUCE names, if accepted (R369). -/
def reduceOpt? (opt : Nat) : Option ElemType :=
  let t := ElemType.ofCode (opt / 16 % 16)
  if opt % 16 ≤ 2 then
    match t with
    | .i32 | .b32 | .i64 | .f16 | .bf16 | .f32 | .f64 => some t
    | _ => none
  else none

/-- The element type that RREDUCE names, if accepted (R369). -/
def reduceType? (l : BitVec 512) : Option ElemType := reduceOpt? (cardOptHi l)

/-- The fetch-and-op that RFETCH names, if accepted (R370). -/
def rfetchOp? (l : BitVec 512) : Option Aop :=
  match cardOptHi l % 16 with
  | 0 => some .add | 1 => some .min | 2 => some .max | 3 => some .minz | 4 => some .maxz
  | 5 => some .and | 6 => some .or | 7 => some .xor | 8 => some .swap | 10 => some .fadd | _ => none

/-- Bytes of an RFETCH. -/
def rfetchBytes (l : BitVec 512) : Nat := if cardOptHi l / 16 % 2 = 1 then 8 else 4

/-- The remote kinds (R366 to R371, Tables 101 and 117). -/
def cardRemoteOk (l : BitVec 512) : Bool :=
  let k := cardKind l
  let hi := cardOptHi l
  let cd := cardCodec l
  let sc := cardScope l
  let collective := cardBits l 6 21 11 == 0 && (cardBits l 6 0 16 != 0 || cardBits l 6 16 48 == 0)
  (3 ≤ sc && sc ≤ 5) && (cd == 0 || (k == 0x10 && cd ≤ 2)) &&
    (cardCrcm l == 0 || (cardCrcm l == 1 && (k == 0x10 || k == 0x11))) &&
    match k with
    | 0x10 => !cardSwin l && collective &&
        hi == 0 && (cd != 2 || cardLen l % 512 == 0) && (cd != 0 || cardDlen l == cardLen l)
    | 0x11 => !cardDwin l && collective && hi == 0 && cardDlen l == cardLen l
    | 0x12 => !cardDwin l && collective && cardDlen l == cardLen l &&
        (match reduceType? l with | some t => cardLen l % (t.width / 8) == 0 | none => false)
    | 0x13 => !cardSwin l && !cardDwin l && (rfetchOp? l).isSome && hi / 32 == 0 && cardLen l == 0 && cardDlen l == 0 &&
        cardCren l
    | 0x14 => !cardSwin l && !cardDwin l && hi / 2 == 0 && cardLen l == 0 && cardDlen l == 0
    | 0x15 => !cardDwin l && hi != 0 && cardCren l && !cardStrict l && cardBits l 6 56 8 == 0 && cardDlen l != 0 &&
        cardLen l % dispRec l == 0 && 1 ≤ cardLen l / dispRec l && cardLen l / dispRec l ≤ 64
    | _ => false

/-- A window region that leaves the window, with the first line outside (R22, R288). -/
def windowOver (c : Context) (l : BitVec 512) : Option Nat :=
  let lim := 64 * c.bind.window * 512
  let beyond (on : Bool) (a n : Nat) : Option Nat := if on && n != 0 && lim < a + n then some (max a lim / 512) else none
  match beyond (cardSwin l) (cardSrc l) (cardLen l) with
  | some x => some x
  | none => beyond (cardDwin l) (cardDst l) (cardDlen l)

/-- ALIGN at CPOST (R292, R369 to R371, R398): CREC, AUX, then what a remote kind needs. -/
def cardAlign (l : BitVec 512) : Option Nat :=
  let k := cardKind l
  if cardCrec l % 64 ≠ 0 then some (cardCrec l)
  else if (k = 2 ∨ k = 3) ∧ cardAux l % 64 ≠ 0 then some (cardAux l)
  else none

/-- ALIGN of the remote kinds. -/
def cardRemoteAlign (l : BitVec 512) : Option Nat :=
  match cardKind l with
  | 0x12 =>
    let w := (match reduceType? l with | some t => t.width | none => 8) / 8
    if cardSrc l % w ≠ 0 ∧ (cardDst l % w = 0 ∨ cardSrc l < cardDst l) then
      some (if cardSwin l then cardSrc l / 512 else cardSrc l)
    else if cardDst l % w ≠ 0 then some (cardDst l)
    else none
  | 0x13 => if cardDst l % rfetchBytes l ≠ 0 then some (cardDst l) else none
  | 0x14 => if cardDst l % 8 ≠ 0 then some (cardDst l) else none
  | 0x15 => if cardDst l % 64 ≠ 0 then some (cardDst l) else if cardAux l % 8 ≠ 0 then some (cardAux l) else none
  | _ => none

/-- The far die of a remote card posted on a die: the other endpoint of its circuit (R367). -/
def farDie? (s : State) (lid die c : Nat) : Option Nat :=
  if holds s lid c then
    match (s.circuit c).est with
    | none => none
    | some o =>
      if o.x then (if o.da.toNat = die then some 16 else none)
      else if o.da.toNat = die then some o.db.toNat
      else if o.db.toNat = die then some o.da.toNat
      else none
  else none

/-- Whether the posting die is an endpoint of a held handle that is not established: of an EST of the program (R367). -/
def mayEnd (s : State) (lid die c : Nat) : Bool :=
  holds s lid c && (s.circuit c).est.isNone &&
    match s.launch? lid with
    | some l => l.prog.any fun p => (estsOf (p.ops.filterMap decodeSeqOp)).any fun o =>
        o.c.toNat == c && (o.da.toNat == die || !o.x && o.db.toNat == die)
    | none => false

/-- Whether a circuit is external (R391). -/
def isExternal (s : State) (c : Nat) : Bool :=
  match (s.circuit c).est with
  | some o => o.x
  | none => false

/-- The checks of R292 and R367 before any wait. -/
def cardCheck (s : State) (c : Context) (pos : Nat) (l : BitVec 512) : Res Unit := do
  let remote := 0x10 ≤ cardKind l && cardKind l ≤ 0x15
  check (cardCommonOk l) .illop
  check ((remote || cardLocalOk l) && !selfMeets (cardRegions l)) .illop
  match windowOver c l with
  | some x => raise .prot x
  | none => .ok ()
  match cardAlign l with
  | some a => raise .align a
  | none => .ok ()
  if remote then do
    check (cardRemoteOk l) .illop
    match cardRemoteAlign l with
    | some a => raise .align a
    | none => .ok ()
    let k := cardCirc l
    check ((farDie? s c.bind.lid (dieOf pos) k).isSome || mayEnd s c.bind.lid (dieOf pos) k) .illop
    check (!(isExternal s k && cardScope l == 3)) .illop
    if (s.circuit k).state = .live then .ok ()
    else .error (.trap { code := .nocirc, circ := k })
  else .ok ()

/-! Posting (R291, R292, R295). -/

/-- A predecessor as chain and full sequence number (R292). -/
def fullPred (c : Context) (l : BitVec 512) (i : Nat) : Option (Nat × Nat) :=
  if cardPv l i then
    let f := cardPred l i
    let q := f % 16
    let tail := (c.chain q).tail
    some (q, (tail + 2 ^ 32 - (tail % 2 ^ 24 + 2 ^ 24 - f / 256) % 2 ^ 24) % 2 ^ 32)
  else none

/-- The cards named by predecessors, transitively (R295). -/
def ancestors (s : State) (lid wid : Nat) : Nat → List (Nat × Nat) → List Nat
  | 0, _ => []
  | fuel + 1, ps => ps.flatMap fun p =>
      match findCard? s lid wid p.1 p.2 with
      | some (i, k) => i :: ancestors s lid wid fuel k.preds
      | none => []

/-- A card of the same launch and die that conflicts and is no ancestor (R295). -/
def footprintHit (s : State) (k : Card) : Bool :=
  let anc := ancestors s k.lid k.wid (s.cards.length + 1) k.preds
  s.cards.any fun e => e.2.lid == k.lid && e.2.die == k.die && e.2.inFlight && !anc.contains e.1 &&
    conflicts (e.2.wid == k.wid) (cardRegions e.2.line) (cardRegions k.line)

/-- The link of a linked chain's segment, when LPOS stands at slot 63 (R291). -/
def nextSlot (s : State) (c : Context) (w : Who) (q : Chain) (n : Nat) : Res (Nat × Nat) :=
  if q.ring then .ok (q.base + 64 * (n % q.rsize), 0)
  else if q.lpos % 4096 = 4032 then do
    let (v, _) ← readMem s w c.r.gver notWs 8 q.lpos 8
    check (v != 0 && v % 4096 == 0 && v / 2 ^ 56 == 0) .page q.lpos
    .ok (v, v + 64)
  else .ok (q.lpos, q.lpos + 64)

/-- CPOST (R292). The waits for earlier accesses are made where it issues. -/
def execCpost (o : CpostOp) (s : State) : HO :=
  runS s fun e c => do
    let qn := o.q.toNat
    let q := c.chain qn
    check q.en .illop
    if q.failed then .error (.trap (chainTrap s c.bind.lid c.bind.wid qn q none)) else .ok ()
    let n ← c.srcLineIn e o.l
    let l0 : BitVec 512 := (c.rdL n).setWidth 512
    cardCheck s c s.cur l0
    await (!requestsOut s c.bind.lid c.bind.wid)
    await (!q.ring || (q.tail + 1 + 2 ^ 32 - q.done) % 2 ^ 32 ≤ q.rsize)
    await (scoreUsed s (coreOf s.cur) + (cardRegions l0).length ≤ 32)
    let seq := (q.tail + 1) % 2 ^ 32
    let line := (l0 &&& ~~~(BitVec.ofNat 512 ((2 ^ 32 - 1) * 2 ^ 32))) ||| BitVec.ofNat 512 (seq * 2 ^ 32)
    let k : Card :=
      { line := line, lid := c.bind.lid, wid := c.bind.wid, die := dieOf s.cur, core := coreOf s.cur
        window := c.bind.window, det := c.bind.det, q := qn, seq := seq
        preds := (List.range 4).filterMap (fullPred c l0), ext := cardRemote l0 && isExternal s (cardCirc l0)
        srseed := c.r.srseed }
    if c.bind.det ∧ footprintHit s k then .error (.trap { code := .footprint, chain := qn }) else .ok ()
    let w := c.who s.cur
    let (slot, lpos) ← nextSlot s c w q seq
    let s1 ← writeMem s w c.r.gver plainW 64 slot 64 line.toNat
    .ok ({ s1 with
      cards := put s1.cards s1.m.nextCard k
      m := { s1.m with nextCard := s1.m.nextCard + 1 } }.setCtx s.cur
      ((c.setChain qn { q with tail := seq, lpos := if q.ring then q.lpos else lpos }).advance e))

/-- WAITSEQ (R301). -/
def execWaitseq (o : WaitseqOp) (s : State) : HO :=
  runC s fun e c => do
    let qn := o.q.toNat
    let q := c.chain qn
    let t := (c.rdS e o.a).toNat % 2 ^ 32
    check q.en .illop
    check (!(0 < (t + 2 ^ 32 - q.tail) % 2 ^ 32 && (t + 2 ^ 32 - q.tail) % 2 ^ 32 < 2 ^ 31)) .illop
    if seqLe t q.done then .ok (c.advance e)
    else if q.failed && seqLe q.failedSeq t then .error (.trap (chainTrap s c.bind.lid c.bind.wid qn q none))
    else hold

/-- SEQRD (R301). -/
def execSeqrd (o : SeqrdOp) (s : State) : HO :=
  runC s fun e c =>
    let q := c.chain o.q.toNat
    .ok ((c.wrS o.d (BitVec.ofNat 64 (q.done + if q.en then q.ecode * 2 ^ 32 else 0))).advance e)

/-! Starting (R293, R294). -/

/-- Whether a card runs on a transform engine. -/
def usesXform (k : Card) : Bool := cardKind k.line == 3

/-- The engines a card may use (R293): a remote one the two copy engines beside its circuit's port. -/
def enginesFor (s : State) (k : Card) : List Nat :=
  if usesXform k then List.range 4
  else if cardRemote k.line then
    match (s.circuit (cardCirc k.line)).est with
    | some o =>
      let port := if o.da.toNat = k.die then o.pa.toNat else o.pb.toNat
      [2 * (port / 2), 2 * (port / 2) + 1]
    | none => []
  else List.range 8

/-- The lowest-numbered free engine that a card may use. -/
def freeEngine? (s : State) (k : Card) : Option Nat :=
  (enginesFor s k).find? fun n => !(s.cards.any fun e =>
    e.2.die == k.die && e.2.st == .running && usesXform e.2 == usesXform k && e.2.engine == n)

/-- The circuit of a remote card carries its traffic (R345, R354). -/
def circuitRuns (s : State) (k : Card) : Bool := !cardRemote k.line || carries s (cardCirc k.line)

/-- Whether a card may start, apart from the engine (R293, R294, R300). -/
def startable (s : State) (id : Nat) (k : Card) : Bool :=
  k.st == .posted && circuitRuns s k &&
    !behindFailed s k &&
    k.preds.all (predDone s k) &&
    s.cards.all fun e => id ≤ e.1 ||
      (!(e.2.of k.lid k.wid && e.2.q == k.q && e.2.st == .posted) &&
        (k.det || !(e.2.lid == k.lid && e.2.die == k.die && e.2.inFlight &&
          conflicts (e.2.wid == k.wid) (cardRegions e.2.line) (cardRegions k.line))))

/-- The engine a card starts on now: cards are considered in post order (R293). -/
def startEngine? (s : State) (id : Nat) (k : Card) : Option Nat :=
  if startable s id k && s.cards.all fun e => id ≤ e.1 || e.2.die != k.die || usesXform e.2 != usesXform k ||
      !startable s e.1 e.2 || (freeEngine? s e.2).isNone || (enginesFor s e.2).all fun n => !(enginesFor s k).contains n
  then freeEngine? s k
  else none

/-! What a card touches: its window, or parts of memory. -/

/-- The accesses of a card. -/
def cardWho (s : State) (k : Card) : Who :=
  ⟨k.die, k.core, k.lid, match s.launch? k.lid with | some l => l.root | none => 0⟩

/-- The status of a fault that a card meets (Table 81). -/
def faultStatus : FaultCode → Nat
  | .page => 0x10 | .prot => 0x11 | .align => 0x12 | .guard => 0x13 | .crc => 0x14 | .qlen => 0x15 | .eccu => 0x16
  | .wstore => 0x17 | .illop => 0x18 | .nocirc => 0x19 | _ => 0x11

/-- Whether a status reports FADDR (Table 80). -/
def statusAddr (st a : Nat) : Nat := if (0x10 ≤ st ∧ st ≤ 0x13) ∨ st = 0x16 then a else 0

/-- The lowest address of a region of `len` bytes at `addr` that lies in a guarded page and in a block that the region does not
cover whole (R312). -/
def guardedPart (addr len : Nat) : List Part → Option Nat
  | [] => none
  | p :: r =>
    let last := (addr + len) / 512 * 512
    if p.t.grd && (p.t.va == addr && addr % 512 != 0) then some addr
    else if p.t.grd && (addr + len) % 512 != 0 && last < p.t.va + p.len then some (max p.t.va last)
    else guardedPart addr len r

/-- The first weight-store part that is not open to the launch (R237). -/
def closedPart (s : State) (lid : Nat) : List Part → Option Nat
  | [] => none
  | p :: r => if p.t.ws && (find? s.wsOpen (lid * 16 + p.t.home)).isNone then some p.t.va else closedPart s lid r

/-- The rules of a write region (R237, R253, R312). -/
def writeRules (s : State) (lid addr len : Nat) (ps : List Part) : Res Unit := do
  match guardedPart addr len ps with
  | some a => raise .prot a
  | none => .ok ()
  match closedPart s lid ps with
  | some a => raise .wstore a
  | none => .ok ()

/-- The checks of a region of memory before any byte is written (R299, R300): `get` translates a part of it, and the fault is
the one at the lowest address. -/
def regionSide (s : State) (lid : Nat) (get : Nat → Res (List Part)) (write : Bool) (addr len : Nat) : Res Side :=
  match get len with
  | .ok ps => do
    if write then writeRules s lid addr len ps else .ok ()
    .ok { addr := addr, len := len, parts := ps }
  | .error (.trap t) =>
    match (if write && addr < t.addr then get (t.addr - addr) else .ok []) with
    | .ok ps =>
      match guardedPart addr len ps with
      | some a => raise .prot a
      | none => .error (.trap t)
    | .error _ => .error (.trap t)
  | .error .wait => hold

/-- The checks of a local region (R300). -/
def localSide (s : State) (k : Card) (write window : Bool) (addr len : Nat) : Res Side :=
  if window then .ok { window := true, addr := addr, len := len }
  else
    regionSide s k.lid (fun n => accessCheck s (cardWho s k) (if write then .write else .read) (fun _ => true) 1 addr n) write
      addr len

/-- Whether the accesses of a started card to some bytes of a local region go on now: they are held while a circuit recovers or
a GAP silences it, and while a channel is out of service; the system die completes those of a circuit that is lost (R300,
R379). -/
def sideOpen (s : State) (k : Card) (ps : List Part) : Bool :=
  ((ps.flatMap partHomes).all fun h =>
    (reaches s k.lid k.die h.2 && !silenced s k.lid k.die h.2) || circuitGone s (pairOf s k.lid k.die h.2)) && partsReady s ps

/-- The address that a fault reports in FADDR; beyond every address when its status reports none (R299). -/
def Trap.place (t : Trap) : Nat :=
  if 0x10 ≤ faultStatus t.code ∧ faultStatus t.code ≤ 0x13 ∨ t.code = .eccu then t.addr else 2 ^ 64

/-- Of the faults of two regions the one at the lower address (R299). -/
def lowerStop : Stop → Stop → Stop
  | .trap t, .trap u => if t.place ≤ u.place then .trap t else .trap u
  | .wait, _ | _, .wait => .wait

/-- Both regions, or the fault at the lowest address. -/
def bothSides {α β : Type} (a : Res α) (b : Res β) : Res (α × β) :=
  match a, b with
  | .ok x, .ok y => .ok (x, y)
  | .error e, .ok _ | .ok _, .error e => .error e
  | .error e, .error f => .error (lowerStop e f)

/-- What the checks of a card's start answer: whether CREC failed its own, and the fault at the lowest address (R299, R300). -/
def startFault {α : Type} (crec : Res Unit) (run : Res α) : Bool × Res α :=
  match crec, run with
  | .error .wait, _ => (false, hold)
  | .error (.trap _), .error .wait => (false, hold)
  | .error (.trap t), .ok _ => (true, .error (.trap t))
  | .error (.trap t), .error e => (true, .error (lowerStop e (.trap t)))
  | .ok (), r => (false, r)

/-- The check of CREC (R300). -/
def crecCheck (s : State) (k : Card) : Res Unit :=
  if cardCren k.line then do
    let _ ← accessCheck s (cardWho s k) .write plainW 64 (cardCrec k.line) 64
    .ok ()
  else .ok ()

/-- The part of an access from byte `i` on, `n` bytes. -/
def slice : List Part → Nat → Nat → List Part
  | [], _, _ => []
  | p :: r, i, n =>
    if n = 0 then []
    else if p.len ≤ i then slice r (i - p.len) n
    else
      let m := min n (p.len - i)
      ⟨{ p.t with va := p.t.va + i, pa := p.t.pa + i }, m⟩ :: slice r 0 (n - m)

/-- Window bytes as a number. -/
def windowBytes (c : Context) (a : Nat) : Nat → Nat
  | 0 => 0
  | n + 1 => ((c.rdL (a / 512)).toNat / 2 ^ (8 * (a % 512))) % 256 + 256 * windowBytes c (a + 1) n

/-- Window bytes written from a number. -/
def putWindow (c : Context) (a : Nat) : Nat → Nat → Context
  | 0, _ => c
  | n + 1, v =>
    let sh := 8 * (a % 512)
    let l := c.rdL (a / 512)
    let b : Line := BitVec.ofNat 4096 (255 * 2 ^ sh)
    putWindow (c.wrL (a / 512) ((l &&& ~~~b) ||| BitVec.ofNat 4096 (v % 256 * 2 ^ sh))) (a + 1) n (v / 256)

/-- Read bytes of a side. -/
def sideRead (s : State) (k : Card) (d : Side) (i n : Nat) : Nat :=
  match d.far with
  | some b => farBytes s (b + i) n
  | none =>
    if d.window then
      match taskCtx? s k.lid k.wid with
      | some c => windowBytes c (d.addr + i) n
      | none => 0
    else readParts s.mem (slice d.parts i n)

/-- Write bytes of a side, and no tag. -/
def sideStore (s : State) (k : Card) (d : Side) (i n v : Nat) : State :=
  match d.far with
  | some b => farPut s (b + i) n v
  | none =>
    if d.window then
      updTask s k.lid k.wid fun c =>
        c.outside ((List.range (n / 512 + 2)).map ((d.addr + i) / 512 + ·) |>.filter (512 * · < d.addr + i + n))
          (putWindow c (d.addr + i) n v)
    else s.store (slice d.parts i n) v

/-- Write bytes of a side, with the tags of guarded blocks (R312). -/
def sideWrite (s : State) (k : Card) (d : Side) (i n v : Nat) : State :=
  writeTags (sideStore s k d i n v) (cardVer k.line) (slice d.parts i n)

/-- The first uncorrectable window line among some bytes of the posting task's window (R324). -/
def badLine (s : State) (k : Card) (a n : Nat) : Option Nat :=
  match taskCtx? s k.lid k.wid with
  | some c => least ((c.own.filterMap fun u => match u with | .line m => some m | _ => none).filter fun m =>
      rangesMeet a n (512 * m) 512)
  | none => none

/-- GUARD and ECCU over bytes that a card reads (R312, R324). -/
def sideErr (s : State) (k : Card) (d : Side) (i n : Nat) : Res Unit :=
  if d.window then
    match badLine s k (d.addr + i) n with
    | some l => raiseEcc l (coreRes (4 * k.core))
    | none => .ok ()
  else do
    guardCheck s (cardVer k.line) (slice d.parts i n)
    readEcc s (slice d.parts i n)

/-- What bytes of the destination depend on which bytes of the source. -/
structure Dep where
  dst : Nat
  src : Nat
  len : Nat
deriving Repr

/-- The aligned pieces of `w` bytes of a region: offset and length. -/
def alignedPieces (w addr len : Nat) : List (Nat × Nat) :=
  let first := min len (w - addr % w)
  if len = 0 then []
  else (0, first) :: (List.range ((len - first + (w - 1)) / w)).map fun j =>
    (first + w * j, min w (len - first - w * j))

/-- The aligned 512-byte blocks of a region. -/
def blocksOf (addr len : Nat) : List (Nat × Nat) := alignedPieces 512 addr len

/-- The start of the block that holds an offset of a region. -/
def blockStart (addr i : Nat) : Nat := (addr + i) / 512 * 512 - addr

/-- The first failing block in ascending order: where the writing stops, and the fault (R300). -/
def firstFailing (s : State) (k : Card) (src dst : Side) : List Dep → Nat × Option Stop → Nat × Option Stop
  | [], b => b
  | d :: r, b =>
    match sideErr s k src d.src d.len with
    | .ok () => firstFailing s k src dst r b
    | .error e =>
      let at' := blockStart dst.addr d.dst
      firstFailing s k src dst r (if b.2.isNone || at' < b.1 then (at', some e) else b)

/-- A write of less than a whole uncorrectable sector, as the block it stops at (R325). -/
def eccStop (s : State) (k : Card) (dst : Side) : Option (Nat × Stop) :=
  if dst.window then
    let part (a n : Nat) : Option Nat := if n = 0 ∨ n = 512 then none else badLine s k a n
    let stop (a n : Nat) : Option (Nat × Stop) := (part a n).map fun l =>
      (blockStart dst.addr (a - dst.addr), .trap { code := .eccu, addr := l, found := some (coreRes (4 * k.core)) })
    let first := min dst.len (512 - dst.addr % 512)
    let last := (dst.len - first) % 512
    match stop dst.addr first with
    | some x => some x
    | none => stop (dst.addr + dst.len - last) last
  else if s.bad.isEmpty then none
  else
    match writeEcc s dst.parts with
    | .ok () => none
    | .error (.trap t) => some (blockStart dst.addr (t.addr - dst.addr), .trap t)
    | .error .wait => none

/-- What a card produces: the bytes of its destination, the parts of it that it writes (none: the whole of it), what they depend on,
what the reading of a card without a destination has met, and what the record holds. -/
structure Product where
  out : Nat := 0
  runs : Option (List (Nat × Nat)) := none
  deps : List Dep := []
  met : Option Stop := none
  status : Nat := 0
  flags : BitVec 6 := 0
  rlen : Nat := 0
  olen : Nat := 0
  crcIn : Option Nat := none
deriving Repr

/-- The parts of a destination of `len` bytes that a product writes, offset and length. -/
def Product.writes (p : Product) (len : Nat) : List (Nat × Nat) := p.runs.getD [(0, len)]

/-- A part of a region as a region of its own. -/
def Side.part (d : Side) (i n : Nat) : Side :=
  { d with addr := d.addr + i, len := n, parts := slice d.parts i n, far := d.far.map (· + i) }

/-- The first block in which a product writes less than a whole uncorrectable sector (R325). -/
def runsStop (s : State) (k : Card) (dst : Side) (runs : List (Nat × Nat)) : Option (Nat × Stop) :=
  runs.findSome? fun r => (eccStop s k (dst.part r.1 r.2)).map fun x => (blockStart dst.addr (r.1 + x.1), x.2)

/-- A product is written up to a place of its destination. -/
def putProduct (s : State) (k : Card) (dst : Side) (p : Product) (n : Nat) : State :=
  ((p.writes dst.len).filter fun r => r.1 < n).foldl (fun s r =>
    sideWrite s k dst r.1 (min r.2 (n - r.1)) (p.out / 2 ^ (8 * r.1))) s

/-- A card whose accesses are performed, with a status. -/
def performed (s : State) (id : Nat) (f : Card → Card) : State :=
  updCard s id fun k => { f k with st := .running, performed := true }

/-- A card fails on what it has met (R300); an uncorrectable error schedules an assay (R326). -/
def failStop (s : State) (id : Nat) (e : Stop) : State :=
  match e with
  | .wait => s
  | .trap t =>
    let st := faultStatus t.code
    failCard (updCard (s.noteFound t) id fun k => { k with circ := t.circ }) id st 0 (statusAddr st t.addr)

/-- A card fails at its start, or waits (R300). -/
def failStart (s : State) (id eng : Nat) (norec : Bool) (e : Stop) : State :=
  if e = .wait then s else failStop (updCard s id fun k => { k with engine := eng, norec := norec }) id e

/-- Write a product and say how the card ended (R300, R305, R310). Where STRICT makes a status 1 to 3 fail and the CRC differs
too, the spec names no order, and the status is QLEN: a DESIGN CHOICE (log 24). -/
def deliverProduct (s : State) (id eng : Nat) (k : Card) (src dst : Side) (p : Product) : State :=
  let stop := firstFailing s k src dst p.deps (dst.len, p.met)
  let stop2 := match runsStop s k dst (p.writes dst.len) with
    | some (i, e) => if stop.2.isNone || i < stop.1 then (i, some e) else stop
    | none => stop
  let n := min stop2.1 dst.len
  let s1 := putProduct s k dst p n
  match stop2.2 with
  | some e =>
    if e = .wait then s
    else failStop (updCard s1 id fun k => { k with
      engine := eng, rlen := if p.met.isSome then p.rlen else min n p.rlen, olen := n }) id e
  | none =>
    let v := match p.crcIn with | some v => v | none => crc32c dst.len p.out
    let crc := if cardCrcm k.line = 0 then 0 else v
    let st := if p.status ≠ 0 ∧ cardStrict k.line = true then 0x15
      else if cardCrcm k.line = 2 ∧ v ≠ cardBits k.line 6 0 32 then 0x14 else p.status
    let s2 := performed s1 id fun k =>
      { k with engine := eng, status := 0, flags := p.flags, rlen := p.rlen, olen := min p.olen (2 ^ 32 - 1), crc := crc }
    if st ≤ 3 then updCard s2 id fun k => { k with status := st }
    else failCard (updCard s2 id fun k => { k with performed := false }) id st 0 0

/-- Run a local card of a kind: its checks, then its product (R293, R300). -/
def runLocal (s : State) (id kind : Nat) (xop : Option Nat) (make : State → Card → Side → Side → Nat → Res Product) : HO :=
  match find? s.cards id with
  | none => .next s
  | some k =>
    if cardKind k.line != kind || (match xop with | some x => cardOptHi k.line % 16 != x | none => false) then .next s
    else
      match startEngine? s id k with
      | none => .next s
      | some eng =>
        let l := k.line
        let r : Res (Side × Side × Nat) := do
          let (src, aux, dst) ← bothSides
            (localSide s k false (cardSwin l) (cardSrc l) (if kind = 2 then 0 else cardLen l))
            (bothSides (if kind = 2 ∨ kind = 3 then localSide s k false false (cardAux l) 64 else .ok { window := true })
              (localSide s k true (cardDwin l) (cardDst l) (if kind = 4 then 0 else cardDlen l)))
          .ok (src, dst, if aux.window then 0 else readParts s.mem aux.parts)
        let auxErr : Res Unit := if kind = 2 ∨ kind = 3 then do
            let aux ← localSide s k false false (cardAux l) 64
            sideErr s k aux 0 64
          else .ok ()
        match startFault (crecCheck s k) r with
        | (norec, .error e) => .next (failStart s id eng norec e)
        | (_, .ok (src, dst, aux)) =>
          match (do auxErr; make s k src dst aux : Res Product) with
          | .error e => .next (failStart s id eng false e)
          | .ok p => .next (deliverProduct s id eng k src dst p)

/-- A dependency of each destination block on the same bytes of the source. -/
def sameDeps (dst : Side) : List Dep := (blocksOf dst.addr dst.len).map fun b => ⟨b.1, b.1, b.2⟩

/-- The length rule of an expansion (R310). -/
def lengthStatus (malformed : Bool) (olen dlen : Nat) : Nat :=
  if dlen < olen then 2 else if malformed then 3 else if olen < dlen then 1 else 0

/-- The bytes of a number, least significant first. -/
def bytesOf (v : Nat) : Nat → List Byte
  | 0 => []
  | n + 1 => BitVec.ofNat 8 v :: bytesOf (v / 256) n

/-- A number from bytes. -/
def ofBytes : List Byte → Nat
  | [] => 0
  | b :: r => b.toNat + 256 * ofBytes r

/-- Decode or encode each 512-byte position. -/
def eachLine (f : Line → Line) (n v : Nat) : Nat :=
  match n with
  | 0 => 0
  | m + 1 => (f (BitVec.ofNat 4096 v)).toNat + eachLine f m (v / 2 ^ 4096) * 2 ^ 4096

/-- Whether the encoder drops elements at any position (R309). -/
def dropsAny (w : Nat) : Nat → Nat → Bool
  | 0, _ => false
  | n + 1, v => (zbEncode w (BitVec.ofNat 4096 v)).2 || dropsAny w n (v / 2 ^ 4096)

/-- What a copy's codec makes of the source bytes (R303, R308 to R310). Every block of a Zstandard expansion depends on the whole
source, so that GUARD or ECCU anywhere in it fails the first block and nothing is written: a DESIGN CHOICE (log 66), since R300
names no block. -/
def expand (l : BitVec 512) (v : Nat) (dst : Side) : Product :=
  let n := cardLen l
  let dn := cardDlen l
  match cardCodec l with
  | 0 => { out := v, deps := sameDeps dst, rlen := n, olen := n }
  | 1 =>
    let (out, olen, bad) := zstdExpand n v
    { out := out % 2 ^ (8 * dn), deps := [⟨0, 0, n⟩], status := lengthStatus bad olen dn, rlen := n, olen := olen }
  | _ =>
    { out := eachLine (zbDecode (zbWidth (cardOptHi l % 8))) (n / 512) v % 2 ^ (8 * dn)
      deps := (List.range (n / 512)).map fun i => ⟨512 * i, 512 * i, 512⟩
      status := lengthStatus false n dn, rlen := n, olen := n }

/-- COPY (R303). -/
def execCopy (id : Nat) (s : State) : HO :=
  runLocal s id 1 none fun s k src dst _ => .ok (expand k.line (sideRead s k src 0 src.len) dst)

/-- A pattern of 64 bytes repeated over `n` bytes. -/
def repeatBlock (p : Nat) (n : Nat) : Nat :=
  (List.range ((n + 63) / 64)).foldl (fun v i => v + p * 2 ^ (512 * i)) 0 % 2 ^ (8 * n)

/-- FILL (R304). -/
def execFill (id : Nat) (s : State) : HO :=
  runLocal s id 2 none fun _ _ _ dst aux => .ok { out := repeatBlock aux dst.len, olen := dst.len }

/-- The first block of a region that a card cannot read, with its fault (R300, R312, R324). -/
def readStop (s : State) (k : Card) (d : Side) : Option (Nat × Stop) :=
  (blocksOf d.addr d.len).findSome? fun b => match sideErr s k d b.1 b.2 with
    | .ok () => none
    | .error e => some (b.1, e)

/-- CRC (R305): RLEN counts the bytes read before a block that fails (R299). -/
def execCrc (id : Nat) (s : State) : HO :=
  runLocal s id 4 none fun s k src _ _ =>
    .ok (match readStop s k src with
      | some (i, e) => { rlen := i, met := some e }
      | none => { rlen := src.len, crcIn := some (crc32c src.len (sideRead s k src 0 src.len)) })

/-! Transforms (R306, R307). -/

/-- The descriptor (Table 82). -/
structure XDesc where
  stype : ElemType
  dtype : ElemType
  bfmt : Nat
  hen : Bool
  rm : Nat
  rows : Nat
  cols : Nat
  sstr : Nat
  dstr : Nat
  seed : Nat
  bbase : Nat
  cbase : Nat
  stypeCode : Nat
  dtypeCode : Nat
  rest : Nat
deriving Repr

/-- Read a descriptor; `rest` gathers its reserved fields. -/
def xdescOf (v : Nat) : XDesc :=
  let w (k : Nat) := bitsOf v (64 * k) 64
  { stype := .ofCode (bitsOf (w 0) 0 4), dtype := .ofCode (bitsOf (w 0) 4 4), bfmt := bitsOf (w 0) 8 4
    hen := bitsOf (w 0) 12 1 == 1, rm := bitsOf (w 0) 13 3, rows := bitsOf (w 0) 32 32, cols := bitsOf (w 1) 0 32
    sstr := bitsOf (w 2) 0 32, dstr := bitsOf (w 2) 32 32, seed := w 3, bbase := bitsOf (w 4) 0 32
    cbase := bitsOf (w 4) 32 32, stypeCode := bitsOf (w 0) 0 4, dtypeCode := bitsOf (w 0) 4 4
    rest := bitsOf (w 0) 16 16 + bitsOf (w 1) 32 32 + w 5 + w 6 + w 7 }

/-- (n − 1) × str + row, of `n` strided rows of `row` bytes, does not exceed a length (R307). -/
def strided (n str row len : Nat) : Bool := n * str + row ≤ len + str

/-- f16, bf16 or f32. -/
def isHalfSingle (t : ElemType) : Bool := t == .f16 || t == .bf16 || t == .f32

/-- Bytes of a row of elements, and of a row of segments (R307, R251). -/
def rowEls (n : Nat) (t : ElemType) : Nat := n * t.width / 8
def rowSegs (n : Nat) : Nat := n / 256 * 512

/-- The checks of R306 and R307 on a descriptor. HSEED and BBASE of an operation that may rotate, with HEN = 0, and CBASE of one that
may round, with RM other than 101, may be nonzero: that R306 does not count them as unused there is a DESIGN CHOICE (log 66). -/
def xdescOk (xop : Nat) (d : XDesc) (len dlen : Nat) : Bool :=
  d.rest == 0 &&
    match xop with
    | 0 => d.stypeCode == d.dtypeCode && 8 ≤ d.stype.width && d.bfmt == 0 && !d.hen && d.rm == 0 && d.seed == 0 &&
        d.bbase == 0 && d.cbase == 0 && strided d.rows d.sstr (rowEls d.cols d.stype) len &&
        strided d.cols d.dstr (rowEls d.rows d.stype) dlen
    | 1 => 8 ≤ d.stype.width && 8 ≤ d.dtype.width && d.bfmt == 0 && !d.hen && d.rm ≤ 5 && d.seed == 0 && d.bbase == 0 &&
        strided d.rows d.sstr (rowEls d.cols d.stype) len && strided d.rows d.dstr (rowEls d.cols d.dtype) dlen
    | 2 => isHalfSingle d.stype && d.dtypeCode == 0 && (BFmt.ofCode d.bfmt).isSome && d.rm ≤ 5 && d.cols % 256 == 0 &&
        strided d.rows d.sstr (rowEls d.cols d.stype) len && strided d.rows d.dstr (rowSegs d.cols) dlen
    | 3 => isHalfSingle d.dtype && d.stypeCode == 0 && (BFmt.ofCode d.bfmt).isSome && d.rm ≤ 4 && d.cols % 256 == 0 &&
        d.cbase == 0 && strided d.rows d.sstr (rowSegs d.cols) len && strided d.rows d.dstr (rowEls d.cols d.dtype) dlen
    | _ => d.dtypeCode == 0 && d.bfmt == 0 && !d.hen && d.rm == 0 && d.rows == 0 && d.cols == 0 && d.sstr == 0 &&
        d.dstr == 0 && d.seed == 0 && d.bbase == 0 && d.cbase == 0

/-- The rounding of a transform (R306, R48): RM 000 means RNE; SR takes CBASE, the row and the column. -/
def xMode (k : Card) (d : XDesc) (r c : Nat) : RMode :=
  match d.rm with
  | 2 => .rz | 3 => .rup | 4 => .rdn
  | 5 => .sr (laneWord k.srseed.toNat d.cbase r c)
  | _ => .rne

/-- One element written: destination offset, bytes, value, flags, and the source bytes it depends on. -/
structure XEl where
  dst : Nat
  n : Nat
  val : Nat
  flags : Flags
  src : Nat
  slen : Nat
deriving Repr

/-- Bytes of a number. -/
def bytesAt (v i n : Nat) : Nat := v / 2 ^ (8 * i) % 2 ^ (8 * n)

/-- TRANSPOSE's elements. -/
def xTranspose (d : XDesc) (v : Nat) : List XEl :=
  let w := d.stype.width / 8
  (List.range d.rows).flatMap fun r => (List.range d.cols).map fun c =>
    ⟨c * d.dstr + r * w, w, bytesAt v (r * d.sstr + c * w) w, 0, r * d.sstr + c * w, w⟩

/-- CONVERT's elements (R99). -/
def xConvert (k : Card) (d : XDesc) (v : Nat) : List XEl :=
  let ws := d.stype.width / 8
  let wd := d.dtype.width / 8
  (List.range d.rows).flatMap fun r => (List.range d.cols).map fun c =>
    let (x, fl) := convert d.dtype d.stype (xMode k d r c) (bytesAt v (r * d.sstr + c * ws) ws)
    ⟨r * d.dstr + c * wd, wd, x, fl, r * d.sstr + c * ws, ws⟩

/-- The sign word of block j of row r (R307). -/
def xSign (d : XDesc) (r j : Nat) : Nat := hadSign d.seed ((d.bbase + r * (d.cols / 32) + j) % 2 ^ 64)

/-- QUANTISE's segments (R307, R133). -/
def xQuant (k : Card) (d : XDesc) (bf : BFmt) (v : Nat) : List XEl :=
  let ws := d.stype.width / 8
  (List.range d.rows).flatMap fun r => (List.range (d.cols / 256)).map fun g =>
    let bs := (List.range 8).map fun b =>
      let j := 8 * g + b
      let xs := (List.range 32).map fun i => valOf d.stype (bytesAt v (r * d.sstr + (32 * j + i) * ws) ws)
      let ys := if d.hen then (hadFwd (xMode k d r (32 * j)) (xSign d r j) xs).map (·.1) else xs
      bf.quantBlock ys fun i => xMode k d r (32 * j + i)
    ⟨r * d.dstr + 512 * g, 512, (segment bf bs).toNat,
      (bs.map fun b => b.flags.foldl (· ||| ·) b.all).foldl (· ||| ·) 0, r * d.sstr + 256 * g * ws, 256 * ws⟩

/-- DEQUANTISE's elements (R307, R134). -/
def xDequant (k : Card) (d : XDesc) (bf : BFmt) (v : Nat) : List XEl :=
  let wd := d.dtype.width / 8
  (List.range d.rows).flatMap fun r => (List.range (d.cols / 256)).flatMap fun g =>
    let seg := bytesAt v (r * d.sstr + 512 * g) 512
    (List.range 8).flatMap fun b =>
      let j := 8 * g + b
      let vs := segmentVals bf 8 seg b
      let ys := if d.hen then hadInv (xMode k d r (32 * j)) (xSign d r j) vs else vs.map fun x => (x, 0)
      let cs := roundAll d.dtype (xMode k d r 0) ys
      (List.range 32).map fun i =>
        let (x, fl) := cs.getD i (0, 0)
        ⟨r * d.dstr + (32 * j + i) * wd, wd, x, fl, r * d.sstr + 512 * g, 512⟩

/-- Elements written over the destination's bytes, in order. -/
def putXEls (out : Nat) : List XEl → Nat
  | [] => out
  | x :: r => putXEls (out - bytesAt out x.dst x.n * 2 ^ (8 * x.dst) + x.val % 2 ^ (8 * x.n) * 2 ^ (8 * x.dst)) r

/-- Runs of bytes in ascending order, each joined to the run before that it touches. -/
def joinRuns : List (Nat × Nat) → List (Nat × Nat)
  | [] => []
  | r :: rest =>
    match joinRuns rest with
    | [] => if r.2 = 0 then [] else [r]
    | x :: more =>
      if r.2 = 0 then x :: more
      else if x.1 ≤ r.1 + r.2 then (r.1, max r.2 (x.1 + x.2 - r.1)) :: more
      else r :: x :: more

/-- The bytes of a destination that `n` strided rows of `row` bytes cover. -/
def rowRuns (n str row : Nat) : List (Nat × Nat) := joinRuns ((List.range n).map fun i => (i * str, row))

/-- A product from elements written in rows: bytes between the rows are not written (R307). -/
def xProduct (s : State) (k : Card) (dst : Side) (runs : List (Nat × Nat)) (els : List XEl) : Product :=
  { out := putXEls (sideRead s k dst 0 dst.len) els, runs := some runs, deps := els.map fun x => ⟨x.dst, x.src, x.slen⟩
    flags := (els.map (·.flags)).foldl (· ||| ·) 0, rlen := cardLen k.line, olen := dst.len }

/-- The bytes that a transform of rows writes (R307): rows of the destination, which are the columns of a transposed source. -/
def xRuns (xop : Nat) (d : XDesc) : List (Nat × Nat) :=
  match xop with
  | 0 => rowRuns d.cols d.dstr (rowEls d.rows d.stype)
  | 2 => rowRuns d.rows d.dstr (rowSegs d.cols)
  | _ => rowRuns d.rows d.dstr (rowEls d.cols d.dtype)

/-- Run a transform. -/
def runXform (s : State) (id xop : Nat) (make : Card → XDesc → Nat → Option (List XEl)) : HO :=
  runLocal s id 3 (some xop) fun s k src dst aux =>
    let d := xdescOf aux
    if xdescOk xop d (cardLen k.line) (cardDlen k.line) then
      match make k d (sideRead s k src 0 src.len) with
      | some els => .ok (xProduct s k dst (xRuns xop d) els)
      | none => raise .illop
    else raise .illop

/-- TRANSPOSE (R307). -/
def execTranspose (id : Nat) (s : State) : HO := runXform s id 0 fun _ d v => some (xTranspose d v)

/-- CONVERT (R307). -/
def execConvert (id : Nat) (s : State) : HO := runXform s id 1 fun k d v => some (xConvert k d v)

/-- QUANTISE (R307). -/
def execQuantise (id : Nat) (s : State) : HO :=
  runXform s id 2 fun k d v => (BFmt.ofCode d.bfmt).map fun bf => xQuant k d bf v

/-- DEQUANTISE (R307). -/
def execDequantise (id : Nat) (s : State) : HO :=
  runXform s id 3 fun k d v => (BFmt.ofCode d.bfmt).map fun bf => xDequant k d bf v

/-- COMPRESS and DECOMPRESS: one 512-byte position after another (R307, R309). -/
def runZb (s : State) (id xop : Nat) (f : Nat → Line → Line) (drops : Bool) : HO :=
  runLocal s id 3 (some xop) fun s k src dst aux =>
    let d := xdescOf aux
    let n := cardLen k.line / 512
    let v := sideRead s k src 0 src.len
    if xdescOk xop d (cardLen k.line) (cardDlen k.line) then
      .ok { out := eachLine (f d.stype.width) n v, deps := (List.range n).map fun i => ⟨512 * i, 512 * i, 512⟩
            status := if drops && dropsAny d.stype.width n v then 2 else 0
            rlen := cardLen k.line, olen := dst.len }
    else raise .illop

/-- COMPRESS (R307). -/
def execCompress (id : Nat) (s : State) : HO := runZb s id 4 (fun w l => (zbEncode w l).1) true

/-- DECOMPRESS (R307). -/
def execDecompress (id : Nat) (s : State) : HO := runZb s id 5 zbDecode false

/-! Retirement (R297, R299, R300, R372, R399). -/

/-- The completion record (Table 80, R372, R399). -/
def recordOf (k : Card) : Nat :=
  let kind := cardKind k.line
  let ok := k.status ≤ 3
  let rejected := ((List.range 64).filter fun i => k.rej / 2 ^ i % 2 = 1).length
  let w0 := k.seq + k.status * 2 ^ 32 + kind * 2 ^ 40
  let w1 := (if cardCrcm k.line = 0 then 0 else k.crc) + k.flags.toNat * 2 ^ 32
  let w2 := k.rlen % 2 ^ 32 + k.olen % 2 ^ 32 * 2 ^ 32
  let w4 := if kind = 0x13 then k.result else if kind = 0x15 then k.segs - rejected else 0
  let w5 := if cardRemote k.line then k.restarts + k.rpt * 2 ^ 8 + (if k.rslv then 2 ^ 16 else 0) else 0
  let w6 := if 0x10 ≤ kind ∧ kind ≤ 0x12 then cardBits k.line 6 32 32 else if kind = 0x15 ∧ ok then k.rej else 0
  w0 + w1 * 2 ^ 64 + w2 * 2 ^ 128 + k.faddr % 2 ^ 56 * 2 ^ 192 + w4 * 2 ^ 256 + w5 * 2 ^ 320 + w6 * 2 ^ 384

/-- Whether a card's accesses are all performed: a DISPATCH when its last record is placed (R399). -/
def cardDone (k : Card) : Bool := k.st == .running && k.performed

/-- Whether an asker is a fetch-and-op of a card, of a DISPATCH any (R370, R371, R399). -/
def Asker.ofCard (id : Nat) : Asker → Bool
  | .card k => k == id
  | .slot k _ => k == id
  | _ => false

/-- Whether a fetch-and-op of the card is still on its way: it is settled before the card retires (R379). -/
def cardAsks (s : State) (id : Nat) : Bool :=
  s.reqs.any (fun e => e.2.asker.ofCard id) || s.parts.any fun e => e.2.p.asker.ofCard id || e.2.q.asker.ofCard id

/-- A card retires (R297): its completion record is written, and DONE and the sequence word advance; a failed one is
reported on its chain (R300). It waits while the record's write does, and a word that has waited is written once it can be. -/
def execCardRetire (id : Nat) (s : State) : HO :=
  match find? s.cards id with
  | none => .next s
  | some k =>
    if k.st == .retired then .next (advanceDone s k.lid k.wid k.q)
    else if cardDone k && !cardAsks s id then
      match (if cardCren k.line && !k.norec then cardStore s (cardWho s k) 64 (cardCrec k.line) 64 (recordOf k) else some s) with
      | none => .next s
      | some s1 =>
        let s2 := updCard s1 id fun k => { k with st := if k.status ≤ 3 then .retired else .failed }
        .next (if k.status ≤ 3 then advanceDone s2 k.lid k.wid k.q else reportFailure s2 k.lid k.wid k.q)
    else .next s

end Sys2Proof.Machine
end

