-- ==== Sys2Proof/Machine/Ctl.lean ====
section
/-!
DEFINITION. The CTL instructions: integer arithmetic, immediates, scalar loads and stores, scalar floating point and
exchange registers (spec/04 R88 to R101).
-/
namespace Sys2Proof.Machine

/-- A three-register integer operation (R88, R89). -/
def alu3 (f : Word → Word → Word) (o : R3) (s : State) : HO :=
  runC s fun e c => .ok ((c.wrS o.d (f (c.rdS e o.a) (c.rdS e o.b))).advance e)

/-- A one-source integer operation (R91). -/
def alu2 (f : Word → Word) (o : R2) (s : State) : HO :=
  runC s fun e c => .ok ((c.wrS o.d (f (c.rdS e o.a))).advance e)

/-- An operation on three source scalars (R92, R93). -/
def alu4 (f : Word → Word → Word → Word) (o : R4) (s : State) : HO :=
  runC s fun e c => .ok ((c.wrS o.d (f (c.rdS e o.a) (c.rdS e o.b) (c.rdS e o.c))).advance e)

/-- An immediate operation on the sign-extended IMM (R94). -/
def aluImm (f : Word → Word → Word) (o : I2) (s : State) : HO :=
  runC s fun e c => .ok ((c.wrS o.d (f (c.rdS e o.a) (o.imm.signExtend 64))).advance e)

/-- An immediate shift (R94). -/
def aluSh (f : Word → Nat → Word) (o : Sh) (s : State) : HO :=
  runC s fun e c => .ok ((c.wrS o.d (f (c.rdS e o.a) o.n.toNat)).advance e)

/-- 1 or 0 (R89). -/
def truth (b : Bool) : Word := if b then 1 else 0

/-- The signed product's high half (R89). -/
def mulHigh (a b : Word) : Word := BitVec.ofInt 64 ((a.toInt * b.toInt) / (2 ^ 64 : Int))

/-- The unsigned product's high half (R89). -/
def mulHighU (a b : Word) : Word := BitVec.ofNat 64 (a.toNat * b.toNat / 2 ^ 64)

/-- The signed quotient, truncated toward zero; by zero it is all ones (R89, R90). -/
def quotS (a b : Word) : Word := if b = 0 then BitVec.allOnes 64 else BitVec.ofInt 64 (a.toInt.tdiv b.toInt)

/-- The unsigned quotient (R89, R90). -/
def quotU (a b : Word) : Word := if b = 0 then BitVec.allOnes 64 else BitVec.ofNat 64 (a.toNat / b.toNat)

/-- The signed remainder, with the dividend's sign (R89, R90). -/
def remS (a b : Word) : Word := if b = 0 then a else BitVec.ofInt 64 (a.toInt.tmod b.toInt)

/-- The unsigned remainder (R89, R90). -/
def remU (a b : Word) : Word := if b = 0 then a else BitVec.ofNat 64 (a.toNat % b.toNat)

/-- A shift count, the low six bits of a scalar (R89). -/
def cnt6 (b : Word) : Nat := b.toNat % 64

/-- Leading zeros among the low `n` bits (R91). -/
def leadZeros (w : Word) : Nat → Nat
  | 0 => 0
  | n + 1 => if w.getLsbD n then 0 else leadZeros w n + 1

/-- Trailing zeros from bit `i`, over `n` bits (R91). -/
def trailZeros (w : Word) (i : Nat) : Nat → Nat
  | 0 => 0
  | n + 1 => if w.getLsbD i then 0 else trailZeros w (i + 1) n + 1

/-- One bits among the low `n` (R91). -/
def popCount (w : Word) : Nat → Nat
  | 0 => 0
  | n + 1 => (if w.getLsbD n then 1 else 0) + popCount w n

/-- FieldBounds (R93): the width clipped at bit 63, or none when the field is empty. -/
def fieldBounds (off wid : Word) : Option Nat :=
  if wid = 0 ∨ 64 ≤ off.toNat then none else some (min wid.toNat (64 - off.toNat))

/-- BFX (R93). -/
def bfxVal (a off wid : Word) : Word :=
  match fieldBounds off wid with
  | none => 0
  | some w => BitVec.ofInt 64 (intOf true w (a.toNat / 2 ^ off.toNat))

/-- BFXZ (R93). -/
def bfxzVal (a off wid : Word) : Word :=
  match fieldBounds off wid with
  | none => 0
  | some w => BitVec.ofNat 64 (a.toNat / 2 ^ off.toNat % 2 ^ w)

/-- BFI's result from the old s[D] (R93). -/
def bfiVal (d a off wid : Word) : Word :=
  match fieldBounds off wid with
  | none => d
  | some w =>
    let m : Word := BitVec.ofNat 64 (2 ^ w - 1) <<< off.toNat
    (d &&& ~~~m) ||| ((a <<< off.toNat) &&& m)

/-- ADD (R89). -/
def execAdd (o : R3) (s : State) : HO := alu3 (· + ·) o s

/-- SUB (R89). -/
def execSub (o : R3) (s : State) : HO := alu3 (· - ·) o s

/-- MUL: the low half of the product (R89). -/
def execMul (o : R3) (s : State) : HO := alu3 (· * ·) o s

/-- MULH (R89). -/
def execMulh (o : R3) (s : State) : HO := alu3 mulHigh o s

/-- MULHZ (R89). -/
def execMulhz (o : R3) (s : State) : HO := alu3 mulHighU o s

/-- DIV (R89, R90). -/
def execDiv (o : R3) (s : State) : HO := alu3 quotS o s

/-- DIVZ (R89, R90). -/
def execDivz (o : R3) (s : State) : HO := alu3 quotU o s

/-- REM (R89, R90). -/
def execRem (o : R3) (s : State) : HO := alu3 remS o s

/-- REMZ (R89, R90). -/
def execRemz (o : R3) (s : State) : HO := alu3 remU o s

/-- AND (R89). -/
def execAnd (o : R3) (s : State) : HO := alu3 (· &&& ·) o s

/-- OR (R89). -/
def execOr (o : R3) (s : State) : HO := alu3 (· ||| ·) o s

/-- XOR (R89). -/
def execXor (o : R3) (s : State) : HO := alu3 (· ^^^ ·) o s

/-- ANDN (R89). -/
def execAndn (o : R3) (s : State) : HO := alu3 (fun a b => a &&& ~~~b) o s

/-- SHL (R89). -/
def execShl (o : R3) (s : State) : HO := alu3 (fun a b => a <<< cnt6 b) o s

/-- SHR (R89). -/
def execShr (o : R3) (s : State) : HO := alu3 (fun a b => a >>> cnt6 b) o s

/-- SHA (R89). -/
def execSha (o : R3) (s : State) : HO := alu3 (fun a b => a.sshiftRight (cnt6 b)) o s

/-- ROTL (R89). -/
def execRotl (o : R3) (s : State) : HO := alu3 (fun a b => a.rotateLeft (cnt6 b)) o s

/-- MIN, signed (R89). -/
def execMin (o : R3) (s : State) : HO := alu3 (fun a b => if a.slt b then a else b) o s

/-- MINZ, unsigned (R89). -/
def execMinz (o : R3) (s : State) : HO := alu3 (fun a b => if a.ult b then a else b) o s

/-- MAX, signed (R89). -/
def execMax (o : R3) (s : State) : HO := alu3 (fun a b => if a.slt b then b else a) o s

/-- MAXZ, unsigned (R89). -/
def execMaxz (o : R3) (s : State) : HO := alu3 (fun a b => if a.ult b then b else a) o s

/-- SEQ (R89). -/
def execSeq (o : R3) (s : State) : HO := alu3 (fun a b => truth (a == b)) o s

/-- SNE (R89). -/
def execSne (o : R3) (s : State) : HO := alu3 (fun a b => truth (a != b)) o s

/-- SLT, signed (R89). -/
def execSlt (o : R3) (s : State) : HO := alu3 (fun a b => truth (a.slt b)) o s

/-- SLTZ, unsigned (R89). -/
def execSltz (o : R3) (s : State) : HO := alu3 (fun a b => truth (a.ult b)) o s

/-- SLE, signed (R89). -/
def execSle (o : R3) (s : State) : HO := alu3 (fun a b => truth (a.sle b)) o s

/-- SLEZ, unsigned (R89). -/
def execSlez (o : R3) (s : State) : HO := alu3 (fun a b => truth (a.ule b)) o s

/-- CLZ (R91). -/
def execClz (o : R2) (s : State) : HO := alu2 (fun a => BitVec.ofNat 64 (leadZeros a 64)) o s

/-- CTZ (R91). -/
def execCtz (o : R2) (s : State) : HO := alu2 (fun a => BitVec.ofNat 64 (trailZeros a 0 64)) o s

/-- POPC (R91). -/
def execPopc (o : R2) (s : State) : HO := alu2 (fun a => BitVec.ofNat 64 (popCount a 64)) o s

/-- SEL: only the value of s[C] is tested (R92). -/
def execSel (o : R4) (s : State) : HO := alu4 (fun a b c => if c = 0 then b else a) o s

/-- BFX (R93). -/
def execBfx (o : R4) (s : State) : HO := alu4 bfxVal o s

/-- BFXZ (R93). -/
def execBfxz (o : R4) (s : State) : HO := alu4 bfxzVal o s

/-- BFI, which reads s[D] as its fourth source (R93). -/
def execBfi (o : R4) (s : State) : HO :=
  runC s fun e c =>
    .ok ((c.wrS o.d (bfiVal (c.rdS e o.d) (c.rdS e o.a) (c.rdS e o.b) (c.rdS e o.c))).advance e)

/-- NOP (R26). -/
def execNop (s : State) : HO := runC s fun e c => .ok (c.advance e)

/-! Immediates (R94). -/

def execAddi (o : I2) (s : State) : HO := aluImm (· + ·) o s

def execAndi (o : I2) (s : State) : HO := aluImm (· &&& ·) o s

def execOri (o : I2) (s : State) : HO := aluImm (· ||| ·) o s

def execXori (o : I2) (s : State) : HO := aluImm (· ^^^ ·) o s

def execShli (o : Sh) (s : State) : HO := aluSh (fun a n => a <<< n) o s

def execShri (o : Sh) (s : State) : HO := aluSh (fun a n => a >>> n) o s

def execShai (o : Sh) (s : State) : HO := aluSh (fun a n => a.sshiftRight n) o s

def execRotli (o : Sh) (s : State) : HO := aluSh (fun a n => a.rotateLeft n) o s

/-- MOVI (R94). -/
def execMovi (o : I1) (s : State) : HO :=
  runC s fun e c => .ok ((c.wrS o.d (o.imm.signExtend 64)).advance e)

/-- MOVHI, which reads s[D] (R94). -/
def execMovhi (o : I1) (s : State) : HO :=
  runC s fun e c => .ok ((c.wrS o.d (o.imm ++ (c.rdS e o.d).setWidth 32)).advance e)

/-- LEA (R94). -/
def execLea (o : LeaOp) (s : State) : HO :=
  runC s fun e c => .ok ((c.wrS o.d ((c.rdS e o.a <<< o.k.toNat) + o.imm.signExtend 64)).advance e)

/-! Scalar loads and stores (R95). -/

/-- LDS (R95). -/
def execLds (o : CMem) (s : State) : HO :=
  runS s fun e c => do
    let w := c.who s.cur
    let (v, ps) ← readMem s w c.r.gver notWs (memBytes o.w) (c.addr e o.base o.off) (memBytes o.w)
    .ok ((s.noteParts w ps).setCtx s.cur ((c.wrS o.d (memExtend o.w v)).advance e))

/-- STS (R95). -/
def execSts (o : CMem) (s : State) : HO :=
  runS s fun e c => do
    let s' ← writeMem s (c.who s.cur) c.r.gver plainW (memBytes o.w) (c.addr e o.base o.off) (memBytes o.w)
      (c.rdS e o.d).toNat
    .ok (s'.setCtx s.cur (c.advance e))

/-! Scalar floating point (R96 to R100). -/

/-- The type that T1 selects (R96). -/
def fType (dbl : Bool) : ElemType := if dbl then .f64 else .f32

/-- A source of a w-bit type, its higher bits ignored (R96). -/
def Context.rdF (c : Context) (e : Engine) (r : Reg) (t : ElemType) : Nat := (c.rdS e r).toNat % 2 ^ t.width

/-- A rounded operation on two scalars (R97). -/
def fop3 (f : RMode → Val → Val → Val × Flags) (o : F3) (s : State) : HO :=
  runC s fun e c =>
    let t := fType o.dbl
    let m := RMode.ofFpmode c.r.fpmode
    let (v, fl) := f m (valOf t (c.rdF e o.a t)) (valOf t (c.rdF e o.b t))
    let (r, fl') := deliver t m v
    .ok ((c.deliverS o.d (r, fl ||| fl')).advance e)

/-- A comparison of two scalars (R98): the truth of the ordering, and which NaN sets IV. -/
def fcmp (f : Ordering → Bool) (quietIv : Bool) (o : F3) (s : State) : HO :=
  runC s fun e c =>
    let t := fType o.dbl
    let x := valOf t (c.rdF e o.a t)
    let y := valOf t (c.rdF e o.b t)
    let r := match cmpVal x y with | some q => f q | none => false
    let iv := x.isSig || y.isSig || (quietIv && (x.isNan || y.isNan))
    .ok ((c.deliverS o.d (if r then 1 else 0, if iv then fIV else 0)).advance e)

/-- FADD (R97). -/
def execFadd (o : F3) (s : State) : HO := fop3 (fun m a b => sumVals m [a, b]) o s

/-- FSUB (R97). -/
def execFsub (o : F3) (s : State) : HO := fop3 (fun m a b => sumVals m [a, b.negate]) o s

/-- FMUL (R97). -/
def execFmul (o : F3) (s : State) : HO := fop3 (fun _ a b => mulVal a b) o s

/-- FDIV (R97). -/
def execFdiv (o : F3) (s : State) : HO := fop3 (fun _ a b => divVal a b) o s

/-- FSQRT (R97). -/
def execFsqrt (o : F2) (s : State) : HO :=
  runC s fun e c =>
    let t := fType o.dbl
    let (v, fl) := sqrtVal (valOf t (c.rdF e o.a t))
    let (r, fl') := deliver t (RMode.ofFpmode c.r.fpmode) v
    .ok ((c.deliverS o.d (r, fl ||| fl')).advance e)

/-- FFMA, rounded once (R97). -/
def execFfma (o : F4) (s : State) : HO :=
  runC s fun e c =>
    let t := fType o.dbl
    let m := RMode.ofFpmode c.r.fpmode
    let (p, fl1) := mulVal (valOf t (c.rdF e o.a t)) (valOf t (c.rdF e o.b t))
    let (v, fl2) := sumVals m [p, valOf t (c.rdF e o.c t)]
    let (r, fl3) := deliver t m v
    .ok ((c.deliverS o.d (r, fl1 ||| fl2 ||| fl3)).advance e)

/-- FMIN and FMAX (R98). -/
def fminmax (wantMax : Bool) (o : F3) (s : State) : HO :=
  runC s fun e c =>
    let t := fType o.dbl
    .ok ((c.deliverS o.d (minMaxCode wantMax t (c.rdF e o.a t) (c.rdF e o.b t))).advance e)

/-- FMIN (R98). -/
def execFmin (o : F3) (s : State) : HO := fminmax false o s

/-- FMAX (R98). -/
def execFmax (o : F3) (s : State) : HO := fminmax true o s

/-- FEQ (R98). -/
def execFeq (o : F3) (s : State) : HO := fcmp (· == .eq) false o s

/-- FLT (R98). -/
def execFlt (o : F3) (s : State) : HO := fcmp (· == .lt) true o s

/-- FLE (R98). -/
def execFle (o : F3) (s : State) : HO := fcmp (· != .gt) true o s

/-- A result placed in a scalar (R96): an i32 is sign-extended, every other zero-extended. -/
def placeS (t : ElemType) (code : Nat) : Word :=
  if t = .i32 then (BitVec.ofNat 32 code).signExtend 64 else BitVec.ofNat 64 code

/-- FCVT (R99). -/
def execFcvt (o : FCvt) (s : State) : HO :=
  runC s fun e c =>
    let (r, fl) := convert o.t1 o.t2 (.ofRm o.rm c.r.fpmode 0) (c.rdF e o.a o.t2)
    .ok (((c.wrS o.d (placeS o.t1 r)).addFlags fl).advance e)

/-- FCLASS, which sets no flag (R100). -/
def execFclass (o : FCls) (s : State) : HO :=
  runC s fun e c => .ok ((c.wrS o.d (BitVec.ofNat 64 (classMask o.t (c.rdF e o.a o.t)))).advance e)

/-! Exchange registers (R17, R101). -/

/-- EGET: waits until the register is full, and while a LAUNCH before it has still to fill it (R101, R202). -/
def execEget (o : ExOp) (s : State) : HO :=
  runC s fun e c => do
    let k := o.k.toNat
    await (c.isFull k && !(c.fillsDue.any fun f => f.e == k))
    let v := lookD c.r.ex k 0
    .ok (({ c with r := { c.r with exFull := c.r.exFull &&& ~~~(1#8 <<< k) } }.wrS o.d v).advance e)

/-- EPEEK (R101, R202). -/
def execEpeek (o : ExOp) (s : State) : HO :=
  runC s fun e c => do
    await (!(c.fillsDue.any fun f => f.e == o.k.toNat))
    .ok ((c.wrS o.d (lookD c.r.ex o.k.toNat 0)).advance e)

end Sys2Proof.Machine
end

