-- ==== Sys2Proof/Machine/Mat.lean ====
section
/-!
DEFINITION. The matrix engine: tiles, operand slots, products, nests and TOUT (spec/06 R145 to R166).
-/
namespace Sys2Proof.Machine

/-! Tiles (R146 to R151). -/

/-- A tile's format (Table 39). -/
inductive TileFmt where
  | fp32 | fp64 | int32
deriving DecidableEq, Repr

/-- A configured tile: rows, columns and the first 32-bit word of its storage (R146). -/
structure Tile where
  fmt : TileFmt
  rt : Nat
  ct : Nat
  word : Nat
deriving DecidableEq, Repr

def Tile.rows (t : Tile) : Nat := 16 * t.rt
def Tile.cols (t : Tile) : Nat := 16 * t.ct

/-- The width of a tile element. -/
def Tile.width (t : Tile) : Nat := if t.fmt = .fp64 then 64 else 32

/-- The words of a tile. -/
def Tile.words (t : Tile) : Nat := t.rows * t.cols * (t.width / 32)

/-- The tile a TSHAPE word configures (Table 39). -/
def tileOf (w : Word) : Option Tile :=
  let n := w.toNat
  let mk (f : TileFmt) : Option Tile := some ⟨f, bitsOf n 2 4, bitsOf n 6 4, bitsOf n 10 10 * 256⟩
  match n % 4 with
  | 1 => mk .fp32 | 2 => mk .fp64 | 3 => mk .int32 | _ => none

/-- Tile register t (R148). -/
def Context.tile? (c : Context) (t : Nat) : Option Tile := tileOf (lookD c.mat.tshape t 0)

/-- The tile, or TUNCFG (R148). -/
def Context.needTile (c : Context) (t : Nat) : Res Tile :=
  match c.tile? t with
  | some x => .ok x
  | none => raise .tuncfg 0 t

/-- Element (r, c) of a tile, as raw bits (R146). -/
def tileGet (acc : Store (BitVec 32)) (t : Tile) (r c : Nat) : Nat :=
  let i := r * t.cols + c
  if t.fmt = .fp64 then (lookD acc (t.word + 2 * i) 0).toNat + (lookD acc (t.word + 2 * i + 1) 0).toNat * 2 ^ 32
  else (lookD acc (t.word + i) 0).toNat

/-- Element (r, c) of a tile written (R146). -/
def tileSet (acc : Store (BitVec 32)) (t : Tile) (r c v : Nat) : Store (BitVec 32) :=
  let i := r * t.cols + c
  if t.fmt = .fp64 then
    putD (putD acc (t.word + 2 * i) (BitVec.ofNat 32 v) 0) (t.word + 2 * i + 1) (BitVec.ofNat 32 (v / 2 ^ 32)) 0
  else putD acc (t.word + i) (BitVec.ofNat 32 v) 0

/-- Every element of a tile at zero bits (R147, R149). -/
def tileZero (acc : Store (BitVec 32)) (t : Tile) : Store (BitVec 32) :=
  acc.filter fun e => e.1 < t.word || t.word + t.words ≤ e.1

/-- A unit has been written: the save area's copy is no copy any more (R330). -/
def Context.wroteUnit (c : Context) (u : UnitKind) : Context := { c with clean := c.clean.filter fun v => v != u }

/-- Tile `n`'s storage written. -/
def Context.setAcc (c : Context) (n : Nat) (a : Store (BitVec 32)) : Context :=
  { c with mat := { c.mat with acc := a } }.wroteUnit (.tile n)

/-- A shape that R147 accepts for tile `t`, apart from overlap. -/
def shapeOk (v : Word) : Bool :=
  match tileOf v with
  | none => v == 0
  | some t =>
    let lim := if t.fmt = .fp64 then 4 else 8
    bitsOf v.toNat 20 44 == 0 && 1 ≤ t.rt && t.rt ≤ lim && 1 ≤ t.ct && t.ct ≤ lim && t.word + t.words ≤ 262144

/-- Whether a tile overlaps another configured tile of the context (R147). -/
def overlaps (c : Context) (n : Nat) (t : Tile) : Bool :=
  (List.range 8).any fun k => k != n && match c.tile? k with
    | some u => rangesMeet t.word t.words u.word u.words
    | none => false

/-- TCFG of tile n with a value, by TCFG or SYSWR (R147); room is made on the core (R330). A configuration that does not fit
beside the tiles of the other resident contexts, for which the spec names no fault and no wait, is held (log 33). -/
def tcfgTo (s : State) (e : Engine) (c : Context) (n : Nat) (v : Word) : Res State :=
  let old := lookD c.mat.tshape n 0
  if v = old then .ok (s.setCtx s.cur (c.advance e))
  else if !shapeOk v then raise .illop
  else
    let freed := match tileOf old with
      | some t => tileZero c.mat.acc t
      | none => c.mat.acc
    let set (a : Store (BitVec 32)) : Context :=
      { c with mat := { c.mat with acc := a, tshape := putD c.mat.tshape n v 0 } }.wroteUnit (.tile n)
    match tileOf v with
    | none => .ok (s.setCtx s.cur ((set freed).advance e))
    | some t =>
      if overlaps c n t then raise .illop
      else
        let s1 := s.setCtx s.cur ((set (tileZero freed t)).advance e)
        if residentUse s1 (coreOf s.cur) .tiles ≤ Space.tiles.total then .ok (makeRoom s1 (coreOf s.cur) .tiles 0)
        else hold

/-- TCFG (R147). -/
def execTcfg (o : TM) (s : State) : HO := runS s fun e c => tcfgTo s e c o.t.toNat (c.rdS e o.s)

/-- SYSWR to TSHAPEn acts as TCFG (R147); it waits for every nest before it (R166). In handler mode it waits for ever while the
context's own nest stands stopped (log 48). -/
def execSyswrTshape (o : SysWrK) (s : State) : HO :=
  runS s fun e c => do
    await (!c.mat.running && !c.mat.go)
    tcfgTo s e c o.k.toNat (c.rdS e o.a)

/-- TZERO (R149). -/
def execTzero (o : TM) (s : State) : HO :=
  runC s fun e c => do
    let t ← c.needTile o.t.toNat
    .ok ((c.setAcc o.t.toNat (tileZero c.mat.acc t)).advance e)

/-- The elements of row `r` of a tile. -/
def tileRow (acc : Store (BitVec 32)) (t : Tile) (r : Nat) : List Nat :=
  (List.range t.cols).map fun j => tileGet acc t r j

/-- The elements of column `k` of a tile. -/
def tileCol (acc : Store (BitVec 32)) (t : Tile) (k : Nat) : List Nat :=
  (List.range t.rows).map fun i => tileGet acc t i k

/-- Row `r` from column `j` on set from a list. -/
def setRow (acc : Store (BitVec 32)) (t : Tile) (r : Nat) : Nat → List Nat → Store (BitVec 32)
  | _, [] => acc
  | j, x :: xs => tileSet (setRow acc t r (j + 1) xs) t r j x

/-- Column `k` from row `i` on set from a list. -/
def setCol (acc : Store (BitVec 32)) (t : Tile) (k : Nat) : Nat → List Nat → Store (BitVec 32)
  | _, [] => acc
  | i, x :: xs => tileSet (setCol acc t k (i + 1) xs) t i k x

/-- A line whose first elements of width w are replaced. -/
def putFront (l : Line) (w : Nat) (xs : List Nat) : Line := lineOfEls w (xs ++ (lineEls l w).drop xs.length)

/-- The index a slice move takes from s[S], checked against a bound (R150). -/
def sliceIndex (c : Context) (e : Engine) (o : TM) (bound : Nat) : Res Nat :=
  let i := (c.rdS e o.s).toNat
  if i < bound then .ok i else raise .illop

/-- TROWLD (R150). -/
def execTrowld (o : TM) (s : State) : HO :=
  runC s fun e c => do
    let t ← c.needTile o.t.toNat
    let r ← sliceIndex c e o t.rows
    let n ← c.srcLineIn e o.l
    .ok ((c.setAcc o.t.toNat (setRow c.mat.acc t r 0 ((lineEls (c.rdL n) t.width).take t.cols))).advance e)

/-- TROWST (R150). -/
def execTrowst (o : TM) (s : State) : HO :=
  runC s fun e c => do
    let t ← c.needTile o.t.toNat
    let r ← sliceIndex c e o t.rows
    let n ← c.dstLineIn e o.l
    .ok ((c.wrL n (putFront (c.rdL n) t.width (tileRow c.mat.acc t r))).advance e)

/-- TCOLLD (R150). -/
def execTcolld (o : TM) (s : State) : HO :=
  runC s fun e c => do
    let t ← c.needTile o.t.toNat
    let k ← sliceIndex c e o t.cols
    let n ← c.srcLineIn e o.l
    .ok ((c.setAcc o.t.toNat (setCol c.mat.acc t k 0 ((lineEls (c.rdL n) t.width).take t.rows))).advance e)

/-- TCOLST (R150). -/
def execTcolst (o : TM) (s : State) : HO :=
  runC s fun e c => do
    let t ← c.needTile o.t.toNat
    let k ← sliceIndex c e o t.cols
    let n ← c.dstLineIn e o.l
    .ok ((c.wrL n (putFront (c.rdL n) t.width (tileCol c.mat.acc t k))).advance e)

/-- The rows of TLD, from row `r` down to 0. -/
def loadRows (c : Context) (t : Tile) (n : Nat) (acc : Store (BitVec 32)) : Nat → Store (BitVec 32)
  | 0 => acc
  | r + 1 => loadRows c t n (setRow acc t r 0 ((lineEls (c.rdL (n + r)) t.width).take t.cols)) r

/-- TLD (R151). -/
def execTld (o : TM) (s : State) : HO :=
  runC s fun e c => do
    let t ← c.needTile o.t.toNat
    let b ← c.srcLine e o.l
    let n ← c.inWin t.rows b
    .ok ((c.setAcc o.t.toNat (loadRows c t n c.mat.acc t.rows)).advance e)

/-- The rows of TST. -/
def storeRows (t : Tile) (n : Nat) (c : Context) : Nat → Context
  | 0 => c
  | r + 1 =>
    (storeRows t n c r).wrL (n + r) (putFront (c.rdL (n + r)) t.width (tileRow c.mat.acc t r))

/-- TST (R151). -/
def execTst (o : TM) (s : State) : HO :=
  runC s fun e c => do
    let t ← c.needTile o.t.toNat
    let b ← c.dstLine e o.l
    let n ← c.inWin t.rows b
    .ok ((storeRows t n c t.rows).advance e)

/-! Operand slots (R152 to R156). -/

/-- A claimed slot, or OSLOT (R153). -/
def Context.claimed (c : Context) (o : Nat) : Res OSlot :=
  match find? c.mat.oslots o with
  | some x => .ok x
  | none => raise .oslot 0 o

/-- A loaded slot's tag and rows, or OSLOT (R158). -/
def Context.loaded (c : Context) (o : Nat) : Res (OTag × OSlot) := do
  let x ← c.claimed o
  match x.tag with
  | some t => .ok (t, x)
  | none => raise .oslot 0 o

/-- OCLAIM (R153): with all 64 slots claimed by resident contexts it waits. -/
def execOclaim (o : TM) (s : State) : HO :=
  runS s fun e c =>
    let k := o.o1.toNat
    if (find? c.mat.oslots k).isSome then .ok (s.setCtx s.cur (c.advance e))
    else if residentUse s (coreOf s.cur) .slots < 64 then
      let s1 := s.setCtx s.cur (({ c with mat := { c.mat with oslots := put c.mat.oslots k {} } }.wroteUnit (.slot k)).advance e)
      .ok (makeRoom s1 (coreOf s.cur) .slots 0)
    else hold

/-- OREL (R153). -/
def execOrel (o : TM) (s : State) : HO :=
  runC s fun e c => do
    let _ ← c.claimed o.o1.toNat
    .ok ({ c with mat := { c.mat with oslots := del c.mat.oslots o.o1.toNat } }.advance e)

/-- KLEN of an entry's storage format (R152); none when the format has no row. -/
def klenOf (e : TEnt) : Option Nat :=
  if e.bfmt ≠ 0 then some 256
  else match ElemType.ofCode e.etype with
    | .f64 => some 64 | .f32 => some 128 | .f16 | .bf16 => some 256
    | .f8e4 | .f8e5 | .i8 | .b8 => some 512 | .i4 | .b4 => some 1024
    | _ => none

/-- A duplication map (R156): KBASE and the original channels. -/
structure DupMap where
  kbase : Nat
  chans : List Nat
deriving DecidableEq, Repr

/-- Read and check the map of an entry with DEN = 1 (R156). -/
def dupMap (s : State) (w : Who) (ver : Nat) (e : TEnt) : Res DupMap := do
  let (h, _) ← readMem s w ver (fun _ => true) 8 e.dmap 8
  let nch := bitsOf h 32 16
  check (bitsOf h 48 16 == 0 && nch ≤ 4096) .illop
  let (v, _) ← readMem s w ver (fun _ => true) 4 (e.dmap + 8) (4 * nch)
  let chans := (List.range nch).map fun i => bitsOf v (32 * i) 32
  let kbase := h % 2 ^ 32
  check (chans.all fun k => k < kbase) .illop
  check (e.dim0 == kbase + nch || e.dim0 == kbase) .illop
  .ok ⟨kbase, chans⟩

/-- The stored position that position `k` reads (R154, R156). A position past the map's entries lies outside the tensor: a
DESIGN CHOICE, since R156 says nothing of it (log 17). -/
def mapped (e : TEnt) (m : Option DupMap) (k : Nat) : Nat :=
  match m with
  | some d => if e.dim0 = d.kbase ∧ d.kbase ≤ k then d.chans.getD (k - d.kbase) e.dim0 else k
  | none => k

/-- A sector of tensor data as memory stands (R155, R253). -/
def sectorNow (s : State) (w : Nat) (t : Trans) (a : Nat) : Nat := tensorPart s.mem w ⟨t.atVa a, 64⟩

/-- What the operand cache tags a sector with, beside its address: the task's tensor identifier and its generation (R155). -/
structure OcTag where
  lid : Nat
  wid : Nat
  x : Nat
  gen : Nat
deriving DecidableEq, Repr

/-- A sector of a tag. -/
def OcEntry.of (o : OcEntry) (g : OcTag) : Bool := o.lid == g.lid && o.wid == g.wid && o.x == g.x && o.gen == g.gen

/-- One sector read through the operand cache: the value, and the cache after it (R155). An older copy that the
cache still holds may be what is read. -/
def sectorRead (s : State) (g : OcTag) (w : Nat) (t : Trans) (oc : List OcEntry) (a : Nat) : Nat × List OcEntry :=
  let cur := sectorNow s w t a
  let hit := oc.find? fun o => o.of g && o.addr == a
  let rest := oc.filter fun o => !(o.of g && o.addr == a)
  let v := match hit with
    | some o => if o.data.toNat != cur && Config.staleSector s.freeCtr a then o.data.toNat else cur
    | none => cur
  (v, (⟨g.lid, g.wid, g.x, g.gen, a, BitVec.ofNat 512 v⟩ :: rest).take 1024)

/-- `n` consecutive sectors from address `a`. -/
def sectorsRead (s : State) (g : OcTag) (w : Nat) (t : Trans) : Nat → Nat → List OcEntry → Nat × List OcEntry
  | 0, _, oc => (0, oc)
  | n + 1, a, oc =>
    let (v, oc1) := sectorRead s g w t oc a
    let (r, oc2) := sectorsRead s g w t n (a + 64) oc1
    (v + r * 2 ^ 512, oc2)

/-- The bytes of an access's parts read through the operand cache (R155). -/
def cachedVal (s : State) (g : OcTag) (w : Nat) : List Part → List OcEntry → Nat × List OcEntry
  | [], oc => (0, oc)
  | p :: r, oc =>
    let a := p.t.va / 64 * 64
    let n := (p.t.va % 64 + p.len + 63) / 64
    let (v, oc1) := sectorsRead s g w p.t n a oc
    let (u, oc2) := cachedVal s g w r oc1
    (v / 2 ^ (8 * (p.t.va % 64)) % 2 ^ (8 * p.len) + u * 2 ^ (8 * p.len), oc2)

/-- What an OLOAD reads: the reader and its entry. With `look` it makes AccessCheck alone: every byte is checked before one is
read (R154, R243). -/
structure OReader where
  tag : OcTag
  who : Who
  ver : Nat
  e : TEnt
  look : Bool
deriving DecidableEq, Repr

/-- Read `len` bytes at `va` for an OLOAD. -/
def OReader.bytes (r : OReader) (s : State) (align va len : Nat) (oc : List OcEntry) :
    Res (Nat × List OcEntry) := do
  let ps ← tensorAccess s r.who r.e align va len
  if r.look then .ok (0, oc)
  else do
    tensorSound s r.ver ps
    .ok (cachedVal s r.tag r.e.width ps oc)

/-- One run of consecutive stored positions: `n` elements from `k`, placed from position `q` of the row. -/
structure Run where
  q : Nat
  k : Nat
  n : Nat
deriving DecidableEq, Repr

/-- Group the positions `q …` of a row that lie inside the tensor into runs (R154). -/
def runsFrom (e : TEnt) (m : Option DupMap) (koff q : Nat) : Nat → Option Run → List Run
  | 0, b => b.toList
  | fuel + 1, b =>
    let k := mapped e m (koff + q)
    if k < e.dim0 then
      match b with
      | some r =>
        if r.k + r.n = k then runsFrom e m koff (q + 1) fuel (some { r with n := r.n + 1 })
        else r :: runsFrom e m koff (q + 1) fuel (some ⟨q, k, 1⟩)
      | none => runsFrom e m koff (q + 1) fuel (some ⟨q, k, 1⟩)
    else b.toList ++ runsFrom e m koff (q + 1) fuel none

/-- Read the runs of a plain row into a number of packed elements. -/
def OReader.runs (r : OReader) (s : State) (row : Nat) : List Run → List OcEntry → Res (Nat × List OcEntry)
  | [], oc => .ok (0, oc)
  | x :: xs, oc => do
    let w := r.e.width
    let (b, n) := runBytes w x.k x.n
    let (v, oc1) ← r.bytes s (elemAlign w) (row + b) n oc
    let (rest, oc2) ← r.runs s row xs oc1
    .ok (packEls w (runEls w x.k x.n v) * 2 ^ (w * x.q) + rest, oc2)

/-- Where the 32 positions of a block come from under a duplication map (R154, R156): one stored block in order, positions of
several, or nothing inside the tensor. -/
inductive BlockSrc where
  | one (b : Nat) | several | outside
deriving DecidableEq, Repr

/-- The source of block `b` of a row. -/
def blockSrc (e : TEnt) (m : Option DupMap) (b : Nat) : BlockSrc :=
  let ks := (List.range 32).map fun i => mapped e m (32 * b + i)
  let k0 := mapped e m (32 * b)
  if ks.all fun k => e.dim0 ≤ k then .outside
  else if k0 % 32 = 0 ∧ ks = (List.range 32).map (k0 + ·) then .one (k0 / 32)
  else .several

/-- The eight blocks of a block-format row from block `b` on (R154). Whole blocks move, so that the spec states no result for
a block whose positions come from several stored blocks: a free value (log 17). -/
def OReader.blocks (r : OReader) (s : State) (bf : BFmt) (m : Option DupMap) (row j : Nat) :
    Nat → Nat → List OcEntry → Res (List (Nat × Nat) × List OcEntry)
  | 0, _, oc => .ok ([], oc)
  | fuel + 1, b, oc => do
    match blockSrc r.e m b with
    | .one k =>
      check (row % 64 == 0) .align ((row + 512 * (k / 8)) % 2 ^ 56)
      let (ea, ma) := blockAddrs bf row k
      let (ev, oc1) ← r.bytes s 1 ea bf.elemBytes oc
      let (mv, oc2) ← r.bytes s 1 ma bf.metaBytes oc1
      let (rest, oc3) ← r.blocks s bf m row j fuel (b + 1) oc2
      .ok ((ev, mv) :: rest, oc3)
    | .several =>
      let free := (Config.mappedBlock s.freeCtr (j * 8 + fuel)).toNat
      let (rest, oc1) ← r.blocks s bf m row j fuel (b + 1) oc
      .ok ((free % 2 ^ (8 * bf.elemBytes), free / 2 ^ 256 % 2 ^ (8 * bf.metaBytes)) :: rest, oc1)
    | .outside =>
      let (rest, oc1) ← r.blocks s bf m row j fuel (b + 1) oc
      .ok (bf.zeroBlock :: rest, oc1)

/-- Row `j` of an OLOAD. -/
def OReader.row (r : OReader) (s : State) (m : Option DupMap) (k : TCoord) (klen j : Nat) (oc : List OcEntry) :
    Res (Line × List OcEntry) :=
  let inside := r.e.rowIn (k.r + j) k.i2 k.i3
  let row := r.e.rowAddr (k.r + j) k.i2 k.i3
  match BFmt.ofCode r.e.bfmt with
  | some bf =>
    if inside then do
      let (bs, oc1) ← r.blocks s bf m row j 8 (k.k / 32) oc
      .ok (segmentOf bf bs, oc1)
    else .ok (segmentOf bf (List.replicate 8 bf.zeroBlock), oc)
  | none =>
    if inside then do
      let (v, oc1) ← r.runs s row (runsFrom r.e m k.k 0 klen none) oc
      .ok (BitVec.ofNat 4096 v, oc1)
    else .ok (0, oc)

/-- The sixteen rows of an OLOAD. -/
def OReader.rows (r : OReader) (s : State) (m : Option DupMap) (k : TCoord) (klen : Nat) :
    Nat → Nat → List OcEntry → Res (Store Line × List OcEntry)
  | 0, _, oc => .ok ([], oc)
  | fuel + 1, j, oc => do
    let (l, oc1) ← r.row s m k klen j oc
    let (rest, oc2) ← r.rows s m k klen fuel (j + 1) oc1
    .ok (putD rest j l 0, oc2)

/-- The rows of an OLOAD that lie inside the tensor (R154). -/
def rowsInside (t : TEnt) (k : TCoord) : BitVec 16 :=
  (List.range 16).foldl (fun b j => if t.rowIn (k.r + j) k.i2 k.i3 then b ||| (1#16 <<< j) else b) 0

/-- How many k-positions of an OLOAD lie inside the tensor, through the duplication map where it applies (R154, R156). -/
def kInside (t : TEnt) (m : Option DupMap) (koff : Nat) : Nat :=
  (match m with
    | some d => if t.dim0 = d.kbase then d.kbase + d.chans.length else t.dim0
    | none => t.dim0) - koff

/-- OLOAD (R154, R155). A read that fails its guard tag raises GUARD (R253, R312), and one whose home is not reached NOCIRC
(R233), though Tables 44 and 85 do not list them for OLOAD (log 62). -/
def execOload (o : TM) (s : State) : HO :=
  runS s fun e c => do
    let _ ← c.claimed o.o1.toNat
    let x := o.f.toNat
    let t := c.tent x
    let k := coordOf (c.rdS e o.s)
    match klenOf t with
    | none => raise .illop
    | some klen =>
      check (t.usable && t.coordOk k && ((t.bfmt == 0 && !t.hen) || k.k % 32 == 0)) .illop
      let w := c.who s.cur
      let m ← if t.den then (do let d ← dupMap s w c.r.gver t; .ok (some d)) else .ok none
      let r : OReader := ⟨⟨c.bind.lid, c.bind.wid, x, lookD c.tgen x 0⟩, w, c.r.gver, t, false⟩
      let core := s.core (coreOf s.cur)
      let _ ← { r with look := true }.rows s m k klen 16 0 core.ocache
      let (rows, oc) ← r.rows s m k klen 16 0 core.ocache
      let tag : OTag := ⟨if t.bfmt = 0 then t.etype else 16 + t.bfmt, klen, t.hen, if t.hen then t.seed else 0⟩
      let s1 := s.setCore (coreOf s.cur) { core with ocache := oc }
      let slot : OSlot := ⟨some tag, rows, rowsInside t k, kInside t m k.k⟩
      .ok (s1.setCtx s.cur
        ({ c with mat := { c.mat with oslots := put c.mat.oslots o.o1.toNat slot } }.wroteUnit (.slot o.o1.toNat) |>.advance e))

/-! Steps (R157, R158). -/

/-- Products per K-step of a class (Table 40); none for a code that is no class. -/
def classKs (cls : Nat) : Option Nat :=
  match cls with
  | 0xD => some 1 | 0xC => some 4 | 0xA | 0xB => some 16 | 0x8 => some 32 | 0x4 => some 64
  | 0x1 => some 32 | 0x0 => some 64 | _ => none

/-- Whether a class admits a slot format (Table 40): a TYPE code, or 16 + BFMT. -/
def classAdmits (cls fmt : Nat) : Bool :=
  match cls with
  | 0xD => fmt == 13 | 0xC => fmt == 12 | 0xA => fmt == 10 | 0xB => fmt == 11
  | 0x8 => fmt == 8 || fmt == 9 || (17 ≤ fmt && fmt ≤ 20) || fmt == 22 || fmt == 24
  | 0x4 => fmt == 21 || fmt == 23 || fmt == 25
  | 0x1 => fmt == 1 || fmt == 5
  | 0x0 => fmt == 0 || fmt == 4
  | _ => false

/-- The tile format a class requires (Table 40). -/
def classTile (cls : Nat) : TileFmt :=
  match cls with
  | 0xD => .fp64 | 0x1 | 0x0 => .int32 | _ => .fp32

/-- The seeds of a pair under R54: the power of two of each product, or QSEED. -/
def pairScale (a b : OTag) : Res Int :=
  match a.hen, b.hen with
  | false, false => .ok 0
  | true, true => if a.hseed = b.hseed then .ok (-5) else raise .qseed
  | _, _ => raise .qseed

/-- The exact values of a slot row (R158). -/
def rowVals (t : OTag) (l : Line) : List Val :=
  if t.fmt < 16 then
    let ty := ElemType.ofCode t.fmt
    (lineEls l ty.width).map (valOf ty)
  else
    match BFmt.ofCode (t.fmt - 16) with
    | some bf => (List.range 8).flatMap fun j => segmentVals bf 8 l.toNat j
    | none => []

/-- The values `[q·KS, (q+1)·KS)` of a row, each with whether it may raise flags: in a nest the rows and
positions that lie outside the operand's tensor are its padded lanes (R46). The spec says nowhere which lanes are padded: a DESIGN
CHOICE (log 67). -/
def stepVals (nest : Bool) (t : OTag) (x : OSlot) (m q ks : Nat) : List (Val × Bool) :=
  let vs := (rowVals t (lookD x.rows m 0)).drop (q * ks)
  (vs.take ks).zipIdx.map fun v => (v.1, !nest || (x.rin.getLsbD m && decide (q * ks + v.2 < x.kin)))

/-- The products of one element in a K-step, with their flags; a lane that is padding in either operand raises none (R46). -/
def products (h : Int) : List (Val × Bool) → List (Val × Bool) → List (Val × Flags)
  | a :: as, b :: bs =>
    (let (p, f) := mulVal a.1 b.1; (p.scale2 h, if a.2 && b.2 then f else 0)) :: products h as bs
  | _, _ => []

/-- One element after a K-step (R56, R158). -/
def accumulate (f : TileFmt) (h : Int) (acc : Nat) (as bs : List (Val × Bool)) : Nat × Flags :=
  let ps := products h as bs
  let ty : ElemType := match f with | .fp32 => .f32 | .fp64 => .f64 | .int32 => .i32
  let (v, fl) := sumVals .rne (valOf ty acc :: ps.map (·.1))
  match f, v with
  | .int32, .fin neg n e => (intCode 32 (roundInt .rne neg n e).1, 0)
  | .int32, _ => (acc, 0)
  | _, v =>
    let (r, fl2) := deliver ty .rne v
    (r, orFlags (ps.map (·.2)) ||| fl ||| fl2)

/-- A step's places: the tile, the sub-tile and the pair of slots; whether it is a step of a nest. -/
structure StepAt where
  tile : Tile
  r : Nat
  c : Nat
  a : OTag × OSlot
  b : OTag × OSlot
  h : Int
  ks : Nat
  nest : Bool
deriving DecidableEq, Repr

/-- The new codes of row `m` of the sub-tile after a K-step, column by column. -/
def kstepRow (p : StepAt) (acc : Store (BitVec 32)) (m : Nat) (as : List (Val × Bool))
    (cols : List (Nat × List (Val × Bool))) :
    List (Nat × Flags) :=
  cols.map fun nb => accumulate p.tile.fmt p.h (tileGet acc p.tile (16 * p.r + m) (16 * p.c + nb.1)) as nb.2

/-- The rows of a K-step, from row `m` on. -/
def kstepRows (p : StepAt) (q : Nat) (cols : List (Nat × List (Val × Bool))) :
    Nat → Nat → Store (BitVec 32) × Flags → Store (BitVec 32) × Flags
  | 0, _, x => x
  | fuel + 1, m, (acc, fl) =>
    let rs := kstepRow p acc m (stepVals p.nest p.a.1 p.a.2 m q p.ks) cols
    kstepRows p q cols fuel (m + 1)
      (setRow acc p.tile (16 * p.r + m) (16 * p.c) (rs.map (·.1)), fl ||| orFlags (rs.map (·.2)))

/-- One K-step (R145, R158). -/
def kstep (p : StepAt) (q : Nat) (acc : Store (BitVec 32)) : Store (BitVec 32) × Flags :=
  kstepRows p q ((List.range 16).map fun n => (n, stepVals p.nest p.b.1 p.b.2 n q p.ks)) 16 0 (acc, 0)

/-- The K-steps from `q` on. -/
def ksteps (p : StepAt) : Nat → Nat → Store (BitVec 32) × Flags → Store (BitVec 32) × Flags
  | 0, _, x => x
  | fuel + 1, q, (acc, fl) =>
    let (acc1, f) := kstep p q acc
    ksteps p fuel (q + 1) (acc1, fl ||| f)

/-- The checks of a pair of slots (R158). -/
def pairCheck (c : Context) (cls : Nat) (a b : Nat) : Res ((OTag × OSlot) × (OTag × OSlot) × Int) := do
  let x ← c.loaded a
  let y ← c.loaded b
  check (classAdmits cls x.1.fmt && classAdmits cls y.1.fmt && x.1.klen == y.1.klen) .illop
  let h ← pairScale x.1 y.1
  .ok (x, y, h)

/-- TMMA (R157, R158). -/
def execTmma (o : TM) (s : State) : HO :=
  runC s fun e c => do
    let t ← c.needTile o.t.toNat
    let cls := o.ty.code
    match classKs cls with
    | none => raise .illop
    | some ks =>
      let _ ← c.loaded o.o1.toNat
      let _ ← c.loaded o.o2.toNat
      check (t.rt == 1 && t.ct == 1 && t.fmt == classTile cls) .illop
      let (x, y, h) ← pairCheck c cls o.o1.toNat o.o2.toNat
      let (acc, fl) := ksteps ⟨t, 0, 0, x, y, h, ks, false⟩ (x.1.klen / ks) 0 (c.mat.acc, 0)
      .ok (((c.setAcc o.t.toNat acc).addFlags fl).advance e)

/-! Nests (R159 to R161, R166). -/

/-- A signed byte of a level word (Table 41). -/
def strideOf (w : Word) (lo : Nat) : Int := intOf true 8 (bitsOf w.toNat lo 8)

/-- Words A and B of level k of a table; at task start TRIP is 1 (R159). -/
def levelA (t : Store Word) (k : Nat) : Word := lookD t (2 * k) 1
def levelB (t : Store Word) (k : Nat) : Word := lookD t (2 * k + 1) 0

def tripOf (t : Store Word) (k : Nat) : Nat := bitsOf (levelA t k).toNat 0 14

/-- MCFG (R159); it waits while the go bit is set (R166). -/
def execMcfg (o : McfgOp) (s : State) : HO :=
  runC s fun e c => do
    let a := c.rdS e o.a
    let b := c.rdS e o.b
    let k := o.k.toNat
    check (k < 6) .illop
    check (bitsOf b.toNat 32 32 == 0 && bitsOf a.toNat (if k = 0 then 40 else 14) (if k = 0 then 24 else 50) == 0) .illop
    await (!c.mat.go)
    .ok ({ c with mat := { c.mat with shadow := putD (putD c.mat.shadow (2 * k) a 1) (2 * k + 1) b 0 } }.advance e)

/-- A start value and its strides at the six levels. -/
structure Walk6 where
  base : Nat
  strides : List Int
deriving DecidableEq, Repr

/-- The least and the greatest value of a walk over trip counts (R160). -/
def Walk6.range (w : Walk6) (trips : List Nat) : Int × Int :=
  (List.zip w.strides trips).foldl (fun b st =>
    let d := st.1 * ((st.2 : Int) - 1)
    (b.1 + min 0 d, b.2 + max 0 d)) (w.base, w.base)

/-- Whether every value lies from 0 to `hi`. -/
def Walk6.within (w : Walk6) (trips : List Nat) (hi : Nat) : Bool :=
  let r := w.range trips
  0 ≤ r.1 && r.2 ≤ hi

/-- The nest a table describes (Table 41). -/
structure MatNest where
  t : Nat
  cls : Nat
  zst : Bool
  trips : List Nat
  a : Walk6
  b : Walk6
  r : Walk6
  c : Walk6
deriving DecidableEq, Repr

def matNest (tab : Store Word) : MatNest :=
  let g := (levelA tab 0).toNat
  let str (lo : Nat) : List Int := (List.range 6).map fun k => strideOf (levelB tab k) lo
  { t := bitsOf g 14 3
    cls := bitsOf g 17 4
    zst := bitsOf g 39 1 == 1
    trips := (List.range 6).map (tripOf tab)
    a := ⟨bitsOf g 21 6, str 0⟩
    b := ⟨bitsOf g 27 6, str 8⟩
    r := ⟨bitsOf g 33 3, str 16⟩
    c := ⟨bitsOf g 36 3, str 24⟩ }

/-- The number of steps. -/
def MatNest.count (n : MatNest) : Nat := n.trips.foldl (· * ·) 1

/-- The indices of step `i`, level 0 fastest. -/
def stepIndices : Nat → List Nat → List Nat
  | _, [] => []
  | i, t :: r => i % t :: stepIndices (i / t) r

/-- A walk's value at given indices. -/
def Walk6.at (w : Walk6) (ix : List Nat) : Nat :=
  ((List.zip w.strides ix).foldl (fun x si => x + si.1 * (si.2 : Int)) (w.base : Int)).toNat

/-- The pairs of slots that the steps name: one level adds at most 64 of a moving pair, since every index lies in
0 to 63 (R160). -/
def slotPairs (n : MatNest) : List (Nat × Nat) :=
  ((List.zip (List.zip n.a.strides n.b.strides) n.trips).foldl (fun ps lv =>
    if lv.1 = (0, 0) then ps
    else (ps.flatMap fun p => (List.range (min lv.2 64)).map fun (i : Nat) =>
      (p.1 + lv.1.1 * (i : Int), p.2 + lv.1.2 * (i : Int))).eraseDups)
    [((n.a.base : Int), (n.b.base : Int))]).map fun p => (p.1.toNat, p.2.toNat)

/-- A check over a list. -/
def checkAll {α : Type} (f : α → Res Unit) : List α → Res Unit
  | [] => .ok ()
  | x :: r => do f x; checkAll f r

/-- The checks of a nest's start (R160). -/
def nestCheck (c : Context) (n : MatNest) : Res Unit := do
  let t ← c.needTile n.t
  check ((classKs n.cls).isSome && t.fmt == classTile n.cls) .illop
  if n.trips.contains 0 then .ok ()
  else do
    check (n.a.within n.trips 63 && n.b.within n.trips 63 && n.r.within n.trips (t.rt - 1) &&
      n.c.within n.trips (t.ct - 1)) .illop
    let ps := slotPairs n
    checkAll (fun p => do let _ ← c.loaded p.1; let _ ← c.loaded p.2; .ok ()) ps
    checkAll (fun p => do
      let x ← c.loaded p.1
      let y ← c.loaded p.2
      check (classAdmits n.cls x.1.fmt && classAdmits n.cls y.1.fmt && x.1.klen == y.1.klen) .illop) ps
    checkAll (fun p => do let _ ← pairCheck c n.cls p.1 p.2; .ok ()) ps

/-- What a nest reads of the context's own arrays (R324): its tile, unless ZST zeroes it first, and the slots that its steps
name; an empty one reads nothing. -/
def nestReads (n : MatNest) : List OwnPart :=
  if n.trips.contains 0 then []
  else (if n.zst then [] else [.tile n.t]) ++ (slotPairs n).flatMap fun p => [.slot p.1, .slot p.2]

/-- What step `i` of a nest that runs reads of the context's own arrays. -/
def stepReads (n : MatNest) (i : Nat) : List OwnPart :=
  let ix := stepIndices i n.trips
  [.tile n.t, .slot (n.a.at ix), .slot (n.b.at ix)]

/-- The ECCU of MAT for an uncorrectable part that a nest reads (R324). -/
def nestEcc (pos : Nat) : Trap := { code := .eccu, eng := some 2, found := some (coreRes pos) }

/-- The nest starts: the shadow table becomes active, the go bit clears, and ZST zeroes the tile, which is correct again
(R160, R325). -/
def nestBegin (c : Context) : Res Context := do
  let n := matNest c.mat.shadow
  nestCheck c n
  let zeroes := n.zst && !n.trips.contains 0
  let acc := match c.tile? n.t with
    | some t => if zeroes then tileZero c.mat.acc t else c.mat.acc
    | none => c.mat.acc
  .ok { c.wroteUnit (.tile n.t) with
    own := c.own.filter fun u => !(zeroes && u == .tile n.t)
    mat := { c.mat with
      active := c.mat.shadow
      go := false
      running := true
      steps := 0
      stepAt := 0
      kAt := 0
      nflags := 0
      acc := acc } }

/-- One K-step of the running nest (R160): nothing remains once `stepAt` is the step count. A step whose tile or pair of slots
does not pass its checks any more, because a handler has changed them between two K-steps, is passed over with no fault and
no count in STEPS: a DESIGN CHOICE, since R160 says only that a checked step cannot fault (log 47). -/
def nestKstep (c : Context) : Context :=
  let n := matNest c.mat.active
  let ix := stepIndices c.mat.stepAt n.trips
  match c.tile? n.t, classKs n.cls, pairCheck c n.cls (n.a.at ix) (n.b.at ix) with
  | some t, some ks, .ok (x, y, h) =>
    let (acc, fl) := kstep ⟨t, n.r.at ix, n.c.at ix, x, y, h, ks, true⟩ c.mat.kAt c.mat.acc
    let last := x.1.klen / ks ≤ c.mat.kAt + 1
    { c.wroteUnit (.tile n.t) with
      mat := { c.mat with
        acc := acc
        nflags := c.mat.nflags ||| fl
        kAt := if last then 0 else c.mat.kAt + 1
        stepAt := if last then c.mat.stepAt + 1 else c.mat.stepAt
        steps := if last then c.mat.steps + 1 else c.mat.steps } }
  | _, _, _ => { c with mat := { c.mat with stepAt := c.mat.stepAt + 1, kAt := 0 } }

/-- Whether the running nest has steps left. -/
def nestLeft (c : Context) : Bool := c.mat.stepAt < (matNest c.mat.active).count

/-- The nest completes and its flags merge (R160). -/
def nestFinish (c : Context) : Context :=
  ({ c with mat := { c.mat with running := false, nflags := 0 } }).addFlags c.mat.nflags

/-- All K-steps of a nest, up to `fuel`. -/
def nestRun : Nat → Context → Context
  | 0, c => c
  | fuel + 1, c => if nestLeft c then nestRun fuel (nestKstep c) else c

/-- The K-steps a nest can take at most: KLEN / KS is at most 64 (R152, Table 40). -/
def nestFuel (c : Context) : Nat := 64 * (matNest c.mat.active).count

/-- A fault of MAT, raised at the slot where MAT stands (R160, R166). -/
def asMat : Stop → Stop
  | .trap t => .trap { t with eng := some 2 }
  | .wait => .wait

/-- MGO (R160, R166): with one program counter the nest completes before the next instruction; else it sets the go
bit and CTL goes on. In handler mode it waits for ever while the context's own nest stands stopped, which does not move
there: a DESIGN CHOICE, since the spec does not say what it does (log 48). -/
def execMgo (s : State) : HO :=
  runC s fun e c => do
    await (!c.mat.go)
    if c.together then do
      await (!c.mat.running)
      match nestBegin { c with mat := { c.mat with go := true } } with
      | .error st => .error (asMat st)
      | .ok c1 => .ok ((nestFinish (nestRun (nestFuel c1) c1)).advance e)
    else .ok ({ c with mat := { c.mat with go := true } }.advance e)

/-- MWAIT (R161). In handler mode it waits for ever while the context's own nest stands stopped (log 48). -/
def execMwait (s : State) : HO :=
  runC s fun e c => do
    await (!c.mat.go && !c.mat.running)
    .ok (c.advance e)

/-- MSTAT (Table 42). -/
def execMstat (d : Reg) (s : State) : HO :=
  runC s fun e c =>
    .ok ((c.wrS d (BitVec.ofNat 64 ((if c.mat.running then 1 else 0) + (if c.mat.go then 2 else 0) +
      c.mat.steps % 2 ^ 32 * 2 ^ 32))).advance e)

/-- Whether MAT stands at an MGO that CTL has passed, so that a nest with the go bit set starts there (R160, R166). -/
def matAtGo (s : State) (pos : Nat) (c : Context) : Bool :=
  !c.together && !c.still && c.pos.mat.idx < c.pos.ctl.idx &&
    match fetchSlot s (c.who pos) c.pos.mat with
    | .error _ => false
    | .ok x => !x.inside c.pos.mat && (match x.dec with | .ok .mgo => true | _ => false)

/-- MAT reaches the MGO whose go bit is set, and the nest starts there (R160). -/
def execMatrixNestStart (pos : Nat) (s : State) : HO :=
  match s.ctx? pos with
  | none => .next s
  | some c =>
    if c.mat.go && !c.mat.running && matAtGo s pos c then
      if (nestReads (matNest c.mat.shadow)).any c.own.contains then .next (takeTrap s pos c .mat (nestEcc pos))
      else
        match nestBegin c with
        | .ok c1 => .next (s.setCtx pos { c1 with late := c1.late.filter (·.eng != .mat) })
        | .error st => .next (stopWith s pos c .mat (asMat st))
    else .next s

/-- The last K-step is done: the nest completes, and MAT passes the MGO (R160, R166). -/
def execMatrixNestComplete (pos : Nat) (s : State) : HO :=
  match s.ctx? pos with
  | none => .next s
  | some c =>
    if c.mat.running && !nestLeft c && !c.still && !c.handler then
      let c1 := nestFinish c
      .next (s.setCtx pos (if c.mat.loose then { c1 with mat := { c1.mat with loose := false } } else c1.advance .mat))
    else .next s

/-! TOUT (R162 to R164). -/

/-- The activation of F[1:0] (R162, R163). -/
def actVal (k : Nat) (v : Val) : Val × Flags :=
  match k with
  | 1 => reluVal v
  | 2 => geluVal v
  | 3 => siluVal v
  | _ => (v, 0)

/-- What TOUT is asked (R162). -/
structure ToutArgs where
  act : Nat
  bias : Bool
  qnt : Bool
  zb : Bool
  coord : Nat
  bline : Nat
  qx : Nat
deriving DecidableEq, Repr

def toutArgs (o : TM) (s : Word) : ToutArgs :=
  let f := o.f.toNat
  { act := f % 4, bias := f / 4 % 2 == 1, qnt := f / 8 % 2 == 1, zb := f / 32 % 2 == 1
    coord := s.toNat % 2 ^ 32, bline := bitsOf s.toNat 32 11, qx := bitsOf s.toNat 43 6 }

/-- The mode of element (r, j) (R163): SR uses the lane word of the coordinate word. -/
def toutMode (c : Context) (o : TM) (a : ToutArgs) (r j : Nat) : RMode :=
  .ofRm o.rm c.r.fpmode (laneWord c.r.srseed.toNat a.coord r j)

/-- The mode that gives an exact zero sum its sign (R43, R163): SR counts as RNE. -/
def zeroMode (c : Context) (rm : Rm) : RMode := if rm = .sr then .rne else .ofRm rm c.r.fpmode 0

/-- One element of a floating-point tile (R163). -/
def toutFp (c : Context) (o : TM) (a : ToutArgs) (t : Tile) (bias : List Nat) (r j : Nat) : Nat × Flags :=
  let ty : ElemType := if t.fmt = .fp64 then .f64 else .f32
  let x := valOf ty (tileGet c.mat.acc t r j)
  let (v, f1) := if a.bias then sumVals (zeroMode c o.rm) [x, valOf ty (bias.getD j 0)] else (x, 0)
  let (y, f2) := actVal a.act v
  let (z, f3) := deliver (if a.qnt then .f32 else o.ty) (toutMode c o a r j) y
  (z, f1 ||| f2 ||| f3)

/-- One element of an INT32 tile (R163). -/
def toutInt (c : Context) (o : TM) (a : ToutArgs) (t : Tile) (bias : List Nat) (r j : Nat) : Nat × Flags :=
  let x := intOf true 32 (tileGet c.mat.acc t r j)
  let v := if a.bias then intOf true 32 (intCode 32 (x + intOf true 32 (bias.getD j 0))) else x
  let y := if a.act = 1 then max v 0 else v
  if o.ty.isInt then clampTo o.ty y else deliver o.ty (toutMode c o a r j) (.ofInt y)

/-- The elements of row r. -/
def toutRow (c : Context) (o : TM) (a : ToutArgs) (t : Tile) (bias : List Nat) (r : Nat) : List (Nat × Flags) :=
  (List.range t.cols).map fun j =>
    if t.fmt = .int32 then toutInt c o a t bias r j else toutFp c o a t bias r j

/-- The blocks of a quantised row (R163). -/
def toutBlocks (c : Context) (o : TM) (a : ToutArgs) (bf : BFmt) (t : Tile) (r : Nat) (xs : List Nat) : List QBlock :=
  (List.range (t.cols / 32)).map fun g =>
    bf.quantBlock (((xs.drop (32 * g)).take 32).map (valOf .f32)) fun i => toutMode c o a r (32 * g + i)

/-- The line of row r and its flags (R163, R164). -/
def toutLine (c : Context) (o : TM) (a : ToutArgs) (bf : Option BFmt) (t : Tile) (bias : List Nat) (r : Nat) :
    Line × Flags :=
  let es := toutRow c o a t bias r
  let xs := es.map (·.1)
  let f1 := orFlags (es.map (·.2))
  let (l, f2) := match bf with
    | some b =>
      let qs := toutBlocks c o a b t r xs
      (segment b qs, orFlags (qs.map (·.all)) ||| orFlags (qs.map fun q => orFlags q.flags))
    | none => (lineOfEls o.ty.width xs, 0)
  if a.zb then
    let (z, dropped) := zbEncode (if bf.isSome then 8 else o.ty.width) l
    (z, f1 ||| f2 ||| (if dropped then fNX else 0))
  else (l, f1 ||| f2)

/-- The rows of TOUT written, with their flags. -/
def toutPut (src : Context) (o : TM) (a : ToutArgs) (bf : Option BFmt) (t : Tile) (bias : List Nat) (n : Nat) (c : Context) :
    Nat → Context
  | 0 => c
  | r + 1 =>
    let (l, fl) := toutLine src o a bf t bias r
    ((toutPut src o a bf t bias n c r).wrL (n + r) l).addFlags fl

/-- The block format that F[3] selects (R163). -/
def toutFormat (c : Context) (o : TM) (a : ToutArgs) (t : Tile) : Res (Option BFmt) :=
  if a.qnt then
    let b := c.blockEntry a.qx
    match BFmt.ofCode b.bfmt with
    | some bf =>
      if t.fmt != .int32 && o.ty == .f32 && b.v && b.etype == 0 && !b.hen && t.cols % 32 == 0 then .ok (some bf)
      else raise .illop
    | none => raise .illop
  else .ok none

/-- TOUT (R162 to R164). -/
def execTout (o : TM) (s : State) : HO :=
  runC s fun e c => do
    check o.wfTout .illop
    let t ← c.needTile o.t.toNat
    let w := c.rdS e o.s
    let a := toutArgs o w
    check (bitsOf w.toNat 49 15 == 0 && (a.bias || a.bline == 0) && (a.qnt || a.qx == 0)) .illop
    check (!(t.fmt == .int32 && 2 ≤ a.act) && t.cols * o.ty.width ≤ 4096) .illop
    let bf ← toutFormat c o a t
    let b ← c.dstLine e o.l
    let n ← c.inWin t.rows b
    if a.bias then c.needLine a.bline else .ok ()
    let bias := if a.bias then lineEls (c.rdL a.bline) t.width else []
    .ok ((toutPut c o a bf t bias n c t.rows).advance e)

end Sys2Proof.Machine
end

