-- ==== Sys2Proof/Machine/Spe.lean ====
section
/-!
DEFINITION. The sum-product engine: y registers, moves, subtree records and SPNORM (spec/07 R168 to R181; spec/02 R58).
-/
namespace Sys2Proof.Machine

/-- The value format of SPM.MODE (R168). -/
def spType (mode : Nat) : ElemType :=
  match mode % 4 with
  | 0 => .f32 | 1 => .bf16 | 2 => .f64 | _ => .sp32

/-- The registers a value takes (R168). -/
def spStep (mode : Nat) : Nat := if mode % 4 = 2 then 2 else 1

/-- The code of the value at y index i (R168). -/
def yGet (y : Store (BitVec 32)) (mode i : Nat) : Nat :=
  match mode % 4 with
  | 1 => (lookD y i 0).toNat % 2 ^ 16
  | 2 => (lookD y i 0).toNat + (lookD y ((i + 1) % 4096) 0).toNat * 2 ^ 32
  | _ => (lookD y i 0).toNat

/-- Write a value's code at y index i (R168). -/
def yPut (y : Store (BitVec 32)) (mode i v : Nat) : Store (BitVec 32) :=
  match mode % 4 with
  | 1 => putD y i (BitVec.ofNat 32 (v % 2 ^ 16)) 0
  | 2 => putD (putD y i (BitVec.ofNat 32 v) 0) ((i + 1) % 4096) (BitVec.ofNat 32 (v / 2 ^ 32)) 0
  | _ => putD y i (BitVec.ofNat 32 v) 0

/-- The y registers written (R330): a bank whose registers change is no copy of the save area's any more. -/
def Context.setY (c : Context) (y : Store (BitVec 32)) : Context :=
  { c with
    y := y
    clean := c.clean.filter fun u => match u with
      | .ybank b => c.y.filter (fun e => e.1 % 16 == b) == y.filter (fun e => e.1 % 16 == b)
      | _ => true }

/-- SPMODE (R170). -/
def execSpmode (o : SPF) (s : State) : HO :=
  runC s fun e c => do
    check (o.m.toNat ≤ 3) .illop
    .ok ({ c with spmode := o.m.toNat }.advance e)

/-- The registers a move takes: CNT + 1. -/
def spCount (o : SPF) : Nat := o.cnt.toNat + 1

/-- The lines of SPLD and SPST (R171). -/
def spLines (o : SPF) : Nat := if 128 < spCount o then 2 else 1

/-- SPLD's registers from `i` down (R171). -/
def spldFrom (c : Context) (n ya : Nat) (y : Store (BitVec 32)) : Nat → Store (BitVec 32)
  | 0 => y
  | i + 1 => spldFrom c n ya (putD y (ya + i) (BitVec.ofNat 32 (lineEl (c.rdL (n + i / 128)) 32 (i % 128))) 0) i

/-- SPLD (R171). -/
def execSpld (o : SPF) (s : State) : HO :=
  runC s fun e c => do
    check (o.inRange o.ya) .illop
    let b ← c.srcLine e o.l
    let n ← c.inWin (spLines o) b
    .ok ((c.setY (spldFrom c n o.ya.toNat c.y (spCount o))).advance e)

/-- SPST's elements from `i` down (R171). -/
def spstFrom (ya n : Nat) (c : Context) : Nat → Context
  | 0 => c
  | i + 1 =>
    spstFrom ya n (c.wrL (n + i / 128)
      (lineSetEl (c.rdL (n + i / 128)) 32 (i % 128) (lookD c.y (ya + i) 0).toNat)) i

/-- SPST (R171). -/
def execSpst (o : SPF) (s : State) : HO :=
  runC s fun e c => do
    check (o.inRange o.ya) .illop
    let b ← c.dstLine e o.l
    let n ← c.inWin (spLines o) b
    .ok ((spstFrom o.ya.toNat n c (spCount o)).advance e)

/-- Registers copied from an old file, from `i` down (R172). -/
def spmovFrom (old : Store (BitVec 32)) (ya yb : Nat) (y : Store (BitVec 32)) : Nat → Store (BitVec 32)
  | 0 => y
  | i + 1 => spmovFrom old ya yb (putD y (ya + i) (lookD old (yb + i) 0) 0) i

/-- SPMOV (R172). -/
def execSpmov (o : SPF) (s : State) : HO :=
  runC s fun e c => do
    check (o.inRange o.ya && o.inRange o.yb) .illop
    .ok ((c.setY (spmovFrom c.y o.ya.toNat o.yb.toNat c.y (spCount o))).advance e)

/-- SPCLR (R172). -/
def execSpclr (o : SPF) (s : State) : HO :=
  runC s fun e c => do
    check (o.inRange o.ya) .illop
    .ok ((c.setY (c.y.filter fun r => r.1 < o.ya.toNat || o.ya.toNat + spCount o ≤ r.1)).advance e)

/-! Subtree records (R69, R174 to R178). -/

/-- Node operations (R58, R69). -/
inductive NodeOp where
  | add | mul | wsum | passl | passr
deriving DecidableEq, Repr

/-- A child of a node: a leaf or a node. -/
inductive Child where
  | leaf (j : Nat)
  | node (n : Nat)
deriving DecidableEq, Repr

/-- The left and right child of a node (R69). -/
def children (n : Nat) : Child × Child :=
  match n with
  | 4 => (.node 0, .node 1)
  | 5 => (.node 2, .node 3)
  | 6 => (.node 4, .node 5)
  | k => (.leaf (2 * k), .leaf (2 * k + 1))

def treeActive (t : Subtree) (n : Nat) : Bool := t.nmask.getLsbD n

def treeOp (t : Subtree) (n : Nat) : NodeOp :=
  match bitsAt t.nops (3 * n) 3 with
  | 0 => .add | 1 => .mul | 2 => .wsum | 3 => .passl | _ => .passr

def treeLeaf (t : Subtree) (j : Nat) : Nat := bitsAt t.leaves (12 * j) 12
def treeWgt (t : Subtree) (n : Nat) : Nat := bitsAt t.wgts (12 * n) 12

/-- The keep entries in use: destination and node. -/
def treeKeeps (t : Subtree) : List (Nat × Nat) :=
  (List.range t.kcnt.toNat).map fun k => (bitsAt t.keeps (15 * k) 12, bitsAt t.keeps (15 * k + 12) 3)

/-- The children an operation reads (R174). -/
def readsOf (op : NodeOp) (cs : Child × Child) : List Child :=
  match op with
  | .passl => [cs.1]
  | .passr => [cs.2]
  | _ => [cs.1, cs.2]

/-- The children node n reads. -/
def nodeReads (t : Subtree) (n : Nat) : List Child := readsOf (treeOp t n) (children n)

/-- The active nodes in order. -/
def activeNodes (t : Subtree) : List Nat := (List.range 7).filter (treeActive t)

/-- The leaves that are read (R174). -/
def leavesRead (t : Subtree) : List Nat :=
  (List.range 8).filter fun j => (activeNodes t).any fun n => (nodeReads t n).contains (.leaf j)

/-- Whether a node is reached (R174): node 6, or read by a reached node. -/
def reached (t : Subtree) (n : Nat) : Bool :=
  let by6 (k : Nat) : Bool := (nodeReads t 6).contains (.node k)
  match n with
  | 6 => true
  | 4 | 5 => by6 n
  | 0 | 1 => by6 4 && (nodeReads t 4).contains (.node n)
  | _ => by6 5 && (nodeReads t 5).contains (.node n)

/-- R174's presence rules. -/
def presenceOk (t : Subtree) : Bool :=
  treeActive t 6 &&
  (activeNodes t).all (fun n => (nodeReads t n).all fun c => match c with
    | .node k => treeActive t k
    | .leaf _ => true) &&
  (List.range 8).all (fun j => (leavesRead t).contains j || treeLeaf t j == 0)

/-- R175's weight rules. -/
def weightsOk (t : Subtree) (step : Nat) : Bool :=
  (List.range 7).all fun n =>
    t.wmask.getLsbD n == (treeActive t n && treeOp t n == .wsum) &&
    (!t.wmask.getLsbD n || treeWgt t n + step ≤ 4095)

/-- R176's keep rules. -/
def keepsOk (t : Subtree) : Bool :=
  let ns := (treeKeeps t).map (·.2)
  ns.all (treeActive t) && ns.eraseDups.length == ns.length

/-- Weight derivatives are on (R175, R180). -/
def wderiv (t : Subtree) : Bool := t.wmask.getLsbD 7

/-- Every index of R168 even in the f64 mode. -/
def evenOk (t : Subtree) (down : Bool) : Bool :=
  let ev (n : Nat) : Bool := n % 2 == 0
  ((leavesRead t).map (treeLeaf t)).all ev &&
  (((List.range 7).filter fun n => t.wmask.getLsbD n).map (treeWgt t)).all ev &&
  ev t.root.toNat && ((treeKeeps t).map (·.1)).all ev &&
  (!down || (ev t.doff.toNat && (!wderiv t || ev (treeWgt t 7))))

/-- Every node value that SPDN needs is kept (R180). -/
def neededKept (t : Subtree) : Bool :=
  let kept (c : Child) : Bool := match c with
    | .node k => ((treeKeeps t).map (·.2)).contains k
    | .leaf _ => true
  (activeNodes t).all fun n =>
    !reached t n ||
    (match treeOp t n with
     | .mul => (nodeReads t n).all kept
     | .wsum => !wderiv t || (nodeReads t n).all kept
     | _ => true)

/-- R178's bank rule. -/
def banksOk (t : Subtree) : Bool :=
  let u := ((leavesRead t).map (treeLeaf t)).eraseDups
  (List.range 16).all fun b => (u.filter fun i => i % 16 == b).length ≤ 2

/-- CheckRecord (R177), in its order. -/
def checkRecord (t : Subtree) (mode : Nat) (down : Bool) : Res Unit := do
  check (t.wf && presenceOk t && weightsOk t (spStep mode) && keepsOk t &&
    (down || (!wderiv t && t.doff == 0))) .illop
  check (mode % 4 != 2 || evenOk t down) .illop
  check (!down || neededKept t) .illop
  check (banksOk t) .spbank

/-- A computed node: its code and flags so far. -/
abbrev NodeVals := Store Nat

/-- The code of a child's value. -/
def childCode (t : Subtree) (y : Store (BitVec 32)) (mode : Nat) (vs : NodeVals) : Child → Nat
  | .leaf j => yGet y mode (treeLeaf t j)
  | .node k => lookD vs k 0

/-- A value passed without rounding: a NaN becomes canonical and an SP32 reserved code zero (R35, R36, R179). -/
def passCode (ty : ElemType) (code : Nat) : Nat × Flags :=
  let v := valOf ty code
  if v.isNan then (canonNanOf ty, if v.isSig then fIV else 0) else (canonCode ty code, 0)

/-- One node of SPUP (R58, R179). -/
def nodeValue (t : Subtree) (y : Store (BitVec 32)) (mode : Nat) (vs : NodeVals) (n : Nat) : Nat × Flags :=
  let ty := spType mode
  let l := childCode t y mode vs (children n).1
  let r := childCode t y mode vs (children n).2
  let out (x : Val × Flags) : Nat × Flags := let (c, fl) := deliver ty .rne x.1; (c, x.2 ||| fl)
  match treeOp t n with
  | .add => out (sumVals .rne [valOf ty l, valOf ty r])
  | .mul => out (mulVal (valOf ty l) (valOf ty r))
  | .wsum =>
    let (p, f1) := mulVal (valOf ty (yGet y mode (treeWgt t n))) (valOf ty l)
    let (q, f2) := mulVal (valOf ty (yGet y mode (treeWgt t n + spStep mode))) (valOf ty r)
    let (v, f3) := sumVals .rne [p, q]
    out (v, f1 ||| f2 ||| f3)
  | .passl => passCode ty l
  | .passr => passCode ty r

/-- The nodes of SPUP in order. -/
def upNodes (t : Subtree) (y : Store (BitVec 32)) (mode : Nat) : List Nat → NodeVals × Flags → NodeVals × Flags
  | [], x => x
  | n :: r, (vs, fl) =>
    let (v, f) := nodeValue t y mode vs n
    upNodes t y mode r (putD vs n v 0, fl ||| f)

/-- SPUP's effect on the y registers, and its flags (R179). -/
def spupEffect (t : Subtree) (mode : Nat) (y : Store (BitVec 32)) : Store (BitVec 32) × Flags :=
  let (vs, fl) := upNodes t y mode (activeNodes t) ([], 0)
  let y1 := (treeKeeps t).foldl (fun y k => yPut y mode k.1 (lookD vs k.2 0)) y
  (yPut y1 mode t.root.toNat (lookD vs 6 0), fl)

/-- SPUP (R179). -/
def execSpup (o : SpRec) (s : State) : HO :=
  runC s fun e c => do
    checkRecord o.tree c.spmode false
    let (y, fl) := spupEffect o.tree c.spmode c.y
    .ok (((c.setY y).addFlags fl).advanceRecord e)

/-- value(c) of SPDN (R180). -/
def downValue (t : Subtree) (y : Store (BitVec 32)) (mode : Nat) : Child → Val
  | .leaf j => valOf (spType mode) (yGet y mode (treeLeaf t j))
  | .node k =>
    match (treeKeeps t).find? fun e => e.2 == k with
    | some e => valOf (spType mode) (yGet y mode e.1)
    | none => .fin false 0 0

/-- The factor of a child (R180); none stands for 1. -/
def factor (t : Subtree) (y : Store (BitVec 32)) (mode n : Nat) (left : Bool) : Option Val :=
  let cs := children n
  match treeOp t n with
  | .wsum => some (valOf (spType mode) (yGet y mode (treeWgt t n + (if left then 0 else spStep mode))))
  | .mul => some (downValue t y mode (if left then cs.2 else cs.1))
  | _ => none

/-- Derivatives on the way down: node derivatives' codes, leaf contributions and flags. -/
structure Down where
  g : Store Nat := []
  leaves : Store (Val × Val) := []
  flags : Flags := 0
deriving DecidableEq, Repr

/-- The value one. -/
def oneVal : Val := .fin false 1 0

/-- Carry node n's derivative to one child (R180). -/
def downChild (t : Subtree) (y : Store (BitVec 32)) (mode n : Nat) (left : Bool) (d : Down) : Down :=
  let ty := spType mode
  let gn := lookD d.g n 0
  let c := if left then (children n).1 else (children n).2
  match c, factor t y mode n left with
  | .leaf j, f => { d with leaves := put d.leaves j (valOf ty gn, f.getD oneVal) }
  | .node k, none => { d with g := putD d.g k gn 0 }
  | .node k, some f =>
    let (p, f1) := mulVal (valOf ty gn) f
    let (v, f2) := deliver ty .rne p
    { d with g := putD d.g k v 0, flags := d.flags ||| f1 ||| f2 }

/-- One node of SPDN (R180). -/
def downNode (t : Subtree) (y : Store (BitVec 32)) (mode : Nat) (d : Down) (n : Nat) : Down :=
  if treeActive t n && reached t n then
    match treeOp t n with
    | .passl => downChild t y mode n true d
    | .passr => downChild t y mode n false d
    | _ => downChild t y mode n false (downChild t y mode n true d)
  else d

/-- One accumulation, reading its register at that moment (R180). -/
def accumY (mode : Nat) (yf : Store (BitVec 32) × Flags) (i : Nat) (a b : Val) : Store (BitVec 32) × Flags :=
  let ty := spType mode
  let (p, f1) := mulVal a b
  let (v, f2) := sumVals .rne [valOf ty (yGet yf.1 mode i), p]
  let (c, f3) := deliver ty .rne v
  (yPut yf.1 mode i c, yf.2 ||| f1 ||| f2 ||| f3)

/-- SPDN's effect on the y registers, and its flags (R180). -/
def spdnEffect (t : Subtree) (mode : Nat) (y : Store (BitVec 32)) : Store (BitVec 32) × Flags :=
  let d0 : Down := { g := putD [] 6 (yGet y mode t.root.toNat) 0 }
  let d := [6, 5, 4, 3, 2, 1, 0].foldl (downNode t y mode) d0
  let s1 := d.leaves.foldl (fun yf e =>
    accumY mode yf ((treeLeaf t e.1 + t.doff.toNat) % 4096) e.2.1 e.2.2) (y, d.flags)
  if wderiv t then
    (activeNodes t).foldl (fun yf n =>
      if reached t n && treeOp t n == .wsum then
        let g := valOf (spType mode) (lookD d.g n 0)
        let dl := (treeWgt t n + treeWgt t 7) % 4096
        accumY mode (accumY mode yf dl g (downValue t y mode (children n).1))
          ((dl + spStep mode) % 4096) g (downValue t y mode (children n).2)
      else yf) s1
  else s1

/-- SPDN (R180). -/
def execSpdn (o : SpRec) (s : State) : HO :=
  runC s fun e c => do
    checkRecord o.tree c.spmode true
    let (y, fl) := spdnEffect o.tree c.spmode c.y
    .ok (((c.setY y).addFlags fl).advanceRecord e)

/-! SPNORM (R181). -/

/-- The divisor and its flags: M 0 is y[YB], 1 the sum, 2 the greatest (R181). -/
def normDivisor (m mode yb : Nat) (y : Store (BitVec 32)) (vs : List Nat) : Nat × Flags :=
  let ty := spType mode
  match m with
  | 0 => (yGet y mode yb, 0)
  | k =>
    let r : Reduction := if k = 1 then .sum else .max
    match vs with
    | [x] => passCode ty x
    | _ => treeReduce (r.combine ty .rne) 8 vs

/-- The quotients written, from value `i` on (R181). -/
def normPut (mode ya : Nat) (d : Val) : Nat → List Nat → Store (BitVec 32) × Flags → Store (BitVec 32) × Flags
  | _, [], x => x
  | i, v :: r, (y, fl) =>
    let (q, f1) := divVal (valOf (spType mode) v) d
    let (c, f2) := deliver (spType mode) .rne q
    normPut mode ya d (i + 1) r (yPut y mode (ya + i * spStep mode) c, fl ||| f1 ||| f2)

/-- SPNORM (R181). -/
def execSpnorm (o : SPF) (s : State) : HO :=
  runC s fun e c => do
    let mode := c.spmode
    let n := spCount o
    let ya := o.ya.toNat
    let yb := o.yb.toNat
    check (o.m.toNat ≤ 2 && ya + n * spStep mode ≤ 4096) .illop
    check (mode % 4 != 2 || (ya % 2 == 0 && yb % 2 == 0)) .illop
    let vs := (List.range n).map fun i => yGet c.y mode (ya + i * spStep mode)
    let (d, f1) := normDivisor o.m.toNat mode yb c.y vs
    let (y1, f2) := normPut mode ya (valOf (spType mode) d) 0 vs (c.y, 0)
    let y2 := if o.m = 0 then y1 else yPut y1 mode yb d
    .ok (((c.setY y2).addFlags (f1 ||| f2)).advance e)

end Sys2Proof.Machine
end

