-- ==== Sys2Proof/Machine/Foot.lean ====
section
/-!
DEFINITION. What an instruction reads and writes: registers (spec/09 R190, R202), window lines (spec/09 R192, R201) and
memory (spec/13 R302), and its latency (Tables 31, 43, 47 and 67).
-/
namespace Sys2Proof.Machine

/-- What one instruction, or one issue of a nest, touches. Lines and memory are given as first number and count. `mayR` and
`mayW` say that it accesses memory at all, and `unk` that its addresses are not known yet, because a register or an index line
that they come from has still to be written. -/
structure Foot where
  regR : List RegName := []
  regW : List RegName := []
  lineR : List (Nat × Nat) := []
  lineW : List (Nat × Nat) := []
  memR : List (Nat × Nat) := []
  memW : List (Nat × Nat) := []
  mayR : Bool := false
  mayW : Bool := false
  unk : Bool := false
deriving DecidableEq, Repr

def Foot.join (x y : Foot) : Foot :=
  ⟨x.regR ++ y.regR, x.regW ++ y.regW, x.lineR ++ y.lineR, x.lineW ++ y.lineW, x.memR ++ y.memR, x.memW ++ y.memW,
    x.mayR || y.mayR, x.mayW || y.mayW, x.unk || y.unk⟩

/-- Some read of memory, which an access whose addresses are not known counts as. -/
def Foot.reads (f : Foot) : Bool := !f.memR.isEmpty || (f.unk && f.mayR)

/-- Some write of memory. -/
def Foot.writes (f : Foot) : Bool := !f.memW.isEmpty || (f.unk && f.mayW)

/-- Some access to memory. -/
def Foot.mem (f : Foot) : Bool := f.reads || f.writes

/-- Some access to a window line. -/
def Foot.line (f : Foot) : Bool := !f.lineR.isEmpty || !f.lineW.isEmpty

/-- The streams touched, as SBAR's mask names them (R201): reads, writes, memory. -/
def Foot.streams (f : Foot) : BitVec 3 :=
  (if f.lineR.isEmpty then 0#3 else 1#3) ||| (if f.lineW.isEmpty then 0#3 else 2#3) ||| (if f.mem then 4#3 else 0#3)

/-- Scalars as register names; s0 is none. -/
def sNames (rs : List Reg) : List RegName := (rs.filter (· != 0)).map fun r => .s r.toNat

/-- A predicate as register names: its physical register, and RBASE where the name rotates (R16). -/
def pNames (rb n : Nat) : List RegName :=
  if n < 2 then [] else .p (predPhys rb n) :: (if n < 8 then [] else [.rbase])

/-- Scalars read and written. -/
def footS (d : List Reg) (as : List Reg) : Foot := { regR := sNames as, regW := sNames d }

/-- What naming a line as a source reads (R16, R18). -/
def srcNames : Spec → List RegName
  | .reg v => if v.toNat < 32 then [] else [.rbase]
  | .line _ => []
  | .handle h => [.head h.toNat]
  | .scalar r => sNames [r]

/-- What naming a line as a destination reads, and the exchange register it names (R18, R72). -/
def dstNames : Spec → List RegName
  | .reg v => if v.toNat < 32 then [] else [.rbase]
  | .line _ => []
  | .handle h => [.tail h.toNat]
  | .scalar _ => []

/-- Lines from an offset; none of them below 0, which an access does not reach. -/
def span (n : Int) (k : Nat) : List (Nat × Nat) := [(n.toNat, if 0 ≤ n then k else 0)]

/-- `k` lines of a source. -/
def srcLines (c : Context) (e : Engine) (x : Spec) (off : Int) (k : Nat) : List (Nat × Nat) :=
  match x with
  | .scalar _ => []
  | x => match c.srcLine e x with
    | .ok n => span (n + off) k
    | .error _ => []

/-- `k` lines of a destination. -/
def dstLines (c : Context) (e : Engine) (x : Spec) (off : Int) (k : Nat) : List (Nat × Nat) :=
  match c.dstLine e x with
  | .ok n => span (n + off) k
  | .error _ => []

/-- A source of `k` lines. -/
def footSrc (c : Context) (e : Engine) (x : Spec) (off : Int) (k : Nat) : Foot :=
  { regR := srcNames x, lineR := srcLines c e x off k }

/-- A destination of `k` lines, or an exchange register. -/
def footDst (c : Context) (e : Engine) (x : Spec) (off : Int) (k : Nat) : Foot :=
  { regR := dstNames x
    regW := match exchOf x with | some n => [.ex n] | none => []
    lineW := dstLines c e x off k }

/-- Predicates read. -/
def footP (c : Context) (e : Engine) (ns : List (BitVec 4)) : Foot :=
  { regR := ns.flatMap fun n => pNames (c.rbase e) n.toNat }

/-- A predicate written. -/
def footPd (c : Context) (e : Engine) (n : BitVec 4) : Foot :=
  { regR := if n.toNat < 8 then [] else [.rbase]
    regW := if n.toNat < 2 then [] else [.p (predPhys (c.rbase e) n.toNat)] }

/-- The bytes of a row's run in memory. -/
def rowRange (t : TEnt) (row k n : Nat) : List (Nat × Nat) :=
  let hi := min t.dim0 (k + n)
  if hi ≤ k then []
  else if t.bfmt = 0 then
    let (b, len) := runBytes t.width k (hi - k)
    [(row + b, len)]
  else [(row + 512 * (k / 256), 512 * ((hi - 1) / 256 - k / 256 + 1))]

/-- The memory of VLDT and VSTT (R252). -/
def mxRange (c : Context) (e : Engine) (o : MX) (off : Int) : List (Nat × Nat) :=
  let t := c.tent o.x.toNat
  let k := coordOf (c.rdS e o.s)
  let n := if t.bfmt = 0 then 4096 / t.width else 256
  let i0 : Int := k.k + n * off
  if t.rowIn k.r k.i2 k.i3 then rowRange t (rowOf t k) i0.toNat (min n (i0 + n).toNat) else []

/-- The memory of an MV operation: none for a teammate's window (R248). -/
def mvRange (c : Context) (e : Engine) (pos : Nat) (store : Bool) (o : MV) (off : Int) : List (Nat × Nat) :=
  match mvTarget c e pos store o off with
  | .ok (.mem a) => [(a % 2 ^ 56, 512)]
  | .ok (.peer t) => [(t % 2 ^ 56, 0)]
  | .error _ => []

/-- The lines of the context's own window that an MV operation reaches through the team aperture (R248). -/
def mvOwnLines (c : Context) (e : Engine) (pos : Nat) (store : Bool) (o : MV) (off : Int) : List (Nat × Nat) :=
  match mvTarget c e pos store o off with
  | .ok (.peer t) => [(t % 2 ^ 20 / 512, if t / 2 ^ 20 ≠ c.bind.tidx then 0 else if t % 512 = 0 then 1 else 2)]
  | _ => []

/-- The memory of a gather or scatter (R254). -/
def mgRange (c : Context) (e : Engine) (o : MG) (f : Offs) : List (Nat × Nat) :=
  match c.vsrc e o.i f.b with
  | .error _ => []
  | .ok ix =>
    let w := o.ty.width
    let p := c.rdP e o.pred.toNat
    let is := c.opdEls w 0 ix
    let base := c.rdS e o.base + BitVec.ofInt 64 (512 * f.a)
    ((List.range o.ty.count).filter fun i => enabled p w i).map fun i =>
      (gatherAddr base (o.m.getLsbD 2) w (is.getD i 0) % 2 ^ 56, w / 8)

/-- The memory of a duplication map: its header, and its entries where the header can be read (R156). -/
def mapRange (s : State) (c : Context) (pos : Nat) (t : TEnt) : List (Nat × Nat) :=
  if !t.den then []
  else match readMem s (c.who pos) c.r.gver (fun _ => true) 8 t.dmap 8 with
    | .ok (h, _) => [(t.dmap % 2 ^ 56, 8 + 4 * min 4096 (bitsOf h 32 16))]
    | .error _ => [(t.dmap % 2 ^ 56, 8)]

/-- The memory of an OLOAD (R154, R156). -/
def oloadRange (s : State) (c : Context) (e : Engine) (pos : Nat) (o : TM) : List (Nat × Nat) :=
  let t := c.tent o.f.toNat
  let k := coordOf (c.rdS e o.s)
  let n := (klenOf t).getD 0
  mapRange s c pos t ++ ((List.range 16).filter fun i => t.rowIn (k.r + i) k.i2 k.i3).flatMap fun i =>
    rowRange t (t.rowAddr (k.r + i) k.i2 k.i3) (if t.den then 0 else k.k) (if t.den then t.dim0 else n)

/-- A nestable operation's issue with its strides' offsets. -/
def footLead (c : Context) (e : Engine) (pos : Nat) (l : Lead) (f : Offs) : Foot :=
  match l with
  | .v3 op o =>
    (footP c e [o.pred]).join ((footDst c e o.d f.d 1).join ((footSrc c e o.a f.a 1).join
      ((footSrc c e o.b f.b 1).join { lineR := if v3ReadsD op then dstLines c e o.d f.d 1 else [] })))
  | .v2 op o =>
    let kd := if op = .vwiden then o.ty.width / o.t2.width else 1
    let ka := if op = .vnarrow then o.t2.width / o.ty.width else if op = .viota then 0 else 1
    (footP c e [o.pred]).join ((footDst c e o.d f.d kd).join (footSrc c e o.a f.a ka))
  | .mv op o =>
    match op with
    | .pref => {}
    | _ =>
      let store := op == .vst || op == .wst
      let m := mvRange c e pos store o f.a
      let l := if store then footSrc c e o.l f.d 1 else footDst c e o.l f.d 1
      let regs : List RegName := if mvHs o then
          (if store then [.tail (o.base.toNat % 32)] else [.head (o.base.toNat % 32)])
        else sNames [o.base]
      let own := mvOwnLines c e pos store o f.a
      l.join { regR := regs, memR := if store then [] else m, memW := if store then m else []
               lineR := if store then [] else own, lineW := if store then own else [], mayR := !store, mayW := store }
  | .mx store o =>
    let m := mxRange c e o f.a
    (if store then footSrc c e o.l f.d 1 else footDst c e o.l f.d 1).join
      { regR := sNames [o.s], memR := if store then [] else m, memW := if store then m else [], mayR := !store
        mayW := store }
  | .mg store o =>
    let m := mgRange c e o f
    (footP c e [o.pred]).join ((footSrc c e o.i f.b 1).join
      ((if store then footSrc c e o.l f.d 1 else footDst c e o.l f.d 1).join
        { regR := sNames [o.base], memR := if store then [] else m, memW := if store then m else [], mayR := !store
          mayW := store }))

/-- The offsets of a nest: those of its next issue, or the least and greatest of the whole space. -/
def strideEnds (p : NestP) (str : BitVec 128) : Int × Int :=
  [(p.t0, 0), (p.t1, 1), (p.t2, 2), (p.t3, 3)].foldl (fun (a : Int × Int) x =>
    let m : Int := ((x.1.toNat - 1 : Nat) : Int) * strideAt str x.2
    (a.1 + min 0 m, a.2 + max 0 m)) (0, 0)

/-- The memory of a whole row of a tensor, along which a nest of VLDT or VSTT moves (R252). -/
def mxRow (c : Context) (e : Engine) (o : MX) : List (Nat × Nat) :=
  let t := c.tent o.x.toNat
  let k := coordOf (c.rdS e o.s)
  if t.rowIn k.r k.i2 k.i3 then rowRange t (rowOf t k) 0 t.dim0 else []

/-- Every line and all memory that a nest touches, as one range for each operand; a gather's or a scatter's addresses, which
its index lines give, are not known before its last issue. -/
def footNestAll (c : Context) (e : Engine) (pos : Nat) (l : Lead) (p : NestP) : Foot :=
  let (d0, d1) := strideEnds p p.dstr
  let (a0, a1) := strideEnds p p.astr
  let (b0, b1) := strideEnds p p.bstr
  let x := footLead c e pos l ⟨d0, a0, b0⟩
  let y := footLead c e pos l ⟨d1, a1, b1⟩
  let cover (u v : List (Nat × Nat)) : List (Nat × Nat) :=
    List.zipWith (fun (m : Nat × Nat) (n : Nat × Nat) => (min m.1 n.1, max m.1 n.1 + n.2 - min m.1 n.1)) u v
  let z : Foot := { x with lineR := cover x.lineR y.lineR, lineW := cover x.lineW y.lineW }
  match l with
  | .mx store o =>
    { z with memR := if store then [] else mxRow c e o, memW := if store then mxRow c e o else [] }
  | .mg _ _ => { z with memR := [], memW := [], unk := true }
  | _ => { z with memR := cover x.memR y.memR, memW := cover x.memW y.memW }

/-- The lead of a nestable operation in a slot of its own (R68). -/
def leadOf : Instr → Option Lead
  | .vadd o => some (.v3 .vadd o) | .vsub o => some (.v3 .vsub o) | .vmul o => some (.v3 .vmul o)
  | .vfma o => some (.v3 .vfma o) | .vfms o => some (.v3 .vfms o) | .vmin o => some (.v3 .vmin o)
  | .vmax o => some (.v3 .vmax o) | .vdiv o => some (.v3 .vdiv o) | .vand o => some (.v3 .vand o)
  | .vor o => some (.v3 .vor o) | .vxor o => some (.v3 .vxor o) | .vshl o => some (.v3 .vshl o)
  | .vshr o => some (.v3 .vshr o) | .vsha o => some (.v3 .vsha o) | .vadds o => some (.v3 .vadds o)
  | .vsubs o => some (.v3 .vsubs o) | .vmulh o => some (.v3 .vmulh o) | .vsel o => some (.v3 .vsel o)
  | .vperm o => some (.v3 .vperm o) | .vrotl o => some (.v3 .vrotl o) | .vzip o => some (.v3 .vzip o)
  | .vunzip o => some (.v3 .vunzip o) | .vbcast o => some (.v3 .vbcast o)
  | .vabs o => some (.v2 .vabs o) | .vneg o => some (.v2 .vneg o) | .vnot o => some (.v2 .vnot o)
  | .vmov o => some (.v2 .vmov o) | .vsqrt o => some (.v2 .vsqrt o) | .vrsqrt o => some (.v2 .vrsqrt o)
  | .vrcp o => some (.v2 .vrcp o) | .vexp2 o => some (.v2 .vexp2 o) | .vlog2 o => some (.v2 .vlog2 o)
  | .vtanh o => some (.v2 .vtanh o) | .vsig o => some (.v2 .vsig o) | .verf o => some (.v2 .verf o)
  | .vcvt o => some (.v2 .vcvt o) | .vwiden o => some (.v2 .vwiden o) | .vnarrow o => some (.v2 .vnarrow o)
  | .vhad o => some (.v2 .vhad o) | .vqnt o => some (.v2 .vqnt o) | .vdqnt o => some (.v2 .vdqnt o)
  | .vradd o => some (.v2 .vradd o) | .vrmax o => some (.v2 .vrmax o) | .vrmin o => some (.v2 .vrmin o)
  | .vscan o => some (.v2 .vscan o) | .vcompr o => some (.v2 .vcompr o) | .vexpd o => some (.v2 .vexpd o)
  | .viota o => some (.v2 .viota o)
  | .vld o => some (.mv .vld o) | .vst o => some (.mv .vst o) | .wld o => some (.mv .wld o)
  | .wst o => some (.mv .wst o) | .pref o => some (.mv .pref o)
  | .vldt o => some (.mx false o) | .vstt o => some (.mx true o)
  | .vgath o => some (.mg false o) | .vscat o => some (.mg true o)
  | _ => none

/-- Rows of a tile; 0 when it is not configured. -/
def tileRows (c : Context) (t : Nat) : Nat := match c.tile? t with | some x => x.rows | none => 0

/-- A scalar's address. -/
def cmemRange (c : Context) (e : Engine) (o : CMem) : List (Nat × Nat) :=
  [(c.addr e o.base o.off % 2 ^ 56, memBytes o.w)]

/-- What an instruction that is no nestable operation touches. -/
def footOther (s : State) (c : Context) (e : Engine) (pos : Nat) (i : Instr) : Foot :=
  match i with
  | .add o | .sub o | .mul o | .mulh o | .mulhz o | .div o | .divz o | .rem o | .remz o | .and o | .or o | .xor o
  | .andn o | .shl o | .shr o | .sha o | .rotl o | .min o | .minz o | .max o | .maxz o | .seq o | .sne o | .slt o
  | .sltz o | .sle o | .slez o => footS [o.d] [o.a, o.b]
  | .clz o | .ctz o | .popc o => footS [o.d] [o.a]
  | .sel o | .bfx o | .bfxz o => footS [o.d] [o.a, o.b, o.c]
  | .bfi o => footS [o.d] [o.d, o.a, o.b, o.c]
  | .fadd o | .fsub o | .fmul o | .fdiv o | .fmin o | .fmax o | .feq o | .flt o | .fle o => footS [o.d] [o.a, o.b]
  | .fsqrt o => footS [o.d] [o.a]
  | .ffma o => footS [o.d] [o.a, o.b, o.c]
  | .fcvt o => footS [o.d] [o.a]
  | .fclass o => footS [o.d] [o.a]
  | .eget o => { regR := [.ex o.k.toNat], regW := .ex o.k.toNat :: sNames [o.d] }
  | .epeek o => { regR := [.ex o.k.toNat], regW := sNames [o.d] }
  | .mcfg o => footS [] [o.a, o.b]
  | .mstat d => footS [d] []
  | .addi o | .andi o | .ori o | .xori o => footS [o.d] [o.a]
  | .shli o | .shri o | .shai o | .rotli o => footS [o.d] [o.a]
  | .movi o => footS [o.d] []
  | .movhi o => footS [o.d] [o.d]
  | .lea o => footS [o.d] [o.a]
  | .lds o => { footS [o.d] [o.base] with memR := cmemRange c e o, mayR := true }
  | .sts o => { footS [] [o.d, o.base] with memW := cmemRange c e o, mayW := true }
  | .sysrd o => footS [o.d] []
  | .syswr o => footS [] [o.a]
  | .syswrTshape o | .syswrFpc o | .syswrTxw o => footS [] [o.a]
  | .syswrSpm a | .chainEnable a | .chainDisable a | .chainFailedClear a => footS [] [a]
  | .bc o =>
    match o.ck with
    | .any | .none => footP c e [o.x.setWidth 4]
    | _ => footS [] [o.x]
  | .call o => footS [o.x] []
  | .ret x => footS [] [x]
  | .jmpt o => { footS [] [o.x, o.y] with memR := [((c.rdS e o.y + 8 * c.rdS e o.x).toNat % 2 ^ 56, 8)], mayR := true }
  | .loop o =>
    { regR := .rbase :: sNames [o.x, o.y]
      regW := .rbase :: .p (predPhys ((c.rbase e + 31) % 32) 8) :: sNames [o.x, o.y] }
  | .vcmp o =>
    (footP c e [o.pred]).join ((footPd c e o.pd).join ((footSrc c e o.a 0 1).join (footSrc c e o.b 0 1)))
  | .pand o | .por o | .pxor o => (footP c e [o.pa, o.pb]).join (footPd c e o.pd)
  | .pnot o | .pfirst o => (footP c e [o.pa]).join (footPd c e o.pd)
  | .pcnt o => (footP c e [o.pa]).join { regW := [.ex (o.pd.toNat % 8)] }
  | .pseti o => footPd c e o.pd
  | .tcfg o => footS [] [o.s]
  | .trowld o | .tcolld o => (footS [] [o.s]).join (footSrc c e o.l 0 1)
  | .trowst o | .tcolst o => (footS [] [o.s]).join (footDst c e o.l 0 1)
  | .tld o => footSrc c e o.l 0 (tileRows c o.t.toNat)
  | .tst o => footDst c e o.l 0 (tileRows c o.t.toNat)
  | .tout o =>
    let a := toutArgs o (c.rdS e o.s)
    ((footS [] [o.s]).join (footDst c e o.l 0 (tileRows c o.t.toNat))).join
      { lineR := if a.bias then [(a.bline, 1)] else [] }
  | .oload o => { footS [] [o.s] with memR := oloadRange s c e pos o, mayR := true }
  | .spld o => footSrc c e o.l 0 (spLines o)
  | .spst o => footDst c e o.l 0 (spLines o)
  | .atom o =>
    let r := [((c.rdS e o.a).toNat % 2 ^ 56, aopWidth o.w64 / 8)]
    { footS [o.d] [o.a, o.b, o.c] with memR := r, memW := r, mayR := true, mayW := true }
  | .red o =>
    let r := [((c.rdS e o.a).toNat % 2 ^ 56, aopWidth o.w64 / 8)]
    { footS [] [o.a, o.b] with memR := r, memW := r, mayR := true, mayW := true }
  | .waitf o => { regR := [.head o.h.toNat] }
  | .waite o => { regR := [.tail o.h.toNat] }
  | .advc o => { regR := [.head o.h.toNat], regW := [.head o.h.toNat] }
  | .advp o => { regR := [.tail o.h.toNat], regW := [.tail o.h.toNat] }
  | .launch o =>
    { regR := sNames [o.a], regW := [.ex o.e.toNat], memR := [((c.rdS e o.a).toNat % 2 ^ 56, 512)]
      mayR := true }
  | .cpost o => footSrc c e o.l 0 1
  | .waitseq o => footS [] [o.a]
  | .seqrd o => footS [o.d] []
  | .fstep a => footS [] [a]
  | .cstat o => footS [o.d] []
  | .fhint a => footS [] [a]
  | .hcfg o => footS [] [o.a]
  | .hstat o => footS [o.d] []
  | _ => {}

/-- What an instruction touches at its engine's place: a nest, its next issue. -/
def footAt (s : State) (c : Context) (e : Engine) (pos : Nat) (i : Instr) : Foot :=
  match i with
  | .nestIssue l p =>
    match nestFirst p ((c.nestPos e).getD {}) with
    | some x => if c.sendDue e then {} else footLead c e pos l (nestOffs p x)
    | none => {}
  | i => match leadOf i with
    | some l => footLead c e pos l {}
    | none => footOther s c e pos i

/-- What an instruction at another place touches: a nest, everything. -/
def footAhead (s : State) (c : Context) (e : Engine) (pos idx : Nat) (i : Instr) : Foot :=
  let c1 := { c with pos := c.pos.set e { c.pos.get e with idx := idx } }
  match i with
  | .nestIssue l p => if nestEmpty p then {} else footNestAll c1 e pos l p
  | i => match leadOf i with
    | some l => footLead c1 e pos l {}
    | none => footOther s c1 e pos i

/-! Latencies (R118, Tables 31, 43, 47 and 67). -/

/-- Latency of a V3 operation (Table 31). -/
def v3Lat (op : V3Op) (t : ElemType) : Nat :=
  match op with
  | .vand | .vor | .vxor | .vsel | .vperm | .vrotl | .vzip | .vunzip | .vbcast => 2
  | .vmul | .vfma | .vfms | .vmulh => if t == .f64 then 6 else 4
  | .vdiv => if t == .f64 then 28 else 14
  | .vadds | .vsubs | .vshl | .vshr | .vsha => 2
  | _ => if t.isInt then 2 else if t == .f64 then 6 else 4

/-- Latency of a V2 operation (Table 31). The table names no group for VCOMPR and VEXPD: they count among the permutes, L = 2
with an interval of 1, a DESIGN CHOICE (log 29). -/
def v2Lat (c : Context) (op : V2Op) (o : V2) : Nat :=
  match op with
  | .vnot | .vmov | .viota | .vcompr | .vexpd => 2
  | .vabs | .vneg => if o.ty.isInt then 2 else if o.ty == .f64 then 6 else 4
  | .vcvt => 3
  | .vwiden => 2 + o.ty.width / o.t2.width
  | .vnarrow => 2 + o.t2.width / o.ty.width
  | .vsqrt | .vrcp | .vrsqrt => if o.ty == .f64 then 28 else 14
  | .vqnt | .vdqnt => if (c.blockEntry o.x.toNat).hen then 16 else 8
  | _ => 12

/-- Stands for the latency of an access to memory, which is above 15 cycles (Table 67) and which the model does not count. -/
def memLat : Nat := 2 ^ 20

/-- Latency of a lead's issue; a MEM access's is known for a window on the same core alone (Table 67). -/
def leadLat (s : State) (c : Context) (e : Engine) (pos : Nat) (l : Lead) (f : Offs) : Nat :=
  match l with
  | .v3 op o => v3Lat op o.ty
  | .v2 op o => v2Lat c op o
  | .mv op o =>
    match mvTarget c e pos (op == .vst || op == .wst) o f.a with
    | .ok (.peer t) => match peerWid s c t with
      | .ok p => if (taskPos? s c.bind.lid p).map coreOf = some (coreOf pos) then 6 else memLat
      | .error _ => memLat
    | _ => memLat
  | _ => memLat

/-- The delay count and the latency of an instruction that writes lines (R192). -/
def dlyLat (s : State) (c : Context) (e : Engine) (pos : Nat) (i : Instr) : Nat × Nat :=
  let lead (l : Lead) (f : Offs) : Nat × Nat :=
    ((match l with | .v3 _ o => o.dly | .v2 _ o => o.dly | .mv _ o => o.dly | .mx _ o => o.dly | .mg _ o => o.dly).toNat,
      leadLat s c e pos l f)
  match i with
  | .nestIssue l p => lead l (nestOffs p ((nestFirst p ((c.nestPos e).getD {})).getD {}))
  | .trowst o | .tcolst o => (o.dly.toNat, 4)
  | .tst o => (o.dly.toNat, 4 + tileRows c o.t.toNat)
  | .tout o => (o.dly.toNat, (if o.f.getLsbD 3 || o.f.getLsbD 5 then 20 else 12) + tileRows c o.t.toNat)
  | .spst o => (o.dly.toNat, if 128 < spCount o then 6 else 4)
  | i => match leadOf i with
    | some l => lead l {}
    | none => (0, 0)

/-- The issue interval of a nestable operation: the cycles before its engine accepts its next issue (Table 31). -/
def leadInterval (c : Context) (l : Lead) : Nat :=
  match l with
  | .v3 .vdiv o => if o.ty == .f64 then 8 else 4
  | .v2 op o =>
    match op with
    | .vsqrt | .vrcp | .vrsqrt => if o.ty == .f64 then 8 else 4
    | .vexp2 | .vlog2 | .vtanh | .vsig | .verf => 2
    | .vqnt | .vdqnt => if (c.blockEntry o.x.toNat).hen then 4 else 1
    | .vhad => 4
    | .vwiden => o.ty.width / o.t2.width
    | .vnarrow => o.t2.width / o.ty.width
    | _ => 1
  | _ => 1

/-- The issue interval of an instruction (Table 31): at least one cycle. The table gives VEC's alone: another engine's
instruction takes one cycle, a DESIGN CHOICE (log 29). A nest that has nothing to issue, or only a token to send, takes none. -/
def issueInterval (c : Context) (e : Engine) (i : Instr) : Nat :=
  match i with
  | .nestIssue l p => if nestEmpty p || c.sendDue e then 0 else max 1 (leadInterval c l)
  | i => match leadOf i with
    | some l => max 1 (leadInterval c l)
    | none => 1

/-! The y registers that SPE's instructions use (R171, R172, R179 to R182). -/

/-- `n` y registers from one on. -/
def yRun (a : BitVec 12) (n : Nat) : List Nat := (List.range n).map fun k => (a.toNat + k) % 4096

/-- The registers of the values at some y indices: pairs in f64 mode (R168). -/
def ySpread (c : Context) (ns : List Nat) : List Nat :=
  ns.flatMap fun i => (List.range (spStep c.spmode)).map fun k => (i + k) % 4096

/-- The weights that a record names (R175). -/
def treeWeights (c : Context) (t : Subtree) : List Nat :=
  ((List.range 7).filter fun n => t.wmask.getLsbD n).flatMap fun n => [treeWgt t n, treeWgt t n + spStep c.spmode]

/-- The y registers that an instruction reads, those that it writes, and its latency (Table 47). SPDN reads and writes the
derivative registers of what its reached nodes read alone (R180). -/
def yUse (c : Context) (i : Instr) : List Nat × List Nat × Nat :=
  let dbl := c.spmode % 4 == 2
  match i with
  | .spld o => ([], yRun o.ya (spCount o), if 128 < spCount o then 6 else 4)
  | .spst o => (yRun o.ya (spCount o), [], 0)
  | .spmov o => (yRun o.yb (spCount o), yRun o.ya (spCount o), 2 + (spCount o + 15) / 16)
  | .spclr o => ([], yRun o.ya (spCount o), 2)
  | .spup o =>
    let t := o.tree
    (ySpread c ((leavesRead t).map (treeLeaf t) ++ treeWeights c t), ySpread c (t.root.toNat :: (treeKeeps t).map (·.1)),
      if dbl then 18 else 10)
  | .spdn o =>
    let t := o.tree
    let ls := (leavesRead t).map (treeLeaf t)
    let ws := treeWeights c t
    let live := (activeNodes t).filter (reached t)
    let dl := ((List.range 8).filter fun j => live.any fun n => (nodeReads t n).contains (.leaf j)).map (treeLeaf t)
    let dw := (live.filter fun n => treeOp t n == .wsum).flatMap fun n => [treeWgt t n, treeWgt t n + spStep c.spmode]
    let ds := dl.map (fun l => (l + t.doff.toNat) % 4096) ++
      if wderiv t then dw.map (fun w => (w + treeWgt t 7) % 4096) else []
    (ySpread c (t.root.toNat :: ls ++ ws ++ (treeKeeps t).map (·.1) ++ ds), ySpread c ds, if dbl then 26 else 14)
  | .spnorm o =>
    let n := spCount o
    let vs := yRun o.ya (n * spStep c.spmode)
    let b := ySpread c [o.yb.toNat]
    if o.m = 0 then (vs ++ b, vs, if dbl then 30 + (n + 3) / 4 else 16 + (n + 7) / 8)
    else (vs, vs ++ b, if dbl then 30 + (n + 3) / 4 else 16 + (n + 7) / 8)
  | _ => ([], [], 0)

/-- Every y register that an instruction reads or writes. -/
def yTouched (c : Context) (i : Instr) : List Nat := let u := yUse c i; u.1 ++ u.2.1

/-! Uncorrectable errors in a context's own arrays (R324). -/

/-- The tiles, operand slots and y banks that an instruction reads. -/
def unitsRead (c : Context) (i : Instr) : List OwnPart :=
  match i with
  | .trowst o | .tcolst o | .tst o | .tout o => [.tile o.t.toNat]
  | .tmma o => [.tile o.t.toNat, .slot o.o1.toNat, .slot o.o2.toNat]
  | .mgo => nestReads (matNest c.mat.shadow)
  | i => ((yUse c i).1.map (· % 16)).eraseDups.map .ybank

/-- Whether an instruction replaces whole every line that it writes, so that it needs nothing of what they held. -/
def writesWhole (i : Instr) : Bool :=
  match i with
  | .nestIssue (.v3 _ o) _ => o.pred == 0
  | .nestIssue (.v2 _ o) _ => o.pred == 0
  | .nestIssue (.mg _ o) _ => o.pred == 0
  | .trowst _ | .tcolst _ | .tst _ => false
  | .spst o => spCount o % 128 == 0
  | i => match leadOf i with
    | some (.v3 _ o) => o.pred == 0
    | some (.v2 _ o) => o.pred == 0
    | some (.mg _ o) => o.pred == 0
    | _ => true

/-- An uncorrectable part of the context's own that an instruction reads, as its FADDR: the lowest window line, or 0 (R322,
R324). -/
def ownError (c : Context) (i : Instr) (f : Foot) : Option Nat :=
  let bad (r : RegName) : Bool := match r with
    | .s n => c.own.contains (.s n)
    | .p n => c.own.contains (.p n)
    | _ => false
  let rs := f.lineR ++ if writesWhole i then [] else f.lineW
  if c.own.isEmpty then none
  else if f.regR.any bad || (unitsRead c i).any c.own.contains then some 0
  else least ((c.own.filterMap fun u => match u with | .line n => some n | _ => none).filter fun n =>
    rs.any fun r => rangesMeet r.1 r.2 n 1)

/-- What an instruction has written is correct again: registers, and an operand slot or a tile loaded whole. Lines are so
once they are written. -/
def Context.heal (c : Context) (i : Instr) (f : Foot) : Context :=
  if c.own.isEmpty then c
  else
    { c with own := c.own.filter fun u => match u with
      | .s n => !f.regW.contains (.s n)
      | .p n => !f.regW.contains (.p n)
      | .line _ => true
      | .tile t => match i with | .tzero o => t != o.t.toNat | .tld o => t != o.t.toNat | _ => true
      | .slot k => match i with | .oload o => k != o.o1.toNat | .orel o => k != o.o1.toNat | _ => true
      | .ybank _ => true }

end Sys2Proof.Machine
end

