-- ==== Sys2Proof/Machine/Hold.lean ====
section
/-!
DEFINITION. What holds an engine at its slot when the engines walk apart, and what the scoreboard holds (spec/09 R188 to
R192, R194, R201, R202; spec/12 R274; spec/11 R256; spec/13 R292, R301, R302; spec/16 R362).
-/
namespace Sys2Proof.Machine

/-- A lagging instruction with what it touches. -/
abbrev Lagging := Pending × Foot

/-- Some line in common. -/
def linesMeet (xs ys : List (Nat × Nat)) : Bool := xs.any fun x => ys.any fun y => rangesMeet x.1 x.2 y.1 y.2

/-- Whether an instruction's addresses come from the elements of a window line (R254). -/
def indexed (i : Instr) : Bool :=
  match i with
  | .vgath _ | .vscat _ => true
  | _ => false

/-- A lagging instruction some of whose operands an earlier one has still to write: a register, or the index line of a gather
or a scatter, which a card may have still to write too. -/
def unknownAt (s : State) (c : Context) (ls : List Lagging) (x : Lagging) : Bool :=
  (ls.any fun y => y.1.idx < x.1.idx &&
    (x.2.regR.any (y.2.regW.contains ·) || (indexed x.1.instr && linesMeet x.2.lineR y.2.lineW))) ||
  (indexed x.1.instr && s.cards.any fun e => e.2.of c.bind.lid c.bind.wid && e.2.inFlight &&
    (cardRegions e.2.line).any fun r => r.window && r.write &&
      x.2.lineR.any fun l => rangesMeet r.addr r.len (512 * l.1) (512 * l.2))

/-- Whether the translation of a range stops, so that its pages are not known. -/
def rangeStops (s : State) (w : Who) (r : Nat × Nat) : Bool := ((piecesOf s w r).map (·.2)).sum < r.2

/-- What a lagging instruction touches: all of the window and of memory where its record cannot be fetched now. -/
def footLagging (s : State) (pos : Nat) (c : Context) (p : Pending) : Foot :=
  if p.lost then
    { lineR := [(0, 64 * c.bind.window)], lineW := [(0, 64 * c.bind.window)], mayR := true, mayW := true, unk := true }
  else footAhead s c p.eng pos p.idx p.instr

/-- Lagging instructions before an engine's place. The addresses of one whose operands are still to be written, or whose
translation stops, are not known. -/
def lagging (s : State) (pos : Nat) (c : Context) (stop : Nat) : List Lagging :=
  let ls := (pendingBefore s pos c stop).map fun p => (p, footLagging s pos c p)
  ls.map fun x =>
    if unknownAt s c ls x || (x.2.memR ++ x.2.memW).any (rangeStops s (c.who pos)) then (x.1, { x.2 with unk := true }) else x

/-- An exchange register, which has no owed versions (R202). -/
def isExch : RegName → Bool
  | .ex _ => true
  | _ => false

/-- Registers (R190, R202): a reader waits for earlier writers, a writer for earlier writers, and exchange registers keep
program order. -/
def regHold (f : Foot) (ls : List Lagging) : Bool :=
  ls.any fun x =>
    f.regR.any (x.2.regW.contains ·) || f.regW.any (x.2.regW.contains ·) ||
      f.regW.any fun r => isExch r && x.2.regR.contains r

/-- The versions a write owes to earlier readers (R190): one that is owed an older version is owed no new one. -/
def owedNew (c : Context) (idx : Nat) (f : Foot) (ls : List Lagging) : List Owed :=
  (f.regW.eraseDups.filter fun r => !isExch r && ls.any fun x =>
    x.2.regR.contains r && !(c.owed.any fun o => o.reg == r && x.1.idx ≤ o.idx)).map fun r => (⟨r, idx, c.now r⟩ : Owed)

/-- A scalar or a predicate (R190). -/
def isOwned : RegName → Bool
  | .s _ | .p _ => true
  | _ => false

/-- Whether a lagging instruction has still to read a version (R190). -/
def owedLive (os : List Owed) (ls : List Lagging) (o : Owed) : Bool :=
  isOwned o.reg && ls.any fun x => x.2.regR.contains o.reg && x.1.idx ≤ o.idx &&
    !(os.any fun y => y.reg == o.reg && x.1.idx ≤ y.idx && y.idx < o.idx)

/-- The limit of 32 owed versions: an instruction that would create a 33rd waits (R190). -/
def owedHold (c : Context) (idx : Nat) (f : Foot) (ls : List Lagging) : Bool :=
  let new := (owedNew c idx f ls).filter fun o => isOwned o.reg
  !new.isEmpty && 32 < (c.owed.filter (owedLive c.owed ls)).length + new.length

/-- SBAR (R201): an access of a named stream after it waits for those before it, where memory is named also for the
reductions before it that are still on their way. -/
def sbarHold (s : State) (c : Context) (idx : Nat) (f : Foot) (ls : List Lagging) : Bool :=
  let reds (n : Nat) (sm : BitVec 3) : Bool :=
    sm &&& f.streams != 0 && sm.getLsbD 2 && n < idx && requestsWhere s c.bind.lid c.bind.wid (· < n)
  c.bars.any (fun b => reds b.idx b.mask) ||
    ls.any fun b =>
      match b.1.instr with
      | .sbar sm => reds b.1.idx sm ||
          (sm &&& f.streams != 0 && ls.any fun x => x.1.idx < b.1.idx && sm &&& x.2.streams != 0)
      | _ => false

/-! Memory (R258, R264, R266, R270). -/

/-- The translated pieces of everything in memory that an instruction touches. -/
def Foot.pieces (s : State) (w : Who) (f : Foot) : List (Trans × Nat) := (f.memR ++ f.memW).flatMap (piecesOf s w)

/-- Whether an instruction touches a strongly ordered page (R266); each part follows its own page (R270). -/
def Foot.so (s : State) (w : Who) (f : Foot) : Bool := (f.pieces s w).any fun p => p.1.so

/-- The requests of a task that are on their way, with their askers' addresses and places. -/
def ownRequests (s : State) (c : Context) : List (Req × Nat × Nat) :=
  (s.reqs.map (·.2) ++ s.parts.flatMap fun e => [e.2.p, e.2.q]).filterMap fun r =>
    match r.asker with
    | .ctx l w _ _ _ a i => if l == c.bind.lid && w == c.bind.wid then some (r, a, i) else none
    | _ => none

/-- Strongly ordered accesses are performed one at a time in program order, on every engine (R266). A lagging access whose
address is not known yet may be one. -/
def soHold (s : State) (pos : Nat) (c : Context) (idx : Nat) (f : Foot) (ls : List Lagging) : Bool :=
  let w := c.who pos
  f.mem && f.so s w &&
    (ls.any (fun x => x.2.mem && (x.2.unk || x.2.so s w)) ||
      (ownRequests s c).any fun r => r.2.2 < idx && ({ memR := [(r.2.1, 1)] } : Foot).so s w)

/-- MEM's accesses to one location take effect in its program order: a load or a store waits for an earlier reduction of that
location that is still on its way; under one program counter every engine's do (R28). The order of requests is kept where they are
performed (R258, R264). -/
def redHold (s : State) (pos : Nat) (c : Context) (e : Engine) (idx : Nat) (i : Instr) (f : Foot) : Bool :=
  match i with
  | .atom _ | .red _ => false
  | _ => (e == .mem || c.together) && f.mem && (ownRequests s c).any fun r => r.2.2 < idx &&
      (f.pieces s (c.who pos)).any fun p => rangesMeet p.1.loc p.2 r.1.loc (aopWidth r.1.w64 / 8)

/-- Whether an instruction accesses memory over a circuit (R260, R274). -/
def overCirc (s : State) (pos : Nat) (c : Context) (circ : Nat) (f : Foot) : Bool :=
  (f.pieces s (c.who pos)).any fun p =>
    p.1.home != dieOf pos && pairOf s c.bind.lid (dieOf pos) p.1.home == circ

/-- What a fence that is still to be performed holds after it (R269, R274): an acquiring one also the later reads of window
lines; one on a circuit only accesses on that circuit. -/
def fenceBars (s : State) (pos : Nat) (c : Context) (o : FenceOp) (f : Foot) : Bool :=
  if o.scope == .circ then
    match o.kind with
    | .rel => !f.memW.isEmpty && overCirc s pos c o.circ.toNat { f with memR := [] }
    | _ => overCirc s pos c o.circ.toNat f
  else
    match o.kind with
    | .rel => !f.memW.isEmpty
    | _ => f.mem || !f.lineR.isEmpty

/-- What a slot that is still to be performed holds after it (R274, R256, R301, R362). -/
def barredBy (s : State) (pos : Nat) (c : Context) (i : Instr) (f : Foot) (q : Instr) : Bool :=
  match i with
  | .fence o => fenceBars s pos c o f
  | .swfence => match q with | .oload _ => true | _ => false
  | .waitseq _ => f.mem || f.line
  | .cwait _ => f.mem || (match q with | .cpost _ => true | _ => false)
  | _ => false

/-- The window regions of the card that a CPOST posts, as lines (R292). -/
def cardLines (c : Context) (e : Engine) (o : CpostOp) : List (Nat × Nat) :=
  match c.srcLine e o.l with
  | .error _ => []
  | .ok n =>
    let l : BitVec 512 := (c.rdL n).setWidth 512
    ((cardRegions l).filter (·.window)).map fun r => (r.addr / 512, (r.addr + r.len + 511) / 512 - r.addr / 512)

/-- What an instruction itself waits for among the lagging ones (R256, R274, R276, R292). -/
def ownWait (s : State) (pos : Nat) (c : Context) (e : Engine) (q : Instr) (ls : List Lagging) : Bool :=
  match q with
  | .fence o => ls.any fun x =>
    let g : Foot := match o.kind with
      | .acq => { x.2 with memW := [], mayW := false }
      | _ => x.2
    g.mem && (o.scope != .circ || g.unk || overCirc s pos c o.circ.toNat g)
  | .swfence => ls.any (fun x => x.2.writes) ||
      requestsWhere s c.bind.lid c.bind.wid (· < (c.posOf e).idx)
  | .cpost o => ls.any fun x => x.2.mem || linesMeet (cardLines c e o) (x.2.lineR ++ x.2.lineW)
  | .atom o => o.d != 0 && ls.any fun x => x.2.regR.contains (.s o.d.toNat)
  | _ => false

/-- What a tensor access moves of a range: whole 512-byte positions on a compressed page (R253). -/
def cmpRange (s : State) (w : Who) (r : Nat × Nat) : Nat × Nat :=
  if (piecesOf s w r).any (·.1.cmp) then (r.1 / 512 * 512, (r.1 % 512 + r.2 + 511) / 512 * 512) else r

/-- Whether an instruction reads or writes a tensor (R253). -/
def onTensor (i : Instr) : Bool :=
  match i with
  | .vldt _ | .vstt _ | .oload _ | .nestIssue (.mx _ _) _ => true
  | _ => false

/-- The scoreboard (R302): a read that overlaps a write region, a write that overlaps any region. LAUNCH is not covered. -/
def boardHold (s : State) (pos : Nat) (c : Context) (q : Instr) (f : Foot) : Bool :=
  let hold (window write : Bool) (unit : Nat) (r : Nat × Nat) : Bool :=
    s.cards.any fun e => e.2.of c.bind.lid c.bind.wid && e.2.inFlight &&
      (cardRegions e.2.line).any fun x => x.window == window && (write || x.write) &&
        rangesMeet x.addr x.len (unit * r.1) (unit * r.2)
  let whole (r : Nat × Nat) : Nat × Nat := if onTensor q then cmpRange s (c.who pos) r else r
  let m := match q with
    | .launch _ => false
    | _ => f.memR.any (fun r => hold false false 1 (whole r)) || f.memW.any (fun r => hold false true 1 (whole r))
  m || f.lineR.any (hold true false 512) || f.lineW.any (hold true true 512)

/-- The span limit (R188). -/
def spanHold (c : Context) (e : Engine) : Bool :=
  !c.together && c.r.span < (c.pos.get e).ord - c.pos.minOrd

/-- An engine ahead of the others while one program counter governs (R188, R337). -/
def aheadHold (c : Context) (e : Engine) : Bool :=
  !c.together && (c.r.span == 0 || c.stepping) && c.pos.minIdx < (c.pos.get e).idx

/-- Whether a LAUNCH's checks fail, which come before it serialises (R224). -/
def launchFails (s : State) (pos : Nat) (c : Context) (e : Engine) (i : Instr) : Bool :=
  match i with
  | .launch o =>
    match accessCheck s (c.who pos) .read notWs 64 ((c.rdS e o.a).toNat % 2 ^ 56) 512 with
    | .error (.trap _) => true
    | _ => false
  | _ => false

/-- A serialising slot (R113): its engine waits until every earlier instruction is complete; the others wait for it. -/
def serialHold (s : State) (pos : Nat) (c : Context) (e owner : Engine) (i : Instr) : Bool :=
  !c.together && serialises i &&
    (if e = owner then
      !launchFails s pos c e i &&
        ([Engine.ctl, .vec, .mat, .spe, .mem, .syn].any (fun x => (c.pos.get x).idx < (c.pos.get e).idx) ||
          !c.releases.isEmpty || requestsOut s c.bind.lid c.bind.wid)
    else (c.pos.get owner).idx ≤ (c.pos.get e).idx)

/-- Whether the instruction that an engine performs is held before it issues. -/
def performHold (s : State) (pos : Nat) (c : Context) (e : Engine) (i : Instr) : Bool :=
  let f := footAt s c e pos i
  let k := (c.posOf e).idx
  let ls := lagging s pos c k
  boardHold s pos c i f || serialHold s pos c e e i || regHold f ls || sbarHold s c k f ls ||
    ls.any (fun x => barredBy s pos c x.1.instr f i) || ownWait s pos c e i ls ||
    owedHold c k f ls || (!c.together && (soHold s pos c k f ls || redHold s pos c e k i f))

/-! The shadow scoreboard (R118, R192). -/

/-- Whether a write in flight is to a line that an instruction of its engine reads. -/
def Flight.readBy (w : Flight) (e : Engine) (f : Foot) : Bool :=
  w.eng == e && f.lineR.any fun r => rangesMeet r.1 r.2 w.line 1

/-- What the writes that an instruction reads hold it back (R192), as the cycles that pass: their DLY counts, and the whole
latency of one above 15 cycles. -/
def dlyWait (c : Context) (e : Engine) (f : Foot) : Nat :=
  ((c.flight.filter (·.readBy e f)).map fun w =>
    max (w.dly - w.age) (if 15 < w.lat && w.lat < memLat then w.lat - w.age else 0)).foldl max 0

/-- What SPE waits, in cycles, before an instruction: for the y registers that it touches and that an earlier one still
writes; SPMODE for all that went before (R182). -/
def yWait (c : Context) (i : Instr) : Nat :=
  match i with
  | .spmode _ => max ((c.yBusy.map fun w => w.lat - w.age).foldl max 0)
      (((c.flight.filter fun w => w.eng == .spe).map fun w => w.lat - w.age).foldl max 0)
  | i =>
    let ys := yTouched c i
    ((c.yBusy.filter fun w => w.regs.any ys.contains).map fun w => w.lat - w.age).foldl max 0

/-- A subtree record that issues in the cycle of the record before it (R182): the group has room, the record touches no y
register that the group writes, and it need not wait for one that was busy then. -/
def joinsGroup (c : Context) (i : Instr) : Bool :=
  match i with
  | .spup _ | .spdn _ =>
    let ys := yTouched c i
    c.spGroup != 0 && c.spGroup < (if c.spmode % 4 = 2 then 4 else 8) && !(c.spGroupW.any ys.contains) &&
      !(c.yBusy.any fun w => w.age ≤ w.lat && w.regs.any ys.contains)
  | _ => false

/-- Cycles pass for the writes of an engine. -/
def Context.passCycles (c : Context) (e : Engine) (n : Nat) : Context :=
  { c with
    flight := c.flight.map fun (w : Flight) => if w.eng == e then { w with age := w.age + n } else w
    yBusy := if e = .spe then (c.yBusy.map fun (w : YBusy) => { w with age := w.age + n }).filter fun (w : YBusy) => w.age ≤ w.lat
             else c.yBusy }

/-- An engine waits a time that the model does not count (log 29). -/
def Context.markWaited (c : Context) (e : Engine) : Context :=
  { c with flight := c.flight.map fun (w : Flight) => if w.eng == e then { w with waited := true } else w }

/-- An engine waits, before an instruction, for a line that an access to memory still writes (R192), a time that the model does
not count. -/
def Context.awaitMem (c : Context) (e : Engine) (f : Foot) : Context :=
  if c.flight.any (fun w => w.readBy e f && w.lat == memLat) then
    { c with flight := c.flight.filter fun w => !(w.readBy e f && w.lat == memLat) }.markWaited e
  else c

/-- The line writes in flight that an instruction reads too early, as the lowest line (R192). Deterministic latencies are
exact, so that the count of cycles decides, unless the engine has waited for something else in between (log 29). -/
def lateLine (s : State) (c : Context) (e : Engine) (f : Foot) : Option Nat :=
  (c.flight.filter fun w => w.readBy e f && w.lat ≤ 15 && w.dly < w.lat && w.age < w.lat &&
    ((c.bind.det && !w.waited) || Config.writeUnderWay s.freeCtr w.line)).foldl
    (fun m w => match m with | some n => some (min n w.line) | none => some w.line) none

/-- Lines of ranges inside a window. -/
def linesIn (c : Context) (rs : List (Nat × Nat)) : List Nat :=
  rs.flatMap fun r => ((List.range r.2).map (r.1 + ·)).filter fun n => c.lineOk n

/-- What is in flight after an issue (R182, R192): its own line writes and y registers, and what was in flight before and is not
yet written, or whose DLY has not passed. `n` is the issue interval, `dl` its DLY and its latency, `st` its stamp. The records of a
group issue in one cycle. -/
def Context.noteFlight (c : Context) (e : Engine) (i : Instr) (f : Foot) (n : Nat) (dl : Nat × Nat) (st : Nat) : Context :=
  let ns := linesIn c f.lineW
  let joins := joinsGroup c i
  let u := yUse c i
  let t := c.passCycles e (if joins then 0 else n)
  let kept := t.flight.filter fun w => !(w.eng == e && (ns.contains w.line || max w.lat w.dly ≤ w.age))
  let t1 := { t with
    flight := if dl.2 = 0 then kept
      else kept ++ ns.map fun k => ({ eng := e, line := k, dly := dl.1, lat := dl.2, age := n, stamp := st } : Flight)
    yBusy := if u.2.1.isEmpty then t.yBusy else t.yBusy ++ [⟨u.2.1, u.2.2, n⟩] }
  if e ≠ .spe then t1
  else
    match i with
    | .spup _ | .spdn _ =>
      if joins then { t1 with spGroup := c.spGroup + 1, spGroupW := c.spGroupW ++ u.2.1 }
      else { t1 with spGroup := 1, spGroupW := u.2.1 }
    | _ => { t1 with spGroup := 0, spGroupW := [] }

/-! Lines that two engines touch without order (R194, R195). -/

/-- Every SBAR known before a place: those performed and those still to be (R201). -/
def barsBefore (c : Context) (ls : List Lagging) : List Bar :=
  c.bars ++ ls.filterMap fun x => match x.1.instr with
    | .sbar sm => some ⟨x.1.idx, sm⟩
    | _ => none

/-- The place before which every write of a line comes before an access of the streams `t` at a place (R195, R201): that of an
SBAR that names writes and one of these streams, or one that such an SBAR passes on, naming an access before it that comes after
those writes itself. -/
def barLimit (bs : List Bar) (xs : List Chained) (idx : Nat) (t : BitVec 3) : Nat :=
  (bs.filter fun b => b.idx < idx && b.mask &&& t != 0).foldl (fun n b =>
    let far := (xs.filter fun x => x.idx < b.idx && x.streams &&& b.mask != 0).foldl (fun n x => max n x.lim) 0
    max n (max far (if b.mask.getLsbD 1 then b.idx else 0))) 0

/-- Whether a write that `m` records is not ordered before an access of engine `e` whose limit is `lim` (R194, R195). -/
def unordered (lim : Nat) (e : Engine) (m : Mix) : Bool := m.eng != some e && !m.settled && lim ≤ m.idx

/-- The limit of an access at a place whose stream has bit `k` in SBAR's mask (R201). -/
def Context.limitOf (c : Context) (bs : List Bar) (idx k : Nat) : Nat := barLimit bs c.chained idx (1#3 <<< k)

/-- A line each of whose 64-byte sectors holds one or the other contents, as `k` says. -/
def mixLine (old new : Line) (k : BitVec 8) : Line :=
  (List.range 8).foldl (fun l i =>
    let m : Line := BitVec.ofNat 4096 (2 ^ 512 - 1) <<< (512 * i)
    if k.getLsbD i then (l &&& ~~~m) ||| (old &&& m) else l) new

/-- What a read of line `n` finds, sector by sector: the contents before or after each write that is not ordered before it
(R194). The contents without such a write are what an ordered write after it left, where there is one. The writes are taken
from the latest to the oldest; `un` tells those that are not ordered, and `base` is what the latest ordered one left. -/
def mixedLine (free n : Nat) (un : Mix → Bool) : List Mix → Option Line → Line → Line
  | [], _, l => l
  | m :: r, base, l =>
    if m.line ≠ n then mixedLine free n un r base l
    else if un m then mixedLine free n un r base (mixLine (base.getD m.old) l (Config.sectorMix free n m.stamp))
    else mixedLine free n un r (some (base.getD m.new)) l

/-- The lines that an instruction reads while writes of other engines to them are not ordered. -/
def mixedReads (bs : List Bar) (c : Context) (e : Engine) (idx : Nat) (f : Foot) : List Nat :=
  ((c.mixes.filter (unordered (c.limitOf bs idx 0) e)).map (·.line)).eraseDups.filter fun n =>
    f.lineR.any fun r => rangesMeet r.1 r.2 n 1

/-- The context as an instruction of engine `e` reads it (R194). -/
def Context.asRead (c : Context) (free : Nat) (bs : List Bar) (e : Engine) (idx : Nat) (f : Foot) : Context :=
  (mixedReads bs c e idx f).foldl (fun x n =>
    x.wrL n (mixedLine free n (unordered (c.limitOf bs idx 0) e) c.mixes.reverse none (c.rdL n))) c

/-- After the issue: the lines that were only read hold what they held; of two unordered writes each sector ends with the
bytes of one or the other; and the issue's own writes are recorded, and what SBARs order before it (R194, R195). -/
def Context.asWritten (c : Context) (free : Nat) (bs : List Bar) (e : Engine) (idx : Nat) (f : Foot) (t : Context) : Context :=
  let ws := (linesIn c f.lineW).eraseDups
  let t1 := ((mixedReads bs c e idx f).filter fun n => !ws.contains n).foldl (fun x n => x.wrL n (c.rdL n)) t
  let other := (c.mixes.filter (unordered (c.limitOf bs idx 1) e)).map (·.line)
  let t2 := (ws.filter other.contains).foldl
    (fun x n => x.wrL n (mixLine (c.rdL n) (x.rdL n) (Config.sectorMix free n c.stamp))) t1
  let lim := barLimit bs c.chained idx f.streams
  { t2 with
    chained := if lim = 0 then t2.chained else t2.chained ++ [⟨e, idx, c.stamp, f.streams, lim⟩]
    mixes := t2.mixes ++ ws.map fun n =>
      ({ line := n, old := c.rdL n, new := t1.rdL n, eng := some e, idx := idx, stamp := c.stamp } : Mix) }

/-- SBARs, mixes and chained accesses that no access meets any more (R194, R195, R201). -/
def Context.dropBars (s : State) (c : Context) : Context :=
  let m := c.pos.minIdx
  let done := c.bars.filter fun b => b.mask.getLsbD 0 && b.mask.getLsbD 1 && b.idx < m
  let t := c.order fun x => done.any fun b => x.idx < b.idx
  { t with
    chained := c.chained.filter fun x => t.mixes.any fun y => y.idx < x.lim && !y.settled
    bars := c.bars.filter fun b => m ≤ b.idx || t.mixes.any (fun x => x.idx < b.idx && !x.settled) ||
      requestsWhere s c.bind.lid c.bind.wid (· < b.idx) }

end Sys2Proof.Machine
end

