-- ==== Sys2Proof/Machine/Debug.lean ====
section
/-!
DEFINITION. The watchdog and the debugger (spec/14 R334 to R337).
-/
namespace Sys2Proof.Machine

/-! The watchdog (R334, R335). -/

/-- The meaning of an instruction whose wait the watchdog counts (R334, R360, R362). -/
def countedWait (i : Instr) : Option (State → HO) :=
  match i with
  | .eget o => some (execEget o)
  | .waitf o => some (execWaitf o)
  | .waite o => some (execWaite o)
  | .tkwait o => some (execTkwait o)
  | .bar k => some (execBar k)
  | .phase => some execPhase
  | .waitseq o => some (execWaitseq o)
  | .oclaim o => some (execOclaim o)
  | .launch o => some (execLaunch o)
  | .cpost o => some (execCpost o)
  | .cwait c => some (execCwait c)
  | .fstep a => some (execFstep a)
  | .nestIssue l p => if p.twait.isSome then some (execNestIssue l p) else none
  | _ => none

/-- A CPOST's wait is counted only while a slot of its full ring is held by a card that a failed card keeps from going on (R292,
R334). -/
def waitCounts (s : State) (c : Context) (i : Instr) : Bool :=
  match i with
  | .cpost o =>
    let q := c.chain o.q.toNat
    q.ring && q.rsize < (q.tail + 1 + 2 ^ 32 - q.done) % 2 ^ 32 &&
      (stuckCards s c.bind.lid c.bind.wid).any fun id => (find? s.cards id).any fun k => k.q == o.q.toNat
  | _ => true

/-- An engine stands at a counted wait that does not end now: its meaning leaves the context as it is. -/
def waitsHere (s : State) (pos : Nat) (c : Context) (e : Engine) (i : Instr) : Bool :=
  match countedWait i with
  | none => false
  | some f =>
    match f { s with cur := pos, eng := e } with
    | .next t => decide (t.ctx? pos = some c) && waitCounts s c i
    | _ => false

/-- How an engine stands for the watchdog: it can go on, it is held, or it is held by a counted wait with its chain and
circuit. -/
inductive Stand where
  | free | held | counted (chain circ : Nat)
deriving DecidableEq, Repr

/-- The chain and the circuit of a wait (R335). -/
def waitNames : Instr → Nat × Nat
  | .waitseq o => (o.q.toNat, 0)
  | .cwait c => (0, c.toNat)
  | _ => (0, 0)

/-- How the engine that performs a slot stands. -/
def standPerform (s : State) (pos : Nat) (c : Context) (e : Engine) (d : Dec) : Stand :=
  match d with
  | .error _ => .free
  | .ok i =>
    if performHold s pos c e i then .held
    else if waitsHere s pos c e i then .counted (waitNames i).1 (waitNames i).2
    else .free

/-- How an engine stands, when no IDLE holds the context (R334). -/
def standAt (s : State) (pos : Nat) (c : Context) (e : Engine) : Stand :=
  if spanHold c e then .counted 0 0
  else if aheadHold c e then .held
  else
    match fetchSlot s (c.who pos) (c.posOf e) with
    | .error _ => .free
    | .ok x =>
      let o := x.owner c
      if o = e then standPerform s pos c e x.dec
      else if c.together then .held
      else if x.isAll then (if (find? c.log (c.pos.get e).idx).isSome then .free else .held)
      else
        match x.dec with
        | .ok .mgo => if e = .mat && c.pos.ctl.idx ≤ c.pos.mat.idx then .held else .free
        | .ok i => if serialHold s pos c e o i then .held else .free
        | .error _ => .free

/-- How an engine stands (R334): CTL at an IDLE holds the whole context (R112), and another engine may be at a counted wait of its
own. -/
def stand (s : State) (pos : Nat) (c : Context) (e : Engine) : Stand :=
  if c.idle then
    if e = .ctl then .counted 0 0
    else
      match standAt s pos c e with
      | .free => .held
      | x => x
  else standAt s pos c e

/-- The engines. -/
def allEngines : List Engine := [.ctl, .vec, .mat, .spe, .mem, .syn]

/-- The counted wait that stands earliest in program order: engine, chain, circuit (R335). -/
def firstWait (s : State) (pos : Nat) (c : Context) : Option (Engine × Nat × Nat) :=
  (allEngines.filterMap fun e => match stand s pos c e with | .counted q k => some (e, q, k) | _ => none).foldl
    (fun a x => match a with
      | none => some x
      | some y => if (c.posOf x.1).idx < (c.posOf y.1).idx then some x else some y) none

/-- No engine can issue, and one is at a counted wait (R334). -/
def blocked (s : State) (pos : Nat) (c : Context) : Bool :=
  allEngines.all (fun e => stand s pos c e != .free) && (firstWait s pos c).isSome

/-- The watchdog fires (R335): WDOG is pending, and the firmware pre-empts the context, which keeps the snapshot; the fault
is delivered as the context resumes. -/
def fireWatchdog (s : State) (pos : Nat) (c : Context) : State :=
  let arg := if c.bind.pers then 1 else 0
  let t : Trap :=
    match firstWait s pos c with
    | some (e, q, k) =>
      { code := .wdog, eng := some e.code, arg := arg, chain := q, circ := k, slot := some (c.posOf e).word }
    | none => { code := .wdog, eng := some 7, arg := arg, slot := some (c.posOf .ctl).word }
  askPreempt s pos { c with wdog := 0, pendingFault := some (weigh c t) }

/-- Whether a context stands still for a reason of its own: it is halted, ending, or stopping (R316, R321, R336). -/
def Context.stopping (c : Context) : Bool := c.halted || c.ending || c.preempting || c.pendingFault.isSome

/-- WATCHDOG_FIRE (R334, R335): time passes on the count while it runs, and at the limit the watchdog fires. -/
def execWatchdogFire (pos : Nat) (s : State) : HO :=
  match s.ctx? pos with
  | none => .next s
  | some c =>
    if c.stopping then .next s
    else if c.bind.pers || blocked s pos c then
      let n := c.wdog + Config.watchdogAdvance s.freeCtr
      if (if c.bind.pers then c.bind.hbeat else s.m.wdlim) ≤ n then .next (fireWatchdog s pos c)
      else .next (s.setCtx pos { c with wdog := n })
    else .next s

/-- The quantity that an instruction's counted wait awaits (R334): the bits that a gate tests, the register that EGET names,
the counter that a token wait takes from. -/
def awaitedBy (s : State) (pos : Nat) (c : Context) (e : Engine) (i : Instr) : List Nat :=
  let gate (o : GateOp) (first : Handle → Nat) : List Nat := match c.handle? o.h.toNat with
    | some d => [((hBits s c pos o.h.toNat d).full &&& slotMask d.count (first d) o.n.toNat).toNat]
    | none => []
  let barrier (k : Nat) : List Nat := match s.launch? c.bind.lid with
    | some l => [arrivedAt s l c.bind.lid k (barGroup l c.bind.wid k) (lookD c.barCount k 0)]
    | none => []
  match i with
  | .eget o => [if c.isFull o.k.toNat then 1 else 0]
  | .waitf o => gate o (·.head)
  | .waite o => gate o (·.tail)
  | .tkwait o => [lookD c.tokens (tokKey o.snd o.rcv) 0]
  | .bar k => barrier k.toNat
  | .phase => barrier phaseLevel
  | .waitseq o => [(c.chain o.q.toNat).done]
  | .cpost o => [(c.chain o.q.toNat).done]
  | .oclaim _ => [residentUse s (coreOf pos) .slots]
  | .launch _ => [(s.die (dieOf pos)).queue.length]
  | .cwait k => [if (s.circuit k.toNat).state = .live then 1 else 0]
  | .fstep _ => [(fstepnoWord s c.bind.lid).toNat]
  | .nestIssue _ p => (match p.twait with | some a => [lookD c.tokens (tokKey a e) 0] | none => [])
  | _ => []

/-- What the engines of a context await, each with its place. -/
def awaited (s : State) (pos : Nat) (c : Context) : List (Nat × List Nat) :=
  allEngines.map fun e =>
    match fetchSlot s (c.who pos) (c.posOf e) with
    | .error _ => ((c.posOf e).idx, [])
    | .ok x =>
      match x.dec with
      | .ok i => ((c.posOf e).idx, if x.owner c = e then awaitedBy s pos c e i else [])
      | .error _ => ((c.posOf e).idx, [])

/-- Whether a quantity that an engine awaits has changed in a step in which the engine kept its place (R334). -/
def awaitChanged (s t : State) (pos : Nat) (c d : Context) : Bool :=
  ((awaited s pos c).zip (awaited t pos d)).any fun x => x.1.1 == x.2.1 && x.1.2 != x.2.2

/-- The counts of ordinary contexts start again when what their engines await changes (R334). -/
def noteWaits (s t : State) : State :=
  { t with
    ctxs := t.ctxs.map fun e =>
      if e.2.wdog = 0 ∨ e.2.bind.pers = true then e
      else match s.ctx? e.1 with
        | some c => if awaitChanged s t e.1 c e.2 then (e.1, { e.2 with wdog := 0 }) else e
        | none => e }

/-! The debugger (R336, R337). -/

/-- DEBUGGER_ATTACH (R336). -/
def execDebuggerAttach (lid : Nat) (s : State) : HO :=
  match s.launch? lid with
  | none => .next s
  | some l => .next (s.setLaunch lid { l with debugger := true })

/-- DEBUG_HALT: a pre-emption (R336). -/
def execDebugHalt (pos : Nat) (s : State) : HO :=
  match s.ctx? pos with
  | none => .next s
  | some c => .next (if s.debugged c then askPreempt s pos { c with halted := true } else s)

/-- A halted context that has left this position: a halt is a pre-emption (R336). -/
def haltedAt? (s : State) (pos : Nat) : Option (Nat × Saved) :=
  s.saved.find? fun e => e.2.pos == pos && e.2.ctx.halted && s.debugged e.2.ctx

/-- Change the halted context of a position (R336). -/
def updHalted (s : State) (pos : Nat) (f : State → Context → State × Context) : State :=
  match haltedAt? s pos with
  | none => s
  | some (k, v) =>
    let (s1, c1) := f s v.ctx
    { s1 with saved := put s1.saved k { v with ctx := c1 } }

/-- A full/empty bit as an ADVP or ADVC already released leaves it (R337). -/
def dbgHandleBit (pos h slot : Nat) (full : Bool) (s : State) (c : Context) : State × Context :=
  match c.handle? h with
  | none => (s, c)
  | some d =>
    let k := slotMask d.count slot 1
    let b := hBits s c pos h d
    setHBits s c pos h d
      { full := if full then b.full ||| k else b.full &&& ~~~k
        fillPend := b.fillPend &&& ~~~k
        clearPend := b.clearPend &&& ~~~k }

/-- QW0 of a chain as the debugger writes it (R336): EN and RING, by the rules of a write that sets or clears EN (R290); FAILED
is cleared apart. -/
def dbgQw0 (s : State) (q v : Nat) (c : Context) : Context :=
  let k := c.chain q
  let ring := v / 2 % 2 == 1
  if v % 2 = 1 then
    if k.en then c
    else
      let k1 := { k with ring := ring }
      if chainReady k1 then c.setChain q k1.enabled else c
  else if k.en then
    if chainBusy s c.bind.lid c.bind.wid q then c
    else c.setChain q { k with en := false, ring := ring, failed := false, ecode := 0, failedSeq := 0, disabling := false }
  else c.setChain q { k with ring := ring }

/-- A system register as the debugger writes it: what SYSWR may write, the fault registers, tile shapes, SPM, tensor words and
the selected chain's words (R336). A write of one FPC is a write of all six, as SYSWR's is (R318); outside handler mode it
redirects the resume, and FNESTV and FNESTM place the nests there (R337). -/
def dbgSys (s : State) (n : Nat) (v : Word) (c : Context) : Context :=
  let f := c.flt
  if n = 0x80 then { c with flt := { f with fcause := v } }
  else if n = 0x81 then { c with flt := { f with faddr := v } }
  else if n = 0x82 then { c with flt := { f with fslot := v } }
  else if n = 0x83 then { c with flt := { f with fseq := v } }
  else if 0x88 ≤ n ∧ n ≤ 0x8D then { c with flt := f.redirect v }
  else if n = 0x8E then
    { c with flt := { f with fnestv := v &&& nestMask }, nestV := if c.handler then c.nestV else nestOfWord v }
  else if n = 0x8F then
    { c with flt := { f with fnestm := v &&& nestMask }, nestM := if c.handler then c.nestM else nestOfWord v }
  else if n = 0x09 then (c.wrRbase (v.toNat % 32)).purge .rbase
  else if 0x10 ≤ n ∧ n ≤ 0x17 then
    (if shapeOk v then { c with mat := { c.mat with tshape := putD c.mat.tshape (n - 0x10) v 0 } } else c)
  else if n = 0x19 then { c with spmode := v.toNat % 4 }
  else if 0x21 ≤ n ∧ n ≤ 0x28 then
    { c with
      tens := putD c.tens c.r.txsel (tensWrite (lookD c.tens c.r.txsel 0) (n - 0x21) v) 0
      tgen := putD c.tgen c.r.txsel (lookD c.tgen c.r.txsel 0 + 1) 0 }
  else if n = 0x45 then dbgQw0 s c.r.qsel v.toNat c
  else if n = 0x4B then c.setChain c.r.qsel { c.chain c.r.qsel with lpos := v.toNat % 2 ^ 56 }
  else if 0x46 ≤ n ∧ n ≤ 0x4A then c.setChain c.r.qsel (chainWrite (c.chain c.r.qsel) (n - 0x45) v.toNat)
  else (sysWrite c n v).getD c

/-- A handle descriptor as the debugger writes it (R336), which configures a handle that is not: the slots' bits, head and
tail are written apart. -/
def dbgHandle (h base size count : Nat) (p q : Engine) (c : Context) : Context :=
  if size = 0 ∨ count = 0 ∨ 64 < size ∨ 64 < count ∨ 64 * c.bind.window < base + count * size then c
  else
    let d := (c.handle? h).getD {}
    if d.shared then c
    else { c with handles := put c.handles h { d with
      base := base, size := size, count := count, peng := p, ceng := q, head := d.head % count, tail := d.tail % count } }

/-- An engine's place; with one program counter, every engine's. -/
def dbgPc (e : Engine) (v : Word) (c : Context) : Context :=
  let f (p : EnginePos) : EnginePos := { p with addr := codeAddr v.toNat, slot := codeSlot v.toNat }
  if c.handler then { c with hpos := f c.hpos }
  else if c.together then { c with pos := c.pos.map f }
  else { c with pos := c.pos.set e (f (c.pos.get e)) }

/-- What a debugger writes (R336, R337). -/
def dbgWrite (pos : Nat) (t : DbgTarget) (s : State) (c : Context) : State × Context :=
  match t with
  | .scalar r v => (s, if r = 0 then c else { c with r := { c.r with s := putD c.r.s r.toNat v 0 } }.purge (.s r.toNat))
  | .banked r v => (s, if 56 ≤ r.toNat then { c with r := { c.r with bank := putD c.r.bank r.toNat v 0 } } else c)
  | .pred p v => (s, (c.wrPhys p.toNat v).purge (.p p.toNat))
  | .line n v => (s, if c.lineOk n then c.wrL n v else c)
  | .exch e v full =>
    let k := e.toNat
    (s, if full then c.fill k v
        else { c with r := { c.r with ex := putD c.r.ex k v 0, exFull := c.r.exFull &&& ~~~(1#8 <<< k) } })
  | .handleBit h slot full => dbgHandleBit pos h.toNat slot full s c
  | .handleHead h head tail =>
    match c.handle? h.toNat with
    | none => (s, c)
    | some d =>
      let d1 := { d with head := head % d.count, tail := tail % d.count }
      (s, ({ c with handles := put c.handles h.toNat d1 }.purge (.head h.toNat)).purge (.tail h.toNat))
  | .handleDesc h base size count p q => (s, dbgHandle h.toNat base size count p q c)
  | .sysreg n v => (s, dbgSys s n.toNat v c)
  | .tile w v => (s, { c with mat := { c.mat with acc := putD c.mat.acc w v 0 } })
  | .slot o row v =>
    (s, match find? c.mat.oslots o.toNat with
      | some x => { c with mat := { c.mat with
          oslots := put c.mat.oslots o.toNat { x with rows := putD x.rows (row % 16) v 0 } } }
      | none => c)
  | .slotTag o t =>
    let k := o.toNat
    (s, { c with mat := { c.mat with oslots := match t with
      | none => del c.mat.oslots k
      | some x =>
        let o := (find? c.mat.oslots k).getD { rin := BitVec.allOnes 16, kin := 1024 }
        put c.mat.oslots k { o with tag := x.map fun y => ⟨y.fmt, y.klen, y.hen, y.seed⟩ } } })
  | .yreg y v => (s, { c with y := putD c.y y.toNat v 0 })
  | .token a b n => (s, if a = b then c else { c with tokens := putD c.tokens (tokKey a b) (min n 15) 0 })
  | .pc e v => (s, dbgPc e v c)
  | .clearFailed _ => (s, c)

/-- DEBUG_WRITE (R336, R337): a posted card cannot be changed, but FAILED may be cleared. -/
def execDebugWrite (pos : Nat) (t : DbgTarget) (s : State) : HO :=
  match t with
  | .clearFailed q =>
    match haltedAt? s pos with
    | some (_, v) => .next (clearFailed s v.ctx.bind.lid v.ctx.bind.wid q.toNat)
    | none => .next s
  | t => .next (updHalted s pos (dbgWrite pos t))

/-- DEBUG_STEP (R337): the context is to be resumed for one instruction in program order; the firmware binds it again. -/
def execDebugStep (pos : Nat) (s : State) : HO :=
  .next (updHalted s pos fun s c => (s, { c with stepping := true, halted := false }))

end Sys2Proof.Machine
end

