-- ==== Sys2Proof/Machine/Remote.lean ====
section
/-!
DEFINITION. The remote card kinds, their segments, and DISPATCH (spec/17 R366 to R382; spec/20 R391, R394, R398, R399).
-/
namespace Sys2Proof.Machine

/-! The remote region (R367, R368, R391). -/

/-- PROT unless every home of a remote region is the far die (R367). -/
def homesAt (far : Nat) : List (Nat × Nat) → Res Unit
  | [] => .ok ()
  | h :: r => if h.2 = far then homesAt far r else raise .prot h.1

/-- A remote region on a die: no PAIR circuit is asked for, since the card's own circuit carries its accesses (R367, R375). Of a
wrong home and of another fault, the one at the lower address is met (Table 80). -/
def farParts (s : State) (w : Who) (far : Nat) (kind : AccKind) (ok : Trans → Bool) (addr len : Nat) : Res (List Part) :=
  let get (n : Nat) : Res (List Part) := accessParts s w kind ok (n / 65536 + 2) addr n
  match get len with
  | .ok ps => do
    homesAt far (ps.flatMap partHomes)
    await (partsReady s ps)
    .ok ps
  | .error (.trap t) =>
    match (if addr < t.addr then get (t.addr - addr) else .ok []) with
    | .ok ps => do
      homesAt far (ps.flatMap partHomes)
      .error (.trap t)
    | .error _ => .error (.trap t)
  | .error .wait => hold

/-- The remote region of a card on its far die, with that die's rules for a region that whole blocks are written to (R367,
R368). -/
def farRegion (s : State) (w : Who) (far : Nat) (kind : AccKind) (ok : Trans → Bool) (addr len : Nat) : Res Side :=
  regionSide s w.lid (farParts s w far kind ok addr) (kind == .write) addr len

/-- What a peer device answers about a card's remote region, as a stop at an address of it (R391). -/
def peerStop (s : State) (id addr len : Nat) : Res Unit :=
  let place (a : Nat) : Nat := (addr + a % max 1 len) % 2 ^ 56
  match Config.peerRefuses s.freeCtr id with
  | none => .ok ()
  | some (.page, a) => raise .page (place a)
  | some (.prot, a) => raise .prot (place a)
  | some (.guard, a) => raise .guard (place a)
  | some (.eccu, a) => raise .eccu (place a)
  | some (.wstore, _) => raise .wstore

/-- The remote region of a card: on the far die, or in the memory of a peer device. -/
def farSide (s : State) (id : Nat) (k : Card) (kind : AccKind) (ok : Trans → Bool) (addr len : Nat) : Res Side :=
  if k.ext then do
    peerStop s id addr len
    .ok { addr := addr, len := len, far := some (peerKey s (cardCirc k.line) addr) }
  else
    match farDie? s k.lid k.die (cardCirc k.line) with
    | none => raise .prot addr
    | some far => farRegion s (cardWho s k) far kind ok addr len

/-- The two regions of a data card: what is read, and what is written or reduced into. -/
def dataSides (s : State) (id : Nat) (k : Card) : Res (Side × Side) := do
  let l := k.line
  match cardKind l with
  | 0x10 =>
    bothSides (farSide s id k .read (fun _ => true) (cardSrc l) (cardLen l))
      (localSide s k true (cardDwin l) (cardDst l) (cardDlen l))
  | 0x11 =>
    bothSides (localSide s k false (cardSwin l) (cardSrc l) (cardLen l))
      (farSide s id k .write (fun _ => true) (cardDst l) (cardDlen l))
  | _ =>
    bothSides (localSide s k false (cardSwin l) (cardSrc l) (cardLen l))
      (farSide s id k .both atomPage (cardDst l) (cardDlen l))

/-- Whether a data card's destination lies at a peer device. -/
def farWrite (k : Card) : Bool := k.ext && cardKind k.line != 0x10

/-! Starting a remote card (R293, R367, R382). -/

/-- The subcode with which the card's attempt has been aborted, if it has (R373, R382). -/
def attemptAborted? (s : State) (k : Card) : Option Nat := (attemptOf k).bind (find? s.aborted)

/-- A remote card of a kind starts: on its engine, unless its attempt was aborted; `run` makes its checks and first
accesses. -/
def startRemote (s : State) (id kind : Nat) (run : State → Card → Nat → Res State) : HO :=
  match find? s.cards id with
  | none => .next s
  | some k =>
    if cardKind k.line != kind then .next s
    else
      match startEngine? s id k with
      | none => .next s
      | some eng =>
        match attemptAborted? s k with
        | some sub => .next (failCard (updCard s id fun k => { k with engine := eng }) id 0x22 sub 0)
        | none =>
          match startFault (crecCheck s k) (run s k eng) with
          | (norec, .error e) => .next (failStart s id eng norec e)
          | (_, .ok s') => .next s'

/-- A data card starts: both regions are checked and translated once, and its segments are still to move (R367, R380). -/
def startData (s : State) (id kind : Nat) : HO :=
  startRemote s id kind fun s k eng => do
    let (src, dst) ← dataSides s id k
    .ok (updCard s id fun k => { k with
      st := .running
      engine := eng
      src := src
      dst := dst
      performed := cardLen k.line == 0 && cardDlen k.line == 0 })

/-- RREAD (R366). -/
def execRread (id : Nat) (s : State) : HO := startData s id 0x10

/-- RWRITE (R366). -/
def execRwrite (id : Nat) (s : State) : HO := startData s id 0x11

/-- RREDUCE (R366, R369). -/
def execRreduce (id : Nat) (s : State) : HO := startData s id 0x12

/-! Segments (R380). -/

/-- Bytes of a segment. -/
def segBytes : Nat := 65536

/-- What a segment of a card writes, at byte offset `i`, `n` bytes; the flags, and the blocks it depends on. -/
structure SegOut where
  i : Nat
  n : Nat
  val : Nat
  flags : Flags := 0
  deps : List Dep
  status : Nat := 0
  olen : Nat := 0
deriving Repr

/-- The operation that OPT[9:2] names, on one element (R369). -/
def reduceEl (opt : Nat) (t : ElemType) (x y : Nat) : Nat × Flags :=
  match opt % 16 with
  | 1 => minMaxCode false t x y
  | 2 => minMaxCode true t x y
  | _ => v3Elem .vadd t .rne x y 0

/-- Elements reduced: the destination's value with each source element combined into it. -/
def reduceEls (opt : Nat) (t : ElemType) : Nat → Nat → Nat → Nat × Flags
  | 0, _, _ => (0, 0)
  | n + 1, x, y =>
    let m := 2 ^ t.width
    let (v, f) := reduceEl opt t (x % m) (y % m)
    let (r, g) := reduceEls opt t n (x / m) (y / m)
    (v % m + m * r, f ||| g)

/-- The dependencies that a range of the destination has. -/
def depsIn (deps : List Dep) (i n : Nat) : List Dep := deps.filter fun d => d.dst < i + n && i < d.dst + d.len

/-- The bytes of a transfer, whose segments count from SRC and from DST (R374, R380). -/
def transferLen (l : BitVec 512) : Nat := max (cardLen l) (cardDlen l)

/-- What segment `j` of a data card does. -/
def segOut (s : State) (k : Card) (j : Nat) : SegOut :=
  let l := k.line
  let i := segBytes * j
  let n := min segBytes (k.dst.len - i)
  if cardKind l = 0x10 ∧ cardCodec l ≠ 0 then
    let p := expand l (sideRead s k k.src 0 (cardLen l)) k.dst
    ⟨i, n, bytesAt p.out i n, 0, depsIn p.deps i n, p.status, p.olen⟩
  else if cardKind l = 0x12 then
    match reduceType? l with
    | none => ⟨i, 0, 0, 0, [], 0, 0⟩
    | some t =>
      let (v, f) := reduceEls (cardOptHi l) t (n / (t.width / 8)) (sideRead s k k.dst i n) (sideRead s k k.src i n)
      ⟨i, n, v, f, depsIn (sameDeps k.dst) i n, 0, i + n⟩
  else ⟨i, n, sideRead s k k.src i n, 0, depsIn (sameDeps k.dst) i n, 0, i + n⟩

/-- The guard tag of the block in which `n` bytes carried to an address lie: its absent bytes are zero (R395). -/
def carriedTag (ver a n v : Nat) : Word :=
  tagOf (crc32c 512 (v % 2 ^ (8 * n) * 2 ^ (8 * (a % 512)))) (a / 512 * 512) ver

/-- Whether the tag of a block carried on an external circuit fits it, at the gateway that receives it (R395). -/
def carriedFits (s : State) (k : Card) (a n v : Nat) : Bool :=
  let t := carriedTag (cardVer k.line) a n v
  if farWrite k then Config.peerFits s.freeCtr a t
  else (Config.peerTag s.freeCtr a).toNat % 2 ^ 56 == t.toNat % 2 ^ 56

/-- The first block of some bytes carried to a region whose tag does not fit: where the writing stops, and GUARD (R395). -/
def carriedStop (s : State) (k : Card) (addr i n v : Nat) : Option (Nat × Stop) :=
  if !k.ext then none
  else
    ((blocksOf (addr + i) n).find? fun b => !carriedFits s k (addr + i + b.1) b.2 (bytesAt v b.1 b.2)).map fun b =>
      (i + b.1, .trap { code := .guard, addr := (addr + i + b.1) / 512 * 512 })

/-- GUARD where the peer's gateway refuses the tag of some bytes that a card sends to an address (R395). -/
def carriedCheck (s : State) (k : Card) (addr n v : Nat) : Res Unit :=
  match carriedStop s k addr 0 n v with
  | some (_, e) => .error e
  | none => .ok ()

/-- The earlier of a stop and a further one. -/
def earlier (a : Nat × Option Stop) (b : Option (Nat × Stop)) : Nat × Option Stop :=
  match b with
  | some (i, e) => if a.2.isNone || i < a.1 then (i, some e) else a
  | none => a

/-- What stops a segment by the tags of the blocks that its circuit carries (R395): the bytes of its region, or, of an RREAD with
CODEC, the stored bytes, which are expanded on the posting die (Table 100) and counted as carried to the destination from its first
byte on, a DESIGN CHOICE (log 61); then it stops at the first block that depends on a block of them that does not fit. -/
def segCarried (s : State) (k : Card) (o : SegOut) : Option (Nat × Stop) :=
  if cardKind k.line = 0x10 ∧ cardCodec k.line ≠ 0 then
    match carriedStop s k k.dst.addr 0 k.src.len (sideRead s k k.src 0 k.src.len) with
    | none => none
    | some (i, e) => (o.deps.find? fun d => i < d.src + d.len).map fun d => (blockStart k.dst.addr d.dst, e)
  else carriedStop s k k.dst.addr o.i o.n o.val

/-- The first failing block of a segment's writes, and its fault (R300, R395). -/
def segStop (s : State) (k : Card) (o : SegOut) : Nat × Option Stop :=
  let a := earlier (firstFailing s k k.src k.dst o.deps (k.dst.len, none)) (segCarried s k o)
  let b := if cardKind k.line = 0x12 then firstFailing s k k.dst k.dst o.deps a else a
  if farWrite k then a else earlier b (eccStop s k k.dst)

/-- The segment on its way is the last. -/
def lastSegment (k : Card) : Bool := transferLen k.line ≤ segBytes * (k.segs + 1)

/-- The CRC-32C of the bytes written so far, with `n` more (R305, Table 101). -/
def crcMore (crc n v : Nat) : Nat := crcNum (crc ^^^ 0xFFFFFFFF) n v ^^^ 0xFFFFFFFF

/-- Whether the local regions of a data card's segment may be accessed now (R300, R354). -/
def segOpen (s : State) (k : Card) (i n : Nat) : Bool :=
  let whole := cardKind k.line == 0x10 && cardCodec k.line != 0
  let part (d : Side) : List Part := slice d.parts i n
  if cardKind k.line = 0x10 then
    partsReady s (if whole then k.src.parts else part k.src) && sideOpen s k (part k.dst)
  else sideOpen s k (part k.src) && partsReady s (part k.dst)

/-- Write bytes of a card's region; those of a region at a peer device are offered to the link (R392). -/
def sideSend (s : State) (k : Card) (d : Side) (i n v : Nat) : State :=
  sideWrite (if d.far.isSome then offer s (cardCirc k.line) n else s) k d i n v

/-- A segment is performed at its home (R380); it is committed once its acknowledgement is back. -/
def moveSegment (s : State) (id : Nat) (k : Card) : State :=
  let o := segOut s k k.segs
  let stop := segStop s k o
  let stopped := stop.2.isSome && stop.1 < o.i + max o.n 1
  let n := if stopped then stop.1 - o.i else o.n
  if stop.2 = some .wait then s
  else
    let s1 := if n = 0 then s else sideSend s k k.dst o.i n o.val
    match stop.2, stopped with
    | some e, true =>
      failStop (updCard s1 id fun k => { k with
        rlen := min (cardLen k.line) (o.i + n), olen := o.i + n, crc := crcMore k.crc n o.val }) id e
    | _, _ => updCard s1 id fun k =>
        { k with seg := some { val := o.val, n := o.n, flags := o.flags, status := o.status, olen := o.olen } }

/-- A segment sent again writes the same bytes again (R380). -/
def resendSegment (s : State) (id : Nat) (k : Card) (g : SegDone) : State :=
  let s1 := if g.n = 0 then s else sideSend s k k.dst (segBytes * k.segs) g.n g.val
  updCard s1 id fun k => { k with seg := some { g with again := false } }

/-- A segment is committed (R380); the last one ends the card's accesses, with the status of an expansion (R310). -/
def commitSegment (s : State) (id : Nat) (k : Card) (g : SegDone) : State :=
  let last := lastSegment k
  let bad := last && g.status != 0 && cardStrict k.line
  let n := segBytes * (k.segs + 1)
  let s1 := updCard s id fun k => { k with
    segs := k.segs + 1
    seg := none
    flags := k.flags ||| g.flags
    rlen := min (cardLen k.line) n
    olen := min g.olen (2 ^ 32 - 1)
    crc := crcMore k.crc g.n g.val
    status := if last && !bad then g.status else 0
    performed := last && !bad }
  if bad then failCard s1 id 0x15 0 0 else s1

/-- What a lost circuit, or a drain past its bound, leaves of the segments not committed of an RREAD or RWRITE: each 64-byte
sector, and each guarded block's tag, old or new (R380, R381). -/
def spill (s : State) (k : Card) : State :=
  let i := segBytes * k.segs
  let n := k.dst.len - i
  let v := if cardKind k.line = 0x10 ∧ cardCodec k.line ≠ 0 then
      bytesAt (expand k.line (sideRead s k k.src 0 k.src.len) k.dst).out i n
    else sideRead s k k.src i n
  let full := sideWrite s k k.dst i n v
  let t := (alignedPieces 64 (k.dst.addr + i) n).foldl (fun t b =>
    if Config.sectorWritten s.freeCtr (i + b.1) then sideStore t k k.dst (i + b.1) b.2 (bytesAt v b.1 b.2) else t) s
  { t with
    tags := (slice k.dst.parts i n).foldl (fun m p =>
      if p.t.grd then
        (blockStarts p.t p.len).foldl (fun m j =>
          let b := (blockAt p.t j).2 / 512
          if Config.tagWritten s.freeCtr b then putD m b (lookD full.tags b 0) 0 else m) m
      else m) t.tags }

/-- A data card that its circuit has failed, and whose segments may still be partly written (R380, R381). -/
def Card.maySpill (k : Card) : Bool :=
  k.st == .running && k.performed && !k.spilt && (k.status == 0x20 || k.status == 0x21) &&
    (cardKind k.line == 0x10 || cardKind k.line == 0x11) && k.seg.isNone

/-! RFETCH and RSIGNAL (R370, R371). -/

/-- The location of a region's first byte: at its home, or at a peer device (R391). -/
def Side.loc (d : Side) : Nat := d.far.getD (partLoc d.parts)

/-- The request of a card's fetch-and-op on a side (R378, R394). -/
def cardReq (s : State) (a : Asker) (k : Card) (eng : Nat) (red : Bool) (op : Aop) (w64 : Bool) (d : Side) (b : Nat) : Req :=
  let rq := requesterOf s k.die (32 + eng) 0
  { asker := a, red := red, loc := d.loc, aop := op, w64 := w64, b := b, c := 0, lid := k.lid, requester := rq
    reqid := lookD s.reqIds rq 0, combine := combines s k.lid op, ext := d.far.isSome }

/-- A card's request leaves: it waits for room, and on an external circuit its operand carries a tag (R378, R395). -/
def sendReq (s : State) (k : Card) (r : Req) (d : Side) : Res State := do
  carriedCheck s k d.addr (aopWidth r.w64 / 8) r.b
  await (roomFor s r)
  .ok (addReq (if r.ext then offer s (cardCirc k.line) (aopWidth r.w64 / 8) else s) r)

/-- A card that runs on its engine. -/
def runsOn (s : State) (id eng : Nat) : State := updCard s id fun k => { k with st := .running, engine := eng }

/-- RFETCH (R370). -/
def execRfetch (id : Nat) (s : State) : HO :=
  startRemote s id 0x13 fun s k eng => do
    match rfetchOp? k.line with
    | none => raise .illop
    | some op =>
      let n := rfetchBytes k.line
      let dst ← farSide s id k .both atomPage (cardDst k.line) n
      sendReq (runsOn s id eng) k (cardReq s (.card id) k eng false op (n == 8) dst (cardBits k.line 6 0 64 % 2 ^ (8 * n))) dst

/-- The region of an RSIGNAL: a write region (Table 100), under the page rules of a fetch-and-op (R368). -/
def farSignal (s : State) (id : Nat) (k : Card) (addr : Nat) : Res Side := farSide s id k .write atomPage addr 8

/-- RSIGNAL's word is stored (R371, R391). -/
def signalStore (s : State) (k : Card) (d : Side) (v : Nat) : State :=
  sideStore (if d.far.isSome then offer s (cardCirc k.line) 8 else s) k d 0 8 v

/-- RSIGNAL (R371): OPERAND is stored at once, or added as RED.ADD adds; its region is a write region (Table 100). -/
def execRsignal (id : Nat) (s : State) : HO :=
  startRemote s id 0x14 fun s k eng => do
    let v := cardBits k.line 6 0 64
    let dst ← farSignal s id k (cardDst k.line)
    if cardOptHi k.line % 2 = 1 then sendReq (runsOn s id eng) k (cardReq s (.card id) k eng true .add true dst v) dst
    else do
      carriedCheck s k dst.addr 8 v
      if s.bad.isEmpty then .ok () else writeEcc s dst.parts
      .ok (performed (signalStore s k dst v) id fun k => { k with engine := eng })

/-! DISPATCH (R398, R399). -/

/-- The three regions of a DISPATCH: the list, the counter and the buffer (R398). -/
def dispatchSides (s : State) (id : Nat) (k : Card) : Res (Side × Side × Side) :=
  let l := k.line
  bothSides (localSide s k false (cardSwin l) (cardSrc l) (cardLen l))
    (bothSides (farSide s id k .both atomPage (cardAux l) 8)
      (farSide s id k .write (fun _ => true) (cardDst l) (cardDlen l * dispRec l)))

/-- Records of a DISPATCH (Table 117). -/
def dispCount (l : BitVec 512) : Nat := cardLen l / dispRec l

/-- The next fetch-and-add of a DISPATCH leaves: each after that of the record before (R399). -/
def dispatchAdd (s : State) (id : Nat) (k : Card) (eng : Nat) (ctr : Side) : Res State :=
  sendReq (updCard s id fun k => { k with adds := k.adds + 1 }) k (cardReq s (.slot id k.adds) k eng false .add true ctr 1) ctr

/-- A record that is placed or rejected; with the last one the card's accesses are performed (R399). -/
def Card.placed (n rej : Nat) (k : Card) : Card :=
  { k with
    segs := k.segs + 1
    rlen := (k.segs + 1) * dispRec k.line
    olen := k.olen + n
    rej := k.rej ||| rej
    slots := del k.slots k.segs
    performed := k.segs + 1 == dispCount k.line }

/-- The slot `j` of the next record is known: the record is placed, or rejected (R399). -/
def dispatchPlace (s : State) (id : Nat) (k : Card) (j : Nat) : Res State :=
  let rs := dispRec k.line
  let i := k.segs
  if j < cardDlen k.line then do
    let v := sideRead s k k.src (i * rs) rs
    await (sideOpen s k (slice k.src.parts (i * rs) rs) && partsReady s (slice k.dst.parts (j * rs) rs))
    sideErr s k k.src (i * rs) rs
    carriedCheck s k (cardDst k.line + j * rs) rs v
    .ok (updCard (sideSend s k k.dst (j * rs) rs v) id (Card.placed rs 0))
  else .ok (updCard s id (Card.placed 0 (2 ^ i)))

/-- What a card has met while it runs: it fails, or waits (R300). -/
def runCard (s : State) (id : Nat) (r : Res State) : HO :=
  match r with
  | .ok t => .next t
  | .error e => .next (failStop s id e)

/-- DISPATCH (R399): it starts with the first record's fetch-and-add, and sends the others without waiting for the slots of those
before. -/
def execDispatch (id : Nat) (s : State) : HO :=
  match find? s.cards id with
  | none => .next s
  | some k =>
    if cardKind k.line = 0x15 && k.st == .running then
      if !k.performed && k.adds < dispCount k.line && circuitRuns s k then runCard s id (dispatchAdd s id k k.engine k.ctr)
      else .next s
    else
      startRemote s id 0x15 fun s k eng => do
        let (src, ctr, dst) ← dispatchSides s id k
        dispatchAdd (updCard (runsOn s id eng) id fun k => { k with src := src, ctr := ctr, dst := dst }) id k eng ctr

/-- SEGMENT_COMMIT (R380, R399): the next segment of a data card is performed while its circuit carries traffic, or, once performed,
committed; the next record of a DISPATCH whose slot is known is placed; of a card that its circuit has failed, what is left of its
segments. -/
def execSegmentCommit (id : Nat) (s : State) : HO :=
  match find? s.cards id with
  | none => .next s
  | some k =>
    if k.st == .running && !k.performed && cardKind k.line ≤ 0x12 && cardRemote k.line && circuitRuns s k then
      match k.seg with
      | some g => .next (if g.again then resendSegment s id k g else commitSegment s id k g)
      | none => .next (if segOpen s k (segBytes * k.segs) segBytes then moveSegment s id k else s)
    else if k.st == .running && !k.performed && cardKind k.line == 0x15 && circuitRuns s k then
      match find? k.slots k.segs with
      | some j => runCard s id (dispatchPlace s id k j)
      | none => .next s
    else if k.maySpill then .next (spill (updCard s id fun k => { k with spilt := true }) k)
    else .next s

end Sys2Proof.Machine
end

