-- ==== Sys2Proof/Machine/Dispatch.lean ====
section
/-!
DEFINITION. One arm per constructor of `Instr`: a direct call of its meaning, or a refusal by name.
-/
namespace Sys2Proof.Machine

/-- The meaning of an instruction, step or event. -/
def exec (i : Instr) (s : State) : Host.Outcome State Fault Refusal :=
  match i with
  | .nop => Sys2Proof.Machine.execNop s
  | .add o => Sys2Proof.Machine.execAdd o s
  | .sub o => Sys2Proof.Machine.execSub o s
  | .mul o => Sys2Proof.Machine.execMul o s
  | .mulh o => Sys2Proof.Machine.execMulh o s
  | .mulhz o => Sys2Proof.Machine.execMulhz o s
  | .div o => Sys2Proof.Machine.execDiv o s
  | .divz o => Sys2Proof.Machine.execDivz o s
  | .rem o => Sys2Proof.Machine.execRem o s
  | .remz o => Sys2Proof.Machine.execRemz o s
  | .and o => Sys2Proof.Machine.execAnd o s
  | .or o => Sys2Proof.Machine.execOr o s
  | .xor o => Sys2Proof.Machine.execXor o s
  | .andn o => Sys2Proof.Machine.execAndn o s
  | .shl o => Sys2Proof.Machine.execShl o s
  | .shr o => Sys2Proof.Machine.execShr o s
  | .sha o => Sys2Proof.Machine.execSha o s
  | .rotl o => Sys2Proof.Machine.execRotl o s
  | .clz o => Sys2Proof.Machine.execClz o s
  | .ctz o => Sys2Proof.Machine.execCtz o s
  | .popc o => Sys2Proof.Machine.execPopc o s
  | .min o => Sys2Proof.Machine.execMin o s
  | .minz o => Sys2Proof.Machine.execMinz o s
  | .max o => Sys2Proof.Machine.execMax o s
  | .maxz o => Sys2Proof.Machine.execMaxz o s
  | .seq o => Sys2Proof.Machine.execSeq o s
  | .sne o => Sys2Proof.Machine.execSne o s
  | .slt o => Sys2Proof.Machine.execSlt o s
  | .sltz o => Sys2Proof.Machine.execSltz o s
  | .sle o => Sys2Proof.Machine.execSle o s
  | .slez o => Sys2Proof.Machine.execSlez o s
  | .sel o => Sys2Proof.Machine.execSel o s
  | .bfx o => Sys2Proof.Machine.execBfx o s
  | .bfxz o => Sys2Proof.Machine.execBfxz o s
  | .bfi o => Sys2Proof.Machine.execBfi o s
  | .fadd o => Sys2Proof.Machine.execFadd o s
  | .fsub o => Sys2Proof.Machine.execFsub o s
  | .fmul o => Sys2Proof.Machine.execFmul o s
  | .fdiv o => Sys2Proof.Machine.execFdiv o s
  | .fsqrt o => Sys2Proof.Machine.execFsqrt o s
  | .ffma o => Sys2Proof.Machine.execFfma o s
  | .fmin o => Sys2Proof.Machine.execFmin o s
  | .fmax o => Sys2Proof.Machine.execFmax o s
  | .feq o => Sys2Proof.Machine.execFeq o s
  | .flt o => Sys2Proof.Machine.execFlt o s
  | .fle o => Sys2Proof.Machine.execFle o s
  | .fcvt o => Sys2Proof.Machine.execFcvt o s
  | .fclass o => Sys2Proof.Machine.execFclass o s
  | .eget o => Sys2Proof.Machine.execEget o s
  | .epeek o => Sys2Proof.Machine.execEpeek o s
  | .mcfg o => Sys2Proof.Machine.execMcfg o s
  | .mgo => Sys2Proof.Machine.execMgo s
  | .mwait => Sys2Proof.Machine.execMwait s
  | .mstat d => Sys2Proof.Machine.execMstat d s
  | .addi o => Sys2Proof.Machine.execAddi o s
  | .andi o => Sys2Proof.Machine.execAndi o s
  | .ori o => Sys2Proof.Machine.execOri o s
  | .xori o => Sys2Proof.Machine.execXori o s
  | .shli o => Sys2Proof.Machine.execShli o s
  | .shri o => Sys2Proof.Machine.execShri o s
  | .shai o => Sys2Proof.Machine.execShai o s
  | .rotli o => Sys2Proof.Machine.execRotli o s
  | .movi o => Sys2Proof.Machine.execMovi o s
  | .movhi o => Sys2Proof.Machine.execMovhi o s
  | .lea o => Sys2Proof.Machine.execLea o s
  | .lds o => Sys2Proof.Machine.execLds o s
  | .sts o => Sys2Proof.Machine.execSts o s
  | .sysrd o => Sys2Proof.Machine.execSysrd o s
  | .syswr o => Sys2Proof.Machine.execSyswr o s
  | .syswrTshape o => Sys2Proof.Machine.execSyswrTshape o s
  | .syswrSpm a => Sys2Proof.Machine.execSyswrSpm a s
  | .syswrFpc o => Sys2Proof.Machine.execSyswrFpc o s
  | .syswrTxw o => Sys2Proof.Machine.execSyswrTxw o s
  | .prio n => Sys2Proof.Machine.execPrio n s
  | .heart => Sys2Proof.Machine.execHeart s
  | .trap n => Sys2Proof.Machine.execTrap n s
  | .bkpt n => Sys2Proof.Machine.execBkpt n s
  | .idle => Sys2Proof.Machine.execIdle s
  | .br o => Sys2Proof.Machine.execBr o s
  | .bc o => Sys2Proof.Machine.execBc o s
  | .call o => Sys2Proof.Machine.execCall o s
  | .ret x => Sys2Proof.Machine.execRet x s
  | .jmpt o => Sys2Proof.Machine.execJmpt o s
  | .loop o => Sys2Proof.Machine.execLoop o s
  | .endTask => Sys2Proof.Machine.execEndTask s
  | .tret => Sys2Proof.Machine.execTret s
  | .vadd o => Sys2Proof.Machine.execVadd o s
  | .vsub o => Sys2Proof.Machine.execVsub o s
  | .vmul o => Sys2Proof.Machine.execVmul o s
  | .vfma o => Sys2Proof.Machine.execVfma o s
  | .vfms o => Sys2Proof.Machine.execVfms o s
  | .vmin o => Sys2Proof.Machine.execVmin o s
  | .vmax o => Sys2Proof.Machine.execVmax o s
  | .vdiv o => Sys2Proof.Machine.execVdiv o s
  | .vand o => Sys2Proof.Machine.execVand o s
  | .vor o => Sys2Proof.Machine.execVor o s
  | .vxor o => Sys2Proof.Machine.execVxor o s
  | .vshl o => Sys2Proof.Machine.execVshl o s
  | .vshr o => Sys2Proof.Machine.execVshr o s
  | .vsha o => Sys2Proof.Machine.execVsha o s
  | .vadds o => Sys2Proof.Machine.execVadds o s
  | .vsubs o => Sys2Proof.Machine.execVsubs o s
  | .vmulh o => Sys2Proof.Machine.execVmulh o s
  | .vsel o => Sys2Proof.Machine.execVsel o s
  | .vperm o => Sys2Proof.Machine.execVperm o s
  | .vrotl o => Sys2Proof.Machine.execVrotl o s
  | .vzip o => Sys2Proof.Machine.execVzip o s
  | .vunzip o => Sys2Proof.Machine.execVunzip o s
  | .vbcast o => Sys2Proof.Machine.execVbcast o s
  | .vabs o => Sys2Proof.Machine.execVabs o s
  | .vneg o => Sys2Proof.Machine.execVneg o s
  | .vnot o => Sys2Proof.Machine.execVnot o s
  | .vmov o => Sys2Proof.Machine.execVmov o s
  | .vsqrt o => Sys2Proof.Machine.execVsqrt o s
  | .vrsqrt o => Sys2Proof.Machine.execVrsqrt o s
  | .vrcp o => Sys2Proof.Machine.execVrcp o s
  | .vexp2 o => Sys2Proof.Machine.execVexp2 o s
  | .vlog2 o => Sys2Proof.Machine.execVlog2 o s
  | .vtanh o => Sys2Proof.Machine.execVtanh o s
  | .vsig o => Sys2Proof.Machine.execVsig o s
  | .verf o => Sys2Proof.Machine.execVerf o s
  | .vcvt o => Sys2Proof.Machine.execVcvt o s
  | .vwiden o => Sys2Proof.Machine.execVwiden o s
  | .vnarrow o => Sys2Proof.Machine.execVnarrow o s
  | .vhad o => Sys2Proof.Machine.execVhad o s
  | .vqnt o => Sys2Proof.Machine.execVqnt o s
  | .vdqnt o => Sys2Proof.Machine.execVdqnt o s
  | .vradd o => Sys2Proof.Machine.execVradd o s
  | .vrmax o => Sys2Proof.Machine.execVrmax o s
  | .vrmin o => Sys2Proof.Machine.execVrmin o s
  | .vscan o => Sys2Proof.Machine.execVscan o s
  | .vcompr o => Sys2Proof.Machine.execVcompr o s
  | .vexpd o => Sys2Proof.Machine.execVexpd o s
  | .viota o => Sys2Proof.Machine.execViota o s
  | .vcmp o => Sys2Proof.Machine.execVcmp o s
  | .pand o => Sys2Proof.Machine.execPand o s
  | .por o => Sys2Proof.Machine.execPor o s
  | .pxor o => Sys2Proof.Machine.execPxor o s
  | .pnot o => Sys2Proof.Machine.execPnot o s
  | .pfirst o => Sys2Proof.Machine.execPfirst o s
  | .pcnt o => Sys2Proof.Machine.execPcnt o s
  | .pseti o => Sys2Proof.Machine.execPseti o s
  | .nestIssue lead p => Sys2Proof.Machine.execNestIssue lead p s
  | .tcfg o => Sys2Proof.Machine.execTcfg o s
  | .tzero o => Sys2Proof.Machine.execTzero o s
  | .trowld o => Sys2Proof.Machine.execTrowld o s
  | .trowst o => Sys2Proof.Machine.execTrowst o s
  | .tcolld o => Sys2Proof.Machine.execTcolld o s
  | .tcolst o => Sys2Proof.Machine.execTcolst o s
  | .tld o => Sys2Proof.Machine.execTld o s
  | .tst o => Sys2Proof.Machine.execTst o s
  | .tmma o => Sys2Proof.Machine.execTmma o s
  | .tout o => Sys2Proof.Machine.execTout o s
  | .oclaim o => Sys2Proof.Machine.execOclaim o s
  | .orel o => Sys2Proof.Machine.execOrel o s
  | .oload o => Sys2Proof.Machine.execOload o s
  | .matrixNestStart pos => Sys2Proof.Machine.execMatrixNestStart pos s
  | .matrixNestComplete pos => Sys2Proof.Machine.execMatrixNestComplete pos s
  | .spmode o => Sys2Proof.Machine.execSpmode o s
  | .spld o => Sys2Proof.Machine.execSpld o s
  | .spst o => Sys2Proof.Machine.execSpst o s
  | .spmov o => Sys2Proof.Machine.execSpmov o s
  | .spclr o => Sys2Proof.Machine.execSpclr o s
  | .spnorm o => Sys2Proof.Machine.execSpnorm o s
  | .spup o => Sys2Proof.Machine.execSpup o s
  | .spdn o => Sys2Proof.Machine.execSpdn o s
  | .vld o => Sys2Proof.Machine.execVld o s
  | .vst o => Sys2Proof.Machine.execVst o s
  | .vldt o => Sys2Proof.Machine.execVldt o s
  | .vstt o => Sys2Proof.Machine.execVstt o s
  | .vgath o => Sys2Proof.Machine.execVgath o s
  | .vscat o => Sys2Proof.Machine.execVscat o s
  | .wld o => Sys2Proof.Machine.execWld o s
  | .wst o => Sys2Proof.Machine.execWst o s
  | .pref o => Sys2Proof.Machine.execPref o s
  | .atom o => Sys2Proof.Machine.execAtom o s
  | .red o => Sys2Proof.Machine.execRed o s
  | .fence o => Sys2Proof.Machine.execFence o s
  | .sbar sm => Sys2Proof.Machine.execSbar sm s
  | .swfence => Sys2Proof.Machine.execSwfence s
  | .hcfg o => Sys2Proof.Machine.execHcfg o s
  | .hstat o => Sys2Proof.Machine.execHstat o s
  | .waitf o => Sys2Proof.Machine.execWaitf o s
  | .waite o => Sys2Proof.Machine.execWaite o s
  | .advc o => Sys2Proof.Machine.execAdvc o s
  | .advp o => Sys2Proof.Machine.execAdvp o s
  | .handleFillRelease pos h => Sys2Proof.Machine.execHandleFillRelease pos h s
  | .handleDrainRelease pos h => Sys2Proof.Machine.execHandleDrainRelease pos h s
  | .tksend o => Sys2Proof.Machine.execTksend o s
  | .tokenRelease pos snd rcv => Sys2Proof.Machine.execTokenRelease pos snd rcv s
  | .tkwait o => Sys2Proof.Machine.execTkwait o s
  | .bar k => Sys2Proof.Machine.execBar k s
  | .barrierArrivalAdd pos => Sys2Proof.Machine.execBarrierArrivalAdd pos s
  | .barrierComplete lid level group => Sys2Proof.Machine.execBarrierComplete lid level group s
  | .phase => Sys2Proof.Machine.execPhase s
  | .phaseComplete lid => Sys2Proof.Machine.execPhaseComplete lid s
  | .launch o => Sys2Proof.Machine.execLaunch o s
  | .cpost o => Sys2Proof.Machine.execCpost o s
  | .waitseq o => Sys2Proof.Machine.execWaitseq o s
  | .seqrd o => Sys2Proof.Machine.execSeqrd o s
  | .fstep a => Sys2Proof.Machine.execFstep a s
  | .cstat o => Sys2Proof.Machine.execCstat o s
  | .cwait c => Sys2Proof.Machine.execCwait c s
  | .fhint a => Sys2Proof.Machine.execFhint a s
  | .est o => Sys2Proof.Machine.execEst o s
  | .tear c => Sys2Proof.Machine.execTear c s
  | .hold c => Sys2Proof.Machine.execHold c s
  | .seqStep o => Sys2Proof.Machine.execSeqStep o s
  | .gap o => Sys2Proof.Machine.execGap o s
  | .lmove o => Sys2Proof.Machine.execLmove o s
  | .vect o => Sys2Proof.Machine.execVect o s
  | .retry o => Sys2Proof.Machine.execRetry o s
  | .signal addr => Sys2Proof.Machine.execSignal addr s
  | .seqDone => Sys2Proof.Machine.execSeqDone s
  | .stepIssue lid => Sys2Proof.Machine.execStepIssue lid s
  | .settleElapsed c => Sys2Proof.Machine.execSettleElapsed c s
  | .drainComplete c => Sys2Proof.Machine.execDrainComplete c s
  | .copy id => Sys2Proof.Machine.execCopy id s
  | .fill id => Sys2Proof.Machine.execFill id s
  | .crc id => Sys2Proof.Machine.execCrc id s
  | .transpose id => Sys2Proof.Machine.execTranspose id s
  | .convert id => Sys2Proof.Machine.execConvert id s
  | .quantise id => Sys2Proof.Machine.execQuantise id s
  | .dequantise id => Sys2Proof.Machine.execDequantise id s
  | .compress id => Sys2Proof.Machine.execCompress id s
  | .decompress id => Sys2Proof.Machine.execDecompress id s
  | .rread id => Sys2Proof.Machine.execRread id s
  | .rwrite id => Sys2Proof.Machine.execRwrite id s
  | .rreduce id => Sys2Proof.Machine.execRreduce id s
  | .rfetch id => Sys2Proof.Machine.execRfetch id s
  | .rsignal id => Sys2Proof.Machine.execRsignal id s
  | .dispatch id => Sys2Proof.Machine.execDispatch id s
  | .cardRetire id => Sys2Proof.Machine.execCardRetire id s
  | .segmentCommit id => Sys2Proof.Machine.execSegmentCommit id s
  | .chainDisableComplete pos q => Sys2Proof.Machine.execChainDisableComplete pos q s
  | .atomicAtHome rid => Sys2Proof.Machine.execAtomicAtHome rid s
  | .launchSubmit addr root => Sys2Proof.Machine.execLaunchSubmit addr root s
  | .admitNext => Sys2Proof.Machine.execAdmitNext s
  | .launchComplete lid => Sys2Proof.Machine.execLaunchComplete lid s
  | .bindRecordWrite b => Sys2Proof.Machine.execBindRecordWrite b s
  | .taskDispatch pos => Sys2Proof.Machine.execTaskDispatch pos s
  | .resume pos => Sys2Proof.Machine.execResume pos s
  | .handlerEntry pos => Sys2Proof.Machine.execHandlerEntry pos s
  | .preempt pos => Sys2Proof.Machine.execPreempt pos s
  | .watchdogFire pos => Sys2Proof.Machine.execWatchdogFire pos s
  | .chainEnable a => Sys2Proof.Machine.execChainEnable a s
  | .chainDisable a => Sys2Proof.Machine.execChainDisable a s
  | .chainFailedClear a => Sys2Proof.Machine.execChainFailedClear a s
  | .idleTimeout pos => Sys2Proof.Machine.execIdleTimeout pos s
  | .alloy router p q => Sys2Proof.Machine.execAlloy router p q s
  | .part entry => Sys2Proof.Machine.execPart entry s
  | .receiptQuery c => Sys2Proof.Machine.execReceiptQuery c s
  | .lostCircuitSettle c => Sys2Proof.Machine.execLostCircuitSettle c s
  | .scrubError e => Sys2Proof.Machine.execScrubError e s
  | .assay r passed => Sys2Proof.Machine.execAssay r passed s
  | .debugHalt pos => Sys2Proof.Machine.execDebugHalt pos s
  | .debugWrite pos t => Sys2Proof.Machine.execDebugWrite pos t s
  | .debugStep pos => Sys2Proof.Machine.execDebugStep pos s
  | .tlbShootdown root va size => Sys2Proof.Machine.execTlbShootdown root va size s
  | .rangeRegisterWrite die n rgb rgl => Sys2Proof.Machine.execRangeRegisterWrite die n rgb rgl s
  | .wsctlOpen die lid o => Sys2Proof.Machine.execWsctlOpen die lid o s
  | .drainBoundExpiry c => Sys2Proof.Machine.execDrainBoundExpiry c s
  | .opticalFaultReport c die port wave sub => Sys2Proof.Machine.execOpticalFaultReport c die port wave sub s
  | .recoveryAttemptEnd c locked => Sys2Proof.Machine.execRecoveryAttemptEnd c locked s
  | .sequencerFailover => Sys2Proof.Machine.execSequencerFailover s
  | .groupRetrain die port group => Sys2Proof.Machine.execGroupRetrain die port group s
  | .pause c hop dir => Sys2Proof.Machine.execPause c hop dir s
  | .resumeSymbol c hop dir => Sys2Proof.Machine.execResumeSymbol c hop dir s
  | .frameReceive c hop dir body tag => Sys2Proof.Machine.execFrameReceive c hop dir body tag s
  | .streamOpen p => Sys2Proof.Machine.execStreamOpen p s
  | .accept p => Sys2Proof.Machine.execAccept p s
  | .refuse p => Sys2Proof.Machine.execRefuse p s
  | .linkSteer pair => Sys2Proof.Machine.execLinkSteer pair s
  | .linkWavelengthRetrain link wave done => Sys2Proof.Machine.execLinkWavelengthRetrain link wave done s
  | .linkTrain link peer => Sys2Proof.Machine.execLinkTrain link peer s
  | .linkset peers => Sys2Proof.Machine.execLinkset peers s
  | .fqtailWrite m v => Sys2Proof.Machine.execFqtailWrite m v s
  | .devnoWrite m v => Sys2Proof.Machine.execDevnoWrite m v s
  | .lsecretWrite m v => Sys2Proof.Machine.execLsecretWrite m v s
  | .okeysWrite m n v => Sys2Proof.Machine.execOkeysWrite m n v s
  | .oklockCommit m v => Sys2Proof.Machine.execOklockCommit m v s
  | .electionNonce n => Sys2Proof.Machine.execElectionNonce n s
  | .ownerAnswer m key sig => Sys2Proof.Machine.execOwnerAnswer m key sig s
  | .handoverWrite m v => Sys2Proof.Machine.execHandoverWrite m v s
  | .handoverTimeout => Sys2Proof.Machine.execHandoverTimeout s
  | .keepaliveTimeout => Sys2Proof.Machine.execKeepaliveTimeout s
  | .quote nonce => Sys2Proof.Machine.execQuote nonce s
  | .bootStageMeasure image => Sys2Proof.Machine.execBootStageMeasure image s
  | .pcapWrite m v => Sys2Proof.Machine.execPcapWrite m v s
  | .governorStep draw => Sys2Proof.Machine.execGovernorStep draw s
  | .laserBankRemove b => Sys2Proof.Machine.execLaserBankRemove b s
  | .laserBankReturn b passed => Sys2Proof.Machine.execLaserBankReturn b passed s
  | .dieReset d => Sys2Proof.Machine.execDieReset d s
  | .readinessSet bit => Sys2Proof.Machine.execReadinessSet bit s
  | .debuggerAttach lid => Sys2Proof.Machine.execDebuggerAttach lid s
  | .partnerCircuitChange link pos settled groups die => Sys2Proof.Machine.execPartnerCircuitChange link pos settled groups die s
  | .linkDown link => Sys2Proof.Machine.execLinkDown link s
  | .ownerKeepalive m => Sys2Proof.Machine.execOwnerKeepalive m s
  | .channelCopyComplete die ch => Sys2Proof.Machine.execChannelCopyComplete die ch s

end Sys2Proof.Machine
end

