-- ==== Sys2Proof/Machine/Issue.lean ====
section
/-!
DEFINITION. One engine of one context at its next slot: what it fetches, whether it is held, what it performs and what it
passes (spec/01 R25 to R29; spec/06 R160, R166; spec/09 R187 to R194; spec/14 R337).
-/
namespace Sys2Proof.Machine

/-- Run an instruction as engine `e` of the context at `pos`. -/
def issueAt (s : State) (pos : Nat) (e : Engine) (i : Instr) : HO := exec i { s with cur := pos, eng := e }

/-- The fault of a slot that has no meaning (R27, R63). -/
def decFault : DecErr → FaultCode
  | .illop => .illop
  | .illrec => .illrec

/-- The wait count of an ordinary context starts again when an engine issues; a persistent one's only at HEART (R334). -/
def Context.issued (c : Context) : Context := if c.bind.pers then c else { c with wdog := 0 }

/-- After an issue with one program counter: the wait count starts again, what was written is correct again, and a debugger's
step halts the context (R324, R334, R337). -/
def afterTogether (pos : Nat) (c : Context) (e : Engine) (i : Option (Instr × Foot)) (s : State) : State :=
  match s.ctx? pos with
  | none => s
  | some c1 =>
    if c1 = c then s
    else
      let c2 := match i with | some x => c1.issued.heal x.1 x.2 | none => c1.issued
      let moved := (c1.posOf .ctl).idx != (c.posOf .ctl).idx || c1.handler != c.handler
      s.setCtx pos (if c.stepping && moved && !c1.halted then c2.debugHalt e stepArg (c.posOf e).word else c2)

/-- A nest's next iteration named, so that a fault at its first issue names it too (R67, R193). -/
def Context.nameNest (c : Context) (e : Engine) (i : Instr) : Context :=
  match i with
  | .nestIssue _ p => c.setNest e (nestFirst p ((c.nestPos e).getD {}))
  | _ => c

/-- The instruction at the one program counter of a context, which its engine performs (R26, R28). -/
def issueTogether (s : State) (pos : Nat) (c : Context) (e : Engine) : HO :=
  match fetchSlot s (c.who pos) (c.posOf .ctl) with
  | .error st => .next (if e = .ctl then afterTogether pos c e none (stopWith s pos c .ctl st) else s)
  | .ok x =>
    if e ≠ (if x.inside (c.posOf .ctl) then .ctl else x.owner c) then .next s
    else
      match x.dec with
      | .error d => .next (afterTogether pos c e none (takeTrap s pos c e { code := decFault d }))
      | .ok i =>
        let f := footAt s c e pos i
        let k := (c.posOf e).idx
        if boardHold s pos c i f || (!c.handler &&
            (soHold s pos c k f [] || redHold s pos c e k i f || sbarHold s c k f [])) then .next s
        else
          match ownError c i f with
          | some a => .next (afterTogether pos c e none (takeTrap s pos (c.nameNest e i) e
              { code := .eccu, addr := a, found := some (coreRes pos) }))
          | none =>
            match issueAt s pos e i with
            | .next t => .next (afterTogether pos c e (some (i, f)) t)
            | o => o

/-! The engines apart (R187 to R192). -/

/-- Entries that no engine needs any more (R189, R190), also where a read that has issued may still fail (R325). -/
def Context.forget (c : Context) : Context :=
  let m := c.late.foldl (fun m x => min m x.place.idx) c.pos.minIdx
  { c with
    log := c.log.filter fun e => m ≤ e.1
    owed := c.owed.filter fun (o : Owed) => m ≤ o.idx }

/-- An engine passes a slot (R187). -/
def passSlot (s : State) (pos : Nat) (c : Context) (e : Engine) (q : EnginePos) : State :=
  s.setCtx pos { c with pos := c.pos.set e q }.forget

/-- Whether an instruction waits for another engine, a time that the model does not count (R192, R198 to R200). -/
def syncs (i : Instr) : Bool :=
  match i with
  | .waitf _ | .waite _ | .tkwait _ | .sbar _ => true
  | .nestIssue _ p => p.twait.isSome
  | _ => false

/-- The matrix engine while its nest runs: a K-step, which takes a cycle, or the completion (R160, R165, R166). A K-step that
reads an uncorrectable tile or slot raises ECCU at the MGO (R324). -/
def matNestStep (s : State) (pos : Nat) (c : Context) : HO :=
  if nestLeft c then
    if (stepReads (matNest c.mat.active) c.mat.stepAt).any c.own.contains then .next (takeTrap s pos c .mat (nestEcc pos))
    else .next (s.setCtx pos ((nestKstep c).passCycles .mat 1))
  else exec (.matrixNestComplete pos) (s.setCtx pos (c.passCycles .mat 8))

/-- The matrix engine at an MGO (R160, R166): it waits for CTL, starts the nest, or passes. -/
def matAtMgo (s : State) (pos : Nat) (c : Context) (x : SlotAt) : HO :=
  if c.pos.ctl.idx ≤ c.pos.mat.idx then .next s
  else if c.mat.go then exec (.matrixNestStart pos) s
  else .next (passSlot s pos c .mat (x.after c.pos.mat))

/-- What an issue hands on to the engines and the instructions after it. -/
structure Issued where
  e : Engine
  i : Instr
  f : Foot
  dl : Nat × Nat
  owes : List Owed
  bars : List Bar

/-- Whether an engine has gone on from where it stood: to another slot, or to another iteration of its nest. -/
def wentOn (c c1 : Context) (e : Engine) : Bool :=
  (c1.pos.get e).idx != (c.pos.get e).idx || c1.nestPos e != c.nestPos e

/-- A read of memory whose fault may be found after it has issued (R325): it only reads, and it writes lines, scalars or operand
slots. `c` is the context before it. -/
def lateRead (s : State) (c : Context) (x : Issued) : List LateRead :=
  let ns := linesIn c x.f.lineW
  let rs := x.f.regW.filterMap fun r => match r with | .s n => some n | _ => none
  if x.f.memR.isEmpty || x.f.writes || serialises x.i || rs.length != x.f.regW.length ||
      (ns.isEmpty && rs.isEmpty && x.e != .mat) then []
  else
    [{ eng := x.e, place := c.pos.get x.e, nest := (c.nameNest x.e x.i).nestPos x.e, stamp := c.stamp,
       src := (x.f.memR.flatMap (piecesOf s (c.who s.cur))).map fun p => (p.1.va, p.1.loc, p.2),
       lines := ns.map fun n => (n, lookD c.lines n 0),
       regs := rs.map fun n => (n, lookD c.r.s n 0),
       slots := if x.e = .mat then c.mat.oslots else [],
       own := c.own }]

/-- Whether a read that has issued may still be under way after an issue: the issue touches nothing that it writes, and waits for
nothing before it. -/
def LateRead.outlasts (c : Context) (x : Issued) (r : LateRead) : Bool :=
  let used := linesIn c (x.f.lineR ++ x.f.lineW)
  !serialises x.i && (match x.i with | .fence _ | .sbar _ => false | _ => true) && !(r.eng == .mat && x.e == .mat) &&
    !(r.lines.any fun l => used.contains l.1) && !(r.regs.any fun v => (x.f.regR ++ x.f.regW).contains (.s v.1))

/-- What an issue leaves behind (R190, R192, R194, R325); a fault or a wait leaves nothing. `c` is the context before, and `t` the
one after. -/
def Context.leaveIssue (c : Context) (s : State) (x : Issued) (t : Context) : Context :=
  let t1 := c.asWritten s.freeCtr x.bars x.e (c.pos.get x.e).idx x.f t
  let t2 := { t1.heal x.i x.f with
    owed := t1.owed ++ x.owes
    stamp := c.stamp + 1
    late := (t1.late.filter fun (r : LateRead) => r.outlasts c x) ++ lateRead s c x
    mixes := if serialises x.i then [] else t1.mixes }
  let t3 := t2.noteFlight x.e x.i x.f (issueInterval c x.e x.i) x.dl c.stamp
  let t4 := if serialises x.i then { t3.settleSpe with flight := [] } else t3
  (t4.forget.dropBars s).issued

/-- After an issue of an engine at its own program counter. -/
def afterApart (pos : Nat) (c : Context) (x : Issued) (s : State) : State :=
  match s.ctx? pos with
  | none => s
  | some c1 =>
    if c1.handler || !wentOn c c1 x.e then s.setCtx pos { c1 with lines := c.lines, flight := if c1.handler then [] else c.flight }
    else s.setCtx pos (c.leaveIssue s x c1)

/-- An engine issues its slot (R187, R190, R192, R194). -/
def issueNow (s : State) (pos : Nat) (c : Context) (e : Engine) (i : Instr) (f : Foot) : HO :=
  let k := (c.pos.get e).idx
  let ls := lagging s pos c k
  let bs := barsBefore c ls
  match issueAt (s.setCtx pos (c.asRead s.freeCtr bs e k f)) pos e i with
  | .next t => .next (afterApart pos c ⟨e, i, f, dlyLat s c e pos i, owedNew c k f ls, bs⟩ t)
  | o => o

/-- An engine performs its slot. LATVIOL (R192) is raised before every fault that the instruction itself would raise at its
issue (HNDL, PROT, BANKCONF, ILLOP): R63 and R192 do not order them, a DESIGN CHOICE (log 16). At span zero DLY has no effect
(R28); with LATMODE 0 the instruction stalls until the write is made, a time that the model does not count. -/
def performApart (s : State) (pos : Nat) (c : Context) (e : Engine) (i : Instr) : HO :=
  let f := footAt s c e pos i
  if performHold s pos c e i then .next s
  else
    match ownError c i f with
    | some a => .next (takeTrap s pos (c.nameNest e i) e { code := .eccu, addr := a, found := some (coreRes pos) })
    | none =>
      let c1 := ((if syncs i then c.markWaited e else c).awaitMem e f).passCycles e (max (dlyWait c e f) (yWait c i))
      match lateLine s c1 e f with
      | some n =>
        if c.r.latmode ∧ c.r.span ≠ 0 ∧ c.stepping = false then
          .next (takeTrap s pos (c.nameNest e i) e { code := .latviol, addr := n })
        else issueNow s pos (c1.markWaited e) e i f
      | none => issueNow s pos c1 e i f

/-- An engine at its own program counter. -/
def issueApart (s : State) (pos : Nat) (c : Context) (e : Engine) : HO :=
  let p := c.pos.get e
  if spanHold c e || aheadHold c e then .next s
  else
    match fetchSlot s (c.who pos) p with
    | .error st => .next (stopWith s pos c e st)
    | .ok x =>
      let o := x.owner c
      if x.inside p then .next (takeTrap s pos c e { code := .illrec })
      else if e = o then
        match x.dec with
        | .error d => .next (takeTrap s pos c e { code := decFault d })
        | .ok i => performApart s pos c e i
      else if x.isAll then
        match find? c.log p.idx with
        | some r => .next (passSlot s pos (c.markWaited e) e (r.after p))
        | none => .next s
      else
        match x.dec with
        | .ok .mgo => if e = .mat then matAtMgo s pos c x else .next (passSlot s pos c e (x.after p))
        | .ok i => .next (if serialHold s pos c e o i then s else passSlot s pos c e (x.after p))
        | .error _ => .next (passSlot s pos c e (x.after p))

/-- A step of an engine at a place, with the translation of its record (R242). -/
def keepFetch (s : State) (pos : Nat) (c : Context) (p : EnginePos) : HO → HO
  | .next t => .next (noteFetch s pos c p t)
  | o => o

/-- One engine of the context at a bind position: its next slot, or the same machine where it is held. A task that a fault
ends goes on to its end (R321), which CTL makes. While a context is IDLE its running matrix nest makes no K-step: R112 says
only that issue stops, a DESIGN CHOICE (log 50). -/
def engineStep (s : State) (pos : Nat) (e : Engine) : HO :=
  match s.ctx? pos with
  | none => .next s
  | some c =>
    if c.halted || c.preempting || c.pendingFault.isSome then .next s
    else if c.ending then (if e = .ctl then exec .endTask { s with cur := pos, eng := .ctl } else .next s)
    else if c.idle then .next s
    else if e = .mat ∧ c.mat.running = true ∧ c.handler = false then matNestStep s pos c
    else if c.together then keepFetch s pos c (c.posOf .ctl) (issueTogether s pos c e)
    else keepFetch s pos c (c.pos.get e) (issueApart s pos c e)

/-- Whether an engine of a context stands at a slot that it performs, and does not pass (R187, R206): one that cannot be
fetched counts, since its fault is the engine's. -/
def atOwnSlot (s : State) (pos : Nat) (c : Context) (e : Engine) : Bool :=
  c.ending || c.together || (e == .mat && c.mat.running) ||
    match fetchSlot s (c.who pos) (c.pos.get e) with
    | .error _ => true
    | .ok x => x.inside (c.pos.get e) || x.owner c == e ||
        (match x.dec with | .ok .mgo => e == .mat && c.mat.go | _ => false)

/-- An engine has been found held: its writes in flight go on (R192). -/
def markHeld (s : State) (pos : Nat) (e : Engine) : State :=
  match s.ctx? pos with
  | some c => if c.flight.any (fun w => w.eng == e && !w.waited) then s.setCtx pos (c.markWaited e) else s
  | none => s

end Sys2Proof.Machine
end

