-- ==== Sys2Proof/Machine/Peer.lean ====
section
/-!
DEFINITION. What a card of a peer device does to this device's memory over an external circuit (spec/17 R367 to R371; spec/20
R391, R394, R395): this device checks and performs its accesses, and answers the peer.
-/
namespace Sys2Proof.Machine

/-- The end of an external circuit at this device: the die of endpoint A, and the launch that holds the circuit, whose page
tables translate the peer's cards (R391). -/
structure PeerEnd where
  who : Who
  port : Nat
deriving Repr

/-- That end of a circuit that carries traffic. Who accesses is no core: no core's cached translations serve it. -/
def peerEnd? (s : State) (c : Nat) : Option PeerEnd :=
  let k := s.circuit c
  match k.est, s.launch? k.lid with
  | some o, some l => if o.x && carries s c then some ⟨⟨o.da.toNat, 512, k.lid, l.root⟩, o.pa.toNat⟩ else none
  | _, _ => none

/-- The remote region of a peer's card (R367, R368, R391). -/
def peerSide (s : State) (p : PeerEnd) (kind : AccKind) (ok : Trans → Bool) (va len : Nat) : Res Side :=
  farRegion s p.who p.who.die kind ok va len

/-- GUARD at the first block whose tag does not fit what has arrived, at its place in the region (R395). -/
def tagStop (ver va len v : Nat) (tags : List Word) : Option (Nat × Stop) :=
  (((blocksOf va len).zip (tags ++ List.replicate len 0)).find? fun b =>
      b.2.toNat % 2 ^ 56 != (carriedTag ver (va + b.1.1) b.1.2 (bytesAt v b.1.1 b.1.2)).toNat % 2 ^ 56).map fun b =>
    (b.1.1, .trap { code := .guard, addr := (va + b.1.1) / 512 * 512 })

/-- The stop of a write region: the lowest of a tag that does not fit and of part of an uncorrectable sector (R325, R395). -/
def arrivalStop (s : State) (d : Side) (tag : Option (Nat × Stop)) : Nat × Option Stop :=
  let ecc : Option (Nat × Stop) := match writeEcc s d.parts with
    | .error (.trap t) => some (blockStart d.addr (t.addr - d.addr), .trap t)
    | _ => none
  earlier (earlier (d.len, none) tag) ecc

/-- The answer to the peer: a status as the card's record holds it, its FADDR, and what the access returns. -/
def answer (s : State) (c : Nat) (r : Res Unit) (v : Nat) (tags : List Word) : State :=
  match r with
  | .ok () => s.report (.peerReply c 0 0 v tags)
  | .error (.trap t) =>
    (s.noteFound t).report (.peerReply c (faultStatus t.code) (statusAddr (faultStatus t.code) t.addr) v tags)
  | .error .wait => s

/-- An access of the peer that ends in an answer: one that must wait has not happened. -/
def answered (s : State) (c : Nat) (r : Res State) : HO :=
  match r with
  | .ok t => .next t
  | .error .wait => .next s
  | .error e => .next (answer s c (.error e) 0 [])

/-- The bytes written up to where a stop lies, and the answer (R300, R395). -/
def peerPut (s : State) (c : Nat) (d : Side) (ver v ret : Nat) (stop : Nat × Option Stop) : State :=
  let ps := slice d.parts 0 (min stop.1 d.len)
  let t := if stop.1 = 0 then s else writeTags (s.store ps v) ver ps
  answer t c (match stop.2 with | some e => .error e | none => .ok ()) ret []

/-- The region of a peer's card is checked when the card starts, by its KIND (R367, R368). -/
def peerCheck (s : State) (p : PeerEnd) (kind va len : Nat) : Res Side :=
  match kind with
  | 0x10 => peerSide s p .read (fun _ => true) va len
  | 0x11 => peerSide s p .write (fun _ => true) va len
  | 0x14 => peerSide s p .write atomPage va len
  | _ => peerSide s p .both atomPage va len

/-- An RREAD's bytes leave for the peer, whose destination names the blocks and their tags (R366, R392, R395). -/
def peerRead (s : State) (c : Nat) (p : PeerEnd) (va len ver dst : Nat) : Res State := do
  let d ← peerSide s p .read (fun _ => true) va len
  guardCheck s ver d.parts
  readEcc s d.parts
  let v := readParts s.mem d.parts
  .ok (answer (offer s c len) c (.ok ()) v
    ((blocksOf dst len).map fun b => carriedTag ver (dst + b.1) b.2 (bytesAt v b.1 b.2)))

/-- An RWRITE's bytes arrive (R366, R395). -/
def peerWrite (s : State) (c : Nat) (p : PeerEnd) (va len v ver : Nat) (tags : List Word) : Res State := do
  let d ← peerSide s p .write (fun _ => true) va len
  .ok (peerPut s c d ver v 0 (arrivalStop s d (tagStop ver va len v tags)))

/-- An RREDUCE's elements arrive: what comes back are the flags (R369, R395). -/
def peerReduce (s : State) (c : Nat) (p : PeerEnd) (va len v ver opt : Nat) (tags : List Word) : Res State := do
  match reduceOpt? opt with
  | none => raise .illop
  | some t => do
    check (va % (t.width / 8) == 0 && len % (t.width / 8) == 0) .align va
    let d ← peerSide s p .both atomPage va len
    let stop := arrivalStop s d (tagStop ver va len v tags)
    readEcc s (slice d.parts 0 stop.1)
    let (x, f) := reduceEls opt t (min stop.1 len / (t.width / 8)) (readParts s.mem d.parts) v
    .ok (peerPut s c d ver x f.toNat stop)

/-- The launch of a peer device whose requests a circuit brings, as matching tells it from any other (R280). -/
def peerLid (s : State) (c n : Nat) : Nat :=
  match (s.circuit c).est with
  | some o => 2 ^ 32 * (1 + (lookD s.links (linkOf o) {}).pdev) + n
  | none => 2 ^ 32

/-- A fetch-and-op arrives: it goes to its home slice from the gateway's router, where it alloys with those of its launch that
match, or its receipt answers (R280, R370, R371, R376, R378, R379, R392). -/
def peerFetch (s : State) (c : Nat) (p : PeerEnd) (va : Nat) (aop : Aop) (w64 red : Bool) (b ver requester reqid : Nat)
    (grant : Option Nat) (tags : List Word) : Res State := do
  let n := aopWidth w64 / 8
  check (va % n == 0) .align va
  match tagStop ver va n b tags with
  | some (_, e) => .error e
  | none => .ok ()
  let d ← peerSide s p (if red then .write else .both) atomPage va n
  let r : Req := {
    asker := .peer c va n, red := red, loc := partLoc d.parts, aop := aop, w64 := w64, b := b % 2 ^ (8 * n), c := 0
    lid := peerLid s c (grant.getD 0), requester := requester, reqid := reqid, combine := grant.isSome && aop != .cas
    site := some (64 * p.who.die + 32 + p.port / 2) }
  match findReceipt? s r with
  | some x => .ok (answer (if x.old.isSome then offer s c n else s) c (.ok ()) (x.old.getD 0) [])
  | none => .ok { s with reqs := put s.reqs s.m.nextReq r, m := { s.m with nextReq := s.m.nextReq + 1 } }

/-- RSIGNAL's word arrives (R371). -/
def peerSignal (s : State) (c : Nat) (p : PeerEnd) (va v ver : Nat) (tags : List Word) : Res State := do
  check (va % 8 == 0) .align va
  let d ← peerSide s p .write atomPage va 8
  .ok (peerPut s c d ver v 0 (arrivalStop s d (tagStop ver va 8 v tags)))

/-- What a card of the peer device asks arrives over an external circuit that carries traffic (R391). -/
def peerAct (c : Nat) (op : PeerOp) (s : State) : HO :=
  match peerEnd? s c with
  | none => .next s
  | some p =>
    answered s c (match op with
      | .check kind va len => do
        let _ ← peerCheck s p kind va len
        .ok (answer s c (.ok ()) 0 [])
      | .read va len ver dst => peerRead s c p va len ver dst
      | .write va len v ver tags => peerWrite s c p va len v ver tags
      | .reduce va len v ver opt tags => peerReduce s c p va len v ver opt tags
      | .fetch va aop w64 red b ver requester reqid grant tags =>
        peerFetch s c p va aop w64 red b ver requester reqid grant tags
      | .signal va v ver tags => peerSignal s c p va v ver tags)

end Sys2Proof.Machine
end

