-- ==== Sys2Proof/Machine/Placement.lean ====
section
/-!
DEFINITION. The firmware's placement: which tasks it binds next, where, and whom it pre-empts for them (spec/10 R220, R225,
R226; spec/14 R328 to R331). The agenda may bind otherwise where the spec leaves placement to the firmware (log 3).
-/
namespace Sys2Proof.Machine

/-- A task that is to be bound: what it needs of its core, and the position it takes first. -/
structure Want where
  lid : Nat
  wid : Nat
  plates : Nat
  tiles : Nat := 0
  slots : Nat := 0
  at_ : Nat := 0

/-- Tasks that are bound together: their effective class, whether a barrier awaits them, the dies that may take them in the
order in which they are tried, whether each has one position only, whether they resume, and the members of their team that
move with them when no die does (R328). -/
structure Cand where
  cls : Nat
  awaited : Bool
  wants : List Want
  dies : List Nat
  fixed : Bool
  res : Bool
  rest : List Nat := []

/-- What a task needs of a kind of space. -/
def Want.use (w : Want) : Space → Nat
  | .plates => w.plates
  | .tiles => w.tiles
  | .slots => w.slots
  | .ybanks => 0

/-- Whether a task is bound, resident or saved, or has ended. -/
def hasBeenBound (s : State) (lid : Nat) (l : Launch) (wid : Nat) : Bool :=
  (l.endedTasks.any fun t => t.wid == wid) ||
    (s.saved.any fun e => e.2.ctx.bind.lid == lid && e.2.ctx.bind.wid == wid) ||
    s.dies.any fun e => e.2.slots.any fun r => r.2.lid == lid && r.2.wid == wid

/-- A barrier awaits a task: a member of one of its groups waits for it (R225). -/
def isAwaited (s : State) (x : Member) : Bool := (allTasks s).any fun y => lends s y.member x

/-! Room (R220, R231, R330). -/

/-- What the records of a core whose tasks have not started will need of a kind. -/
def boundNeed (s : State) (core : Nat) (k : Space) : Nat :=
  (((s.die (core / 32)).slots.filter fun e => e.1 / 4 == core % 32 && !e.2.run).map fun e =>
    match savedOf? s e.2.lid e.2.wid, s.launch? e.2.lid with
    | some v, _ => useOf v.ctx k
    | none, some l => if k = .plates then hdrWindow l.hdr else 0
    | none, none => 0).sum

/-- What a core can give the tasks `ws` of a kind, once the contexts at the positions `gone` have been pre-empted. -/
def spareOf (s : State) (gone : List Nat) (ws : List Want) (core : Nat) (k : Space) : Nat :=
  let mine (u : UnitRes) : Bool := ws.any fun w => w.lid == u.lid && w.wid == u.wid
  k.total - (((s.ctxs.filter fun e => coreOf e.1 == core && !gone.contains e.1).map fun e => useOf e.2 k).sum +
    (((unitsOf s core k).filter fun u => !evictable s u && !mine u).map (unitSize s)).sum + boundNeed s core k)

/-- Whether a task may take a position, beside tasks that have theirs. -/
def mayTake (s : State) (gone : List Nat) (ws : List Want) (acc : List (Nat × Want)) (w : Want) (pos : Nat) : Bool :=
  let core := coreOf pos
  coreWorks s (dieOf pos) (pos % 128 / 4) && acc.all (fun e => e.1 != pos) &&
    ((find? (s.die (dieOf pos)).slots (pos % 128)).isNone || gone.contains pos) &&
    (match savedOf? s w.lid w.wid with | some v => coreOf v.pos == core || !windowCards s w.lid w.wid | none => true) &&
    [Space.plates, .tiles, .slots].all fun k =>
      w.use k + ((acc.filter fun e => coreOf e.1 == core).map fun e => e.2.use k).sum ≤ spareOf s gone ws core k

/-- The positions that a task may take on a die, in the order in which they are tried: its own first. -/
def positionsOn (s : State) (fixed : Bool) (w : Want) (die : Nat) : List Nat :=
  let place := match s.launch? w.lid with | some l => l.place | none => BitVec.allOnes 512
  (if dieOf w.at_ = die then [w.at_] else []) ++
    (if fixed then []
     else (dieCores s place die).flatMap fun c => (List.range 4).map fun i => 128 * die + 4 * c + i)

/-- Places for all of the tasks on one die. -/
def placeFrom (s : State) (gone : List Nat) (c : Cand) (die : Nat) : List Want → List (Nat × Want) → Option (List (Nat × Want))
  | [], acc => some acc
  | w :: r, acc =>
    match (positionsOn s c.fixed w die).find? (mayTake s gone c.wants acc w) with
    | some pos => placeFrom s gone c die r (acc ++ [(pos, w)])
    | none => none

def placeAll (s : State) (gone : List Nat) (c : Cand) : Option (List (Nat × Want)) :=
  c.dies.findSome? fun d => placeFrom s gone c d c.wants []

/-! The candidates. -/

/-- The members of a team. -/
def teamWids (l : Launch) (t : Nat) : List Nat :=
  let n := groupSize l.hdr l.pext l.tl
  (List.range n).map fun i => widAt l.hdr l.pext (t * n + i)

/-- The dies of a list, and after them the others that can hold a team of the launch (R220). -/
def thenDies (s : State) (l : Launch) (ds : List Nat) : List Nat :=
  ds ++ (teamDies s l.hdr l.place (maxTeam l.hdr l.pext)).filter fun d => !ds.contains d

/-- A team whose tasks have not been bound (R220): in deterministic mode each has its one position; in throughput mode the
firmware begins with that position and takes another where it must. -/
def bindCand (s : State) (lid : Nat) (l : Launch) (t : Nat) : List Cand :=
  let ms := (teamWids l t).filter fun m => !hasBeenBound s lid l m
  match fixedDie s l t with
  | none => []
  | some d =>
    if ms.isEmpty then []
    else
      [{ cls := (ms.map fun m => effOf s (unboundMember lid l m)).foldl max 0
         awaited := ms.any fun m => isAwaited s (unboundMember lid l m)
         wants := ms.map fun m =>
           { lid := lid, wid := m, plates := hdrWindow l.hdr, at_ := (detPos s l m).getD 0 }
         dies := if hdrDet l.hdr then [d] else thenDies s l [d]
         fixed := hdrDet l.hdr
         res := false }]

/-- The teams of a launch of which no record has been written. -/
def bindCands (s : State) (e : Nat × Launch) : List Cand :=
  let total := taskCount e.2.hdr e.2.pext
  if total ≤ e.2.bound then []
  else (List.range (total / max 1 (groupSize e.2.hdr e.2.pext e.2.tl))).flatMap (bindCand s e.1 e.2)

/-- The saved tasks of a team that may come back: no debugger holds them, and no record names them. -/
def savedTeam (s : State) (lid : Nat) (l : Launch) (t : Nat) : List Saved :=
  (s.saved.map (·.2)).filter fun v =>
    v.ctx.bind.lid == lid && l.teamOf v.ctx.bind.wid == t && !v.ctx.halted &&
      !(s.dies.any fun e => e.2.slots.any fun r => r.2.lid == lid && r.2.wid == v.ctx.bind.wid)

/-- The positions of the members of a team that are bound, with their tasks. -/
def boundOf (s : State) (lid : Nat) (l : Launch) (t : Nat) : List (Nat × Nat) :=
  s.dies.flatMap fun e =>
    (e.2.slots.filter fun r => r.2.lid == lid && l.teamOf r.2.wid == t).map fun r => (128 * e.1 + r.1, r.2.wid)

/-- The saved tasks of a team, once no member of it is leaving any more. In throughput mode they go to the die of the members
that are bound; where none is, to the die that they left, or to another that can hold the team (R211, R220, R328, R331). In
deterministic mode each goes to its one position, and where a bound member does not stand at its own, all of them leave first
(R220). -/
def resumeCand (s : State) (lid : Nat) (l : Launch) (t : Nat) : List Cand :=
  let vs := savedTeam s lid l t
  let here := boundOf s lid l t
  let det := hdrDet l.hdr
  let moves := here.any fun e => misplaced s l e.2 e.1
  let ds := if det then (if moves then [] else (fixedDie s l t).toList)
    else match here.map (fun e => dieOf e.1) |>.eraseDups, diesOfTeam s lid l t with
    | d :: _, _ => [d]
    | [], [d] => thenDies s l [d]
    | [], _ => thenDies s l (fixedDie s l t).toList
  let holds := ds.any fun d => groupSize l.hdr l.pext l.tl ≤ (dieCores s l.place d).length * coreCap (hdrWindow l.hdr)
  if vs.isEmpty || here.any fun e => (s.ctx? e.1).any (·.preempting) then []
  else
    [{ cls := (vs.map fun v => effClass s v.ctx).foldl max 0
       awaited := vs.any fun v => isAwaited s v.ctx.member
       wants := vs.map fun v =>
         { lid := lid, wid := v.ctx.bind.wid, plates := useOf v.ctx .plates, tiles := useOf v.ctx .tiles
           slots := useOf v.ctx .slots, at_ := if det then (detPos s l v.ctx.bind.wid).getD v.pos else v.pos }
       dies := ds
       fixed := det
       res := true
       rest := if holds && !moves then [] else here.map (·.1) }]

/-- The teams of a launch that have saved tasks. -/
def resumeCands (s : State) (e : Nat × Launch) : List Cand :=
  ((s.saved.filter fun v => v.2.ctx.bind.lid == e.1).map fun v => e.2.teamOf v.2.ctx.bind.wid).eraseDups.flatMap
    (resumeCand s e.1 e.2)

/-- Every candidate. -/
def allCands (s : State) : List Cand := s.launches.flatMap fun e => resumeCands s e ++ bindCands s e

/-! The choice (R225, R226). -/

/-- The positions of the contexts that a candidate may displace: those of lower effective class (R226), those that wait at
barriers when a barrier awaits the candidate (R225), and those that are leaving already. -/
def displaceable (s : State) (c : Cand) : List Nat :=
  (s.ctxs.filter fun e => !e.2.ending && (e.2.preempting || effClass s e.2 < c.cls || c.awaited && e.2.barWait.isSome)).map (·.1)

/-- Of the contexts that may be displaced, those that stand where places have been found, or, if more room is needed there,
those of the same cores. -/
def displaced (s : State) (c : Cand) (can : List Nat) (ps : List (Nat × Want)) : List Nat :=
  let at' := can.filter fun p => ps.any fun e => e.1 == p
  let fits := ps.all fun e => mayTake s at' c.wants (ps.filter fun x => x.1 != e.1) e.2 e.1
  if fits then at' else can.filter fun p => ps.any fun e => coreOf e.1 == coreOf p

/-- What the firmware does for a candidate: it writes its bind records, or makes room first. -/
inductive Move where
  | bind (ps : List (Nat × Want)) (res : Bool)
  | clear (gone : List Nat)

def moveFor (s : State) (c : Cand) : Option Move :=
  match placeAll s [] c with
  | some ps => some (.bind ps c.res)
  | none =>
    if !c.rest.isEmpty then some (.clear c.rest)
    else
      let can := displaceable s c
      (placeAll s can c).map fun ps => .clear (displaced s c can ps)

/-- The candidates of one class, those that a barrier awaits first (R225). -/
def candsOf (cs : List Cand) (k : Nat) : List Cand :=
  let ts := cs.filter fun c => c.cls == k
  ts.filter (·.awaited) ++ ts.filter fun c => !c.awaited

/-- The firmware's next move: no candidate comes before one of higher effective class that can be placed (R226), and of equals one
that a barrier awaits comes first; one that no die can take yet holds none of the others back (R225). -/
def nextMove (s : State) : Option Move := ([3, 2, 1, 0].flatMap (candsOf (allCands s))).findSome? (moveFor s)

/-- The bind record of a task (R219, Table 60). -/
def recordFor (s : State) (res : Bool) (pos : Nat) (w : Want) : Option BindReq :=
  match savedOf? s w.lid w.wid, s.launch? w.lid with
  | some v, _ =>
    let b := v.ctx.bind
    some { pos := pos, lid := w.lid, wid := w.wid, pad := b.pad, pers := b.pers, cls := BitVec.ofNat 2 v.ctx.r.cls, res := res
           tidx := b.tidx, tsize := b.tsize, phase := b.phase }
  | none, some l =>
    some { pos := pos, lid := w.lid, wid := w.wid, pad := isPadded l.hdr w.wid, pers := hdrPersist l.hdr
           cls := BitVec.ofNat 2 (startClass l), res := res, tidx := groupIndex l.hdr l.pext w.wid l.tl
           tsize := groupSize l.hdr l.pext l.tl, phase := l.phase }
  | none, none => none

/-- Write bind records, all before any of their tasks starts (R220). -/
def writeBinds (s : State) : List BindReq → HO
  | [] => .next s
  | b :: r =>
    match execBindRecordWrite b s with
    | .next t => writeBinds t r
    | o => o

/-- Pre-empt the contexts at some positions (R329). -/
def clearPositions (s : State) (ps : List Nat) : State :=
  ps.foldl (fun s p => match s.ctx? p with | some c => askPreempt s p c | none => s) s

/-- The firmware's next placement; none when it has none to make, or waits for contexts that are leaving. -/
def bindNext (s : State) : Option HO :=
  match nextMove s with
  | none => none
  | some (.bind ps res) => some (writeBinds s (ps.filterMap fun e => recordFor s res e.1 e.2))
  | some (.clear gone) =>
    let t := clearPositions s gone
    if t = s then none else some (.next t)

end Sys2Proof.Machine
end

