-- ==== Sys2Proof/Machine/Schedule.lean ====
section
/-!
DEFINITION. What moves next: arbitration of the engines among the contexts of a core (spec/09 R204 to R206; spec/10 R226),
and what the machine does by itself.
-/
namespace Sys2Proof.Machine

/-! Arbitration (R206). -/

/-- Whether a step moved the machine, and did not only note who was asked. -/
def movedBy (s t : State) : Bool :=
  t.ctxs != s.ctxs || ({ t with cur := s.cur, eng := s.eng, curLid := s.curLid } : State) != s

/-- Whether an engine of the context at a position is ready (R204): it stands at a slot of its own, and its issue moves the
machine. -/
def ready (s : State) (pos : Nat) (e : Engine) : Bool :=
  match s.ctx? pos with
  | none => false
  | some c =>
    atOwnSlot s pos c e &&
      match engineStep s pos e with
      | .next t => movedBy s t
      | _ => true

/-- The key of RR[E][k]. -/
def rrKey (e : Engine) (k : Nat) : Nat := 4 * e.code + k

/-- Of the ready contexts of the highest EC, each with its EC, the first after the pointer (R206). -/
def chooseReady (rr : Nat) (k : Nat) (rs : List (Nat × Nat)) : Option (Nat × Nat) :=
  ([1, 2, 3, 4].map fun d => (rr + d) % 4).findSome? fun i => rs.find? fun r => r.1 == i && r.2 == k

/-- A context in the middle of a step of its nest keeps MAT: MAT switches contexts only at instruction and step boundaries
(R166, R206). -/
def midStep (c : Context) : Bool := c.mat.running && c.mat.kAt != 0

/-- The contexts among which an engine of a core chooses, with their ECs. -/
def candidates (s : State) (core : Nat) (e : Engine) : List (Nat × Nat) :=
  let rs := [0, 1, 2, 3].filter fun i => ready s (4 * core + i) e
  let ks := if e = .mat then rs.filter fun i => (s.ctx? (4 * core + i)).any midStep else []
  (if ks.isEmpty then rs else ks).filterMap fun i => (s.ctx? (4 * core + i)).map fun c => (i, effClass s c)

/-- The context that an engine of a core serves next, and its EC (R206). -/
def granted (s : State) (core : Nat) (e : Engine) : Option (Nat × Nat) :=
  let rs := candidates s core e
  let k := rs.foldl (fun m r => max m r.2) 0
  chooseReady (lookD (s.core core).rr (rrKey e k) 3) k rs

/-- RR[E][k] takes the context that issued. -/
def noteRr (core : Nat) (e : Engine) (x : Nat × Nat) : HO → HO
  | .next t => .next (t.setCore core { t.core core with rr := putD (t.core core).rr (rrKey e x.2) x.1 3 })
  | o => o

/-- An engine of a core issues for the context it serves. -/
def serve (s : State) (core : Nat) (e : Engine) (x : Nat × Nat) : HO := noteRr core e x (engineStep s (4 * core + x.1) e)

/-- An engine of a context passes slots that are not its own, without arbitration (R187). -/
def passing (s : State) (pos : Nat) (e : Engine) : Option HO :=
  match s.ctx? pos with
  | none => none
  | some c =>
    if atOwnSlot s pos c e then none
    else
      match engineStep s pos e with
      | .next t => if movedBy s t then some (.next t) else none
      | o => some o

/-- An engine of a core moves: for one of its contexts it passes a slot, or it issues; none when it can do neither. -/
def engineMoves (s : State) (core : Nat) (e : Engine) : Option HO :=
  match [0, 1, 2, 3].findSome? fun i => passing s (4 * core + i) e with
  | some o => some o
  | none => (granted s core e).map (serve s core e)

/-- An engine that the contexts of a core hold is found waiting. -/
def markCore (s : State) (core : Nat) (e : Engine) : State :=
  [0, 1, 2, 3].foldl (fun s i => markHeld s (4 * core + i) e) s

/-- The engines of the cores that hold contexts, in order. -/
def enginesInUse (s : State) : List (Nat × Engine) :=
  ((s.ctxs.map fun e => coreOf e.1).eraseDups).flatMap fun k =>
    [Engine.ctl, .vec, .mat, .spe, .mem, .syn].map fun e => (k, e)

/-- The first engine, from a place of the order on, that moves; `turn` goes past it. -/
def issueFrom (s : State) : List (Nat × (Nat × Engine)) → Option HO
  | [] => none
  | (n, k, e) :: r =>
    match engineMoves s k e with
    | some (.next t) => some (.next { t with turn := n + 1 })
    | some o => some o
    | none => issueFrom (markCore s k e) r

/-- The next issue under the default order. -/
def issueNext (s : State) : Option HO :=
  let xs := enginesInUse s
  let ys := (List.range xs.length).zip xs
  let n := if xs.length = 0 then 0 else s.turn % xs.length
  issueFrom s (ys.drop n ++ ys.take n)

/-! What the machine does by itself. -/

/-- The constructors that stand for events; the others are fetched by a context or by the sequencer. -/
def isEvent : Instr → Bool
  | .matrixNestStart _ | .matrixNestComplete _ | .handleFillRelease _ _ | .handleDrainRelease _ _
  | .tokenRelease _ _ _ | .barrierArrivalAdd _ | .barrierComplete _ _ _ | .phaseComplete _ | .stepIssue _
  | .settleElapsed _ | .drainComplete _ | .copy _ | .fill _ | .crc _ | .transpose _ | .convert _ | .quantise _
  | .dequantise _ | .compress _ | .decompress _ | .rread _ | .rwrite _ | .rreduce _ | .rfetch _ | .rsignal _
  | .dispatch _ | .cardRetire _ | .segmentCommit _ | .chainDisableComplete _ _ | .atomicAtHome _
  | .launchSubmit _ _ | .admitNext | .launchComplete _ | .bindRecordWrite _ | .taskDispatch _ | .resume _
  | .handlerEntry _ | .preempt _ | .watchdogFire _ | .idleTimeout _ | .alloy _ _ _ | .part _ | .receiptQuery _
  | .lostCircuitSettle _ | .scrubError _ | .assay _ _ | .debugHalt _ | .debugWrite _ _ | .debugStep _
  | .tlbShootdown _ _ _ | .rangeRegisterWrite _ _ _ _ | .wsctlOpen _ _ _ | .drainBoundExpiry _
  | .opticalFaultReport _ _ _ _ _ | .recoveryAttemptEnd _ _ | .sequencerFailover | .groupRetrain _ _ _ | .pause _ _ _
  | .resumeSymbol _ _ _ | .frameReceive _ _ _ _ _ | .streamOpen _ | .accept _ | .refuse _ | .linkSteer _
  | .linkWavelengthRetrain _ _ _ | .linkTrain _ _ | .linkset _ | .fqtailWrite _ _ | .devnoWrite _ _ | .lsecretWrite _ _
  | .okeysWrite _ _ _ | .oklockCommit _ _ | .electionNonce _ | .ownerAnswer _ _ _ | .handoverWrite _ _
  | .handoverTimeout | .keepaliveTimeout | .quote _ | .bootStageMeasure _ | .pcapWrite _ _ | .governorStep _
  | .laserBankRemove _ | .laserBankReturn _ _ | .dieReset _ | .readinessSet _ | .debuggerAttach _
  | .partnerCircuitChange _ _ _ _ _ | .linkDown _ | .ownerKeepalive _ | .channelCopyComplete _ _ => true
  | _ => false

/-- The event of a recorded release. -/
def releaseEvent (pos : Nat) : Release → State → HO
  | .fill h _ _ => execHandleFillRelease pos (BitVec.ofNat 5 h)
  | .drain h _ _ => execHandleDrainRelease pos (BitVec.ofNat 5 h)
  | .token a b _ => execTokenRelease pos a b

/-- The events that a context awaits (R198, R199, R222, R223, R290, R318). -/
def contextEvents (pos : Nat) (c : Context) : List (State → HO) :=
  c.releases.map (fun r => releaseEvent pos r.rel) ++
    (if c.preempting then [execPreempt pos] else if c.pendingFault.isSome then [execHandlerEntry pos] else []) ++
    (match c.barWait with | some _ => [execBarrierArrivalAdd pos] | none => []) ++
    ((c.chains.filter fun e => e.2.disabling).map fun e => execChainDisableComplete pos (BitVec.ofNat 4 e.1))

/-- The completion of the barrier at which a task waits (R222, R223). -/
def barrierEvents (s : State) (c : Context) : List (State → HO) :=
  match c.barWait, s.launch? c.bind.lid with
  | some k, some l =>
    if k = phaseLevel then [execPhaseComplete c.bind.lid] else [execBarrierComplete c.bind.lid k (barGroup l c.bind.wid k)]
  | _, _ => []

/-- The start of a posted card, by its kind and transformation (Tables 69 and 75). -/
def cardStart (id : Nat) (k : Card) : List (State → HO) :=
  match cardKind k.line with
  | 0x01 => [execCopy id]
  | 0x02 => [execFill id]
  | 0x04 => [execCrc id]
  | 0x10 => [execRread id]
  | 0x11 => [execRwrite id]
  | 0x12 => [execRreduce id]
  | 0x13 => [execRfetch id]
  | 0x14 => [execRsignal id]
  | 0x15 => [execDispatch id]
  | _ => [execTranspose id, execConvert id, execQuantise id, execDequantise id, execCompress id, execDecompress id]

/-- The events of a card (R293, R297, R380, R399). -/
def cardEvents (id : Nat) (k : Card) : List (State → HO) :=
  match k.st with
  | .posted => cardStart id k
  | .running => [execSegmentCommit id, execCardRetire id] ++ (if cardKind k.line = 0x15 then [execDispatch id] else [])
  | .retired => [execCardRetire id]
  | _ => []

/-- The events of a launch (R216, R353). -/
def launchEvents (lid : Nat) (l : Launch) : List (State → HO) :=
  (if l.left = 0 then [execLaunchComplete lid] else []) ++
    (match l.prog with
      | some p => if p.opened.isSome then [execStepIssue lid] else []
      | none => [])

/-- The events of a circuit (R346, R352, R379, R414). -/
def circuitEvents (s : State) (n : Nat) (c : Circuit) : List (State → HO) :=
  let k : BitVec 8 := BitVec.ofNat 8 n
  (if asking s n then [execReceiptQuery k] else []) ++
  match c.state with
  | .settling => if c.settled then [] else [execSettleElapsed k]
  | .draining => [execDrainComplete k]
  | .lost | .idle => if requestsOn s n then [execLostCircuitSettle k] else []
  | .recovering => if c.recovery.any (·.planned) then [execRecoveryAttemptEnd k true] else []
  | .live => []

/-- The events of a die's slot table (R219, R331). -/
def dieEvents (d : Nat) (x : Die) : List (State → HO) :=
  x.slots.flatMap fun e =>
    if e.2.run then [] else if e.2.res then [execResume (128 * d + e.1)] else [execTaskDispatch (128 * d + e.1)]

/-- A queue holds a submission. -/
def queued (s : State) : Bool := !s.m.hostQ.isEmpty || s.dies.any fun e => !e.2.queue.isEmpty

/-- Everything that the machine may do by itself now, in the default order. -/
def ownEvents (s : State) : List (State → HO) :=
  (s.ctxs.flatMap fun e => contextEvents e.1 e.2) ++
    ((allTasks s).flatMap (barrierEvents s)) ++
    (s.reqs.map fun e => execAtomicAtHome e.1) ++
    ((s.parts.filter fun e => e.2.reply.isSome).map fun e => execPart e.1) ++
    (s.cards.flatMap fun e => cardEvents e.1 e.2) ++
    (s.circuits.flatMap fun e => circuitEvents s e.1 e.2) ++
    (s.launches.flatMap fun e => launchEvents e.1 e.2) ++
    (if queued s then [execAdmitNext] else []) ++
    (s.dies.flatMap fun e => dieEvents e.1 e.2)

/-- The first of some events that moves the machine. -/
def firstEvent (s : State) : List (State → HO) → Option HO
  | [] => none
  | f :: r =>
    match f s with
    | .next t => if movedBy s t then some (.next t) else firstEvent s r
    | o => some o

/-! The sequencer (R353, R354). -/

/-- The sequencer, once it is ready (R407), on a launch's program: a due vector routine begins between two operations of the
main program, else the next operation is performed. -/
def sequencerStep (s : State) (lid : Nat) : HO :=
  match (if seqReady s then progOf? s lid else none) with
  | none => .next s
  | some p =>
    match p.routine, p.due with
    | none, r :: rest => .next (setProg s lid { p with routine := some r, rheld := none, due := rest })
    | _, _ =>
      match opAt p p.here with
      | none => .next s
      | some i => exec i { s with curLid := lid }

/-- The first program on which the sequencer does something. -/
def firstSequencer (s : State) : List Nat → Option HO
  | [] => none
  | lid :: r =>
    match sequencerStep s lid with
    | .next t => if movedBy s t then some (.next t) else firstSequencer s r
    | o => some o

/-- Whether operations of a step that has opened are still to issue. -/
def midIssue (p : CProg) : Bool := p.cur != p.stepNo && p.routine.isNone && p.due.isEmpty && !p.ended

/-- The operations of an open step issue together, up to a HOLD that delays them (R353). -/
def issueStep : Nat → Nat → State → State
  | 0, _, s => s
  | n + 1, lid, s =>
    match progOf? s lid with
    | none => s
    | some p =>
      if midIssue p then
        match sequencerStep s lid with
        | .next t => if movedBy s t then issueStep n lid t else s
        | _ => s
      else s

/-- Every program's open step issues. -/
def issueSteps (s : State) : State :=
  s.launches.foldl (fun s e =>
    match e.2.prog with
    | some p => issueStep p.ops.length e.1 s
    | none => s) s

/-! Time. -/

/-- What only the passing of time ends: an IDLE (R112), a wait that the watchdog counts (R334), the wait of a circuit for a window
(R414). -/
def timeEvents (s : State) : List (State → HO) :=
  (if s.circuits.any fun e => e.2.renew then [fun s => .next (renewCircuits s true)] else []) ++
  ((s.ctxs.filter fun e => e.2.idle).map fun e => execIdleTimeout e.1) ++ s.ctxs.map fun e => execWatchdogFire e.1

/-! One step. -/

/-- The first that answers. -/
def orElse (x : Option HO) (y : Unit → Option HO) : Option HO :=
  match x with
  | some o => some o
  | none => y ()

/-- What the machine does by itself, the sequencer's operations and the firmware's placement. -/
def moveNext (s : State) : Option HO :=
  orElse (firstEvent s (ownEvents s)) fun _ =>
    orElse (firstSequencer s (s.launches.map (·.1))) fun _ => bindNext s

/-- The default order (log 3): the engines in turn, then what the machine does by itself, and last what time alone ends;
once in 256 steps the machine's own events come first, so that a program that polls memory does not hold them up. A
machine in which nothing moves stays as it is. -/
def defaultStep (s : State) : HO :=
  (orElse (if s.freeCtr % 256 = 255 then orElse (moveNext s) fun _ => issueNext s
    else orElse (issueNext s) fun _ => moveNext s) fun _ => firstEvent s (timeEvents s)).getD (.next s)

/-- One engine of one context moves: it passes a slot, or it issues if its core's arbitration serves it next (R206); else it
waits. -/
def engineAct (s : State) (pos : Nat) (e : Engine) : HO :=
  match s.ctx? pos with
  | none => .next s
  | some c =>
    if atOwnSlot s pos c e then
      match granted s (coreOf pos) e with
      | some x => if x.1 = pos % 4 then serve s (coreOf pos) e x else .next s
      | none => .next (markHeld s pos e)
    else engineStep s pos e

/-- One act of the agenda; what is no event is fetched, and does not happen by itself. -/
def runAct (a : Act) (s : State) : HO :=
  match a with
  | .engine pos e => engineAct s pos e
  | .sequencer lid => sequencerStep s lid
  | .event i => if isEvent i then exec i s else .next s
  | .aperture m off v => apertureWrite m off v s
  | .peer c op => peerAct c op s
  | .peerStore k n v => .next (farPut s k n v)

/-- The machine after an act: free values already taken are not taken again (log 5). -/
def bumpFree : HO → HO
  | .next t => .next { t with freeCtr := t.freeCtr + 1 }
  | o => o

/-- The next act: the agenda's first, or the default order's. -/
def nextAct (s : State) : HO :=
  match s.agenda with
  | a :: rest => runAct a { s with agenda := rest }
  | [] => defaultStep s

/-- The counts of waits after a step (R334). -/
def countWaits (s : State) : HO → HO
  | .next t => .next (noteWaits s t)
  | o => o

/-- The steps that an act has opened issue with it (R353). -/
def withSteps : HO → HO
  | .next t => .next (issueSteps t)
  | o => o

/-- One step: each takes fresh free values (log 5). -/
def oneStep (s : State) : HO := bumpFree (countWaits s (withSteps (nextAct s)))

end Sys2Proof.Machine
end

