-- ==== Sys2Proof/Machine/Boot.lean ====
section
/-!
DEFINITION. Placing one instruction where the next step fetches it (log 2): a launch's firmware loads programs from outside
the machine, so that a machine without a running context is given one, as a host's launch of one task gives it.
-/
namespace Sys2Proof.Machine

/-- Where the given context's page tables and its record stand: a root table, a table with one 1 GiB leaf that maps
virtual address 0 to physical address 0 with R, W and X, and the record. -/
def bootRoot : Nat := 0x10000
def bootTable : Nat := 0x20000
def bootEntry : Nat := 0x30000

/-- The header of the given launch: one field of extent 1, a window of 4 plates. -/
def bootHdr : BitVec 4096 := BitVec.ofNat 4096 (2 ^ 32 + 4 * 2 ^ 64 + (8 + 2 ^ 32) * 2 ^ 512)

/-- The launch as admitted, with its one task bound. -/
def bootLaunch : Launch :=
  { hdr := bootHdr, root := bootRoot, entry := bootEntry, pext := [1], place := BitVec.allOnes 512, grant := 3, bound := 1, left := 1 }

/-- The bind record of its task. -/
def bootBind : BindRec := { lid := 1, tsize := 1 }

/-- A machine with every resource in service and one task at position 0, at its entry (R30, R212, R219). -/
def bootState (s : State) : State :=
  let m := (s.mem.writeN bootRoot 8 (bootTable + 1)).writeN bootTable 8 0x1F
  let s1 : State := { s with mem := m, ctxs := [], saved := [], cores := [], dies := [], cards := [], m := { s.m with
    ready := BitVec.allOnes 2048, nextLid := max 2 s.m.nextLid } }
  startTask (s1.setLaunch 1 bootLaunch) 0 bootBind bootLaunch

/-- Bytes of an instruction: a slot, or a whole record led by its first slot. -/
def instrBytes (nbits : Nat) : Nat := if nbits ≤ 64 then 8 else 64

/-- The locations of a fetch at a place of a context; none where the fetch faults or waits. -/
def fetchParts? (s : State) (pos : Nat) (c : Context) (va : Nat) (n : Nat) : Option (List Part) :=
  match accessCheck s (c.who pos) .fetch notWs 1 va n with
  | .ok ps => some ps
  | .error _ => none

/-- A context whose next slot may hold the instruction: it runs with one program counter, alone on its core, no card holds it,
and its next slot is not inside a led record. -/
def takesWord (s : State) (pos : Nat) (c : Context) (nbits : Nat) : Bool :=
  !c.still && c.together && !c.mat.running && s.cards.isEmpty && s.bad.isEmpty && c.own.isEmpty &&
    s.ctxs.all (fun x => x.1 == pos || coreOf x.1 != coreOf pos) &&
    (c.posOf .ctl).slot == (if nbits ≤ 64 then (c.posOf .ctl).slot else 0) &&
    match fetchSlot s (c.who pos) (c.posOf .ctl) with
    | .ok x => !(x.inside (c.posOf .ctl))
    | .error _ => false

/-- The word's bytes put at the context's next slot, and its engine's turn next. -/
def placeWord (s : State) (pos : Nat) (c : Context) (nbits w : Nat) : State :=
  let p := c.posOf .ctl
  match fetchParts? s pos c (p.addr + 8 * p.slot) (instrBytes nbits) with
  | none => s
  | some ps =>
    let s1 := { s with mem := writeParts s.mem ps w }
    let e := match fetchSlot s1 (c.who pos) p with | .ok x => x.owner c | .error _ => .ctl
    { s1 with agenda := [.engine pos e] }

/-- The machine with the instruction where the next step fetches it. -/
def fetchWordState (s : State) (nbits w : Nat) : State :=
  let v := w % 2 ^ nbits
  match s.ctx? s.cur with
  | some c =>
    if takesWord s s.cur c nbits then placeWord s s.cur c nbits v
    else
      let b := bootState s
      match b.ctx? 0 with
      | some c => placeWord b 0 c nbits v
      | none => b
  | none =>
    let b := bootState s
    match b.ctx? 0 with
    | some c => placeWord b 0 c nbits v
    | none => b

end Sys2Proof.Machine
end

