-- ==== Sys2Proof/Machine/Step.lean ====
section
/-!
DEFINITION. One step of the machine, and placing an instruction where the next step fetches it.
-/
namespace Sys2Proof.Machine

/-- One step: the agenda's first act, or what the default order moves next (log 3). -/
def step (s : State) : Host.Outcome State Fault Refusal := oneStep s

/-- The machine with an instruction stored where `step` fetches its next one (log 2). -/
def State.withFetchWord (s : State) (nbits w : Nat) : State := fetchWordState s nbits w

end Sys2Proof.Machine
end

