-- ==== Sys2Proof/Safety.lean ====
section
/-!
DEFINITION. What counts as a safe state and a safe run, in the terms that the statements use.
-/
namespace Sys2Proof

/-- Memory is in its canonical form, so that memories of equal contents are equal data. -/
def MemoryOk (s : Machine.State) : Prop := s.mem.wf = true

/-- A run that takes `n` steps from a state without a stop. -/
def Runs : Nat → Machine.State → Machine.State → Prop
  | 0, s, t => s = t
  | n + 1, s, t => ∃ u, Machine.step s = .next u ∧ Runs n u t

end Sys2Proof
end

