-- ==== Sys2Proof/Certificates/Slice0/Obligations.lean ====
section
/-!
DEFINITION. The statements for the provers. Each `def Obligations.<Name>` says what one or more rules of spec/ say of the
machine; the words above them are shared.
-/
namespace Sys2Proof.Says

open Sys2Proof.Machine

/-- The instruction that runs is `c`'s. -/
def runs (s : State) (c : Context) : Prop := s.ctx? s.cur = some c

/-- The running context becomes `c'`, and nothing else of the machine changes. -/
def becomes (s : State) (c' : Context) : HO := .next (s.setCtx s.cur c')

/-- The running context goes on at its next slot, and nothing else happens. -/
def passes (s : State) (c : Context) : HO := becomes s (c.advance s.eng)

/-- `s[d]` is written and the context goes on at its next slot. -/
def writes (s : State) (c : Context) (d : Reg) (v : Word) : HO := becomes s ((c.wrS d v).advance s.eng)

/-- `s[d]` and the sticky flags are written and the context goes on at its next slot. -/
def delivers (s : State) (c : Context) (d : Reg) (r : Nat × Flags) : HO := becomes s ((c.deliverS d r).advance s.eng)

/-- The fault `t` of the running context is taken. -/
def traps (s : State) (c : Context) (t : Trap) : HO := .next (takeTrap s s.cur c s.eng t)

/-- Nothing moves: the instruction waits. -/
def waits (s : State) : HO := .next s

/-- `c'` has at most the scalar `d`, and where its engines stand, other than `c`. -/
structure OnlyScalar (d : Reg) (c c' : Context) : Prop where
  scalars : ∀ n, n ≠ d.toNat → lookD c'.r.s n 0 = lookD c.r.s n 0
  banked : ∀ n, n ≠ d.toNat → lookD c'.r.bank n 0 = lookD c.r.bank n 0
  zero : d = 0 → c'.r = c.r
  rest : c' = { c with
    r := { c.r with s := c'.r.s, bank := c'.r.bank }
    pos := c'.pos
    hpos := c'.hpos
    owed := c'.owed }

/-- `c'` has at most the scalar `d`, the sticky flags, and where its engines stand, other than `c`; no flag is cleared. -/
structure OnlyScalarAndFlags (d : Reg) (c c' : Context) : Prop where
  scalars : ∀ n, n ≠ d.toNat → lookD c'.r.s n 0 = lookD c.r.s n 0
  banked : ∀ n, n ≠ d.toNat → lookD c'.r.bank n 0 = lookD c.r.bank n 0
  sticky : c.r.flags &&& c'.r.flags = c.r.flags
  rest : c' = { c with
    r := { c.r with s := c'.r.s, bank := c'.r.bank, flags := c'.r.flags }
    pos := c'.pos
    hpos := c'.hpos
    owed := c'.owed }

/-- The integer and immediate instructions and FCLASS: the scalar that each writes (spec/04). -/
def scalarOnly : Instr → Option Reg
  | .add o | .sub o | .mul o | .mulh o | .mulhz o | .div o | .divz o | .rem o | .remz o | .and o | .or o | .xor o
  | .andn o | .shl o | .shr o | .sha o | .rotl o | .min o | .minz o | .max o | .maxz o | .seq o | .sne o | .slt o
  | .sltz o | .sle o | .slez o => some o.d
  | .clz o | .ctz o | .popc o => some o.d
  | .sel o | .bfx o | .bfxz o | .bfi o => some o.d
  | .addi o | .andi o | .ori o | .xori o => some o.d
  | .shli o | .shri o | .shai o | .rotli o => some o.d
  | .movi o | .movhi o => some o.d
  | .lea o => some o.d
  | .fclass o => some o.d
  | _ => none

/-- The scalar floating-point instructions that set flags: the scalar that each writes (spec/04). -/
def scalarAndFlags : Instr → Option Reg
  | .fadd o | .fsub o | .fmul o | .fdiv o | .fmin o | .fmax o | .feq o | .flt o | .fle o => some o.d
  | .fsqrt o => some o.d
  | .ffma o => some o.d
  | .fcvt o => some o.d
  | _ => none

/-- A value rounded to a scalar format under FPMODE, with the flags of its operation (R96, R97). -/
def rounded (c : Context) (t : ElemType) (v : Val × Flags) : Nat × Flags :=
  ((deliver t (RMode.ofFpmode c.r.fpmode) v.1).1, v.2 ||| (deliver t (RMode.ofFpmode c.r.fpmode) v.1).2)

/-- The value of a scalar source in the format that T1 selects (R96). -/
def operand (c : Context) (e : Engine) (r : Reg) (dbl : Bool) : Val := valOf (fType dbl) (c.rdF e r (fType dbl))

/-- The value a scalar holds now: 0 for s0, and the bank's for s56 to s63 in handler mode (R13, R319). -/
def held (c : Context) (r : Reg) : Word :=
  if r = 0 then 0 else if c.handler ∧ 56 ≤ r.toNat then lookD c.r.bank r.toNat 0 else lookD c.r.s r.toNat 0

/-- A LAUNCH before an instruction has still to fill an exchange register (R202). -/
def fillDue (c : Context) (k : Nat) : Bool := c.fillsDue.any fun f => f.e == k

/-- The locations of the bytes that an access's parts cover. -/
def locations (ps : List Part) : List Nat := ps.flatMap fun p => (List.range p.len).map p.t.locAt

/-! Lines and vector operands (R14, R15, R22, R24, R71, R116, R117). -/

/-- Element `i` of width `w` of a line (R15). -/
def elem (l : Line) (w i : Nat) : Nat := l.toNat / 2 ^ (w * i) % 2 ^ w

/-- Element `i` of a source: the line's, or the broadcast scalar's low bits (R71). -/
def sourceElem (c : Context) (w : Nat) (x : Opd) (i : Nat) : Nat :=
  match x with
  | .at n => elem (c.rdL n.toNat) w i
  | .all v => v.toNat % 2 ^ w

/-- A source of `k` lines lies in the window (R22); a scalar always does. -/
def inside (c : Context) (k : Nat) : Opd → Prop
  | .at n => 0 ≤ n ∧ n.toNat + k ≤ 64 * c.bind.window
  | .all _ => True

/-- In deterministic mode no two of the lines share a bank (R24). -/
def banksFree (c : Context) (ls : List Nat) : Prop := c.bind.det = true → distinctBanks ls = true

/-- The accumulator store holds the tile that a TSHAPE value configures beside those of the core's other resident contexts;
the spec names no fault for one that does not fit (log 33). -/
def tileFits (s : State) (c : Context) (n : Nat) (v : Word) : Prop :=
  tileOf v = none ∨
    residentUse (s.setCtx s.cur { c with mat := { c.mat with tshape := putD c.mat.tshape n v 0 } }) (coreOf s.cur) .tiles ≤ 1024

/-- A V3 instruction whose operands, each moved by its offset of a nest (R67; 0 outside one), resolve to destination line `n` and
sources `a` and `b`, inside the window and without a bank conflict. -/
structure Ready3 (s : State) (c : Context) (op : V3Op) (o : V3) (f : Offs) (n : Nat) (a b : Opd) : Prop where
  wf : o.wf op = true
  dest : c.vdst s.eng o.d f.d = .ok (n : Int)
  srcA : c.vsrc s.eng o.a f.a = .ok a
  srcB : c.vsrc s.eng o.b f.b = .ok b
  destIn : n < 64 * c.bind.window
  aIn : inside c 1 a
  bIn : inside c 1 b
  banks : banksFree c (a.lines 1 ++ b.lines 1 ++ if v3ReadsD op then [n] else [])

/-- A V2 instruction whose operands, each moved by its offset of a nest, resolve to `kd` destination lines from `n` and `ka` source
lines of `a`. -/
structure Ready2 (s : State) (c : Context) (op : V2Op) (o : V2) (f : Offs) (kd ka n : Nat) (a : Opd) : Prop where
  wf : o.wf op = true
  dest : c.vdst s.eng o.d f.d = .ok (n : Int)
  srcA : c.vsrc s.eng o.a f.a = .ok a
  destIn : n + kd ≤ 64 * c.bind.window
  aIn : inside c ka a

/-- The elementwise and permuting V3 operations: element `i` of the result before its predicate (Table 35, R138). -/
def lane3 (op : V3Op) (t : ElemType) (m : RMode) (a b d : Nat → Nat) (i : Nat) : Nat :=
  match op with
  | .vperm => a (b i % t.count)
  | .vrotl => a ((i + t.count - b 0 % t.count) % t.count)
  | .vbcast => a (b 0 % t.count)
  | .vzip => if i % 2 = 0 then a (i / 2) else b (i / 2)
  | .vunzip => if i < t.count / 2 then a (2 * i) else b (2 * i - t.count)
  | op => (v3Elem op t m (a i) (b i) (d i)).1 % 2 ^ t.width

/-- The V3 operations of one lane, which may raise flags. -/
def isLane3 : V3Op → Bool
  | .vsel | .vperm | .vrotl | .vbcast | .vzip | .vunzip => false
  | _ => true

/-- The line and the flags that a V3 operation leaves, where `l` is the destination line and `f` the flags it sets: each enabled
element takes its result and the others stay (VSEL writes every element, choosing by the predicate), and the flags are those of the
enabled elements (R115 to R124, R138). -/
def Result3 (s : State) (c : Context) (op : V3Op) (o : V3) (n : Nat) (a b : Opd) (l : Line) (f : Flags) : Prop :=
  let w := o.ty.width
  let p := c.rdP s.eng o.pred.toNat
  let ea := sourceElem c w a
  let eb := sourceElem c w b
  let ed := elem (c.rdL n) w
  (op = .vsel → f = 0 ∧ ∀ i < o.ty.count, elem l w i = if enabled p w i then ea i else eb i) ∧
  (op ≠ .vsel → ∀ i < o.ty.count, elem l w i = if enabled p w i then lane3 op o.ty c.fpm ea eb ed i else ed i) ∧
  (isLane3 op = false → f = 0) ∧
  (isLane3 op = true → ∀ j < 6, (f.getLsbD j = true ↔
    ∃ i < o.ty.count, enabled p w i = true ∧ (v3Elem op o.ty c.fpm (ea i) (eb i) (ed i)).2.getLsbD j = true))

/-- The V2 operations of one lane (R125, R126). -/
def isLane2 : V2Op → Bool
  | .vabs | .vneg | .vnot | .vmov | .vsqrt | .vrsqrt | .vrcp | .vexp2 | .vlog2 | .vtanh | .vsig | .verf => true
  | _ => false

/-- The reduction of a V2 operation (R136). -/
def reductionOf : V2Op → Option Reduction
  | .vradd => some .sum | .vrmax => some .max | .vrmin => some .min
  | _ => none

end Sys2Proof.Says

open Sys2Proof Sys2Proof.Machine Sys2Proof.Says

/-! CTL: integers (R13, R88 to R94). -/

/-- R13: s0 reads as zero and discards writes, in and out of handler mode; a write to another scalar replaces all its
bits, and no other scalar changes. -/
def Obligations.ScalarZero : Prop :=
  ∀ (c : Context) (e : Engine) (v : Word), c.rdS e 0 = 0 ∧ c.wrS 0 v = c ∧
    ∀ d : Reg, d ≠ 0 → held (c.wrS d v) d = v ∧ ∀ n : Reg, n ≠ d → held (c.wrS d v) n = held c n

/-- R89, R90: the three-register operations write Table 25's result to s[D] and change nothing else but where the
context goes on. -/
def Obligations.IntegerResults : Prop :=
  ∀ (s : State) (c : Context) (o : R3), runs s c →
    let a := c.rdS s.eng o.a
    let b := c.rdS s.eng o.b
    let n := b.toNat % 64
    exec (.add o) s = writes s c o.d (a + b) ∧
    exec (.sub o) s = writes s c o.d (a - b) ∧
    exec (.mul o) s = writes s c o.d (BitVec.ofNat 64 (a.toNat * b.toNat)) ∧
    exec (.mulh o) s = writes s c o.d (BitVec.ofInt 64 (a.toInt * b.toInt / 2 ^ 64)) ∧
    exec (.mulhz o) s = writes s c o.d (BitVec.ofNat 64 (a.toNat * b.toNat / 2 ^ 64)) ∧
    exec (.and o) s = writes s c o.d (a &&& b) ∧
    exec (.or o) s = writes s c o.d (a ||| b) ∧
    exec (.xor o) s = writes s c o.d (a ^^^ b) ∧
    exec (.andn o) s = writes s c o.d (a &&& ~~~b) ∧
    exec (.shl o) s = writes s c o.d (BitVec.ofNat 64 (a.toNat * 2 ^ n)) ∧
    exec (.shr o) s = writes s c o.d (BitVec.ofNat 64 (a.toNat / 2 ^ n)) ∧
    exec (.sha o) s = writes s c o.d (BitVec.ofInt 64 (a.toInt / 2 ^ n)) ∧
    exec (.rotl o) s = writes s c o.d (a <<< n ||| a >>> (64 - n)) ∧
    exec (.min o) s = writes s c o.d (BitVec.ofInt 64 (min a.toInt b.toInt)) ∧
    exec (.minz o) s = writes s c o.d (BitVec.ofNat 64 (min a.toNat b.toNat)) ∧
    exec (.max o) s = writes s c o.d (BitVec.ofInt 64 (max a.toInt b.toInt)) ∧
    exec (.maxz o) s = writes s c o.d (BitVec.ofNat 64 (max a.toNat b.toNat)) ∧
    exec (.seq o) s = writes s c o.d (if a = b then 1 else 0) ∧
    exec (.sne o) s = writes s c o.d (if a ≠ b then 1 else 0) ∧
    exec (.slt o) s = writes s c o.d (if a.toInt < b.toInt then 1 else 0) ∧
    exec (.sltz o) s = writes s c o.d (if a.toNat < b.toNat then 1 else 0) ∧
    exec (.sle o) s = writes s c o.d (if a.toInt ≤ b.toInt then 1 else 0) ∧
    exec (.slez o) s = writes s c o.d (if a.toNat ≤ b.toNat then 1 else 0)

/-- R90: division never faults; its corner cases, and quotient and remainder of every other case. -/
def Obligations.Division : Prop :=
  ∀ (s : State) (c : Context) (o : R3), runs s c →
    let a := c.rdS s.eng o.a
    let b := c.rdS s.eng o.b
    ∃ q r qz rz : Word,
      exec (.div o) s = writes s c o.d q ∧
      exec (.rem o) s = writes s c o.d r ∧
      exec (.divz o) s = writes s c o.d qz ∧
      exec (.remz o) s = writes s c o.d rz ∧
      (b = 0 → q = BitVec.allOnes 64 ∧ qz = BitVec.allOnes 64 ∧ r = a ∧ rz = a) ∧
      (a.toInt = -2 ^ 63 ∧ b.toInt = -1 → q.toInt = -2 ^ 63 ∧ r = 0) ∧
      (b ≠ 0 → a.toNat = qz.toNat * b.toNat + rz.toNat ∧ rz.toNat < b.toNat) ∧
      (b ≠ 0 ∧ ¬ (a.toInt = -2 ^ 63 ∧ b.toInt = -1) →
        a.toInt = q.toInt * b.toInt + r.toInt ∧ r.toInt.natAbs < b.toInt.natAbs ∧
          (r.toInt = 0 ∨ (r.toInt < 0 ↔ a.toInt < 0)))

/-- R91: CLZ, CTZ and POPC count the leading zeros, the trailing zeros and the ones of s[A]. -/
def Sys2Proof.Says.BitCounts : Prop :=
  ∀ (s : State) (c : Context) (o : R2), runs s c →
    let a := c.rdS s.eng o.a
    ∃ l t : Nat,
      exec (.clz o) s = writes s c o.d (BitVec.ofNat 64 l) ∧
      exec (.ctz o) s = writes s c o.d (BitVec.ofNat 64 t) ∧
      exec (.popc o) s = writes s c o.d (BitVec.ofNat 64 ((List.range 64).countP fun i => a.getLsbD i)) ∧
      l ≤ 64 ∧ (∀ i < l, a.getLsbD (63 - i) = false) ∧ (l < 64 → a.getLsbD (63 - l) = true) ∧
      t ≤ 64 ∧ (∀ i < t, a.getLsbD i = false) ∧ (t < 64 → a.getLsbD t = true)

/-- R92, R93: SEL and the bit fields, whose width is clipped at bit 63 and which are empty for a width of 0 or an
offset of 64 or more. -/
def Sys2Proof.Says.SelectAndBitFields : Prop :=
  ∀ (s : State) (c : Context) (o : R4), runs s c →
    let a := c.rdS s.eng o.a
    let off := (c.rdS s.eng o.b).toNat
    let wid := (c.rdS s.eng o.c).toNat
    let w := min wid (64 - off)
    let old := c.rdS s.eng o.d
    ∃ x z f : Word,
      exec (.sel o) s = writes s c o.d (if wid ≠ 0 then a else c.rdS s.eng o.b) ∧
      exec (.bfx o) s = writes s c o.d x ∧
      exec (.bfxz o) s = writes s c o.d z ∧
      exec (.bfi o) s = writes s c o.d f ∧
      (wid = 0 ∨ 64 ≤ off → x = 0 ∧ z = 0 ∧ f = old) ∧
      (0 < wid ∧ off < 64 → ∀ i < 64,
        z.getLsbD i = (decide (i < w) && a.getLsbD (off + i)) ∧
        x.getLsbD i = a.getLsbD (off + min i (w - 1)) ∧
        f.getLsbD i = (if off ≤ i ∧ i < off + w then a.getLsbD (i - off) else old.getLsbD i))

/-- R91 to R93: the bit counts, SEL and the bit fields. -/
def Obligations.BitCountsAndFields : Prop := BitCounts ∧ SelectAndBitFields

/-- R26, R94: NOP and the immediate forms. -/
def Obligations.ImmediateResults : Prop :=
  ∀ (s : State) (c : Context) (o : I2) (h : Sh) (m : I1) (l : LeaOp), runs s c →
    let a := c.rdS s.eng o.a
    let x := o.imm.signExtend 64
    let b := c.rdS s.eng h.a
    let n := h.n.toNat
    exec .nop s = passes s c ∧
    exec (.addi o) s = writes s c o.d (a + x) ∧
    exec (.andi o) s = writes s c o.d (a &&& x) ∧
    exec (.ori o) s = writes s c o.d (a ||| x) ∧
    exec (.xori o) s = writes s c o.d (a ^^^ x) ∧
    exec (.shli h) s = writes s c h.d (BitVec.ofNat 64 (b.toNat * 2 ^ n)) ∧
    exec (.shri h) s = writes s c h.d (BitVec.ofNat 64 (b.toNat / 2 ^ n)) ∧
    exec (.shai h) s = writes s c h.d (BitVec.ofInt 64 (b.toInt / 2 ^ n)) ∧
    exec (.rotli h) s = writes s c h.d (b <<< n ||| b >>> (64 - n)) ∧
    exec (.movi m) s = writes s c m.d (m.imm.signExtend 64) ∧
    exec (.movhi m) s = writes s c m.d
      (BitVec.ofNat 64 (m.imm.toNat * 2 ^ 32 + (c.rdS s.eng m.d).toNat % 2 ^ 32)) ∧
    exec (.lea l) s = writes s c l.d
      (BitVec.ofNat 64 ((c.rdS s.eng l.a).toNat * 2 ^ l.k.toNat) + l.imm.signExtend 64)

/-- R88, R96: what the integer, immediate and scalar floating-point instructions leave unchanged: every other scalar,
the flags (which floating point may set and none clears), every other register, and the rest of the machine. -/
def Obligations.ScalarFrame : Prop :=
  ∀ (i : Instr) (s t : State) (c : Context) (d : Reg), runs s c → exec i s = .next t →
    (scalarOnly i = some d → ∃ c', t = s.setCtx s.cur c' ∧ OnlyScalar d c c' ∧ ∀ a, t.mem.read a = s.mem.read a) ∧
    (scalarAndFlags i = some d →
      ∃ c', t = s.setCtx s.cur c' ∧ OnlyScalarAndFlags d c c' ∧ ∀ a, t.mem.read a = s.mem.read a)

/-! CTL: scalar floating point (R96 to R100). -/

/-- R97: the scalar arithmetic delivers the rounded exact value; R99, R100: FCVT and FCLASS. -/
def Sys2Proof.Says.ScalarFloatResults : Prop :=
  ∀ (s : State) (c : Context) (o : F3) (q : F2) (f : F4) (v : FCvt) (k : FCls), runs s c →
    let x := operand c s.eng o.a o.dbl
    let y := operand c s.eng o.b o.dbl
    let m := RMode.ofFpmode c.r.fpmode
    let p := mulVal (operand c s.eng f.a f.dbl) (operand c s.eng f.b f.dbl)
    let z := sumVals m [p.1, operand c s.eng f.c f.dbl]
    exec (.fadd o) s = delivers s c o.d (rounded c (fType o.dbl) (sumVals m [x, y])) ∧
    exec (.fsub o) s = delivers s c o.d (rounded c (fType o.dbl) (sumVals m [x, y.negate])) ∧
    exec (.fmul o) s = delivers s c o.d (rounded c (fType o.dbl) (mulVal x y)) ∧
    exec (.fdiv o) s = delivers s c o.d (rounded c (fType o.dbl) (divVal x y)) ∧
    exec (.fsqrt q) s = delivers s c q.d (rounded c (fType q.dbl) (sqrtVal (operand c s.eng q.a q.dbl))) ∧
    exec (.ffma f) s = delivers s c f.d (rounded c (fType f.dbl) (z.1, p.2 ||| z.2)) ∧
    exec (.fcvt v) s = becomes s (((c.wrS v.d (placeS v.t1 (convert v.t1 v.t2 (.ofRm v.rm c.r.fpmode 0)
      (c.rdF s.eng v.a v.t2)).1)).addFlags (convert v.t1 v.t2 (.ofRm v.rm c.r.fpmode 0) (c.rdF s.eng v.a v.t2)).2).advance
        s.eng) ∧
    exec (.fclass k) s = writes s c k.d (BitVec.ofNat 64 (classMask k.t (c.rdF s.eng k.a k.t)))

/-- R98: FMIN, FMAX and the comparisons on NaNs and on ordered operands; FMIN and FMAX order -0 below +0. -/
def Sys2Proof.Says.ScalarFloatOrder : Prop :=
  ∀ (s : State) (c : Context) (o : F3), runs s c →
    let t := fType o.dbl
    let a := c.rdF s.eng o.a t
    let b := c.rdF s.eng o.b t
    let x := valOf t a
    let y := valOf t b
    let sig : Flags := if x.isSig || y.isSig then fIV else 0
    ∃ lo hi eq lt le : Nat × Flags,
      exec (.fmin o) s = delivers s c o.d lo ∧ exec (.fmax o) s = delivers s c o.d hi ∧
      exec (.feq o) s = delivers s c o.d eq ∧ exec (.flt o) s = delivers s c o.d lt ∧
      exec (.fle o) s = delivers s c o.d le ∧
      lo.2 = sig ∧ hi.2 = sig ∧ eq.2 = sig ∧
      (x.isNan ∧ y.isNan → lo.1 = canonNanOf t ∧ hi.1 = canonNanOf t) ∧
      (x.isNan ∧ ¬ y.isNan → lo.1 = b ∧ hi.1 = b) ∧
      (¬ x.isNan ∧ y.isNan → lo.1 = a ∧ hi.1 = a) ∧
      (x.isNan ∨ y.isNan → eq.1 = 0 ∧ lt = (0, fIV) ∧ le = (0, fIV)) ∧
      (¬ x.isNan ∧ ¬ y.isNan →
        let less := cmpVal x y = some .lt ∨ cmpVal x y = some .eq ∧ x.neg? = true ∧ y.neg? = false
        let more := cmpVal x y = some .gt ∨ cmpVal x y = some .eq ∧ x.neg? = false ∧ y.neg? = true
        (less → lo.1 = a ∧ hi.1 = b) ∧ (more → lo.1 = b ∧ hi.1 = a) ∧
        (lo.1 = a ∨ lo.1 = b) ∧ (hi.1 = a ∨ hi.1 = b) ∧ lt.2 = 0 ∧ le.2 = 0 ∧
        eq.1 = (if cmpVal x y = some .eq then 1 else 0) ∧ lt.1 = (if cmpVal x y = some .lt then 1 else 0) ∧
        le.1 = (if cmpVal x y = some .gt then 0 else 1))

/-- R96 to R100: scalar floating point: results, order and NaNs. -/
def Obligations.ScalarFloat : Prop := ScalarFloatResults ∧ ScalarFloatOrder

/-! CTL: memory, exchange registers, matrix nest control (R95, R101, R159 to R161). -/

/-- R95: LDS writes the loaded value, extended as W states, and changes nothing of memory; where its access is refused
(alignment, translation, permission and what else the access checks), the fault is taken instead; while it has to wait,
nothing moves. -/
def Sys2Proof.Says.ScalarLoad : Prop :=
  ∀ (s : State) (c : Context) (o : CMem), runs s c →
    let n := memBytes o.w
    let a := (c.rdS s.eng o.base + o.off.signExtend 64).toNat
    let r := readMem s (c.who s.cur) c.r.gver notWs n a n
    (a % n ≠ 0 → exec (.lds o) s = traps s c { code := .align, addr := a % 2 ^ 56 }) ∧
    (∀ x, r = .error (.trap x) → exec (.lds o) s = traps s c x) ∧
    (r = .error .wait → exec (.lds o) s = waits s) ∧
    (∀ v ps, r = .ok (v, ps) → ∃ t, exec (.lds o) s = .next t ∧
      t.ctx? s.cur = some ((c.wrS o.d (memExtend o.w v)).advance s.eng) ∧
      (∀ b, t.mem.read b = s.mem.read b) ∧ t.tags = s.tags ∧ ∀ p, p ≠ s.cur → t.ctx? p = s.ctx? p)

/-- R95, R6: STS stores the low bytes of s[D] at its address, least significant first, and every byte outside them reads
as before; where its access is refused the fault is taken instead, and while it has to wait nothing moves. -/
def Sys2Proof.Says.ScalarStore : Prop :=
  ∀ (s : State) (c : Context) (o : CMem), runs s c →
    let n := memBytes o.w
    let a := (c.rdS s.eng o.base + o.off.signExtend 64).toNat
    let r := accessCheck s (c.who s.cur) .write plainW n a n
    (a % n ≠ 0 → exec (.sts o) s = traps s c { code := .align, addr := a % 2 ^ 56 }) ∧
    (∀ x, r = .error (.trap x) → exec (.sts o) s = traps s c x) ∧
    (r = .error .wait → exec (.sts o) s = waits s) ∧
    ∀ ps, r = .ok ps → s.bad = [] →
      ∃ t, exec (.sts o) s = .next t ∧
        t.mem = writeParts s.mem ps (c.rdS s.eng o.d).toNat ∧
        (∀ l, l ∉ locations ps → t.mem.read l = s.mem.read l) ∧
        t.ctx? s.cur = some (c.advance s.eng) ∧ ∀ p, p ≠ s.cur → t.ctx? p = s.ctx? p

/-- R95: LDS and STS. -/
def Obligations.ScalarMemory : Prop := ScalarLoad ∧ ScalarStore

/-- R6: what is written to memory as a number of `n` bytes lies there least significant byte first and reads back, and no
other byte changes. -/
def Obligations.MemoryReadAfterWrite : Prop :=
  ∀ (m : Memory) (a n v : Nat),
    (m.writeN a n v).readN a n = v % 2 ^ (8 * n) ∧
    (∀ k < n, (m.writeN a n v).read (a + k) = BitVec.ofNat 8 (v / 2 ^ (8 * k))) ∧
    ∀ b, b < a ∨ a + n ≤ b → (m.writeN a n v).read b = m.read b

/-- R17, R101, R202: EGET of a full register writes its value and empties it; EPEEK writes it and leaves it; EGET of an
empty one, or either while a LAUNCH before it has still to fill it, waits. -/
def Sys2Proof.Says.ExchangeReads : Prop :=
  ∀ (s : State) (c : Context) (o : ExOp), runs s c →
    let k := o.k.toNat
    let v := lookD c.r.ex k 0
    let due := fillDue c k
    (c.r.exFull.getLsbD k = true ∧ due = false → ∃ c',
      exec (.eget o) s = becomes s c' ∧ c'.r.exFull.getLsbD k = false ∧
      (∀ j, j ≠ k → c'.r.exFull.getLsbD j = c.r.exFull.getLsbD j) ∧ c'.r.ex = c.r.ex ∧
      (o.d ≠ 0 → held c' o.d = v) ∧ c'.r.flags = c.r.flags ∧ c'.lines = c.lines) ∧
    (c.r.exFull.getLsbD k = false ∨ due = true → exec (.eget o) s = waits s) ∧
    (due = false → exec (.epeek o) s = writes s c o.d v) ∧
    (due = true → exec (.epeek o) s = waits s)

/-- R159 to R161: MCFG writes shadow level K, MGO sets the go bit of an engine apart, MWAIT passes once no nest is left,
and MSTAT reports the nest; with the go bit set MCFG and MGO wait. -/
def Sys2Proof.Says.NestControl : Prop :=
  ∀ (s : State) (c : Context) (o : McfgOp) (d : Reg), runs s c →
    let a := c.rdS s.eng o.a
    let b := c.rdS s.eng o.b
    let k := o.k.toNat
    (c.mat.go = false → k < 6 → b.toNat / 2 ^ 32 = 0 → a.toNat / 2 ^ (if k = 0 then 40 else 14) = 0 →
      ∃ c', exec (.mcfg o) s = becomes s c' ∧ lookD c'.mat.shadow (2 * k) 1 = a ∧ lookD c'.mat.shadow (2 * k + 1) 0 = b ∧
        c'.mat.active = c.mat.active ∧ c'.r = c.r ∧ c'.lines = c.lines) ∧
    (c.mat.go = true → k < 6 → b.toNat / 2 ^ 32 = 0 → a.toNat / 2 ^ (if k = 0 then 40 else 14) = 0 →
      exec (.mcfg o) s = waits s) ∧
    (k < 6 → b.toNat / 2 ^ 32 ≠ 0 → exec (.mcfg o) s = traps s c { code := .illop }) ∧
    (c.mat.go = false → c.together = false →
      exec .mgo s = becomes s ({ c with mat := { c.mat with go := true } }.advance s.eng)) ∧
    (c.mat.go = true → exec .mgo s = waits s) ∧
    (c.mat.go = false ∧ c.mat.running = false → exec .mwait s = passes s c) ∧
    (c.mat.go = true ∨ c.mat.running = true → exec .mwait s = waits s) ∧
    exec (.mstat d) s = writes s c d (BitVec.ofNat 64
      ((if c.mat.running then 1 else 0) + (if c.mat.go then 2 else 0) + c.mat.steps % 2 ^ 32 * 2 ^ 32))

/-- R17, R101, R159 to R161, R202: the exchange registers, and the matrix engine's instructions that a nest is run by. -/
def Obligations.ExchangeAndMatrixControl : Prop := ExchangeReads ∧ NestControl

/-! System registers and instructions (R21, R108 to R112, R290, R300, R318). -/

/-- The register numbers outside the fault registers that no table assigns (R21, R108). -/
def Sys2Proof.Says.unassigned (n : Nat) : Prop :=
  (0x05 ≤ n ∧ n ≤ 0x07) ∨ n = 0x0F ∨ (0x1A ≤ n ∧ n ≤ 0x1F) ∨ (0x29 ≤ n ∧ n ≤ 0x2F) ∨ (0x39 ≤ n ∧ n ≤ 0x3F) ∨
    (0x4D ≤ n ∧ n ≤ 0x4F) ∨ (0x73 ≤ n ∧ n ≤ 0x7B) ∨ (0x7D ≤ n ∧ n ≤ 0x7F) ∨ (0x90 ≤ n ∧ n ≤ 0x9F) ∨ 0xC0 ≤ n

/-- R108, R318: SYSRD of an assigned number writes its value; a number that no table assigns raises ILLOP; the numbers of the
fault registers raise PROT outside handler mode, the unassigned among them too (the model's reading, log 45), and inside it those
raise ILLOP. -/
def Obligations.SystemReads : Prop :=
  ∀ (s : State) (c : Context) (o : SysRd), runs s c →
    let n := o.n.toNat
    let is := fun (k : Nat) (v : Word) => n = k → exec (.sysrd o) s = writes s c o.d v
    let nat := fun (k v : Nat) => n = k → exec (.sysrd o) s = writes s c o.d (BitVec.ofNat 64 v)
    (isFaultReg n = true → c.handler = false → exec (.sysrd o) s = traps s c { code := .prot }) ∧
    (noFaultReg n = true → c.handler = true → exec (.sysrd o) s = traps s c { code := .illop }) ∧
    (c.handler = true → is 0x80 c.flt.fcause ∧ is 0x81 c.flt.faddr ∧ is 0x82 c.flt.fslot ∧ is 0x83 c.flt.fseq ∧
      (∀ k < 6, is (0x88 + k) (lookD c.flt.fpc k 0)) ∧ is 0x8E c.flt.fnestv ∧ is 0x8F c.flt.fnestm) ∧
    is 0x00 (statusWord c) ∧ is 0x01 (coreWord s s.cur) ∧ nat 0x02 (s.cur % 4) ∧ nat 0x03 c.bind.wid ∧ nat 0x04 c.bind.lid ∧
    nat 0x08 c.r.span ∧ nat 0x09 c.r.rbase ∧ is 0x0A (c.r.fpmode.setWidth 64) ∧ is 0x0B (c.r.flags.setWidth 64) ∧
    is 0x0C (c.r.srseed.setWidth 64) ∧ nat 0x0D (if c.r.latmode then 1 else 0) ∧ nat 0x0E c.bind.window ∧
    (∀ k < 8, is (0x10 + k) (lookD c.mat.tshape k 0)) ∧ nat 0x18 2 ∧ nat 0x19 c.spmode ∧ nat 0x20 c.r.txsel ∧
    (∀ k < 8, is (0x21 + k) ((lookD c.tens c.r.txsel 0).extractLsb' (64 * k) 64)) ∧
    nat 0x30 (c.bind.tidx + c.bind.tsize * 2 ^ 32) ∧ nat 0x31 c.bind.phase ∧ (∀ k < 4, nat (0x32 + k) (c.bind.sh.getD k 0)) ∧
    nat 0x36 c.bind.hmark ∧ nat 0x37 (c.bind.hmark / 2 ^ 64) ∧ nat 0x38 c.bind.sel ∧
    nat 0x41 (if (find? s.wsOpen (c.bind.lid * 16 + dieOf s.cur)).isSome then 1 else 0) ∧
    nat 0x42 c.bind.root ∧ nat 0x43 c.r.gver ∧ nat 0x44 c.r.qsel ∧
    (∀ k < 8, is (0x45 + k) (chainWord (c.chain c.r.qsel) k)) ∧
    (∀ k < 32, is (0x50 + k) (lookD (s.die (dieOf s.cur)).ranges k 0)) ∧
    is 0x70 0x00002EE0096000A0 ∧ is 0x71 c.r.frep ∧ is 0x72 (fstepnoWord s c.bind.lid) ∧ nat 0x7C s.m.wdlim ∧
    (∀ k < 32, is (0xA0 + k) (linkWord (linkAt s k))) ∧
    (unassigned n → exec (.sysrd o) s = traps s c { code := .illop }) ∧
    (n = 0x40 → ∃ p t, p < 64000 ∧ exec (.sysrd o) s = .next t ∧
      t.ctx? s.cur = some ((c.wrS o.d (wrefrWord p)).advance s.eng))

/-- R9, R21, R108, R318, R346: SYSWR keeps the writable bits of each register, clears what a one clears, leaves an RO
register unchanged, and raises ILLOP at a number that no table assigns; the fault registers are written in handler mode alone
(their unassigned numbers: log 45). The words of a chain are ChainControl's. -/
def Sys2Proof.Says.SystemWrites : Prop :=
  ∀ (s : State) (c : Context) (o : SysWr), runs s c →
    let n := o.n.toNat
    let v := c.rdS s.eng o.a
    (n = 0x00 → ∃ c', exec (.syswr o) s = becomes s c' ∧ c'.r = c.r ∧
      c'.sMigr = (c.sMigr && !v.getLsbD 2) ∧ c'.sFlt = (c.sFlt && !v.getLsbD 3)) ∧
    (n = 0x08 → ∃ c', exec (.syswr o) s = becomes s c' ∧ c'.r = { c.r with span := min v.toNat 64 }) ∧
    (n = 0x09 → ∃ c', exec (.syswr o) s = becomes s c' ∧ c'.r = { c.r with rbase := v.toNat % 32 }) ∧
    (n = 0x0A → ∃ c', exec (.syswr o) s = becomes s c' ∧ c'.r = { c.r with fpmode := v.extractLsb' 0 2 }) ∧
    (n = 0x0B → ∃ c', exec (.syswr o) s = becomes s c' ∧ c'.r = { c.r with flags := v.extractLsb' 0 6 }) ∧
    (n = 0x0C → ∃ c', exec (.syswr o) s = becomes s c' ∧ c'.r = { c.r with srseed := v.extractLsb' 0 32 }) ∧
    (n = 0x0D → ∃ c', exec (.syswr o) s = becomes s c' ∧ c'.r = { c.r with latmode := v.getLsbD 0 }) ∧
    (n = 0x20 → ∃ c', exec (.syswr o) s = becomes s c' ∧ c'.r = { c.r with txsel := v.toNat % 64 }) ∧
    (n = 0x43 → ∃ c', exec (.syswr o) s = becomes s c' ∧ c'.r = { c.r with gver := v.toNat % 256 }) ∧
    (n = 0x44 → ∃ c', exec (.syswr o) s = becomes s c' ∧ c'.r = { c.r with qsel := v.toNat % 16 }) ∧
    (n = 0x71 → ∃ c', exec (.syswr o) s = becomes s c' ∧
      c'.r = { c.r with frep := c.r.frep &&& ~~~(v &&& 0xC000000000000000) }) ∧
    (isRo n = true → exec (.syswr o) s = passes s c) ∧
    (unassigned n → exec (.syswr o) s = traps s c { code := .illop }) ∧
    (isFaultReg n = true → c.handler = false → exec (.syswr o) s = traps s c { code := .prot }) ∧
    (noFaultReg n = true → c.handler = true → exec (.syswr o) s = traps s c { code := .illop }) ∧
    (n = 0x8E → c.handler = true → exec (.syswr o) s =
      becomes s ({ c with flt := { c.flt with fnestv := v &&& nestMask } }.advance s.eng)) ∧
    (n = 0x8F → c.handler = true → exec (.syswr o) s =
      becomes s ({ c with flt := { c.flt with fnestm := v &&& nestMask } }.advance s.eng)) ∧
    (0x80 ≤ n ∧ n ≤ 0x83 → c.handler = true → exec (.syswr o) s = passes s c)

/-- R120, R147, R155, R169, R318: the SYSWR rows of their own: TSHAPE, which refuses a shape that is not valid or overlaps
another tile, SPM, FPC of a handler, and a word of the tensor entry TXSEL, whose generation advances. -/
def Sys2Proof.Says.SystemWritesOfTheirOwn : Prop :=
  ∀ (s : State) (c : Context) (o : SysWrK) (a : Reg), runs s c →
    let v := c.rdS s.eng o.a
    exec (.syswrSpm a) s = becomes s ({ c with spmode := (c.rdS s.eng a).toNat % 4 }.advance s.eng) ∧
    (c.handler = true → ∃ c', exec (.syswrFpc o) s = becomes s c' ∧
      (∀ k < 6, lookD c'.flt.fpc k 0 = v) ∧ c'.flt.fnestv.getLsbD 56 = false ∧ c'.flt.fnestm.getLsbD 56 = false) ∧
    (c.handler = false → exec (.syswrFpc o) s = traps s c { code := .prot }) ∧
    (∃ c', exec (.syswrTxw o) s = becomes s c' ∧ c'.r = c.r ∧
      (∀ x, x ≠ c.r.txsel → lookD c'.tens x 0 = lookD c.tens x 0) ∧
      (lookD c'.tens c.r.txsel 0).extractLsb' (64 * o.k.toNat) 64 = v &&& tensMask o.k.toNat ∧
      (∀ j < 8, j ≠ o.k.toNat → (lookD c'.tens c.r.txsel 0).extractLsb' (64 * j) 64 =
        (lookD c.tens c.r.txsel 0).extractLsb' (64 * j) 64) ∧
      lookD c'.tgen c.r.txsel 0 = lookD c.tgen c.r.txsel 0 + 1) ∧
    (c.mat.running = false → c.mat.go = false → v = lookD c.mat.tshape o.k.toNat 0 →
      exec (.syswrTshape o) s = passes s c) ∧
    (c.mat.running = true ∨ c.mat.go = true → exec (.syswrTshape o) s = waits s) ∧
    (c.mat.running = false → c.mat.go = false → v ≠ lookD c.mat.tshape o.k.toNat 0 →
      shapeOk v = false ∨ (∃ x, tileOf v = some x ∧ overlaps c o.k.toNat x = true) →
      exec (.syswrTshape o) s = traps s c { code := .illop }) ∧
    (c.mat.running = false → c.mat.go = false → v ≠ lookD c.mat.tshape o.k.toNat 0 → shapeOk v = true →
      (∀ x, tileOf v = some x → overlaps c o.k.toNat x = false) → tileFits s c o.k.toNat v →
      ∃ t c', exec (.syswrTshape o) s = .next t ∧ t.ctx? s.cur = some c' ∧ lookD c'.mat.tshape o.k.toNat 0 = v ∧
        (∀ j, j ≠ o.k.toNat → lookD c'.mat.tshape j 0 = lookD c.mat.tshape j 0) ∧ c'.r = c.r ∧ t.mem = s.mem)

/-- R108, R120, R147, R155, R169, R318: the SYSWR rows. -/
def Obligations.SystemRegisterWrites : Prop := SystemWrites ∧ SystemWritesOfTheirOwn

/-- R290: QW1 to QW5 of the chain QSEL are written while EN is 0, each to its own width, and QW6 and QW7 are not; while EN is 1 a
write that would change one raises ILLOP. -/
def Sys2Proof.Says.ChainWords : Prop :=
  ∀ (s : State) (c : Context) (o : SysWr), runs s c → 0x46 ≤ o.n.toNat → o.n.toNat ≤ 0x4C →
    let n := o.n.toNat
    let v := (c.rdS s.eng o.a).toNat
    let q := c.r.qsel
    let k := c.chain q
    let new : Chain := if n = 0x46 then { k with base := v % 2 ^ 56 } else if n = 0x47 then { k with rsize := v % 2 ^ 16 }
      else if n = 0x48 then { k with tail := v % 2 ^ 32 } else if n = 0x49 then { k with done := v % 2 ^ 32 }
      else if n = 0x4A then { k with sqaddr := v % 2 ^ 56 } else k
    (k.en = false ∨ new = k → ∃ c' : Context, exec (.syswr o) s = becomes s c' ∧ c'.chain q = new ∧
      (∀ j, j ≠ q → c'.chain j = c.chain j) ∧ c'.r = c.r ∧ c'.lines = c.lines) ∧
    (k.en = true → new ≠ k → exec (.syswr o) s = traps s c { code := .illop })

/-- What a chain must hold as a write sets EN (R290). -/
def Sys2Proof.Says.mayEnable (k : Chain) (ring : Bool) : Prop :=
  k.tail = k.done ∧ (if ring then 1 ≤ k.rsize ∧ k.base % 64 = 0 else k.rsize = 0 ∧ k.base % 4096 = 0) ∧ k.sqaddr % 8 = 0

/-- R290, R300: what SYSWR of QW0 does with EN (bit 0), RING (bit 1) and the clearing of FAILED (bit 2) of the value. With EN 0 it
enables a chain that meets the tests and raises ILLOP of another, or writes RING; with EN 1 it disables a chain whose cards have
all retired, clears its failure, or changes nothing, and raises ILLOP where it would change RING. -/
def Sys2Proof.Says.WritesQw0 : Prop :=
  ∀ (s : State) (c : Context) (o : SysWr), runs s c → o.n.toNat = 0x45 →
    let v := c.rdS s.eng o.a
    let q := c.r.qsel
    let k := c.chain q
    let ring := v.getLsbD 1
    let others := fun c' : Context => (∀ j, j ≠ q → c'.chain j = c.chain j) ∧ c'.r = c.r ∧ c'.lines = c.lines
    (k.en = true → ring ≠ k.ring → exec (.syswr o) s = traps s c { code := .illop }) ∧
    (k.en = true → ring = k.ring → v.getLsbD 0 = true → v.getLsbD 2 = false → exec (.syswr o) s = passes s c) ∧
    (k.en = true → ring = k.ring → v.getLsbD 0 = true → v.getLsbD 2 = true →
      taskCtx? (s.setCtx s.cur (c.advance s.eng)) c.bind.lid c.bind.wid = some (c.advance s.eng) →
      (k.failed = false → exec (.syswr o) s = passes s c) ∧
      (k.failed = true →
        (∀ e ∈ s.cards, e.2.of c.bind.lid c.bind.wid = true → e.2.q = q → e.2.st = .failed → e.2.seq = k.failedSeq) →
        ∃ t c', exec (.syswr o) s = .next t ∧ t.ctx? s.cur = some c' ∧ (c'.chain q).failed = false ∧ c'.r = c.r)) ∧
    (k.en = true → ring = k.ring → v.getLsbD 0 = false →
      (chainBusy s c.bind.lid c.bind.wid q = false → ∃ c' : Context, exec (.syswr o) s = becomes s (c'.advance s.eng) ∧
        (c'.chain q).en = false ∧ (c'.chain q).failed = false ∧ (c'.chain q).ecode = 0 ∧ others c') ∧
      (chainBusy s c.bind.lid c.bind.wid q = true → ∃ c' : Context, exec (.syswr o) s = becomes s c' ∧
        (c'.chain q).disabling = true ∧ c'.pos = c.pos ∧ others c')) ∧
    (k.en = false → v.getLsbD 0 = true →
      (mayEnable k ring → ∃ c' : Context, exec (.syswr o) s = becomes s (c'.advance s.eng) ∧
        (c'.chain q).en = true ∧ (c'.chain q).ring = ring ∧ (c'.chain q).base = k.base ∧
        (ring = false → (c'.chain q).lpos = k.base) ∧ others c') ∧
      (¬ mayEnable k ring → exec (.syswr o) s = traps s c { code := .illop })) ∧
    (k.en = false → v.getLsbD 0 = false → ∃ c' : Context, exec (.syswr o) s = becomes s (c'.advance s.eng) ∧
      c'.chain q = { k with ring := ring } ∧ others c')

/-- R290, R300: each of the three writes of QW0 on its own: enabling a chain that meets the tests, which starts at its base (where
LPOS starts: log 35), disabling one whose cards have all retired, and clearing its failure. -/
def Sys2Proof.Says.ChainEnabling : Prop :=
  ∀ (s : State) (c : Context) (a : Reg), runs s c →
    let q := c.r.qsel
    let k := c.chain q
    let ring := (c.rdS s.eng a).toNat / 2 % 2 == 1
    (k.en = false → mayEnable k ring → ∃ c' : Context, exec (.chainEnable a) s = becomes s (c'.advance s.eng) ∧
        (c'.chain q).en = true ∧ (c'.chain q).ring = ring ∧ (c'.chain q).base = k.base ∧
        (ring = false → (c'.chain q).lpos = k.base) ∧ c'.r = c.r) ∧
    (k.en = false → ¬ mayEnable k ring → exec (.chainEnable a) s = traps s c { code := .illop }) ∧
    (chainBusy s c.bind.lid c.bind.wid q = false → ∃ c' : Context, exec (.chainDisable a) s = becomes s (c'.advance s.eng) ∧
      (c'.chain q).en = false ∧ (c'.chain q).failed = false ∧ (c'.chain q).ecode = 0 ∧ c'.r = c.r) ∧
    (taskCtx? (s.setCtx s.cur (c.advance s.eng)) c.bind.lid c.bind.wid = some (c.advance s.eng) →
      (k.failed = false → exec (.chainFailedClear a) s = passes s c) ∧
      (k.failed = true →
        (∀ e ∈ s.cards, e.2.of c.bind.lid c.bind.wid = true → e.2.q = q → e.2.st = .failed → e.2.seq = k.failedSeq) →
        ∃ t c', exec (.chainFailedClear a) s = .next t ∧ t.ctx? s.cur = some c' ∧ (c'.chain q).failed = false ∧
          c'.r = c.r))

/-- R290, R300: the words of a chain, and its enabling and disabling. -/
def Obligations.ChainControl : Prop := ChainWords ∧ WritesQw0 ∧ ChainEnabling

/-- R109, R110, R112: PRIO takes the lower of n and the grant, HEART restarts a persistent task's watchdog, IDLE stops
the context's issue at its slot, and a time limit takes it on. -/
def Obligations.PriorityHeartAndIdle : Prop :=
  ∀ (s : State) (c : Context) (n : BitVec 2), runs s c →
    exec (.prio n) s = becomes s ({ c with r := { c.r with cls := min n.toNat c.bind.grant } }.advance s.eng) ∧
    (c.bind.pers = true → exec .heart s = becomes s ({ c with wdog := 0 }.advance s.eng)) ∧
    (c.bind.pers = false → exec .heart s = passes s c) ∧
    exec .idle s = becomes s { c with idle := true } ∧
    (c.idle = true → exec (.idleTimeout s.cur) s = becomes s c.endIdle ∧
      (c.stepping = false → c.endIdle = { c.advance .ctl with idle := false })) ∧
    (c.idle = false → exec (.idleTimeout s.cur) s = .next s)

/-! Traps, handlers and END (R31, R32, R107, R111, R316 to R321). -/

/-- R111, R316 to R319: TRAP enters the handler at TRAPH with FLT set, code 0x4D, its number as argument, and every
engine resuming after it; while requests of the task are on their way the fault is kept; BKPT with no debugger attached does
nothing, and with one it halts the context, which is then pre-empted (R336). -/
def Sys2Proof.Says.TrapEntersTheHandler : Prop :=
  ∀ (s : State) (c : Context) (n : BitVec 16), runs s c →
    let out := requestsOut s c.bind.lid c.bind.wid
    (c.handler = false → c.bind.traph ≠ 0 → out = false → ∃ t c', exec (.trap n) s = .next t ∧ t.ctx? s.cur = some c' ∧
      c'.handler = true ∧ c'.sFlt = true ∧
      c'.hpos.addr = codeAddr c.bind.traph ∧ c'.hpos.slot = codeSlot c.bind.traph ∧
      c'.flt.fcause.toNat % 256 = 0x4D ∧ c'.flt.fcause.toNat / 2 ^ 16 % 2 ^ 16 = n.toNat ∧
      c'.flt.fcause.getLsbD 63 = true ∧ c'.flt.faddr = 0 ∧
      (∀ e : Engine, lookD c'.flt.fpc e.code 0 = BitVec.ofNat 64 ((c.advance s.eng).pos.get e).word) ∧
      c'.r.s = c.r.s ∧ c'.r.p = c.r.p ∧ c'.r.flags = c.r.flags ∧ c'.lines = c.lines ∧ t.mem = s.mem) ∧
    (c.handler = false → out = true → ∃ x, exec (.trap n) s = becomes s { c with pendingFault := some x } ∧
      (c.pendingFault = none → x.code = .trapi ∧ x.arg = n.toNat)) ∧
    (s.debugged c = false → exec (.bkpt n) s = passes s c) ∧
    (s.debugged c = true → ∃ t c', exec (.bkpt n) s = .next t ∧ t.ctx? s.cur = some c' ∧ c'.halted = true ∧
      c'.preempting = true ∧ c'.haltCode = some n.toNat ∧ c'.r = c.r ∧ t.mem = s.mem)

/-- R318 to R321, R336: a fault without a handler, unless it is WDOG, writes the fault registers with ACTIVE 0 and sets FLT, and
the task ends; in handler mode it ends the task and writes none of them. EndFreesTheTask says that such an end gives its launch
FAULTED. A debugger that is attached halts the context first. -/
def Sys2Proof.Says.FaultsWithoutAHandler : Prop :=
  ∀ (s : State) (c : Context) (x : Trap), runs s c → x.code ≠ .debug → x.found = none →
    let d := s.debugged c
    let after := (takeTrap s s.cur c s.eng x).ctx? s.cur
    (c.handler = false → requestsOut s c.bind.lid c.bind.wid = false → c.bind.traph = 0 →
      (x.code ≠ .wdog → ∃ f : FaultRegs,
        after = some { c with flt := f, sFlt := true, halted := d, preempting := d, ending := true } ∧
        f.fcause.toNat % 256 = x.code.num ∧ f.fcause.getLsbD 63 = false ∧ f.faddr = BitVec.ofNat 64 x.addr) ∧
      (x.code = .wdog → after = some c)) ∧
    (c.handler = false → requestsOut s c.bind.lid c.bind.wid = true →
      after = some { c with pendingFault := some (weigh c (x.pin c s.eng)) }) ∧
    (c.handler = true → after = some { c with halted := d, preempting := d, ending := !d })

/-- R111, R316 to R321: taking an exception, with a handler, without one, and inside one. -/
def Obligations.TrapsAndFaults : Prop := TrapEntersTheHandler ∧ FaultsWithoutAHandler

/-- R320: a handler that writes no FPC returns every engine to where it stopped, and leaves handler mode; TRET outside
handler mode raises ILLOP. -/
def Sys2Proof.Says.ReturnResumesWhereItStopped : Prop :=
  ∀ (s : State) (c : Context) (x : Trap) (leads : Engine → Bool), runs s c → c.handler = false → c.bind.traph ≠ 0 →
    requestsOut s c.bind.lid c.bind.wid = false →
    x.code ≠ .debug → x.found = none → x.resumeNext = false → c.nestV = none → c.nestM = none →
    exec .tret s = traps s c { code := .illop } ∧
    ∃ c1, (takeTrap s s.cur c s.eng x).ctx? s.cur = some c1 ∧ c1.handler = true ∧
      (leaveHandler leads c1).handler = false ∧ (leaveHandler leads c1).pos = c.pos ∧
      (leaveHandler leads c1).nestV = none ∧ (leaveHandler leads c1).nestM = none ∧
      (leaveHandler leads c1).flt.fcause.getLsbD 63 = false

/-- R107, R320: TRET of a handler completes; a nest's position comes back for an engine whose resume point names a nest
record that it leads. -/
def Sys2Proof.Says.ReturnCompletes : Prop :=
  ∀ (s : State) (c : Context), runs s c → c.handler = true →
    exec .tret s = becomes s (leaveHandler (fun e => leadsAt s (c.who s.cur) e ((resumePoints c).get e)) c)

/-- R107, R320: the return from an exception. -/
def Obligations.Return : Prop := ReturnResumesWhereItStopped ∧ ReturnCompletes

/-- R31, R32, R277, R313, R321: END of a task with nothing left to wait for frees its context and its bind position, and its
launch counts one task less; the end of a task that its handler or the firmware ends gives its launch FAULTED; and the ECCU that a
RED before it met is raised by it. -/
def Obligations.EndFreesTheTask : Prop :=
  ∀ (s : State) (c : Context) (l : Launch), runs s c → s.launch? c.bind.lid = some l →
    c.releases = [] → requestsOut s c.bind.lid c.bind.wid = false →
    let frees := fun (t : State) (f : Bool) => t.ctx? s.cur = none ∧ find? (t.die (dieOf s.cur)).slots (s.cur % 128) = none ∧
      (∃ l', t.launch? c.bind.lid = some l' ∧ l'.left = l.left - 1 ∧ l'.faulted = f) ∧ t.mem = s.mem
    (c.handler = false → c.ending = false → c.redErrs = [] → c.mat.running = false → c.mat.go = false →
      cardsSettled s c.bind.lid c.bind.wid c = true → failedChain? c = none →
      ∃ t, exec .endTask s = .next t ∧ frees t l.faulted ∧ ∀ p, p ≠ s.cur → t.ctx? p = s.ctx? p) ∧
    (c.ending = true ∨ c.handler = true ∧ c.redErrs = [] → (∀ e ∈ s.cards, e.2.of c.bind.lid c.bind.wid = false) →
      ∃ t, exec .endTask s = .next t ∧ frees t true) ∧
    (∀ r rest, c.ending = false → c.redErrs = r :: rest → exec .endTask s =
      .next (takeTrap s s.cur { c with redErrs := rest } .ctl { code := .eccu, eng := some 7, addr := r.addr, slot := some r.slot }))

/-! Control transfer (R25, R74, R102 to R106). -/

/-- R74, R102 to R104: the branches go to their targets, and one not taken to PC.next; CALL links to PC.next, and RET
goes where its register names. -/
def Sys2Proof.Says.Branches : Prop :=
  ∀ (s : State) (c : Context) (b : BrOp) (k : BcOp) (l : CallOp) (x : Reg), runs s c →
    let p := c.posOf .ctl
    let w := (c.rdS .ctl x).toNat
    exec (.br b) s = becomes s (c.branchTo (targetAddr p b.off) b.slot.toNat) ∧
    (c.cond .ctl k.ck k.x = true → exec (.bc k) s = becomes s (c.branchTo (targetAddr p k.off) k.slot.toNat)) ∧
    (c.cond .ctl k.ck k.x = false → exec (.bc k) s = becomes s c.branchPast) ∧
    (c.bind.pad = true → k.x = 1 → k.ck = .none →
      exec (.bc k) s = becomes s (c.branchTo (targetAddr p k.off) k.slot.toNat)) ∧
    (c.bind.pad = true → k.x = 1 → k.ck = .any → exec (.bc k) s = becomes s c.branchPast) ∧
    exec (.call l) s = becomes s ((c.wrS l.x (BitVec.ofNat 64 p.next.word)).branchTo (targetAddr p l.off) l.slot.toNat) ∧
    exec (.ret x) s = becomes s (c.branchTo (w % 2 ^ 56 / 64 * 64) (w % 8))

/-- R25, R102: with one program counter, a branch moves every engine to its target, and a slot passed moves every
engine to PC.next: the next slot of the record, or slot 0 of the next record after slot 7. -/
def Sys2Proof.Says.EveryEngineFollows : Prop :=
  ∀ (c : Context) (e f : Engine) (addr slot : Nat), c.together = true →
    ((c.branchTo addr slot).posOf f).addr = addr ∧ ((c.branchTo addr slot).posOf f).slot = slot ∧
    (((c.posOf f).slot = 7 → ((c.advance e).posOf f).slot = 0 ∧
        ((c.advance e).posOf f).addr = ((c.posOf f).addr + 64) % 2 ^ 56) ∧
      ((c.posOf f).slot < 7 → ((c.advance e).posOf f).slot = (c.posOf f).slot + 1 ∧
        ((c.advance e).posOf f).addr = (c.posOf f).addr))

/-- R105: JMPT goes where the word of its table names; where the load faults, the fault is taken and nothing else
changes. -/
def Sys2Proof.Says.TableJump : Prop :=
  ∀ (s : State) (c : Context) (o : JmptOp), runs s c →
    let a := (c.rdS .ctl o.y + 8 * c.rdS .ctl o.x).toNat
    let r := readMem s (c.who s.cur) c.r.gver notWs 8 a 8
    (∀ v ps, r = .ok (v, ps) → ∃ t, exec (.jmpt o) s = .next t ∧
      t.ctx? s.cur = some (c.branchTo (v % 2 ^ 56 / 64 * 64) (v % 8)) ∧ t.mem = s.mem) ∧
    (∀ x, r = .error (.trap x) → exec (.jmpt o) s = traps s c x) ∧
    (a % 8 ≠ 0 → exec (.jmpt o) s = traps s c { code := .align, addr := a % 2 ^ 56 })

/-- R25, R74, R102 to R105: control transfer. -/
def Obligations.ControlTransfer : Prop := Branches ∧ EveryEngineFollows ∧ TableJump

/-- R106: LOOP counts down, turns RBASE, sets the new p8 and branches; without a count it passes and changes no
register. -/
def Obligations.LoopTurns : Prop :=
  ∀ (s : State) (c : Context) (o : LoopOp), runs s c →
    let n := c.rdS .ctl o.x
    let k := c.rdS .ctl o.y
    let rb := (c.r.rbase + 31) % 32
    let t := targetAddr (c.posOf .ctl) o.off
    (0 < n.toInt → ∃ c' : Context, exec (.loop o) s = becomes s (c'.branchTo t o.slot.toNat) ∧ c'.r.rbase = rb ∧
      held c' o.x = n - 1 ∧ lookD c'.r.p (8 + rb % 8) 0 = ones128 ∧ c'.lines = c.lines ∧ c'.r.flags = c.r.flags) ∧
    (n.toInt ≤ 0 → 0 < k.toInt → ∃ c' : Context, exec (.loop o) s = becomes s (c'.branchTo t o.slot.toNat) ∧ c'.r.rbase = rb ∧
      held c' o.y = k - 1 ∧ lookD c'.r.p (8 + rb % 8) 0 = 0 ∧ c'.lines = c.lines ∧ c'.r.flags = c.r.flags) ∧
    (n.toInt ≤ 0 → k.toInt ≤ 0 → exec (.loop o) s = becomes s c.branchPast ∧ c.branchPast.r = c.r)

/-! VEC (spec/05). -/

/-- R115 to R124, R138: every V3 operation writes, under its predicate, each element's result to its destination line
(VSEL writes all of them, choosing by the predicate), sets the flags of the enabled elements, and changes nothing else. -/
def Obligations.VectorThreeOperands : Prop :=
  ∀ (s : State) (c : Context) (op : V3Op) (o : V3) (n : Nat) (a b : Opd), runs s c → Ready3 s c op o {} n a b →
    ∃ (l : Line) (f : Flags), exec (op.instr o) s = becomes s (((c.wrL n l).addFlags f).advance s.eng) ∧
      Result3 s c op o n a b l f

/-- R122, R123, Table 35: the integer lanes: modulo 2^w for the wrapping operations, counts modulo w for the shifts (VSHA copies
bit w - 1), bit by bit for VAND, VOR and VXOR, the clamped value for VADDS and VSUBS, and the high half for VMULH; no integer
lane raises a flag. -/
def Obligations.IntegerLanes : Prop :=
  ∀ (t : ElemType) (m : RMode) (a b d : Nat), t.isInt = true → a < 2 ^ t.width → b < 2 ^ t.width → d < 2 ^ t.width →
    let w := t.width
    let x := intOf t.isSigned w a
    let y := intOf t.isSigned w b
    let v (op : V3Op) := (v3Elem op t m a b d).1
    v .vadd = (a + b) % 2 ^ w ∧
    v .vsub = (a + 2 ^ w - b) % 2 ^ w ∧
    v .vmul = a * b % 2 ^ w ∧
    v .vfma = (a * b + d) % 2 ^ w ∧
    v .vfms = (a * b + 2 ^ w - d) % 2 ^ w ∧
    v .vshl = a * 2 ^ (b % w) % 2 ^ w ∧
    v .vshr = a / 2 ^ (b % w) ∧
    intOf true w (v .vsha) = intOf true w a / 2 ^ (b % w) ∧
    v .vand = a &&& b ∧
    v .vor = a ||| b ∧
    v .vxor = a ^^^ b ∧
    v .vmin = (if x ≤ y then a else b) ∧
    v .vmax = (if x ≤ y then b else a) ∧
    intOf t.isSigned w (v .vadds) = max (minOfType t) (min (maxOfType t) (x + y)) ∧
    intOf t.isSigned w (v .vsubs) = max (minOfType t) (min (maxOfType t) (x - y)) ∧
    intOf t.isSigned w (v .vmulh) = x * y / 2 ^ w ∧
    ∀ op, (v3Elem op t m a b d).2 = 0

/-- R125, R126, R129, R137, R139: the V2 operations of one line to one line: one lane each, the conversions, the prefix
sums, compression, expansion and the element numbers. -/
def Sys2Proof.Says.VectorTwoOperands : Prop :=
  ∀ (s : State) (c : Context) (op : V2Op) (o : V2) (n : Nat) (a : Opd), runs s c → Ready2 s c op o {} 1 1 n a →
    let w := o.ty.width
    let p := c.rdP s.eng o.pred.toNat
    let ea := sourceElem c (if op = .vcvt then o.t2.width else w) a
    let ed := elem (c.rdL n) w
    let on := fun i => enabled p w i
    let ms := 4096 / max w o.t2.width
    (isLane2 op = true ∨ op = .vcvt ∨ op = .vscan ∨ op = .vcompr ∨ op = .vexpd ∨ op = .viota) →
    ∃ (l : Line) (f : Flags), exec (op.instr o) s = becomes s (((c.wrL n l).addFlags f).advance s.eng) ∧
      (isLane2 op = true → ∀ i < o.ty.count,
        elem l w i = if on i then (v2Elem op o.ty c.fpm (ea i)).1 % 2 ^ w else ed i) ∧
      (op = .vcvt → ∀ i < o.ty.count, elem l w i =
        if i < ms ∧ on i then (convert o.ty o.t2 (c.rmAt o.rm n i) (ea i)).1 % 2 ^ w else ed i) ∧
      (op = .vscan → ∀ i < o.ty.count, elem l w i = if on i then
        (scanPrefix o.ty c.fpm (withIdentity .sum o.ty p ((List.range o.ty.count).map ea)) i).1 % 2 ^ w else ed i) ∧
      (op = .vcompr → f = 0 ∧ ∀ i < o.ty.count,
        elem l w i = (((List.range o.ty.count).filter on).map ea).getD i 0) ∧
      (op = .vexpd → f = 0 ∧ ∀ i < o.ty.count,
        elem l w i = if on i then ea ((List.range i).filter on).length else ed i) ∧
      (op = .viota → f = 0 ∧ ∀ i < o.ty.count, elem l w i = if on i then i % 2 ^ w else ed i)

/-- R130, R131: VWIDEN converts element k·i + r to element i of destination line r; VNARROW converts element i / k of
source line i mod k to element i. -/
def Sys2Proof.Says.WidenAndNarrow : Prop :=
  ∀ (s : State) (c : Context) (o : V2) (n : Nat) (a : Opd), runs s c →
    let w := o.ty.width
    let v := o.t2.width
    let p := c.rdP s.eng o.pred.toNat
    (Ready2 s c .vwiden o {} (w / v) 1 n a → ∃ c' : Context, exec (.vwiden o) s = becomes s (c'.advance s.eng) ∧
      (∀ m, m < n ∨ n + w / v ≤ m → c'.rdL m = c.rdL m) ∧
      ∀ r < w / v, ∀ i < o.ty.count, elem (c'.rdL (n + r)) w i =
        if enabled p w i then (convert o.ty o.t2 c.fpm (sourceElem c v a (w / v * i + r))).1 % 2 ^ w
        else elem (c.rdL (n + r)) w i) ∧
    (Ready2 s c .vnarrow o {} 1 (v / w) n a → banksFree c (a.lines (v / w)) →
      ∃ (l : Line) (f : Flags), exec (.vnarrow o) s = becomes s (((c.wrL n l).addFlags f).advance s.eng) ∧
        ∀ i < o.ty.count, elem l w i = if enabled p w i then
          (convert o.ty o.t2 (c.rmAt o.rm n i) (match a with
            | .at m => elem (c.rdL (m.toNat + i % (v / w))) v (i / (v / w))
            | .all x => x.toNat % 2 ^ v)).1 % 2 ^ w
          else elem (c.rdL n) w i)

/-- R125, R126, R129 to R131, R137, R139: the V2 operations. -/
def Obligations.VectorUnary : Prop := VectorTwoOperands ∧ WidenAndNarrow

/-- R119, R132 to R135: VQNT, VDQNT and VHAD with a valid block entry: the quantised segment, the decoded elements and
the rotated blocks; a reserved format or an invalid entry raises ILLOP (R39). -/
def Obligations.VectorBlocks : Prop :=
  ∀ (s : State) (c : Context) (o : V2) (n : Nat) (a : Opd) (bf : BFmt), runs s c →
    let b := c.blockEntry o.x.toNat
    let w := o.ty.width
    let g := o.ty.count / 32
    let p := c.rdP s.eng o.pred.toNat
    let es := (List.range o.ty.count).map (sourceElem c w a)
    let sign := fun j => b.sign g (a.lineOr n) j
    (Ready2 s c .vqnt o {} 1 1 n a → b.v = true → BFmt.ofCode b.bfmt = some bf → b.etype = 0 →
      ∃ f : Flags, exec (.vqnt o) s = becomes s
        (((c.wrL n (segment bf (vqntBlocks c o b bf p (a.lineOr n) n es))).addFlags f).advance s.eng)) ∧
    (Ready2 s c .vdqnt o {} 1 1 n a → b.v = true → BFmt.ofCode b.bfmt = some bf → b.etype = 0 →
      exec (.vdqnt o) s = becomes s ((c.putEls p w n (roundAll o.ty (c.rmAt o.rm n 0)
        ((List.range g).flatMap fun j =>
          let vs := segmentVals bf g (packEls w es) j
          if b.hen then hadInv (c.rmAt o.rm n 0) (sign j) vs else vs.map fun v => (v, 0)))).advance s.eng)) ∧
    (Ready2 s c .vhad o {} 1 1 n a → b.v = true → b.hen = true → b.bfmt < 10 →
      exec (.vhad o) s = becomes s ((c.putEls p w n (roundAll o.ty c.fpm ((List.range g).flatMap fun j =>
        if o.q then hadInv c.fpm (sign j) (blockVals o.ty p es j)
        else hadFwd c.fpm (sign j) (blockVals o.ty p es j)))).advance s.eng)) ∧
    (Ready2 s c .vhad o {} 1 1 n a → b.v = false ∨ b.hen = false ∨ 10 ≤ b.bfmt →
      exec (.vhad o) s = traps s c { code := .illop }) ∧
    (Ready2 s c .vqnt o {} 1 1 n a → b.v = false ∨ BFmt.ofCode b.bfmt = none →
      exec (.vqnt o) s = traps s c { code := .illop }) ∧
    (Ready2 s c .vdqnt o {} 1 1 n a → b.v = false ∨ BFmt.ofCode b.bfmt = none →
      exec (.vdqnt o) s = traps s c { code := .illop })

/-- R57, R136, R202: the reductions write their result to element 0 of a line, the rest zero, or fill an exchange register,
which waits for the fill of a LAUNCH before it. -/
def Obligations.VectorReductions : Prop :=
  ∀ (s : State) (c : Context) (op : V2Op) (r : Reduction) (o : V2) (a : Opd), runs s c → reductionOf op = some r →
    o.wf op = true → c.vsrc s.eng o.a 0 = .ok a → inside c 1 a →
    let w := o.ty.width
    let p := c.rdP s.eng o.pred.toNat
    let x := reduceLine r o.ty c.fpm p ((List.range o.ty.count).map (sourceElem c w a))
    (∀ n : Nat, c.vdst s.eng o.d 0 = .ok (n : Int) → n < 64 * c.bind.window → ∃ l : Line,
      exec (op.instr o) s = becomes s (((c.wrL n l).addFlags x.2).advance s.eng) ∧
      elem l w 0 = x.1 % 2 ^ w ∧ ∀ i, 0 < i → i < o.ty.count → elem l w i = 0) ∧
    (∀ k : Reg, o.d = .scalar k → fillDue c (k.toNat % 8) = true → exec (op.instr o) s = waits s) ∧
    (∀ k : Reg, o.d = .scalar k → fillDue c (k.toNat % 8) = false →
      ∃ c' : Context, exec (op.instr o) s = becomes s (c'.advance s.eng) ∧
      c'.r.exFull.getLsbD (k.toNat % 8) = true ∧ c'.r.flags = c.r.flags ||| x.2 ∧ c'.lines = c.lines ∧
      lookD c'.r.ex (k.toNat % 8) 0 = exchVal o.ty x.1)

/-- R128, R140 to R142: VCMP and the predicate operations write their predicate, and VCMP sets the flags of the elements that it
compares; PCNT fills its exchange register; nothing else changes. A write to p0 or p1 is discarded (R14). -/
def Obligations.Predicates : Prop :=
  ∀ (s : State) (c : Context) (o : PP) (v : VP) (a b : Opd), runs s c →
    let x := c.rdP s.eng o.pa.toNat
    let y := c.rdP s.eng o.pb.toNat
    let puts (r : BitVec 128) := becomes s ((c.wrP s.eng o.pd.toNat r).advance s.eng)
    exec (.pand o) s = puts (x &&& y) ∧
    exec (.por o) s = puts (x ||| y) ∧
    exec (.pxor o) s = puts (x ^^^ y) ∧
    exec (.pnot o) s = puts (~~~x) ∧
    (∃ r, exec (.pfirst o) s = puts r ∧
      ∀ k < 128, r.getLsbD k = true ↔ if o.ty.width = 64
        then x.getLsbD (k / 2 * 2) = true ∧ ∀ j < k / 2, x.getLsbD (2 * j) = false
        else x.getLsbD k = true ∧ ∀ j < k, x.getLsbD j = false) ∧
    (fillDue c (o.pd.toNat % 8) = true → exec (.pcnt o) s = waits s) ∧
    (fillDue c (o.pd.toNat % 8) = false →
      ∃ c' : Context, exec (.pcnt o) s = becomes s (c'.advance s.eng) ∧ c'.r.exFull.getLsbD (o.pd.toNat % 8) = true ∧
      (c.idle = false → c' = { c with r := { c.r with ex := c'.r.ex, exFull := c'.r.exFull } }) ∧
      (∀ j, j ≠ o.pd.toNat % 8 → lookD c'.r.ex j 0 = lookD c.r.ex j 0 ∧ c'.r.exFull.getLsbD j = c.r.exFull.getLsbD j) ∧
      lookD c'.r.ex (o.pd.toNat % 8) 0 =
        BitVec.ofNat 64 ((List.range o.ty.count).countP fun i => enabled x o.ty.width i)) ∧
    (o.imm.toNat ≤ o.ty.count → ∃ r, exec (.pseti o) s = puts r ∧
      ∀ i < o.ty.count, enabled r o.ty.width i = true ↔ i * o.ty.width / 32 * 32 < o.imm.toNat * o.ty.width) ∧
    (v.wf = true → c.vsrc s.eng v.a 0 = .ok a → c.vsrc s.eng v.b 0 = .ok b → inside c 1 a → inside c 1 b →
      banksFree c (a.lines 1 ++ b.lines 1) → ∃ (r : BitVec 128) (f : Flags),
        exec (.vcmp v) s = becomes s (((c.wrP s.eng v.pd.toNat r).addFlags f).advance s.eng) ∧
        ∀ k < 128, r.getLsbD k =
          ((c.rdP s.eng v.pred.toNat).getLsbD (if v.ty.width = 64 then k / 2 * 2 else k) &&
            (governed v.ty.width k).all fun i =>
              (cmpEl v.cc v.ty (sourceElem c v.ty.width a i) (sourceElem c v.ty.width b i)).1) ∧
        ∀ j < 6, f.getLsbD j = true ↔ ∃ i < v.ty.count, enabled (c.rdP s.eng v.pred.toNat) v.ty.width i = true ∧
          (cmpEl v.cc v.ty (sourceElem c v.ty.width a i) (sourceElem c v.ty.width b i)).2.getLsbD j = true) ∧
    (∀ (n : Nat) (z : BitVec 128), n < 2 → c.wrP s.eng n z = c) ∧
    c.rdP s.eng 0 = BitVec.allOnes 128 ∧
    c.rdP s.eng 1 = if c.bind.pad then 0 else BitVec.allOnes 128

/-- An iteration of a nest: each level's index is below its trip count (R67). -/
def Sys2Proof.Says.iteration (p : NestP) (x : NestPos) : Prop :=
  x.i0 < p.t0.toNat ∧ x.i1 < p.t1.toNat ∧ x.i2 < p.t2.toNat ∧ x.i3 < p.t3.toNat

/-- The place of an iteration among a nest's issues, level 0 fastest, and how many the nest makes (R67). -/
def Sys2Proof.Says.place (p : NestP) (x : NestPos) : Nat :=
  x.i0 + p.t0.toNat * (x.i1 + p.t1.toNat * (x.i2 + p.t2.toNat * x.i3))
def Sys2Proof.Says.issues (p : NestP) : Nat := p.t0.toNat * p.t1.toNat * p.t2.toNat * p.t3.toNat

/-- How far an operand's strides move it at an iteration: i0·STR0 + i1·STR1 + i2·STR2 + i3·STR3 (R67, Table 14). -/
def Sys2Proof.Says.shift (str : BitVec 128) (x : NestPos) : Int :=
  x.i0 * (str.extractLsb' 0 32).toInt + x.i1 * (str.extractLsb' 32 32).toInt + x.i2 * (str.extractLsb' 64 32).toInt +
    x.i3 * (str.extractLsb' 96 32).toInt

/-- The D, A and B operands' offsets at an iteration (R67). -/
def Sys2Proof.Says.shifts (p : NestP) (x : NestPos) : Offs := ⟨shift p.dstr x, shift p.astr x, shift p.bstr x⟩

/-- The nest of engine `e` stands at iteration `x`: its position is `x`, or it has none yet and `x` is its first; and no token of
an issue before is due. -/
def Sys2Proof.Says.standsAt (c : Context) (e : Engine) (p : NestP) (x : NestPos) : Prop :=
  iteration p x ∧ (c.nestPos e = some x ∨ c.nestPos e = none ∧ x = {}) ∧ c.sendDue e = false

/-- From `c`, the issue of iteration `x` made, the nest goes on at the next iteration in order, or leaves its record after the last
(R67). -/
def Sys2Proof.Says.nestGoesOn (p : NestP) (e : Engine) (x : NestPos) (c d : Context) : Prop :=
  (place p x + 1 < issues p → ∃ y, iteration p y ∧ place p y = place p x + 1 ∧ d = c.setNest e (some y)) ∧
  (place p x + 1 = issues p → d = (c.setNest e none).advanceRecord e)

/-- R66 to R68: what one issue of a nest without tokens does: the lead's own effect at its lines, or its address, moved by the
offsets of the iteration, and then the next iteration in order or the record after the nest. -/
def Sys2Proof.Says.NestLeads : Prop :=
  ∀ (s : State) (c : Context) (p : NestP) (x : NestPos), runs s c → standsAt c s.eng p x → p.tsend = none → p.twait = none →
    (∀ op o n a b, p.wf (.v3 op o) = true → Ready3 s c op o (shifts p x) n a b → ∃ (l : Line) (f : Flags) (d : Context),
      exec (.nestIssue (.v3 op o) p) s = becomes s d ∧ Result3 s c op o n a b l f ∧
      nestGoesOn p s.eng x ((c.wrL n l).addFlags f) d) ∧
    (∀ op o n a, p.wf (.v2 op o) = true → o.d.isLine = true → isLane2 op = true → Ready2 s c op o (shifts p x) 1 1 n a →
      ∃ (l : Line) (f : Flags) (d : Context), exec (.nestIssue (.v2 op o) p) s = becomes s d ∧
        (∀ i < o.ty.count, elem l o.ty.width i = if enabled (c.rdP s.eng o.pred.toNat) o.ty.width i
          then (v2Elem op o.ty c.fpm (sourceElem c o.ty.width a i)).1 % 2 ^ o.ty.width else elem (c.rdL n) o.ty.width i) ∧
        nestGoesOn p s.eng x ((c.wrL n l).addFlags f) d) ∧
    (∀ (o : MV) (n : Nat) v ps, p.wf (.mv .vld o) = true → o.wf .vld = true → mvHs o = false → mvPeer o = false →
      c.vdst s.eng o.l (shift p.dstr x) = .ok (n : Int) → n < 64 * c.bind.window →
      let a := (c.rdS s.eng o.base + o.off.signExtend 64 + BitVec.ofInt 64 (512 * shift p.astr x)).toNat
      a % 64 = 0 → readMem s (c.who s.cur) c.r.gver (fun t => !t.ws) 1 (a % 2 ^ 56) 512 = .ok (v, ps) → ∃ t d,
        exec (.nestIssue (.mv .vld o) p) s = .next t ∧ t.ctx? s.cur = some d ∧ t.mem = s.mem ∧ t.tags = s.tags ∧
        nestGoesOn p s.eng x (c.wrL n (BitVec.ofNat 4096 v)) d) ∧
    (∀ (o : MV) (n : Nat) ps, p.wf (.mv .vst o) = true → o.wf .vst = true → mvHs o = false → mvPeer o = false → s.bad = [] →
      c.vsrc s.eng o.l (shift p.dstr x) = .ok (.at (n : Int)) → n < 64 * c.bind.window →
      let a := (c.rdS s.eng o.base + o.off.signExtend 64 + BitVec.ofInt 64 (512 * shift p.astr x)).toNat
      a % 64 = 0 → accessCheck s (c.who s.cur) .write (fun t => t.ws == false && (!t.grd || a % 2 ^ 56 % 512 == 0)) 1
        (a % 2 ^ 56) 512 = .ok ps → ∃ t d,
        exec (.nestIssue (.mv .vst o) p) s = .next t ∧ t.ctx? s.cur = some d ∧ t.mem = writeParts s.mem ps (c.rdL n).toNat ∧
        (∀ l, l ∉ locations ps → t.mem.read l = s.mem.read l) ∧ nestGoesOn p s.eng x c d) ∧
    (∀ l s1 c1, l.wf = true → p.wf l = true → leadIssue l (shifts p x) s s.eng c = .ok (s1, c1) → c1.sendDue s.eng = false →
      ∃ d, exec (.nestIssue l p) s = .next (s1.setCtx s.cur d) ∧ nestGoesOn p s.eng x c1 d) ∧
    (∀ l t, l.wf = true → p.wf l = true → leadIssue l (shifts p x) s s.eng c = .error (.trap t) →
      exec (.nestIssue l p) s = traps s (c.setNest s.eng (some x)) t)

/-- R200: the tokens of a nest: one is taken before each issue, which waits for it, and one is sent after each, at once or, with
the engines apart, when the issue's release takes effect; one that has no room is due, and the nest waits until it fits. -/
def Sys2Proof.Says.NestTokens : Prop :=
  ∀ (s : State) (c : Context) (p : NestP) (x : NestPos) (l : Lead) (g : Engine), runs s c → l.wf = true → p.wf l = true →
    let e := s.eng
    let key := fun (a b : Engine) => a.code * 8 + b.code
    let now := fun (a b : Engine) => lookD c.tokens (key a b) 0
    let pend := fun (a b : Engine) => lookD c.tokPend (key a b) 0
    (standsAt c e p x → p.twait = some g → now g e = 0 → exec (.nestIssue l p) s = waits s) ∧
    (∀ s1 c1, standsAt c e p x → p.twait = some g → p.tsend = none → 1 ≤ now g e →
      leadIssue l (shifts p x) s e { c with tokens := putD c.tokens (key g e) (now g e - 1) 0 } = .ok (s1, c1) →
      c1.sendDue e = false → ∃ d, exec (.nestIssue l p) s = .next (s1.setCtx s.cur d) ∧ nestGoesOn p e x c1 d) ∧
    (∀ s1 c1, standsAt c e p x → p.twait = none → p.tsend = some g → now e g + pend e g < 15 →
      leadIssue l (shifts p x) s e c = .ok (s1, c1) → c1.tokens = c.tokens → c1.tokPend = c.tokPend → c1.sendDue e = false →
      ∃ d c2, exec (.nestIssue l p) s = .next (s1.setCtx s.cur d) ∧ nestGoesOn p e x c2 d ∧
        (∀ n, c2.rdL n = c1.rdL n) ∧ c2.r = c1.r ∧
        (c1.together = true → lookD c2.tokens (key e g) 0 = now e g + 1 ∧ c2.releases = c1.releases) ∧
        (c1.together = false → lookD c2.tokens (key e g) 0 = now e g ∧ lookD c2.tokPend (key e g) 0 = pend e g + 1 ∧
          c2.releases = c1.releases ++ [⟨.token e g 1, (c1.pos.get e).idx, c1.stamp⟩])) ∧
    (∀ s1 c1, standsAt c e p x → p.twait = none → p.tsend = some g → 15 ≤ now e g + pend e g → c.handler = false →
      leadIssue l (shifts p x) s e c = .ok (s1, c1) → c1.tokens = c.tokens → c1.tokPend = c.tokPend → c1.handler = false →
      ∃ d, exec (.nestIssue l p) s = .next (s1.setCtx s.cur d) ∧ d.sendDue e = true ∧ d.pos = c1.pos ∧ d.tokens = c.tokens) ∧
    (standsAt c e p x → p.twait = none → p.tsend = some g → 15 ≤ now e g + pend e g → c.handler = true →
      exec (.nestIssue l p) s = waits s) ∧
    (c.sendDue e = true → 0 < issues p → p.tsend = some g → 15 ≤ now e g + pend e g →
      exec (.nestIssue l p) s = waits s) ∧
    (c.sendDue e = true → p.tsend = some g → now e g + pend e g < 15 → iteration p x → c.nestPos e = some x →
      ∃ d, exec (.nestIssue l p) s = becomes s d ∧ d.sendDue e = false ∧ d.nestPos e = some x ∧ d.pos = c.pos ∧
        (c.together = true → lookD d.tokens (key e g) 0 = now e g + 1) ∧
        (c.together = false → d.releases = c.releases ++ [⟨.token e g 1, (c.pos.get e).idx, c.stamp⟩])) ∧
    (c.sendDue e = true → p.tsend = some g → now e g + pend e g < 15 → iteration p x → place p x + 1 = issues p →
      c.nestPos e = some { x with i0 := x.i0 + 1 } → ∃ d : Context, exec (.nestIssue l p) s =
        becomes s ((d.setNest e none).advanceRecord e) ∧ d.sendDue e = false ∧ d.pos = c.pos ∧
        (c.together = true → lookD d.tokens (key e g) 0 = now e g + 1) ∧
        (c.together = false → d.releases = c.releases ++ [⟨.token e g 1, (c.pos.get e).idx, c.stamp⟩]))

/-- R66 to R68, R200: a nest record issues its lead TRIP0 × TRIP1 × TRIP2 × TRIP3 times, level 0 fastest, each time at its
iteration's own lines and addresses, then goes to the next record; it takes and sends its tokens one an issue; one with a trip count
of 0 issues nothing and sends and takes no token; and one whose fields R66 to R68 forbid raises ILLOP. -/
def Obligations.NestIssues : Prop :=
  NestLeads ∧ NestTokens ∧ ∀ (s : State) (c : Context) (l : Lead) (p : NestP), runs s c →
    (l.wf = false ∨ p.wf l = false → exec (.nestIssue l p) s = traps s c { code := .illop }) ∧
    (l.wf = true → p.wf l = true → issues p = 0 →
      exec (.nestIssue l p) s = becomes s ((c.setNest s.eng none).advanceRecord s.eng))

/-! MEM: line moves (spec/11). -/

/-- Byte `a` of a context's window. -/
def Sys2Proof.Says.windowByte (c : Context) (a : Nat) : Nat := elem (c.rdL (a / 512)) 8 (a % 512)

/-- R247 to R250, R255, R256: VLD and WLD load 512 bytes into a line, from memory, a shared handle's slot or a window of the
team, the context's own among them; PREF changes nothing, and SWFENCE empties the operand cache; memory does not change. -/
def Sys2Proof.Says.LineLoads : Prop :=
  ∀ (s : State) (c : Context) (o : MV) (n : Nat), runs s c →
    c.vdst s.eng o.l 0 = .ok (n : Int) → n < 64 * c.bind.window →
    (∀ a v ps, o.wf .vld = true → mvTarget c s.eng s.cur false o 0 = .ok (.mem a) → a % 64 = 0 →
      readMem s (c.who s.cur) c.r.gver (fun t => !t.ws) 1 (a % 2 ^ 56) 512 = .ok (v, ps) →
      ∃ t, exec (.vld o) s = .next t ∧ t.ctx? s.cur = some ((c.wrL n (BitVec.ofNat 4096 v)).advance s.eng) ∧
        t.mem = s.mem ∧ t.tags = s.tags ∧ ∀ p, p ≠ s.cur → t.ctx? p = s.ctx? p) ∧
    (∀ a v ps, o.wf .wld = true → mvTarget c s.eng s.cur false o 0 = .ok (.mem a) → a % 64 = 0 →
      readMem s (c.who s.cur) c.r.gver Trans.ws 1 (a % 2 ^ 56) 512 = .ok (v, ps) →
      ∃ t, exec (.wld o) s = .next t ∧ t.ctx? s.cur = some ((c.wrL n (BitVec.ofNat 4096 v)).advance s.eng) ∧
        t.mem = s.mem ∧ t.tags = s.tags ∧ ∀ p, p ≠ s.cur → t.ctx? p = s.ctx? p) ∧
    (∀ a m x, o.wf .vld = true → mvTarget c s.eng s.cur false o 0 = .ok (.peer a) → a % 64 = 0 →
      peerWid s c a = .ok m → (m = c.bind.wid ∧ x = c ∨ m ≠ c.bind.wid ∧ taskCtx? s c.bind.lid m = some x) →
      windowEcc s x a = .ok () → ∃ l, exec (.vld o) s = becomes s ((c.wrL n l).advance s.eng) ∧
        ∀ i < 512, elem l 8 i = windowByte x (a % 2 ^ 20 + i)) ∧
    (o.wf .pref = true → exec (.pref o) s = passes s c) ∧
    ∃ t, exec .swfence s = .next t ∧ t.ctx? s.cur = some (c.advance s.eng) ∧
      (t.core (coreOf s.cur)).ocache = [] ∧ t.mem = s.mem

/-- R237, R247 to R250, R253, R325: VST stores a line's 512 bytes to memory, a shared handle's slot or a window of the team, the
context's own among them, and WST to the open weight store; every byte outside them reads as before. -/
def Sys2Proof.Says.LineStores : Prop :=
  ∀ (s : State) (c : Context) (o : MV) (n : Nat), runs s c → s.bad = [] →
    c.vsrc s.eng o.l 0 = .ok (.at (n : Int)) → n < 64 * c.bind.window →
    (∀ a ps, o.wf .vst = true → mvTarget c s.eng s.cur true o 0 = .ok (.mem a) → a % 64 = 0 →
      accessCheck s (c.who s.cur) .write (fun t => t.ws == false && (!t.grd || a % 2 ^ 56 % 512 == 0)) 1 (a % 2 ^ 56) 512
        = .ok ps →
      ∃ t, exec (.vst o) s = .next t ∧ t.mem = writeParts s.mem ps (c.rdL n).toNat ∧
        (∀ l, l ∉ locations ps → t.mem.read l = s.mem.read l) ∧ t.ctx? s.cur = some (c.advance s.eng)) ∧
    (∀ a ps, o.wf .wst = true → mvTarget c s.eng s.cur true o 0 = .ok (.mem a) → a % 64 = 0 →
      storeOpen s (c.who s.cur) (a % 2 ^ 56) = .ok () →
      accessCheck s (c.who s.cur) .write (fun t => t.ws == true && (!t.grd || a % 2 ^ 56 % 512 == 0)) 1 (a % 2 ^ 56) 512
        = .ok ps →
      ∃ t, exec (.wst o) s = .next t ∧ t.mem = writeParts s.mem ps (c.rdL n).toNat ∧
        (∀ l, l ∉ locations ps → t.mem.read l = s.mem.read l) ∧ t.ctx? s.cur = some (c.advance s.eng)) ∧
    (∀ a m x, o.wf .vst = true → mvTarget c s.eng s.cur true o 0 = .ok (.peer a) → a % 64 = 0 →
      peerWid s c a = .ok m → (m = c.bind.wid ∧ x = c ∨ m ≠ c.bind.wid ∧ taskCtx? s c.bind.lid m = some x) →
      a % 512 = 0 ∨ windowEcc s x a = .ok () → ∃ g : Context → Context,
        exec (.vst o) s = .next (if m = c.bind.wid then s.setCtx s.cur ((g c).advance s.eng)
          else (updTask s c.bind.lid m g).setCtx s.cur (c.advance s.eng)) ∧
        ∀ y, (g y).r = y.r ∧ (g y).bind = y.bind ∧ (g y).pos = y.pos ∧ ∀ i, windowByte (g y) i =
          if a % 2 ^ 20 ≤ i ∧ i < a % 2 ^ 20 + 512 then elem (c.rdL n) 8 (i - a % 2 ^ 20) else windowByte y i) ∧
    (∀ a, o.wf .vst = true → mvTarget c s.eng s.cur true o 0 = .ok (.peer a) → a % 64 = 0 →
      c.bind.tsize ≤ a / 2 ^ 20 ∨ 32768 * c.bind.window < a % 2 ^ 20 + 512 →
      exec (.vst o) s = traps s c { code := .prot, addr := a })

/-- R247 to R250: moves of whole lines. -/
def Obligations.LineMoves : Prop := LineLoads ∧ LineStores

/-- R251 to R254: VLDT and VSTT of a plain tensor move the elements that lie inside it, and VGATH and VSCAT the enabled
elements, each from or to its own address, in ascending order; every byte outside the elements stored reads as before. -/
def Obligations.TensorAndIndexedMoves : Prop :=
  ∀ (s : State) (c : Context) (o : MX) (q : MG) (n : Nat), runs s c → s.bad = [] → n < 64 * c.bind.window →
    let t := c.tent o.x.toNat
    let k := coordOf (c.rdS s.eng o.s)
    let who := c.who s.cur
    let w := t.width
    let run := insideRun t k k.k (4096 / w)
    let span := runBytes w run.1 run.2
    let first := run.1 * w - 8 * span.1
    let v := q.ty.width
    let p := c.rdP s.eng q.pred.toNat
    (o.wf = true → t.usable = true → t.coordOk k = true → t.rowOk k = true → t.bfmt = 0 → c.vdst s.eng o.l 0 = .ok (n : Int) →
      (run.2 = 0 → exec (.vldt o) s = becomes s ((c.wrL n 0).advance s.eng)) ∧
      (∀ ps, run.2 ≠ 0 → tensorRead s who c.r.gver t (elemAlign w) (rowOf t k + span.1) span.2 = .ok ps →
        ∃ m, exec (.vldt o) s = .next m ∧ m.mem = s.mem ∧
          m.ctx? s.cur = some ((c.wrL n (BitVec.ofNat 4096 (packEls w (runEls w run.1 run.2 (tensorVal s.mem w ps)) *
            2 ^ (w * ((run.1 : Int) - k.k).toNat)))).advance s.eng))) ∧
    (o.wf = true → t.usable = true → t.coordOk k = true → t.rowOk k = true → t.bfmt = 0 → c.vsrc s.eng o.l 0 = .ok (.at (n : Int)) →
      (run.2 = 0 → exec (.vstt o) s = passes s c) ∧
      (∀ ps, run.2 ≠ 0 → tensorWrite s who t (elemAlign w) (rowOf t k + span.1) span.2 = .ok ps →
        (∀ x ∈ ps, x.t.cmp = false) →
        ∃ (m : State) (c' : Context) (x : Nat), exec (.vstt o) s = .next m ∧ m.ctx? s.cur = some (c'.advance s.eng) ∧
          c'.lines = c.lines ∧ m.mem = writeParts s.mem ps x ∧
          (∀ i < run.2, x / 2 ^ (first + w * i) % 2 ^ w = elem (c.rdL n) w (((run.1 : Int) - k.k).toNat + i)) ∧
          (∀ j < 8 * span.2, j < first ∨ first + w * run.2 ≤ j → x.testBit j = (tensorVal s.mem w ps).testBit j) ∧
          ∀ l, l ∉ locations ps → m.mem.read l = s.mem.read l)) ∧
    (∀ l ps, o.wf = true → t.usable = true → t.coordOk k = true → t.rowOk k = true → (t.bfmt ≠ 0 → k.k % 256 = 0) →
      c.vdst s.eng o.l 0 = .ok (n : Int) → vldtLine s c t k k.k = .ok (l, ps) →
      ∃ m, exec (.vldt o) s = .next m ∧ m.mem = s.mem ∧ m.ctx? s.cur = some ((c.wrL n l).advance s.eng)) ∧
    (∀ s1 f, o.wf = true → t.usable = true → t.coordOk k = true → t.rowOk k = true → (t.bfmt ≠ 0 → k.k % 256 = 0) →
      c.vsrc s.eng o.l 0 = .ok (.at (n : Int)) → vsttLine s c t k k.k (c.rdL n) = .ok (s1, f) →
      exec (.vstt o) s = .next (s1.setCtx s.cur ((c.addFlags f).advance s.eng))) ∧
    (∀ ix ps vs, q.wf = true → c.vdst s.eng q.l 0 = .ok (n : Int) → c.vsrc s.eng q.i 0 = .ok ix → inside c 1 ix →
      gatherParts s who false (v / 8) (((List.range q.ty.count).filter fun i => enabled p v i).map fun i =>
        (i, gatherAddr (c.rdS s.eng q.base) (q.m.getLsbD 2) v (sourceElem c v ix i))) = .ok ps →
      gatherRead s c.r.gver ps = .ok vs →
      ∃ m l, exec (.vgath q) s = .next m ∧ m.ctx? s.cur = some ((c.wrL n l).advance s.eng) ∧ m.mem = s.mem ∧
        ∀ i < q.ty.count, elem l v i = lookD vs i (elem (c.rdL n) v i) % 2 ^ v) ∧
    (∀ ix ps, q.wf = true → c.vsrc s.eng q.l 0 = .ok (.at (n : Int)) → c.vsrc s.eng q.i 0 = .ok ix → inside c 1 ix →
      gatherParts s who true (v / 8) (((List.range q.ty.count).filter fun i => enabled p v i).map fun i =>
        (i, gatherAddr (c.rdS s.eng q.base) (q.m.getLsbD 2) v (sourceElem c v ix i))) = .ok ps →
      ∃ m, exec (.vscat q) s = .next m ∧ m.ctx? s.cur = some (c.advance s.eng) ∧
        m.mem = ps.foldl (fun b x => writeParts b x.2 (elem (c.rdL n) v x.1)) s.mem ∧
        ∀ l, l ∉ locations (ps.flatMap (·.2)) → m.mem.read l = s.mem.read l)

/-! MAT (spec/06). -/

/-- R147 to R149: TCFG of the value already there changes nothing; a valid shape that overlaps no other tile is recorded
and its tile reads zero; TZERO zeroes a tile and nothing else; an unconfigured tile raises TUNCFG. -/
def Obligations.TileConfiguration : Prop :=
  ∀ (s : State) (c : Context) (o : TM), runs s c →
    let n := o.t.toNat
    let v := c.rdS s.eng o.s
    (v = lookD c.mat.tshape n 0 → exec (.tcfg o) s = passes s c) ∧
    (v ≠ lookD c.mat.tshape n 0 → shapeOk v = false → exec (.tcfg o) s = traps s c { code := .illop }) ∧
    (∀ x, v ≠ lookD c.mat.tshape n 0 → shapeOk v = true → tileOf v = some x → overlaps c n x = true →
      exec (.tcfg o) s = traps s c { code := .illop }) ∧
    (v ≠ lookD c.mat.tshape n 0 → shapeOk v = true → (∀ x, tileOf v = some x → overlaps c n x = false) → tileFits s c n v →
      ∃ t c', exec (.tcfg o) s = .next t ∧ t.ctx? s.cur = some c' ∧ lookD c'.mat.tshape n 0 = v ∧
        (∀ j, j ≠ n → lookD c'.mat.tshape j 0 = lookD c.mat.tshape j 0) ∧
        (∀ x, tileOf v = some x → ∀ i < x.rows, ∀ j < x.cols, tileGet c'.mat.acc x i j = 0) ∧
        c'.r = c.r ∧ c'.lines = c.lines ∧ t.mem = s.mem) ∧
    (c.tile? n = none → exec (.tzero o) s = traps s c { code := .tuncfg, arg := n }) ∧
    (∀ x, c.tile? n = some x → ∃ a, exec (.tzero o) s = becomes s ((c.setAcc n a).advance s.eng) ∧
      (∀ i < x.rows, ∀ j < x.cols, tileGet a x i j = 0) ∧
      ∀ w, w < x.word ∨ x.word + x.words ≤ w → lookD a w 0 = lookD c.mat.acc w 0)

/-- R150: the slice moves carry one row or column between a tile and a line; every other element of the tile, every
word outside it, and the line's elements past the slice stay. An index outside the tile raises ILLOP. -/
def Sys2Proof.Says.TileSlices : Prop :=
  ∀ (s : State) (c : Context) (o : TM) (x : Tile) (n : Nat), runs s c → c.tile? o.t.toNat = some x →
    shapeOk (lookD c.mat.tshape o.t.toNat 0) = true →
    let k := (c.rdS s.eng o.s).toNat
    let acc := c.mat.acc
    (x.rows ≤ k → exec (.trowld o) s = traps s c { code := .illop } ∧ exec (.trowst o) s = traps s c { code := .illop }) ∧
    (x.cols ≤ k → exec (.tcolld o) s = traps s c { code := .illop } ∧ exec (.tcolst o) s = traps s c { code := .illop }) ∧
    (k < x.rows → c.srcLineIn s.eng o.l = .ok n → ∃ a, exec (.trowld o) s = becomes s ((c.setAcc o.t.toNat a).advance s.eng) ∧
      (∀ i < x.rows, ∀ j < x.cols, tileGet a x i j = if i = k then elem (c.rdL n) x.width j else tileGet acc x i j) ∧
      ∀ w, w < x.word ∨ x.word + x.words ≤ w → lookD a w 0 = lookD acc w 0) ∧
    (k < x.cols → c.srcLineIn s.eng o.l = .ok n → ∃ a, exec (.tcolld o) s = becomes s ((c.setAcc o.t.toNat a).advance s.eng) ∧
      (∀ i < x.rows, ∀ j < x.cols, tileGet a x i j = if j = k then elem (c.rdL n) x.width i else tileGet acc x i j) ∧
      ∀ w, w < x.word ∨ x.word + x.words ≤ w → lookD a w 0 = lookD acc w 0) ∧
    (k < x.rows → c.dstLineIn s.eng o.l = .ok n → ∃ l, exec (.trowst o) s = becomes s ((c.wrL n l).advance s.eng) ∧
      ∀ j < 4096 / x.width, elem l x.width j = if j < x.cols then tileGet acc x k j else elem (c.rdL n) x.width j) ∧
    (k < x.cols → c.dstLineIn s.eng o.l = .ok n → ∃ l, exec (.tcolst o) s = becomes s ((c.wrL n l).advance s.eng) ∧
      ∀ i < 4096 / x.width, elem l x.width i = if i < x.rows then tileGet acc x i k else elem (c.rdL n) x.width i)

/-- R151: TLD and TST move a whole tile, one line a row. -/
def Sys2Proof.Says.TileMoves : Prop :=
  ∀ (s : State) (c : Context) (o : TM) (x : Tile) (n : Nat), runs s c → c.tile? o.t.toNat = some x →
    shapeOk (lookD c.mat.tshape o.t.toNat 0) = true → n + x.rows ≤ 64 * c.bind.window →
    (c.srcLine s.eng o.l = .ok n → ∃ a, exec (.tld o) s = becomes s ((c.setAcc o.t.toNat a).advance s.eng) ∧
      (∀ i < x.rows, ∀ j < x.cols, tileGet a x i j = elem (c.rdL (n + i)) x.width j) ∧
      ∀ w, w < x.word ∨ x.word + x.words ≤ w → lookD a w 0 = lookD c.mat.acc w 0) ∧
    (c.dstLine s.eng o.l = .ok n → ∃ c' : Context, exec (.tst o) s = becomes s (c'.advance s.eng) ∧
      (∀ i < x.rows, ∀ j < 4096 / x.width, elem (c'.rdL (n + i)) x.width j =
        if j < x.cols then tileGet c.mat.acc x i j else elem (c.rdL (n + i)) x.width j) ∧
      (∀ m, m < n ∨ n + x.rows ≤ m → c'.rdL m = c.rdL m) ∧ c'.r = c.r ∧ c'.mat = c.mat)

/-- R150, R151: moves between tiles and lines. -/
def Obligations.TileLineMoves : Prop := TileSlices ∧ TileMoves

/-- R152 to R155: OCLAIM claims a free slot and waits while all 64 are claimed, OREL gives it back, OLOAD loads a
claimed one from a tensor; a slot not claimed raises OSLOT. -/
def Obligations.OperandSlots : Prop :=
  ∀ (s : State) (c : Context) (o : TM), runs s c →
    let k := o.o1.toNat
    let others := fun c' : Context => ∀ j, j ≠ k → find? c'.mat.oslots j = find? c.mat.oslots j
    let e := c.tent o.f.toNat
    let q := coordOf (c.rdS s.eng o.s)
    let rd : OReader := ⟨⟨c.bind.lid, c.bind.wid, o.f.toNat, lookD c.tgen o.f.toNat 0⟩, c.who s.cur, c.r.gver, e, false⟩
    ((find? c.mat.oslots k).isSome → exec (.oclaim o) s = passes s c ∧
      ∃ c', exec (.orel o) s = becomes s c' ∧ find? c'.mat.oslots k = none ∧ others c' ∧ c'.r = c.r ∧
        c'.lines = c.lines ∧ c'.mat.acc = c.mat.acc) ∧
    (find? c.mat.oslots k = none → residentUse s (coreOf s.cur) .slots < 64 → ∃ t c', exec (.oclaim o) s = .next t ∧
      t.ctx? s.cur = some c' ∧ find? c'.mat.oslots k = some {} ∧ others c' ∧ c'.r = c.r ∧ c'.lines = c.lines ∧
      t.mem = s.mem) ∧
    (find? c.mat.oslots k = none → 64 ≤ residentUse s (coreOf s.cur) .slots → exec (.oclaim o) s = waits s) ∧
    (find? c.mat.oslots k = none → exec (.orel o) s = traps s c { code := .oslot, arg := k } ∧
      exec (.oload o) s = traps s c { code := .oslot, arg := k }) ∧
    (∀ n m z rows oc, (find? c.mat.oslots k).isSome → klenOf e = some n → e.usable = true → e.coordOk q = true →
      ((e.bfmt = 0 ∧ e.hen = false) ∨ q.k % 32 = 0) →
      ((e.den = false ∧ m = none) ∨ (e.den = true ∧ ∃ d, dupMap s (c.who s.cur) c.r.gver e = .ok d ∧ m = some d)) →
      { rd with look := true }.rows s m q n 16 0 (s.core (coreOf s.cur)).ocache = .ok z →
      rd.rows s m q n 16 0 (s.core (coreOf s.cur)).ocache = .ok (rows, oc) →
      ∃ t c' x, exec (.oload o) s = .next t ∧ t.ctx? s.cur = some c' ∧ find? c'.mat.oslots k = some x ∧
        x.rows = rows ∧ x.rin = rowsInside e q ∧ x.kin = kInside e m q.k ∧
          x.tag = some ⟨if e.bfmt = 0 then e.etype else 16 + e.bfmt, n, e.hen, if e.hen then e.seed else 0⟩ ∧
        others c' ∧ c'.r = c.r ∧ c'.lines = c.lines ∧ t.mem = s.mem)

/-- R145, R158: one K-step adds to every element of the 16 × 16 sub-tile the products of its rows, in one rounding, and
changes no other element of the tile and no word outside it. -/
def Sys2Proof.Says.KStep : Prop :=
  ∀ (p : StepAt) (q : Nat) (acc : Store (BitVec 32)), p.r < p.tile.rt → p.c < p.tile.ct →
    let x := p.tile
    let a := (kstep p q acc).1
    (∀ m < 16, ∀ n < 16, tileGet a x (16 * p.r + m) (16 * p.c + n) =
      (accumulate x.fmt p.h (tileGet acc x (16 * p.r + m) (16 * p.c + n)) (stepVals p.nest p.a.1 p.a.2 m q p.ks)
        (stepVals p.nest p.b.1 p.b.2 n q p.ks)).1 % 2 ^ x.width) ∧
    (∀ i < x.rows, ∀ j < x.cols, i / 16 ≠ p.r ∨ j / 16 ≠ p.c → tileGet a x i j = tileGet acc x i j) ∧
    ∀ w, w < x.word ∨ x.word + x.words ≤ w → lookD a w 0 = lookD acc w 0

/-- R158: the accumulation of the integer classes is exact modulo 2^32 and raises no flag. -/
def Sys2Proof.Says.IntegerAccumulation : Prop :=
  ∀ (acc : Nat) (l : List ((Int × Bool) × Int × Bool)), acc < 2 ^ 32 →
    accumulate .int32 0 acc (l.map fun x => (Val.ofInt x.1.1, x.1.2)) (l.map fun x => (Val.ofInt x.2.1, x.2.2)) =
      (intCode 32 (intOf true 32 acc + (l.map fun x => x.1.1 * x.2.1).sum), 0)

/-- R145, R158: a K-step, and the exactness of the integer classes. -/
def Obligations.Accumulation : Prop := KStep ∧ IntegerAccumulation

/-- An operand slot that is not loaded: not claimed, or claimed and holding no operand (R153, R158). -/
def Sys2Proof.Says.unloaded (c : Context) (k : Nat) : Prop := ∀ x, find? c.mat.oslots k = some x → x.tag = none

/-- A field of level 0's word A, a level's trip count and one of its four signed strides (Table 41). -/
def Sys2Proof.Says.nestField (t : Store Word) (lo w : Nat) : Nat := (lookD t 0 1).toNat / 2 ^ lo % 2 ^ w
def Sys2Proof.Says.nestTrip (t : Store Word) (k : Nat) : Nat := (lookD t (2 * k) 1).toNat % 2 ^ 14
def Sys2Proof.Says.nestStride (t : Store Word) (lo k : Nat) : Int := ((lookD t (2 * k + 1) 0).extractLsb' lo 8).toInt

/-- A start value and its strides at the indices of a step: base + Σ ik·STRk (R160). -/
def Sys2Proof.Says.nestWalk (t : Store Word) (base w lo : Nat) (ix : Nat → Nat) : Int :=
  (nestField t base w : Int) + ((List.range 6).map fun k => (ix k : Int) * nestStride t lo k).sum

/-- The indices of the `n`-th step of a nest, level 0 fastest (R160). -/
def Sys2Proof.Says.stepOf (t : Store Word) (n : Nat) (ix : Nat → Nat) : Prop :=
  (∀ k < 6, ix k < nestTrip t k) ∧
  n = ix 0 + nestTrip t 0 * (ix 1 + nestTrip t 1 * (ix 2 + nestTrip t 2 * (ix 3 + nestTrip t 3 * (ix 4 + nestTrip t 4 * ix 5))))

/-- R160, R324: a running nest has steps left while the step count is below the product of its trips; its next K-step, which the
matrix engine makes at its own program counter, is that of slots OB1 and OB2, and of the sub-tile TRB, TCB, each moved by the
strides of the step's indices; after the last K-step of a step the nest goes to the next one and counts it in STEPS. A tile or a
slot that cannot be read raises ECCU. -/
def Sys2Proof.Says.NestSteps : Prop :=
  ∀ (s : State) (c : Context) (pos : Nat) (ix : Nat → Nat) (t : Tile) (ks a b r k : Nat) (x y : OTag × OSlot) (h : Int),
    s.ctx? pos = some c →
    let tab := c.mat.active
    let q := c.mat.kAt
    let last := x.1.klen / ks ≤ q + 1
    let d := nestKstep c
    let free := c.mat.running = true ∧ c.handler = false ∧ c.halted = false ∧ c.preempting = false ∧ c.pendingFault = none ∧ c.ending = false ∧ c.idle = false
    (nestLeft c = true ↔ c.mat.stepAt < ((List.range 6).map (nestTrip tab)).prod) ∧
    (stepOf tab c.mat.stepAt ix → (a : Int) = nestWalk tab 21 6 0 ix → (b : Int) = nestWalk tab 27 6 8 ix →
      (r : Int) = nestWalk tab 33 3 16 ix → (k : Int) = nestWalk tab 36 3 24 ix →
      (c.tile? (nestField tab 14 3) = some t → classKs (nestField tab 17 4) = some ks →
        pairCheck c (nestField tab 17 4) a b = .ok (x, y, h) →
        let z := kstep ⟨t, r, k, x, y, h, ks, true⟩ q c.mat.acc
        d.mat = { c.mat with
          acc := z.1
          nflags := c.mat.nflags ||| z.2
          kAt := if last then 0 else q + 1
          stepAt := if last then c.mat.stepAt + 1 else c.mat.stepAt
          steps := if last then c.mat.steps + 1 else c.mat.steps } ∧ d.r = c.r ∧ d.lines = c.lines ∧ d.pos = c.pos) ∧
      (free → nestLeft c = true →
        (.tile (nestField tab 14 3) ∉ c.own → .slot a ∉ c.own → .slot b ∉ c.own →
          engineStep s pos .mat = .next (s.setCtx pos (d.passCycles .mat 1))) ∧
        (.tile (nestField tab 14 3) ∈ c.own ∨ .slot a ∈ c.own ∨ .slot b ∈ c.own →
          engineStep s pos .mat = .next (takeTrap s pos c .mat { code := .eccu, eng := some 2, found := some (coreRes pos) }))))

/-- A context after `n` K-steps of its running nest. -/
def Sys2Proof.Says.kStepsFrom : Nat → Context → Context
  | 0, c => c
  | n + 1, c => kStepsFrom n (nestKstep c)

/-- R160: as a nest starts, ZST zeroes its tile, unless the nest is empty, and nothing else; MGO with one program counter makes
every K-step of its nest before it completes. -/
def Sys2Proof.Says.NestStarts : Prop :=
  ∀ (s : State) (c c1 : Context) (t : Tile), runs s c → nestBegin c = .ok c1 →
    let tab := c.mat.shadow
    let zst := nestField tab 39 1 = 1 ∧ ∀ k < 6, nestTrip tab k ≠ 0
    c1.mat.active = tab ∧ c1.mat.stepAt = 0 ∧ c1.mat.kAt = 0 ∧ c1.mat.steps = 0 ∧ c1.mat.nflags = 0 ∧
    (¬ zst → c1.mat.acc = c.mat.acc) ∧
    (zst → c.tile? (nestField tab 14 3) = some t → (∀ i < t.rows, ∀ j < t.cols, tileGet c1.mat.acc t i j = 0) ∧
      ∀ w, w < t.word ∨ t.word + t.words ≤ w → lookD c1.mat.acc w 0 = lookD c.mat.acc w 0) ∧
    (c.together = true → c.mat.go = false → c.mat.running = false → ∀ n ≤ nestFuel c1,
      (∀ k < n, nestLeft (kStepsFrom k c1) = true) → nestLeft (kStepsFrom n c1) = false →
      exec .mgo s = becomes s ((nestFinish (kStepsFrom n c1)).advance s.eng))

/-- R157, R158, R160: TMMA of a checked pair performs KLEN / KS K-steps; a slot that is not loaded raises OSLOT, the first before
the second. A nest whose table is checked starts where MAT stands at its MGO, which CTL has passed, walks its iteration space, and
completes after its last K-step, when its flags merge; with one program counter MGO does all of it. -/
def Sys2Proof.Says.Products : Prop :=
  ∀ (s : State) (c : Context) (o : TM) (x : Tile) (ks : Nat) (a b : OTag × OSlot) (h : Int), runs s c →
    (c.tile? o.t.toNat = some x → x.rt = 1 → x.ct = 1 → classKs o.ty.code = some ks → x.fmt = classTile o.ty.code →
      pairCheck c o.ty.code o.o1.toNat o.o2.toNat = .ok (a, b, h) →
      exec (.tmma o) s = becomes s (((c.setAcc o.t.toNat (ksteps ⟨x, 0, 0, a, b, h, ks, false⟩ (a.1.klen / ks) 0 (c.mat.acc,
        0)).1).addFlags
        (ksteps ⟨x, 0, 0, a, b, h, ks, false⟩ (a.1.klen / ks) 0 (c.mat.acc, 0)).2).advance s.eng)) ∧
    (c.tile? o.t.toNat = some x → classKs o.ty.code = some ks → unloaded c o.o1.toNat →
      exec (.tmma o) s = traps s c { code := .oslot, arg := o.o1.toNat }) ∧
    (c.tile? o.t.toNat = some x → classKs o.ty.code = some ks → ¬ unloaded c o.o1.toNat → unloaded c o.o2.toNat →
      exec (.tmma o) s = traps s c { code := .oslot, arg := o.o2.toNat }) ∧
    (∀ c1, c.together = true → c.mat.go = false → c.mat.running = false →
      nestBegin { c with mat := { c.mat with go := true } } = .ok c1 →
      exec .mgo s = becomes s ((nestFinish (nestRun (nestFuel c1) c1)).advance s.eng)) ∧
    (c.mat.go = true → c.mat.running = false → matAtGo s s.cur c = true →
      (∀ u ∈ nestReads (matNest c.mat.shadow), u ∉ c.own) → nestCheck c (matNest c.mat.shadow) = .ok () → ∃ c',
      exec (.matrixNestStart s.cur) s = becomes s c' ∧ c'.mat.running = true ∧ c'.mat.go = false ∧
      c'.mat.active = c.mat.shadow ∧ c'.mat.shadow = c.mat.shadow ∧ c'.mat.steps = 0 ∧ c'.pos = c.pos ∧ c'.r = c.r ∧
      c'.lines = c.lines) ∧
    (matAtGo s s.cur c = false → exec (.matrixNestStart s.cur) s = .next s) ∧
    (c.mat.running = true → nestLeft c = false → c.still = false → c.handler = false → ∃ c',
      exec (.matrixNestComplete s.cur) s = becomes s c' ∧ c'.mat.running = false ∧ c'.mat.acc = c.mat.acc ∧
      c'.mat.steps = c.mat.steps ∧ c'.r = { c.r with flags := c.r.flags ||| c.mat.nflags } ∧ c'.lines = c.lines ∧
      (c.mat.loose = true → c'.pos = c.pos) ∧
      (c.mat.loose = false → c.together = false → c'.pos = c.pos.set .mat (c.pos.mat.next))) ∧
    (nestLeft c = true ∨ c.still = true ∨ c.handler = true → exec (.matrixNestComplete s.cur) s = .next s)

/-- R157, R158, R160: TMMA, and the nests of the matrix engine. -/
def Obligations.ProductsAndNests : Prop := Products ∧ NestStarts ∧ NestSteps

/-- R162 to R164: TOUT writes every row of the tile to a line: each element with bias and activation, converted, or
quantised in blocks, or ZB-encoded; only lines and flags change. -/
def Obligations.TileOutput : Prop :=
  ∀ (s : State) (c : Context) (o : TM) (x : Tile) (n : Nat) (bf : Option BFmt), runs s c → o.wfTout = true →
    c.tile? o.t.toNat = some x →
    let w := c.rdS s.eng o.s
    let a := toutArgs o w
    let bias := if a.bias then (List.range (4096 / x.width)).map (elem (c.rdL a.bline) x.width) else []
    bitsOf w.toNat 49 15 = 0 → (a.bias = true ∨ a.bline = 0) → (a.qnt = true ∨ a.qx = 0) →
    ¬ (x.fmt = .int32 ∧ 2 ≤ a.act) → x.cols * o.ty.width ≤ 4096 → toutFormat c o a x = .ok bf →
    c.dstLine s.eng o.l = .ok n → n + x.rows ≤ 64 * c.bind.window → (a.bias = true → c.lineOk a.bline = true) →
    ∃ c' : Context, exec (.tout o) s = becomes s (c'.advance s.eng) ∧ c'.mat = c.mat ∧ c'.r.s = c.r.s ∧
      (∀ m, m < n ∨ n + x.rows ≤ m → c'.rdL m = c.rdL m) ∧
      (∀ i < x.rows, c'.rdL (n + i) = (toutLine c o a bf x bias i).1) ∧
      (bf = none → a.zb = false → ∀ i < x.rows, ∀ j < x.cols, elem (c'.rdL (n + i)) o.ty.width j =
        (if x.fmt = .int32 then toutInt c o a x bias i j else toutFp c o a x bias i j).1 % 2 ^ o.ty.width) ∧
      ∀ k < 6, c'.r.flags.getLsbD k = true ↔
        (c.r.flags.getLsbD k = true ∨ ∃ i < x.rows, (toutLine c o a bf x bias i).2.getLsbD k = true)

/-! SPE (spec/07). -/

/-- R168, R170 to R172: the moves of the sum-product engine: a mode, registers to and from lines, register to register
(reading before writing), and clearing; every other register and line stays. -/
def Sys2Proof.Says.SumProductMoves : Prop :=
  ∀ (s : State) (c : Context) (o : SPF) (n : Nat), runs s c →
    let k := o.cnt.toNat + 1
    let a := o.ya.toNat
    let b := o.yb.toNat
    let kept := fun y : Store (BitVec 32) => ∀ j, j < a ∨ a + k ≤ j → lookD y j 0 = lookD c.y j 0
    (o.m.toNat ≤ 3 → exec (.spmode o) s = becomes s ({ c with spmode := o.m.toNat }.advance s.eng)) ∧
    (o.inRange o.ya = true → ∃ y, exec (.spclr o) s = becomes s ((c.setY y).advance s.eng) ∧ kept y ∧
      ∀ i < k, lookD y (a + i) 0 = 0) ∧
    (o.inRange o.ya = true → o.inRange o.yb = true → ∃ y,
      exec (.spmov o) s = becomes s ((c.setY y).advance s.eng) ∧ kept y ∧
      ∀ i < k, lookD y (a + i) 0 = lookD c.y (b + i) 0) ∧
    (o.inRange o.ya = true → n + (if 128 < k then 2 else 1) ≤ 64 * c.bind.window → c.srcLine s.eng o.l = .ok n → ∃ y,
      exec (.spld o) s = becomes s ((c.setY y).advance s.eng) ∧ kept y ∧
      ∀ i < k, (lookD y (a + i) 0).toNat = elem (c.rdL (n + i / 128)) 32 (i % 128)) ∧
    (o.inRange o.ya = true → n + (if 128 < k then 2 else 1) ≤ 64 * c.bind.window → c.dstLine s.eng o.l = .ok n →
      ∃ c' : Context, exec (.spst o) s = becomes s (c'.advance s.eng) ∧ c'.y = c.y ∧ c'.r = c.r ∧
        (∀ i < 256, elem (c'.rdL (n + i / 128)) 32 (i % 128) =
          if i < k then (lookD c.y (a + i) 0).toNat else elem (c.rdL (n + i / 128)) 32 (i % 128)) ∧
        ∀ m, m ≠ n → m ≠ n + 1 → c'.rdL m = c.rdL m)

/-- R174 to R179: SPUP of a record that meets its checks gives every active node the value of its operation on its
children, writes node 6's value to ROOT, changes no register but ROOT and the kept ones, and sets the flags of its
nodes; a record that fails the checks raises their fault. -/
def Sys2Proof.Says.UpwardPass : Prop :=
  ∀ (s : State) (c : Context) (o : SpRec), runs s c →
    let t := o.tree
    let m := c.spmode
    let val := fun vs n => nodeValue t c.y m vs n
    (∀ x, checkRecord t m false = .error (.trap x) → exec (.spup o) s = traps s c x) ∧
    (checkRecord t m false = .ok () → ∃ (y : Store (BitVec 32)) (f : Flags) (vs : NodeVals),
      exec (.spup o) s = becomes s (((c.setY y).addFlags f).advanceRecord s.eng) ∧
      (∀ n < 7, lookD vs n 0 = if treeActive t n then (val vs n).1 else 0) ∧
      yGet y m t.root.toNat = lookD vs 6 0 % 2 ^ (spType m).width ∧
      (∀ k < 6, f.getLsbD k = true ↔ ∃ n < 7, treeActive t n = true ∧ (val vs n).2.getLsbD k = true) ∧
      ∀ j, (∀ d ∈ t.root.toNat :: (treeKeeps t).map (·.1), j ≠ d ∧ j ≠ (d + 1) % 4096) → lookD y j 0 = lookD c.y j 0)

/-- R180: SPDN of a record that meets its checks completes; it changes no register but those of the derivatives of its
leaves and, with weight derivatives on, of its weights. -/
def Sys2Proof.Says.DownwardPass : Prop :=
  ∀ (s : State) (c : Context) (o : SpRec), runs s c →
    let t := o.tree
    let m := c.spmode
    (∀ x, checkRecord t m true = .error (.trap x) → exec (.spdn o) s = traps s c x) ∧
    (checkRecord t m true = .ok () → ∃ (y : Store (BitVec 32)) (f : Flags), (y, f) = spdnEffect t m c.y ∧
      exec (.spdn o) s = becomes s (((c.setY y).addFlags f).advanceRecord s.eng) ∧
      ∀ j, (∀ k < 8, ∀ i < 2, j ≠ ((treeLeaf t k + t.doff.toNat) % 4096 + i) % 4096) →
        (wderiv t = true → ∀ n < 7, ∀ i < 4, j ≠ (treeWgt t n + treeWgt t 7 + i) % 4096) →
        lookD y j 0 = lookD c.y j 0)

/-- R174 to R180: subtree records. -/
def Obligations.SumProductPasses : Prop := UpwardPass ∧ DownwardPass

/-- `z` is the larger of two codes, combined as FMAX: the other operand for a NaN, and -0 below +0 (R98, R181). -/
def Sys2Proof.Says.larger (ty : ElemType) (x y z : Nat) : Prop :=
  let a := valOf ty x
  let b := valOf ty y
  if a.isNan then z = if b.isNan then canonNanOf ty else canonCode ty y
  else if b.isNan ∨ ¬ (cmpVal a b = some .lt ∨ cmpVal a b = some .eq ∧ a.neg? = true ∧ b.neg? = false) then z = canonCode ty x
  else z = canonCode ty y

/-- The balanced pairwise tree of R57 over values in index order: at each level a value without a partner passes on; `f` says what
a pair gives and `d` is the root. -/
def Sys2Proof.Says.treeOf (f : Nat → Nat → Nat → Prop) (vs : List Nat) (d : Nat) : Prop :=
  ∃ lv : Nat → Nat → Nat, (∀ i < vs.length, lv 0 i = vs.getD i 0) ∧ d = lv 8 0 ∧
    ∀ k < 8, ∀ i, i * 2 ^ (k + 1) < vs.length →
      if (2 * i + 1) * 2 ^ k < vs.length then f (lv k (2 * i)) (lv k (2 * i + 1)) (lv (k + 1) i)
      else lv (k + 1) i = lv k (2 * i)

/-- R181: SPNORM divides each value by the divisor: y[YB], or the sum of the values rounded at each node of the tree, or the
greatest of them, which it then writes to y[YB]; one value alone passes. -/
def Sys2Proof.Says.Normalisation : Prop :=
  ∀ (s : State) (c : Context) (o : SPF), runs s c →
    let m := c.spmode
    let ty := spType m
    let n := o.cnt.toNat + 1
    let a := o.ya.toNat
    let b := o.yb.toNat
    let vs := (List.range n).map fun i => yGet c.y m (a + i * spStep m)
    let d := normDivisor o.m.toNat m b c.y vs
    o.m.toNat ≤ 2 → a + n * spStep m ≤ 4096 → (m % 4 = 2 → a % 2 = 0 ∧ b % 2 = 0) →
    ∃ (y : Store (BitVec 32)) (f : Flags), exec (.spnorm o) s = becomes s (((c.setY y).addFlags f).advance s.eng) ∧
      (o.m = 0 → d = (yGet c.y m b, 0)) ∧
      (o.m = 1 → 2 ≤ n →
        treeOf (fun x y z => z = (deliver ty .rne (sumVals .rne [valOf ty x, valOf ty y]).1).1) vs d.1) ∧
      (o.m = 2 → 2 ≤ n → treeOf (larger ty) vs d.1) ∧
      (o.m ≠ 0 → n = 1 → d.1 = let v := yGet c.y m a; if (valOf ty v).isNan then canonNanOf ty else canonCode ty v) ∧
      (o.m ≠ 0 → yGet y m b = d.1 % 2 ^ ty.width) ∧
      (∀ i < n, (o.m = 0 ∨ a + i * spStep m ≠ b) → yGet y m (a + i * spStep m) =
        (deliver ty .rne (divVal (valOf ty (yGet c.y m (a + i * spStep m))) (valOf ty d.1)).1).1 % 2 ^ ty.width) ∧
      ∀ j, j < a ∨ a + n * spStep m ≤ j → (o.m ≠ 0 → j ≠ b ∧ j ≠ (b + 1) % 4096) → lookD y j 0 = lookD c.y j 0

/-- R168, R170 to R172, R181: moves and normalisation of the y registers. -/
def Obligations.SumProductData : Prop := SumProductMoves ∧ Normalisation

/-! SYN: handles, tokens and barriers (R196 to R201, R221 to R223). -/

/-- Slot `i` of a handle lies among the `n` from slot `first` on (R198). -/
def Sys2Proof.Says.amongSlots (count first n i : Nat) : Prop := ∃ j < n, i = (first + j) % count

/-- R196, R197: HCFG records the descriptor of Table 53, or removes it; HSTAT reports a handle. -/
def Sys2Proof.Says.HandleConfiguration : Prop :=
  ∀ (s : State) (c : Context) (o : HcfgOp) (x : HstatOp) (p q : Engine), runs s c → c.releases = [] →
    let v := c.rdS s.eng o.a
    let h := o.h.toNat
    let base := v.toNat % 2 ^ 11
    let size := v.toNat / 2 ^ 11 % 2 ^ 6 + 1
    let count := v.toNat / 2 ^ 17 % 2 ^ 6 + 1
    (v.toNat / 2 ^ 31 = 0 → v.getLsbD 30 = true → Engine.ofCode (v.toNat / 2 ^ 24 % 8) = some p →
      Engine.ofCode (v.toNat / 2 ^ 27 % 8) = some q → isShared c h = false →
      (base + count * size ≤ 64 * c.bind.window → ∃ (c' : Context) (d : Handle), exec (.hcfg o) s = becomes s c' ∧
        c'.handle? h = some d ∧ d.base = base ∧ d.size = size ∧ d.count = count ∧ d.peng = p ∧ d.ceng = q ∧
        d.head = 0 ∧ d.tail = 0 ∧ d.shared = false ∧ d.fillPend = 0 ∧ d.clearPend = 0 ∧
        (∀ i < 64, d.full.getLsbD i = (v.getLsbD 23 && decide (i < count))) ∧
        (∀ k, k ≠ h → c'.handle? k = c.handle? k) ∧ c'.r = c.r ∧ c'.lines = c.lines) ∧
      (64 * c.bind.window < base + count * size → exec (.hcfg o) s = traps s c { code := .hndl })) ∧
    (v = 0 → isShared c h = false → ∃ c' : Context, exec (.hcfg o) s = becomes s c' ∧ c'.handle? h = none ∧
      (∀ k, k ≠ h → c'.handle? k = c.handle? k) ∧ c'.r = c.r ∧ c'.lines = c.lines) ∧
    (c.handle? x.h.toNat = none → exec (.hstat x) s = writes s c x.d 0) ∧
    ∀ d, c.handle? x.h.toNat = some d → d.shared = false → exec (.hstat x) s = writes s c x.d (BitVec.ofNat 64
      (d.head + d.tail * 2 ^ 8 + ((List.range 64).countP fun i => d.full.getLsbD i) * 2 ^ 16 + 2 ^ 32))

/-- R198: the gates of a handle that is not shared: WAITF passes once the next slots are full and WAITE once they are
empty; ADVP and ADVC move the tail or the head at once, and fill or empty the slots, at once under one program counter
and else by a release that is recorded; an unconfigured handle raises HNDL. -/
def Sys2Proof.Says.HandleGates : Prop :=
  ∀ (s : State) (c : Context) (o : GateOp) (d : Handle), runs s c →
    let h := o.h.toNat
    let n := o.n.toNat
    (1 ≤ n → n ≤ 64 → c.handle? h = none → exec (.waitf o) s = traps s c { code := .hndl } ∧
      exec (.waite o) s = traps s c { code := .hndl } ∧ exec (.advc o) s = traps s c { code := .hndl } ∧
      exec (.advp o) s = traps s c { code := .hndl }) ∧
    (1 ≤ n → n ≤ d.count → d.count ≤ 64 → c.handle? h = some d → d.shared = false →
      ((∀ i < 64, amongSlots d.count d.head n i → d.full.getLsbD i = true) → exec (.waitf o) s = passes s c) ∧
      ((∃ i < 64, amongSlots d.count d.head n i ∧ d.full.getLsbD i = false) → exec (.waitf o) s = waits s ∧
        exec (.advc o) s = traps s c { code := .hndl }) ∧
      ((∀ i < 64, amongSlots d.count d.tail n i → d.full.getLsbD i = false) → exec (.waite o) s = passes s c) ∧
      ((∃ i < 64, amongSlots d.count d.tail n i ∧ d.full.getLsbD i = true) → exec (.waite o) s = waits s ∧
        exec (.advp o) s = traps s c { code := .hndl }) ∧
      ((∀ i < 64, amongSlots d.count d.tail n i →
          d.full.getLsbD i = false ∧ d.fillPend.getLsbD i = false ∧ d.clearPend.getLsbD i = false) →
        ∃ t c' d', exec (.advp o) s = .next t ∧ t.ctx? s.cur = some c' ∧ c'.handle? h = some d' ∧
          d'.tail = (d.tail + n) % d.count ∧ d'.head = d.head ∧ c'.r = c.r ∧ c'.lines = c.lines ∧ t.mem = s.mem ∧
          (c.together = true → c'.releases = c.releases ∧
            ∀ i < 64, d'.full.getLsbD i = true ↔ (d.full.getLsbD i = true ∨ amongSlots d.count d.tail n i)) ∧
          (c.together = false → d'.full = d.full ∧ c'.releases = c.releases ++
            [⟨.fill h n d.tail, (c.pos.get s.eng).idx, c.stamp⟩])) ∧
      ((∀ i < 64, amongSlots d.count d.head n i →
          d.full.getLsbD i = true ∧ d.fillPend.getLsbD i = false ∧ d.clearPend.getLsbD i = false) →
        ∃ t c' d', exec (.advc o) s = .next t ∧ t.ctx? s.cur = some c' ∧ c'.handle? h = some d' ∧
          d'.head = (d.head + n) % d.count ∧ d'.tail = d.tail ∧ c'.r = c.r ∧ c'.lines = c.lines ∧ t.mem = s.mem ∧
          (c.together = true → c'.releases = c.releases ∧
            ∀ i < 64, d'.full.getLsbD i = true ↔ (d.full.getLsbD i = true ∧ ¬ amongSlots d.count d.head n i)) ∧
          (c.together = false → d'.full = d.full ∧ c'.releases = c.releases ++
            [⟨.drain h n d.head, (c.pos.get s.eng).idx, c.stamp⟩])))

/-- R196 to R198: handles and their gates. -/
def Obligations.Handles : Prop := HandleConfiguration ∧ HandleGates

/-- R198, R199, R207: a recorded release takes effect: the slots fill or empty, or the tokens arrive; a release of MEM
awaits the reductions before it. -/
def Sys2Proof.Says.Releases : Prop :=
  ∀ (s : State) (c : Context) (h : BitVec 5) (n first i st : Nat) (snd rcv : Engine) (d : Handle) (rest : List Recorded),
    runs s c →
    let before := requestsWhere s c.bind.lid c.bind.wid (· < i)
    (c.releases = ⟨.fill h.toNat n first, i, st⟩ :: rest → c.handle? h.toNat = some d → d.shared = false → d.count ≤ 64 →
      (d.peng = .mem → before = true → exec (.handleFillRelease s.cur h) s = .next s) ∧
      (d.peng ≠ .mem ∨ before = false → ∃ c' d', exec (.handleFillRelease s.cur h) s = becomes s c' ∧ c'.releases = rest ∧
        c'.handle? h.toNat = some d' ∧
        (0 < d.count → ∀ i < 64, d'.full.getLsbD i = true ↔ (d.full.getLsbD i = true ∨ amongSlots d.count first n i)) ∧
        d'.head = d.head ∧ d'.tail = d.tail ∧ c'.r = c.r ∧ c'.lines = c.lines)) ∧
    (c.releases = ⟨.drain h.toNat n first, i, st⟩ :: rest → c.handle? h.toNat = some d → d.shared = false → d.count ≤ 64 →
      d.ceng ≠ .mem ∨ before = false → ∃ c' d', exec (.handleDrainRelease s.cur h) s = becomes s c' ∧ c'.releases = rest ∧
        c'.handle? h.toNat = some d' ∧
        (0 < d.count → ∀ i < 64, d'.full.getLsbD i = true ↔ (d.full.getLsbD i = true ∧ ¬ amongSlots d.count first n i)) ∧
        d'.head = d.head ∧ d'.tail = d.tail ∧ c'.r = c.r ∧ c'.lines = c.lines) ∧
    (c.releases = ⟨.token snd rcv n, i, st⟩ :: rest → snd ≠ .mem ∨ before = false →
      ∃ c', exec (.tokenRelease s.cur snd rcv) s = becomes s c' ∧
      c'.releases = rest ∧ lookD c'.tokens (tokKey snd rcv) 0 = lookD c.tokens (tokKey snd rcv) 0 + n ∧
      c'.r = c.r ∧ c'.lines = c.lines ∧ c'.handles = c.handles) ∧
    (c.releases = [] → exec (.handleFillRelease s.cur h) s = .next s ∧ exec (.handleDrainRelease s.cur h) s = .next s ∧
      exec (.tokenRelease s.cur snd rcv) s = .next s)

/-- R199, R201: TKSEND adds its tokens when they fit, TKWAIT takes them when they are there; else each waits. SBAR of
no stream raises ILLOP and passes otherwise. -/
def Sys2Proof.Says.Tokens : Prop :=
  ∀ (s : State) (c : Context) (o : TokOp) (m : BitVec 3), runs s c →
    let n := o.n.toNat
    let k := tokKey o.snd o.rcv
    let ok := o.snd ≠ o.rcv ∧ 1 ≤ n ∧ n ≤ 15
    let now := lookD c.tokens k 0
    let due := lookD c.tokPend k 0
    (¬ ok → exec (.tksend o) s = traps s c { code := .illop } ∧ exec (.tkwait o) s = traps s c { code := .illop }) ∧
    (ok → now + due + n ≤ 15 → ∃ t c', exec (.tksend o) s = .next t ∧ t = s.setCtx s.cur c' ∧ c'.r = c.r ∧
      (c.together = true → lookD c'.tokens k 0 = now + n ∧ c'.releases = c.releases) ∧
      (c.together = false → lookD c'.tokens k 0 = now ∧ lookD c'.tokPend k 0 = due + n ∧
        c'.releases = c.releases ++ [⟨.token o.snd o.rcv n, (c.pos.get o.snd).idx, c.stamp⟩])) ∧
    (ok → 15 < now + due + n → exec (.tksend o) s = waits s) ∧
    (ok → n ≤ now → ∃ c', exec (.tkwait o) s = becomes s c' ∧ lookD c'.tokens k 0 = now - n ∧ c'.r = c.r ∧
      (∀ j, j ≠ k → lookD c'.tokens j 0 = lookD c.tokens j 0)) ∧
    (ok → now < n → exec (.tkwait o) s = waits s) ∧
    (m = 0 → exec (.sbar m) s = traps s c { code := .illop }) ∧
    (m ≠ 0 → exec (.sbar m) s = passes s c)

/-- R198, R199, R201: recorded releases, tokens and SBAR. -/
def Obligations.ReleasesAndTokens : Prop := Releases ∧ Tokens

/-- R221 to R223: BAR and PHASE count the arrival and wait for the group, a group of one going on at once; an arrival
above the team level leaves as a request that adds 1 to its arrival word, and is counted in its group's total when it is
performed; the barrier that is complete lets its waiting members go on, a phase after the new phase's number, team and s3. -/
def Obligations.BarriersAndPhases : Prop :=
  ∀ (s : State) (c : Context) (k : BitVec 3) (l : Launch), runs s c → s.launch? c.bind.lid = some l →
    let lid := c.bind.lid
    let ready := c.barWait = none ∧ c.releases = [] ∧ requestsOut s lid c.bind.wid = false
    (7 ≤ k.toNat + 1 → exec (.bar k) s = traps s c { code := .illop }) ∧
    (k.toNat < 6 → ready → ∃ t c', exec (.bar k) s = .next t ∧ t.ctx? s.cur = some c' ∧ t.mem = s.mem ∧
      lookD c'.barCount k.toNat 0 = lookD c.barCount k.toNat 0 + 1 ∧ c'.r = c.r ∧ c'.lines = c.lines ∧
      (2 ≤ groupSize l.hdr l.pext k.toNat → c'.barWait = some k.toNat ∧ c'.pos = c.pos ∧
        (barAbove l k.toNat = false → t = s.setCtx s.cur c') ∧
        (barAbove l k.toNat = true → ∃ q, find? t.reqs s.m.nextReq = some q ∧ q.asker = .arrival lid c.bind.wid k.toNat ∧
          q.aop = .add ∧ q.b = 1 ∧ q.word = some (barKey lid k.toNat (barGroup l c.bind.wid k.toNat),
            wordKey lid k.toNat (barGroup l c.bind.wid k.toNat) (dieOf s.cur)))) ∧
      (groupSize l.hdr l.pext k.toNat ≤ 1 → c'.barWait = none ∧ c'.pos = (c.advance s.eng).pos ∧
        t = s.setCtx s.cur c')) ∧
    (l.phase < hdrAt l.hdr 6 1 → ready → ∃ t c', exec .phase s = .next t ∧ t.ctx? s.cur = some c' ∧
      (2 ≤ taskCount l.hdr l.pext → c'.barWait = some 6 ∧ c'.r = c.r ∧ c'.pos = c.pos ∧ t.launch? lid = some l) ∧
      (taskCount l.hdr l.pext ≤ 1 → c'.barWait = none ∧ c'.bind.phase = l.phase + 1 ∧
        (∃ l', t.launch? lid = some l' ∧ l'.phase = l.phase + 1))) ∧
    (hdrAt l.hdr 6 1 ≤ l.phase → c.barWait = none → exec .phase s = traps s c { code := .illop }) ∧
    (∀ n i q total word, s.reqs.find? (fun e => carriesArrival s lid c.bind.wid e.2) = some (i, q) →
      find? s.reqs i = some q → q.asker = .arrival lid c.bind.wid n → q.word = some (total, word) → q.red = true →
        q.ext = false → q.back = none → ∃ t,
      exec (.barrierArrivalAdd s.cur) s = .next t ∧ t.ctx? s.cur = some c ∧ find? t.reqs i = none ∧
      lookD t.arrivals total 0 = lookD s.arrivals total 0 + q.b ∧
      lookD t.arrWords word 0 = lookD s.arrWords word 0 + q.b ∧ t.mem = s.mem) ∧
    (s.reqs.find? (fun e => carriesArrival s lid c.bind.wid e.2) = none → exec (.barrierArrivalAdd s.cur) s = .next s) ∧
    (∀ n m g, n < 6 → c.barWait = some n → g = barGroup l c.bind.wid n → barTarget? s l lid n g = some m →
      (barDone s l lid n g m = true → ∃ t, exec (.barrierComplete lid n g) s = .next t ∧
        t.ctx? s.cur = some c.leaveBar ∧ t.mem = s.mem) ∧
      (barDone s l lid n g m = false → exec (.barrierComplete lid n g) s = .next s)) ∧
    (∀ m, c.barWait = some 6 → barTarget? s l lid 6 0 = some m →
      (barDone s l lid 6 0 m = true → ∃ t c' l', exec (.phaseComplete lid) s = .next t ∧ t.ctx? s.cur = some c' ∧
        c'.barWait = none ∧ c'.bind.phase = l.phase + 1 ∧ t.launch? lid = some l' ∧ l'.phase = l.phase + 1 ∧
        (c.handler = false → c'.rdS .ctl 3 = BitVec.ofNat 64 (c'.bind.tidx + c'.bind.tsize * 2 ^ 32) ∨ c'.owed ≠ [])) ∧
      (barDone s l lid 6 0 m = false → exec (.phaseComplete lid) s = .next s))

/-! Atomics and ordering (spec/12). -/

/-- R188, R275 to R278: ATOM's request leaves and the context stays at its slot until the reply; RED's leaves, and the context goes
on, but with one program counter stays until it is performed (that the request leaves there too is the model's choice, log 42);
no byte changes yet. Performed on its own die, the request applies the operation to its location, of which no other byte changes,
and ATOM's register takes the old value. -/
def Obligations.FetchAndOperate : Prop :=
  ∀ (s : State) (c : Context) (o : MA) (ps : List Part), runs s c →
    let w := aopWidth o.w64
    let a := (c.rdS s.eng o.a).toNat
    let x := s.mem.readN (partLoc ps) (w / 8)
    let b := (c.rdS s.eng o.b).toNat % 2 ^ w
    let cmp := (c.rdS s.eng o.c).toNat % 2 ^ w
    let did := fun (t : State) (z : Nat) => t.mem.readN (partLoc ps) (w / 8) = aopNew o.aop o.w64 x b z % 2 ^ w ∧
      ∀ l, l < partLoc ps ∨ partLoc ps + w / 8 ≤ l → t.mem.read l = s.mem.read l
    let q := ctxReq s c o false s.eng a (partLoc ps) b cmp
    let r := ctxReq s c o true s.eng a (partLoc ps) b 0
    let leaves := fun (i : Instr) (p : Req) (c' : Context) => ∃ t, exec i s = .next t ∧ t.mem = s.mem ∧ t.ctx? s.cur = some c' ∧
      find? t.reqs s.m.nextReq = some p
    atomCheck s c o a = .ok ps →
    (o.aop = .cas ∨ o.c = 0 → atomOut s c = false → hasSent s c s.eng = false → roomFor s q = true → leaves (.atom o) q c) ∧
    (o.aop = .cas ∨ o.c = 0 → atomOut s c = true ∨ hasSent s c s.eng = true → exec (.atom o) s = waits s) ∧
    (o.aop ≠ .cas → o.c = 0 → o.d = 0 → hasSent s c s.eng = false → roomFor s r = true →
      leaves (.red o) r (if c.together then c else c.advance s.eng)) ∧
    (o.aop ≠ .cas → o.c = 0 → o.d = 0 → hasSent s c s.eng = true → exec (.red o) s = waits s) ∧
    (o.aop = .cas ∨ o.c ≠ 0 ∨ o.d ≠ 0 → exec (.red o) s = traps s c { code := .illop }) ∧
    ∀ i, isBad s (partLoc ps) = false → q.remote = false →
      (find? s.reqs i = some q → heldBehind s [i] (i, q) = false → ∃ t, exec (.atomicAtHome i) s = .next t ∧ did t cmp ∧
        find? t.reqs i = none ∧
        t.ctx? s.cur = some (atomDone c o.d x)) ∧
      (find? s.reqs i = some r → heldBehind s [i] (i, r) = false → ∃ t, exec (.atomicAtHome i) s = .next t ∧ did t 0 ∧
        find? t.reqs i = none ∧
        t.ctx? s.cur = some (c.redPassed (c.posOf s.eng).idx))

/-- R264, R276 to R278, R281, R282, R342, R377: a request that nothing on its way goes before is performed at its home; on one die
its reply reaches the ATOM's register and MEM's place at once, and over a circuit it travels back first; where the word is
uncorrectable, a RED's error is kept; two matching requests that may meet become one whose operand is the combination, and which
leaves a gateway or a relay with the number of the port's router (elsewhere its number is the model's choice, log 46); the reply of
one that was combined, which waits until it can go on to both, goes to the first, and the value it would have left to the second. -/
def Sys2Proof.Says.RequestsOnTheirWay : Prop :=
  ∀ (s : State) (i j : Nat) (p q : Req), find? s.reqs i = some p →
    let n := aopWidth p.w64 / 8
    let old := s.mem.readN p.loc n
    let free := reqMoves s p = true ∧ heldBehind s [i] (i, p) = false
    let plain := free ∧ p.word = none ∧ p.ext = false ∧ p.back = none
    let did := fun (t : State) => t.mem.readN p.loc n = aopNew p.aop p.w64 old p.b p.c % 2 ^ aopWidth p.w64
    (∀ pos c d slot addr idx, plain → isBad s p.loc = false → p.red = false → reqCirc? s p = none →
      p.asker = .ctx c.bind.lid c.bind.wid d false slot addr idx → s.ctx? pos = some c →
      ∃ t, exec (.atomicAtHome i) s = .next t ∧ find? t.reqs i = none ∧ t.ctx? pos = some (atomDone c d old) ∧ did t) ∧
    (∀ k lid wid d slot addr idx, plain → isBad s p.loc = false → p.red = false → reqCirc? s p = some k →
      p.asker = .ctx lid wid d false slot addr idx →
      ∃ t, exec (.atomicAtHome i) s = .next t ∧ find? t.reqs i = some { p with back := some old } ∧ t.ctxs = s.ctxs ∧ did t) ∧
    (∀ x pos c d slot addr idx, p.back = some x → reqMoves s p = true →
      p.asker = .ctx c.bind.lid c.bind.wid d false slot addr idx → s.ctx? pos = some c →
      ∃ t, exec (.atomicAtHome i) s = .next t ∧ find? t.reqs i = none ∧ t.ctx? pos = some (atomDone c d x) ∧ t.mem = s.mem) ∧
    (∀ pos c d slot addr idx, plain → isBad s p.loc = true →
      p.asker = .ctx c.bind.lid c.bind.wid d true slot addr idx → s.ctx? pos = some c →
      ∃ t, exec (.atomicAtHome i) s = .next t ∧ find? t.reqs i = none ∧ t.mem = s.mem ∧
        t.ctx? pos = some ({ c with redErrs := c.redErrs ++ [({ slot := slot, addr := addr } : RedErr)] }.redPassed idx)) ∧
    (reqMoves s p = false ∨ p.back = none ∧ heldBehind s [i] (i, p) = true → exec (.atomicAtHome i) s = .next s) ∧
    (∀ r, i ≠ j → find? s.reqs j = some q → matching p q = true → mayMeet s r p q = true →
      precedes s q p = false → heldBehind s [i, j] (i, p) = false → heldBehind s [i, j] (j, q) = false →
      (s.parts.filter fun e => e.2.router == r && !(e.2.p.red && e.2.q.red)).length < partingRoom r →
      (∀ x, alloyed s r s.m.nextReq p q = x → x.requester = p.requester ∨ x.requester = q.requester ∨ roomFor s x = true) →
      ∃ t x, exec (.alloy r i j) s = .next t ∧ find? t.reqs (s.m.nextReq + 1) = some x ∧ x.b = aopNew p.aop p.w64 p.b q.b 0 ∧
        x.loc = p.loc ∧ x.aop = p.aop ∧ x.red = (p.red && q.red) ∧ x.asker = .entry s.m.nextReq ∧
        (1024 ≤ r → x.requester = requesterOf s ((r - 1024) / 8) (40 + (r - 1024) % 8 / 2) 0) ∧
        (r < 1024 → leavePorts s p (r / 64) = [] →
          x.requester = (if p.remote = false ∧ q.remote = true then q else p).requester) ∧
        x.rem = (p.remote || q.remote) ∧
        find? t.parts s.m.nextReq = some ⟨r, p, q, none⟩ ∧ t.mem = s.mem ∧ t.ctxs = s.ctxs) ∧
    (∀ n e v, find? s.parts n = some e → e.reply = some v →
      let goesOn := fun (x : Req) => x.red = true ∨ x.requester % 16 = (bufferSite e.router).1 ∨ reqMoves s x = true
      (e.p.red = false → e.q.red = false → goesOn e.p → goesOn e.q →
        exec (.part n) s = .next (deliverReply (deliverReply { s with parts := del s.parts n } e.p.asker v) e.q.asker
          (if e.p.aop = .swap then e.p.b else aopNew e.p.aop e.p.w64 v e.p.b 0))) ∧
      (¬ goesOn e.p ∨ ¬ goesOn e.q → exec (.part n) s = .next s))

/-- R281, R282: a combined integer request leaves the memory word as the two would one after the other, and the value
its second half is given is the word as the first leaves it. -/
def Sys2Proof.Says.CombiningIsInOrder : Prop :=
  ∀ (op : Aop) (w64 : Bool) (x a b : Nat), op ≠ .cas → op ≠ .fadd →
    x < 2 ^ aopWidth w64 → a < 2 ^ aopWidth w64 → b < 2 ^ aopWidth w64 →
    aopNew op w64 x (combine op w64 a b) 0 = aopNew op w64 (aopNew op w64 x a 0) b 0 ∧
    (if op = .swap then a else combine op w64 x a) = aopNew op w64 x a 0

/-- R276, R278, R281, R282: requests on their way, and combining. -/
def Obligations.Combining : Prop := RequestsOnTheirWay ∧ CombiningIsInOrder

/-- R274, R277: FENCE passes once the requests it covers are back, ACQ once no ATOM is out; else it waits; an
uncorrectable error of an earlier RED is raised by the first FENCE that is not ACQ. -/
def Obligations.Fences : Prop :=
  ∀ (s : State) (c : Context) (o : FenceOp), runs s c →
    (o.scope ≠ .circ → o.circ ≠ 0 → exec (.fence o) s = traps s c { code := .illop }) ∧
    (o.scope = .circ ∨ o.circ = 0 →
      (o.kind = .acq → atomOut s c = false → exec (.fence o) s = passes s c) ∧
      (o.kind = .acq → atomOut s c = true → exec (.fence o) s = waits s) ∧
      (o.kind ≠ .acq → c.redErrs = [] → requestsOut s c.bind.lid c.bind.wid = false → o.scope ≠ .circ →
        exec (.fence o) s = passes s c) ∧
      (o.kind ≠ .acq → c.redErrs = [] → requestsOut s c.bind.lid c.bind.wid = true → o.scope ≠ .circ →
        exec (.fence o) s = waits s) ∧
      (o.kind ≠ .acq → c.redErrs = [] → o.scope = .circ → requestsOver s c s.cur o.circ.toNat = false →
        exec (.fence o) s = passes s c) ∧
      ∀ r rest, o.kind ≠ .acq → c.redErrs = r :: rest → exec (.fence o) s = .next (takeTrap s s.cur
        { c with redErrs := rest } s.eng { code := .eccu, eng := some 4, addr := r.addr, slot := some r.slot }))

/-! The fabric (spec/16, spec/20). -/

/-- R360 to R363: FSTEP counts a die's arrival at a step to come, CSTAT reports a circuit the launch holds, CWAIT passes
on a live circuit, waits on one that may become live and raises NOCIRC on one that will not, and FHINT records a hint. -/
def Obligations.FabricInstructions : Prop :=
  ∀ (s : State) (c : Context) (a : Reg) (o : CstatOp) (h : BitVec 8), runs s c →
    let lid := c.bind.lid
    let v := (c.rdS s.eng a).toNat
    let k := s.circuit h.toNat
    (v = 0 ∨ 2 ^ 32 ≤ v → exec (.fstep a) s = traps s c { code := .illop }) ∧
    (0 < v → v < 2 ^ 32 → progOf? s lid = none → exec (.fstep a) s = passes s c) ∧
    (∀ p, 0 < v → v < 2 ^ 32 → progOf? s lid = some p →
      let n := stepKey (dieOf s.cur) v
      let room := lookD p.counts n 0 ≠ 0 ∨ (p.counts.filter fun e => e.1 / 2 ^ 32 == dieOf s.cur).length < 16
      (v ≤ p.stepNo → exec (.fstep a) s = passes s c) ∧
      (p.stepNo < v → room → ∃ t p', exec (.fstep a) s = .next t ∧ t.ctx? s.cur = some (c.advance s.eng) ∧
        progOf? t lid = some p' ∧ lookD p'.counts n 0 = min 255 (lookD p.counts n 0 + 1) ∧
        (∀ j, j ≠ n → lookD p'.counts j 0 = lookD p.counts j 0) ∧ p'.pc = p.pc ∧ t.mem = s.mem) ∧
      (p.stepNo < v → ¬ room → exec (.fstep a) s = waits s)) ∧
    (holds s lid o.c.toNat = true → exec (.cstat o) s = writes s c o.d (BitVec.ofNat 64 (cstatWord s (s.circuit o.c.toNat)))) ∧
    (holds s lid o.c.toNat = false → exec (.cstat o) s = writes s c o.d 0) ∧
    (∀ p, progOf? s lid = some p → establishes p h.toNat = true → holds s lid h.toNat = true →
      (k.state = .live → exec (.cwait h) s = becomes s { c.advance s.eng with cwaiting := none }) ∧
      (k.state = .lost → exec (.cwait h) s = traps s c { code := .nocirc, circ := h.toNat }) ∧
      (k.state ≠ .live → k.state ≠ .lost → exec (.cwait h) s = becomes s { c with cwaiting := some h.toNat })) ∧
    (holds s lid h.toNat = false → exec (.cwait h) s = traps s c { code := .nocirc, circ := h.toNat }) ∧
    (2 ^ 60 ≤ v → exec (.fhint a) s = traps s c { code := .illop }) ∧
    (∀ l, v < 2 ^ 60 → s.launch? lid = some l → ∃ t l', exec (.fhint a) s = .next t ∧
      t.ctx? s.cur = some (c.advance s.eng) ∧ t.launch? lid = some l' ∧
      lookD l'.hints (v / 2 ^ 57) 0 = (if v / 2 ^ 32 % 2 ^ 24 = 0 then 0 else BitVec.ofNat 64 (v % 2 ^ 57)) ∧
      (∀ j, j ≠ v / 2 ^ 57 → lookD l'.hints j 0 = lookD l.hints j 0) ∧ t.mem = s.mem)

/-- R351 to R353: the sequencer's operations on circuits and on the program (which accesses a SIGNAL's word makes, and that one
that does not translate is not written, are the model's choices, logs 15 and 21, and so is an EST's wait for room, log 64), when nothing delays them: the program goes to
its next operation, EST, TEAR and LMOVE change circuits the launch holds, HOLD, GAP, VECT and RETRY leave what they say, SIGNAL
writes its word or waits until it can, STEP opens a step, which issues once its counts are complete, and DONE ends its program
or routine and every GAP; after the main program's DONE only routines go on. -/
def Obligations.SequencerOperations : Prop :=
  ∀ (s : State) (p : CProg) (e : EstOp) (c : BitVec 8) (m : LmoveOp) (g : GapOp) (v : VectOp) (r : RetryOp)
    (a : BitVec 56) (o : StepOp), progOf? s s.curLid = some p →
    let lid := s.curLid
    let ready := p.ended = false ∧ p.opened = none ∧ holdOpen s (match p.routine with | some _ => p.rheld | none => p.held) = true
    let k := s.circuit c.toNat
    let goes := fun (i : Instr) (q : CProg) (good : State → Prop) => ∃ t, exec i s = .next t ∧ progOf? t lid = some q ∧
      t.ctxs = s.ctxs ∧ good t
    (ready →
      (holds s lid e.c.toNat = true → (s.circuit e.c.toNat).state = .idle ∨ (s.circuit e.c.toNat).state = .lost →
        estFits s e = true → banksReady s e.c.toNat = true → (e.x = true → (lookD s.links (linkOf e) {}).drain = false) →
        goes (.est e) p.advance fun t => (t.circuit e.c.toNat).state = .settling ∧ (t.circuit e.c.toNat).est = some e ∧
          (t.circuit e.c.toNat).groups = e.wg ∧ (t.circuit e.c.toNat).lid = lid ∧ t.mem = s.mem) ∧
      (estFits s e = false ∨ banksReady s e.c.toNat = false ∨ e.x = true ∧ (lookD s.links (linkOf e) {}).drain = true →
        exec (.est e) s = .next s) ∧
      (holds s lid c.toNat = true → goes (.tear c) p.advance fun t =>
        (k.state = .live ∨ k.state = .settling → (t.circuit c.toNat).state = .draining) ∧
        (k.state = .recovering → (t.circuit c.toNat).state = .recovering ∧ (t.circuit c.toNat).tearPend = true) ∧
        (k.state = .lost → (t.circuit c.toNat).state = .idle) ∧ t.mem = s.mem) ∧
      (p.routine = none → stepOver p.advance = false →
        goes (.hold c) { p.advance with held := some c.toNat } fun t => t.mem = s.mem) ∧
      (lmoveOk (s.circuit m.cf.toNat) (s.circuit m.ct.toNat) m = true → holds s lid m.cf.toNat = true →
        holds s lid m.ct.toNat = true → goes (.lmove m) p.advance fun t =>
          (t.circuit m.cf.toNat).groups = (s.circuit m.cf.toNat).groups &&& ~~~m.mg ∧
          (t.circuit m.ct.toNat).groups = (s.circuit m.ct.toNat).groups ||| m.mg ∧
          (t.circuit m.cf.toNat).state = .live ∧ (t.circuit m.ct.toNat).state = .live ∧ t.mem = s.mem) ∧
      goes (.gap g) { p.advance with gaps := p.gaps ++ [g] } (fun t => t.mem = s.mem) ∧
      (v.all = true → goes (.vect v) { p.advance with vectAll := some v.t.toNat } fun t => t.mem = s.mem) ∧
      (v.all = false → goes (.vect v) { p.advance with vects := put p.advance.vects v.c.toNat v.t.toNat } fun t =>
        t.mem = s.mem) ∧
      goes (.retry r) p.advance (fun t => t.mem = s.mem ∧
        ∀ x, holds s lid r.c.toNat = true → (s.circuit r.c.toNat).state = .recovering →
          (s.circuit r.c.toNat).recovery = some x →
          (t.circuit r.c.toNat).recovery = some { x with retry := some r, tries := 0 }) ∧
      (∀ l, s.launch? lid = some l →
        let w := writeMem s (firmware lid l.root) 0 plainW 8 (a.toNat / 8 * 8) 8 (p.cur + p.here * 2 ^ 32)
        (w = .error .wait → exec (.signal a) s = .next s) ∧
        (∀ u, w = .ok u → goes (.signal a) p.advance fun t => t.mem = u.mem) ∧
        (∀ x, w = .error (.trap x) → goes (.signal a) p.advance fun t => t.mem = s.mem)) ∧
      goes (.seqStep o) { p with opened := some o } (fun t => t.mem = s.mem) ∧
      (p.routine = none → goes .seqDone { p with ended := true, gaps := [] } fun t => t.mem = s.mem) ∧
      (∀ n, p.routine = some n → goes .seqDone { p with routine := none, rheld := none, gaps := [] } fun t => t.mem = s.mem)) ∧
    (p.ended = true → p.routine = none → exec (.est e) s = .next s ∧ exec (.tear c) s = .next s ∧ exec (.lmove m) s = .next s ∧
      exec (.signal a) s = .next s ∧ exec .seqDone s = .next s) ∧
    (p.opened = some o → p.routine = none →
      (countsDone p o = true → ∃ t q, exec (.stepIssue lid) s = .next t ∧ progOf? t lid = some q ∧ q.opened = none ∧
        q.cur = o.s.toNat ∧ q.pc = p.pc + 1 ∧ q.gaps = [] ∧ t.ctxs = s.ctxs ∧ t.mem = s.mem) ∧
      (countsDone p o = false → exec (.stepIssue lid) s = .next s))

/-- R345, R346, R352 to R354, R379, R391: what happens to a circuit: its settling ends, which leaves it LIVE inside the package, and
an external one once its link is UP and its partner has settled and names as many groups, its drain completes or passes its
bound, a fault is reported, a recovery attempt ends, the standby sequencer takes over, and outstanding requests are
settled by receipt or by the firmware. -/
def Obligations.CircuitEvents : Prop :=
  ∀ (s : State) (c : BitVec 8) (die : BitVec 4) (port : BitVec 3) (wave : BitVec 6) (sub : OptSub) (pos : Nat) (x : Context),
    let n := c.toNat
    let k := s.circuit n
    let turns := fun (i : Instr) (st : CState) => ∃ t, exec i s = .next t ∧ (t.circuit n).state = st ∧ t.mem = s.mem
    (∀ o, k.state = .settling → k.lid ≠ 0 → k.est = some o →
      let meets := (lookD s.links (linkOf o) {}).up = true ∧
        ∃ y, find? s.partners (linkPosOf o) = some y ∧ y.settled = true ∧ groupCount y.groups = groupCount o.wg
      (o.x = false ∨ meets → turns (.settleElapsed c) .live) ∧
      (o.x = true → ¬ meets → turns (.settleElapsed c) .settling)) ∧
    (k.state ≠ .settling → exec (.settleElapsed c) s = .next s) ∧
    (k.state = .draining → cardsOn s k.lid n = [] → requestsOn s n = false → heldByLinkset s k = false →
      turns (.drainComplete c) .idle) ∧
    (k.state = .draining → (cardsOn s k.lid n ≠ [] ∨ requestsOn s n = true) → exec (.drainComplete c) s = .next s) ∧
    (k.state = .draining → heldByLinkset s k = false → turns (.drainBoundExpiry c) .idle) ∧
    (k.state ≠ .draining → exec (.drainBoundExpiry c) s = .next s) ∧
    (k.state = .live → k.lid ≠ 0 → ∃ t y, exec (.opticalFaultReport c die port wave sub) s = .next t ∧
      (t.circuit n).state = .recovering ∧ (t.circuit n).fcnt = min 255 (k.fcnt + 1) ∧ (t.circuit n).recovery = some y ∧
      y.first = sub ∧ t.mem = s.mem ∧
      (s.ctx? pos = some x → x.bind.lid = k.lid → x.cwaiting = some n → ∃ x', t.ctx? pos = some x' ∧
        x'.r.frep.getLsbD 63 = true ∧ x'.idle = false ∧ x'.r.frep.toNat % 256 = n ∧ (x.idle = false → x'.pos = x.pos)) ∧
      (progOf? s k.lid = none → y.retry = some (defaultRetry n)) ∧
      ∀ p r, progOf? s k.lid = some p → vectorOf? p n = some r →
        ∃ p', progOf? t k.lid = some p' ∧ p'.due = p.due ++ [r]) ∧
    (k.state = .idle ∨ k.state = .lost → exec (.opticalFaultReport c die port wave sub) s = .next s) ∧
    (∀ r, k.state = .recovering → k.recovery = some r → r.planned = true →
      (k.est.all (linkUp s) = true → k.tearPend = true → turns (.recoveryAttemptEnd c true) .draining) ∧
      exec (.recoveryAttemptEnd c false) s = .next s) ∧
    (∀ r o, k.state = .recovering → k.recovery = some r → r.retry = some o → r.planned = false →
      (∀ e, choicesOf o.mode r.first ≠ [] → k.tearPend = false → k.est = some e → e.x = false →
        turns (.recoveryAttemptEnd c true) .live) ∧
      (choicesOf o.mode r.first ≠ [] → k.est.all (linkUp s) = true → k.tearPend = true →
        turns (.recoveryAttemptEnd c true) .draining) ∧
      (o.limit.toNat ≤ r.tries + 1 → k.tearPend = false → turns (.recoveryAttemptEnd c false) .lost) ∧
      (o.limit.toNat ≤ r.tries + 1 → k.tearPend = true → turns (.recoveryAttemptEnd c false) .idle) ∧
      (r.tries + 1 < o.limit.toNat → exec (.recoveryAttemptEnd c false) s =
        .next (s.setCircuit n { k with recovery := some { r with tries := r.tries + 1 } }))) ∧
    exec .sequencerFailover s = .next { s with m := { s.m with standby := !s.m.standby } } ∧
    (∀ i q lid d slot addr idx, (s.reqs.filter fun e => onCirc s n e.2) = [(i, q)] → q.red = false →
      (∀ e ∈ s.parts, e.2.reply = none ∨ onCirc s n e.2.p = false ∧ onCirc s n e.2.q = false) →
      q.back ≠ none ∨ heldBehind s [i] (i, q) = false →
      q.asker = .ctx lid x.bind.wid d false slot addr idx → lid = x.bind.lid → s.ctx? pos = some x →
      (∀ y v, findReceipt? s q = some y → y.old = some v →
        let told := fun (i' : Instr) => ∃ t, exec i' s = .next t ∧ find? t.reqs i = none ∧ t.ctx? pos = some (atomDone x d v) ∧
          t.mem = s.mem
        (carries s n = true → q.ask = true → told (.receiptQuery c)) ∧
        (k.state = .lost ∨ k.state = .idle → told (.lostCircuitSettle c))) ∧
      (findReceipt? s q = none →
        (carries s n = true → q.ask = true → ∃ t, exec (.receiptQuery c) s = .next t ∧
          find? t.reqs i = some { q with ask := false } ∧ t.ctxs = s.ctxs ∧ t.mem = s.mem) ∧
        (k.state = .lost ∨ k.state = .idle → find? s.reqs i = some q → q.word = none → q.ext = false → q.back = none →
          isBad s q.loc = false → ∃ t, exec (.lostCircuitSettle c) s = .next t ∧ find? t.reqs i = none ∧
          t.ctx? pos = some (atomDone x d (s.mem.readN q.loc (aopWidth q.w64 / 8))) ∧
          t.mem.readN q.loc (aopWidth q.w64 / 8) = aopNew q.aop q.w64 (s.mem.readN q.loc (aopWidth q.w64 / 8)) q.b q.c %
            2 ^ aopWidth q.w64)) ∧
      (carries s n = false → exec (.receiptQuery c) s = .next s) ∧
      (k.state = .live → exec (.lostCircuitSettle c) s = .next s))

/-- R355 to R357: a port retrains inside a window, or one group at a time; a receiver whose buffer is half full sends PAUSE, which
stops the hop's sender until RESUME comes at 48 KiB of room (how fast a receiver takes frames out is free, log 55); a frame that the
hop's sender has sent, and whose tag holds, advances the flit counter of its direction, takes room, and is kept decrypted by a relay
to be sent on; one whose tag fails is reported and discarded. -/
def Sys2Proof.Says.Hops : Prop :=
  ∀ (s : State) (die port group hop n : Nat) (c : BitVec 8) (d : Bool) (body : List Byte) (tag : BitVec 128) (o : EstOp),
    let k := portKey die port * 8 + group % 8
    let h := hopKey c.toNat hop d
    let inst := (s.circuit c.toNat).inst
    let kept := lookD s.relayed h []
    let gives := fun (i : Instr) (t : State) => exec i s = .next t
    let alone := ∀ e ∈ s.retraining, e.1 / 8 ≠ portKey die port
    let arrives := (s.circuit c.toNat).est = some o ∧ o.c = c ∧ carries s c.toNat = true ∧ hasHop o hop = true ∧
      body.length = 64 * n ∧ 1 ≤ n ∧ n ≤ 16
    let sent := relayedHop o hop d = false ∨ ∃ f r, kept = f :: r ∧ hopCrypt s o inst hop d f = body
    (find? s.retraining k = none → portOpen s die port = true ∨ alone →
      gives (.groupRetrain die port group) { s with retraining := put s.retraining k () }) ∧
    (find? s.retraining k = none → portOpen s die port = false → ¬ alone → gives (.groupRetrain die port group) s) ∧
    (find? s.retraining k = some () → gives (.groupRetrain die port group) { s with retraining := del s.retraining k }) ∧
    (∃ t, gives (.pause c hop d) t ∧ find? t.paused h = (if 32768 ≤ rxHeld s h then some () else find? s.paused h) ∧
      t.flits = s.flits ∧ t.mem = s.mem) ∧
    (∃ t, gives (.resumeSymbol c hop d) t ∧ find? t.paused h = (if rxHeld s h ≤ 16384 then none else find? s.paused h) ∧
      t.flits = s.flits ∧ t.mem = s.mem) ∧
    (arrives → find? s.paused h = none → rxHeld s h + 64 * n ≤ 65536 →
      (tag.toNat = frameTag s o inst hop d body → sent → ∃ t, gives (.frameReceive c hop d body tag) t ∧
        lookD t.flits h 0 = (lookD s.flits h 0 + n) % 2 ^ 64 ∧ (∀ j, j ≠ h → lookD t.flits j 0 = lookD s.flits j 0) ∧
        lookD t.rx h 0 = rxHeld s h + 64 * n ∧ lookD t.relayed h [] = kept.tail ∧
        (∀ g, nextHop o hop d = some g → lookD t.relayed (hopKey c.toNat g d) [] =
          lookD s.relayed (hopKey c.toNat g d) [] ++ [hopCrypt s o inst hop d body]) ∧ t.ctxs = s.ctxs ∧ t.mem = s.mem) ∧
      (tag.toNat = frameTag s o inst hop d body → ¬ sent → gives (.frameReceive c hop d body tag) s) ∧
      (tag.toNat ≠ frameTag s o inst hop d body → ∃ t, gives (.frameReceive c hop d body tag) t ∧
        .tagFailure c.toNat hop ∈ t.m.reports ∧ t.flits = s.flits ∧ t.ctxs = s.ctxs ∧ t.mem = s.mem)) ∧
    (arrives → find? s.paused h = some () ∨ 65536 < rxHeld s h + 64 * n → gives (.frameReceive c hop d body tag) s)

/-- R358: a packet's header is read from its bytes; one with OPEN asks for a stream, and waits for its answer: ACCEPT gives it the
lowest free tag (the model's choice, log 64), and REFUSE none; the packets of a stream set its header, a compressed one from the end
of the packet before, until CLOSE (when they arrive is the agenda's, log 54). -/
def Sys2Proof.Says.Streams : Prop :=
  ∀ (s : State) (p : Packet) (g : Nat) (hd : Header) (opens closes : Bool) (dl : Int),
    let port := portKey p.die p.port
    let x := streamKey port g
    let v := numOfBytes p.head
    let bits := fun (lo n : Nat) => v / 2 ^ lo % 2 ^ n
    let gives := fun (i : Instr) (t : State) => exec i s = .next t
    let taken := fun (j : Nat) => (find? s.streams (streamKey port j)).isSome = true
    let answers := readHead p.head = some (.full opens closes g hd)
    (p.head.length = 24 → readHead p.head = some (.full (bits 4 1 == 1) (bits 5 1 == 1) (bits 16 12)
      { kind := BitVec.ofNat 4 (bits 0 4), addr := BitVec.ofNat 56 (bits 32 56), len := BitVec.ofNat 32 (bits 96 32)
        requester := BitVec.ofNat 32 (bits 128 32), reqid := BitVec.ofNat 32 (bits 160 32) })) ∧
    (∀ n, n = 0 ∨ n = 2 ∨ n = 4 → p.head.length = 2 + n → bits 12 4 = n →
      readHead p.head = some (.delta (bits 0 12) (intOf true (8 * n) (v / 2 ^ 16)))) ∧
    (readHead p.head = none → gives (.streamOpen p) s) ∧
    (answers → opens = true → closes = false → gives (.streamOpen p) { s with opening := put s.opening x p }) ∧
    (answers → opens = false ∨ closes = true →
      (find? s.streams x = none → gives (.streamOpen p) s) ∧
      ∀ y, find? s.streams x = some y →
        (y.circ ≠ p.circ.toNat → gives (.streamOpen p) s) ∧
        (y.circ = p.circ.toNat → closes = true → gives (.streamOpen p) { s with streams := del s.streams x }) ∧
        (y.circ = p.circ.toNat → closes = false →
          gives (.streamOpen p) { s with streams := put s.streams x { y with head := hd } })) ∧
    (readHead p.head = some (.delta g dl) →
      (find? s.streams x = none → gives (.streamOpen p) s) ∧
      ∀ y, find? s.streams x = some y →
        (y.circ ≠ p.circ.toNat → gives (.streamOpen p) s) ∧
        (y.circ = p.circ.toNat → gives (.streamOpen p) { s with streams := put s.streams x { y with
          head := { y.head with addr := BitVec.ofInt 56 (y.head.addr.toNat + y.head.len.toNat + 64 * dl) } } })) ∧
    (answers → ∀ q a b t h, find? s.opening x = some q → readHead q.head = some (.full a b t h) →
      (∀ m < 4096, ¬ taken m → (∀ j < m, taken j) → gives (.accept p) { s with
        streams := put s.streams (streamKey port m) ⟨q.circ.toNat, h⟩
        opening := del s.opening x }) ∧
      ((∀ j < 4096, taken j) → gives (.accept p) s) ∧
      (streamsAt s port < 4096 → gives (.refuse p) s) ∧
      (4096 ≤ streamsAt s port → gives (.refuse p) { s with opening := del s.opening x })) ∧
    (answers → find? s.opening x = none → gives (.accept p) s ∧ gives (.refuse p) s)

/-- R355 to R358: retraining, pacing and the frames of a hop; and streams. -/
def Obligations.HopsAndStreams : Prop := Hops ∧ Streams

/-! Cards (spec/13, spec/17). -/

/-- The card that CPOST posts (R287, R292). -/
def Sys2Proof.Says.postedCard (s : State) (c : Context) (q : Nat) (l : BitVec 512) : Card :=
  let seq := ((c.chain q).tail + 1) % 2 ^ 32
  { line := (l &&& ~~~(BitVec.ofNat 512 ((2 ^ 32 - 1) * 2 ^ 32))) ||| BitVec.ofNat 512 (seq * 2 ^ 32)
    lid := c.bind.lid, wid := c.bind.wid, die := dieOf s.cur, core := coreOf s.cur, window := c.bind.window
    det := c.bind.det, q := q, seq := seq, preds := (List.range 4).filterMap (fullPred c l)
    ext := cardRemote l && isExternal s (cardCirc l), srseed := c.r.srseed }

/-- R297: as a card retires, DONE advances over it and the retired cards that follow it in order, to the last before one that has not
retired, and the 8-byte word at SQADDR takes it; where the card after DONE has not retired, DONE and the word stay. -/
def Sys2Proof.Says.DoneAdvances : Prop :=
  ∀ (s : State) (id j pos : Nat) (k : Card) (y : Context), find? s.cards id = some k → cardDone k = true →
    cardAsks s id = false → k.status ≤ 3 → cardCren k.line = false →
    taskPos? s k.lid k.wid = some pos → taskCtx? s k.lid k.wid = some y →
    let x := y.chain k.q
    let s1 := updCard s id fun k => { k with st := if k.status ≤ 3 then .retired else .failed }
    let retired := fun (n : Nat) => ∃ e, findCard? s1 k.lid k.wid k.q ((x.done + n) % 2 ^ 32) = some e ∧ e.2.st = .retired
    (∀ u, x.done < 2 ^ 32 → 1 ≤ j → j ≤ s.cards.length → j < 2 ^ 32 → (∀ n, 1 ≤ n → n ≤ j → retired n) → ¬ retired (j + 1) →
      writeMem s1 (y.who pos) 0 plainW 8 x.sqaddr 8 ((x.done + j) % 2 ^ 32) = .ok u → ∃ t y',
      exec (.cardRetire id) s = .next t ∧ taskCtx? t k.lid k.wid = some y' ∧ (y'.chain k.q).done = (x.done + j) % 2 ^ 32 ∧
      (y'.chain k.q).tail = x.tail ∧ t.mem = u.mem) ∧
    (¬ retired 1 → exec (.cardRetire id) s = .next s1)

/-- R289 to R292, R297, R300, R301: CPOST posts the line's card with its chain's next sequence number, in its slot and
in the machine; WAITSEQ and SEQRD read the chain; a card that retires takes its status to its chain; a chain being
disabled is disabled once its cards have retired. -/
def Sys2Proof.Says.ChainCards : Prop :=
  ∀ (s : State) (c : Context) (o : CpostOp) (w : WaitseqOp) (r : SeqrdOp), runs s c →
    let q := c.chain o.q.toNat
    let wq := c.chain w.q.toNat
    let v := (c.rdS s.eng w.a).toNat % 2 ^ 32
    let past := (v + 2 ^ 32 - wq.tail) % 2 ^ 32
    let rq := c.chain r.q.toNat
    (q.en = false → exec (.cpost o) s = traps s c { code := .illop }) ∧
    (q.en = true → q.failed = true →
      exec (.cpost o) s = traps s c (chainTrap s c.bind.lid c.bind.wid o.q.toNat q none)) ∧
    (∀ n slot lpos s1, q.en = true → q.failed = false → c.srcLineIn s.eng o.l = .ok n →
      let l := (c.rdL n).setWidth 512
      let k := postedCard s c o.q.toNat l
      cardCheck s c s.cur l = .ok () → requestsOut s c.bind.lid c.bind.wid = false →
      (q.ring = true → (q.tail + 1 + 2 ^ 32 - q.done) % 2 ^ 32 ≤ q.rsize) →
      scoreUsed s (coreOf s.cur) + (cardRegions l).length ≤ 32 →
      (c.bind.det = true → footprintHit s k = false) → nextSlot s c (c.who s.cur) q k.seq = .ok (slot, lpos) →
      writeMem s (c.who s.cur) c.r.gver plainW 64 slot 64 k.line.toNat = .ok s1 →
      ∃ t c', exec (.cpost o) s = .next t ∧ t.mem = s1.mem ∧ find? t.cards s1.m.nextCard = some k ∧
        t.ctx? s.cur = some c' ∧ (c'.chain o.q.toNat).tail = (q.tail + 1) % 2 ^ 32 ∧
        (c'.chain o.q.toNat).done = q.done ∧ c'.r = c.r ∧ c'.lines = c.lines) ∧
    (wq.en = false → exec (.waitseq w) s = traps s c { code := .illop }) ∧
    (wq.en = true → 0 < past → past < 2 ^ 31 → exec (.waitseq w) s = traps s c { code := .illop }) ∧
    (wq.en = true → past = 0 ∨ 2 ^ 31 ≤ past →
      (seqLe v wq.done = true → exec (.waitseq w) s = passes s c) ∧
      (seqLe v wq.done = false → wq.failed = true → seqLe wq.failedSeq v = true →
        exec (.waitseq w) s = traps s c (chainTrap s c.bind.lid c.bind.wid w.q.toNat wq none)) ∧
      (seqLe v wq.done = false → wq.failed = false → exec (.waitseq w) s = waits s)) ∧
    exec (.seqrd r) s = writes s c r.d (BitVec.ofNat 64 (rq.done + if rq.en then rq.ecode * 2 ^ 32 else 0)) ∧
    (∀ id k, find? s.cards id = some k → cardDone k = true → cardAsks s id = false →
      (k.status ≤ 3 → cardCren k.line = false → exec (.cardRetire id) s =
        .next (advanceDone (updCard s id fun k => { k with st := if k.status ≤ 3 then .retired else .failed })
          k.lid k.wid k.q)) ∧
      (∀ u, k.status ≤ 3 → cardCren k.line = true → k.norec = false →
        writeMem s (cardWho s k) 0 plainW 64 (cardCrec k.line) 64 (recordOf k) = .ok u → exec (.cardRetire id) s =
          .next (advanceDone (updCard u id fun k => { k with st := if k.status ≤ 3 then .retired else .failed })
            k.lid k.wid k.q)) ∧
      (∀ x, 3 < k.status → cardCren k.line = false → taskCtx? s k.lid k.wid = some x → (x.chain k.q).failed = false →
        ∃ t x' k', exec (.cardRetire id) s = .next t ∧ find? t.cards id = some k' ∧ k'.st = .failed ∧
          taskCtx? t k.lid k.wid = some x' ∧ (x'.chain k.q).failed = true ∧ t.mem = s.mem)) ∧
    (∀ m : BitVec 4, (c.chain m.toNat).disabling = true → (c.chain m.toNat).failed = false →
      chainBusy s c.bind.lid c.bind.wid m.toNat = false → ∃ t c', exec (.chainDisableComplete s.cur m) s = .next t ∧
        t.ctx? s.cur = some c' ∧ (c'.chain m.toNat).en = false ∧ (c'.chain m.toNat).disabling = false ∧ c'.r = c.r ∧
        t.mem = s.mem)

/-- R289 to R292, R297, R300, R301: the cards of a chain, and its DONE. -/
def Obligations.Chains : Prop := ChainCards ∧ DoneAdvances

/-- A local card that starts on engine `eng` with its regions checked: source, destination and the block at AUX. -/
structure Sys2Proof.Says.LocalCard (s : State) (id : Nat) (k : Card) (eng : Nat) (src dst : Side) (aux : Nat) : Prop where
  card : find? s.cards id = some k
  engine : startEngine? s id k = some eng
  source : localSide s k false (cardSwin k.line) (cardSrc k.line) (if cardKind k.line = 2 then 0 else cardLen k.line) =
    .ok src
  block : if cardKind k.line = 2 ∨ cardKind k.line = 3 then
      ∃ a, localSide s k false false (cardAux k.line) 64 = .ok a ∧ sideErr s k a 0 64 = .ok () ∧ aux = readParts s.mem a.parts
    else aux = 0
  dest : localSide s k true (cardDwin k.line) (cardDst k.line) (if cardKind k.line = 4 then 0 else cardDlen k.line) = .ok dst
  record : crecCheck s k = .ok ()

/-- R293, R299, R300, R303 to R310: a local card that starts and meets its checks delivers its product; CRC counts the bytes read
before a block that it cannot read; a product whose sources can be read is written to its destination, whole or, of a transform, in
its rows, and no other byte of memory changes. -/
def Obligations.LocalCards : Prop :=
  ∀ (s : State) (id eng : Nat) (k : Card) (src dst : Side) (aux : Nat), LocalCard s id k eng src dst aux →
    let l := k.line
    let gives := fun (i : Instr) (p : Product) => exec i s = .next (deliverProduct s id eng k src dst p)
    let v := sideRead s k src 0 src.len
    let d := xdescOf aux
    let good := fun x => xdescOk x d (cardLen l) (cardDlen l) = true
    let x := cardOptHi l % 16
    let n := cardLen l / 512
    let zb := fun (f : Line → Line) (st : Nat) =>
      ({ out := eachLine f n v, deps := (List.range n).map (fun i => ⟨512 * i, 512 * i, 512⟩), status := st,
         rlen := cardLen l, olen := dst.len } : Product)
    (cardKind l = 1 → gives (.copy id) (expand l v dst)) ∧
    (cardKind l = 2 → gives (.fill id) { out := repeatBlock aux dst.len, olen := dst.len }) ∧
    (cardKind l = 4 → (∀ b ∈ blocksOf src.addr src.len, sideErr s k src b.1 b.2 = .ok ()) →
      gives (.crc id) { rlen := src.len, crcIn := some (crc32c src.len v) }) ∧
    (∀ (m i w : Nat) (e : Stop), cardKind l = 4 → (blocksOf src.addr src.len)[m]? = some (i, w) → sideErr s k src i w = .error e →
      (∀ j < m, ∀ b : Nat × Nat, (blocksOf src.addr src.len)[j]? = some b → sideErr s k src b.1 b.2 = .ok ()) →
      gives (.crc id) { rlen := i, met := some e }) ∧
    (cardKind l = 3 →
      (x = 0 → good 0 → gives (.transpose id) (xProduct s k dst (xRuns 0 d) (xTranspose d v))) ∧
      (x = 1 → good 1 → gives (.convert id) (xProduct s k dst (xRuns 1 d) (xConvert k d v))) ∧
      (∀ b, x = 2 → good 2 → BFmt.ofCode d.bfmt = some b →
        gives (.quantise id) (xProduct s k dst (xRuns 2 d) (xQuant k d b v))) ∧
      (∀ b, x = 3 → good 3 → BFmt.ofCode d.bfmt = some b →
        gives (.dequantise id) (xProduct s k dst (xRuns 3 d) (xDequant k d b v))) ∧
      (x = 4 → good 4 → gives (.compress id)
        (zb (fun y => (zbEncode d.stype.width y).1) (if dropsAny d.stype.width n v then 2 else 0))) ∧
      (x = 5 → good 5 → gives (.decompress id) (zb (zbDecode d.stype.width) 0))) ∧
    ∀ p : Product, s.bad = [] → dst.window = false → p.met = none → (∀ y ∈ p.deps, sideErr s k src y.src y.len = .ok ()) →
      let t := deliverProduct s id eng k src dst p
      (p.runs = none → t.mem = writeParts s.mem (slice dst.parts 0 dst.len) p.out ∧
        ∀ a, a ∉ locations (slice dst.parts 0 dst.len) → t.mem.read a = s.mem.read a) ∧
      ∀ rs : List (Nat × Nat), p.runs = some rs → (∀ r ∈ rs, 0 < r.2 ∧ r.1 + r.2 ≤ dst.len) →
        t.mem = rs.foldl (fun (m : Memory) (r : Nat × Nat) => writeParts m (slice dst.parts r.1 r.2) (p.out / 2 ^ (8 * r.1))) s.mem ∧
        ∀ a, (∀ r ∈ rs, a ∉ locations (slice dst.parts r.1 r.2)) → t.mem.read a = s.mem.read a

/-- A remote card that starts on engine `eng`: its attempt is not aborted and its record's place is checked. -/
structure Sys2Proof.Says.RemoteCard (s : State) (id : Nat) (k : Card) (eng : Nat) : Prop where
  card : find? s.cards id = some k
  engine : startEngine? s id k = some eng
  attempt : (attemptAborted? s k).isNone = true
  record : crecCheck s k = .ok ()

/-- What a card's store of `n` bytes to a side leaves (R366, R391): at this device the bytes of its parts, at a peer device its
memory from the side's key on; `i` is the offset in the side. -/
def Sys2Proof.Says.stored (s t : State) (d : Side) (i n v : Nat) : Prop :=
  (d.far = none → t.mem = writeParts s.mem (slice d.parts i n) v) ∧
  ∀ b, d.far = some b → t.mem = s.mem ∧ farBytes t (b + i) n = v % 2 ^ (8 * n)

/-- R366 to R371, R398: what a remote card does when it starts. The data cards start once their regions are checked; RFETCH and
an adding RSIGNAL send a fetch-and-op, another RSIGNAL stores, and DISPATCH asks for its first slot. -/
def Sys2Proof.Says.RemoteStarts (s : State) (id eng : Nat) (k : Card) (src dst ctr : Side) : Prop :=
  let l := k.line
  let started := fun (i : Instr) => ∃ t k', exec i s = .next t ∧ find? t.cards id = some k' ∧ k'.st = .running ∧
    k'.engine = eng ∧ k'.line = l ∧ k'.src = src ∧ k'.dst = dst ∧ t.mem = s.mem
  let asks := fun (i : Instr) (r : Req) (good : Card → Prop) => ∃ t k', exec i s = .next t ∧ find? t.reqs s.m.nextReq = some r ∧
    find? t.cards id = some k' ∧ k'.st = .running ∧ k'.engine = eng ∧ k'.line = l ∧ good k' ∧ t.mem = s.mem
  (dataSides s id k = .ok (src, dst) →
    (cardKind l = 0x10 → started (.rread id)) ∧ (cardKind l = 0x11 → started (.rwrite id)) ∧
    (cardKind l = 0x12 → started (.rreduce id))) ∧
  (∀ op, cardKind l = 0x13 → rfetchOp? l = some op →
    farSide s id k .both atomPage (cardDst l) (rfetchBytes l) = .ok dst →
    let b := cardBits l 6 0 64 % 2 ^ (8 * rfetchBytes l)
    let r := cardReq s (.card id) k eng false op (rfetchBytes l == 8) dst b
    carriedCheck s k dst.addr (rfetchBytes l) b = .ok () → roomFor s r = true → asks (.rfetch id) r fun _ => True) ∧
  (cardKind l = 0x14 → farSignal s id k (cardDst l) = .ok dst → carriedCheck s k dst.addr 8 (cardBits l 6 0 64) = .ok () →
    (cardOptHi l % 2 = 1 → let r := cardReq s (.card id) k eng true .add true dst (cardBits l 6 0 64)
      roomFor s r = true → asks (.rsignal id) r fun _ => True) ∧
    (cardOptHi l % 2 = 0 → s.bad = [] → ∃ t k', exec (.rsignal id) s = .next t ∧ find? t.cards id = some k' ∧
      k'.performed = true ∧ stored s t dst 0 8 (cardBits l 6 0 64))) ∧
  (cardKind l = 0x15 → k.st = .posted → dispatchSides s id k = .ok (src, ctr, dst) →
    let r := cardReq s (.slot id k.adds) k eng false .add true ctr 1
    carriedCheck s k ctr.addr 8 1 = .ok () → roomFor s r = true → asks (.dispatch id) r fun k' =>
      k'.adds = k.adds + 1 ∧ k'.src = src ∧ k'.dst = dst ∧ k'.ctr = ctr)

/-- R380, R389: the segment on its way of a data card is performed at its home, which writes its bytes; its acknowledgement
commits it, and the last ends the card's accesses; a segment sent again writes the same bytes. -/
def Sys2Proof.Says.Segments (s : State) (id : Nat) (k : Card) : Prop :=
  let o := segOut s k k.segs
  (k.seg = none → segOpen s k (65536 * k.segs) 65536 = true → (segStop s k o).2 = none → s.bad = [] →
    k.dst.window = false → ∃ t, exec (.segmentCommit id) s = .next t ∧
      find? t.cards id = some { k with
        seg := some { val := o.val, n := o.n, flags := o.flags, status := o.status, olen := o.olen } } ∧
      stored s t k.dst o.i o.n o.val) ∧
  (∀ g, k.seg = some g → g.again = false →
    (lastSegment k = false ∨ g.status = 0 ∨ cardStrict k.line = false) → ∃ t k', exec (.segmentCommit id) s = .next t ∧
      find? t.cards id = some k' ∧ k'.segs = k.segs + 1 ∧ k'.seg = none ∧ k'.performed = lastSegment k ∧
      k'.status = (if lastSegment k then g.status else 0) ∧ t.mem = s.mem) ∧
  (∀ g, k.seg = some g → g.again = true → s.bad = [] → k.dst.window = false → ∃ t,
    exec (.segmentCommit id) s = .next t ∧ find? t.cards id = some { k with seg := some { g with again := false } } ∧
    stored s t k.dst (65536 * k.segs) g.n g.val)

/-- R399: a running DISPATCH sends the fetch-and-add of its next record without waiting for the slots of those before; once the slot
of its next record to place is known, the record whose slot lies in the buffer is placed there, and another is rejected; the last
ends the card's accesses. -/
def Sys2Proof.Says.Dispatches (s : State) (id : Nat) (k : Card) : Prop :=
  let l := k.line
  let n := dispRec l
  let i := k.segs
  let r := cardReq s (.slot id k.adds) k k.engine false .add true k.ctr 1
  let v := sideRead s k k.src (i * n) n
  let gone := fun (k' : Card) => k'.segs = i + 1 ∧ k'.adds = k.adds ∧ find? k'.slots i = none ∧
    (∀ j, j ≠ i → find? k'.slots j = find? k.slots j) ∧ k'.performed = decide ((i + 1) = cardLen l / n)
  (k.adds < cardLen l / n → carriedCheck s k k.ctr.addr 8 1 = .ok () → roomFor s r = true → ∃ t k',
    exec (.dispatch id) s = .next t ∧ find? t.reqs s.m.nextReq = some r ∧ find? t.cards id = some k' ∧
    k'.adds = k.adds + 1 ∧ k'.segs = i ∧ k'.slots = k.slots ∧ t.mem = s.mem) ∧
  (cardLen l / n ≤ k.adds → exec (.dispatch id) s = .next s) ∧
  (find? k.slots i = none → exec (.segmentCommit id) s = .next s) ∧
  ∀ j, find? k.slots i = some j →
    (j < cardDlen l → sideErr s k k.src (i * n) n = .ok () → sideOpen s k (slice k.src.parts (i * n) n) = true →
      partsReady s (slice k.dst.parts (j * n) n) = true → carriedCheck s k (cardDst l + j * n) n v = .ok () →
      k.dst.window = false → ∃ t k', exec (.segmentCommit id) s = .next t ∧ find? t.cards id = some k' ∧ gone k' ∧
      k'.rej = k.rej ∧ k'.olen = k.olen + n ∧ stored s t k.dst (j * n) n v) ∧
    (cardDlen l ≤ j → ∃ t k', exec (.segmentCommit id) s = .next t ∧ find? t.cards id = some k' ∧ gone k' ∧
      k'.rej = k.rej ||| 2 ^ i ∧ k'.olen = k.olen ∧ t.mem = s.mem)

/-- R366 to R371, R380, R389, R398, R399: the remote cards start, move and commit their segments, send their fetch-and-ops and
place their records, on a PKG circuit and on an external one. -/
def Obligations.RemoteCards : Prop :=
  ∀ (s : State) (id eng : Nat) (k : Card) (src dst ctr : Side),
    (RemoteCard s id k eng → RemoteStarts s id eng k src dst ctr) ∧
    (find? s.cards id = some k → k.st = .running → k.performed = false → cardKind k.line ≤ 0x12 →
      cardRemote k.line = true → circuitRuns s k = true → Segments s id k) ∧
    (find? s.cards id = some k → cardKind k.line = 0x15 → k.st = .running → k.performed = false → circuitRuns s k = true →
      Dispatches s id k)

/-! Launches and tasks (spec/10, spec/14). -/

/-- R208, R215, R216, R219, R224, R30, R407: LAUNCH copies the header into its die's queue; a host submission joins the host's,
or is refused with LQFULL; the firmware admits the queue's first when its checks pass; a bound task starts at the entry with s1
to s3 set; a launch whose tasks have ended completes and its word is written. That a word is not written where its address does
not translate, and that bits 63 to 56 of a submitted address do not count, are the model's choices (logs 15 and 22). -/
def Obligations.LaunchLife : Prop :=
  ∀ (s : State) (pos lid addr root : Nat) (b : BindReq),
    (∀ c o ps l, runs s c →
      let va := (c.rdS s.eng o.a).toNat
      let d := s.die (dieOf s.cur)
      accessCheck s (c.who s.cur) .read notWs 64 (va % 2 ^ 56) 512 = .ok ps → guardCheck s c.r.gver ps = .ok () →
      readEcc s ps = .ok () → c.releases = [] → requestsOut s c.bind.lid c.bind.wid = false → d.queue.length < 16 →
      s.launch? c.bind.lid = some l → ∃ t c' x, exec (.launch o) s = .next t ∧ t.ctx? s.cur = some c' ∧
        c'.fillsDue = c.fillsDue ++ [⟨o.e.toNat, s.m.nextTicket, none⟩] ∧ c'.r = c.r ∧
        (t.die (dieOf s.cur)).queue = d.queue ++ [x] ∧ x.hdr = some (BitVec.ofNat 4096 (readParts s.mem ps)) ∧
        x.depth = l.depth + 1 ∧ x.root = c.bind.root ∧ t.mem = s.mem) ∧
    (∀ c o, runs s c → (c.rdS s.eng o.a).toNat % 64 ≠ 0 →
      exec (.launch o) s = traps s c { code := .align, addr := (c.rdS s.eng o.a).toNat % 2 ^ 56 }) ∧
    (let sub := fun (b : Bool) => ({ addr := addr % 2 ^ 56, hdr := none, root := root, full := b } : Submission)
     let queued := fun (b : Bool) => { s with m := { s.m with hostQ := s.m.hostQ ++ [sub b] } }
     (Config.hostRefused s.freeCtr = false → exec (.launchSubmit addr root) s = .next (queued false)) ∧
     (Config.hostRefused s.freeCtr = true → ∃ t, exec (.launchSubmit addr root) s = .next t ∧ t.launches = s.launches ∧
       (t = queued true ∨ t.m.hostQ = s.m.hostQ) ∧
       ∀ h, fwRead s root (addr % 2 ^ 56) 512 = .ok h →
         ∀ u, refuseLaunch s (sub true) (some (BitVec.ofNat 4096 h)) .qfull = some u →
         t = u)) ∧
    (∀ x r h tb ch im, s.m.hostQ = x :: r → x.hdr = some h → x.full = false → hdrAt h 0x38 8 = 0 → choose s x h = .ok (tb, ch, im) →
      heldBack s h ch none = false → ∃ t l, exec .admitNext s = .next t ∧ t.launch? s.m.nextLid = some l ∧ l.hdr = h ∧
        l.root = x.root ∧ l.entry = ch.entry ∧ l.left = taskCount h ch.pext ∧ l.prog = none ∧ l.phase = 0 ∧
        t.m.nextLid = s.m.nextLid + 1 ∧ t.mem = s.mem) ∧
    (∀ x r h e u, s.m.hostQ = x :: r → x.hdr = some h → x.full = false → choose s x h = .error e → e ≠ .wait →
      refuseLaunch s x (some h) e = some u →
      exec .admitNext s = .next { u with m := { u.m with hostQ := u.m.hostQ.erase x } }) ∧
    (s.m.hostQ = [] → (∀ d < 16, (s.die d).queue = []) → exec .admitNext s = .next s) ∧
    (∀ l, s.launch? lid = some l →
      let w := hdrAt l.hdr 0xF8 8
      let done := writeMem s (firmware 0 l.root) 0 plainW 8 w 8 (doneWord lid 0 l.faulted)
      let ends := fun (m : Memory) => ∃ t, exec (.launchComplete lid) s = .next t ∧ t.launch? lid = none ∧ t.mem = m
      (l.left ≠ 0 → exec (.launchComplete lid) s = .next s) ∧
      (l.left = 0 → (w = 0 ∨ w % 8 ≠ 0 ∨ 2 ^ 56 ≤ w → ends s.mem) ∧
        (w ≠ 0 → w % 8 = 0 → w < 2 ^ 56 → (∀ u, done = .ok u → ends u.mem) ∧ (∀ x, done = .error (.trap x) → ends s.mem) ∧
          (done = .error .wait → exec (.launchComplete lid) s = .next s)))) ∧
    (2048 ≤ b.pos ∨ coreWorks s (dieOf b.pos) (b.pos % 128 / 4) = false → exec (.bindRecordWrite b) s = .next s) ∧
    (b.pos < 2048 → coreWorks s (dieOf b.pos) (b.pos % 128 / 4) = true →
      find? (s.die (dieOf b.pos)).slots (b.pos % 128) = none → ∃ t r, exec (.bindRecordWrite b) s = .next t ∧
      find? (t.die (dieOf b.pos)).slots (b.pos % 128) = some r ∧ r.run = false ∧ r.lid = b.lid % 2 ^ 32 ∧
      r.wid = b.wid % 2 ^ 64 ∧ r.tidx = b.tidx % 2 ^ 32 ∧ r.tsize = b.tsize % 2 ^ 32 ∧ t.ctxs = s.ctxs ∧ t.mem = s.mem) ∧
    (∀ r, b.pos < 2048 → coreWorks s (dieOf b.pos) (b.pos % 128 / 4) = true →
      find? (s.die (dieOf b.pos)).slots (b.pos % 128) = some r →
      exec (.bindRecordWrite b) s = .next (s.report (.bindDiscarded b.pos))) ∧
    (∀ r l, find? (s.die (dieOf pos)).slots (pos % 128) = some r → s.launch? r.lid = some l →
      (canStart s pos r l = false → exec (.taskDispatch pos) s = .next s) ∧
      (canStart s pos r l = true → ∃ t c, exec (.taskDispatch pos) s = .next t ∧ t.ctx? pos = some c ∧
        c.rdS .ctl 1 = BitVec.ofNat 64 (hdrAt l.hdr 0x20 8) ∧ c.rdS .ctl 2 = BitVec.ofNat 64 r.wid ∧
        c.rdS .ctl 3 = BitVec.ofNat 64 (r.tidx + r.tsize * 2 ^ 32) ∧
        (∀ n, 3 < n → lookD c.r.s n 0 = 0) ∧ c.r.p = [] ∧ c.r.exFull = 0 ∧ c.handler = false ∧
        (∀ e : Engine, (c.pos.get e).addr = codeAddr l.entry ∧ (c.pos.get e).slot = 0) ∧ t.mem = s.mem))

/-- R334, R335: the watchdog of a task counts while no engine of it can go on and one is at a counted wait, that of a persistent
task always; at the limit it fires, naming the counted wait that stands first in program order, and the firmware pre-empts the
context with the fault pending. How far a firing's time has come is free (log 26). -/
def Sys2Proof.Says.Watchdog (s : State) (pos : Nat) (c : Context) : Prop :=
  let waits := fun (e : Engine) (q k : Nat) => stand s pos c e = .counted q k
  let first := fun (e : Engine) (q k : Nat) =>
    waits e q k ∧ ∀ e2 q2 k2, waits e2 q2 k2 → (c.posOf e).idx ≤ (c.posOf e2).idx
  let fires := fun (lim arg code q k : Nat) (p : EnginePos) => ∃ n, c.wdog ≤ n ∧ exec (.watchdogFire pos) s = .next (
    if lim ≤ n then askPreempt s pos { c with
      wdog := 0
      pendingFault := some (weigh c
        { code := .wdog, eng := some code, arg := arg, chain := q, circ := k, slot := some p.word }) }
    else s.setCtx pos { c with wdog := n })
  (c.stopping = true → exec (.watchdogFire pos) s = .next s) ∧
  (c.stopping = false → c.bind.pers = false →
    ((∃ e, stand s pos c e = .free) ∨ (∀ e q k, ¬ waits e q k) → exec (.watchdogFire pos) s = .next s) ∧
    ((∀ e, stand s pos c e ≠ .free) → (∃ e q k, waits e q k) →
      ∃ e q k, first e q k ∧ fires s.m.wdlim 0 e.code q k (c.posOf e))) ∧
  (c.stopping = false → c.bind.pers = true →
    ((∀ e q k, ¬ waits e q k) → fires c.bind.hbeat 1 7 0 0 (c.posOf .ctl)) ∧
    ((∃ e q k, waits e q k) → ∃ e q k, first e q k ∧ fires c.bind.hbeat 1 e.code q k (c.posOf e))) ∧
  (c.idle = true → waits .ctl 0 0) ∧
  ∀ e x i, c.idle = false → spanHold c e = false → aheadHold c e = false → fetchSlot s (c.who pos) (c.posOf e) = .ok x →
    x.owner c = e → x.dec = .ok i → performHold s pos c e i = false →
    stand s pos c e = if waitsHere s pos c e i then .counted (waitNames i).1 (waitNames i).2 else .free

/-- R316, R325: an error that arises where a read that has issued is still on its way faults that read at its own slot: its engine
stands there again, what the read wrote is as before it, and ECCU names the lowest address at which the read meets the error.
How long a read may be on its way is the model's choice (log 13). -/
def Sys2Proof.Says.ReadOnItsWay (s : State) (pos : Nat) (c : Context) : Prop :=
  ∀ (loc a : Nat) (way : Option (BitVec 4)) (r : LateRead) (rest : List LateRead) (pre post : List (Nat × Context)),
    s.ctxs = pre ++ (pos, c) :: post → (∀ e ∈ pre ++ post, e.1 ≠ pos ∧ e.2.late = []) → c.late = r :: rest →
    c.handler = false → c.stopping = false → c.together = false → r.eng ≠ .mat ∨ c.mat.running = false →
    let line := loc / 64 * 64
    let hit := fun (x : Nat × Nat × Nat) => rangesMeet x.2.1 x.2.2 line 64 = true
    (∃ x ∈ r.src, hit x ∧ a = x.1 + (line - x.2.1)) → (∀ x ∈ r.src, hit x → a ≤ x.1 + (line - x.2.1)) →
    let t := spoilAt s (.mem loc way)
    let u := c.unread r
    exec (.scrubError ⟨.mem loc way, .latent⟩) s =
      .next (takeTrap t pos u r.eng { code := .eccu, addr := a, found := some (memRow t loc) }) ∧
    isBad t loc = true ∧ t.mem = s.mem ∧ u.pos.get r.eng = r.place ∧ (∀ e, e ≠ r.eng → u.pos.get e = c.pos.get e) ∧
    (∀ n, (∀ x ∈ r.lines, x.1 ≠ n) → lookD u.lines n 0 = lookD c.lines n 0) ∧
    (∀ n w, r.lines = [(n, w)] → u.lines = (c.wrL n w).lines) ∧
    (∀ n, (∀ x ∈ r.regs, x.1 ≠ n) → lookD u.r.s n 0 = lookD c.r.s n 0) ∧
    (∀ n w, r.regs = [(n, w)] → lookD u.r.s n 0 = w)

/-- R316, R318, R325, R329, R331, R334 to R337: a pre-empted context leaves its position and is held whole; it comes back when its
record is bound again, and ends where its save area is uncorrectable; a fault whose stop is complete is delivered; the watchdog
counts what R334 says and fires; a read on its way meets an error; a debugger attaches, halts, writes a halted context and steps it. When the watchdog's count
advances and how a halt stands as a pre-emption are the model's choices (logs 26 and 27). -/
def Obligations.TaskLife : Prop :=
  ∀ (s : State) (pos lid : Nat) (c : Context), s.ctx? pos = some c →
    let out := requestsOut s c.bind.lid c.bind.wid
    let held := fun (t : State) (h : Bool) => t.ctx? pos = none ∧
      find? (t.die (dieOf pos)).slots (pos % 128) = none ∧ t.mem = s.mem ∧
      ∃ key v, find? t.saved key = some v ∧ v.pos = pos ∧ v.ctx.r = c.r ∧ v.ctx.lines = c.lines ∧ v.ctx.mat = c.mat ∧
        v.ctx.y = c.y ∧ v.ctx.releases = [] ∧
        (c.idle = false ∨ c.releases = [] → v.ctx.pos = c.pos ∧ v.ctx.halted = h)
    (out = false → ∃ t, exec (.preempt pos) s = .next t ∧ held t c.halted) ∧
    (out = true → exec (.preempt pos) s = .next (s.setCtx pos { c with preempting := true })) ∧
    (s.debugged c = true → out = false → ∃ t, exec (.debugHalt pos) s = .next t ∧ held t true) ∧
    (s.debugged c = true → out = true →
      exec (.debugHalt pos) s = .next (s.setCtx pos { c with halted := true, preempting := true })) ∧
    (s.debugged c = false → exec (.debugHalt pos) s = .next s) ∧
    (c.pendingFault = none ∨ c.preempting = true ∨ out = true → exec (.handlerEntry pos) s = .next s) ∧
    (∀ x, c.pendingFault = some x → c.preempting = false → out = false →
      exec (.handlerEntry pos) s = .next (deliverTrap s pos { c with pendingFault := none } (x.engine .ctl) x)) ∧
    Watchdog s pos c ∧ ReadOnItsWay s pos c ∧
    (s.launch? lid = none → exec (.debuggerAttach lid) s = .next s) ∧
    (∀ l, s.launch? lid = some l → exec (.debuggerAttach lid) s = .next (s.setLaunch lid { l with debugger := true })) ∧
    (∀ q key v, haltedAt? s q = some (key, v) →
      let leaves := fun (x : Context) => { s with saved := put s.saved key { v with ctx := x } }
      (∀ (r : Reg) w, r ≠ 0 → ∃ x, exec (.debugWrite q (.scalar r w)) s = .next (leaves x) ∧
        lookD x.r.s r.toNat 0 = w ∧ (∀ n, n ≠ r.toNat → lookD x.r.s n 0 = lookD v.ctx.r.s n 0) ∧ x.lines = v.ctx.lines) ∧
      (∀ n w, v.ctx.lineOk n = true → exec (.debugWrite q (.line n w)) s = .next (leaves (v.ctx.wrL n w))) ∧
      exec (.debugStep q) s = .next (leaves { v.ctx with stepping := true, halted := false })) ∧
    (∀ q, haltedAt? s q = none → (∀ r w, exec (.debugWrite q (.scalar r w)) s = .next s) ∧
      exec (.debugStep q) s = .next s) ∧
    ∀ q r key v, find? (s.die (dieOf q)).slots (q % 128) = some r → savedEntry? s r.lid r.wid = some (key, v) →
      r.res = true → r.run = false → s.ctx? q = none → coreWorks s (dieOf q) (q % 128 / 4) = true → fits s v q = true →
      requestsOut s r.lid r.wid = false → (coreOf v.pos = coreOf q ∨ windowCards s r.lid r.wid = false) →
      v.bad = true ∨ v.ctx.pendingFault = none →
      (v.ctx.halted = false ∧ v.ctx.stepping = false) ∨ v.ctx.handler = true ∨
        (v.ctx.flt.redirected = false ∧ v.ctx.nestV = none ∧ v.ctx.nestM = none) →
      let x := if coreOf v.pos = coreOf q then v.ctx else { v.ctx with clean := unitKinds v.ctx }
      ∃ t, exec (.resume q) s = .next t ∧ t.mem = s.mem ∧ t.ctx? q = some { x with
        sMigr := x.sMigr || coreOf v.pos != coreOf q, halted := false, ending := x.ending || v.bad }

/-! The device in its system (spec/11, spec/14, spec/20, spec/22). -/

/-- R408 to R413: the owner's registers take its writes and refuse another master's; an election is opened by a nonce
and won by a valid answer; the owner stays while it keeps alive. The firmware's moves among them are the model's (log 36). -/
def Obligations.Owner : Prop :=
  ∀ (s : State) (m : Master) (v : Word) (i : BitVec 3) (k : BitVec 512) (n : BitVec 256) (key : BitVec 456)
    (sig : BitVec 912),
    let gives := fun (i : Instr) (g : Mgmt) => exec i s = .next { s with m := g }
    let refused := s.report .refusedWrite
    (owns s m = true →
      gives (.pcapWrite m v) { s.m with pcap := max 1500 (v.toNat % 2 ^ 16) } ∧
      gives (.handoverWrite m v) { s.m with handover := v, nonce := none } ∧
      gives (.lsecretWrite m n) { s.m with lsecret := n } ∧
      (s.m.oklock = false → ∃ g, gives (.okeysWrite m i k) g ∧ lookD g.okeysStaged i.toNat 0 = k ∧ g.okeys = s.m.okeys ∧
        ∀ j, j ≠ i.toNat → lookD g.okeysStaged j 0 = lookD s.m.okeysStaged j 0) ∧
      (s.m.oklock = true → gives (.okeysWrite m i k) s.m ∧ gives (.oklockCommit m v) s.m) ∧
      (s.m.oklock = false → v.getLsbD 0 = true →
        gives (.oklockCommit m v) { s.m with okeys := s.m.okeysStaged, oklock := true }) ∧
      ((∀ e ∈ s.links, e.2.up = false) → gives (.devnoWrite m v) { s.m with devno := v.toNat % 256 }) ∧
      ((∃ e ∈ s.links, e.2.up = true) → gives (.devnoWrite m v) s.m) ∧
      (let q := (v.setWidth 32 - s.m.fqdone).toNat
       (1 ≤ q ∧ q ≤ 64 → gives (.fqtailWrite m v) { s.m with fqtail := v.setWidth 32 }) ∧
       (q = 0 ∨ 64 < q → gives (.fqtailWrite m v) s.m)) ∧
      gives (.ownerKeepalive m) { s.m with quiet := 0 }) ∧
    (owns s m = false → exec (.ownerKeepalive m) s = .next s ∧
      ∀ w ∈ [Instr.pcapWrite m v, .handoverWrite m v, .lsecretWrite m n, .okeysWrite m i k, .oklockCommit m v,
        .devnoWrite m v, .fqtailWrite m v], exec w s = .next refused) ∧
    (s.m.ownerKind = 0 ∨ s.m.handover ≠ 0 →
      gives (.electionNonce n) { s.m with nonce := some n, keysAtNonce := s.m.okeys, oklock := false }) ∧
    (s.m.ownerKind ≠ 0 → s.m.handover = 0 → gives (.electionNonce n) s.m) ∧
    (s.m.nonce = none → exec (.ownerAnswer m key sig) s = .next refused) ∧
    (∀ x, s.m.nonce = some x → exec (.ownerAnswer m key sig) s = .next (if answerOk s x key sig then
      { s with m := { s.m with
        ownerKind := (masterId m).1, ownerDev := (masterId m).2, handover := 0, nonce := none, quiet := 0 } }
      else refused)) ∧
    gives .handoverTimeout (if s.m.handover = 0 then s.m else { s.m with handover := 0, nonce := none }) ∧
    (s.m.ownerKind = 0 → exec .keepaliveTimeout s = .next s) ∧
    (s.m.ownerKind ≠ 0 → ∃ q, s.m.quiet ≤ q ∧ gives .keepaliveTimeout (if 5000 ≤ q then
      { s.m with ownerKind := 0, ownerDev := 0, handover := 0, nonce := none, quiet := 0 } else { s.m with quiet := q }))

/-- R326, R407, R414: a bank that is removed from the place where it serves is switched to the spare, which is spare no longer, and
its bit clears; the circuits that the place feeds are re-established, at once where no window comes. A bank that returns and passes
is the spare, or takes the place of one that was retired when no spare was ready. That a removal with no ready spare does nothing,
and that a bank whose place is still its own serves there again, are the model's choices (log 64). -/
def Sys2Proof.Says.LaserBanks (s : State) (b : Nat) : Prop :=
  let gives := fun (i : Instr) (t : State) => exec i s = .next t
  let ready := fun (t : State) (n : Nat) => readyBit t (18 + n)
  let retired := fun (p : Nat) => ready s (bankAt s p) = false ∧
    defectWord { kind := 6, die := 0, index := BitVec.ofNat 32 (bankAt s p) } ∈ s.m.defects
  let placed := ∃ p < 4, bankAt s p = b
  let comes := fun (i : Instr) (p y : Nat) (spare : Option Nat) => ∃ t, gives i t ∧ t.m.spare = spare ∧ bankAt t p = y ∧
    (∀ q < 4, q ≠ p → bankAt t q = bankAt s q) ∧ ready t y = true ∧ ready t (bankAt s p) = false ∧
    (∀ n, n ≠ 18 + y → n ≠ 18 + bankAt s p → readyBit t n = readyBit s n) ∧ t.ctxs = s.ctxs ∧ t.mem = s.mem ∧
    ((∀ e ∈ s.circuits, e.2.renew = false) → ∀ e ∈ s.circuits, Config.bankFeeds p e.1 = false → e ∈ t.circuits)
  let stays := fun (i : Instr) (spare : Option Nat) => ∃ t, gives i t ∧ t.m.spare = spare ∧
    (∀ p < 4, bankAt t p = bankAt s p) ∧ ready t b = true ∧ (∀ n, n ≠ 18 + b → readyBit t n = readyBit s n) ∧
    t.ctxs = s.ctxs ∧ t.mem = s.mem ∧ t.circuits = s.circuits
  (∀ p y, p < 4 → bankAt s p = b → (∀ q < p, bankAt s q ≠ b) → s.m.spare = some y → y ≠ b → y < 5 → b < 5 →
    ready s b = true → ready s y = true → comes (.laserBankRemove b) p y none) ∧
  (ready s b = true → ¬ placed ∨ s.m.spare = none ∨ (∃ y, s.m.spare = some y ∧ ready s y = false) →
    gives (.laserBankRemove b) s) ∧
  (ready s b = false → gives (.laserBankRemove b) (renewCircuits s true)) ∧
  (b < 5 → ready s b = false →
    (placed → stays (.laserBankReturn b true) s.m.spare) ∧
    (¬ placed → (∀ p < 4, ¬ retired p) → stays (.laserBankReturn b true) (some b)) ∧
    (∀ p < 4, ¬ placed → retired p → (∀ q < p, ¬ retired q) → comes (.laserBankReturn b true) p b none)) ∧
  (5 ≤ b ∨ ready s b = true → gives (.laserBankReturn b true) s) ∧
  gives (.laserBankReturn b false) s

/-- R233, R238, R239, R326 and Table 87: the row that an error's assay tests: of the weight store by the bank group of its
location; of the die cache by its home slice, its set and the way that is locked; of the HBM by its channel. Which row of its
memory a location lies in is free (log 52). -/
def Sys2Proof.Says.RowsOfErrors (s : State) (loc : Nat) : Prop :=
  let r := memRow s loc
  let i := r.index.toNat
  (loc < 2 ^ 48 → r.die.toNat = loc / 2 ^ 40 % 16) ∧
  (loc / 2 ^ 44 ≠ 0 → r.kind = 0x11 ∧ i % 16 = loc / 2 ^ 12 % 16 ∧ i < 2 ^ 20) ∧
  (∀ w, loc / 2 ^ 44 = 0 → find? s.bad (loc / 64) = some (some w) → r.kind = 0x10 ∧ i % 32 = sliceOf loc ∧
    i / 32 % 512 = (loc / 2 ^ 9 % 512) ^^^ (loc / 2 ^ 18 % 512) ∧ i / 2 ^ 14 = w % 16) ∧
  (loc / 2 ^ 44 = 0 → (∀ w, find? s.bad (loc / 64) ≠ some (some w)) →
    r.kind = 0x12 ∧ i % 32 = (loc / 2 ^ 9 % 32) ^^^ (loc / 2 ^ 18 % 32) ∧ i < 2 ^ 21)

/-- R235 to R238, R242, R325 to R328, R407, R412 to R414: what the firmware and the management core do to the device's
registers, tables and resources. Which circuits a bank feeds, that reserved bits of the range registers read as 0, and the
resource that an error's assay names are the model's choices (logs 37, 39 and 52). -/
def Obligations.Management : Prop :=
  ∀ (s : State) (b d n loc root va size lid pos : Nat) (part : OwnPart) (w x : Word) (nonce : BitVec 256) (image : List Byte) (draw : BitVec 16)
    (r0 : Resource) (f : Bool),
    let gives := fun (i : Instr) (t : State) => exec i s = .next t
    let r := trimRes r0
    let sets := fun (i : Instr) (n : Nat) => ∃ t, exec i s = .next t ∧ readyBit t n = true ∧
      (∀ j < 2048, j ≠ n → readyBit t j = readyBit s j) ∧ t.mem = s.mem
    (readyAssigned b = true → sets (.readinessSet b) b) ∧
    (readyAssigned b = false → gives (.readinessSet b) s) ∧
    (d < 16 → n < 32 →
      let mends := defectWord { kind := 5, die := BitVec.ofNat 4 d, index := BitVec.ofNat 32 n } ∈ s.m.defects ∧
        readyBit s (1216 + 32 * d + n) = false ∧ lookD s.m.copied d 0 < 2
      (mends → sets (.channelCopyComplete d n) (1216 + 32 * d + n)) ∧
      (¬ mends → gives (.channelCopyComplete d n) s)) ∧
    gives (.dieReset d) (s.setDie d { s.die d with refreshPos := 0, cycle := 0 }) ∧
    (∃ t, gives (.governorStep draw) t ∧ t.m.pdraw = min draw.toNat (powerLimit s) ∧ t.m.pcap = s.m.pcap ∧ t.ctxs = s.ctxs ∧
      t.mem = s.mem) ∧
    gives (.bootStageMeasure image) { s with m := { s.m with
      meas := BitVec.ofNat 512 (numOfBytes (digest (numBytes s.m.meas.toNat 64 ++ digest image))) } } ∧
    (∃ q, gives (.quote nonce) (s.report (.quoteOf q (ed448Sign Config.identityKey (numBytes q.toNat 64)))) ∧
      q = BitVec.ofNat 512 (numOfBytes (digest
      (quoteTag ++ numBytes nonce.toNat 32 ++ numBytes s.m.meas.toNat 64 ++ numBytes (hallmark s) 16 ++ numBytes 2 8)))) ∧
    LaserBanks s b ∧ RowsOfErrors s loc ∧
    (gives (.scrubError ⟨.save lid size, .corrected⟩)
      (s.report (.assayDue (memRow s (Config.saveArea lid size % 2 ^ 44))))) ∧
    (∀ row, let l : ErrLoc := .mem loc row
      let at_ := memRow (spoilAt s l) loc
      gives (.scrubError ⟨l, .corrected⟩) (s.report (.assayDue at_)) ∧
      (∃ t, gives (.scrubError ⟨l, .scrubbed⟩) t ∧ isBad t loc = true ∧ .scrub l ∈ t.m.reports ∧
        .assayDue at_ ∈ t.m.reports ∧ t.mem = s.mem ∧ t.ctxs = s.ctxs) ∧
      ((∀ e ∈ s.ctxs, e.2.late = []) →
        ∃ t, gives (.scrubError ⟨l, .latent⟩) t ∧ isBad t loc = true ∧ t.m = s.m ∧ t.mem = s.mem ∧ t.ctxs = s.ctxs)) ∧
    (∀ c, s.ctx? pos = some c → ∃ t c', gives (.scrubError ⟨.own pos part, .latent⟩) t ∧ t.ctx? pos = some c' ∧
      part ∈ c'.own ∧ c'.r = c.r ∧ c'.lines = c.lines ∧ t.mem = s.mem) ∧
    (defectKind r.kind.toNat = true → detHolds s r = false → inUse s r = false →
      gives (.assay r0 true) (s.report (.transient r)) ∧
      ∃ t, gives (.assay r0 false) t ∧ defectWord r ∈ t.m.defects ∧ (∀ y ∈ s.m.defects, y ∈ t.m.defects) ∧ t.mem = s.mem) ∧
    (detHolds s r = true ∨ inUse s r = true → gives (.assay r0 f) s) ∧
    (∃ t, gives (.tlbShootdown root va size) t ∧ t.mem = s.mem ∧ t.ctxs = s.ctxs ∧
      ∀ e ∈ t.cores, ∀ y ∈ e.2.tlb, ¬ (y.root = root ∧ rangesMeet y.va y.size va size = true)) ∧
    (d < 16 → n < 16 → ∃ t, gives (.rangeRegisterWrite d n w x) t ∧
      lookD (t.die d).ranges (2 * n) 0 = w &&& 0x0000_FFFF_FFFF_0003 ∧
      lookD (t.die d).ranges (2 * n + 1) 0 = x &&& 0x01FF_FFFF_FFFF_FFFF ∧ t.mem = s.mem) ∧
    (d < 16 → (s.launch? lid).isSome → soleOn s d lid = true → ∃ t, gives (.wsctlOpen d lid true) t ∧
      (find? t.wsOpen (lid * 16 + d)).isSome ∧ t.mem = s.mem) ∧
    (soleOn s d lid = false → gives (.wsctlOpen d lid true) s) ∧
    ∃ t, gives (.wsctlOpen d lid false) t ∧ find? t.wsOpen (lid * 16 + d) = none ∧ t.mem = s.mem

/-- R392, R396: at an interval's end DEMAND takes the bytes offered, in units of 64 KiB, and one wavelength of a pair moves where
the pair may be steered and the demand rule, or the peer that decides, asks it. -/
def Sys2Proof.Says.Steers (s : State) (pair : Nat) : Prop :=
  let ends := fun (n : Nat) =>
    ({ linkAt s n with demand := min ((linkAt s n).offered / 65536) (2 ^ 32 - 1), offered := 0 } : Link)
  let a := 2 * pair
  let b := 2 * pair + 1
  let y := ends a
  let z := ends b
  let s2 := (s.setLink a y).setLink b z
  let toA := (s2.setLink b { z with width := z.width - 1 }).setLink a { y with moving := true }
  let toB := (s2.setLink a { y with width := y.width - 1 }).setLink b { z with moving := true }
  (16 ≤ pair → exec (.linkSteer pair) s = .next s) ∧
  (pair < 16 → steerable s2 a b = false → exec (.linkSteer pair) s = .next s2) ∧
  (pair < 16 → steerable s2 a b = true → s.m.devno < y.pdev → exec (.linkSteer pair) s = .next (
    if 2 * z.demand + 16 < y.demand ∧ 8 < z.width then toA
    else if 2 * y.demand + 16 < z.demand ∧ 8 < y.width then toB else s2)) ∧
  (pair < 16 → steerable s2 a b = true → y.pdev ≤ s.m.devno →
    exec (.linkSteer pair) s = .next (match Config.peerSteers s.freeCtr pair with
      | some true => if 8 < z.width then toA else s2
      | some false => if 8 < y.width then toB else s2
      | none => s2))

/-- R390, R396, R397: a wavelength leaves in a window, or, forced, while no other is away; it comes back, or one that is steered
to the link begins to carry. -/
def Sys2Proof.Says.Retrains (s : State) (n wave : Nat) : Prop :=
  let x := linkAt s n
  let gives := fun (done : Bool) (l : Link) => exec (.linkWavelengthRetrain n wave done) s = .next (s.setLink n l)
  let free := portOpen s (n / 2) (6 + n % 2) = true ∨ (x.away = [] ∧ x.moving = false)
  (x.up = true → x.width ≠ 0 → wave ∉ x.away →
    (free → gives false { x with away := wave :: x.away, width := x.width - 1 }) ∧
    (¬ free → exec (.linkWavelengthRetrain n wave false) s = .next s)) ∧
  (x.up = true → wave ∈ x.away → gives true { x with away := x.away.erase wave, width := min 24 (x.width + 1) } ∧
    exec (.linkWavelengthRetrain n wave false) s = .next s) ∧
  (x.up = true → wave ∉ x.away → x.moving = true → gives true { x with moving := false, width := min 24 (x.width + 1) }) ∧
  (x.up = true → wave ∉ x.away → x.moving = false → exec (.linkWavelengthRetrain n wave true) s = .next s) ∧
  (x.width = 0 → exec (.linkWavelengthRetrain n wave false) s = .next s) ∧
  (x.up = false → ∀ d, exec (.linkWavelengthRetrain n wave d) s = .next s)

/-- R401: the phases of a LINKSET in their order, each over every held link before the next. Close leaves the links UP and their
circuits IDLE; Re-map clears UP; Retrain trains a link whose peer is the one its map names, the others stay down; Resume clears
DRAIN, gives the links their new peers, and completes the card. -/
def Sys2Proof.Says.LinksetPhases (s : State) (peers : List (Nat × PeerInfo)) (r : LinksetRun) : Prop :=
  let held := fun (j : Nat) => r.lmask.getLsbD j = true
  let goes := fun (t : State) => exec (.linkset peers) s = .next t ∧ t.ctxs = s.ctxs ∧ t.mem = s.mem ∧
    ∀ j, ¬ held j → ¬ held (pairLink j) → linkAt t j = linkAt s j
  let named := fun (j : Nat) (p : PeerInfo) =>
    peerSeen? peers j = some p ∧ r.map.getD j none = some (p.dev.toNat, p.link.toNat)
  s.m.lset = some r →
  (r.phase = .drain → linksetDrained s r = false → exec (.linkset peers) s = .next s) ∧
  (r.phase = .drain → linksetDrained s r = true → ∃ t, goes t ∧ t.m.lset = some { r with phase := .closed } ∧
    t.links = s.links ∧ ∀ j, held j → ∀ e ∈ circuitsOn s j, (t.circuit e.1).state = .idle) ∧
  (r.phase = .closed → ∃ t, goes t ∧ t.m.lset = some { r with phase := .mapped } ∧ t.circuits = s.circuits ∧
    ∀ j, held j → linkAt t j = { linkAt s j with up := false, away := [], moving := false, width := 0 } ∧
      ∀ e ∈ t.partners, e.1 / 2 ≠ j) ∧
  (r.phase = .mapped → ∃ t, goes t ∧ t.m.lset = some { r with phase := .trained, bad := badPeers r peers } ∧
    ∀ j, held j → (linkAt t j).drain = (linkAt s j).drain ∧ (linkAt t j).pdev = (linkAt s j).pdev ∧
      (linkAt t j).plink = (linkAt s j).plink ∧
      (∀ p, named j p → (linkAt t j).up = (p.dev.toNat != s.m.devno && p.secret == s.m.lsecret)) ∧
      ((∀ p, ¬ named j p) → (linkAt t j).up = (linkAt s j).up)) ∧
  (r.phase = .trained → ∃ t, goes t ∧ t.m.lset = none ∧ t.m.fqdone = BitVec.ofNat 32 r.seq ∧
    ((∀ j, held j → (linkAt s j).up = true) → t.m.fqstatus = 0) ∧
    ((∃ j, held j ∧ (linkAt s j).up = false) → t.m.fqstatus = 1) ∧
    ∀ j, held j → (linkAt t j).drain = false ∧ (linkAt t j).up = (linkAt s j).up ∧
      ((linkAt t j).pdev, (linkAt t j).plink) = (r.map.getD j none).getD (0, 0))

/-- R390 to R392, R396, R397, R400 to R402, R410: a link trains with a peer of another number and the same secret, and the
other link of its pair keeps the other 16 wavelengths (the model's reading, log 38); wavelengths are steered and retrained;
LINKSET goes on with its next card or its next phase; a link that fails clears UP and knows no partner any more; a partner's
circuit is recorded while the link is UP. -/
def Obligations.Links : Prop :=
  ∀ (s : State) (n wave pair : Nat) (p : PeerInfo) (peers : List (Nat × PeerInfo)) (l : BitVec 5) (hi settled : Bool)
    (groups : BitVec 8) (die : BitVec 4),
    let x := linkAt s n
    let q := pairLink n
    let other := linkAt s q
    let quiet := ∀ e ∈ s.circuits, e.2.state ≠ .recovering
    (n < 32 → x.up = false → x.drain = false → ∃ t, exec (.linkTrain n p) s = .next t ∧ (linkAt t n).trained = true ∧
      (linkAt t n).up = (p.dev.toNat != s.m.devno && p.secret == s.m.lsecret) ∧ (linkAt t n).pdev = p.dev.toNat ∧
      (linkAt t n).plink = p.link.toNat ∧ ((linkAt t n).up = true → (linkAt t n).width = 16) ∧
      linkAt t q = (if (linkAt t n).up && other.up then { other with width := 16 - other.idleWaves } else other) ∧
      (∀ e ∈ t.partners, e.1 / 2 ≠ n) ∧ (∀ j, j ≠ n → j ≠ q → linkAt t j = linkAt s j) ∧ t.mem = s.mem) ∧
    (x.up = true → exec (.linkTrain n p) s = .next s) ∧
    Steers s pair ∧ Retrains s n wave ∧
    (s.m.lset = none → s.m.fqdone = s.m.fqtail → exec (.linkset peers) s = .next s) ∧
    (s.m.lset = none → s.m.fqdone ≠ s.m.fqtail → ∃ t, exec (.linkset peers) s = .next t ∧
      (quiet → t.ctxs = s.ctxs ∧ t.mem = s.mem) ∧
      ((∃ r, t.m.lset = some r ∧ r.seq = (s.m.fqdone.toNat + 1) % 2 ^ 32 ∧ t.m.fqdone = s.m.fqdone) ∨
        (t.m.lset = none ∧ t.m.fqdone = s.m.fqdone + 1 ∧ t.m.fqstatus = 2))) ∧
    (∀ r, LinksetPhases s peers r) ∧
    (x.up = true → ∃ t, exec (.linkDown n) s = .next t ∧
      (let y := linkAt t n
       y = { x with up := false, away := [], moving := false, width := 0, offered := y.offered }) ∧
      (∀ j, j ≠ n → linkAt t j = { linkAt s j with offered := (linkAt t j).offered }) ∧
      (∀ e ∈ t.partners, e.1 / 2 ≠ n) ∧
      (x.drain = false → (∀ j, (linkAt t j).offered = (linkAt s j).offered) ∧ t.mem = s.mem)) ∧
    (x.up = false → exec (.linkDown n) s = .next s) ∧
    ((linkAt s l.toNat).up = true → ∃ t, exec (.partnerCircuitChange l hi settled groups die) s = .next t ∧
      find? t.partners (2 * l.toNat + if hi then 1 else 0) = some ⟨settled, groups, die.toNat⟩ ∧ t.links = s.links ∧
      t.mem = s.mem) ∧
    ((linkAt s l.toNat).up = false → exec (.partnerCircuitChange l hi settled groups die) s = .next s)

/-! The whole machine. -/

/-- Instructions that act on their own context alone. -/
def Sys2Proof.Says.ownContextOnly : Instr → Bool
  | .nop | .bfi _ | .fsqrt _ | .ffma _ | .fcvt _ | .fclass _ | .eget _ | .epeek _ | .mcfg _ | .mgo | .mwait | .mstat _
  | .movi _ | .movhi _ | .lea _ | .syswrSpm _ | .syswrFpc _ | .syswrTxw _ | .prio _ | .heart | .trap _ | .idle
  | .br _ | .bc _ | .call _ | .ret _ | .loop _ | .tret | .vcmp _ | .pcnt _ | .pseti _ | .tzero _ | .trowld _
  | .trowst _ | .tcolld _ | .tcolst _ | .tld _ | .tst _ | .tmma _ | .tout _ | .orel _ | .spmode _ | .spld _ | .spst _
  | .spmov _ | .spclr _ | .spnorm _ | .spup _ | .spdn _ | .sbar _ | .hcfg _ | .hstat _ | .waitf _ | .waite _ | .tkwait _
  | .waitseq _ | .seqrd _ | .cstat _ | .cwait _ => true
  | .add _ | .sub _ | .mul _ | .mulh _ | .mulhz _ | .div _ | .divz _ | .rem _ | .remz _ | .and _ | .or _ | .xor _
  | .andn _ | .shl _ | .shr _ | .sha _ | .rotl _ | .min _ | .minz _ | .max _ | .maxz _ | .seq _ | .sne _ | .slt _
  | .sltz _ | .sle _ | .slez _ | .clz _ | .ctz _ | .popc _ | .sel _ | .bfx _ | .bfxz _ | .fadd _ | .fsub _ | .fmul _
  | .fdiv _ | .fmin _ | .fmax _ | .feq _ | .flt _ | .fle _ | .addi _ | .andi _ | .ori _ | .xori _ | .shli _ | .shri _
  | .shai _ | .rotli _ => true
  | .vadd _ | .vsub _ | .vmul _ | .vfma _ | .vfms _ | .vmin _ | .vmax _ | .vdiv _ | .vand _ | .vor _ | .vxor _ | .vshl _
  | .vshr _ | .vsha _ | .vadds _ | .vsubs _ | .vmulh _ | .vsel _ | .vperm _ | .vrotl _ | .vzip _ | .vunzip _ | .vbcast _
  | .vabs _ | .vneg _ | .vnot _ | .vmov _ | .vsqrt _ | .vrsqrt _ | .vrcp _ | .vexp2 _ | .vlog2 _ | .vtanh _ | .vsig _
  | .verf _ | .vcvt _ | .vwiden _ | .vnarrow _ | .vhad _ | .vqnt _ | .vdqnt _ | .vradd _ | .vrmax _ | .vrmin _ | .vscan _
  | .vcompr _ | .vexpd _ | .viota _ | .pand _ | .por _ | .pxor _ | .pnot _ | .pfirst _ => true
  | _ => false

/-- R12, R28, R29, R204, R231: an instruction that computes in its own context changes no byte of memory, no launch, circuit,
card or link, and no context of another launch, also where it faults. -/
def Obligations.ComputingTouchesNobodyElse : Prop :=
  ∀ (i : Instr) (s t : State) (c : Context), ownContextOnly i = true → runs s c → exec i s = .next t →
    t.mem = s.mem ∧ t.launches = s.launches ∧ t.circuits = s.circuits ∧ t.cards = s.cards ∧ t.links = s.links ∧
    t.agenda = s.agenda ∧ ∀ q x, q ≠ s.cur → s.ctx? q = some x → x.bind.lid ≠ c.bind.lid → t.ctx? q = some x

/-- R25, R26, R28, R187, R206: with one program counter for a context, a step at which the agenda names its engine, and the
arbitration of its core serves the context, fetches the record at the program counter, decodes the slot, and is `exec` of that
instruction by the engine that owns the slot, where neither the scoreboard nor an earlier request holds it and no part it reads
is uncorrectable. With the engines apart the same holds of an engine at its own program counter, whose context has then passed
the cycles of DLY and of the sum-product banks it waits for, and reads what its place in program order reads. What a step adds:
the context's watchdog count, the turn of its priority, the sequencer's open steps, and the count of free values taken. -/
def Obligations.StepRunsTheDecodedInstruction : Prop :=
  ∀ (s : State) (pos k : Nat) (e : Engine) (rest : List Act) (c : Context) (r : BitVec 512) (i : Instr),
    let s0 := { s with agenda := rest }
    let p := if c.together then c.posOf .ctl else c.pos.get e
    let x := slotIn r p.slot
    let f := footAt s0 c e pos i
    let adds := fun (o : HO) => bumpFree (countWaits s (withSteps (noteRr (coreOf pos) e (pos % 4, k) o)))
    s.agenda = .engine pos e :: rest → s.ctx? pos = some c → c.still = false → ¬ (e = .mat ∧ c.mat.running = true ∧
      c.handler = false) →
    fetchRecord s0 (c.who pos) p.addr = .ok r → decodeSlot (slotsOf r) p.slot = .ok i → x.inside p = false →
    e = x.owner c → granted s0 (coreOf pos) e = some (pos % 4, k) → ownError c i f = none →
    (c.together = true → boardHold s0 pos c i f = false →
      c.handler = true ∨ (soHold s0 pos c (c.posOf e).idx f [] = false ∧
        redHold s0 pos c e (c.posOf e).idx i f = false ∧ sbarHold s0 c (c.posOf e).idx f [] = false) →
      step s = adds (match exec i { s0 with cur := pos, eng := e } with
        | .next t => .next (noteFetch s0 pos c p (afterTogether pos c e (some (i, f)) t))
        | o => o)) ∧
    (c.together = false → spanHold c e = false → aheadHold c e = false → performHold s0 pos c e i = false →
      let d := ((if syncs i then c.markWaited e else c).awaitMem e f).passCycles e (max (dlyWait c e f) (yWait c i))
      let late := lateLine s0 d e f
      late = none ∨ c.r.latmode = false ∨ c.r.span = 0 ∨ c.stepping = true →
      let c1 := if late = none then d else d.markWaited e
      let n := (c1.pos.get e).idx
      let ls := lagging s0 pos c1 n
      let bs := barsBefore c1 ls
      step s = adds (match exec i { s0.setCtx pos (c1.asRead s0.freeCtr bs e n f) with cur := pos, eng := e } with
        | .next t => .next (noteFetch s0 pos c p (afterApart pos c1 ⟨e, i, f, dlyLat s0 c1 e pos i, owedNew c1 n f ls, bs⟩ t))
        | o => o))

/-- Tables 13 to 21: words written out from the encodings stand for the instructions whose fields they hold: ADDI s4,
s5, -64; FFMA.F64 s8, s9, s10, s11; LOOP s6, s7 to slot 0 of the record before; FHINT s8; VLDT line 40, x3, s7; and a word
of a reserved opcode for none. -/
def Obligations.DecodesTheWrittenWords : Prop :=
  decodeTableWord 64 0x08001050FFFFFFC0 = some (.addi ⟨4, 5, -64⟩) ∧
  decodeTableWord 64 0x035020928BD00000 = some (.ffma ⟨8, 9, 10, 11, true⟩) ∧
  decodeTableWord 64 0xE0501871FFFFFFF8 = some (.loop ⟨6, 7, 0, -1⟩) ∧
  decodeTableWord 64 0xA230008000000000 = some (.fhint 8) ∧
  decodeTableWord 64 0x8020414063800000 = some (.vldt ⟨0, .line 40, 3, 7, 0⟩) ∧
  decodeTableWord 64 0x0FF0000000000000 = none

/-- Operations that the sequencer fetches, not an engine (Table 94). -/
def Sys2Proof.Says.sequencerOp : Instr → Bool
  | .est _ | .tear _ | .hold _ | .seqStep _ | .gap _ | .lmove _ | .vect _ | .retry _ | .signal _ | .seqDone => true
  | _ => false

/-- R63 to R78 and Table 94: for every well-formed instruction that slots hold, the decoder reads from the encoder's
words that instruction with every operand; the same of every operation of a circuit program. -/
def Obligations.DecodingReadsWhatTheEncoderWrote : Prop :=
  ∀ i : Instr, i.wf = true → encode i ≠ [] →
    (sequencerOp i = true → ∃ w, encode i = [w] ∧ decodeSeqOp w = some i) ∧
    (sequencerOp i = false → decodeSlot (fun k => (encode i).getD k 0) 0 = .ok i)

/-- R6, R232: memory keeps its canonical form over every step, whatever the agenda names: two memories with equal bytes
are equal data. -/
def Obligations.EveryStepKeepsMemoryCanonical : Prop :=
  ∀ s t : State, MemoryOk s → step s = .next t → MemoryOk t

/-- After reset no context, launch, card or trained link exists, every circuit is IDLE, no owner is elected, and a step
moves nothing but the count of free values taken (R345, R408). The model's choices: memory lists nothing and unlisted
bytes read as 0 (log 1), PCAP is 5700, DEVNO 0 and OKLOCK 0 (log 12), nothing moves by itself (log 3). -/
def Obligations.ResetIsEmpty : Prop :=
  let s := State.reset
  MemoryOk s ∧ (∀ a, s.mem.read a = 0) ∧ s.ctxs = [] ∧ s.launches = [] ∧ s.cards = [] ∧
  (∀ n, (s.circuit n).state = .idle) ∧ (∀ n, (linkAt s n).up = false) ∧
  s.m.ownerKind = 0 ∧ s.m.oklock = false ∧ s.m.pcap = 5700 ∧ s.m.devno = 0 ∧
  step s = .next { s with freeCtr := s.freeCtr + 1 }
end

