-- ==== Sys2Proof/Laws/Decode.lean ====
section
/-!
SUPPORT. The fields of an encoded slot: what the decoder reads where the encoder wrote.
-/
namespace Sys2Proof

/-- A field that lies in the low part of two joined bit strings. -/
theorem extract_append_low {a b : Nat} (x : BitVec a) (y : BitVec b) (lo len : Nat) (h : lo + len ≤ b) :
    (x ++ y).extractLsb' lo len = y.extractLsb' lo len := by
  ext i hi
  simp only [BitVec.getElem_extractLsb', BitVec.getLsbD_append]
  rw [if_pos (by omega)]

/-- A field that lies in the high part of two joined bit strings. -/
theorem extract_append_high {a b : Nat} (x : BitVec a) (y : BitVec b) (lo len : Nat) (h : b ≤ lo) :
    (x ++ y).extractLsb' lo len = x.extractLsb' (lo - b) len := by
  ext i hi
  simp only [BitVec.getElem_extractLsb', BitVec.getLsbD_append]
  rw [if_neg (by omega)]
  congr 1
  omega

/-- ENG of an encoded slot. -/
theorem slotWord_eng (e : BitVec 3) (n : BitVec 1) (op : Nat) (d : BitVec 4) (x : BitVec 48) :
    fld (slotWord e n op d x) 61 3 = e := by
  unfold fld slotWord
  rw [extract_append_high (h := by decide)]
  simp

/-- N of an encoded slot. -/
theorem slotWord_n (e : BitVec 3) (n : BitVec 1) (op : Nat) (d : BitVec 4) (x : BitVec 48) :
    fld (slotWord e n op d x) 60 1 = n := by
  unfold fld slotWord
  rw [extract_append_low (h := by decide), extract_append_high (h := by decide)]
  simp

/-- OP of an encoded slot. -/
theorem slotWord_op (e : BitVec 3) (n : BitVec 1) (op : Nat) (d : BitVec 4) (x : BitVec 48) :
    fld (slotWord e n op d x) 52 8 = BitVec.ofNat 8 op := by
  unfold fld slotWord
  rw [extract_append_low (h := by decide), extract_append_low (h := by decide), extract_append_high (h := by decide)]
  simp

/-- DLY of an encoded slot. -/
theorem slotWord_dly (e : BitVec 3) (n : BitVec 1) (op : Nat) (d : BitVec 4) (x : BitVec 48) :
    fld (slotWord e n op d x) 48 4 = d := by
  unfold fld slotWord
  rw [extract_append_low (h := by decide), extract_append_low (h := by decide), extract_append_low (h := by decide),
    extract_append_high (h := by decide)]
  simp

/-- An operand field of an encoded slot. -/
theorem slotWord_operand (e : BitVec 3) (n : BitVec 1) (op : Nat) (d : BitVec 4) (x : BitVec 48) (lo len : Nat)
    (h : lo + len ≤ 48) : fld (slotWord e n op d x) lo len = x.extractLsb' lo len := by
  unfold fld slotWord
  rw [extract_append_low _ _ _ _ (by omega), extract_append_low _ _ _ _ (by omega),
    extract_append_low _ _ _ _ (by omega), extract_append_low _ _ _ _ (by omega)]

/-- A slot without N whose operation and fields decode, and are well formed, is that instruction. -/
theorem decodeSlot_plain {s : Nat → Word} {i : Instr} (hn : fld (s 0) 60 1 = 0#1)
    (hd : decodeOp (s 0) = some (.ok i)) (hw : i.wf = true) : decodeSlot s 0 = .ok i := by
  simp [decodeSlot, hd, hn, checkWf, hw]

/-- An encoded CTL slot is read from its own opcode space. -/
theorem decodeOp_ctl (n : BitVec 1) (op : Nat) (d : BitVec 4) (x : BitVec 48) (h : op < 256) :
    decodeOp (slotWord 0 n op d x) = decodeCtl op (slotWord 0 n op d x) := by
  simp only [decodeOp, slotWord_eng, slotWord_op, BitVec.toNat_ofNat, Nat.mod_eq_of_lt (show op < 2 ^ 8 by omega)]
  rfl

/-- An encoded VEC slot is read from its own opcode space. -/
theorem decodeOp_vec (n : BitVec 1) (op : Nat) (d : BitVec 4) (x : BitVec 48) (h : op < 256) :
    decodeOp (slotWord 1 n op d x) = decodeVec op (slotWord 1 n op d x) := by
  simp only [decodeOp, slotWord_eng, slotWord_op, BitVec.toNat_ofNat, Nat.mod_eq_of_lt (show op < 2 ^ 8 by omega)]
  rfl

/-- An encoded MAT slot is read from its own opcode space. -/
theorem decodeOp_mat (n : BitVec 1) (op : Nat) (d : BitVec 4) (x : BitVec 48) (h : op < 256) :
    decodeOp (slotWord 2 n op d x) = decodeMat op (slotWord 2 n op d x) := by
  simp only [decodeOp, slotWord_eng, slotWord_op, BitVec.toNat_ofNat, Nat.mod_eq_of_lt (show op < 2 ^ 8 by omega)]
  rfl

/-- An encoded SPE slot is read from its own opcode space. -/
theorem decodeOp_spe (n : BitVec 1) (op : Nat) (d : BitVec 4) (x : BitVec 48) (h : op < 256) :
    decodeOp (slotWord 3 n op d x) = decodeSpe op (slotWord 3 n op d x) := by
  simp only [decodeOp, slotWord_eng, slotWord_op, BitVec.toNat_ofNat, Nat.mod_eq_of_lt (show op < 2 ^ 8 by omega)]
  rfl

/-- An encoded MEM slot is read from its own opcode space. -/
theorem decodeOp_mem (n : BitVec 1) (op : Nat) (d : BitVec 4) (x : BitVec 48) (h : op < 256) :
    decodeOp (slotWord 4 n op d x) = decodeMem op (slotWord 4 n op d x) := by
  simp only [decodeOp, slotWord_eng, slotWord_op, BitVec.toNat_ofNat, Nat.mod_eq_of_lt (show op < 2 ^ 8 by omega)]
  rfl

/-- An encoded SYN slot is read from its own opcode space. -/
theorem decodeOp_syn (n : BitVec 1) (op : Nat) (d : BitVec 4) (x : BitVec 48) (h : op < 256) :
    decodeOp (slotWord 5 n op d x) = decodeSyn op (slotWord 5 n op d x) := by
  simp only [decodeOp, slotWord_eng, slotWord_op, BitVec.toNat_ofNat, Nat.mod_eq_of_lt (show op < 2 ^ 8 by omega)]
  rfl

/-- An encoded ALL slot is read from its own opcode space. -/
theorem decodeOp_all (n : BitVec 1) (op : Nat) (d : BitVec 4) (x : BitVec 48) (h : op < 256) :
    decodeOp (slotWord 7 n op d x) = decodeAll op (slotWord 7 n op d x) := by
  simp only [decodeOp, slotWord_eng, slotWord_op, BitVec.toNat_ofNat, Nat.mod_eq_of_lt (show op < 2 ^ 8 by omega)]
  rfl

/-- A well-formed element type code reads back. -/
theorem elemType_round (t : ElemType) : ElemType.decode t.encode = t := by cases t <;> rfl

/-- A rounding mode reads back. -/
theorem rm_round (r : Rm) : Rm.decode r.encode = some r := by cases r <;> rfl

/-- An access width reads back. -/
theorem memW_round (w : MemW) : MemW.decode w.encode = some w := by cases w <;> rfl

/-- A branch condition reads back. -/
theorem condKind_round (k : CondKind) : CondKind.decode k.encode = some k := by cases k <;> rfl

/-- A comparison code reads back. -/
theorem cmpCode_round (k : CmpCode) : CmpCode.decode k.encode = some k := by cases k <;> rfl

/-- A floating-point type reads back. -/
theorem dbl_round (b : Bool) : dblOfType (ElemType.decode (typeOfDbl b).encode) = some b := by cases b <;> rfl

/-- The kind of a specifier. -/
theorem specKind (k : BitVec 2) (v : BitVec 11) : BitVec.extractLsb' 11 2 (k ++ v : BitVec 13) = k := by
  rw [extract_append_high (h := by decide)]
  simp

/-- The value bits of a specifier. -/
theorem specValue (k : BitVec 2) (v : BitVec 11) : BitVec.extractLsb' 0 11 (k ++ v : BitVec 13) = v := by
  rw [extract_append_low (h := by decide)]
  simp

/-- A line specifier reads back (R71). -/
theorem spec_round (x : Spec) : Spec.decode x.encode = some x := by
  cases x with
  | reg v => revert v; decide
  | line n => simp [Spec.decode, Spec.encode, specKind, specValue]
  | handle h => revert h; decide
  | scalar r => revert r; decide

end Sys2Proof
end

