-- ==== Sys2Proof/Laws/State.lean ====
section
/-!
SUPPORT. What each named update of the machine and of a context leaves as it was: one lemma per field and update.
-/
namespace Sys2Proof.Machine

@[simp] theorem State.setCtx_agenda (s : State) (p : Nat) (c : Context) : (s.setCtx p c).agenda = s.agenda := rfl
@[simp] theorem State.setCtx_cur (s : State) (p : Nat) (c : Context) : (s.setCtx p c).cur = s.cur := rfl
@[simp] theorem State.setCtx_eng (s : State) (p : Nat) (c : Context) : (s.setCtx p c).eng = s.eng := rfl
@[simp] theorem State.setCtx_curLid (s : State) (p : Nat) (c : Context) : (s.setCtx p c).curLid = s.curLid := rfl
@[simp] theorem State.setCtx_turn (s : State) (p : Nat) (c : Context) : (s.setCtx p c).turn = s.turn := rfl
@[simp] theorem State.setCtx_freeCtr (s : State) (p : Nat) (c : Context) : (s.setCtx p c).freeCtr = s.freeCtr := rfl
@[simp] theorem State.setCtx_mem (s : State) (p : Nat) (c : Context) : (s.setCtx p c).mem = s.mem := rfl
@[simp] theorem State.setCtx_tags (s : State) (p : Nat) (c : Context) : (s.setCtx p c).tags = s.tags := rfl
@[simp] theorem State.setCtx_bad (s : State) (p : Nat) (c : Context) : (s.setCtx p c).bad = s.bad := rfl
@[simp] theorem State.setCtx_saved (s : State) (p : Nat) (c : Context) : (s.setCtx p c).saved = s.saved := rfl
@[simp] theorem State.setCtx_cores (s : State) (p : Nat) (c : Context) : (s.setCtx p c).cores = s.cores := rfl
@[simp] theorem State.setCtx_dies (s : State) (p : Nat) (c : Context) : (s.setCtx p c).dies = s.dies := rfl
@[simp] theorem State.setCtx_launches (s : State) (p : Nat) (c : Context) : (s.setCtx p c).launches = s.launches := rfl
@[simp] theorem State.setCtx_shInsts (s : State) (p : Nat) (c : Context) : (s.setCtx p c).shInsts = s.shInsts := rfl
@[simp] theorem State.setCtx_wsOpen (s : State) (p : Nat) (c : Context) : (s.setCtx p c).wsOpen = s.wsOpen := rfl
@[simp] theorem State.setCtx_arrivals (s : State) (p : Nat) (c : Context) : (s.setCtx p c).arrivals = s.arrivals := rfl
@[simp] theorem State.setCtx_arrWords (s : State) (p : Nat) (c : Context) : (s.setCtx p c).arrWords = s.arrWords := rfl
@[simp] theorem State.setCtx_cards (s : State) (p : Nat) (c : Context) : (s.setCtx p c).cards = s.cards := rfl
@[simp] theorem State.setCtx_reqs (s : State) (p : Nat) (c : Context) : (s.setCtx p c).reqs = s.reqs := rfl
@[simp] theorem State.setCtx_parts (s : State) (p : Nat) (c : Context) : (s.setCtx p c).parts = s.parts := rfl
@[simp] theorem State.setCtx_reqIds (s : State) (p : Nat) (c : Context) : (s.setCtx p c).reqIds = s.reqIds := rfl
@[simp] theorem State.setCtx_receipts (s : State) (p : Nat) (c : Context) : (s.setCtx p c).receipts = s.receipts := rfl
@[simp] theorem State.setCtx_circuits (s : State) (p : Nat) (c : Context) : (s.setCtx p c).circuits = s.circuits := rfl
@[simp] theorem State.setCtx_retraining (s : State) (p : Nat) (c : Context) : (s.setCtx p c).retraining = s.retraining := rfl
@[simp] theorem State.setCtx_paused (s : State) (p : Nat) (c : Context) : (s.setCtx p c).paused = s.paused := rfl
@[simp] theorem State.setCtx_rx (s : State) (p : Nat) (c : Context) : (s.setCtx p c).rx = s.rx := rfl
@[simp] theorem State.setCtx_flits (s : State) (p : Nat) (c : Context) : (s.setCtx p c).flits = s.flits := rfl
@[simp] theorem State.setCtx_streams (s : State) (p : Nat) (c : Context) : (s.setCtx p c).streams = s.streams := rfl
@[simp] theorem State.setCtx_links (s : State) (p : Nat) (c : Context) : (s.setCtx p c).links = s.links := rfl
@[simp] theorem State.setCtx_partners (s : State) (p : Nat) (c : Context) : (s.setCtx p c).partners = s.partners := rfl
@[simp] theorem State.setCtx_aborted (s : State) (p : Nat) (c : Context) : (s.setCtx p c).aborted = s.aborted := rfl
@[simp] theorem State.setCtx_m (s : State) (p : Nat) (c : Context) : (s.setCtx p c).m = s.m := rfl

@[simp] theorem State.setLaunch_agenda (s : State) (n : Nat) (l : Launch) : (s.setLaunch n l).agenda = s.agenda := rfl
@[simp] theorem State.setLaunch_cur (s : State) (n : Nat) (l : Launch) : (s.setLaunch n l).cur = s.cur := rfl
@[simp] theorem State.setLaunch_eng (s : State) (n : Nat) (l : Launch) : (s.setLaunch n l).eng = s.eng := rfl
@[simp] theorem State.setLaunch_curLid (s : State) (n : Nat) (l : Launch) : (s.setLaunch n l).curLid = s.curLid := rfl
@[simp] theorem State.setLaunch_turn (s : State) (n : Nat) (l : Launch) : (s.setLaunch n l).turn = s.turn := rfl
@[simp] theorem State.setLaunch_freeCtr (s : State) (n : Nat) (l : Launch) : (s.setLaunch n l).freeCtr = s.freeCtr := rfl
@[simp] theorem State.setLaunch_mem (s : State) (n : Nat) (l : Launch) : (s.setLaunch n l).mem = s.mem := rfl
@[simp] theorem State.setLaunch_tags (s : State) (n : Nat) (l : Launch) : (s.setLaunch n l).tags = s.tags := rfl
@[simp] theorem State.setLaunch_bad (s : State) (n : Nat) (l : Launch) : (s.setLaunch n l).bad = s.bad := rfl
@[simp] theorem State.setLaunch_ctxs (s : State) (n : Nat) (l : Launch) : (s.setLaunch n l).ctxs = s.ctxs := rfl
@[simp] theorem State.setLaunch_saved (s : State) (n : Nat) (l : Launch) : (s.setLaunch n l).saved = s.saved := rfl
@[simp] theorem State.setLaunch_cores (s : State) (n : Nat) (l : Launch) : (s.setLaunch n l).cores = s.cores := rfl
@[simp] theorem State.setLaunch_dies (s : State) (n : Nat) (l : Launch) : (s.setLaunch n l).dies = s.dies := rfl
@[simp] theorem State.setLaunch_shInsts (s : State) (n : Nat) (l : Launch) : (s.setLaunch n l).shInsts = s.shInsts := rfl
@[simp] theorem State.setLaunch_wsOpen (s : State) (n : Nat) (l : Launch) : (s.setLaunch n l).wsOpen = s.wsOpen := rfl
@[simp] theorem State.setLaunch_arrivals (s : State) (n : Nat) (l : Launch) : (s.setLaunch n l).arrivals = s.arrivals := rfl
@[simp] theorem State.setLaunch_arrWords (s : State) (n : Nat) (l : Launch) : (s.setLaunch n l).arrWords = s.arrWords := rfl
@[simp] theorem State.setLaunch_cards (s : State) (n : Nat) (l : Launch) : (s.setLaunch n l).cards = s.cards := rfl
@[simp] theorem State.setLaunch_reqs (s : State) (n : Nat) (l : Launch) : (s.setLaunch n l).reqs = s.reqs := rfl
@[simp] theorem State.setLaunch_parts (s : State) (n : Nat) (l : Launch) : (s.setLaunch n l).parts = s.parts := rfl
@[simp] theorem State.setLaunch_reqIds (s : State) (n : Nat) (l : Launch) : (s.setLaunch n l).reqIds = s.reqIds := rfl
@[simp] theorem State.setLaunch_receipts (s : State) (n : Nat) (l : Launch) : (s.setLaunch n l).receipts = s.receipts := rfl
@[simp] theorem State.setLaunch_circuits (s : State) (n : Nat) (l : Launch) : (s.setLaunch n l).circuits = s.circuits := rfl
@[simp] theorem State.setLaunch_retraining (s : State) (n : Nat) (l : Launch) : (s.setLaunch n l).retraining = s.retraining := rfl
@[simp] theorem State.setLaunch_paused (s : State) (n : Nat) (l : Launch) : (s.setLaunch n l).paused = s.paused := rfl
@[simp] theorem State.setLaunch_rx (s : State) (n : Nat) (l : Launch) : (s.setLaunch n l).rx = s.rx := rfl
@[simp] theorem State.setLaunch_flits (s : State) (n : Nat) (l : Launch) : (s.setLaunch n l).flits = s.flits := rfl
@[simp] theorem State.setLaunch_streams (s : State) (n : Nat) (l : Launch) : (s.setLaunch n l).streams = s.streams := rfl
@[simp] theorem State.setLaunch_links (s : State) (n : Nat) (l : Launch) : (s.setLaunch n l).links = s.links := rfl
@[simp] theorem State.setLaunch_partners (s : State) (n : Nat) (l : Launch) : (s.setLaunch n l).partners = s.partners := rfl
@[simp] theorem State.setLaunch_aborted (s : State) (n : Nat) (l : Launch) : (s.setLaunch n l).aborted = s.aborted := rfl
@[simp] theorem State.setLaunch_m (s : State) (n : Nat) (l : Launch) : (s.setLaunch n l).m = s.m := rfl

@[simp] theorem State.setCore_agenda (s : State) (n : Nat) (k : Core) : (s.setCore n k).agenda = s.agenda := rfl
@[simp] theorem State.setCore_cur (s : State) (n : Nat) (k : Core) : (s.setCore n k).cur = s.cur := rfl
@[simp] theorem State.setCore_eng (s : State) (n : Nat) (k : Core) : (s.setCore n k).eng = s.eng := rfl
@[simp] theorem State.setCore_curLid (s : State) (n : Nat) (k : Core) : (s.setCore n k).curLid = s.curLid := rfl
@[simp] theorem State.setCore_turn (s : State) (n : Nat) (k : Core) : (s.setCore n k).turn = s.turn := rfl
@[simp] theorem State.setCore_freeCtr (s : State) (n : Nat) (k : Core) : (s.setCore n k).freeCtr = s.freeCtr := rfl
@[simp] theorem State.setCore_mem (s : State) (n : Nat) (k : Core) : (s.setCore n k).mem = s.mem := rfl
@[simp] theorem State.setCore_tags (s : State) (n : Nat) (k : Core) : (s.setCore n k).tags = s.tags := rfl
@[simp] theorem State.setCore_bad (s : State) (n : Nat) (k : Core) : (s.setCore n k).bad = s.bad := rfl
@[simp] theorem State.setCore_ctxs (s : State) (n : Nat) (k : Core) : (s.setCore n k).ctxs = s.ctxs := rfl
@[simp] theorem State.setCore_saved (s : State) (n : Nat) (k : Core) : (s.setCore n k).saved = s.saved := rfl
@[simp] theorem State.setCore_dies (s : State) (n : Nat) (k : Core) : (s.setCore n k).dies = s.dies := rfl
@[simp] theorem State.setCore_launches (s : State) (n : Nat) (k : Core) : (s.setCore n k).launches = s.launches := rfl
@[simp] theorem State.setCore_shInsts (s : State) (n : Nat) (k : Core) : (s.setCore n k).shInsts = s.shInsts := rfl
@[simp] theorem State.setCore_wsOpen (s : State) (n : Nat) (k : Core) : (s.setCore n k).wsOpen = s.wsOpen := rfl
@[simp] theorem State.setCore_arrivals (s : State) (n : Nat) (k : Core) : (s.setCore n k).arrivals = s.arrivals := rfl
@[simp] theorem State.setCore_arrWords (s : State) (n : Nat) (k : Core) : (s.setCore n k).arrWords = s.arrWords := rfl
@[simp] theorem State.setCore_cards (s : State) (n : Nat) (k : Core) : (s.setCore n k).cards = s.cards := rfl
@[simp] theorem State.setCore_reqs (s : State) (n : Nat) (k : Core) : (s.setCore n k).reqs = s.reqs := rfl
@[simp] theorem State.setCore_parts (s : State) (n : Nat) (k : Core) : (s.setCore n k).parts = s.parts := rfl
@[simp] theorem State.setCore_reqIds (s : State) (n : Nat) (k : Core) : (s.setCore n k).reqIds = s.reqIds := rfl
@[simp] theorem State.setCore_receipts (s : State) (n : Nat) (k : Core) : (s.setCore n k).receipts = s.receipts := rfl
@[simp] theorem State.setCore_circuits (s : State) (n : Nat) (k : Core) : (s.setCore n k).circuits = s.circuits := rfl
@[simp] theorem State.setCore_retraining (s : State) (n : Nat) (k : Core) : (s.setCore n k).retraining = s.retraining := rfl
@[simp] theorem State.setCore_paused (s : State) (n : Nat) (k : Core) : (s.setCore n k).paused = s.paused := rfl
@[simp] theorem State.setCore_rx (s : State) (n : Nat) (k : Core) : (s.setCore n k).rx = s.rx := rfl
@[simp] theorem State.setCore_flits (s : State) (n : Nat) (k : Core) : (s.setCore n k).flits = s.flits := rfl
@[simp] theorem State.setCore_streams (s : State) (n : Nat) (k : Core) : (s.setCore n k).streams = s.streams := rfl
@[simp] theorem State.setCore_links (s : State) (n : Nat) (k : Core) : (s.setCore n k).links = s.links := rfl
@[simp] theorem State.setCore_partners (s : State) (n : Nat) (k : Core) : (s.setCore n k).partners = s.partners := rfl
@[simp] theorem State.setCore_aborted (s : State) (n : Nat) (k : Core) : (s.setCore n k).aborted = s.aborted := rfl
@[simp] theorem State.setCore_m (s : State) (n : Nat) (k : Core) : (s.setCore n k).m = s.m := rfl

@[simp] theorem State.setDie_agenda (s : State) (n : Nat) (d : Die) : (s.setDie n d).agenda = s.agenda := rfl
@[simp] theorem State.setDie_cur (s : State) (n : Nat) (d : Die) : (s.setDie n d).cur = s.cur := rfl
@[simp] theorem State.setDie_eng (s : State) (n : Nat) (d : Die) : (s.setDie n d).eng = s.eng := rfl
@[simp] theorem State.setDie_curLid (s : State) (n : Nat) (d : Die) : (s.setDie n d).curLid = s.curLid := rfl
@[simp] theorem State.setDie_turn (s : State) (n : Nat) (d : Die) : (s.setDie n d).turn = s.turn := rfl
@[simp] theorem State.setDie_freeCtr (s : State) (n : Nat) (d : Die) : (s.setDie n d).freeCtr = s.freeCtr := rfl
@[simp] theorem State.setDie_mem (s : State) (n : Nat) (d : Die) : (s.setDie n d).mem = s.mem := rfl
@[simp] theorem State.setDie_tags (s : State) (n : Nat) (d : Die) : (s.setDie n d).tags = s.tags := rfl
@[simp] theorem State.setDie_bad (s : State) (n : Nat) (d : Die) : (s.setDie n d).bad = s.bad := rfl
@[simp] theorem State.setDie_ctxs (s : State) (n : Nat) (d : Die) : (s.setDie n d).ctxs = s.ctxs := rfl
@[simp] theorem State.setDie_saved (s : State) (n : Nat) (d : Die) : (s.setDie n d).saved = s.saved := rfl
@[simp] theorem State.setDie_cores (s : State) (n : Nat) (d : Die) : (s.setDie n d).cores = s.cores := rfl
@[simp] theorem State.setDie_launches (s : State) (n : Nat) (d : Die) : (s.setDie n d).launches = s.launches := rfl
@[simp] theorem State.setDie_shInsts (s : State) (n : Nat) (d : Die) : (s.setDie n d).shInsts = s.shInsts := rfl
@[simp] theorem State.setDie_wsOpen (s : State) (n : Nat) (d : Die) : (s.setDie n d).wsOpen = s.wsOpen := rfl
@[simp] theorem State.setDie_arrivals (s : State) (n : Nat) (d : Die) : (s.setDie n d).arrivals = s.arrivals := rfl
@[simp] theorem State.setDie_arrWords (s : State) (n : Nat) (d : Die) : (s.setDie n d).arrWords = s.arrWords := rfl
@[simp] theorem State.setDie_cards (s : State) (n : Nat) (d : Die) : (s.setDie n d).cards = s.cards := rfl
@[simp] theorem State.setDie_reqs (s : State) (n : Nat) (d : Die) : (s.setDie n d).reqs = s.reqs := rfl
@[simp] theorem State.setDie_parts (s : State) (n : Nat) (d : Die) : (s.setDie n d).parts = s.parts := rfl
@[simp] theorem State.setDie_reqIds (s : State) (n : Nat) (d : Die) : (s.setDie n d).reqIds = s.reqIds := rfl
@[simp] theorem State.setDie_receipts (s : State) (n : Nat) (d : Die) : (s.setDie n d).receipts = s.receipts := rfl
@[simp] theorem State.setDie_circuits (s : State) (n : Nat) (d : Die) : (s.setDie n d).circuits = s.circuits := rfl
@[simp] theorem State.setDie_retraining (s : State) (n : Nat) (d : Die) : (s.setDie n d).retraining = s.retraining := rfl
@[simp] theorem State.setDie_paused (s : State) (n : Nat) (d : Die) : (s.setDie n d).paused = s.paused := rfl
@[simp] theorem State.setDie_rx (s : State) (n : Nat) (d : Die) : (s.setDie n d).rx = s.rx := rfl
@[simp] theorem State.setDie_flits (s : State) (n : Nat) (d : Die) : (s.setDie n d).flits = s.flits := rfl
@[simp] theorem State.setDie_streams (s : State) (n : Nat) (d : Die) : (s.setDie n d).streams = s.streams := rfl
@[simp] theorem State.setDie_links (s : State) (n : Nat) (d : Die) : (s.setDie n d).links = s.links := rfl
@[simp] theorem State.setDie_partners (s : State) (n : Nat) (d : Die) : (s.setDie n d).partners = s.partners := rfl
@[simp] theorem State.setDie_aborted (s : State) (n : Nat) (d : Die) : (s.setDie n d).aborted = s.aborted := rfl
@[simp] theorem State.setDie_m (s : State) (n : Nat) (d : Die) : (s.setDie n d).m = s.m := rfl

@[simp] theorem State.setCircuit_agenda (s : State) (n : Nat) (k : Circuit) : (s.setCircuit n k).agenda = s.agenda := rfl
@[simp] theorem State.setCircuit_cur (s : State) (n : Nat) (k : Circuit) : (s.setCircuit n k).cur = s.cur := rfl
@[simp] theorem State.setCircuit_eng (s : State) (n : Nat) (k : Circuit) : (s.setCircuit n k).eng = s.eng := rfl
@[simp] theorem State.setCircuit_curLid (s : State) (n : Nat) (k : Circuit) : (s.setCircuit n k).curLid = s.curLid := rfl
@[simp] theorem State.setCircuit_turn (s : State) (n : Nat) (k : Circuit) : (s.setCircuit n k).turn = s.turn := rfl
@[simp] theorem State.setCircuit_freeCtr (s : State) (n : Nat) (k : Circuit) : (s.setCircuit n k).freeCtr = s.freeCtr := rfl
@[simp] theorem State.setCircuit_mem (s : State) (n : Nat) (k : Circuit) : (s.setCircuit n k).mem = s.mem := rfl
@[simp] theorem State.setCircuit_tags (s : State) (n : Nat) (k : Circuit) : (s.setCircuit n k).tags = s.tags := rfl
@[simp] theorem State.setCircuit_bad (s : State) (n : Nat) (k : Circuit) : (s.setCircuit n k).bad = s.bad := rfl
@[simp] theorem State.setCircuit_ctxs (s : State) (n : Nat) (k : Circuit) : (s.setCircuit n k).ctxs = s.ctxs := rfl
@[simp] theorem State.setCircuit_saved (s : State) (n : Nat) (k : Circuit) : (s.setCircuit n k).saved = s.saved := rfl
@[simp] theorem State.setCircuit_cores (s : State) (n : Nat) (k : Circuit) : (s.setCircuit n k).cores = s.cores := rfl
@[simp] theorem State.setCircuit_dies (s : State) (n : Nat) (k : Circuit) : (s.setCircuit n k).dies = s.dies := rfl
@[simp] theorem State.setCircuit_launches (s : State) (n : Nat) (k : Circuit) : (s.setCircuit n k).launches = s.launches := rfl
@[simp] theorem State.setCircuit_shInsts (s : State) (n : Nat) (k : Circuit) : (s.setCircuit n k).shInsts = s.shInsts := rfl
@[simp] theorem State.setCircuit_wsOpen (s : State) (n : Nat) (k : Circuit) : (s.setCircuit n k).wsOpen = s.wsOpen := rfl
@[simp] theorem State.setCircuit_arrivals (s : State) (n : Nat) (k : Circuit) : (s.setCircuit n k).arrivals = s.arrivals := rfl
@[simp] theorem State.setCircuit_arrWords (s : State) (n : Nat) (k : Circuit) : (s.setCircuit n k).arrWords = s.arrWords := rfl
@[simp] theorem State.setCircuit_cards (s : State) (n : Nat) (k : Circuit) : (s.setCircuit n k).cards = s.cards := rfl
@[simp] theorem State.setCircuit_reqs (s : State) (n : Nat) (k : Circuit) : (s.setCircuit n k).reqs = s.reqs := rfl
@[simp] theorem State.setCircuit_parts (s : State) (n : Nat) (k : Circuit) : (s.setCircuit n k).parts = s.parts := rfl
@[simp] theorem State.setCircuit_reqIds (s : State) (n : Nat) (k : Circuit) : (s.setCircuit n k).reqIds = s.reqIds := rfl
@[simp] theorem State.setCircuit_receipts (s : State) (n : Nat) (k : Circuit) : (s.setCircuit n k).receipts = s.receipts := rfl
@[simp] theorem State.setCircuit_retraining (s : State) (n : Nat) (k : Circuit) : (s.setCircuit n k).retraining = s.retraining :=
  rfl
@[simp] theorem State.setCircuit_paused (s : State) (n : Nat) (k : Circuit) : (s.setCircuit n k).paused = s.paused := rfl
@[simp] theorem State.setCircuit_rx (s : State) (n : Nat) (k : Circuit) : (s.setCircuit n k).rx = s.rx := rfl
@[simp] theorem State.setCircuit_flits (s : State) (n : Nat) (k : Circuit) : (s.setCircuit n k).flits = s.flits := rfl
@[simp] theorem State.setCircuit_streams (s : State) (n : Nat) (k : Circuit) : (s.setCircuit n k).streams = s.streams := rfl
@[simp] theorem State.setCircuit_links (s : State) (n : Nat) (k : Circuit) : (s.setCircuit n k).links = s.links := rfl
@[simp] theorem State.setCircuit_partners (s : State) (n : Nat) (k : Circuit) : (s.setCircuit n k).partners = s.partners := rfl
@[simp] theorem State.setCircuit_aborted (s : State) (n : Nat) (k : Circuit) : (s.setCircuit n k).aborted = s.aborted := rfl
@[simp] theorem State.setCircuit_m (s : State) (n : Nat) (k : Circuit) : (s.setCircuit n k).m = s.m := rfl

@[simp] theorem State.report_agenda (s : State) (r : Report) : (s.report r).agenda = s.agenda := rfl
@[simp] theorem State.report_cur (s : State) (r : Report) : (s.report r).cur = s.cur := rfl
@[simp] theorem State.report_eng (s : State) (r : Report) : (s.report r).eng = s.eng := rfl
@[simp] theorem State.report_curLid (s : State) (r : Report) : (s.report r).curLid = s.curLid := rfl
@[simp] theorem State.report_turn (s : State) (r : Report) : (s.report r).turn = s.turn := rfl
@[simp] theorem State.report_freeCtr (s : State) (r : Report) : (s.report r).freeCtr = s.freeCtr := rfl
@[simp] theorem State.report_mem (s : State) (r : Report) : (s.report r).mem = s.mem := rfl
@[simp] theorem State.report_tags (s : State) (r : Report) : (s.report r).tags = s.tags := rfl
@[simp] theorem State.report_bad (s : State) (r : Report) : (s.report r).bad = s.bad := rfl
@[simp] theorem State.report_ctxs (s : State) (r : Report) : (s.report r).ctxs = s.ctxs := rfl
@[simp] theorem State.report_saved (s : State) (r : Report) : (s.report r).saved = s.saved := rfl
@[simp] theorem State.report_cores (s : State) (r : Report) : (s.report r).cores = s.cores := rfl
@[simp] theorem State.report_dies (s : State) (r : Report) : (s.report r).dies = s.dies := rfl
@[simp] theorem State.report_launches (s : State) (r : Report) : (s.report r).launches = s.launches := rfl
@[simp] theorem State.report_shInsts (s : State) (r : Report) : (s.report r).shInsts = s.shInsts := rfl
@[simp] theorem State.report_wsOpen (s : State) (r : Report) : (s.report r).wsOpen = s.wsOpen := rfl
@[simp] theorem State.report_arrivals (s : State) (r : Report) : (s.report r).arrivals = s.arrivals := rfl
@[simp] theorem State.report_arrWords (s : State) (r : Report) : (s.report r).arrWords = s.arrWords := rfl
@[simp] theorem State.report_cards (s : State) (r : Report) : (s.report r).cards = s.cards := rfl
@[simp] theorem State.report_reqs (s : State) (r : Report) : (s.report r).reqs = s.reqs := rfl
@[simp] theorem State.report_parts (s : State) (r : Report) : (s.report r).parts = s.parts := rfl
@[simp] theorem State.report_reqIds (s : State) (r : Report) : (s.report r).reqIds = s.reqIds := rfl
@[simp] theorem State.report_receipts (s : State) (r : Report) : (s.report r).receipts = s.receipts := rfl
@[simp] theorem State.report_circuits (s : State) (r : Report) : (s.report r).circuits = s.circuits := rfl
@[simp] theorem State.report_retraining (s : State) (r : Report) : (s.report r).retraining = s.retraining := rfl
@[simp] theorem State.report_paused (s : State) (r : Report) : (s.report r).paused = s.paused := rfl
@[simp] theorem State.report_rx (s : State) (r : Report) : (s.report r).rx = s.rx := rfl
@[simp] theorem State.report_flits (s : State) (r : Report) : (s.report r).flits = s.flits := rfl
@[simp] theorem State.report_streams (s : State) (r : Report) : (s.report r).streams = s.streams := rfl
@[simp] theorem State.report_links (s : State) (r : Report) : (s.report r).links = s.links := rfl
@[simp] theorem State.report_partners (s : State) (r : Report) : (s.report r).partners = s.partners := rfl
@[simp] theorem State.report_aborted (s : State) (r : Report) : (s.report r).aborted = s.aborted := rfl

@[simp] theorem Context.purge_bind (c : Context) (n : RegName) : (c.purge n).bind = c.bind := rfl
@[simp] theorem Context.purge_r (c : Context) (n : RegName) : (c.purge n).r = c.r := rfl
@[simp] theorem Context.purge_lines (c : Context) (n : RegName) : (c.purge n).lines = c.lines := rfl
@[simp] theorem Context.purge_handles (c : Context) (n : RegName) : (c.purge n).handles = c.handles := rfl
@[simp] theorem Context.purge_mat (c : Context) (n : RegName) : (c.purge n).mat = c.mat := rfl
@[simp] theorem Context.purge_y (c : Context) (n : RegName) : (c.purge n).y = c.y := rfl
@[simp] theorem Context.purge_spmode (c : Context) (n : RegName) : (c.purge n).spmode = c.spmode := rfl
@[simp] theorem Context.purge_tens (c : Context) (n : RegName) : (c.purge n).tens = c.tens := rfl
@[simp] theorem Context.purge_tgen (c : Context) (n : RegName) : (c.purge n).tgen = c.tgen := rfl
@[simp] theorem Context.purge_chains (c : Context) (n : RegName) : (c.purge n).chains = c.chains := rfl
@[simp] theorem Context.purge_pos (c : Context) (n : RegName) : (c.purge n).pos = c.pos := rfl
@[simp] theorem Context.purge_hpos (c : Context) (n : RegName) : (c.purge n).hpos = c.hpos := rfl
@[simp] theorem Context.purge_handler (c : Context) (n : RegName) : (c.purge n).handler = c.handler := rfl
@[simp] theorem Context.purge_log (c : Context) (n : RegName) : (c.purge n).log = c.log := rfl
@[simp] theorem Context.purge_flight (c : Context) (n : RegName) : (c.purge n).flight = c.flight := rfl
@[simp] theorem Context.purge_late (c : Context) (n : RegName) : (c.purge n).late = c.late := rfl
@[simp] theorem Context.purge_chained (c : Context) (n : RegName) : (c.purge n).chained = c.chained := rfl
@[simp] theorem Context.purge_releases (c : Context) (n : RegName) : (c.purge n).releases = c.releases := rfl
@[simp] theorem Context.purge_mixes (c : Context) (n : RegName) : (c.purge n).mixes = c.mixes := rfl
@[simp] theorem Context.purge_bars (c : Context) (n : RegName) : (c.purge n).bars = c.bars := rfl
@[simp] theorem Context.purge_tokens (c : Context) (n : RegName) : (c.purge n).tokens = c.tokens := rfl
@[simp] theorem Context.purge_tokPend (c : Context) (n : RegName) : (c.purge n).tokPend = c.tokPend := rfl
@[simp] theorem Context.purge_nestV (c : Context) (n : RegName) : (c.purge n).nestV = c.nestV := rfl
@[simp] theorem Context.purge_nestM (c : Context) (n : RegName) : (c.purge n).nestM = c.nestM := rfl
@[simp] theorem Context.purge_sendV (c : Context) (n : RegName) : (c.purge n).sendV = c.sendV := rfl
@[simp] theorem Context.purge_sendM (c : Context) (n : RegName) : (c.purge n).sendM = c.sendM := rfl
@[simp] theorem Context.purge_flt (c : Context) (n : RegName) : (c.purge n).flt = c.flt := rfl
@[simp] theorem Context.purge_sFlt (c : Context) (n : RegName) : (c.purge n).sFlt = c.sFlt := rfl
@[simp] theorem Context.purge_sMigr (c : Context) (n : RegName) : (c.purge n).sMigr = c.sMigr := rfl
@[simp] theorem Context.purge_idle (c : Context) (n : RegName) : (c.purge n).idle = c.idle := rfl
@[simp] theorem Context.purge_cwaiting (c : Context) (n : RegName) : (c.purge n).cwaiting = c.cwaiting := rfl
@[simp] theorem Context.purge_fillsDue (c : Context) (n : RegName) : (c.purge n).fillsDue = c.fillsDue := rfl
@[simp] theorem Context.purge_redErrs (c : Context) (n : RegName) : (c.purge n).redErrs = c.redErrs := rfl
@[simp] theorem Context.purge_barCount (c : Context) (n : RegName) : (c.purge n).barCount = c.barCount := rfl
@[simp] theorem Context.purge_barWait (c : Context) (n : RegName) : (c.purge n).barWait = c.barWait := rfl
@[simp] theorem Context.purge_wdog (c : Context) (n : RegName) : (c.purge n).wdog = c.wdog := rfl
@[simp] theorem Context.purge_ending (c : Context) (n : RegName) : (c.purge n).ending = c.ending := rfl
@[simp] theorem Context.purge_halted (c : Context) (n : RegName) : (c.purge n).halted = c.halted := rfl
@[simp] theorem Context.purge_stepping (c : Context) (n : RegName) : (c.purge n).stepping = c.stepping := rfl
@[simp] theorem Context.purge_pendingFault (c : Context) (n : RegName) : (c.purge n).pendingFault = c.pendingFault := rfl
@[simp] theorem Context.purge_preempting (c : Context) (n : RegName) : (c.purge n).preempting = c.preempting := rfl
@[simp] theorem Context.purge_haltCode (c : Context) (n : RegName) : (c.purge n).haltCode = c.haltCode := rfl
@[simp] theorem Context.purge_own (c : Context) (n : RegName) : (c.purge n).own = c.own := rfl
@[simp] theorem Context.purge_clean (c : Context) (n : RegName) : (c.purge n).clean = c.clean := rfl

@[simp] theorem Context.purgeH_bind (c : Context) (n : RegName) : (c.purgeH n).bind = c.bind := by
  unfold Context.purgeH; repeat (first | rfl | split)
@[simp] theorem Context.purgeH_r (c : Context) (n : RegName) : (c.purgeH n).r = c.r := by
  unfold Context.purgeH; repeat (first | rfl | split)
@[simp] theorem Context.purgeH_lines (c : Context) (n : RegName) : (c.purgeH n).lines = c.lines := by
  unfold Context.purgeH; repeat (first | rfl | split)
@[simp] theorem Context.purgeH_handles (c : Context) (n : RegName) : (c.purgeH n).handles = c.handles := by
  unfold Context.purgeH; repeat (first | rfl | split)
@[simp] theorem Context.purgeH_mat (c : Context) (n : RegName) : (c.purgeH n).mat = c.mat := by
  unfold Context.purgeH; repeat (first | rfl | split)
@[simp] theorem Context.purgeH_y (c : Context) (n : RegName) : (c.purgeH n).y = c.y := by
  unfold Context.purgeH; repeat (first | rfl | split)
@[simp] theorem Context.purgeH_spmode (c : Context) (n : RegName) : (c.purgeH n).spmode = c.spmode := by
  unfold Context.purgeH; repeat (first | rfl | split)
@[simp] theorem Context.purgeH_tens (c : Context) (n : RegName) : (c.purgeH n).tens = c.tens := by
  unfold Context.purgeH; repeat (first | rfl | split)
@[simp] theorem Context.purgeH_tgen (c : Context) (n : RegName) : (c.purgeH n).tgen = c.tgen := by
  unfold Context.purgeH; repeat (first | rfl | split)
@[simp] theorem Context.purgeH_chains (c : Context) (n : RegName) : (c.purgeH n).chains = c.chains := by
  unfold Context.purgeH; repeat (first | rfl | split)
@[simp] theorem Context.purgeH_pos (c : Context) (n : RegName) : (c.purgeH n).pos = c.pos := by
  unfold Context.purgeH; repeat (first | rfl | split)
@[simp] theorem Context.purgeH_hpos (c : Context) (n : RegName) : (c.purgeH n).hpos = c.hpos := by
  unfold Context.purgeH; repeat (first | rfl | split)
@[simp] theorem Context.purgeH_handler (c : Context) (n : RegName) : (c.purgeH n).handler = c.handler := by
  unfold Context.purgeH; repeat (first | rfl | split)
@[simp] theorem Context.purgeH_log (c : Context) (n : RegName) : (c.purgeH n).log = c.log := by
  unfold Context.purgeH; repeat (first | rfl | split)
@[simp] theorem Context.purgeH_flight (c : Context) (n : RegName) : (c.purgeH n).flight = c.flight := by
  unfold Context.purgeH; repeat (first | rfl | split)
@[simp] theorem Context.purgeH_late (c : Context) (n : RegName) : (c.purgeH n).late = c.late := by
  unfold Context.purgeH; repeat (first | rfl | split)
@[simp] theorem Context.purgeH_chained (c : Context) (n : RegName) : (c.purgeH n).chained = c.chained := by
  unfold Context.purgeH; repeat (first | rfl | split)
@[simp] theorem Context.purgeH_releases (c : Context) (n : RegName) : (c.purgeH n).releases = c.releases := by
  unfold Context.purgeH; repeat (first | rfl | split)
@[simp] theorem Context.purgeH_mixes (c : Context) (n : RegName) : (c.purgeH n).mixes = c.mixes := by
  unfold Context.purgeH; repeat (first | rfl | split)
@[simp] theorem Context.purgeH_bars (c : Context) (n : RegName) : (c.purgeH n).bars = c.bars := by
  unfold Context.purgeH; repeat (first | rfl | split)
@[simp] theorem Context.purgeH_tokens (c : Context) (n : RegName) : (c.purgeH n).tokens = c.tokens := by
  unfold Context.purgeH; repeat (first | rfl | split)
@[simp] theorem Context.purgeH_tokPend (c : Context) (n : RegName) : (c.purgeH n).tokPend = c.tokPend := by
  unfold Context.purgeH; repeat (first | rfl | split)
@[simp] theorem Context.purgeH_nestV (c : Context) (n : RegName) : (c.purgeH n).nestV = c.nestV := by
  unfold Context.purgeH; repeat (first | rfl | split)
@[simp] theorem Context.purgeH_nestM (c : Context) (n : RegName) : (c.purgeH n).nestM = c.nestM := by
  unfold Context.purgeH; repeat (first | rfl | split)
@[simp] theorem Context.purgeH_sendV (c : Context) (n : RegName) : (c.purgeH n).sendV = c.sendV := by
  unfold Context.purgeH; repeat (first | rfl | split)
@[simp] theorem Context.purgeH_sendM (c : Context) (n : RegName) : (c.purgeH n).sendM = c.sendM := by
  unfold Context.purgeH; repeat (first | rfl | split)
@[simp] theorem Context.purgeH_flt (c : Context) (n : RegName) : (c.purgeH n).flt = c.flt := by
  unfold Context.purgeH; repeat (first | rfl | split)
@[simp] theorem Context.purgeH_sFlt (c : Context) (n : RegName) : (c.purgeH n).sFlt = c.sFlt := by
  unfold Context.purgeH; repeat (first | rfl | split)
@[simp] theorem Context.purgeH_sMigr (c : Context) (n : RegName) : (c.purgeH n).sMigr = c.sMigr := by
  unfold Context.purgeH; repeat (first | rfl | split)
@[simp] theorem Context.purgeH_idle (c : Context) (n : RegName) : (c.purgeH n).idle = c.idle := by
  unfold Context.purgeH; repeat (first | rfl | split)
@[simp] theorem Context.purgeH_cwaiting (c : Context) (n : RegName) : (c.purgeH n).cwaiting = c.cwaiting := by
  unfold Context.purgeH; repeat (first | rfl | split)
@[simp] theorem Context.purgeH_fillsDue (c : Context) (n : RegName) : (c.purgeH n).fillsDue = c.fillsDue := by
  unfold Context.purgeH; repeat (first | rfl | split)
@[simp] theorem Context.purgeH_redErrs (c : Context) (n : RegName) : (c.purgeH n).redErrs = c.redErrs := by
  unfold Context.purgeH; repeat (first | rfl | split)
@[simp] theorem Context.purgeH_barCount (c : Context) (n : RegName) : (c.purgeH n).barCount = c.barCount := by
  unfold Context.purgeH; repeat (first | rfl | split)
@[simp] theorem Context.purgeH_barWait (c : Context) (n : RegName) : (c.purgeH n).barWait = c.barWait := by
  unfold Context.purgeH; repeat (first | rfl | split)
@[simp] theorem Context.purgeH_wdog (c : Context) (n : RegName) : (c.purgeH n).wdog = c.wdog := by
  unfold Context.purgeH; repeat (first | rfl | split)
@[simp] theorem Context.purgeH_ending (c : Context) (n : RegName) : (c.purgeH n).ending = c.ending := by
  unfold Context.purgeH; repeat (first | rfl | split)
@[simp] theorem Context.purgeH_halted (c : Context) (n : RegName) : (c.purgeH n).halted = c.halted := by
  unfold Context.purgeH; repeat (first | rfl | split)
@[simp] theorem Context.purgeH_stepping (c : Context) (n : RegName) : (c.purgeH n).stepping = c.stepping := by
  unfold Context.purgeH; repeat (first | rfl | split)
@[simp] theorem Context.purgeH_pendingFault (c : Context) (n : RegName) : (c.purgeH n).pendingFault = c.pendingFault := by
  unfold Context.purgeH; repeat (first | rfl | split)
@[simp] theorem Context.purgeH_preempting (c : Context) (n : RegName) : (c.purgeH n).preempting = c.preempting := by
  unfold Context.purgeH; repeat (first | rfl | split)
@[simp] theorem Context.purgeH_haltCode (c : Context) (n : RegName) : (c.purgeH n).haltCode = c.haltCode := by
  unfold Context.purgeH; repeat (first | rfl | split)
@[simp] theorem Context.purgeH_own (c : Context) (n : RegName) : (c.purgeH n).own = c.own := by
  unfold Context.purgeH; repeat (first | rfl | split)
@[simp] theorem Context.purgeH_clean (c : Context) (n : RegName) : (c.purgeH n).clean = c.clean := by
  unfold Context.purgeH; repeat (first | rfl | split)

@[simp] theorem Context.wrL_bind (c : Context) (n : Nat) (l : Line) : (c.wrL n l).bind = c.bind := rfl
@[simp] theorem Context.wrL_r (c : Context) (n : Nat) (l : Line) : (c.wrL n l).r = c.r := rfl
@[simp] theorem Context.wrL_handles (c : Context) (n : Nat) (l : Line) : (c.wrL n l).handles = c.handles := rfl
@[simp] theorem Context.wrL_mat (c : Context) (n : Nat) (l : Line) : (c.wrL n l).mat = c.mat := rfl
@[simp] theorem Context.wrL_y (c : Context) (n : Nat) (l : Line) : (c.wrL n l).y = c.y := rfl
@[simp] theorem Context.wrL_spmode (c : Context) (n : Nat) (l : Line) : (c.wrL n l).spmode = c.spmode := rfl
@[simp] theorem Context.wrL_tens (c : Context) (n : Nat) (l : Line) : (c.wrL n l).tens = c.tens := rfl
@[simp] theorem Context.wrL_tgen (c : Context) (n : Nat) (l : Line) : (c.wrL n l).tgen = c.tgen := rfl
@[simp] theorem Context.wrL_chains (c : Context) (n : Nat) (l : Line) : (c.wrL n l).chains = c.chains := rfl
@[simp] theorem Context.wrL_pos (c : Context) (n : Nat) (l : Line) : (c.wrL n l).pos = c.pos := rfl
@[simp] theorem Context.wrL_hpos (c : Context) (n : Nat) (l : Line) : (c.wrL n l).hpos = c.hpos := rfl
@[simp] theorem Context.wrL_handler (c : Context) (n : Nat) (l : Line) : (c.wrL n l).handler = c.handler := rfl
@[simp] theorem Context.wrL_log (c : Context) (n : Nat) (l : Line) : (c.wrL n l).log = c.log := rfl
@[simp] theorem Context.wrL_owed (c : Context) (n : Nat) (l : Line) : (c.wrL n l).owed = c.owed := rfl
@[simp] theorem Context.wrL_flight (c : Context) (n : Nat) (l : Line) : (c.wrL n l).flight = c.flight := rfl
@[simp] theorem Context.wrL_late (c : Context) (n : Nat) (l : Line) : (c.wrL n l).late = c.late := rfl
@[simp] theorem Context.wrL_chained (c : Context) (n : Nat) (l : Line) : (c.wrL n l).chained = c.chained := rfl
@[simp] theorem Context.wrL_releases (c : Context) (n : Nat) (l : Line) : (c.wrL n l).releases = c.releases := rfl
@[simp] theorem Context.wrL_mixes (c : Context) (n : Nat) (l : Line) : (c.wrL n l).mixes = c.mixes := rfl
@[simp] theorem Context.wrL_bars (c : Context) (n : Nat) (l : Line) : (c.wrL n l).bars = c.bars := rfl
@[simp] theorem Context.wrL_tokens (c : Context) (n : Nat) (l : Line) : (c.wrL n l).tokens = c.tokens := rfl
@[simp] theorem Context.wrL_tokPend (c : Context) (n : Nat) (l : Line) : (c.wrL n l).tokPend = c.tokPend := rfl
@[simp] theorem Context.wrL_nestV (c : Context) (n : Nat) (l : Line) : (c.wrL n l).nestV = c.nestV := rfl
@[simp] theorem Context.wrL_nestM (c : Context) (n : Nat) (l : Line) : (c.wrL n l).nestM = c.nestM := rfl
@[simp] theorem Context.wrL_sendV (c : Context) (n : Nat) (l : Line) : (c.wrL n l).sendV = c.sendV := rfl
@[simp] theorem Context.wrL_sendM (c : Context) (n : Nat) (l : Line) : (c.wrL n l).sendM = c.sendM := rfl
@[simp] theorem Context.wrL_flt (c : Context) (n : Nat) (l : Line) : (c.wrL n l).flt = c.flt := rfl
@[simp] theorem Context.wrL_sFlt (c : Context) (n : Nat) (l : Line) : (c.wrL n l).sFlt = c.sFlt := rfl
@[simp] theorem Context.wrL_sMigr (c : Context) (n : Nat) (l : Line) : (c.wrL n l).sMigr = c.sMigr := rfl
@[simp] theorem Context.wrL_idle (c : Context) (n : Nat) (l : Line) : (c.wrL n l).idle = c.idle := rfl
@[simp] theorem Context.wrL_cwaiting (c : Context) (n : Nat) (l : Line) : (c.wrL n l).cwaiting = c.cwaiting := rfl
@[simp] theorem Context.wrL_fillsDue (c : Context) (n : Nat) (l : Line) : (c.wrL n l).fillsDue = c.fillsDue := rfl
@[simp] theorem Context.wrL_redErrs (c : Context) (n : Nat) (l : Line) : (c.wrL n l).redErrs = c.redErrs := rfl
@[simp] theorem Context.wrL_barCount (c : Context) (n : Nat) (l : Line) : (c.wrL n l).barCount = c.barCount := rfl
@[simp] theorem Context.wrL_barWait (c : Context) (n : Nat) (l : Line) : (c.wrL n l).barWait = c.barWait := rfl
@[simp] theorem Context.wrL_wdog (c : Context) (n : Nat) (l : Line) : (c.wrL n l).wdog = c.wdog := rfl
@[simp] theorem Context.wrL_ending (c : Context) (n : Nat) (l : Line) : (c.wrL n l).ending = c.ending := rfl
@[simp] theorem Context.wrL_halted (c : Context) (n : Nat) (l : Line) : (c.wrL n l).halted = c.halted := rfl
@[simp] theorem Context.wrL_stepping (c : Context) (n : Nat) (l : Line) : (c.wrL n l).stepping = c.stepping := rfl
@[simp] theorem Context.wrL_pendingFault (c : Context) (n : Nat) (l : Line) : (c.wrL n l).pendingFault = c.pendingFault := rfl
@[simp] theorem Context.wrL_preempting (c : Context) (n : Nat) (l : Line) : (c.wrL n l).preempting = c.preempting := rfl
@[simp] theorem Context.wrL_haltCode (c : Context) (n : Nat) (l : Line) : (c.wrL n l).haltCode = c.haltCode := rfl

@[simp] theorem Context.addFlags_bind (c : Context) (f : Flags) : (c.addFlags f).bind = c.bind := rfl
@[simp] theorem Context.addFlags_lines (c : Context) (f : Flags) : (c.addFlags f).lines = c.lines := rfl
@[simp] theorem Context.addFlags_handles (c : Context) (f : Flags) : (c.addFlags f).handles = c.handles := rfl
@[simp] theorem Context.addFlags_mat (c : Context) (f : Flags) : (c.addFlags f).mat = c.mat := rfl
@[simp] theorem Context.addFlags_y (c : Context) (f : Flags) : (c.addFlags f).y = c.y := rfl
@[simp] theorem Context.addFlags_spmode (c : Context) (f : Flags) : (c.addFlags f).spmode = c.spmode := rfl
@[simp] theorem Context.addFlags_tens (c : Context) (f : Flags) : (c.addFlags f).tens = c.tens := rfl
@[simp] theorem Context.addFlags_tgen (c : Context) (f : Flags) : (c.addFlags f).tgen = c.tgen := rfl
@[simp] theorem Context.addFlags_chains (c : Context) (f : Flags) : (c.addFlags f).chains = c.chains := rfl
@[simp] theorem Context.addFlags_pos (c : Context) (f : Flags) : (c.addFlags f).pos = c.pos := rfl
@[simp] theorem Context.addFlags_hpos (c : Context) (f : Flags) : (c.addFlags f).hpos = c.hpos := rfl
@[simp] theorem Context.addFlags_handler (c : Context) (f : Flags) : (c.addFlags f).handler = c.handler := rfl
@[simp] theorem Context.addFlags_log (c : Context) (f : Flags) : (c.addFlags f).log = c.log := rfl
@[simp] theorem Context.addFlags_owed (c : Context) (f : Flags) : (c.addFlags f).owed = c.owed := rfl
@[simp] theorem Context.addFlags_flight (c : Context) (f : Flags) : (c.addFlags f).flight = c.flight := rfl
@[simp] theorem Context.addFlags_late (c : Context) (f : Flags) : (c.addFlags f).late = c.late := rfl
@[simp] theorem Context.addFlags_chained (c : Context) (f : Flags) : (c.addFlags f).chained = c.chained := rfl
@[simp] theorem Context.addFlags_releases (c : Context) (f : Flags) : (c.addFlags f).releases = c.releases := rfl
@[simp] theorem Context.addFlags_mixes (c : Context) (f : Flags) : (c.addFlags f).mixes = c.mixes := rfl
@[simp] theorem Context.addFlags_bars (c : Context) (f : Flags) : (c.addFlags f).bars = c.bars := rfl
@[simp] theorem Context.addFlags_tokens (c : Context) (f : Flags) : (c.addFlags f).tokens = c.tokens := rfl
@[simp] theorem Context.addFlags_tokPend (c : Context) (f : Flags) : (c.addFlags f).tokPend = c.tokPend := rfl
@[simp] theorem Context.addFlags_nestV (c : Context) (f : Flags) : (c.addFlags f).nestV = c.nestV := rfl
@[simp] theorem Context.addFlags_nestM (c : Context) (f : Flags) : (c.addFlags f).nestM = c.nestM := rfl
@[simp] theorem Context.addFlags_sendV (c : Context) (f : Flags) : (c.addFlags f).sendV = c.sendV := rfl
@[simp] theorem Context.addFlags_sendM (c : Context) (f : Flags) : (c.addFlags f).sendM = c.sendM := rfl
@[simp] theorem Context.addFlags_flt (c : Context) (f : Flags) : (c.addFlags f).flt = c.flt := rfl
@[simp] theorem Context.addFlags_sFlt (c : Context) (f : Flags) : (c.addFlags f).sFlt = c.sFlt := rfl
@[simp] theorem Context.addFlags_sMigr (c : Context) (f : Flags) : (c.addFlags f).sMigr = c.sMigr := rfl
@[simp] theorem Context.addFlags_idle (c : Context) (f : Flags) : (c.addFlags f).idle = c.idle := rfl
@[simp] theorem Context.addFlags_cwaiting (c : Context) (f : Flags) : (c.addFlags f).cwaiting = c.cwaiting := rfl
@[simp] theorem Context.addFlags_fillsDue (c : Context) (f : Flags) : (c.addFlags f).fillsDue = c.fillsDue := rfl
@[simp] theorem Context.addFlags_redErrs (c : Context) (f : Flags) : (c.addFlags f).redErrs = c.redErrs := rfl
@[simp] theorem Context.addFlags_barCount (c : Context) (f : Flags) : (c.addFlags f).barCount = c.barCount := rfl
@[simp] theorem Context.addFlags_barWait (c : Context) (f : Flags) : (c.addFlags f).barWait = c.barWait := rfl
@[simp] theorem Context.addFlags_wdog (c : Context) (f : Flags) : (c.addFlags f).wdog = c.wdog := rfl
@[simp] theorem Context.addFlags_ending (c : Context) (f : Flags) : (c.addFlags f).ending = c.ending := rfl
@[simp] theorem Context.addFlags_halted (c : Context) (f : Flags) : (c.addFlags f).halted = c.halted := rfl
@[simp] theorem Context.addFlags_stepping (c : Context) (f : Flags) : (c.addFlags f).stepping = c.stepping := rfl
@[simp] theorem Context.addFlags_pendingFault (c : Context) (f : Flags) : (c.addFlags f).pendingFault = c.pendingFault := rfl
@[simp] theorem Context.addFlags_preempting (c : Context) (f : Flags) : (c.addFlags f).preempting = c.preempting := rfl
@[simp] theorem Context.addFlags_haltCode (c : Context) (f : Flags) : (c.addFlags f).haltCode = c.haltCode := rfl
@[simp] theorem Context.addFlags_own (c : Context) (f : Flags) : (c.addFlags f).own = c.own := rfl
@[simp] theorem Context.addFlags_clean (c : Context) (f : Flags) : (c.addFlags f).clean = c.clean := rfl

@[simp] theorem Context.move_bind (c : Context) (e : Engine) (f : EnginePos → EnginePos) : (c.move e f).bind = c.bind := by
  unfold Context.move; repeat (first | rfl | split)
@[simp] theorem Context.move_r (c : Context) (e : Engine) (f : EnginePos → EnginePos) : (c.move e f).r = c.r := by
  unfold Context.move; repeat (first | rfl | split)
@[simp] theorem Context.move_lines (c : Context) (e : Engine) (f : EnginePos → EnginePos) : (c.move e f).lines = c.lines := by
  unfold Context.move; repeat (first | rfl | split)
@[simp] theorem Context.move_handles (c : Context) (e : Engine) (f : EnginePos → EnginePos) : (c.move e f).handles = c.handles := by
  unfold Context.move; repeat (first | rfl | split)
@[simp] theorem Context.move_mat (c : Context) (e : Engine) (f : EnginePos → EnginePos) : (c.move e f).mat = c.mat := by
  unfold Context.move; repeat (first | rfl | split)
@[simp] theorem Context.move_y (c : Context) (e : Engine) (f : EnginePos → EnginePos) : (c.move e f).y = c.y := by
  unfold Context.move; repeat (first | rfl | split)
@[simp] theorem Context.move_spmode (c : Context) (e : Engine) (f : EnginePos → EnginePos) : (c.move e f).spmode = c.spmode := by
  unfold Context.move; repeat (first | rfl | split)
@[simp] theorem Context.move_tens (c : Context) (e : Engine) (f : EnginePos → EnginePos) : (c.move e f).tens = c.tens := by
  unfold Context.move; repeat (first | rfl | split)
@[simp] theorem Context.move_tgen (c : Context) (e : Engine) (f : EnginePos → EnginePos) : (c.move e f).tgen = c.tgen := by
  unfold Context.move; repeat (first | rfl | split)
@[simp] theorem Context.move_chains (c : Context) (e : Engine) (f : EnginePos → EnginePos) : (c.move e f).chains = c.chains := by
  unfold Context.move; repeat (first | rfl | split)
@[simp] theorem Context.move_handler (c : Context) (e : Engine) (f : EnginePos → EnginePos) : (c.move e f).handler = c.handler := by
  unfold Context.move; repeat (first | rfl | split)
@[simp] theorem Context.move_log (c : Context) (e : Engine) (f : EnginePos → EnginePos) : (c.move e f).log = c.log := by
  unfold Context.move; repeat (first | rfl | split)
@[simp] theorem Context.move_owed (c : Context) (e : Engine) (f : EnginePos → EnginePos) : (c.move e f).owed = c.owed := by
  unfold Context.move; repeat (first | rfl | split)
@[simp] theorem Context.move_flight (c : Context) (e : Engine) (f : EnginePos → EnginePos) : (c.move e f).flight = c.flight := by
  unfold Context.move; repeat (first | rfl | split)
@[simp] theorem Context.move_late (c : Context) (e : Engine) (f : EnginePos → EnginePos) : (c.move e f).late = c.late := by
  unfold Context.move; repeat (first | rfl | split)
@[simp] theorem Context.move_chained (c : Context) (e : Engine) (f : EnginePos → EnginePos) : (c.move e f).chained = c.chained := by
  unfold Context.move; repeat (first | rfl | split)
@[simp] theorem Context.move_releases (c : Context) (e : Engine) (f : EnginePos → EnginePos) : (c.move e f).releases = c.releases := by
  unfold Context.move; repeat (first | rfl | split)
@[simp] theorem Context.move_mixes (c : Context) (e : Engine) (f : EnginePos → EnginePos) : (c.move e f).mixes = c.mixes := by
  unfold Context.move; repeat (first | rfl | split)
@[simp] theorem Context.move_bars (c : Context) (e : Engine) (f : EnginePos → EnginePos) : (c.move e f).bars = c.bars := by
  unfold Context.move; repeat (first | rfl | split)
@[simp] theorem Context.move_tokens (c : Context) (e : Engine) (f : EnginePos → EnginePos) : (c.move e f).tokens = c.tokens := by
  unfold Context.move; repeat (first | rfl | split)
@[simp] theorem Context.move_tokPend (c : Context) (e : Engine) (f : EnginePos → EnginePos) : (c.move e f).tokPend = c.tokPend := by
  unfold Context.move; repeat (first | rfl | split)
@[simp] theorem Context.move_nestV (c : Context) (e : Engine) (f : EnginePos → EnginePos) : (c.move e f).nestV = c.nestV := by
  unfold Context.move; repeat (first | rfl | split)
@[simp] theorem Context.move_nestM (c : Context) (e : Engine) (f : EnginePos → EnginePos) : (c.move e f).nestM = c.nestM := by
  unfold Context.move; repeat (first | rfl | split)
@[simp] theorem Context.move_sendV (c : Context) (e : Engine) (f : EnginePos → EnginePos) : (c.move e f).sendV = c.sendV := by
  unfold Context.move; repeat (first | rfl | split)
@[simp] theorem Context.move_sendM (c : Context) (e : Engine) (f : EnginePos → EnginePos) : (c.move e f).sendM = c.sendM := by
  unfold Context.move; repeat (first | rfl | split)
@[simp] theorem Context.move_flt (c : Context) (e : Engine) (f : EnginePos → EnginePos) : (c.move e f).flt = c.flt := by
  unfold Context.move; repeat (first | rfl | split)
@[simp] theorem Context.move_sFlt (c : Context) (e : Engine) (f : EnginePos → EnginePos) : (c.move e f).sFlt = c.sFlt := by
  unfold Context.move; repeat (first | rfl | split)
@[simp] theorem Context.move_sMigr (c : Context) (e : Engine) (f : EnginePos → EnginePos) : (c.move e f).sMigr = c.sMigr := by
  unfold Context.move; repeat (first | rfl | split)
@[simp] theorem Context.move_idle (c : Context) (e : Engine) (f : EnginePos → EnginePos) : (c.move e f).idle = c.idle := by
  unfold Context.move; repeat (first | rfl | split)
@[simp] theorem Context.move_cwaiting (c : Context) (e : Engine) (f : EnginePos → EnginePos) : (c.move e f).cwaiting = c.cwaiting := by
  unfold Context.move; repeat (first | rfl | split)
@[simp] theorem Context.move_fillsDue (c : Context) (e : Engine) (f : EnginePos → EnginePos) : (c.move e f).fillsDue = c.fillsDue := by
  unfold Context.move; repeat (first | rfl | split)
@[simp] theorem Context.move_redErrs (c : Context) (e : Engine) (f : EnginePos → EnginePos) : (c.move e f).redErrs = c.redErrs := by
  unfold Context.move; repeat (first | rfl | split)
@[simp] theorem Context.move_barCount (c : Context) (e : Engine) (f : EnginePos → EnginePos) : (c.move e f).barCount = c.barCount := by
  unfold Context.move; repeat (first | rfl | split)
@[simp] theorem Context.move_barWait (c : Context) (e : Engine) (f : EnginePos → EnginePos) : (c.move e f).barWait = c.barWait := by
  unfold Context.move; repeat (first | rfl | split)
@[simp] theorem Context.move_wdog (c : Context) (e : Engine) (f : EnginePos → EnginePos) : (c.move e f).wdog = c.wdog := by
  unfold Context.move; repeat (first | rfl | split)
@[simp] theorem Context.move_ending (c : Context) (e : Engine) (f : EnginePos → EnginePos) : (c.move e f).ending = c.ending := by
  unfold Context.move; repeat (first | rfl | split)
@[simp] theorem Context.move_halted (c : Context) (e : Engine) (f : EnginePos → EnginePos) : (c.move e f).halted = c.halted := by
  unfold Context.move; repeat (first | rfl | split)
@[simp] theorem Context.move_stepping (c : Context) (e : Engine) (f : EnginePos → EnginePos) : (c.move e f).stepping = c.stepping := by
  unfold Context.move; repeat (first | rfl | split)
@[simp] theorem Context.move_pendingFault (c : Context) (e : Engine) (f : EnginePos → EnginePos) : (c.move e f).pendingFault = c.pendingFault := by
  unfold Context.move; repeat (first | rfl | split)
@[simp] theorem Context.move_preempting (c : Context) (e : Engine) (f : EnginePos → EnginePos) : (c.move e f).preempting = c.preempting := by
  unfold Context.move; repeat (first | rfl | split)
@[simp] theorem Context.move_haltCode (c : Context) (e : Engine) (f : EnginePos → EnginePos) : (c.move e f).haltCode = c.haltCode := by
  unfold Context.move; repeat (first | rfl | split)
@[simp] theorem Context.move_own (c : Context) (e : Engine) (f : EnginePos → EnginePos) : (c.move e f).own = c.own := by
  unfold Context.move; repeat (first | rfl | split)
@[simp] theorem Context.move_clean (c : Context) (e : Engine) (f : EnginePos → EnginePos) : (c.move e f).clean = c.clean := by
  unfold Context.move; repeat (first | rfl | split)

@[simp] theorem Context.settleSpe_bind (c : Context) : c.settleSpe.bind = c.bind := rfl
@[simp] theorem Context.advance_bind (c : Context) (e : Engine) : (c.advance e).bind = c.bind := Context.move_bind ..
@[simp] theorem Context.advance_r (c : Context) (e : Engine) : (c.advance e).r = c.r := Context.move_r ..
@[simp] theorem Context.advance_lines (c : Context) (e : Engine) : (c.advance e).lines = c.lines := Context.move_lines ..
@[simp] theorem Context.advance_handles (c : Context) (e : Engine) : (c.advance e).handles = c.handles := Context.move_handles ..
@[simp] theorem Context.advance_mat (c : Context) (e : Engine) : (c.advance e).mat = c.mat := Context.move_mat ..
@[simp] theorem Context.advance_y (c : Context) (e : Engine) : (c.advance e).y = c.y := Context.move_y ..
@[simp] theorem Context.advance_spmode (c : Context) (e : Engine) : (c.advance e).spmode = c.spmode := Context.move_spmode ..
@[simp] theorem Context.advance_tens (c : Context) (e : Engine) : (c.advance e).tens = c.tens := Context.move_tens ..
@[simp] theorem Context.advance_tgen (c : Context) (e : Engine) : (c.advance e).tgen = c.tgen := Context.move_tgen ..
@[simp] theorem Context.advance_chains (c : Context) (e : Engine) : (c.advance e).chains = c.chains := Context.move_chains ..
@[simp] theorem Context.advance_handler (c : Context) (e : Engine) : (c.advance e).handler = c.handler := Context.move_handler ..
@[simp] theorem Context.advance_log (c : Context) (e : Engine) : (c.advance e).log = c.log := Context.move_log ..
@[simp] theorem Context.advance_owed (c : Context) (e : Engine) : (c.advance e).owed = c.owed := Context.move_owed ..
@[simp] theorem Context.advance_flight (c : Context) (e : Engine) : (c.advance e).flight = c.flight := Context.move_flight ..
@[simp] theorem Context.advance_late (c : Context) (e : Engine) : (c.advance e).late = c.late := Context.move_late ..
@[simp] theorem Context.advance_chained (c : Context) (e : Engine) : (c.advance e).chained = c.chained := Context.move_chained ..
@[simp] theorem Context.advance_releases (c : Context) (e : Engine) : (c.advance e).releases = c.releases :=
  Context.move_releases ..
@[simp] theorem Context.advance_mixes (c : Context) (e : Engine) : (c.advance e).mixes = c.mixes := Context.move_mixes ..
@[simp] theorem Context.advance_bars (c : Context) (e : Engine) : (c.advance e).bars = c.bars := Context.move_bars ..
@[simp] theorem Context.advance_tokens (c : Context) (e : Engine) : (c.advance e).tokens = c.tokens := Context.move_tokens ..
@[simp] theorem Context.advance_tokPend (c : Context) (e : Engine) : (c.advance e).tokPend = c.tokPend := Context.move_tokPend ..
@[simp] theorem Context.advance_nestV (c : Context) (e : Engine) : (c.advance e).nestV = c.nestV := Context.move_nestV ..
@[simp] theorem Context.advance_nestM (c : Context) (e : Engine) : (c.advance e).nestM = c.nestM := Context.move_nestM ..
@[simp] theorem Context.advance_sendV (c : Context) (e : Engine) : (c.advance e).sendV = c.sendV := Context.move_sendV ..
@[simp] theorem Context.advance_sendM (c : Context) (e : Engine) : (c.advance e).sendM = c.sendM := Context.move_sendM ..
@[simp] theorem Context.advance_flt (c : Context) (e : Engine) : (c.advance e).flt = c.flt := Context.move_flt ..
@[simp] theorem Context.advance_sFlt (c : Context) (e : Engine) : (c.advance e).sFlt = c.sFlt := Context.move_sFlt ..
@[simp] theorem Context.advance_sMigr (c : Context) (e : Engine) : (c.advance e).sMigr = c.sMigr := Context.move_sMigr ..
@[simp] theorem Context.advance_idle (c : Context) (e : Engine) : (c.advance e).idle = c.idle := Context.move_idle ..
@[simp] theorem Context.advance_cwaiting (c : Context) (e : Engine) : (c.advance e).cwaiting = c.cwaiting :=
  Context.move_cwaiting ..
@[simp] theorem Context.advance_fillsDue (c : Context) (e : Engine) : (c.advance e).fillsDue = c.fillsDue :=
  Context.move_fillsDue ..
@[simp] theorem Context.advance_redErrs (c : Context) (e : Engine) : (c.advance e).redErrs = c.redErrs := Context.move_redErrs ..
@[simp] theorem Context.advance_barCount (c : Context) (e : Engine) : (c.advance e).barCount = c.barCount :=
  Context.move_barCount ..
@[simp] theorem Context.advance_barWait (c : Context) (e : Engine) : (c.advance e).barWait = c.barWait := Context.move_barWait ..
@[simp] theorem Context.advance_wdog (c : Context) (e : Engine) : (c.advance e).wdog = c.wdog := Context.move_wdog ..
@[simp] theorem Context.advance_ending (c : Context) (e : Engine) : (c.advance e).ending = c.ending := Context.move_ending ..
@[simp] theorem Context.advance_halted (c : Context) (e : Engine) : (c.advance e).halted = c.halted := Context.move_halted ..
@[simp] theorem Context.advance_stepping (c : Context) (e : Engine) : (c.advance e).stepping = c.stepping :=
  Context.move_stepping ..
@[simp] theorem Context.advance_pendingFault (c : Context) (e : Engine) : (c.advance e).pendingFault = c.pendingFault :=
  Context.move_pendingFault ..
@[simp] theorem Context.advance_preempting (c : Context) (e : Engine) : (c.advance e).preempting = c.preempting :=
  Context.move_preempting ..
@[simp] theorem Context.advance_haltCode (c : Context) (e : Engine) : (c.advance e).haltCode = c.haltCode :=
  Context.move_haltCode ..
@[simp] theorem Context.advance_own (c : Context) (e : Engine) : (c.advance e).own = c.own := Context.move_own ..
@[simp] theorem Context.advance_clean (c : Context) (e : Engine) : (c.advance e).clean = c.clean := Context.move_clean ..

@[simp] theorem Context.stepped_bind (c : Context) (e : Engine) (n : Nat) : (c.stepped e n).bind = c.bind := by
  unfold Context.stepped; repeat (first | rfl | split)
@[simp] theorem Context.stepped_r (c : Context) (e : Engine) (n : Nat) : (c.stepped e n).r = c.r := by
  unfold Context.stepped; repeat (first | rfl | split)
@[simp] theorem Context.stepped_lines (c : Context) (e : Engine) (n : Nat) : (c.stepped e n).lines = c.lines := by
  unfold Context.stepped; repeat (first | rfl | split)
@[simp] theorem Context.stepped_handles (c : Context) (e : Engine) (n : Nat) : (c.stepped e n).handles = c.handles := by
  unfold Context.stepped; repeat (first | rfl | split)
@[simp] theorem Context.stepped_mat (c : Context) (e : Engine) (n : Nat) : (c.stepped e n).mat = c.mat := by
  unfold Context.stepped; repeat (first | rfl | split)
@[simp] theorem Context.stepped_y (c : Context) (e : Engine) (n : Nat) : (c.stepped e n).y = c.y := by
  unfold Context.stepped; repeat (first | rfl | split)
@[simp] theorem Context.stepped_spmode (c : Context) (e : Engine) (n : Nat) : (c.stepped e n).spmode = c.spmode := by
  unfold Context.stepped; repeat (first | rfl | split)
@[simp] theorem Context.stepped_tens (c : Context) (e : Engine) (n : Nat) : (c.stepped e n).tens = c.tens := by
  unfold Context.stepped; repeat (first | rfl | split)
@[simp] theorem Context.stepped_tgen (c : Context) (e : Engine) (n : Nat) : (c.stepped e n).tgen = c.tgen := by
  unfold Context.stepped; repeat (first | rfl | split)
@[simp] theorem Context.stepped_chains (c : Context) (e : Engine) (n : Nat) : (c.stepped e n).chains = c.chains := by
  unfold Context.stepped; repeat (first | rfl | split)
@[simp] theorem Context.stepped_pos (c : Context) (e : Engine) (n : Nat) : (c.stepped e n).pos = c.pos := by
  unfold Context.stepped; repeat (first | rfl | split)
@[simp] theorem Context.stepped_hpos (c : Context) (e : Engine) (n : Nat) : (c.stepped e n).hpos = c.hpos := by
  unfold Context.stepped; repeat (first | rfl | split)
@[simp] theorem Context.stepped_handler (c : Context) (e : Engine) (n : Nat) : (c.stepped e n).handler = c.handler := by
  unfold Context.stepped; repeat (first | rfl | split)
@[simp] theorem Context.stepped_log (c : Context) (e : Engine) (n : Nat) : (c.stepped e n).log = c.log := by
  unfold Context.stepped; repeat (first | rfl | split)
@[simp] theorem Context.stepped_owed (c : Context) (e : Engine) (n : Nat) : (c.stepped e n).owed = c.owed := by
  unfold Context.stepped; repeat (first | rfl | split)
@[simp] theorem Context.stepped_flight (c : Context) (e : Engine) (n : Nat) : (c.stepped e n).flight = c.flight := by
  unfold Context.stepped; repeat (first | rfl | split)
@[simp] theorem Context.stepped_late (c : Context) (e : Engine) (n : Nat) : (c.stepped e n).late = c.late := by
  unfold Context.stepped; repeat (first | rfl | split)
@[simp] theorem Context.stepped_chained (c : Context) (e : Engine) (n : Nat) : (c.stepped e n).chained = c.chained := by
  unfold Context.stepped; repeat (first | rfl | split)
@[simp] theorem Context.stepped_releases (c : Context) (e : Engine) (n : Nat) : (c.stepped e n).releases = c.releases := by
  unfold Context.stepped; repeat (first | rfl | split)
@[simp] theorem Context.stepped_mixes (c : Context) (e : Engine) (n : Nat) : (c.stepped e n).mixes = c.mixes := by
  unfold Context.stepped; repeat (first | rfl | split)
@[simp] theorem Context.stepped_bars (c : Context) (e : Engine) (n : Nat) : (c.stepped e n).bars = c.bars := by
  unfold Context.stepped; repeat (first | rfl | split)
@[simp] theorem Context.stepped_tokens (c : Context) (e : Engine) (n : Nat) : (c.stepped e n).tokens = c.tokens := by
  unfold Context.stepped; repeat (first | rfl | split)
@[simp] theorem Context.stepped_tokPend (c : Context) (e : Engine) (n : Nat) : (c.stepped e n).tokPend = c.tokPend := by
  unfold Context.stepped; repeat (first | rfl | split)
@[simp] theorem Context.stepped_nestV (c : Context) (e : Engine) (n : Nat) : (c.stepped e n).nestV = c.nestV := by
  unfold Context.stepped; repeat (first | rfl | split)
@[simp] theorem Context.stepped_nestM (c : Context) (e : Engine) (n : Nat) : (c.stepped e n).nestM = c.nestM := by
  unfold Context.stepped; repeat (first | rfl | split)
@[simp] theorem Context.stepped_sendV (c : Context) (e : Engine) (n : Nat) : (c.stepped e n).sendV = c.sendV := by
  unfold Context.stepped; repeat (first | rfl | split)
@[simp] theorem Context.stepped_sendM (c : Context) (e : Engine) (n : Nat) : (c.stepped e n).sendM = c.sendM := by
  unfold Context.stepped; repeat (first | rfl | split)
@[simp] theorem Context.stepped_sFlt (c : Context) (e : Engine) (n : Nat) : (c.stepped e n).sFlt = c.sFlt := by
  unfold Context.stepped; repeat (first | rfl | split)
@[simp] theorem Context.stepped_sMigr (c : Context) (e : Engine) (n : Nat) : (c.stepped e n).sMigr = c.sMigr := by
  unfold Context.stepped; repeat (first | rfl | split)
@[simp] theorem Context.stepped_idle (c : Context) (e : Engine) (n : Nat) : (c.stepped e n).idle = c.idle := by
  unfold Context.stepped; repeat (first | rfl | split)
@[simp] theorem Context.stepped_cwaiting (c : Context) (e : Engine) (n : Nat) : (c.stepped e n).cwaiting = c.cwaiting := by
  unfold Context.stepped; repeat (first | rfl | split)
@[simp] theorem Context.stepped_fillsDue (c : Context) (e : Engine) (n : Nat) : (c.stepped e n).fillsDue = c.fillsDue := by
  unfold Context.stepped; repeat (first | rfl | split)
@[simp] theorem Context.stepped_redErrs (c : Context) (e : Engine) (n : Nat) : (c.stepped e n).redErrs = c.redErrs := by
  unfold Context.stepped; repeat (first | rfl | split)
@[simp] theorem Context.stepped_barCount (c : Context) (e : Engine) (n : Nat) : (c.stepped e n).barCount = c.barCount := by
  unfold Context.stepped; repeat (first | rfl | split)
@[simp] theorem Context.stepped_barWait (c : Context) (e : Engine) (n : Nat) : (c.stepped e n).barWait = c.barWait := by
  unfold Context.stepped; repeat (first | rfl | split)
@[simp] theorem Context.stepped_wdog (c : Context) (e : Engine) (n : Nat) : (c.stepped e n).wdog = c.wdog := by
  unfold Context.stepped; repeat (first | rfl | split)
@[simp] theorem Context.stepped_ending (c : Context) (e : Engine) (n : Nat) : (c.stepped e n).ending = c.ending := by
  unfold Context.stepped; repeat (first | rfl | split)
@[simp] theorem Context.stepped_pendingFault (c : Context) (e : Engine) (n : Nat) : (c.stepped e n).pendingFault = c.pendingFault := by
  unfold Context.stepped; repeat (first | rfl | split)
@[simp] theorem Context.stepped_own (c : Context) (e : Engine) (n : Nat) : (c.stepped e n).own = c.own := by
  unfold Context.stepped; repeat (first | rfl | split)
@[simp] theorem Context.stepped_clean (c : Context) (e : Engine) (n : Nat) : (c.stepped e n).clean = c.clean := by
  unfold Context.stepped; repeat (first | rfl | split)

@[simp] theorem Context.endIdle_bind (c : Context) : (c.endIdle).bind = c.bind := by unfold Context.endIdle; split <;> simp
@[simp] theorem Context.endIdle_r (c : Context) : (c.endIdle).r = c.r := by unfold Context.endIdle; split <;> simp
@[simp] theorem Context.endIdle_lines (c : Context) : (c.endIdle).lines = c.lines := by unfold Context.endIdle; split <;> simp
@[simp] theorem Context.endIdle_handles (c : Context) : (c.endIdle).handles = c.handles := by unfold Context.endIdle; split <;> simp
@[simp] theorem Context.endIdle_mat (c : Context) : (c.endIdle).mat = c.mat := by unfold Context.endIdle; split <;> simp
@[simp] theorem Context.endIdle_y (c : Context) : (c.endIdle).y = c.y := by unfold Context.endIdle; split <;> simp
@[simp] theorem Context.endIdle_spmode (c : Context) : (c.endIdle).spmode = c.spmode := by unfold Context.endIdle; split <;> simp
@[simp] theorem Context.endIdle_tens (c : Context) : (c.endIdle).tens = c.tens := by unfold Context.endIdle; split <;> simp
@[simp] theorem Context.endIdle_tgen (c : Context) : (c.endIdle).tgen = c.tgen := by unfold Context.endIdle; split <;> simp
@[simp] theorem Context.endIdle_chains (c : Context) : (c.endIdle).chains = c.chains := by unfold Context.endIdle; split <;> simp
@[simp] theorem Context.endIdle_handler (c : Context) : (c.endIdle).handler = c.handler := by unfold Context.endIdle; split <;> simp
@[simp] theorem Context.endIdle_log (c : Context) : (c.endIdle).log = c.log := by unfold Context.endIdle; split <;> simp
@[simp] theorem Context.endIdle_owed (c : Context) : (c.endIdle).owed = c.owed := by unfold Context.endIdle; split <;> simp
@[simp] theorem Context.endIdle_flight (c : Context) : (c.endIdle).flight = c.flight := by unfold Context.endIdle; split <;> simp
@[simp] theorem Context.endIdle_late (c : Context) : (c.endIdle).late = c.late := by unfold Context.endIdle; split <;> simp
@[simp] theorem Context.endIdle_chained (c : Context) : (c.endIdle).chained = c.chained := by unfold Context.endIdle; split <;> simp
@[simp] theorem Context.endIdle_releases (c : Context) : (c.endIdle).releases = c.releases := by unfold Context.endIdle; split <;> simp
@[simp] theorem Context.endIdle_mixes (c : Context) : (c.endIdle).mixes = c.mixes := by unfold Context.endIdle; split <;> simp
@[simp] theorem Context.endIdle_bars (c : Context) : (c.endIdle).bars = c.bars := by unfold Context.endIdle; split <;> simp
@[simp] theorem Context.endIdle_tokens (c : Context) : (c.endIdle).tokens = c.tokens := by unfold Context.endIdle; split <;> simp
@[simp] theorem Context.endIdle_tokPend (c : Context) : (c.endIdle).tokPend = c.tokPend := by unfold Context.endIdle; split <;> simp
@[simp] theorem Context.endIdle_nestV (c : Context) : (c.endIdle).nestV = c.nestV := by unfold Context.endIdle; split <;> simp
@[simp] theorem Context.endIdle_nestM (c : Context) : (c.endIdle).nestM = c.nestM := by unfold Context.endIdle; split <;> simp
@[simp] theorem Context.endIdle_sendV (c : Context) : (c.endIdle).sendV = c.sendV := by unfold Context.endIdle; split <;> simp
@[simp] theorem Context.endIdle_sendM (c : Context) : (c.endIdle).sendM = c.sendM := by unfold Context.endIdle; split <;> simp
@[simp] theorem Context.endIdle_sFlt (c : Context) : (c.endIdle).sFlt = c.sFlt := by unfold Context.endIdle; split <;> simp
@[simp] theorem Context.endIdle_sMigr (c : Context) : (c.endIdle).sMigr = c.sMigr := by unfold Context.endIdle; split <;> simp
@[simp] theorem Context.endIdle_cwaiting (c : Context) : (c.endIdle).cwaiting = c.cwaiting := by unfold Context.endIdle; split <;> simp
@[simp] theorem Context.endIdle_fillsDue (c : Context) : (c.endIdle).fillsDue = c.fillsDue := by unfold Context.endIdle; split <;> simp
@[simp] theorem Context.endIdle_redErrs (c : Context) : (c.endIdle).redErrs = c.redErrs := by unfold Context.endIdle; split <;> simp
@[simp] theorem Context.endIdle_barCount (c : Context) : (c.endIdle).barCount = c.barCount := by unfold Context.endIdle; split <;> simp
@[simp] theorem Context.endIdle_barWait (c : Context) : (c.endIdle).barWait = c.barWait := by unfold Context.endIdle; split <;> simp
@[simp] theorem Context.endIdle_wdog (c : Context) : (c.endIdle).wdog = c.wdog := by unfold Context.endIdle; split <;> simp
@[simp] theorem Context.endIdle_ending (c : Context) : (c.endIdle).ending = c.ending := by unfold Context.endIdle; split <;> simp
@[simp] theorem Context.endIdle_pendingFault (c : Context) : (c.endIdle).pendingFault = c.pendingFault := by unfold Context.endIdle; split <;> simp
@[simp] theorem Context.endIdle_own (c : Context) : (c.endIdle).own = c.own := by unfold Context.endIdle; split <;> simp
@[simp] theorem Context.endIdle_clean (c : Context) : (c.endIdle).clean = c.clean := by unfold Context.endIdle; split <;> simp

@[simp] theorem Context.wake_bind (c : Context) : (c.wake).bind = c.bind := by unfold Context.wake; split <;> simp
@[simp] theorem Context.wake_r (c : Context) : (c.wake).r = c.r := by unfold Context.wake; split <;> simp
@[simp] theorem Context.wake_lines (c : Context) : (c.wake).lines = c.lines := by unfold Context.wake; split <;> simp
@[simp] theorem Context.wake_handles (c : Context) : (c.wake).handles = c.handles := by unfold Context.wake; split <;> simp
@[simp] theorem Context.wake_mat (c : Context) : (c.wake).mat = c.mat := by unfold Context.wake; split <;> simp
@[simp] theorem Context.wake_y (c : Context) : (c.wake).y = c.y := by unfold Context.wake; split <;> simp
@[simp] theorem Context.wake_spmode (c : Context) : (c.wake).spmode = c.spmode := by unfold Context.wake; split <;> simp
@[simp] theorem Context.wake_tens (c : Context) : (c.wake).tens = c.tens := by unfold Context.wake; split <;> simp
@[simp] theorem Context.wake_tgen (c : Context) : (c.wake).tgen = c.tgen := by unfold Context.wake; split <;> simp
@[simp] theorem Context.wake_chains (c : Context) : (c.wake).chains = c.chains := by unfold Context.wake; split <;> simp
@[simp] theorem Context.wake_handler (c : Context) : (c.wake).handler = c.handler := by unfold Context.wake; split <;> simp
@[simp] theorem Context.wake_log (c : Context) : (c.wake).log = c.log := by unfold Context.wake; split <;> simp
@[simp] theorem Context.wake_owed (c : Context) : (c.wake).owed = c.owed := by unfold Context.wake; split <;> simp
@[simp] theorem Context.wake_flight (c : Context) : (c.wake).flight = c.flight := by unfold Context.wake; split <;> simp
@[simp] theorem Context.wake_late (c : Context) : (c.wake).late = c.late := by unfold Context.wake; split <;> simp
@[simp] theorem Context.wake_chained (c : Context) : (c.wake).chained = c.chained := by unfold Context.wake; split <;> simp
@[simp] theorem Context.wake_releases (c : Context) : (c.wake).releases = c.releases := by unfold Context.wake; split <;> simp
@[simp] theorem Context.wake_mixes (c : Context) : (c.wake).mixes = c.mixes := by unfold Context.wake; split <;> simp
@[simp] theorem Context.wake_bars (c : Context) : (c.wake).bars = c.bars := by unfold Context.wake; split <;> simp
@[simp] theorem Context.wake_tokens (c : Context) : (c.wake).tokens = c.tokens := by unfold Context.wake; split <;> simp
@[simp] theorem Context.wake_tokPend (c : Context) : (c.wake).tokPend = c.tokPend := by unfold Context.wake; split <;> simp
@[simp] theorem Context.wake_nestV (c : Context) : (c.wake).nestV = c.nestV := by unfold Context.wake; split <;> simp
@[simp] theorem Context.wake_nestM (c : Context) : (c.wake).nestM = c.nestM := by unfold Context.wake; split <;> simp
@[simp] theorem Context.wake_sendV (c : Context) : (c.wake).sendV = c.sendV := by unfold Context.wake; split <;> simp
@[simp] theorem Context.wake_sendM (c : Context) : (c.wake).sendM = c.sendM := by unfold Context.wake; split <;> simp
@[simp] theorem Context.wake_sFlt (c : Context) : (c.wake).sFlt = c.sFlt := by unfold Context.wake; split <;> simp
@[simp] theorem Context.wake_sMigr (c : Context) : (c.wake).sMigr = c.sMigr := by unfold Context.wake; split <;> simp
@[simp] theorem Context.wake_cwaiting (c : Context) : (c.wake).cwaiting = c.cwaiting := by unfold Context.wake; split <;> simp
@[simp] theorem Context.wake_fillsDue (c : Context) : (c.wake).fillsDue = c.fillsDue := by unfold Context.wake; split <;> simp
@[simp] theorem Context.wake_redErrs (c : Context) : (c.wake).redErrs = c.redErrs := by unfold Context.wake; split <;> simp
@[simp] theorem Context.wake_barCount (c : Context) : (c.wake).barCount = c.barCount := by unfold Context.wake; split <;> simp
@[simp] theorem Context.wake_barWait (c : Context) : (c.wake).barWait = c.barWait := by unfold Context.wake; split <;> simp
@[simp] theorem Context.wake_ending (c : Context) : (c.wake).ending = c.ending := by unfold Context.wake; split <;> simp
@[simp] theorem Context.wake_pendingFault (c : Context) : (c.wake).pendingFault = c.pendingFault := by
  unfold Context.wake; split <;> simp
@[simp] theorem Context.wake_own (c : Context) : (c.wake).own = c.own := by unfold Context.wake; split <;> simp
@[simp] theorem Context.wake_clean (c : Context) : (c.wake).clean = c.clean := by unfold Context.wake; split <;> simp

@[simp] theorem Context.fill_bind (c : Context) (n : Nat) (v : Word) : (c.fill n v).bind = c.bind := by simp [Context.fill]
@[simp] theorem Context.fill_lines (c : Context) (n : Nat) (v : Word) : (c.fill n v).lines = c.lines := by simp [Context.fill]
@[simp] theorem Context.fill_handles (c : Context) (n : Nat) (v : Word) : (c.fill n v).handles = c.handles := by
  simp [Context.fill]
@[simp] theorem Context.fill_mat (c : Context) (n : Nat) (v : Word) : (c.fill n v).mat = c.mat := by simp [Context.fill]
@[simp] theorem Context.fill_y (c : Context) (n : Nat) (v : Word) : (c.fill n v).y = c.y := by simp [Context.fill]
@[simp] theorem Context.fill_spmode (c : Context) (n : Nat) (v : Word) : (c.fill n v).spmode = c.spmode := by simp [Context.fill]
@[simp] theorem Context.fill_tens (c : Context) (n : Nat) (v : Word) : (c.fill n v).tens = c.tens := by simp [Context.fill]
@[simp] theorem Context.fill_tgen (c : Context) (n : Nat) (v : Word) : (c.fill n v).tgen = c.tgen := by simp [Context.fill]
@[simp] theorem Context.fill_chains (c : Context) (n : Nat) (v : Word) : (c.fill n v).chains = c.chains := by simp [Context.fill]
@[simp] theorem Context.fill_handler (c : Context) (n : Nat) (v : Word) : (c.fill n v).handler = c.handler := by
  simp [Context.fill]
@[simp] theorem Context.fill_log (c : Context) (n : Nat) (v : Word) : (c.fill n v).log = c.log := by simp [Context.fill]
@[simp] theorem Context.fill_owed (c : Context) (n : Nat) (v : Word) : (c.fill n v).owed = c.owed := by simp [Context.fill]
@[simp] theorem Context.fill_flight (c : Context) (n : Nat) (v : Word) : (c.fill n v).flight = c.flight := by simp [Context.fill]
@[simp] theorem Context.fill_late (c : Context) (n : Nat) (v : Word) : (c.fill n v).late = c.late := by simp [Context.fill]
@[simp] theorem Context.fill_chained (c : Context) (n : Nat) (v : Word) : (c.fill n v).chained = c.chained := by simp [Context.fill]
@[simp] theorem Context.fill_releases (c : Context) (n : Nat) (v : Word) : (c.fill n v).releases = c.releases := by
  simp [Context.fill]
@[simp] theorem Context.fill_mixes (c : Context) (n : Nat) (v : Word) : (c.fill n v).mixes = c.mixes := by simp [Context.fill]
@[simp] theorem Context.fill_bars (c : Context) (n : Nat) (v : Word) : (c.fill n v).bars = c.bars := by simp [Context.fill]
@[simp] theorem Context.fill_tokens (c : Context) (n : Nat) (v : Word) : (c.fill n v).tokens = c.tokens := by simp [Context.fill]
@[simp] theorem Context.fill_tokPend (c : Context) (n : Nat) (v : Word) : (c.fill n v).tokPend = c.tokPend := by
  simp [Context.fill]
@[simp] theorem Context.fill_nestV (c : Context) (n : Nat) (v : Word) : (c.fill n v).nestV = c.nestV := by simp [Context.fill]
@[simp] theorem Context.fill_nestM (c : Context) (n : Nat) (v : Word) : (c.fill n v).nestM = c.nestM := by simp [Context.fill]
@[simp] theorem Context.fill_sendV (c : Context) (n : Nat) (v : Word) : (c.fill n v).sendV = c.sendV := by simp [Context.fill]
@[simp] theorem Context.fill_sendM (c : Context) (n : Nat) (v : Word) : (c.fill n v).sendM = c.sendM := by simp [Context.fill]
@[simp] theorem Context.fill_sFlt (c : Context) (n : Nat) (v : Word) : (c.fill n v).sFlt = c.sFlt := by simp [Context.fill]
@[simp] theorem Context.fill_sMigr (c : Context) (n : Nat) (v : Word) : (c.fill n v).sMigr = c.sMigr := by simp [Context.fill]
@[simp] theorem Context.fill_cwaiting (c : Context) (n : Nat) (v : Word) : (c.fill n v).cwaiting = c.cwaiting := by
  simp [Context.fill]
@[simp] theorem Context.fill_fillsDue (c : Context) (n : Nat) (v : Word) : (c.fill n v).fillsDue = c.fillsDue := by
  simp [Context.fill]
@[simp] theorem Context.fill_redErrs (c : Context) (n : Nat) (v : Word) : (c.fill n v).redErrs = c.redErrs := by
  simp [Context.fill]
@[simp] theorem Context.fill_barCount (c : Context) (n : Nat) (v : Word) : (c.fill n v).barCount = c.barCount := by
  simp [Context.fill]
@[simp] theorem Context.fill_barWait (c : Context) (n : Nat) (v : Word) : (c.fill n v).barWait = c.barWait := by
  simp [Context.fill]
@[simp] theorem Context.fill_ending (c : Context) (n : Nat) (v : Word) : (c.fill n v).ending = c.ending := by simp [Context.fill]
@[simp] theorem Context.fill_pendingFault (c : Context) (n : Nat) (v : Word) : (c.fill n v).pendingFault = c.pendingFault := by
  simp [Context.fill]
@[simp] theorem Context.fill_own (c : Context) (n : Nat) (v : Word) : (c.fill n v).own = c.own := by simp [Context.fill]
@[simp] theorem Context.fill_clean (c : Context) (n : Nat) (v : Word) : (c.fill n v).clean = c.clean := by simp [Context.fill]

@[simp] theorem Context.resolve_bind (c : Context) (x : Resolved) : (c.resolve x).bind = c.bind := by
  unfold Context.resolve; repeat (first | rfl | split)
@[simp] theorem Context.resolve_r (c : Context) (x : Resolved) : (c.resolve x).r = c.r := by
  unfold Context.resolve; repeat (first | rfl | split)
@[simp] theorem Context.resolve_lines (c : Context) (x : Resolved) : (c.resolve x).lines = c.lines := by
  unfold Context.resolve; repeat (first | rfl | split)
@[simp] theorem Context.resolve_handles (c : Context) (x : Resolved) : (c.resolve x).handles = c.handles := by
  unfold Context.resolve; repeat (first | rfl | split)
@[simp] theorem Context.resolve_mat (c : Context) (x : Resolved) : (c.resolve x).mat = c.mat := by
  unfold Context.resolve; repeat (first | rfl | split)
@[simp] theorem Context.resolve_y (c : Context) (x : Resolved) : (c.resolve x).y = c.y := by
  unfold Context.resolve; repeat (first | rfl | split)
@[simp] theorem Context.resolve_spmode (c : Context) (x : Resolved) : (c.resolve x).spmode = c.spmode := by
  unfold Context.resolve; repeat (first | rfl | split)
@[simp] theorem Context.resolve_tens (c : Context) (x : Resolved) : (c.resolve x).tens = c.tens := by
  unfold Context.resolve; repeat (first | rfl | split)
@[simp] theorem Context.resolve_tgen (c : Context) (x : Resolved) : (c.resolve x).tgen = c.tgen := by
  unfold Context.resolve; repeat (first | rfl | split)
@[simp] theorem Context.resolve_chains (c : Context) (x : Resolved) : (c.resolve x).chains = c.chains := by
  unfold Context.resolve; repeat (first | rfl | split)
@[simp] theorem Context.resolve_pos (c : Context) (x : Resolved) : (c.resolve x).pos = c.pos := by
  unfold Context.resolve; repeat (first | rfl | split)
@[simp] theorem Context.resolve_hpos (c : Context) (x : Resolved) : (c.resolve x).hpos = c.hpos := by
  unfold Context.resolve; repeat (first | rfl | split)
@[simp] theorem Context.resolve_handler (c : Context) (x : Resolved) : (c.resolve x).handler = c.handler := by
  unfold Context.resolve; repeat (first | rfl | split)
@[simp] theorem Context.resolve_owed (c : Context) (x : Resolved) : (c.resolve x).owed = c.owed := by
  unfold Context.resolve; repeat (first | rfl | split)
@[simp] theorem Context.resolve_flight (c : Context) (x : Resolved) : (c.resolve x).flight = c.flight := by
  unfold Context.resolve; repeat (first | rfl | split)
@[simp] theorem Context.resolve_late (c : Context) (x : Resolved) : (c.resolve x).late = c.late := by
  unfold Context.resolve; repeat (first | rfl | split)
@[simp] theorem Context.resolve_chained (c : Context) (x : Resolved) : (c.resolve x).chained = c.chained := by
  unfold Context.resolve; repeat (first | rfl | split)
@[simp] theorem Context.resolve_releases (c : Context) (x : Resolved) : (c.resolve x).releases = c.releases := by
  unfold Context.resolve; repeat (first | rfl | split)
@[simp] theorem Context.resolve_mixes (c : Context) (x : Resolved) : (c.resolve x).mixes = c.mixes := by
  unfold Context.resolve; repeat (first | rfl | split)
@[simp] theorem Context.resolve_bars (c : Context) (x : Resolved) : (c.resolve x).bars = c.bars := by
  unfold Context.resolve; repeat (first | rfl | split)
@[simp] theorem Context.resolve_tokens (c : Context) (x : Resolved) : (c.resolve x).tokens = c.tokens := by
  unfold Context.resolve; repeat (first | rfl | split)
@[simp] theorem Context.resolve_tokPend (c : Context) (x : Resolved) : (c.resolve x).tokPend = c.tokPend := by
  unfold Context.resolve; repeat (first | rfl | split)
@[simp] theorem Context.resolve_nestV (c : Context) (x : Resolved) : (c.resolve x).nestV = c.nestV := by
  unfold Context.resolve; repeat (first | rfl | split)
@[simp] theorem Context.resolve_nestM (c : Context) (x : Resolved) : (c.resolve x).nestM = c.nestM := by
  unfold Context.resolve; repeat (first | rfl | split)
@[simp] theorem Context.resolve_sendV (c : Context) (x : Resolved) : (c.resolve x).sendV = c.sendV := by
  unfold Context.resolve; repeat (first | rfl | split)
@[simp] theorem Context.resolve_sendM (c : Context) (x : Resolved) : (c.resolve x).sendM = c.sendM := by
  unfold Context.resolve; repeat (first | rfl | split)
@[simp] theorem Context.resolve_flt (c : Context) (x : Resolved) : (c.resolve x).flt = c.flt := by
  unfold Context.resolve; repeat (first | rfl | split)
@[simp] theorem Context.resolve_sFlt (c : Context) (x : Resolved) : (c.resolve x).sFlt = c.sFlt := by
  unfold Context.resolve; repeat (first | rfl | split)
@[simp] theorem Context.resolve_sMigr (c : Context) (x : Resolved) : (c.resolve x).sMigr = c.sMigr := by
  unfold Context.resolve; repeat (first | rfl | split)
@[simp] theorem Context.resolve_idle (c : Context) (x : Resolved) : (c.resolve x).idle = c.idle := by
  unfold Context.resolve; repeat (first | rfl | split)
@[simp] theorem Context.resolve_cwaiting (c : Context) (x : Resolved) : (c.resolve x).cwaiting = c.cwaiting := by
  unfold Context.resolve; repeat (first | rfl | split)
@[simp] theorem Context.resolve_fillsDue (c : Context) (x : Resolved) : (c.resolve x).fillsDue = c.fillsDue := by
  unfold Context.resolve; repeat (first | rfl | split)
@[simp] theorem Context.resolve_redErrs (c : Context) (x : Resolved) : (c.resolve x).redErrs = c.redErrs := by
  unfold Context.resolve; repeat (first | rfl | split)
@[simp] theorem Context.resolve_barCount (c : Context) (x : Resolved) : (c.resolve x).barCount = c.barCount := by
  unfold Context.resolve; repeat (first | rfl | split)
@[simp] theorem Context.resolve_barWait (c : Context) (x : Resolved) : (c.resolve x).barWait = c.barWait := by
  unfold Context.resolve; repeat (first | rfl | split)
@[simp] theorem Context.resolve_wdog (c : Context) (x : Resolved) : (c.resolve x).wdog = c.wdog := by
  unfold Context.resolve; repeat (first | rfl | split)
@[simp] theorem Context.resolve_ending (c : Context) (x : Resolved) : (c.resolve x).ending = c.ending := by
  unfold Context.resolve; repeat (first | rfl | split)
@[simp] theorem Context.resolve_halted (c : Context) (x : Resolved) : (c.resolve x).halted = c.halted := by
  unfold Context.resolve; repeat (first | rfl | split)
@[simp] theorem Context.resolve_stepping (c : Context) (x : Resolved) : (c.resolve x).stepping = c.stepping := by
  unfold Context.resolve; repeat (first | rfl | split)
@[simp] theorem Context.resolve_pendingFault (c : Context) (x : Resolved) : (c.resolve x).pendingFault = c.pendingFault := by
  unfold Context.resolve; repeat (first | rfl | split)
@[simp] theorem Context.resolve_preempting (c : Context) (x : Resolved) : (c.resolve x).preempting = c.preempting := by
  unfold Context.resolve; repeat (first | rfl | split)
@[simp] theorem Context.resolve_haltCode (c : Context) (x : Resolved) : (c.resolve x).haltCode = c.haltCode := by
  unfold Context.resolve; repeat (first | rfl | split)
@[simp] theorem Context.resolve_own (c : Context) (x : Resolved) : (c.resolve x).own = c.own := by
  unfold Context.resolve; repeat (first | rfl | split)
@[simp] theorem Context.resolve_clean (c : Context) (x : Resolved) : (c.resolve x).clean = c.clean := by
  unfold Context.resolve; repeat (first | rfl | split)

@[simp] theorem Context.wrPhys_bind (c : Context) (n : Nat) (v : BitVec 128) : (c.wrPhys n v).bind = c.bind := by
  unfold Context.wrPhys; split <;> simp
@[simp] theorem Context.wrPhys_lines (c : Context) (n : Nat) (v : BitVec 128) : (c.wrPhys n v).lines = c.lines := by
  unfold Context.wrPhys; split <;> simp
@[simp] theorem Context.wrPhys_handles (c : Context) (n : Nat) (v : BitVec 128) : (c.wrPhys n v).handles = c.handles := by
  unfold Context.wrPhys; split <;> simp
@[simp] theorem Context.wrPhys_mat (c : Context) (n : Nat) (v : BitVec 128) : (c.wrPhys n v).mat = c.mat := by
  unfold Context.wrPhys; split <;> simp
@[simp] theorem Context.wrPhys_y (c : Context) (n : Nat) (v : BitVec 128) : (c.wrPhys n v).y = c.y := by
  unfold Context.wrPhys; split <;> simp
@[simp] theorem Context.wrPhys_spmode (c : Context) (n : Nat) (v : BitVec 128) : (c.wrPhys n v).spmode = c.spmode := by
  unfold Context.wrPhys; split <;> simp
@[simp] theorem Context.wrPhys_tens (c : Context) (n : Nat) (v : BitVec 128) : (c.wrPhys n v).tens = c.tens := by
  unfold Context.wrPhys; split <;> simp
@[simp] theorem Context.wrPhys_tgen (c : Context) (n : Nat) (v : BitVec 128) : (c.wrPhys n v).tgen = c.tgen := by
  unfold Context.wrPhys; split <;> simp
@[simp] theorem Context.wrPhys_chains (c : Context) (n : Nat) (v : BitVec 128) : (c.wrPhys n v).chains = c.chains := by
  unfold Context.wrPhys; split <;> simp
@[simp] theorem Context.wrPhys_pos (c : Context) (n : Nat) (v : BitVec 128) : (c.wrPhys n v).pos = c.pos := by
  unfold Context.wrPhys; split <;> simp
@[simp] theorem Context.wrPhys_hpos (c : Context) (n : Nat) (v : BitVec 128) : (c.wrPhys n v).hpos = c.hpos := by
  unfold Context.wrPhys; split <;> simp
@[simp] theorem Context.wrPhys_handler (c : Context) (n : Nat) (v : BitVec 128) : (c.wrPhys n v).handler = c.handler := by
  unfold Context.wrPhys; split <;> simp
@[simp] theorem Context.wrPhys_log (c : Context) (n : Nat) (v : BitVec 128) : (c.wrPhys n v).log = c.log := by
  unfold Context.wrPhys; split <;> simp
@[simp] theorem Context.wrPhys_flight (c : Context) (n : Nat) (v : BitVec 128) : (c.wrPhys n v).flight = c.flight := by
  unfold Context.wrPhys; split <;> simp
@[simp] theorem Context.wrPhys_late (c : Context) (n : Nat) (v : BitVec 128) : (c.wrPhys n v).late = c.late := by
  unfold Context.wrPhys; split <;> simp
@[simp] theorem Context.wrPhys_chained (c : Context) (n : Nat) (v : BitVec 128) : (c.wrPhys n v).chained = c.chained := by
  unfold Context.wrPhys; split <;> simp
@[simp] theorem Context.wrPhys_releases (c : Context) (n : Nat) (v : BitVec 128) : (c.wrPhys n v).releases = c.releases := by
  unfold Context.wrPhys; split <;> simp
@[simp] theorem Context.wrPhys_mixes (c : Context) (n : Nat) (v : BitVec 128) : (c.wrPhys n v).mixes = c.mixes := by
  unfold Context.wrPhys; split <;> simp
@[simp] theorem Context.wrPhys_bars (c : Context) (n : Nat) (v : BitVec 128) : (c.wrPhys n v).bars = c.bars := by
  unfold Context.wrPhys; split <;> simp
@[simp] theorem Context.wrPhys_tokens (c : Context) (n : Nat) (v : BitVec 128) : (c.wrPhys n v).tokens = c.tokens := by
  unfold Context.wrPhys; split <;> simp
@[simp] theorem Context.wrPhys_tokPend (c : Context) (n : Nat) (v : BitVec 128) : (c.wrPhys n v).tokPend = c.tokPend := by
  unfold Context.wrPhys; split <;> simp
@[simp] theorem Context.wrPhys_nestV (c : Context) (n : Nat) (v : BitVec 128) : (c.wrPhys n v).nestV = c.nestV := by
  unfold Context.wrPhys; split <;> simp
@[simp] theorem Context.wrPhys_nestM (c : Context) (n : Nat) (v : BitVec 128) : (c.wrPhys n v).nestM = c.nestM := by
  unfold Context.wrPhys; split <;> simp
@[simp] theorem Context.wrPhys_sendV (c : Context) (n : Nat) (v : BitVec 128) : (c.wrPhys n v).sendV = c.sendV := by
  unfold Context.wrPhys; split <;> simp
@[simp] theorem Context.wrPhys_sendM (c : Context) (n : Nat) (v : BitVec 128) : (c.wrPhys n v).sendM = c.sendM := by
  unfold Context.wrPhys; split <;> simp
@[simp] theorem Context.wrPhys_flt (c : Context) (n : Nat) (v : BitVec 128) : (c.wrPhys n v).flt = c.flt := by
  unfold Context.wrPhys; split <;> simp
@[simp] theorem Context.wrPhys_sFlt (c : Context) (n : Nat) (v : BitVec 128) : (c.wrPhys n v).sFlt = c.sFlt := by
  unfold Context.wrPhys; split <;> simp
@[simp] theorem Context.wrPhys_sMigr (c : Context) (n : Nat) (v : BitVec 128) : (c.wrPhys n v).sMigr = c.sMigr := by
  unfold Context.wrPhys; split <;> simp
@[simp] theorem Context.wrPhys_idle (c : Context) (n : Nat) (v : BitVec 128) : (c.wrPhys n v).idle = c.idle := by
  unfold Context.wrPhys; split <;> simp
@[simp] theorem Context.wrPhys_cwaiting (c : Context) (n : Nat) (v : BitVec 128) : (c.wrPhys n v).cwaiting = c.cwaiting := by
  unfold Context.wrPhys; split <;> simp
@[simp] theorem Context.wrPhys_fillsDue (c : Context) (n : Nat) (v : BitVec 128) : (c.wrPhys n v).fillsDue = c.fillsDue := by
  unfold Context.wrPhys; split <;> simp
@[simp] theorem Context.wrPhys_redErrs (c : Context) (n : Nat) (v : BitVec 128) : (c.wrPhys n v).redErrs = c.redErrs := by
  unfold Context.wrPhys; split <;> simp
@[simp] theorem Context.wrPhys_barCount (c : Context) (n : Nat) (v : BitVec 128) : (c.wrPhys n v).barCount = c.barCount := by
  unfold Context.wrPhys; split <;> simp
@[simp] theorem Context.wrPhys_barWait (c : Context) (n : Nat) (v : BitVec 128) : (c.wrPhys n v).barWait = c.barWait := by
  unfold Context.wrPhys; split <;> simp
@[simp] theorem Context.wrPhys_wdog (c : Context) (n : Nat) (v : BitVec 128) : (c.wrPhys n v).wdog = c.wdog := by
  unfold Context.wrPhys; split <;> simp
@[simp] theorem Context.wrPhys_ending (c : Context) (n : Nat) (v : BitVec 128) : (c.wrPhys n v).ending = c.ending := by
  unfold Context.wrPhys; split <;> simp
@[simp] theorem Context.wrPhys_halted (c : Context) (n : Nat) (v : BitVec 128) : (c.wrPhys n v).halted = c.halted := by
  unfold Context.wrPhys; split <;> simp
@[simp] theorem Context.wrPhys_stepping (c : Context) (n : Nat) (v : BitVec 128) : (c.wrPhys n v).stepping = c.stepping := by
  unfold Context.wrPhys; split <;> simp
@[simp] theorem Context.wrPhys_pendingFault (c : Context) (n : Nat) (v : BitVec 128) : (c.wrPhys n v).pendingFault = c.pendingFault := by
  unfold Context.wrPhys; split <;> simp
@[simp] theorem Context.wrPhys_preempting (c : Context) (n : Nat) (v : BitVec 128) : (c.wrPhys n v).preempting = c.preempting := by
  unfold Context.wrPhys; split <;> simp
@[simp] theorem Context.wrPhys_haltCode (c : Context) (n : Nat) (v : BitVec 128) : (c.wrPhys n v).haltCode = c.haltCode := by
  unfold Context.wrPhys; split <;> simp
@[simp] theorem Context.wrPhys_own (c : Context) (n : Nat) (v : BitVec 128) : (c.wrPhys n v).own = c.own := by
  unfold Context.wrPhys; split <;> simp
@[simp] theorem Context.wrPhys_clean (c : Context) (n : Nat) (v : BitVec 128) : (c.wrPhys n v).clean = c.clean := by
  unfold Context.wrPhys; split <;> simp

@[simp] theorem Context.wrP_bind (c : Context) (e : Engine) (n : Nat) (v : BitVec 128) : (c.wrP e n v).bind = c.bind :=
  Context.wrPhys_bind ..
@[simp] theorem Context.wrP_lines (c : Context) (e : Engine) (n : Nat) (v : BitVec 128) : (c.wrP e n v).lines = c.lines :=
  Context.wrPhys_lines ..
@[simp] theorem Context.wrP_handles (c : Context) (e : Engine) (n : Nat) (v : BitVec 128) : (c.wrP e n v).handles = c.handles :=
  Context.wrPhys_handles ..
@[simp] theorem Context.wrP_mat (c : Context) (e : Engine) (n : Nat) (v : BitVec 128) : (c.wrP e n v).mat = c.mat :=
  Context.wrPhys_mat ..
@[simp] theorem Context.wrP_y (c : Context) (e : Engine) (n : Nat) (v : BitVec 128) : (c.wrP e n v).y = c.y := Context.wrPhys_y ..
@[simp] theorem Context.wrP_spmode (c : Context) (e : Engine) (n : Nat) (v : BitVec 128) : (c.wrP e n v).spmode = c.spmode :=
  Context.wrPhys_spmode ..
@[simp] theorem Context.wrP_tens (c : Context) (e : Engine) (n : Nat) (v : BitVec 128) : (c.wrP e n v).tens = c.tens :=
  Context.wrPhys_tens ..
@[simp] theorem Context.wrP_tgen (c : Context) (e : Engine) (n : Nat) (v : BitVec 128) : (c.wrP e n v).tgen = c.tgen :=
  Context.wrPhys_tgen ..
@[simp] theorem Context.wrP_chains (c : Context) (e : Engine) (n : Nat) (v : BitVec 128) : (c.wrP e n v).chains = c.chains :=
  Context.wrPhys_chains ..
@[simp] theorem Context.wrP_pos (c : Context) (e : Engine) (n : Nat) (v : BitVec 128) : (c.wrP e n v).pos = c.pos :=
  Context.wrPhys_pos ..
@[simp] theorem Context.wrP_hpos (c : Context) (e : Engine) (n : Nat) (v : BitVec 128) : (c.wrP e n v).hpos = c.hpos :=
  Context.wrPhys_hpos ..
@[simp] theorem Context.wrP_handler (c : Context) (e : Engine) (n : Nat) (v : BitVec 128) : (c.wrP e n v).handler = c.handler :=
  Context.wrPhys_handler ..
@[simp] theorem Context.wrP_log (c : Context) (e : Engine) (n : Nat) (v : BitVec 128) : (c.wrP e n v).log = c.log :=
  Context.wrPhys_log ..
@[simp] theorem Context.wrP_flight (c : Context) (e : Engine) (n : Nat) (v : BitVec 128) : (c.wrP e n v).flight = c.flight :=
  Context.wrPhys_flight ..
@[simp] theorem Context.wrP_late (c : Context) (e : Engine) (n : Nat) (v : BitVec 128) : (c.wrP e n v).late = c.late :=
  Context.wrPhys_late ..
@[simp] theorem Context.wrP_chained (c : Context) (e : Engine) (n : Nat) (v : BitVec 128) : (c.wrP e n v).chained = c.chained :=
  Context.wrPhys_chained ..
@[simp] theorem Context.wrP_releases (c : Context) (e : Engine) (n : Nat) (v : BitVec 128) : (c.wrP e n v).releases = c.releases :=
  Context.wrPhys_releases ..
@[simp] theorem Context.wrP_mixes (c : Context) (e : Engine) (n : Nat) (v : BitVec 128) : (c.wrP e n v).mixes = c.mixes :=
  Context.wrPhys_mixes ..
@[simp] theorem Context.wrP_bars (c : Context) (e : Engine) (n : Nat) (v : BitVec 128) : (c.wrP e n v).bars = c.bars :=
  Context.wrPhys_bars ..
@[simp] theorem Context.wrP_tokens (c : Context) (e : Engine) (n : Nat) (v : BitVec 128) : (c.wrP e n v).tokens = c.tokens :=
  Context.wrPhys_tokens ..
@[simp] theorem Context.wrP_tokPend (c : Context) (e : Engine) (n : Nat) (v : BitVec 128) : (c.wrP e n v).tokPend = c.tokPend :=
  Context.wrPhys_tokPend ..
@[simp] theorem Context.wrP_nestV (c : Context) (e : Engine) (n : Nat) (v : BitVec 128) : (c.wrP e n v).nestV = c.nestV :=
  Context.wrPhys_nestV ..
@[simp] theorem Context.wrP_nestM (c : Context) (e : Engine) (n : Nat) (v : BitVec 128) : (c.wrP e n v).nestM = c.nestM :=
  Context.wrPhys_nestM ..
@[simp] theorem Context.wrP_sendV (c : Context) (e : Engine) (n : Nat) (v : BitVec 128) : (c.wrP e n v).sendV = c.sendV :=
  Context.wrPhys_sendV ..
@[simp] theorem Context.wrP_sendM (c : Context) (e : Engine) (n : Nat) (v : BitVec 128) : (c.wrP e n v).sendM = c.sendM :=
  Context.wrPhys_sendM ..
@[simp] theorem Context.wrP_flt (c : Context) (e : Engine) (n : Nat) (v : BitVec 128) : (c.wrP e n v).flt = c.flt :=
  Context.wrPhys_flt ..
@[simp] theorem Context.wrP_sFlt (c : Context) (e : Engine) (n : Nat) (v : BitVec 128) : (c.wrP e n v).sFlt = c.sFlt :=
  Context.wrPhys_sFlt ..
@[simp] theorem Context.wrP_sMigr (c : Context) (e : Engine) (n : Nat) (v : BitVec 128) : (c.wrP e n v).sMigr = c.sMigr :=
  Context.wrPhys_sMigr ..
@[simp] theorem Context.wrP_idle (c : Context) (e : Engine) (n : Nat) (v : BitVec 128) : (c.wrP e n v).idle = c.idle :=
  Context.wrPhys_idle ..
@[simp] theorem Context.wrP_cwaiting (c : Context) (e : Engine) (n : Nat) (v : BitVec 128) : (c.wrP e n v).cwaiting = c.cwaiting :=
  Context.wrPhys_cwaiting ..
@[simp] theorem Context.wrP_fillsDue (c : Context) (e : Engine) (n : Nat) (v : BitVec 128) : (c.wrP e n v).fillsDue = c.fillsDue :=
  Context.wrPhys_fillsDue ..
@[simp] theorem Context.wrP_redErrs (c : Context) (e : Engine) (n : Nat) (v : BitVec 128) : (c.wrP e n v).redErrs = c.redErrs :=
  Context.wrPhys_redErrs ..
@[simp] theorem Context.wrP_barCount (c : Context) (e : Engine) (n : Nat) (v : BitVec 128) : (c.wrP e n v).barCount = c.barCount :=
  Context.wrPhys_barCount ..
@[simp] theorem Context.wrP_barWait (c : Context) (e : Engine) (n : Nat) (v : BitVec 128) : (c.wrP e n v).barWait = c.barWait :=
  Context.wrPhys_barWait ..
@[simp] theorem Context.wrP_wdog (c : Context) (e : Engine) (n : Nat) (v : BitVec 128) : (c.wrP e n v).wdog = c.wdog :=
  Context.wrPhys_wdog ..
@[simp] theorem Context.wrP_ending (c : Context) (e : Engine) (n : Nat) (v : BitVec 128) : (c.wrP e n v).ending = c.ending :=
  Context.wrPhys_ending ..
@[simp] theorem Context.wrP_halted (c : Context) (e : Engine) (n : Nat) (v : BitVec 128) : (c.wrP e n v).halted = c.halted :=
  Context.wrPhys_halted ..
@[simp] theorem Context.wrP_stepping (c : Context) (e : Engine) (n : Nat) (v : BitVec 128) : (c.wrP e n v).stepping = c.stepping :=
  Context.wrPhys_stepping ..
@[simp] theorem Context.wrP_pendingFault (c : Context) (e : Engine) (n : Nat) (v : BitVec 128) : (c.wrP e n v).pendingFault = c.pendingFault :=
  Context.wrPhys_pendingFault ..
@[simp] theorem Context.wrP_preempting (c : Context) (e : Engine) (n : Nat) (v : BitVec 128) : (c.wrP e n v).preempting = c.preempting :=
  Context.wrPhys_preempting ..
@[simp] theorem Context.wrP_haltCode (c : Context) (e : Engine) (n : Nat) (v : BitVec 128) : (c.wrP e n v).haltCode = c.haltCode :=
  Context.wrPhys_haltCode ..
@[simp] theorem Context.wrP_own (c : Context) (e : Engine) (n : Nat) (v : BitVec 128) : (c.wrP e n v).own = c.own :=
  Context.wrPhys_own ..
@[simp] theorem Context.wrP_clean (c : Context) (e : Engine) (n : Nat) (v : BitVec 128) : (c.wrP e n v).clean = c.clean :=
  Context.wrPhys_clean ..

@[simp] theorem Context.wrS_bind (c : Context) (d : Reg) (v : Word) : (c.wrS d v).bind = c.bind := by
  unfold Context.wrS; split <;> (try split) <;> simp
@[simp] theorem Context.wrS_lines (c : Context) (d : Reg) (v : Word) : (c.wrS d v).lines = c.lines := by
  unfold Context.wrS; split <;> (try split) <;> simp
@[simp] theorem Context.wrS_handles (c : Context) (d : Reg) (v : Word) : (c.wrS d v).handles = c.handles := by
  unfold Context.wrS; split <;> (try split) <;> simp
@[simp] theorem Context.wrS_mat (c : Context) (d : Reg) (v : Word) : (c.wrS d v).mat = c.mat := by
  unfold Context.wrS; split <;> (try split) <;> simp
@[simp] theorem Context.wrS_y (c : Context) (d : Reg) (v : Word) : (c.wrS d v).y = c.y := by
  unfold Context.wrS; split <;> (try split) <;> simp
@[simp] theorem Context.wrS_spmode (c : Context) (d : Reg) (v : Word) : (c.wrS d v).spmode = c.spmode := by
  unfold Context.wrS; split <;> (try split) <;> simp
@[simp] theorem Context.wrS_tens (c : Context) (d : Reg) (v : Word) : (c.wrS d v).tens = c.tens := by
  unfold Context.wrS; split <;> (try split) <;> simp
@[simp] theorem Context.wrS_tgen (c : Context) (d : Reg) (v : Word) : (c.wrS d v).tgen = c.tgen := by
  unfold Context.wrS; split <;> (try split) <;> simp
@[simp] theorem Context.wrS_chains (c : Context) (d : Reg) (v : Word) : (c.wrS d v).chains = c.chains := by
  unfold Context.wrS; split <;> (try split) <;> simp
@[simp] theorem Context.wrS_pos (c : Context) (d : Reg) (v : Word) : (c.wrS d v).pos = c.pos := by
  unfold Context.wrS; split <;> (try split) <;> simp
@[simp] theorem Context.wrS_hpos (c : Context) (d : Reg) (v : Word) : (c.wrS d v).hpos = c.hpos := by
  unfold Context.wrS; split <;> (try split) <;> simp
@[simp] theorem Context.wrS_handler (c : Context) (d : Reg) (v : Word) : (c.wrS d v).handler = c.handler := by
  unfold Context.wrS; split <;> (try split) <;> simp
@[simp] theorem Context.wrS_log (c : Context) (d : Reg) (v : Word) : (c.wrS d v).log = c.log := by
  unfold Context.wrS; split <;> (try split) <;> simp
@[simp] theorem Context.wrS_flight (c : Context) (d : Reg) (v : Word) : (c.wrS d v).flight = c.flight := by
  unfold Context.wrS; split <;> (try split) <;> simp
@[simp] theorem Context.wrS_late (c : Context) (d : Reg) (v : Word) : (c.wrS d v).late = c.late := by
  unfold Context.wrS; split <;> (try split) <;> simp
@[simp] theorem Context.wrS_chained (c : Context) (d : Reg) (v : Word) : (c.wrS d v).chained = c.chained := by
  unfold Context.wrS; split <;> (try split) <;> simp
@[simp] theorem Context.wrS_releases (c : Context) (d : Reg) (v : Word) : (c.wrS d v).releases = c.releases := by
  unfold Context.wrS; split <;> (try split) <;> simp
@[simp] theorem Context.wrS_mixes (c : Context) (d : Reg) (v : Word) : (c.wrS d v).mixes = c.mixes := by
  unfold Context.wrS; split <;> (try split) <;> simp
@[simp] theorem Context.wrS_bars (c : Context) (d : Reg) (v : Word) : (c.wrS d v).bars = c.bars := by
  unfold Context.wrS; split <;> (try split) <;> simp
@[simp] theorem Context.wrS_tokens (c : Context) (d : Reg) (v : Word) : (c.wrS d v).tokens = c.tokens := by
  unfold Context.wrS; split <;> (try split) <;> simp
@[simp] theorem Context.wrS_tokPend (c : Context) (d : Reg) (v : Word) : (c.wrS d v).tokPend = c.tokPend := by
  unfold Context.wrS; split <;> (try split) <;> simp
@[simp] theorem Context.wrS_nestV (c : Context) (d : Reg) (v : Word) : (c.wrS d v).nestV = c.nestV := by
  unfold Context.wrS; split <;> (try split) <;> simp
@[simp] theorem Context.wrS_nestM (c : Context) (d : Reg) (v : Word) : (c.wrS d v).nestM = c.nestM := by
  unfold Context.wrS; split <;> (try split) <;> simp
@[simp] theorem Context.wrS_sendV (c : Context) (d : Reg) (v : Word) : (c.wrS d v).sendV = c.sendV := by
  unfold Context.wrS; split <;> (try split) <;> simp
@[simp] theorem Context.wrS_sendM (c : Context) (d : Reg) (v : Word) : (c.wrS d v).sendM = c.sendM := by
  unfold Context.wrS; split <;> (try split) <;> simp
@[simp] theorem Context.wrS_flt (c : Context) (d : Reg) (v : Word) : (c.wrS d v).flt = c.flt := by
  unfold Context.wrS; split <;> (try split) <;> simp
@[simp] theorem Context.wrS_sFlt (c : Context) (d : Reg) (v : Word) : (c.wrS d v).sFlt = c.sFlt := by
  unfold Context.wrS; split <;> (try split) <;> simp
@[simp] theorem Context.wrS_sMigr (c : Context) (d : Reg) (v : Word) : (c.wrS d v).sMigr = c.sMigr := by
  unfold Context.wrS; split <;> (try split) <;> simp
@[simp] theorem Context.wrS_idle (c : Context) (d : Reg) (v : Word) : (c.wrS d v).idle = c.idle := by
  unfold Context.wrS; split <;> (try split) <;> simp
@[simp] theorem Context.wrS_cwaiting (c : Context) (d : Reg) (v : Word) : (c.wrS d v).cwaiting = c.cwaiting := by
  unfold Context.wrS; split <;> (try split) <;> simp
@[simp] theorem Context.wrS_fillsDue (c : Context) (d : Reg) (v : Word) : (c.wrS d v).fillsDue = c.fillsDue := by
  unfold Context.wrS; split <;> (try split) <;> simp
@[simp] theorem Context.wrS_redErrs (c : Context) (d : Reg) (v : Word) : (c.wrS d v).redErrs = c.redErrs := by
  unfold Context.wrS; split <;> (try split) <;> simp
@[simp] theorem Context.wrS_barCount (c : Context) (d : Reg) (v : Word) : (c.wrS d v).barCount = c.barCount := by
  unfold Context.wrS; split <;> (try split) <;> simp
@[simp] theorem Context.wrS_barWait (c : Context) (d : Reg) (v : Word) : (c.wrS d v).barWait = c.barWait := by
  unfold Context.wrS; split <;> (try split) <;> simp
@[simp] theorem Context.wrS_wdog (c : Context) (d : Reg) (v : Word) : (c.wrS d v).wdog = c.wdog := by
  unfold Context.wrS; split <;> (try split) <;> simp
@[simp] theorem Context.wrS_ending (c : Context) (d : Reg) (v : Word) : (c.wrS d v).ending = c.ending := by
  unfold Context.wrS; split <;> (try split) <;> simp
@[simp] theorem Context.wrS_halted (c : Context) (d : Reg) (v : Word) : (c.wrS d v).halted = c.halted := by
  unfold Context.wrS; split <;> (try split) <;> simp
@[simp] theorem Context.wrS_stepping (c : Context) (d : Reg) (v : Word) : (c.wrS d v).stepping = c.stepping := by
  unfold Context.wrS; split <;> (try split) <;> simp
@[simp] theorem Context.wrS_pendingFault (c : Context) (d : Reg) (v : Word) : (c.wrS d v).pendingFault = c.pendingFault := by
  unfold Context.wrS; split <;> (try split) <;> simp
@[simp] theorem Context.wrS_preempting (c : Context) (d : Reg) (v : Word) : (c.wrS d v).preempting = c.preempting := by
  unfold Context.wrS; split <;> (try split) <;> simp
@[simp] theorem Context.wrS_haltCode (c : Context) (d : Reg) (v : Word) : (c.wrS d v).haltCode = c.haltCode := by
  unfold Context.wrS; split <;> (try split) <;> simp
@[simp] theorem Context.wrS_own (c : Context) (d : Reg) (v : Word) : (c.wrS d v).own = c.own := by
  unfold Context.wrS; split <;> (try split) <;> simp
@[simp] theorem Context.wrS_clean (c : Context) (d : Reg) (v : Word) : (c.wrS d v).clean = c.clean := by
  unfold Context.wrS; split <;> (try split) <;> simp

@[simp] theorem Context.purgeH_r_s (c : Context) (n : RegName) : (c.purgeH n).r.s = c.r.s := by simp
@[simp] theorem Context.purgeH_r_bank (c : Context) (n : RegName) : (c.purgeH n).r.bank = c.r.bank := by simp
@[simp] theorem Context.purgeH_r_p (c : Context) (n : RegName) : (c.purgeH n).r.p = c.r.p := by simp
@[simp] theorem Context.purgeH_r_ex (c : Context) (n : RegName) : (c.purgeH n).r.ex = c.r.ex := by simp
@[simp] theorem Context.purgeH_r_exFull (c : Context) (n : RegName) : (c.purgeH n).r.exFull = c.r.exFull := by simp
@[simp] theorem Context.purgeH_r_rbase (c : Context) (n : RegName) : (c.purgeH n).r.rbase = c.r.rbase := by simp
@[simp] theorem Context.purgeH_r_fpmode (c : Context) (n : RegName) : (c.purgeH n).r.fpmode = c.r.fpmode := by simp
@[simp] theorem Context.purgeH_r_flags (c : Context) (n : RegName) : (c.purgeH n).r.flags = c.r.flags := by simp
@[simp] theorem Context.purgeH_r_srseed (c : Context) (n : RegName) : (c.purgeH n).r.srseed = c.r.srseed := by simp
@[simp] theorem Context.purgeH_r_latmode (c : Context) (n : RegName) : (c.purgeH n).r.latmode = c.r.latmode := by simp
@[simp] theorem Context.purgeH_r_span (c : Context) (n : RegName) : (c.purgeH n).r.span = c.r.span := by simp
@[simp] theorem Context.purgeH_r_txsel (c : Context) (n : RegName) : (c.purgeH n).r.txsel = c.r.txsel := by simp
@[simp] theorem Context.purgeH_r_qsel (c : Context) (n : RegName) : (c.purgeH n).r.qsel = c.r.qsel := by simp
@[simp] theorem Context.purgeH_r_gver (c : Context) (n : RegName) : (c.purgeH n).r.gver = c.r.gver := by simp
@[simp] theorem Context.purgeH_r_frep (c : Context) (n : RegName) : (c.purgeH n).r.frep = c.r.frep := by simp
@[simp] theorem Context.purgeH_r_cls (c : Context) (n : RegName) : (c.purgeH n).r.cls = c.r.cls := by simp

@[simp] theorem Context.wrS_r_p (c : Context) (d : Reg) (v : Word) : (c.wrS d v).r.p = c.r.p := by
  unfold Context.wrS; split <;> (try split) <;> simp
@[simp] theorem Context.wrS_r_ex (c : Context) (d : Reg) (v : Word) : (c.wrS d v).r.ex = c.r.ex := by
  unfold Context.wrS; split <;> (try split) <;> simp
@[simp] theorem Context.wrS_r_exFull (c : Context) (d : Reg) (v : Word) : (c.wrS d v).r.exFull = c.r.exFull := by
  unfold Context.wrS; split <;> (try split) <;> simp
@[simp] theorem Context.wrS_r_rbase (c : Context) (d : Reg) (v : Word) : (c.wrS d v).r.rbase = c.r.rbase := by
  unfold Context.wrS; split <;> (try split) <;> simp
@[simp] theorem Context.wrS_r_fpmode (c : Context) (d : Reg) (v : Word) : (c.wrS d v).r.fpmode = c.r.fpmode := by
  unfold Context.wrS; split <;> (try split) <;> simp
@[simp] theorem Context.wrS_r_flags (c : Context) (d : Reg) (v : Word) : (c.wrS d v).r.flags = c.r.flags := by
  unfold Context.wrS; split <;> (try split) <;> simp
@[simp] theorem Context.wrS_r_srseed (c : Context) (d : Reg) (v : Word) : (c.wrS d v).r.srseed = c.r.srseed := by
  unfold Context.wrS; split <;> (try split) <;> simp
@[simp] theorem Context.wrS_r_latmode (c : Context) (d : Reg) (v : Word) : (c.wrS d v).r.latmode = c.r.latmode := by
  unfold Context.wrS; split <;> (try split) <;> simp
@[simp] theorem Context.wrS_r_span (c : Context) (d : Reg) (v : Word) : (c.wrS d v).r.span = c.r.span := by
  unfold Context.wrS; split <;> (try split) <;> simp
@[simp] theorem Context.wrS_r_txsel (c : Context) (d : Reg) (v : Word) : (c.wrS d v).r.txsel = c.r.txsel := by
  unfold Context.wrS; split <;> (try split) <;> simp
@[simp] theorem Context.wrS_r_qsel (c : Context) (d : Reg) (v : Word) : (c.wrS d v).r.qsel = c.r.qsel := by
  unfold Context.wrS; split <;> (try split) <;> simp
@[simp] theorem Context.wrS_r_gver (c : Context) (d : Reg) (v : Word) : (c.wrS d v).r.gver = c.r.gver := by
  unfold Context.wrS; split <;> (try split) <;> simp
@[simp] theorem Context.wrS_r_frep (c : Context) (d : Reg) (v : Word) : (c.wrS d v).r.frep = c.r.frep := by
  unfold Context.wrS; split <;> (try split) <;> simp
@[simp] theorem Context.wrS_r_cls (c : Context) (d : Reg) (v : Word) : (c.wrS d v).r.cls = c.r.cls := by
  unfold Context.wrS; split <;> (try split) <;> simp

end Sys2Proof.Machine
end

