-- ==== Sys2Proof/Laws/Store.lean ====
section
/-!
SUPPORT. Sparse maps: what is read after a write, and that every write keeps the canonical form; the same of memory's
writes of many bytes.
-/
namespace Sys2Proof.Machine

variable {α : Type}

/-- What is put at a key is found there. -/
@[simp] theorem find?_put_same (m : Store α) (n : Nat) (v : α) : find? (put m n v) n = some v := by
  induction m with
  | nil => simp [put, find?]
  | cons e r ih =>
    obtain ⟨k, w⟩ := e
    unfold put
    split
    · simp [find?]
    · split
      · simp [find?]
      · rename_i h1 h2
        simp [find?, show ¬ k = n by omega, ih]

/-- A put leaves every other key alone. -/
theorem find?_put_other (m : Store α) (n q : Nat) (v : α) (h : q ≠ n) : find? (put m n v) q = find? m q := by
  induction m with
  | nil => simp [put, find?, Ne.symm h]
  | cons e r ih =>
    obtain ⟨k, w⟩ := e
    unfold put
    split
    · simp [find?, Ne.symm h]
    · split
      · subst_vars; simp [find?, Ne.symm h]
      · simp only [find?]; split <;> simp_all

/-- A removed key is not found. -/
@[simp] theorem find?_del_same (m : Store α) (n : Nat) : find? (del m n) n = none := by
  induction m with
  | nil => rfl
  | cons e r ih =>
    obtain ⟨k, w⟩ := e
    unfold del
    split
    · exact ih
    · simp [find?, *]

/-- A removal leaves every other key alone. -/
theorem find?_del_other (m : Store α) (n q : Nat) (h : q ≠ n) : find? (del m n) q = find? m q := by
  induction m with
  | nil => rfl
  | cons e r ih =>
    obtain ⟨k, w⟩ := e
    unfold del
    split
    · subst_vars; simp [find?, Ne.symm h, ih]
    · simp only [find?]; split <;> simp_all

/-- A value written at a key is read there, also the default. -/
@[simp] theorem lookD_putD_same [DecidableEq α] (m : Store α) (n : Nat) (v d : α) : lookD (putD m n v d) n d = v := by
  unfold putD
  by_cases h : v = d
  · rw [if_pos h, lookD, find?_del_same, h]
  · rw [if_neg h, lookD, find?_put_same]

/-- A value written at a key leaves every other key alone. -/
theorem lookD_putD_other [DecidableEq α] (m : Store α) (n q : Nat) (v d : α) (h : q ≠ n) :
    lookD (putD m n v d) q d = lookD m q d := by
  unfold putD
  by_cases hv : v = d
  · rw [if_pos hv, lookD, find?_del_other m n q h, lookD]
  · rw [if_neg hv, lookD, find?_put_other m n q v h, lookD]

/-! The canonical form. -/

/-- Keys that rise from a bound rise from any lower one. -/
theorem risingFrom_mono {b b' : Nat} (m : Store α) (h : b' ≤ b) (hm : risingFrom b m = true) : risingFrom b' m = true := by
  cases m with
  | nil => rfl
  | cons e r =>
    obtain ⟨k, w⟩ := e
    simp only [risingFrom, Bool.and_eq_true, decide_eq_true_eq] at hm ⊢
    exact ⟨by omega, hm.2⟩

/-- A removal keeps the keys rising. -/
theorem risingFrom_del (m : Store α) (n : Nat) : ∀ b, risingFrom b m = true → risingFrom b (del m n) = true := by
  induction m with
  | nil => intro b h; exact h
  | cons e r ih =>
    obtain ⟨k, w⟩ := e
    intro b h
    simp only [risingFrom, Bool.and_eq_true, decide_eq_true_eq] at h
    unfold del
    split
    · exact ih b (risingFrom_mono r (by omega) h.2)
    · simp only [risingFrom, Bool.and_eq_true, decide_eq_true_eq]
      exact ⟨h.1, ih _ h.2⟩

/-- A put keeps the keys rising. -/
theorem risingFrom_put (m : Store α) (n : Nat) (v : α) :
    ∀ b, b ≤ n → risingFrom b m = true → risingFrom b (put m n v) = true := by
  induction m with
  | nil => intro b hb _; simp [put, risingFrom, hb]
  | cons e r ih =>
    obtain ⟨k, w⟩ := e
    intro b hb h
    simp only [risingFrom, Bool.and_eq_true, decide_eq_true_eq] at h
    unfold put
    split
    · simp only [risingFrom, Bool.and_eq_true, decide_eq_true_eq]
      exact ⟨hb, by omega, h.2⟩
    · split
      · subst_vars
        simp only [risingFrom, Bool.and_eq_true, decide_eq_true_eq]
        exact ⟨hb, h.2⟩
      · simp only [risingFrom, Bool.and_eq_true, decide_eq_true_eq]
        exact ⟨h.1, ih _ (by omega) h.2⟩

/-- The entries left by a removal were there. -/
theorem mem_del {m : Store α} {n : Nat} {e : Nat × α} (h : e ∈ del m n) : e ∈ m := by
  induction m with
  | nil => exact h
  | cons x r ih =>
    obtain ⟨k, w⟩ := x
    unfold del at h
    split at h
    · exact List.mem_cons_of_mem _ (ih h)
    · rcases List.mem_cons.1 h with h | h
      · exact h ▸ List.mem_cons_self
      · exact List.mem_cons_of_mem _ (ih h)

/-- The entries after a put are the new one and ones that were there. -/
theorem mem_put {m : Store α} {n : Nat} {v : α} {e : Nat × α} (h : e ∈ put m n v) : e = (n, v) ∨ e ∈ m := by
  induction m with
  | nil => simpa [put] using h
  | cons x r ih =>
    obtain ⟨k, w⟩ := x
    unfold put at h
    split at h
    · simpa using h
    · split at h
      · rcases List.mem_cons.1 h with h | h
        · exact .inl h
        · exact .inr (List.mem_cons_of_mem _ h)
      · rcases List.mem_cons.1 h with h | h
        · exact .inr (h ▸ List.mem_cons_self)
        · rcases ih h with h | h
          · exact .inl h
          · exact .inr (List.mem_cons_of_mem _ h)

/-- A write keeps a map's canonical form. -/
theorem wfD_putD [DecidableEq α] (m : Store α) (n : Nat) (v d : α) (h : wfD m d = true) : wfD (putD m n v d) d = true := by
  simp only [wfD, Bool.and_eq_true, List.all_eq_true, decide_eq_true_eq] at h ⊢
  unfold putD
  split
  · exact ⟨risingFrom_del m n 0 h.1, fun e he => h.2 e (mem_del he)⟩
  · rename_i hv
    refine ⟨risingFrom_put m n v 0 (Nat.zero_le n) h.1, fun e he => ?_⟩
    rcases mem_put he with rfl | he
    · exact hv
    · exact h.2 e he

/-! Memory. -/

/-- A written byte keeps memory canonical. -/
theorem Memory.wf_write (m : Memory) (a : Nat) (b : Byte) (h : m.wf = true) : (m.write a b).wf = true :=
  wfD_putD m a b unlistedByte h

/-- Written bytes keep memory canonical. -/
theorem Memory.wf_writeN (n : Nat) : ∀ (m : Memory) (a v : Nat), m.wf = true → (m.writeN a n v).wf = true := by
  induction n with
  | zero => intro m a v h; exact h
  | succ n ih => intro m a v h; exact ih _ _ _ (Memory.wf_write m a _ h)

/-- A written part keeps memory canonical. -/
theorem wf_writePart (t : Trans) (n : Nat) :
    ∀ (m : Memory) (i v : Nat), m.wf = true → (writePart m t i n v).wf = true := by
  induction n with
  | zero => intro m i v h; exact h
  | succ n ih => intro m i v h; exact ih _ _ _ (Memory.wf_write m _ _ h)

/-- Written parts keep memory canonical. -/
theorem wf_writeParts (ps : List Part) : ∀ (m : Memory) (v : Nat), m.wf = true → (writeParts m ps v).wf = true := by
  induction ps with
  | nil => intro m v h; exact h
  | cons p r ih => intro m v h; exact ih _ _ (wf_writePart p.t p.len m 0 v h)

/-- A store keeps memory canonical. -/
theorem State.wf_store (s : State) (ps : List Part) (v : Nat) (h : s.mem.wf = true) : (s.store ps v).mem.wf = true :=
  wf_writeParts ps s.mem v h

end Sys2Proof.Machine
end

