-- ==== Sys2Proof/Laws/Ops.lean ====
section
/-!
SUPPORT. What the shared operations can do: running a meaning of the running context, taking a fault, translating and
noting an access. Each is said once, to be cited.
-/
namespace Sys2Proof.Machine

/-- The context put at a position stands there. -/
@[simp] theorem State.ctx?_setCtx_same (s : State) (p : Nat) (c : Context) : (s.setCtx p c).ctx? p = some c :=
  find?_put_same s.ctxs p c

/-- A context put at a position leaves the others. -/
theorem State.ctx?_setCtx_other (s : State) (p q : Nat) (c : Context) (h : q ≠ p) : (s.setCtx p c).ctx? q = s.ctx? q :=
  find?_put_other s.ctxs p q c h

/-- A report moves no context. -/
@[simp] theorem State.ctx?_report (s : State) (r : Report) (p : Nat) : (s.report r).ctx? p = s.ctx? p := rfl

/-- Everything a meaning of the context alone can do: the context becomes what the meaning gives, or its fault is
taken, or nothing moves. -/
theorem runC_cases {s t : State} {c : Context} {f : Engine → Context → Res Context} (hc : s.ctx? s.cur = some c)
    (h : runC s f = .next t) :
    (∃ c', f s.eng c = .ok c' ∧ t = s.setCtx s.cur c') ∨
    (∃ x, f s.eng c = .error (.trap x) ∧ t = takeTrap s s.cur c s.eng x) ∨
    (f s.eng c = .error .wait ∧ t = s) := by
  simp only [runC, hc] at h
  cases hf : f s.eng c with
  | ok c' => simp only [hf] at h; cases h; exact .inl ⟨c', rfl, rfl⟩
  | error st =>
    simp only [hf] at h
    cases st with
    | trap x => cases h; exact .inr (.inl ⟨x, rfl, rfl⟩)
    | wait => cases h; exact .inr (.inr ⟨rfl, rfl⟩)

/-- Everything a meaning of the machine can do: what the meaning gives, or the fault taken, or nothing moves. -/
theorem runS_cases {s t : State} {c : Context} {f : Engine → Context → Res State} (hc : s.ctx? s.cur = some c)
    (h : runS s f = .next t) :
    f s.eng c = .ok t ∨ (∃ x, f s.eng c = .error (.trap x) ∧ t = takeTrap s s.cur c s.eng x) ∨
    (f s.eng c = .error .wait ∧ t = s) := by
  simp only [runS, hc] at h
  cases hf : f s.eng c with
  | ok s' => simp only [hf] at h; cases h; exact .inl rfl
  | error st =>
    simp only [hf] at h
    cases st with
    | trap x => cases h; exact .inr (.inl ⟨x, rfl, rfl⟩)
    | wait => cases h; exact .inr (.inr ⟨rfl, rfl⟩)

/-- A meaning that answers moves on with its answer. -/
theorem runC_ok {s : State} {c c' : Context} {f : Engine → Context → Res Context} (hc : s.ctx? s.cur = some c)
    (hf : f s.eng c = .ok c') : runC s f = .next (s.setCtx s.cur c') := by
  simp only [runC, hc, hf]

/-- A meaning that raises a fault takes it. -/
theorem runC_trap {s : State} {c : Context} {x : Trap} {f : Engine → Context → Res Context}
    (hc : s.ctx? s.cur = some c) (hf : f s.eng c = .error (.trap x)) :
    runC s f = .next (takeTrap s s.cur c s.eng x) := by
  simp only [runC, hc, hf, stopWith]

/-- A meaning that waits leaves the machine. -/
theorem runC_wait {s : State} {c : Context} {f : Engine → Context → Res Context}
    (hc : s.ctx? s.cur = some c) (hf : f s.eng c = .error .wait) : runC s f = .next s := by
  simp only [runC, hc, hf, stopWith]

/-- A meaning of the machine that answers moves on with its answer. -/
theorem runS_ok {s s' : State} {c : Context} {f : Engine → Context → Res State} (hc : s.ctx? s.cur = some c)
    (hf : f s.eng c = .ok s') : runS s f = .next s' := by
  simp only [runS, hc, hf]

/-- A meaning of the machine that raises a fault takes it. -/
theorem runS_trap {s : State} {c : Context} {x : Trap} {f : Engine → Context → Res State}
    (hc : s.ctx? s.cur = some c) (hf : f s.eng c = .error (.trap x)) :
    runS s f = .next (takeTrap s s.cur c s.eng x) := by
  simp only [runS, hc, hf, stopWith]

/-- A meaning of the machine that waits leaves the machine. -/
theorem runS_wait {s : State} {c : Context} {f : Engine → Context → Res State}
    (hc : s.ctx? s.cur = some c) (hf : f s.eng c = .error .wait) : runS s f = .next s := by
  simp only [runS, hc, hf, stopWith]

/-- `t` has at most contexts of launch `lid`, shared handles and reports other than `s`. -/
structure SameBut (lid : Nat) (s t : State) : Prop where
  mem : t.mem = s.mem
  launches : t.launches = s.launches
  circuits : t.circuits = s.circuits
  cards : t.cards = s.cards
  links : t.links = s.links
  agenda : t.agenda = s.agenda
  cur : t.cur = s.cur
  others : ∀ q x, s.ctx? q = some x → x.bind.lid ≠ lid → t.ctx? q = some x

theorem SameBut.refl (lid : Nat) (s : State) : SameBut lid s s :=
  ⟨rfl, rfl, rfl, rfl, rfl, rfl, rfl, fun _ _ h _ => h⟩

theorem SameBut.trans {lid : Nat} {s t u : State} (h : SameBut lid s t) (k : SameBut lid t u) : SameBut lid s u :=
  ⟨k.mem.trans h.mem, k.launches.trans h.launches, k.circuits.trans h.circuits, k.cards.trans h.cards,
    k.links.trans h.links, k.agenda.trans h.agenda, k.cur.trans h.cur,
    fun q x hq hx => k.others q x (h.others q x hq hx) hx⟩

/-- What a map over the entries finds at a key whose entry it keeps. -/
theorem find?_map_keep {α : Type} (m : Store α) (g : Nat × α → Nat × α) (q : Nat) (x : α)
    (hk : ∀ e, (g e).1 = e.1) (hg : g (q, x) = (q, x)) (h : find? m q = some x) : find? (m.map g) q = some x := by
  induction m with
  | nil => exact h
  | cons e r ih =>
    obtain ⟨k, w⟩ := e
    simp only [find?, List.map_cons] at h ⊢
    have hk' := hk (k, w)
    cases hgw : g (k, w) with
    | mk k' w' =>
      rw [hgw] at hk'
      simp only at hk'
      subst hk'
      split
      · subst_vars
        simp only [if_true] at h
        cases h
        rw [hg] at hgw
        cases hgw
        rfl
      · rename_i hne
        rw [if_neg hne] at h
        exact ih h

/-- A wake-up touches the launch's own contexts alone. -/
theorem wakeDie_sameBut (s : State) (lid die h : Nat) : SameBut lid s (wakeDie s lid die h) := by
  refine ⟨rfl, rfl, rfl, rfl, rfl, rfl, rfl, fun q x hq hx => ?_⟩
  refine find?_map_keep s.ctxs _ q x (fun e => ?_) ?_ hq
  · split <;> rfl
  · simp [Context.shares, hx]

/-- A handle's bits are held by the launch. -/
theorem setHBits_sameBut (s : State) (c : Context) (pos h : Nat) (d : Handle) (b : HBits) :
    SameBut c.bind.lid s (setHBits s c pos h d b).1 := by
  unfold setHBits
  split
  · dsimp only
    split
    · exact ⟨rfl, rfl, rfl, rfl, rfl, rfl, rfl, fun _ _ hq _ => hq⟩
    · have k (x : Store ShInst) := wakeDie_sameBut { s with shInsts := x } c.bind.lid (dieOf pos) h
      exact ⟨rfl, rfl, rfl, rfl, rfl, rfl, rfl, fun q x hq hx => (k _).others q x hq hx⟩
  · exact .refl _ _

/-- A handle's bits do not change the context's binding. -/
theorem setHBits_bind (s : State) (c : Context) (pos h : Nat) (d : Handle) (b : HBits) :
    (setHBits s c pos h d b).2.bind = c.bind := by
  unfold setHBits
  split <;> dsimp only <;> split <;> simp

/-- One release touches its launch alone. -/
theorem applyRelease_sameBut (pos : Nat) (s : State) (c : Context) (r : Release) :
    SameBut c.bind.lid s (applyRelease pos (s, c) r).1 ∧ (applyRelease pos (s, c) r).2.bind = c.bind := by
  cases r with
  | fill h n first =>
    simp only [applyRelease]
    split
    · exact ⟨.refl _ _, rfl⟩
    · exact ⟨setHBits_sameBut _ _ _ _ _ _, setHBits_bind _ _ _ _ _ _⟩
  | drain h n first =>
    simp only [applyRelease]
    split
    · exact ⟨.refl _ _, rfl⟩
    · exact ⟨setHBits_sameBut _ _ _ _ _ _, setHBits_bind _ _ _ _ _ _⟩
  | token a b n => exact ⟨.refl _ _, rfl⟩

/-- Releases touch their launch alone. -/
theorem foldl_applyRelease_sameBut (pos : Nat) (rs : List Recorded) : ∀ (s : State) (c : Context),
    SameBut c.bind.lid s (rs.foldl (fun sc r => applyRelease pos sc r.rel) (s, c)).1 ∧
      (rs.foldl (fun sc r => applyRelease pos sc r.rel) (s, c)).2.bind = c.bind := by
  induction rs with
  | nil => intro s c; exact ⟨.refl _ _, rfl⟩
  | cons r rest ih =>
    intro s c
    obtain ⟨h1, h2⟩ := applyRelease_sameBut pos s c r.rel
    obtain ⟨h3, h4⟩ := ih (applyRelease pos (s, c) r.rel).1 (applyRelease pos (s, c) r.rel).2
    rw [h2] at h3 h4
    exact ⟨h1.trans h3, h4⟩

/-- A context put at a position of its own launch touches the launch alone. -/
theorem setCtx_sameBut (s : State) (p : Nat) (c c' : Context) (hc : s.ctx? p = some c) :
    SameBut c.bind.lid s (s.setCtx p c') := by
  refine ⟨rfl, rfl, rfl, rfl, rfl, rfl, rfl, fun q x h hx => ?_⟩
  by_cases hq : q = p
  · subst hq; rw [hc] at h; cases h; exact absurd rfl hx
  · rw [State.ctx?_setCtx_other s p q c' hq]; exact h

/-- A report touches no context. -/
theorem report_sameBut (lid : Nat) (s : State) (r : Report) : SameBut lid s (s.report r) :=
  ⟨rfl, rfl, rfl, rfl, rfl, rfl, rfl, fun _ _ h _ => h⟩

/-- All recorded releases touch their launch alone. -/
theorem applyReleases_sameBut (pos : Nat) (s : State) (c : Context) (lid : Nat) (h : c.bind.lid = lid) :
    SameBut lid s (applyReleases pos s c).1 :=
  h ▸ (foldl_applyRelease_sameBut pos c.releases s c).1

/-- A context put where one of the launch stood, after steps that touch the launch alone. -/
theorem SameBut.setCtx {s t : State} {p : Nat} {c : Context} (h : SameBut c.bind.lid s t) (hc : s.ctx? p = some c)
    (c' : Context) : SameBut c.bind.lid s (t.setCtx p c') := by
  refine ⟨h.mem, h.launches, h.circuits, h.cards, h.links, h.agenda, h.cur, fun q x hq hx => ?_⟩
  by_cases hqp : q = p
  · subst hqp; rw [hc] at hq; cases hq; exact absurd rfl hx
  · rw [State.ctx?_setCtx_other t p q c' hqp]; exact h.others q x hq hx

/-- Entering the handler touches the launch alone (R318, R319). -/
theorem enterHandler_sameBut (s : State) (pos : Nat) (c : Context) (e : Engine) (t : Trap) (hc : s.ctx? pos = some c) :
    SameBut c.bind.lid s (enterHandler s pos c e t) := by
  unfold enterHandler
  refine SameBut.setCtx (applyReleases_sameBut pos s _ _ ?_) hc _
  dsimp only [Context.settleSpe]
  unfold Context.resumeAt
  split <;> simp

/-- Delivering a fault touches its launch alone, and reports. -/
theorem deliverTrap_sameBut (s : State) (pos : Nat) (c : Context) (e : Engine) (t : Trap) (hc : s.ctx? pos = some c) :
    SameBut c.bind.lid s (deliverTrap s pos c e t) := by
  unfold deliverTrap
  split
  · exact (setCtx_sameBut s pos c _ hc).trans (report_sameBut _ _ _)
  · split
    · split
      · exact setCtx_sameBut s pos c _ hc
      · exact setCtx_sameBut s pos c _ hc
    · exact enterHandler_sameBut s pos c e t hc

/-- Noting what an error found touches no context. -/
theorem noteFound_sameBut (lid : Nat) (s : State) (t : Trap) : SameBut lid s (s.noteFound t) := by
  unfold State.noteFound; split
  · exact report_sameBut _ _ _
  · exact .refl _ _

/-- Noting what an error found leaves every context. -/
@[simp] theorem noteFound_ctx? (s : State) (t : Trap) (p : Nat) : (s.noteFound t).ctx? p = s.ctx? p := by
  unfold State.noteFound; split <;> rfl

/-- Everything that taking a fault can do beside its own context: its launch's shared handles and waking contexts, and
reports. -/
theorem takeTrap_sameBut (s : State) (pos : Nat) (c : Context) (e : Engine) (t : Trap) (hc : s.ctx? pos = some c) :
    SameBut c.bind.lid s (takeTrap s pos c e t) := by
  have hn : (s.noteFound t).ctx? pos = some c := by simpa using hc
  refine (noteFound_sameBut c.bind.lid s t).trans ?_
  unfold takeTrap
  dsimp only
  split
  · exact setCtx_sameBut _ pos c _ hn
  · split
    · exact setCtx_sameBut _ pos c _ hn
    · exact deliverTrap_sameBut _ pos c e t hn

/-- A meaning of the context alone touches its launch alone, also where it faults. -/
theorem runC_sameBut {s t : State} {c : Context} {f : Engine → Context → Res Context} (hc : s.ctx? s.cur = some c)
    (h : runC s f = .next t) : SameBut c.bind.lid s t := by
  obtain ⟨c', -, rfl⟩ | ⟨x, -, rfl⟩ | ⟨-, rfl⟩ := runC_cases hc h
  · exact setCtx_sameBut s s.cur c c' hc
  · exact takeTrap_sameBut s s.cur c s.eng x hc
  · exact .refl _ _

end Sys2Proof.Machine
end

