-- ==== Sys2Proof/Tests/Slice0.lean ====
section
/-!
SUPPORT. Words of the spec decode to what they stand for, ill-formed terms are refused, single steps have the results that
the spec's examples and tables give, and every statement's hypotheses are met by a concrete state.
-/
namespace Sys2Proof.Tests

-- Checked one after the other, so that the kernel evaluates no two of them at once.
set_option Elab.async false

open Sys2Proof.Machine Sys2Proof.Says

/-! Decoding: words printed in the spec. -/

/-- CTL words (spec/04, spec/06, spec/14, spec/15, spec/19, spec/21). -/
theorem test_decode_ctl :
    decodeTableWord 64 0x08001050FFFFFFC0 = some (.addi ⟨4, 5, -64⟩) ∧
    decodeTableWord 64 0x035020928BD00000 = some (.ffma ⟨8, 9, 10, 11, true⟩) ∧
    decodeTableWord 64 0x08802400529E0040 = some (.movi ⟨9, 0x529E0040⟩) ∧
    decodeTableWord 64 0x0130BAC000000000 = some (.ctz ⟨46, 44⟩) ∧
    decodeTableWord 64 0x090070D300000600 = some (.lds ⟨28, 13, .w64, 0x600⟩) ∧
    decodeTableWord 64 0x0900556000000001 = some (.lds ⟨21, 22, .b8, 1⟩) ∧
    decodeTableWord 64 0x09102C1300004000 = some (.sts ⟨11, 1, .w64, 16384⟩) ∧
    decodeTableWord 64 0x0A00E00000000080 = some (.sysrd ⟨56, 0x80⟩) ∧
    decodeTableWord 64 0x0A10039000000088 = some (.syswrFpc ⟨0, 57⟩) ∧
    decodeTableWord 64 0x0A10004000000012 = some (.syswrTshape ⟨2, 4⟩) ∧
    decodeTableWord 64 0x050000A2C0000000 = some (.mcfg ⟨0, 10, 11⟩) ∧
    decodeTableWord 64 0x0510000000000000 = some .mgo ∧
    decodeTableWord 64 0x0520000000000000 = some .mwait ∧
    decodeTableWord 64 0x0530240000000000 = some (.mstat 9) := by decide +kernel

/-- Control transfer (spec/03, spec/04, spec/07, spec/14). -/
theorem test_decode_all :
    decodeTableWord 64 0xE0101407FFFFFFF0 = some (.bc ⟨5, 3, -2, .nz⟩) ∧
    decodeTableWord 64 0xE0501871FFFFFFF8 = some (.loop ⟨6, 7, 0, -1⟩) ∧
    decodeTableWord 64 0xE060000000000000 = some .endTask ∧
    decodeTableWord 64 0xE070000000000000 = some .tret := by decide +kernel

/-- VEC words (spec/03, spec/05, spec/18). -/
theorem test_decode_vec :
    decodeTableWord 64 0x2003C00140086004 = some (.vadd ⟨3, .f32, 0, .reg 40, .reg 33, .handle 2⟩) ∧
    decodeTableWord 64 0x22C0B04962103280 = some (.vcvt ⟨0, .bf16, 0, .line 300, .line 64, .f32, .sr, 0, false⟩) ∧
    decodeTableWord 64 0x2560C09000000064 = some (.pseti ⟨.f32, 9, 0, 0, 100⟩) ∧
    decodeTableWord 64 0x22307B408603C000 = some (.vmov ⟨0, .b32, 11, .line 16, .scalar 15, .i4, .fpmode, 0, false⟩) := by
  decide +kernel

/-- MAT words (spec/06). -/
theorem test_decode_mat :
    decodeTableWord 64 0x4000400001000000 = some (.tcfg ⟨0, 2, .i4, .reg 0, 4, 0, 0, .fpmode, 0⟩) ∧
    decodeTableWord 64 0x4020408401400000 = some (.trowld ⟨0, 2, .i4, .line 64, 5, 0, 0, .fpmode, 0⟩) ∧
    decodeTableWord 64 0x4080560000041400 = some (.tmma ⟨0, 2, .bf16, .reg 0, 0, 4, 5, .fpmode, 0⟩) ∧
    decodeTableWord 64 0x40905692C2000082 = some (.tout ⟨0, 2, .bf16, .line 300, 8, 0, 0, .rne, 1⟩) ∧
    decodeTableWord 64 0x40C0000001840006 = some (.oload ⟨0, 0, .i4, .reg 0, 6, 4, 0, .fpmode, 3⟩) := by decide +kernel

/-- SPE words (spec/07); CNT holds the count less one. -/
theorem test_decode_spe :
    decodeTableWord 64 0x6000000000000003 = some (.spmode ⟨0, 0, 0, .reg 0, 0, 3⟩) ∧
    decodeTableWord 64 0x6010100000420058 = some (.spld ⟨0, 256, 0, .line 64, 11, 0⟩) ∧
    decodeTableWord 64 0x6020050000420818 = some (.spst ⟨0, 80, 0, .line 65, 3, 0⟩) ∧
    decodeTableWord 64 0x6030200100000078 = some (.spmov ⟨0, 512, 256, .reg 0, 15, 0⟩) ∧
    decodeTableWord 64 0x60501000FF000059 = some (.spnorm ⟨0, 256, 255, .reg 0, 11, 1⟩) := by decide +kernel

/-- MEM words (spec/11, spec/12). -/
theorem test_decode_mem :
    decodeTableWord 64 0x8000400020000000 = some (.vld ⟨0, .line 0, 1, 0, 0⟩) ∧
    decodeTableWord 64 0x80008010A0000000 = some (.vld ⟨0, .handle 2, 5, 0, 0⟩) ∧
    decodeTableWord 64 0x8000404064000040 = some (.vld ⟨0, .line 8, 3, 4, 64⟩) ∧
    decodeTableWord 64 0x8020414063800000 = some (.vldt ⟨0, .line 40, 3, 7, 0⟩) ∧
    decodeTableWord 64 0x804043221804C900 = some (.vgath ⟨0, .line 100, .line 96, 4, .f32, 9, 0⟩) ∧
    decodeTableWord 64 0x806040A0C0000000 = some (.wld ⟨0, .line 20, 6, 0, 0⟩) ∧
    decodeTableWord 64 0x8080000080001000 = some (.pref ⟨0, .reg 0, 4, 0, 4096⟩) ∧
    decodeTableWord 64 0x8220000000000000 = some .swfence ∧
    decodeTableWord 64 0x8100105187900000 = some (.atom ⟨4, 5, 6, 7, .cas, false⟩) ∧
    decodeTableWord 64 0x8100105180040000 = some (.atom ⟨4, 5, 6, 0, .add, true⟩) ∧
    decodeTableWord 64 0x8110005180A00000 = some (.red ⟨0, 5, 6, 0, .fadd, false⟩) ∧
    decodeTableWord 64 0x8200601800000000 = some (.fence ⟨.rel, .circ, 3⟩) ∧
    decodeTableWord 64 0x8210000300000000 = some (.sbar 3) := by decide +kernel

/-- SYN words (spec/09, spec/10, spec/13, spec/16). -/
theorem test_decode_syn :
    decodeTableWord 64 0xA000009020000000 = some (.hcfg ⟨2, 9⟩) ∧
    decodeTableWord 64 0xA010240020000000 = some (.hstat ⟨9, 2⟩) ∧
    decodeTableWord 64 0xA020000020100000 = some (.waitf ⟨2, 1⟩) ∧
    decodeTableWord 64 0xA050000020100000 = some (.advp ⟨2, 1⟩) ∧
    decodeTableWord 64 0xA080000280100000 = some (.tksend ⟨.vec, .mat, 1⟩) ∧
    decodeTableWord 64 0xA100000020000000 = some (.bar 2) ∧
    decodeTableWord 64 0xA110000000000000 = some .phase ∧
    decodeTableWord 64 0xA120007010000000 = some (.launch ⟨1, 7⟩) ∧
    decodeTableWord 64 0xA180000020041400 = some (.cpost ⟨2, .line 40⟩) ∧
    decodeTableWord 64 0xA190009020000000 = some (.waitseq ⟨2, 9⟩) ∧
    decodeTableWord 64 0xA1A0280020000000 = some (.seqrd ⟨10, 2⟩) ∧
    decodeTableWord 64 0xA200007000000000 = some (.fstep 7) ∧
    decodeTableWord 64 0xA210240030000000 = some (.cstat ⟨9, 3⟩) ∧
    decodeTableWord 64 0xA220000030000000 = some (.cwait 3) ∧
    decodeTableWord 64 0xA230008000000000 = some (.fhint 8) := by decide +kernel

/-- The operations of a circuit program (spec/16, spec/18, spec/19). -/
theorem test_decode_sequencer :
    decodeSeqOp 0x4004000300000001 = some (.seqStep ⟨4, 3, 1⟩) ∧
    decodeSeqOp 0x3030000000000000 = some (.hold 3) ∧
    decodeSeqOp 0x2030000000000000 = some (.tear 3) ∧
    decodeSeqOp 0x90007F0000500000 = some (.signal 0x7F0000500000) ∧
    decodeSeqOp 0x8030020000000000 = some (.retry ⟨3, .any, 2⟩) ∧
    decodeSeqOp 0x7030000000000012 = some (.vect ⟨3, false, 18⟩) ∧
    decodeSeqOp 0xA000000000000000 = some .seqDone := by decide +kernel

/-- A reserved opcode, a reserved engine and a set reserved bit decode to nothing (R63). -/
theorem test_decode_refuses :
    decodeTableWord 64 0x0FF0000000000000 = none ∧ decodeTableWord 64 0xC000000000000000 = none ∧
    decodeTableWord 64 0x0510000000000001 = none ∧ decodeSeqOp 0xB000000000000000 = none := by decide +kernel

/-- An ill-formed term for each check of `Instr.wf`. -/
theorem test_wf_refuses : ∀ i ∈ [
    Instr.fcvt ⟨1, 2, .i4, .f32, .fpmode⟩, .fcvt ⟨1, 2, .f32, .f64, .sr⟩, .fclass ⟨1, 2, .i4⟩, .mcfg ⟨6, 1, 2⟩,
    .sts ⟨1, 2, .i8, 0⟩, .syswr ⟨0x12, 1⟩, .syswrFpc ⟨6, 1⟩, .bc ⟨16, 0, 0, .any⟩,
    .vadd ⟨0, .f32, 0, .scalar 1, .line 0, .line 0⟩, .vexpd ⟨0, .f32, 0, .line 1, .line 0, .f64, .fpmode, 0, false⟩,
    .pand ⟨.f32, 1, 2, 3, 0⟩, .pnot ⟨.i4, 1, 2, 3, 0⟩, .pfirst ⟨.i4, 1, 2, 3, 0⟩, .pcnt ⟨.i4, 8, 2, 0, 0⟩,
    .pseti ⟨.f32, 9, 0, 0, 129⟩, .tcfg ⟨0, 2, .i4, .line 1, 4, 0, 0, .fpmode, 0⟩,
    .tzero ⟨0, 2, .i4, .reg 0, 4, 0, 0, .fpmode, 0⟩, .trowld ⟨0, 2, .f32, .line 64, 5, 0, 0, .fpmode, 0⟩,
    .tld ⟨0, 2, .i4, .line 64, 5, 0, 0, .fpmode, 0⟩, .tmma ⟨0, 2, .b32, .reg 0, 0, 4, 5, .fpmode, 0⟩,
    .tout ⟨0, 2, .bf16, .scalar 3, 8, 0, 0, .rne, 1⟩, .oclaim ⟨0, 1, .i4, .reg 0, 0, 4, 0, .fpmode, 0⟩,
    .oload ⟨0, 1, .i4, .reg 0, 6, 4, 0, .fpmode, 3⟩, .spmode ⟨0, 0, 0, .reg 0, 0, 4⟩,
    .spld ⟨0, 4095, 0, .line 64, 11, 0⟩, .spmov ⟨0, 512, 4090, .reg 0, 15, 0⟩, .spnorm ⟨0, 256, 255, .reg 0, 11, 3⟩,
    .vld ⟨0, .scalar 1, 1, 0, 0⟩, .vgath ⟨0, .line 1, .line 2, 4, .i4, 9, 0⟩, .atom ⟨4, 5, 6, 7, .add, false⟩,
    .red ⟨0, 5, 6, 0, .cas, false⟩, .fence ⟨.rel, .die, 3⟩, .sbar 0, .waitf ⟨2, 0⟩, .advp ⟨2, 65⟩,
    .tksend ⟨.vec, .vec, 1⟩, .tkwait ⟨.vec, .mat, 0⟩, .bar 6, .cpost ⟨2, .scalar 1⟩,
    .est ⟨3, 0, 0, 0, 0, 1, 3, 0, 0, 0, 0, 0, 0, false, false⟩, .signal 4], i.wf = false := by decide +kernel

/-! One step on a small state. -/

/-- A task with a window of 4 plates. -/
def base : Context := { bind := { lid := 1, window := 4, grant := 3, tsize := 1 } }

/-- The same with some scalars. -/
def withS (l : Store Word) : Context := { base with r := { s := l } }

/-- The machine that runs it. -/
def at0 (c : Context) : Machine.State := { ctxs := [(0, c)] }

/-- The context after a step. -/
def after (o : HO) : Option Context :=
  match o with
  | .next t => t.ctx? 0
  | _ => none

/-- A scalar after a step. -/
def sAfter (o : HO) (n : Nat) : Option Word := (after o).map fun c => lookD c.r.s n 0

/-- FCAUSE after a step. -/
def causeAfter (o : HO) : Option Word := (after o).map fun c => c.flt.fcause

/-- R90: division by zero gives all ones and the dividend (Table 26). -/
theorem test_divide_by_zero :
    sAfter (exec (.div ⟨4, 5, 6⟩) (at0 (withS [(5, 7)]))) 4 = some 0xFFFFFFFFFFFFFFFF ∧
    sAfter (exec (.rem ⟨4, 5, 6⟩) (at0 (withS [(5, 7)]))) 4 = some 7 := by decide +kernel

/-- R93's example: a field of F000H at 12, signed and unsigned. -/
theorem test_bit_field :
    sAfter (exec (.bfx ⟨4, 5, 6, 7⟩) (at0 (withS [(5, 0xF000), (6, 12), (7, 4)]))) 4 = some 0xFFFFFFFFFFFFFFFF ∧
    sAfter (exec (.bfxz ⟨4, 5, 6, 7⟩) (at0 (withS [(5, 0xF000), (6, 12), (7, 4)]))) 4 = some 0xF := by decide +kernel

/-- R94's example: MOVI leaves the sign-extended value; MOVHI then replaces the high half. -/
theorem test_move_immediate :
    sAfter (exec (.movi ⟨4, 0x9E3779B9⟩) (at0 base)) 4 = some 0xFFFFFFFF9E3779B9 ∧
    sAfter (exec (.movhi ⟨4, 1⟩) (at0 (withS [(4, 0xFFFFFFFF9E3779B9)]))) 4 = some 0x000000019E3779B9 := by decide +kernel

/-- R97: 1 + 2 = 3 in binary64, and 1 / 0 is infinite and sets DZ; by hand from the format (Table 3). -/
theorem test_scalar_float :
    sAfter (exec (.fadd ⟨4, 5, 6, true⟩) (at0 (withS [(5, 0x3FF0000000000000), (6, 0x4000000000000000)]))) 4 =
      some 0x4008000000000000 ∧
    (after (exec (.fdiv ⟨4, 5, 6, true⟩) (at0 (withS [(5, 0x3FF0000000000000)])))).map (fun c => (lookD c.r.s 4 0, c.r.flags)) =
      some (0x7FF0000000000000, fDZ) := by decide +kernel

/-- R106: LOOP with a count of 1 counts down, turns RBASE from 0 to 31, and fills p8's physical register. -/
theorem test_loop : (after (exec (.loop ⟨6, 7, 0, -1⟩) (at0 (withS [(6, 1)])))).map
    (fun c => (lookD c.r.s 6 0, c.r.rbase, lookD c.r.p 15 0)) = some (0, 31, ones128) := by decide +kernel

/-- R340: TZERO of an unconfigured t5 is a fault whose cause reads 8000_0000_0005_0245H. -/
theorem test_tile_fault : causeAfter (exec (.tzero ⟨0, 5, .i4, .reg 0, 0, 0, 0, .fpmode, 0⟩)
    { at0 { base with bind := { base.bind with traph := 64 } } with eng := .mat }) = some 0x8000000000050245 := by decide +kernel

/-- R335: TRAP 9 has code 4DH and argument 9 and resumes at the next slot. -/
theorem test_trap : (after (exec (.trap 9) (at0 { base with bind := { base.bind with traph := 64 } }))).map
    (fun c => (c.flt.fcause, lookD c.flt.fpc 0 0, c.hpos.addr)) = some (0x800000000009004D, 1, 64) := by decide +kernel

/-- R141's example: PSETI.F32 p9, 100 sets bits 0 to 99. -/
theorem test_predicate_set : (after (exec (.pseti ⟨.f32, 9, 0, 0, 100⟩) { at0 base with eng := .vec })).map
    (fun c => lookD c.r.p 9 0) = some (BitVec.ofNat 128 (2 ^ 100 - 1)) := by decide +kernel

/-- R122: 1 + 1 = 2 in binary32 in an enabled lane; a lane that is not enabled stays. -/
theorem test_vector_add : (after (exec (.vadd ⟨0, .f32, 9, .line 2, .line 0, .line 1⟩) { at0 { base with
      r := { p := [(9, 1)] }, lines := [(0, 0x3F8000003F800000), (1, 0x3F8000003F800000), (2, 0x0000000500000007)] } with
      eng := .vec })).map (fun c => c.rdL 2) = some 0x0000000540000000 := by decide +kernel

/-- R161's example: MSTAT after 4 steps. -/
theorem test_matrix_status : sAfter (exec (.mstat 9) (at0 { base with mat := { steps := 4 } })) 9 =
    some 0x0000000400000000 := by decide +kernel

/-- R207's example: HSTAT of a configured handle at head 0 and tail 0 with no slot full. -/
theorem test_handle_status : sAfter (exec (.hstat ⟨9, 2⟩) { at0 { base with handles := [(2, { count := 2 })] } with
    eng := .syn }) 9 = some 0x0000000100000000 := by decide +kernel

/-- R168, R172: SPMOV reads its sources before it writes, where the ranges overlap. -/
theorem test_sum_product_move : (after (exec (.spmov ⟨0, 1, 0, .reg 0, 1, 0⟩) { at0 { base with
    y := [(0, 5), (1, 6), (2, 7)] } with eng := .spe })).map (fun c => c.y) = some [(0, 5), (1, 5), (2, 6)] := by decide +kernel

/-- A machine with an identity page, one task at its entry, and its next instruction NOP. -/
def booted : Machine.State := bootState Machine.State.reset

/-- Byte `a` of memory after a step. -/
def byteAfter (o : HO) (a : Nat) : Option Byte :=
  match o with
  | .next t => some (t.mem.read a)
  | _ => none

/-- R6, R95: STS stores its bytes least significant first. -/
theorem test_store : (let o := exec (.sts ⟨1, 0, .b32, 0x100⟩) { booted with ctxs := booted.ctxs.map fun e =>
      (e.1, e.2.wrS 1 0x11223344) }
    (byteAfter o 0x100, byteAfter o 0x103, byteAfter o 0x104)) = (some 0x44, some 0x11, some 0) := by decide +kernel

/-- The machine that an instruction leaves; the given one where it stops. -/
def next (o : HO) (s : Machine.State) : Machine.State :=
  match o with
  | .next t => t
  | _ => s

/-- R276, R378: ATOM.ADD's request, performed at its home, leaves the sum, and its reply delivers the old value. -/
theorem test_atomic : (let s := { booted with
      mem := booted.mem.write 0 3, ctxs := booted.ctxs.map (fun e => (e.1, e.2.wrS 5 4)) }
    let t := next (exec (.atom ⟨4, 0, 5, 0, .add, true⟩) s) s
    let u := next (exec (.atomicAtHome 0) t) t
    let o := exec (.atomicAtHome 0) u
    (sAfter o 4, byteAfter o 0)) = (some 3, some 7) := by decide +kernel

/-- R253: what VST stores VLD loads. -/
theorem test_line_store_load : (match exec (.vst ⟨0, .line 1, 0, 0, 512⟩) { booted with
      ctxs := booted.ctxs.map fun e => (e.1, e.2.wrL 1 0xABCD) } with
    | .next t => (after (exec (.vld ⟨0, .line 0, 0, 0, 512⟩) t)).map fun c => c.rdL 0
    | _ => none) = some 0xABCD := by decide +kernel

/-- The instruction placed runs at the very next step: ADDI s4, s5, -64 with s5 = 0. -/
theorem test_step_runs_the_placed_word :
    sAfter (step (Machine.State.reset.withFetchWord 64 0x08001050FFFFFFC0)) 4 = some (-64) := by decide +kernel

/-- R31: END of the only task leaves no context. -/
theorem test_end : (match exec .endTask booted with
    | .next t => some (t.ctx? 0).isNone
    | _ => none) = some true := by decide +kernel

/-! Fabric: the example of spec/16 (Tables 96 and 97). -/

/-- Launch 1 at its first step, with the example's operations and circuit 3 granted. -/
def fabric : Machine.State :=
  { at0 { base with cwaiting := some 3 } with
    curLid := 1
    launches := [(1, { prog := some { ops := [0x4004000300000001, 0x1030A280C0000000, 0x3030000000000000,
      0x90007F0000500000, 0x4004000300000002, 0x2030000000000000, 0xA000000000000000], pc := 1, cur := 1, stepNo := 1 } })]
    circuits := [(3, { lid := 1 })]
    m := { ready := BitVec.allOnes 2048 } }

/-- EST c3, 0.5, 1.2, groups 03H. -/
def estC3 : EstOp := ⟨3, 0, 5, 1, 2, 3, 0, 0, 0, 0, 0, 0, 0, false, false⟩

/-- Table 97: CSTAT after EST, once LIVE, and after the ring's fault, with the report FREP. -/
theorem test_circuit_status : decodeSeqOp 0x1030A280C0000000 = some (.est estC3) ∧
    (let s1 := next (exec (.est estC3) fabric) fabric
     let s2 := next (exec (.settleElapsed 3) s1) s1
     let s3 := next (exec (.opticalFaultReport 3 1 2 11 .ringdet) s2) s2
     (cstatWord s1 (s1.circuit 3), cstatWord s2 (s2.circuit 3), cstatWord s3 (s3.circuit 3),
       (s3.ctx? 0).map fun c => c.r.frep)) =
     (0x0000014021500301, 0x0000014021500302, 0x0001014021500304, some 0x8000000102192103) := by decide +kernel

/-! What meets the hypotheses of the statements. -/

/-- An answer that is no stop. -/
def isOk {α : Type} (r : Res α) : Bool :=
  match r with
  | .ok _ => true
  | .error _ => false

theorem ok_of {α : Type} {r : Res α} (h : isOk r = true) : ∃ x, r = .ok x := by
  cases r with
  | ok x => exact ⟨x, rfl⟩
  | error e => cases h

/-- A fault. -/
def isTrap {α : Type} (r : Res α) : Bool :=
  match r with
  | .error (.trap _) => true
  | _ => false

theorem trap_of {α : Type} {r : Res α} (h : isTrap r = true) : ∃ x, r = .error (.trap x) := by
  cases r with
  | ok x => cases h
  | error e =>
    cases e with
    | trap x => exact ⟨x, rfl⟩
    | wait => cases h

/-- A task runs. -/
theorem witness_runs : runs (at0 base) base := rfl

/-- ScalarFrame: an integer and a floating-point instruction answer. -/
theorem witness_ScalarFrame : (after (exec (.add ⟨4, 5, 6⟩) (at0 base))).isSome = true ∧ scalarOnly (.add ⟨4, 5, 6⟩) = some 4 ∧
    (after (exec (.fadd ⟨4, 5, 6, false⟩) (at0 base))).isSome = true ∧
    scalarAndFlags (.fadd ⟨4, 5, 6, false⟩) = some 4 := by decide +kernel

/-- Division: by zero, the overflow, and an ordinary quotient. -/
theorem witness_Division : (base.rdS .ctl 6 = 0) ∧
    (let c := withS [(5, 0x8000000000000000), (6, 0xFFFFFFFFFFFFFFFF)]
     (c.rdS .ctl 5).toInt = -2 ^ 63 ∧ (c.rdS .ctl 6).toInt = -1) ∧
    (withS [(5, 0x8000000000000000), (6, 1)]).rdS .ctl 6 ≠ 0 := by decide +kernel

/-- BitCountsAndFields: an empty field, the last offset, and one past it. -/
theorem witness_BitCountsAndFields : (base.rdS .ctl 7).toNat = 0 ∧
    (let c := withS [(6, 63), (7, 1)]
     0 < (c.rdS .ctl 7).toNat ∧ (c.rdS .ctl 6).toNat < 64) ∧ 64 ≤ ((withS [(6, 64)]).rdS .ctl 6).toNat := by decide +kernel

/-- ScalarFloat: NaNs on each side, and neither. -/
theorem witness_ScalarFloat :
    let n := valOf .f64 0x7FF8000000000000
    n.isNan = true ∧ (valOf .f64 0).isNan = false ∧ (valOf .f64 0x7FF0000000000000).isNan = false := by decide +kernel

/-- The booted task. -/
def bootC : Context := (booted.ctx? 0).getD {}

/-- A word access of the booted task. -/
def wordAt (off : BitVec 24) : CMem := ⟨4, 0, .w64, off⟩

/-- ScalarMemory: a load that answers, one that is misaligned, one that faults, and a store whose access is granted. -/
theorem witness_ScalarMemory : runs booted bootC ∧ booted.bad = [] ∧
    (∃ x, readMem booted (bootC.who 0) bootC.r.gver notWs 8 8 8 = .ok x) ∧ 4 % memBytes (wordAt 4).w ≠ 0 ∧
    (∃ x, readMem booted (bootC.who 0) bootC.r.gver notWs 8 0x40000000 8 = .error (.trap x)) ∧
    ∃ ps, accessCheck booted (bootC.who 0) .write plainW 8 8 8 = .ok ps :=
  ⟨by show _ = _; decide +kernel, by decide +kernel, ok_of (by decide +kernel), by decide, trap_of (by decide +kernel),
    ok_of (by decide +kernel)⟩

/-- ScalarMemory: accesses that must wait, since no HBM channel serves. -/
theorem witness_ScalarMemory_waits : (let s : Machine.State := { booted with m := { booted.m with ready := 0 } }
     (match readMem s (bootC.who 0) bootC.r.gver notWs 8 8 8 with | .error .wait => true | _ => false) = true ∧
     (match accessCheck s (bootC.who 0) .write plainW 8 8 8 with | .error .wait => true | _ => false) = true) := by
  decide +kernel

/-- ExchangeAndMatrixControl: a full register, an empty one, one that a LAUNCH has to fill; the levels 0 and 5, a value
with a reserved bit, a go bit set, a nest that runs, and engines apart. -/
theorem witness_ExchangeAndMatrixControl : ({ base with r := { exFull := 128 } } : Context).r.exFull.getLsbD 7 = true ∧
    base.r.exFull.getLsbD 0 = false ∧
    (({ base with fillsDue := [⟨3, 0, none⟩] } : Context).fillsDue.any fun f => f.e == 3) = true ∧
    (0 : Word).toNat / 2 ^ 32 = 0 ∧ (0x100000000 : Word).toNat / 2 ^ 32 ≠ 0 ∧ (0xFFFFFFFFFF : Word).toNat / 2 ^ 40 = 0 ∧
    base.mat.go = false ∧ base.mat.running = false ∧
    ({ base with r := { span := 1 }, pos := { ctl := { idx := 1 } } } : Context).together = false := by decide +kernel

/-- SystemReads: a fault register inside and outside the handler, a number that has a value, and one that has none. -/
theorem witness_SystemReads : isFaultReg 0x80 = true ∧ isFaultReg 0x8F = true ∧ isFaultReg 0x90 = false ∧
    noFaultReg 0x84 = true ∧ noFaultReg 0x87 = true ∧ ({ base with handler := true } : Context).handler = true ∧
    base.handler = false ∧ (sysRead (at0 base) 0 base 0x84).isNone = true ∧
    (sysRead (at0 base) 0 base 0x03).isSome = true := by decide +kernel

/-- SystemRegisterWrites: a register of each kind, and a tile's value that is new, valid and overlaps nothing. -/
theorem witness_SystemRegisterWrites : isRo 0x03 = true ∧ isFaultReg 0x88 = true ∧
    (0x00000045 : Word) ≠ lookD base.mat.tshape 7 0 ∧ shapeOk 0x45 = true ∧
    (∀ x ∈ (tileOf 0x45).toList, overlaps base 7 x = false) ∧ base.mat.running = false ∧ base.mat.go = false ∧
    shapeOk 0x100000 = false ∧ ({ base with mat := { go := true } } : Context).mat.go = true := by
  decide +kernel

/-- ChainControl: a ring and a segmented chain that may be enabled, one that may not, one that is not busy, and a
failed one without cards. -/
theorem witness_ChainControl : (base.chain 0).en = false ∧ (base.chain 0).tail = (base.chain 0).done ∧
    (base.chain 0).rsize = 0 ∧ (base.chain 0).base % 4096 = 0 ∧ (base.chain 0).sqaddr % 8 = 0 ∧
    (({ base with chains := [(0, { rsize := 1, base := 64 })] } : Context).chain 0).base % 64 = 0 ∧
    (({ base with chains := [(0, { tail := 1 })] } : Context).chain 0).tail ≠ 0 ∧
    chainBusy (at0 base) 1 0 0 = false ∧
    (({ base with chains := [(0, { failed := true })] } : Context).chain 0).failed = true ∧
    taskCtx? ((at0 base).setCtx 0 (base.advance .ctl)) 1 0 = some (base.advance .ctl) := by decide +kernel

/-- ChainControl: words of a chain that is disabled, and of one that is enabled, with a value it has and one it has not. -/
theorem witness_ChainControl_words : (base.chain base.r.qsel).en = false ∧
    (let k := ({ base with chains := [(0, { en := true, base := 64 })] } : Context).chain 0
     k.en = true ∧ { k with base := 64 } = k ∧ { k with base := 128 } ≠ k) := by decide +kernel

/-- A task whose chain 0 is a ring that has failed, with values for QW0 in s4 to s6. -/
def ringC0 : Context :=
  { withS [(4, 5), (5, 7), (6, 2)] with
    chains := [(0, { en := true, ring := true, failed := true, base := 0x4000, rsize := 4 })] }

/-- ChainControl: what SYSWR of QW0 meets: values with and without each bit, a chain with a card and without, one that failed, and
an RING bit other than the chain's. -/
theorem witness_ChainControl_qw0 : (⟨0x45, 5⟩ : SysWr).n.toNat = 0x45 ∧ (ringC0.chain ringC0.r.qsel).en = true ∧
    (ringC0.rdS .ctl 5).getLsbD 0 = true ∧ (ringC0.rdS .ctl 5).getLsbD 1 = (ringC0.chain 0).ring ∧
    (ringC0.rdS .ctl 5).getLsbD 2 = true ∧ (ringC0.rdS .ctl 4).getLsbD 1 ≠ (ringC0.chain 0).ring ∧
    (ringC0.rdS .ctl 6).getLsbD 0 = false ∧ (ringC0.rdS .ctl 6).getLsbD 1 = (ringC0.chain 0).ring ∧
    chainBusy (at0 ringC0) 1 0 0 = false ∧
    chainBusy { at0 ringC0 with cards := [(0, { line := 0, lid := 1, wid := 0, die := 0, core := 0, window := 4, det := false
                                                q := 0, seq := 1, preds := [] })] } 1 0 0 = true ∧
    (base.chain 0).en = false ∧ mayEnable (base.chain 0) false ∧ ¬ mayEnable (base.chain 0) true ∧
    mayEnable { rsize := 1, base := 64 } true := by
  unfold mayEnable
  decide +kernel

/-- SystemReads and SystemRegisterWrites: the first and the last of the ranges of unassigned numbers, and the numbers beside
them. -/
theorem witness_unassigned :
    (∀ n ∈ [0x05, 0x07, 0x0F, 0x1A, 0x1F, 0x29, 0x2F, 0x39, 0x3F, 0x4D, 0x4F, 0x73, 0x7B, 0x7D, 0x7F, 0x90, 0x9F, 0xC0, 0xFFF],
      unassigned n ∧ (sysRead (at0 base) 0 base n).isNone = true) ∧
    ∀ n ∈ [0x04, 0x08, 0x0E, 0x10, 0x19, 0x20, 0x28, 0x30, 0x38, 0x40, 0x4C, 0x50, 0x72, 0x7C, 0x80, 0x8F, 0xA0, 0xBF],
      ¬ unassigned n := by
  unfold unassigned
  decide +kernel

/-- TrapsAndFaults and Return: a task with a handler, without one, and in one; a debugger attached and none. -/
theorem witness_TrapsAndFaults :
    ({ base with bind := { base.bind with traph := 64 } } : Context).bind.traph ≠ 0 ∧ base.handler = false ∧
    base.bind.traph = 0 ∧ (at0 base).debugged base = false ∧
    ({ at0 base with launches := [(1, { debugger := true })] } : Machine.State).debugged base = true ∧
    base.nestV = none ∧ base.nestM = none ∧ FaultCode.illop ≠ .debug ∧ FaultCode.illop ≠ .wdog ∧
    ({ code := .illop } : Trap).found = none ∧ requestsOut (at0 base) 1 0 = false ∧
    requestsOut { booted with reqs := [(0, ctxReq booted bootC ⟨4, 0, 5, 0, .add, true⟩ false .ctl 8 8 1 0)] } 1 0 = true := by
  decide +kernel

/-- EndFreesTheTask: the booted task may end. -/
theorem witness_EndFreesTheTask : (booted.launch? bootC.bind.lid).isSome = true ∧ bootC.handler = false ∧
    bootC.ending = false ∧ bootC.redErrs = [] ∧ bootC.mat.running = false ∧ bootC.mat.go = false ∧ bootC.releases = [] ∧
    requestsOut booted bootC.bind.lid bootC.bind.wid = false ∧
    cardsSettled booted bootC.bind.lid bootC.bind.wid bootC = true ∧ failedChain? bootC = none ∧
    ({ bootC with handler := true } : Context).handler = true ∧ ({ bootC with ending := true } : Context).ending = true ∧
    (∀ e ∈ booted.cards, e.2.of bootC.bind.lid bootC.bind.wid = false) ∧
    ({ bootC with redErrs := [⟨0, 8⟩] } : Context).redErrs = ⟨0, 8⟩ :: [] := by decide +kernel

/-- ControlTransfer: a branch taken and one not, a padded task, one program counter, slots 6 and 7, and tables whose
word is loaded, misaligned and unmapped. -/
theorem witness_ControlTransfer : base.cond .ctl .z 5 = true ∧ base.cond .ctl .nz 5 = false ∧
    ({ base with bind := { base.bind with pad := true } } : Context).bind.pad = true ∧ base.together = true ∧
    (({ base with handler := true, hpos := { slot := 7 } } : Context).posOf .vec).slot = 7 ∧
    (∃ x, readMem booted (bootC.who 0) bootC.r.gver notWs 8 16 8 = .ok x) := by
  refine ⟨by decide, by decide, by decide, by decide, by decide, ok_of (by decide +kernel)⟩

/-- LoopTurns: a count of 1, a count of 0 with a drain count of 1, and neither. -/
theorem witness_LoopTurns : 0 < ((withS [(6, 1)]).rdS .ctl 6).toInt ∧ ((withS [(7, 1)]).rdS .ctl 6).toInt ≤ 0 ∧
    0 < ((withS [(7, 1)]).rdS .ctl 7).toInt ∧ ((withS [(6, -1)]).rdS .ctl 6).toInt ≤ 0 := by decide +kernel

/-! Subtree records and a nest record: the worked examples of spec/03 and spec/07. -/

/-- The records of spec/07. -/
def upRecord : Nat := 0x7100000000000000 + 0x08200002861004D3 * 2 ^ 64 + 0x0000013012011010 * 2 ^ 128 +
  0x20 * 2 ^ 320 + 0x08150029 * 2 ^ 384

def downRecord : Nat := 0x7110000000000000 + 0x48204002B61004D3 * 2 ^ 64 + 0x0000013012011010 * 2 ^ 128 +
  0x0000040000000020 * 2 ^ 320 + 0x08150029 * 2 ^ 384

/-- The starting registers, sp32. -/
def treeC : Context :=
  { base with
    spmode := 3
    y := [(16, 0xEFC00000), (17, 0xEF800000), (18, 0xEFE00000), (19, 0xEFC00000), (32, 0xEF800000), (33, 0xEFE00000),
      (43, 0xF0000000)] }

/-- R63, R66: the nest record decodes to its VADD with trips 16 and 4 and strides 1 and 16. -/
theorem test_decode_nest : decodeTableWord 512 (0x3002C048022011A2 + 0x0000040010010010 * 2 ^ 64 +
      0x0000001000000001 * (2 ^ 128 + 2 ^ 256 + 2 ^ 384)) =
    some (.nestIssue (.v3 .vadd ⟨2, .f32, 0, .line 256, .line 128, .line 209⟩)
      ⟨16, 4, 1, 1, none, none, 0x1000000001, 0x1000000001, 0x1000000001⟩) := by decide +kernel

/-- R174 to R180: the worked example's registers after SPUP and after SPDN. -/
theorem test_subtree_passes :
    (match decodeTableWord 512 upRecord, decodeTableWord 512 downRecord with
      | some u, some d =>
        let s1 := next (exec u { at0 treeC with eng := .spe }) (at0 base)
        let s2 := next (exec d s1) (at0 base)
        ([s1, s2].map fun s => (s.ctx? 0).map fun c =>
          ([40, 41, 42, 43, 80, 81, 82, 83, 96, 97].map fun k => lookD c.y k 0, c.r.flags))
      | _, _ => []) =
    [some ([0xEF900000, 0xEF400000, 0xEFA00000, 0xF0000000, 0, 0, 0, 0, 0, 0], 0),
     some ([0xEF900000, 0xEF400000, 0xEFA00000, 0xF0000000, 0xEF000000, 0xEF400000, 0xEFA00000, 0xEFC80000, 0xEF400000,
       0xEFA00000], 0)] := by decide +kernel

/-! Witnesses: the data engines. -/

/-- A task whose VEC runs, with room for blocks: entry 0 is a valid block entry with BFMT 1 and the rotation on. -/
def vecC : Context := { base with tens := [(0, 0x203), (1, 3)] }
def vecS : Machine.State := { at0 vecC with eng := .vec }

/-- VectorThreeOperands: one lane, and VSEL; a source in a scalar; deterministic mode with lines of two banks. -/
theorem witness_VectorThreeOperands :
    Ready3 vecS vecC .vadd ⟨0, .f32, 0, .line 255, .line 0, .scalar 5⟩ {} 255 (.at 0) (.all 0) ∧
    Ready3 vecS vecC .vsel ⟨0, .f32, 9, .line 255, .line 0, .line 1⟩ {} 255 (.at 0) (.at 1) ∧
    (let c := { vecC with bind := { vecC.bind with det := true } }
     Ready3 { vecS with ctxs := [(0, c)] } c .vperm ⟨0, .f32, 0, .line 2, .line 0, .line 1⟩ {} 2 (.at 0) (.at 1)) :=
  ⟨⟨by decide, rfl, rfl, rfl, by decide, ⟨by decide, by decide⟩, trivial, fun h => by cases h⟩,
   ⟨by decide, rfl, rfl, rfl, by decide, ⟨by decide, by decide⟩, ⟨by decide, by decide⟩, fun h => by cases h⟩,
   ⟨by decide, rfl, rfl, rfl, by decide, ⟨by decide, by decide⟩, ⟨by decide, by decide⟩, fun _ => by decide⟩⟩

/-- IntegerLanes: the ends of a signed and an unsigned format. -/
theorem witness_IntegerLanes : ElemType.i8.isInt = true ∧ 0x80 < 2 ^ ElemType.i8.width ∧ 0xFF < 2 ^ ElemType.i8.width ∧
    ElemType.b8.isInt = true := by decide +kernel

/-- VectorUnary: one line to one line, one to two and two to one. -/
theorem witness_VectorUnary :
    Ready2 vecS vecC .vexp2 ⟨0, .f32, 0, .line 255, .line 0, .i4, .fpmode, 0, false⟩ {} 1 1 255 (.at 0) ∧
    Ready2 vecS vecC .vcvt ⟨0, .bf16, 0, .line 255, .line 0, .f32, .fpmode, 0, false⟩ {} 1 1 255 (.at 0) ∧
    Ready2 vecS vecC .vwiden ⟨0, .f32, 0, .line 254, .line 0, .bf16, .fpmode, 0, false⟩ {} 2 1 254 (.at 0) ∧
    Ready2 vecS vecC .vnarrow ⟨0, .bf16, 0, .line 0, .line 254, .f32, .fpmode, 0, false⟩ {} 1 2 0 (.at 254) :=
  ⟨⟨by decide, rfl, rfl, by decide, ⟨by decide, by decide⟩⟩,
   ⟨by decide, rfl, rfl, by decide, ⟨by decide, by decide⟩⟩,
   ⟨by decide, rfl, rfl, by decide, ⟨by decide, by decide⟩⟩,
   ⟨by decide, rfl, rfl, by decide, ⟨by decide, by decide⟩⟩⟩

/-- VectorBlocks: a valid entry with the rotation, and one without. -/
theorem witness_VectorBlocks : (vecC.blockEntry 0).v = true ∧ (BFmt.ofCode (vecC.blockEntry 0).bfmt).isSome = true ∧
    (vecC.blockEntry 0).etype = 0 ∧ (vecC.blockEntry 0).hen = true ∧ (vecC.blockEntry 1).hen = false ∧
    Ready2 vecS vecC .vqnt ⟨0, .f32, 0, .line 1, .line 0, .i4, .fpmode, 0, false⟩ {} 1 1 1 (.at 0) ∧
    Ready2 vecS vecC .vdqnt ⟨0, .f32, 0, .line 1, .line 0, .i4, .fpmode, 0, false⟩ {} 1 1 1 (.at 0) ∧
    Ready2 vecS vecC .vhad ⟨0, .f32, 0, .line 1, .line 0, .i4, .fpmode, 0, false⟩ {} 1 1 1 (.at 0) :=
  ⟨by decide +kernel, by decide +kernel, by decide +kernel, by decide +kernel, by decide +kernel,
   ⟨by decide, rfl, rfl, by decide, ⟨by decide, by decide⟩⟩,
   ⟨by decide, rfl, rfl, by decide, ⟨by decide, by decide⟩⟩,
   ⟨by decide, rfl, rfl, by decide, ⟨by decide, by decide⟩⟩⟩

/-- VectorBlocks, VectorReductions and Predicates: an entry of a reserved format, and an exchange register that a LAUNCH has
still to fill. -/
theorem witness_VectorBlocks_reserved :
    (let b := ({ vecC with tens := [(0, 1 + 10 * 2)] } : Context).blockEntry 0
     b.v = true ∧ 10 ≤ b.bfmt ∧ BFmt.ofCode b.bfmt = none) ∧
    fillDue { vecC with fillsDue := [⟨3, 0, none⟩] } 3 = true ∧ fillDue vecC 3 = false := by decide +kernel

/-- VectorReductions: to a line and to an exchange register. -/
theorem witness_VectorReductions : reductionOf .vradd = some .sum ∧
    (⟨0, .f32, 0, .line 255, .line 0, .i4, .fpmode, 0, false⟩ : V2).wf .vradd = true ∧
    (⟨0, .f32, 0, .scalar 7, .line 0, .i4, .fpmode, 0, false⟩ : V2).wf .vradd = true ∧
    vecC.vsrc .vec (.line 0) 0 = .ok (.at 0) ∧ vecC.vdst .vec (.line 255) 0 = .ok 255 ∧ inside vecC 1 (.at 0) :=
  ⟨rfl, by decide, by decide, rfl, rfl, ⟨by decide, by decide⟩⟩

/-- Predicates: PSETI of all elements, and a comparison of two lines. -/
theorem witness_Predicates : (⟨.f32, 9, 0, 0, 128⟩ : PP).imm.toNat ≤ ElemType.f32.count ∧
    (⟨.i32, 11, 9, .ne, .line 255, .line 0⟩ : VP).wf = true ∧ inside vecC 1 (.at 255) ∧ inside vecC 1 (.at 0) ∧
    banksFree vecC ((Opd.at 255).lines 1 ++ (Opd.at 0).lines 1) :=
  ⟨by decide +kernel, by decide +kernel, ⟨by decide, by decide⟩, ⟨by decide, by decide⟩, fun h => by cases h⟩

/-- A nest of 16 × 3 VADDs whose lines move by 1 and by 16, without tokens, and with one of each kind. -/
def nestLead : Lead := .v3 .vadd ⟨2, .f32, 0, .line 200, .line 128, .line 20⟩
def nestP : NestP := ⟨16, 3, 1, 1, none, none, 0x1000000001, 0x1000000001, 0x1000000001⟩
def lastIter : NestPos := ⟨15, 2, 0, 0⟩
def lastC : Context := { vecC with nestV := some lastIter }

/-- NestIssues: a nest without an issue, and one at its first iteration, at one before a carry, and at its last. -/
theorem witness_NestIssues : nestLead.wf = true ∧ nestP.wf nestLead = true ∧ issues { nestP with t0 := 0 } = 0 ∧
    (0 < nestP.t0.toNat ∧ place nestP {} + 1 < issues nestP) ∧ place nestP ⟨15, 1, 0, 0⟩ + 1 < issues nestP ∧
    place nestP lastIter + 1 = issues nestP ∧ 15 < nestP.t0.toNat ∧ 2 < nestP.t1.toNat ∧ 0 < nestP.t2.toNat ∧
    vecC.sendDue .vec = false ∧ vecC.nestPos .vec = none ∧ lastC.nestPos .vec = some lastIter ∧ lastC.sendDue .vec = false ∧
    NestP.wf (.mv .pref ⟨0, .reg 0, 0, 0, 0⟩) nestP = false := by decide +kernel

/-- NestIssues: leads of VEC at the last iteration, and one that raises ILLOP there, past the window. -/
theorem witness_NestIssues_leads :
    Ready3 vecS vecC .vadd ⟨2, .f32, 0, .line 200, .line 128, .line 20⟩ (shifts nestP lastIter) 247 (.at 175) (.at 67) ∧
    Ready2 vecS vecC .vexp2 ⟨0, .f32, 0, .line 200, .line 128, .i4, .fpmode, 0, false⟩
      (shifts { nestP with bstr := 0 } lastIter) 1 1 247 (.at 175) ∧
    isLane2 .vexp2 = true ∧ NestP.wf (.v2 .vexp2 ⟨0, .f32, 0, .line 200, .line 128, .i4, .fpmode, 0, false⟩) { nestP with bstr := 0 } = true ∧
    isOk (leadIssue nestLead (shifts nestP lastIter) vecS .vec vecC) = true ∧
    isTrap (leadIssue (.v3 .vadd ⟨2, .f32, 0, .line 255, .line 128, .line 20⟩) (shifts nestP lastIter) vecS .vec vecC) = true :=
  ⟨⟨by decide, rfl, rfl, rfl, by decide, ⟨by decide, by decide⟩, ⟨by decide, by decide⟩, fun h => by cases h⟩,
   ⟨by decide, rfl, rfl, by decide, ⟨by decide, by decide⟩⟩, rfl, by decide +kernel, by decide +kernel, by decide +kernel⟩

/-- NestIssues: a load and a store of MEM whose second issue is 512 bytes and a line on. -/
theorem witness_NestIssues_moves :
    (let p : NestP := ⟨2, 1, 1, 1, none, none, 1, 1, 0⟩
     let o : MV := ⟨0, .line 254, 0, 0, 64⟩
     let a := (bootC.rdS .mem o.base + o.off.signExtend 64 + BitVec.ofInt 64 (512 * shift p.astr ⟨1, 0, 0, 0⟩)).toNat
     p.wf (.mv .vld o) = true ∧ p.wf (.mv .vst o) = true ∧ o.wf .vld = true ∧ o.wf .vst = true ∧ mvHs o = false ∧
     mvPeer o = false ∧ a = 576 ∧ (bootC.vdst .mem o.l (shift p.dstr ⟨1, 0, 0, 0⟩)).toOption = some 255 ∧
     (bootC.vsrc .mem o.l (shift p.dstr ⟨1, 0, 0, 0⟩)).toOption = some (.at 255) ∧
     isOk (readMem booted (bootC.who 0) bootC.r.gver (fun t => !t.ws) 1 (a % 2 ^ 56) 512) = true ∧
     isOk (accessCheck booted (bootC.who 0) .write (fun t => t.ws == false && (!t.grd || a % 2 ^ 56 % 512 == 0)) 1
       (a % 2 ^ 56) 512) = true ∧ booted.bad = []) := by decide +kernel

/-- NestIssues: with a token and without one, with room for one and none, and one that is due, the last among them. -/
theorem witness_NestIssues_tokens :
    (let key := Engine.vec.code * 8 + Engine.mat.code
     let back := Engine.mat.code * 8 + Engine.vec.code
     let p := { nestP with tsend := some .mat }
     p.wf nestLead = true ∧ NestP.wf nestLead { nestP with twait := some .mat } = true ∧
     lookD vecC.tokens back 0 = 0 ∧ 1 ≤ lookD ({ vecC with tokens := [(back, 1)] } : Context).tokens back 0 ∧
     15 ≤ lookD ({ vecC with tokens := [(key, 15)] } : Context).tokens key 0 ∧ vecC.handler = false ∧
     (match leadIssue nestLead (shifts nestP {}) vecS .vec vecC with
       | .ok (_, d) => d.tokens == vecC.tokens && d.tokPend == vecC.tokPend && !d.sendDue .vec && !d.handler && d.together
       | .error _ => false) = true ∧
     (let full := { lastC with tokens := [(key, 15)], nestV := none }
      match exec (.nestIssue nestLead p) { vecS with ctxs := [(0, full)] } with
       | .next t => (t.ctx? 0).any fun d => d.sendDue .vec && decide (d.pos = full.pos)
       | _ => false) = true ∧
     ({ lastIter with i0 := lastIter.i0 + 1 } : NestPos) = ⟨16, 2, 0, 0⟩) := by decide +kernel

/-- The booted task with a teammate at position 1 and tensor entry 3: rank 2, F32, 4 × 2 at 1000H. -/
def memC : Context := { bootC with tens := [(3,
  0x1000 * 2 ^ 64 + (4 + 2 * 2 ^ 32) * 2 ^ 128 + 16 * 2 ^ 256 + 1 + 12 * 32 + 2 * 2 ^ 11)] }

/-- LineMoves: memory at both ends of the page's first block, and a misaligned address. -/
theorem witness_LineMoves : runs booted bootC ∧ booted.bad = [] ∧ (⟨0, .line 0, 0, 0, 0⟩ : MV).wf .vld = true ∧
    (⟨0, .line 0, 0, 0, 0⟩ : MV).wf .wld = true ∧ (⟨0, .line 0, 0, 0, 0⟩ : MV).wf .wst = true ∧
    (⟨0, .line 0, 0, 0, 0⟩ : MV).wf .vst = true ∧ (⟨0, .reg 0, 0, 0, 0⟩ : MV).wf .pref = true ∧
    bootC.vdst .mem (.line 255) 0 = .ok 255 ∧
    mvTarget bootC .mem 0 false ⟨0, .line 255, 0, 0, 64⟩ 0 = .ok (.mem 64) ∧
    mvTarget bootC .mem 0 false ⟨0, .line 255, 0, 8, 512⟩ 0 = .ok (.peer 512) ∧
    (∃ x, readMem booted (bootC.who 0) bootC.r.gver (fun t => !t.ws) 1 64 512 = .ok x) ∧
    ∃ ps, accessCheck booted (bootC.who 0) .write
      (fun t => t.ws == false && (!t.grd || 64 % 2 ^ 56 % 512 == 0)) 1 64 512 = .ok ps :=
  ⟨by show _ = _; decide +kernel, by decide +kernel, by decide, by decide, by decide, by decide, by decide,
    rfl, rfl, rfl, ok_of (by decide +kernel), ok_of (by decide +kernel)⟩

/-- LineMoves: a teammate at position 1, and a weight-store page that is open to the launch. -/
theorem witness_LineMoves_elsewhere :
    (let s : Machine.State := { booted with
      ctxs := [(0, { bootC with bind := { bootC.bind with tsize := 2 } }),
        (1, { bootC with bind := { bootC.bind with wid := 1, tsize := 2, tidx := 1 } })]
      launches := [(1, { hdr := BitVec.ofNat 4096 (2 ^ 32 + 1 * 2 ^ 40 + 4 * 2 ^ 64 + (8 + 2 ^ 4 + 2 ^ 33) * 2 ^ 512), pext := [2],
 })] }
     (match peerWid s { bootC with bind := { bootC.bind with tsize := 2 } } (2 ^ 20) with
       | .ok m => m == 1 && (match taskCtx? s 1 m with
           | some x => isOk (windowEcc s x (2 ^ 20))
           | none => false)
       | .error _ => false) = true) := by decide +kernel

/-- LineMoves: the context's own window, at an address that is no multiple of 512. -/
theorem witness_LineMoves_own :
    (let h := BitVec.ofNat 4096 (2 ^ 32 + 1 * 2 ^ 40 + 4 * 2 ^ 64 + (8 + 2 ^ 4 + 2 ^ 33) * 2 ^ 512)
     let s : Machine.State := { booted with launches := [(1, { hdr := h, pext := [2] })] }
     let c := { bootC with bind := { bootC.bind with tsize := 2 } }
     (match peerWid s c 64 with | .ok m => m == c.bind.wid | .error _ => false) = true ∧ 64 % 64 = 0 ∧ 64 % 512 ≠ 0 ∧
     isOk (windowEcc s c 64) = true ∧
     (match mvTarget c .mem 0 true ⟨0, .line 255, 0, 8, 64⟩ 0 with | .ok (.peer a) => a == 64 | _ => false) = true) := by
  decide +kernel

/-- LineMoves: WST to a page of a weight store that is open to the launch. -/
theorem witness_LineMoves_weights :
    (let s : Machine.State := { booted with
      mem := (booted.mem.writeN bootTable 8 0x21001).writeN 0x21000 8 (2 ^ 44 + 0x1F), wsOpen := [(16, ())] }
     isOk (storeOpen s (bootC.who 0) 512) = true ∧
     isOk (accessCheck s (bootC.who 0) .write
       (fun t => t.ws == true && (!t.grd || 512 % 2 ^ 56 % 512 == 0)) 1 512 512) = true) := by decide +kernel

/-- TensorAndIndexedMoves: a row of 4 elements from its first and its last, a row outside, and an element each of a
gather and of a scatter. -/
theorem witness_TensorAndIndexedMoves :
    let t := memC.tent 3
    t.usable = true ∧ t.bfmt = 0 ∧ t.coordOk (coordOf 0) = true ∧ t.rowOk (coordOf 0) = true ∧
    (insideRun t (coordOf 3) 3 (4096 / t.width)).2 = 1 ∧ (insideRun t (coordOf 4) 4 (4096 / t.width)).2 = 0 ∧
    (insideRun t (coordOf (2 * 2 ^ 24)) 0 (4096 / t.width)).2 = 0 ∧
    isOk (tensorRead booted (memC.who 0) 0 t (elemAlign 32) (rowOf t (coordOf 0)) 16) = true ∧
    (match tensorWrite booted (memC.who 0) t (elemAlign 32) (rowOf t (coordOf 0)) 16 with
      | .ok ps => ps.all fun x => x.t.cmp == false
      | .error _ => false) = true ∧
    isOk (vldtLine booted memC t (coordOf 0) 0) = true ∧ isOk (vsttLine booted memC t (coordOf 0) 0 1) = true ∧
    (⟨0, .line 0, 3, 7, 0⟩ : MX).wf = true ∧ (⟨0, .line 0, .line 1, 0, .f32, 9, 0⟩ : MG).wf = true ∧
    (match gatherParts booted (memC.who 0) false 4 [(0, 0), (127, 508)] with
      | .ok ps => isOk (gatherRead booted 0 ps)
      | .error _ => false) = true ∧
    isOk (gatherParts booted (memC.who 0) true 4 [(0, 0), (127, 508)]) = true := by decide +kernel

/-! Witnesses: the matrix engine. -/

/-- A task with tile 2 of 16 × 16 FP32 at word 0, and slots 4 and 5 loaded with BF16 of 256 elements. -/
def matC : Context :=
  { base with mat := {
      tshape := [(2, 0x45)]
      oslots := [(4, { tag := some ⟨0xB, 256, false, 0⟩ }), (5, { tag := some ⟨0xB, 256, false, 0⟩ })]
      shadow := [(0, 1 + 2 * 2 ^ 14 + 0xB * 2 ^ 17 + 4 * 2 ^ 21 + 5 * 2 ^ 27)] } }

/-- TileConfiguration: the present value, an invalid one, one that overlaps, one that is new, and tiles that are and
are not configured. -/
theorem witness_TileConfiguration : (0x45 : Word) = lookD matC.mat.tshape 2 0 ∧ shapeOk 0x100000 = false ∧
    shapeOk 0x45 = true ∧ (∃ x, tileOf 0x45 = some x ∧ overlaps matC 3 x = true) ∧
    (∃ x, tileOf 0x445 = some x ∧ overlaps matC 3 x = false) ∧ shapeOk 0x445 = true ∧ matC.tile? 3 = none ∧
    matC.tile? 2 = some ⟨.fp32, 1, 1, 0⟩ :=
  ⟨by decide +kernel, by decide +kernel, by decide +kernel, ⟨_, rfl, by decide +kernel⟩, ⟨_, rfl, by decide +kernel⟩,
    by decide +kernel, by decide +kernel, by decide +kernel⟩

/-- TileConfiguration and SystemRegisterWrites: tiles that the accumulator store holds beside those of the core. -/
theorem witness_tileFits : tileFits (at0 matC) matC 3 0x445 ∧ tileFits (at0 base) base 7 0x45 :=
  ⟨.inr (by decide +kernel), .inr (by decide +kernel)⟩

/-- TileLineMoves: the last row and column, one past them, and the lines of a whole tile. -/
theorem witness_TileLineMoves :
    let x : Tile := ⟨.fp32, 1, 1, 0⟩
    shapeOk (lookD matC.mat.tshape 2 0) = true ∧ 15 < x.rows ∧ 15 < x.cols ∧ x.rows ≤ 16 ∧ x.cols ≤ 16 ∧
    matC.srcLineIn .mat (.line 255) = .ok 255 ∧ matC.dstLineIn .mat (.line 255) = .ok 255 ∧
    matC.srcLine .mat (.line 240) = .ok 240 ∧ matC.dstLine .mat (.line 240) = .ok 240 ∧
    240 + x.rows ≤ 64 * matC.bind.window :=
  ⟨by decide, by decide, by decide, by decide, by decide, rfl, rfl, rfl, rfl, by decide⟩

/-- A core on which every operand slot is claimed. -/
def fullSlots : Context :=
  { base with mat := { oslots := (List.range 64).map fun k => (k, ({} : OSlot)) } }

/-- OperandSlots: a claimed and a free slot, room on the core and none, and rows that load. -/
theorem witness_OperandSlots : (find? matC.mat.oslots 4).isSome = true ∧ find? matC.mat.oslots 6 = none ∧
    residentUse (at0 matC) 0 .slots < 64 ∧
    64 ≤ residentUse ({ ctxs := [(0, base), (1, fullSlots)] } : Machine.State) 0 .slots ∧
    (let c := { memC with mat := matC.mat }
     let e := c.tent 3
     klenOf e = some 128 ∧ e.usable = true ∧ e.coordOk (coordOf 0) = true ∧ e.bfmt = 0 ∧ e.hen = false ∧ e.den = false ∧
     isOk ((⟨⟨c.bind.lid, c.bind.wid, 3, 0⟩, c.who 0, 0, e,
       false⟩ : OReader).rows booted none (coordOf 0) 128 16 0 []) = true) := by decide +kernel

/-- Accumulation: the last sub-tile, and a word at the top of its range. -/
theorem witness_Accumulation : (let p : StepAt := ⟨⟨.int32, 2, 2, 0⟩, 1, 1, (⟨6, 512, false, 0⟩, {}), (⟨6, 512, false, 0⟩,
  {}), 0, 32, false⟩
    p.r < p.tile.rt ∧ p.c < p.tile.ct) ∧ 2 ^ 32 - 1 < 2 ^ 32 := by decide +kernel

/-- ProductsAndNests: a checked pair, a slot not claimed, a nest that begins, that runs and that is complete. -/
theorem witness_ProductsAndNests : classKs 0xB = some 16 ∧ classTile 0xB = .fp32 ∧
    isOk (pairCheck matC 0xB 4 5) = true ∧ find? matC.mat.oslots 6 = none ∧ matC.together = true ∧
    isOk (nestCheck matC (matNest matC.mat.shadow)) = true ∧
    isOk (nestBegin { matC with mat := { matC.mat with go := true } }) = true ∧
    nestLeft { matC with mat := { matC.mat with active := matC.mat.shadow, running := true } } = true ∧
    nestLeft { matC with mat := { matC.mat with active := matC.mat.shadow, running := true, stepAt := 1 } } = false := by
  decide +kernel

/-- ProductsAndNests: MAT at an MGO that CTL has passed, and at one that it has not. -/
theorem witness_ProductsAndNests_start :
    (let s : Machine.State := { booted with mem := booted.mem.writeN bootEntry 8 ((encode .mgo).getD 0 0).toNat }
     let c : Context := { bootC with r := { bootC.r with span := 4 }, pos := { bootC.pos with ctl := bootC.pos.ctl.next }
                                     mat := { matC.mat with go := true } }
     matAtGo s 0 c = true ∧ matAtGo s 0 { c with pos := bootC.pos } = false ∧ c.still = false ∧ c.handler = false ∧
     nestReads (matNest c.mat.shadow) ≠ [] ∧ c.own = []) := by decide +kernel

/-- ProductsAndNests: a nest that starts, zeroes its tile, and its one step with its slots and sub-tile; slots not loaded. -/
theorem witness_ProductsAndNests_steps :
    (let c := { matC with mat := { matC.mat with running := true, active := matC.mat.shadow } }
     let s := at0 c
     let tab := c.mat.active
     nestLeft c = true ∧ c.mat.stepAt < ((List.range 6).map (nestTrip tab)).prod ∧ c.tile? (nestField tab 14 3) = some ⟨.fp32, 1, 1, 0⟩ ∧
     classKs (nestField tab 17 4) = some 16 ∧ nestWalk tab 21 6 0 (fun _ => 0) = 4 ∧ nestWalk tab 27 6 8 (fun _ => 0) = 5 ∧
     nestWalk tab 33 3 16 (fun _ => 0) = 0 ∧ nestWalk tab 36 3 24 (fun _ => 0) = 0 ∧ isOk (pairCheck c 0xB 4 5) = true ∧
     s.ctx? 0 = some c ∧ c.own = [] ∧ OwnPart.tile (nestField tab 14 3) ∈ ({ c with own := [.tile 2] } : Context).own) ∧
    (let z := [(0, lookD matC.mat.shadow 0 0 + 2 ^ 39)]
     let c := { matC with mat := { matC.mat with shadow := z, go := true } }
     nestField z 39 1 = 1 ∧ (∀ k < 6, nestTrip z k ≠ 0) ∧ nestField matC.mat.shadow 39 1 ≠ 1 ∧ isOk (nestBegin c) = true ∧
     (match nestBegin c with
       | .ok c1 => decide (32 ≤ nestFuel c1) && nestLeft (kStepsFrom 15 c1) && !nestLeft (kStepsFrom 16 c1)
       | .error _ => false) = true) ∧
    find? base.mat.oslots 6 = none ∧
    find? ({ base with mat := { oslots := [(6, {})] } } : Context).mat.oslots 6 = some { tag := none } := by
  refine ⟨by decide +kernel, by decide +kernel, by decide +kernel, by decide +kernel⟩

/-- ProductsAndNests: the indices of the last step of a nest with trips 2 and 3. -/
theorem witness_ProductsAndNests_index :
    stepOf [(0, 2), (2, 3)] 5 (fun k => if k = 0 then 1 else if k = 1 then 2 else 0) := by
  unfold stepOf
  decide +kernel

/-- TileOutput: a plain output to BF16, and one with the lines at the window's end. -/
theorem witness_TileOutput :
    let o : TM := ⟨0, 2, .bf16, .line 240, 0, 0, 0, .rne, 0⟩
    o.wfTout = true ∧ bitsOf (matC.rdS .mat o.s).toNat 49 15 = 0 ∧ (toutArgs o 0).bline = 0 ∧ (toutArgs o 0).qx = 0 ∧
    16 * ElemType.bf16.width ≤ 4096 ∧ toutFormat matC o (toutArgs o 0) ⟨.fp32, 1, 1, 0⟩ = .ok none ∧
    matC.dstLine .mat o.l = .ok 240 :=
  ⟨by decide, by decide +kernel, by decide +kernel, by decide +kernel, by decide, rfl, rfl⟩

/-! Witnesses: the sum-product engine. -/

/-- SumProductPasses: the records of spec/07 meet their checks, and one with an absent root does not. -/
theorem witness_SumProductPasses :
    (match decodeTableWord 512 upRecord, decodeTableWord 512 downRecord with
      | some (.spup u), some (.spdn d) => isOk (checkRecord u.tree 3 false) && isOk (checkRecord d.tree 3 true) &&
          isTrap (checkRecord { u.tree with nmask := 0 } 3 false) && isTrap (checkRecord { d.tree with nmask := 0 } 3 true)
      | _, _ => false) = true := by decide +kernel

/-- SumProductData: the last registers, two lines, and a divisor of each kind, in pairs of registers too. -/
theorem witness_SumProductData : (⟨0, 4095, 0, .line 0, 0, 3⟩ : SPF).inRange 4095 = true ∧
    (⟨0, 3840, 0, .line 254, 255, 0⟩ : SPF).inRange 3840 = true ∧ 254 + 2 ≤ 64 * base.bind.window ∧
    base.srcLine .spe (.line 254) = .ok 254 ∧ base.dstLine .spe (.line 254) = .ok 254 ∧
    4094 + 1 * spStep 2 ≤ 4096 ∧ 4094 % 2 = 0 ∧ (2 : BitVec 3).toNat ≤ 2 :=
  ⟨by decide, by decide, by decide, rfl, rfl, by decide, by decide, by decide⟩

/-- SumProductData: the greatest of two values, one of them a NaN, and the tree of three. -/
theorem witness_SumProductData_norm : larger .f32 0x3F800000 0x40000000 0x40000000 ∧ larger .f32 0x7FC00000 0x40000000 0x40000000 ∧
    (let lv := fun k i => if k = 0 then i + 1 else if k = 1 then (if i = 0 then 3 else 3) else 6
     (∀ i < 3, lv 0 i = [1, 2, 3].getD i 0) ∧ lv 8 0 = 6 ∧ ∀ k < 8, ∀ i < 3, i * 2 ^ (k + 1) < 3 →
       if (2 * i + 1) * 2 ^ k < 3 then lv (k + 1) i = lv k (2 * i) + lv k (2 * i + 1) else lv (k + 1) i = lv k (2 * i)) := by
  unfold larger
  decide +kernel

/-! Witnesses: handles, releases, tokens and barriers. -/

/-- Handle 2 with 2 slots, the first full. -/
def hndC : Context := { base with handles := [(2, { count := 2, full := 1 })] }

/-- Handles: a descriptor that ends at the window's end and one that is past it; none; and slots that are and are not full. -/
theorem witness_Handles :
    (let v : Word := 2 ^ 30 + 2 ^ 27 + 255
     v.toNat / 2 ^ 31 = 0 ∧ v.getLsbD 30 = true ∧ Engine.ofCode (v.toNat / 2 ^ 24 % 8) = some .ctl ∧
     Engine.ofCode (v.toNat / 2 ^ 27 % 8) = some .vec ∧ 255 + 1 * 1 ≤ 64 * base.bind.window ∧
     64 * base.bind.window < 256 + 1 * 1) ∧
    isShared base 3 = false ∧ base.releases = [] ∧ hndC.handle? 3 = none ∧ (hndC.handle? 2).isSome = true ∧
    (∀ i < 64, amongSlots 2 0 1 i → (1 : BitVec 64).getLsbD i = true) ∧
    (∃ i < 64, amongSlots 2 1 1 i ∧ (1 : BitVec 64).getLsbD i = false) ∧
    (∀ i < 64, amongSlots 2 1 1 i → (1 : BitVec 64).getLsbD i = false) ∧ hndC.together = true := by
  refine ⟨by decide +kernel, by decide +kernel, rfl, by decide, by decide, ?_, ⟨1, by decide, ⟨0, by decide, rfl⟩, by decide⟩,
    ?_, by decide⟩
  · rintro i - ⟨j, hj, rfl⟩
    obtain rfl : j = 0 := by omega
    decide
  · rintro i - ⟨j, hj, rfl⟩
    obtain rfl : j = 0 := by omega
    decide

/-- ReleasesAndTokens: a release of each kind, the most tokens that fit, one more, and as many as there are. -/
theorem witness_ReleasesAndTokens :
    ({ hndC with releases := [⟨.fill 2 1 1, 0, 0⟩] } : Context).releases = ⟨.fill (2 : BitVec 5).toNat 1 1, 0, 0⟩ :: [] ∧
    ({ hndC with releases := [⟨.drain 2 1 0, 0, 0⟩] } : Context).releases = ⟨.drain (2 : BitVec 5).toNat 1 0, 0, 0⟩ :: [] ∧
    ({ hndC with releases := [⟨.token .vec .mat 3, 0, 0⟩] } : Context).releases = ⟨.token .vec .mat 3, 0, 0⟩ :: [] ∧
      base.releases = [] ∧
    requestsWhere (at0 base) 1 0 (· < 1) = false ∧
    Engine.vec ≠ Engine.mat ∧ lookD base.tokens (tokKey .vec .mat) 0 + lookD base.tokPend (tokKey .vec .mat) 0 + 15 ≤ 15 ∧
    (let c : Context := { base with tokens := [(tokKey .vec .mat, 1)] }
     15 < lookD c.tokens (tokKey .vec .mat) 0 + 15 ∧ 1 ≤ lookD c.tokens (tokKey .vec .mat) 0 ∧
     lookD c.tokens (tokKey .vec .mat) 0 < 2) := by decide +kernel

/-- A launch of two tasks in one team, and a machine with a task of it at a barrier. -/
def pairL : Launch := { bootLaunch with pext := [2] }
def barS (lvl : Nat) (l : Launch) : Machine.State :=
  { at0 { base with barWait := some lvl, barCount := [(lvl, 1)] } with launches := [(1, l)] }

/-- BarriersAndPhases: groups of one and of two, a barrier that waits and one that is complete, a level above the team's,
and a launch with and without a further phase. -/
theorem witness_BarriersAndPhases : base.barWait = none ∧ requestsOut booted 1 0 = false ∧ (booted.launch? 1).isSome = true ∧
    groupSize bootHdr [1] 0 ≤ 1 ∧ 2 ≤ groupSize bootHdr [2] 0 ∧ taskCount bootHdr [1] ≤ 1 ∧ 2 ≤ taskCount bootHdr [2] ∧
    bootLaunch.phase = hdrAt bootHdr 6 1 ∧ bootLaunch.phase < hdrAt (bootHdr ||| BitVec.ofNat 4096 (2 ^ 48)) 6 1 ∧
    (∃ l : Launch, barAbove l 1 = true) ∧
    barTarget? (barS 0 pairL) pairL 1 0 0 = some 1 ∧ barDone (barS 0 pairL) pairL 1 0 0 1 = false ∧
    barDone (barS 0 bootLaunch) bootLaunch 1 0 0 1 = true ∧ barTarget? (barS 6 pairL) pairL 1 6 0 = some 1 ∧
    barDone (barS 6 pairL) pairL 1 6 0 1 = false ∧ barDone (barS 6 bootLaunch) bootLaunch 1 6 0 1 = true :=
  ⟨rfl, by decide +kernel, by decide +kernel, by decide +kernel, by decide +kernel, by decide +kernel, by decide +kernel,
    by decide +kernel, by decide +kernel, ⟨bootLaunch, by decide +kernel⟩, by decide +kernel, by decide +kernel,
    by decide +kernel, by decide +kernel, by decide +kernel, by decide +kernel⟩

/-! Witnesses: atomics and fences. -/

/-- A word the booted task may update, at the window's parts. -/
def addOp (d : Reg) : MA := ⟨d, 0, 5, 0, .add, true⟩

/-- FetchAndOperate: an access that is granted, with engines together and apart, and one whose ATOM is out. -/
theorem witness_FetchAndOperate : isOk (atomCheck booted bootC (addOp 4) 8) = true ∧ atomOut booted bootC = false ∧
    bootC.together = true ∧ (match atomCheck booted bootC (addOp 4) 8 with
      | .ok ps => isOk (readEcc booted ps) && roomFor booted (ctxReq booted bootC (addOp 4) false .ctl 8 (partLoc ps) 1 0)
      | .error _ => false) = true ∧
    (let q := ctxReq booted bootC (addOp 4) false .ctl 8 8 1 0
     atomOut { booted with reqs := [(0, q)] } bootC = true ∧ hasSent booted bootC .ctl = false ∧
     hasSent { booted with reqs := [(0, q)] } bootC .ctl = true ∧ q.remote = false ∧ isBad booted q.loc = false ∧
     find? ({ booted with reqs := [(0, q)] } : Machine.State).reqs 0 = some q ∧
     heldBehind { booted with reqs := [(0, q)] } [0] (0, q) = false) := by decide +kernel

/-- Two requests of the booted task for one word. -/
def reqA : Req := { ctxReq booted bootC (addOp 4) false .ctl 8 8 1 0 with combine := true }
def reqB : Req := { ctxReq booted bootC (addOp 0) true .ctl 8 8 2 0 with reqid := 1, combine := true }

/-- The second, later in program order. -/
def reqC : Req := { reqB with asker := .ctx 1 0 0 true bootEntry 8 1 }

/-- Combining: a request that moves, one that another goes before, two that match, and an entry whose reply is back. -/
theorem witness_Combining : (let s := { booted with reqs := [(0, reqA), (1, reqB)] }
     reqMoves s reqA = true ∧ heldBehind s [0] (0, reqA) = false ∧ reqA.word = none ∧ isBad s reqA.loc = false ∧
       reqA.red = false ∧ s.ctx? 0 = some bootC ∧
     reqA.asker = .ctx bootC.bind.lid bootC.bind.wid 4 false bootEntry 8 0 ∧
     isBad { s with bad := [(0, none)] } reqA.loc = true ∧ heldBehind s [1] (1, reqC) = true ∧
     matching reqA reqB = true ∧ mayMeet s 0 reqA reqB = true ∧ precedes s reqB reqA = false ∧
     heldBehind s [0, 1] (0, reqA) = false ∧ heldBehind s [0, 1] (1, reqB) = false ∧
       (s.parts.filter fun e => e.2.router == 0 && !(e.2.p.red && e.2.q.red)).length < partingRoom 0) ∧
    find? ([(0, ⟨0, reqA, reqA, some 7⟩)] : Store PartEntry) 0 = some ⟨0, reqA, reqA, some 7⟩ := by decide +kernel

/-- Combining: requests that travel over no circuit and over one, one that is on its way back, and one for which there is
room. -/
theorem witness_Combining_travel :
    (let s := { booted with reqs := [(0, reqA)], circuits := [(3, { lid := 1, state := .live })] }
     let far := { reqA with loc := 2 ^ 40, via := some 3 }
     reqA.ext = false ∧ reqA.back = none ∧ (reqCirc? s reqA).isNone = true ∧ reqCirc? s far = some 3 ∧
     ({ far with back := some 7 } : Req).back = some 7 ∧ reqMoves s { far with back := some 7 } = true ∧
     reqMoves { s with circuits := [] } far = false ∧ leavePorts s reqA 0 = [] ∧ reqA.remote = false ∧
     (requesterOf s 1 41 0) % 16 = 1) := by decide +kernel

/-- Fences: with nothing out, with a request out, and with an error to report. -/
theorem witness_Fences : requestsOut booted 1 0 = false ∧ requestsOut { booted with reqs := [(0, reqB)] } 1 0 = true ∧
    requestsOver booted bootC 0 0 = false ∧ atomOut booted bootC = false ∧ bootC.redErrs = [] ∧
    ({ bootC with redErrs := [⟨0, 8⟩] } : Context).redErrs = ⟨0, 8⟩ :: [] := by decide +kernel

/-! Witnesses: the fabric. -/

/-- The fabric once EST of the example has issued, and once circuit 3 is LIVE. -/
def estS : Machine.State := next (exec (.est estC3) fabric) fabric
def liveS : Machine.State := next (exec (.settleElapsed 3) estS) estS
def faultS : Machine.State := next (execOpticalFaultReport 3 1 2 11 .ringdet liveS) liveS

/-- FabricInstructions: FSTEP's values at its limits, a program with room, circuits held and not, in each state, and
FHINT's first reserved value. -/
theorem witness_FabricInstructions : (progOf? fabric 1).isSome = true ∧ progOf? (at0 base) 1 = none ∧
    (match progOf? fabric 1 with
      | some p => decide (p.stepNo < 2) && decide (1 ≤ p.stepNo) &&
          decide ((p.counts.filter fun e => e.1 / 2 ^ 32 == dieOf 0).length < 16) && establishes p 3
      | none => false) = true ∧
    holds fabric 1 3 = true ∧ holds fabric 1 4 = false ∧ (estS.circuit 3).state = .settling ∧
    (liveS.circuit 3).state = .live ∧ ({ state := .lost, lid := 1 } : Circuit).state = .lost ∧
    (2 ^ 32 : Word).toNat = 2 ^ 32 ∧ (2 ^ 60 : Word).toNat = 2 ^ 60 ∧ (2 ^ 60 - 1 : Word).toNat < 2 ^ 60 ∧
    (booted.launch? 1).isSome = true := by decide +kernel

/-- A second circuit between the same ports, with the groups that the first leaves. -/
def twinS : Machine.State :=
  { fabric with circuits := [(3, { lid := 1, state := .live, est := some estC3, groups := 3 }),
      (4, { lid := 1, state := .live, est := some { estC3 with c := 4, wg := 12 }, groups := 12 })] }

/-- SequencerOperations: a program that is ready, a circuit to establish, one to tear, two that LMOVE joins, and a step
whose counts are and are not complete. -/
theorem witness_SequencerOperations :
    (match progOf? fabric 1 with
      | some p => !p.ended && p.opened.isNone && p.routine.isNone && holdOpen fabric p.held && !stepOver p.advance &&
          countsDone p ⟨2, 0, 0⟩ && !countsDone p ⟨2, 1, 1⟩
      | none => false) = true ∧
    holds fabric 1 3 = true ∧ (fabric.circuit 3).state = .idle ∧ estFits fabric estC3 = true ∧ estC3.x = false ∧
    lmoveOk (twinS.circuit 3) (twinS.circuit 4) ⟨3, 4, 1⟩ = true ∧ holds twinS 1 4 = true ∧ faultS.curLid = 1 ∧
    holds faultS 1 3 = true ∧ (faultS.circuit 3).state = .recovering ∧ (faultS.circuit 3).recovery.isSome = true ∧
    (⟨0, true, 0⟩ : VectOp).all = true := by decide +kernel

/-- SequencerOperations: the banks of a circuit are ready, and not, and an external circuit on a link that a LINKSET holds. -/
theorem witness_SequencerOperations_waits (h : Config.bankFeeds 2 3 = true) : banksReady fabric 3 = true ∧
    banksReady { fabric with m := { ready := 0 } } 3 = false ∧ ({ estC3 with x := true } : EstOp).x = true ∧
    (lookD ({ links := [(linkOf { estC3 with x := true }, { drain := true })] } : Machine.State).links
      (linkOf { estC3 with x := true }) {}).drain = true := by
  refine ⟨by decide +kernel, ?_, rfl, rfl⟩
  have : bankAt { fabric with m := { ready := 0 } } 2 = 2 := by decide +kernel
  simp [banksReady, List.range, List.range.loop, h]

/-- SequencerOperations: a SIGNAL whose word can be written, one that awaits its channel, one that does not translate. -/
theorem witness_SequencerOperations_signal :
    (let w (s : Machine.State) (a : Nat) := writeMem s (firmware 1 bootRoot) 0 plainW 8 a 8 5
     let s := bootState Machine.State.reset
     (match w s 0x40000 with | .ok _ => true | _ => false) = true ∧
     (match w { s with m := { s.m with ready := 0 } } 0x40000 with | .error .wait => true | _ => false) = true ∧
     (match w s 0x7F0000000000 with | .error (.trap _) => true | _ => false) = true) := by decide +kernel

/-- CircuitEvents: circuits settling, live, draining and recovering, with nothing and with a request outstanding. -/
theorem witness_CircuitEvents : (estS.circuit 3).state = .settling ∧ (estS.circuit 3).lid ≠ 0 ∧
    (liveS.circuit 3).state = .live ∧ (faultS.circuit 3).state = .recovering ∧
    (let s := { liveS with circuits := [(3, { liveS.circuit 3 with state := .draining })] }
     cardsOn s 1 3 = [] ∧ requestsOn s 3 = false ∧ heldByLinkset s (s.circuit 3) = false) ∧
    (match (faultS.circuit 3).recovery with
      | some r => r.first == .ringdet && (choicesOf .any r.first != []) && r.tries == 0
      | none => false) = true ∧ (faultS.circuit 3).tearPend = false ∧
    (1 : BitVec 4).toNat ≤ 0 + 1 ∧ 0 + 1 < (2 : BitVec 4).toNat ∧ findReceipt? fabric reqA = none ∧
    findReceipt? { fabric with receipts := [(receiptKey reqA, [⟨0, some 5⟩])] } reqA = some ⟨0, some 5⟩ := by
  decide +kernel

/-- CircuitEvents: an external circuit that settles: its link UP and its partner settled with as many groups, and with fewer. -/
theorem witness_CircuitEvents_external :
    (let o := { estC3 with x := true }
     let s : Machine.State := { links := [(linkOf o, { up := true })], partners := [(linkPosOf o, ⟨true, 0x30, 2⟩)]
                                circuits := [(3, { lid := 1, state := .settling, est := some o })] }
     (lookD s.links (linkOf o) {}).up = true ∧ find? s.partners (linkPosOf o) = some ⟨true, 0x30, 2⟩ ∧
     groupCount 0x30 = groupCount o.wg ∧ groupCount 0x10 ≠ groupCount o.wg ∧ (s.circuit 3).est = some o ∧ (s.circuit 3).lid ≠ 0) ∧
    (let s := { faultS with reqs := [(0, { reqA with loc := 2 ^ 40, via := some 3, ask := true })] }
     (s.reqs.filter fun e => onCirc s 3 e.2).length = 1 ∧ s.parts = [] ∧
     heldBehind s [0] (0, { reqA with loc := 2 ^ 40, via := some 3, ask := true }) = false) := by decide +kernel

/-- CircuitEvents: a planned recovery, of a circuit that is to be torn, and requests to be asked for on a circuit that carries
traffic and on one that does not. -/
theorem witness_CircuitEvents_planned :
    (let s := reEstablish liveS (3, { liveS.circuit 3 with tearPend := true })
     (s.circuit 3).state = .recovering ∧ (s.circuit 3).recovery.any (·.planned) = true ∧ (s.circuit 3).tearPend = true ∧
     (s.circuit 3).est.all (linkUp s) = true) ∧
    carries liveS 3 = true ∧ carries faultS 3 = false ∧ ({ reqA with ask := true } : Req).ask = true ∧ reqA.ext = false ∧
    isBad liveS reqA.loc = false ∧ (faultS.circuit 3).est.all (linkUp faultS) = true := by decide +kernel

/-- Bytes of a number, the lowest first, as a header holds them (R358). -/
def packet (n v : Nat) : Packet := ⟨7, 0, 0, numBytes v n⟩

/-- Whole headers of tag 5, KIND 1: one with OPEN, one without and one with CLOSE; and of the same stream a delta of 1. -/
def openP : Packet := packet 24 (0x11 + 5 * 2 ^ 16 + 0x1000 * 2 ^ 32 + 64 * 2 ^ 96 + 3 * 2 ^ 128 + 4 * 2 ^ 160)
def wholeP : Packet := packet 24 (0x01 + 5 * 2 ^ 16 + 0x1000 * 2 ^ 32)
def closeP : Packet := packet 24 (0x21 + 5 * 2 ^ 16)
def deltaP : Packet := packet 4 (5 + 2 * 2 ^ 12 + 1 * 2 ^ 16)
def header : Header := { kind := 1, addr := 0x1000, len := 64, requester := 3, reqid := 4 }
def streamS : Machine.State := { streams := [(streamKey 0 5, ⟨7, header⟩)] }

/-- HopsAndStreams: headers of each form, and of none; a packet of an open stream, and one that waits for its answer. -/
theorem witness_HopsAndStreams_packets :
    readHead openP.head = some (.full true false 5 header) ∧ openP.head.length = 24 ∧ deltaP.head.length = 2 + 2 ∧
    (match readHead wholeP.head, readHead closeP.head with
      | some (.full a b 5 _), some (.full x y 5 _) => !a && !b && !x && y
      | _, _ => false) = true ∧
    readHead deltaP.head = some (.delta 5 1) ∧ readHead [] = none ∧
    (find? streamS.streams (streamKey (portKey 0 0) 5)).isSome = true ∧ openP.circ.toNat = 7 ∧
    find? Machine.State.reset.streams (streamKey 0 5) = none ∧ find? Machine.State.reset.opening (streamKey 0 5) = none ∧
    find? ({ opening := [(streamKey 0 5, openP)] } : Machine.State).opening (streamKey (portKey 0 0) 5) = some openP ∧
    (freeTag? streamS 0 4096 0) = some 0 := by decide +kernel

/-- HopsAndStreams: the shortest and the longest frame, and a port that has room. -/
theorem witness_HopsAndStreams : find? fabric.retraining 5 = none ∧
    find? ([(5, ())] : Store Unit) 5 = some () ∧ (1 ≤ 1 ∧ 16 ≤ 16) ∧
    streamsAt fabric 0 < 4096 ∧
    (let h := hopKey 3 0 false
     (liveS.circuit 3).est = some estC3 ∧ (liveS.circuit 3).state = .live ∧ hasHop estC3 0 = true ∧
     find? liveS.paused h = none ∧ lookD liveS.rx h 0 = 0 ∧ find? ([(h, ())] : Store Unit) h = some ()) ∧
    portOpen fabric 1 2 = false ∧ carries liveS 3 = true ∧ nextHop estC3 0 false = none ∧
    nextHop { estC3 with nr := 1 } 0 false = some 1 ∧ nextHop estC3 0 true = none := by decide +kernel

/-- HopsAndStreams: a hop whose sender is a relay, with the frame it keeps and with none; and one whose sender is an endpoint. -/
theorem witness_HopsAndStreams_relayed : relayedHop estC3 0 false = false ∧ relayedHop { estC3 with nr := 1 } 1 false = true ∧
    lookD ({ relayed := [(hopKey 3 1 false, [[1, 2]])] } : Machine.State).relayed (hopKey 3 1 false) [] = [1, 2] :: [] ∧
    lookD fabric.relayed (hopKey 3 1 false) [] = [] := by decide +kernel

/-- HopsAndStreams: a frame for which the buffer has room. -/
theorem witness_HopsAndStreams_room (s : Machine.State) (h : Nat) (e : lookD s.rx h 0 = 0) : rxHeld s h + 64 * 16 ≤ 65536 := by
  simp [rxHeld, e]

/-! Witnesses: cards. -/

/-- A card's line: word 0, LEN, DLEN, SRC, CIRC, DST and AUX. -/
def cardLine (w0 len dlen src circ dst aux : Nat) : BitVec 512 :=
  BitVec.ofNat 512 (w0 + (len + dlen * 2 ^ 32) * 2 ^ 192 + (src + circ * 2 ^ 56) * 2 ^ 256 + dst * 2 ^ 320 + aux * 2 ^ 384)

/-- The booted task with a ring enabled, on which the line has been posted as card 0. -/
def ringC : Context := { bootC with chains := [(0, { en := true, ring := true, base := 0x4000, rsize := 4 })] }
def posted (s : Machine.State) (l : BitVec 512) : Machine.State :=
  let s1 := s.setCtx 0 ringC
  { s1 with cards := [(0, postedCard s1 ringC 0 l)] }

/-- A copy of 64 bytes. -/
def copyLine : BitVec 512 := cardLine 1 64 64 0x1000 0 0x2000 0

/-- Chains: CPOST of a copy, values that WAITSEQ takes and refuses, and a card that retires with each kind of status. -/
theorem witness_Chains : (ringC.chain 0).en = true ∧ (bootC.chain 0).en = false ∧
    (let s := booted.setCtx 0 ringC
     isOk (cardCheck s ringC 0 copyLine) = true ∧ requestsOut s 1 0 = false ∧ scoreUsed s 0 + (cardRegions copyLine).length ≤ 32 ∧
     ((ringC.chain 0).tail + 1 + 2 ^ 32 - (ringC.chain 0).done) % 2 ^ 32 ≤ (ringC.chain 0).rsize ∧
     isOk (nextSlot s ringC (ringC.who 0) (ringC.chain 0) 1) = true ∧
     isOk (writeMem s (ringC.who 0) 0 plainW 64 0x4040 64 0) = true) ∧
    (let s := posted booted copyLine
     let t := next (exec (.copy 0) s) s
     (match find? t.cards 0 with
       | some k => cardDone k && decide (k.status ≤ 3) && !cardCren k.line
       | none => false) = true ∧ cardAsks t 0 = false) ∧
    seqLe 0 (ringC.chain 0).done = true ∧ seqLe 1 (ringC.chain 0).done = false ∧
    chainBusy booted 1 0 0 = false := by decide +kernel

/-- Chains: a card that has performed its copy, the next to retire, with a word of its chain; the card after it has not. -/
theorem witness_Chains_done :
    (let s := posted (booted.setCtx 0 ringC) copyLine
     let c := { ringC with chains := [(0, { ringC.chain 0 with sqaddr := 0x5000 })] }
     let t := (next (exec (.copy 0) s) s).setCtx 0 c
     let t1 := updCard t 0 fun k => { k with st := .retired }
     (match find? t.cards 0 with | some k => cardDone k && !cardAsks t 0 && decide (k.status ≤ 3) | none => false) = true ∧
     taskPos? t 1 0 = some 0 ∧ taskCtx? t 1 0 = some c ∧ (c.chain 0).done < 2 ^ 32 ∧ 1 ≤ t.cards.length ∧
     (findCard? t1 1 0 0 (((c.chain 0).done + 1) % 2 ^ 32)).any (fun e => e.2.st == .retired) = true ∧
     findCard? t1 1 0 0 (((c.chain 0).done + 2) % 2 ^ 32) = none ∧
     isOk (writeMem t1 (c.who 0) 0 plainW 8 0x5000 8 1) = true) := by decide +kernel

/-- A machine whose word at 0x3000 on is an XFORM's descriptor. -/
def xS (d : Nat) : Machine.State := { booted with mem := booted.mem.writeN 0x3000 64 d }

/-- A local card's checks pass: what the hypothesis of LocalCards asks for. -/
def localReady (s : Machine.State) (l : BitVec 512) : Bool :=
  let t := posted s l
  let k := postedCard (s.setCtx 0 ringC) ringC 0 l
  (startEngine? t 0 k).isSome && isOk (localSide t k false (cardSwin l) (cardSrc l) (if cardKind l = 2 then 0 else cardLen l)) &&
    (match localSide t k false false (cardAux l) 64 with | .ok a => isOk (sideErr t k a 0 64) | .error _ => false) &&
    isOk (localSide t k true (cardDwin l) (cardDst l) (if cardKind l = 4 then 0 else cardDlen l)) && isOk (crecCheck t k)

/-- LocalCards: a card of each kind, and a descriptor of each transform. -/
theorem witness_LocalCards : localReady booted copyLine = true ∧ localReady booted (cardLine 2 0 64 0 0 0x2000 0x3000) = true ∧
    localReady (xS 0x22) (cardLine 3 64 64 0x1000 0 0x2000 0x3000) = true ∧
    localReady booted (cardLine (4 + 2 ^ 23) 64 0 0x1000 0 0 0) = true ∧
    cardKind copyLine = 1 ∧ cardOptHi (cardLine (3 + 5 * 256) 512 512 0x1000 0 0x2000 0x3000) % 16 = 5 := by decide +kernel

/-- LocalCards: a CRC whose second block cannot be read, and a product of rows of a destination. -/
theorem witness_LocalCards_blocks :
    (let s := { booted with bad := [(0x1200 / 64, none)] }
     let t := posted s (cardLine (4 + 2 ^ 23) 1024 0 0x1000 0 0 0)
     let k := postedCard (s.setCtx 0 ringC) ringC 0 (cardLine (4 + 2 ^ 23) 1024 0 0x1000 0 0 0)
     (match localSide t k false (cardSwin k.line) (cardSrc k.line) 1024 with
       | .ok d => decide (blocksOf d.addr 1024 = [(0, 512), (512, 512)]) && isOk (sideErr t k d 0 512) && isTrap (sideErr t k d 512 512)
       | .error _ => false) = true) ∧
    xRuns 1 (xdescOf (0xBB + 2 ^ 32 + 4 * 2 ^ 64 + (16 + 16 * 2 ^ 32) * 2 ^ 128)) ≠ [] ∧
    (∀ r ∈ xRuns 1 (xdescOf (0xBB + 2 ^ 32 + 4 * 2 ^ 64 + (16 + 16 * 2 ^ 32) * 2 ^ 128)), 0 < r.2 ∧ r.1 + r.2 ≤ 64) ∧
    booted.bad = [] := by decide +kernel

/-- LocalCards: what the six transforms accept. -/
theorem witness_LocalCards_transforms : xdescOk 0 (xdescOf (0xBB + 4 * 2 ^ 32 + 4 * 2 ^ 64 + (16 + 16 * 2 ^ 32) * 2 ^ 128)) 64 64 = true ∧
    xdescOk 1 (xdescOf (0xBB + 2 ^ 32 + 4 * 2 ^ 64 + (16 + 16 * 2 ^ 32) * 2 ^ 128)) 64 64 = true ∧
    xdescOk 2 (xdescOf (0x10B + 2 ^ 32 + 256 * 2 ^ 64)) 512 512 = true ∧
    xdescOk 3 (xdescOf (0x1B0 + 2 ^ 32 + 256 * 2 ^ 64)) 512 512 = true ∧ (BFmt.ofCode 1).isSome = true ∧
    xdescOk 4 (xdescOf 0xB) 512 512 = true ∧ xdescOk 5 (xdescOf 0xB) 512 512 = true := by decide +kernel

/-- Launch 1 holds circuit 3 between die 0 and die 1, and the page at 1 GiB has its home on die 1. -/
def farS : Machine.State :=
  { booted with
    mem := booted.mem.writeN (bootTable + 8) 8 (2 ^ 40 + 0x1F)
    circuits := [(3, { lid := 1, state := .live, est := some { estC3 with da := 0, db := 1 }, groups := 3 })] }
def farVa : Nat := 0x40000000

/-- A remote card's start is not held back, and its region has its home on the far die. -/
def remoteReady (l : BitVec 512) : Bool :=
  let t := posted farS l
  let k := postedCard (farS.setCtx 0 ringC) ringC 0 l
  (startEngine? t 0 k).isSome && (attemptAborted? t k).isNone && isOk (crecCheck t k) && !k.ext

def readLine : BitVec 512 := cardLine (0x10 + 3 * 2 ^ 16) 64 64 farVa 3 0x2000 0
def writeLine : BitVec 512 := cardLine (0x11 + 3 * 2 ^ 16) 64 64 0x1000 3 farVa 0
def reduceLine : BitVec 512 := cardLine (0x12 + 3 * 2 ^ 16 + 48 * 256) 64 64 0x1000 3 farVa 0
def fetchLine : BitVec 512 := cardLine (0x13 + 32 * 256 + 3 * 2 ^ 16) 0 0 0 3 farVa 5
def signalLine (add : Nat) : BitVec 512 := cardLine (0x14 + 256 * add + 3 * 2 ^ 16) 0 0 0 3 farVa 5
def dispatchLine : BitVec 512 := cardLine (0x15 + 256 + 3 * 2 ^ 16) 64 4 0x1000 3 (farVa + 64) farVa

/-- RemoteCards: a data card of each kind starts. -/
theorem witness_RemoteCards_data : ([readLine, writeLine, reduceLine].all fun l => remoteReady l &&
    isOk (dataSides (posted farS l) 0 (postedCard farS ringC 0 l))) = true := by decide +kernel

/-- RemoteCards: a fetch-and-op and a signal of each form leave, and a DISPATCH asks for its first slot. -/
theorem witness_RemoteCards_ask :
    (let s := posted farS fetchLine
     let k := postedCard farS ringC 0 fetchLine
     remoteReady fetchLine = true ∧ (rfetchOp? fetchLine).isSome = true ∧
     (match farSide s 0 k .both atomPage (cardDst fetchLine) (rfetchBytes fetchLine) with
       | .ok d => isOk (carriedCheck s k d.addr 8 5) && roomFor s (cardReq s (.card 0) k 4 false .add true d 5)
       | .error _ => false) = true) ∧
    ([0, 1].all fun x =>
      let l := signalLine x
      let s := posted farS l
      let k := postedCard farS ringC 0 l
      remoteReady l && cardOptHi l % 2 == x &&
      match farSignal s 0 k (cardDst l) with
      | .ok d => isOk (carriedCheck s k d.addr 8 5) && roomFor s (cardReq s (.card 0) k 4 true .add true d 5)
      | .error _ => false) = true ∧
    (let s := posted farS dispatchLine
     let k := postedCard farS ringC 0 dispatchLine
     remoteReady dispatchLine = true ∧
     (match dispatchSides s 0 k with
       | .ok (_, ctr, _) => isOk (carriedCheck s k ctr.addr 8 1) && roomFor s (cardReq s (.slot 0 0) k 4 false .add true ctr 1)
       | .error _ => false) = true) := by decide +kernel

/-- An RREAD that runs, one whose segment has been performed, and a DISPATCH whose first slot has come. -/
def readRuns : Machine.State := next (exec (.rread 0) (posted farS readLine)) farS
def readMoved : Machine.State := next (exec (.segmentCommit 0) readRuns) farS
def dispatchRuns : Machine.State :=
  let t := next (exec (.dispatch 0) (posted farS dispatchLine)) farS
  next (exec (.atomicAtHome 0) (next (exec (.atomicAtHome 0) t) t)) t

/-- A card of a machine. -/
def card0 (s : Machine.State) : Card := (find? s.cards 0).getD (postedCard farS ringC 0 readLine)

/-- RemoteCards: a segment on its way, performed, and to be sent again. -/
theorem witness_RemoteCards_segments :
    (let k := card0 readRuns
     k.st = .running ∧ k.performed = false ∧ cardKind k.line ≤ 0x12 ∧ cardRemote k.line = true ∧
     circuitRuns readRuns k = true ∧ k.seg = none ∧ segOpen readRuns k (65536 * k.segs) 65536 = true ∧
     (segStop readRuns k (segOut readRuns k k.segs)).2.isNone = true ∧ readRuns.bad = [] ∧ k.dst.window = false ∧
     farWrite k = false) ∧
    (let k := card0 readMoved
     (k.seg.map fun g => (g.again, g.status, g.n)) = some (false, 0, 64) ∧ lastSegment k = true ∧ k.performed = false ∧
     circuitRuns readMoved k = true) ∧
    (let s := updCard readMoved 0 fun k => { k with seg := k.seg.map fun g => { g with again := true } }
     ((card0 s).seg.map (·.again)) = some true ∧ circuitRuns s (card0 s) = true) := by decide +kernel

/-- RemoteCards: a DISPATCH card with an add still to send and with none, a record without a slot, one whose slot lies in the
buffer, and one past its end. -/
theorem witness_RemoteCards_record :
    (let s := dispatchRuns
     let k := card0 s
     cardKind k.line = 0x15 ∧ k.st = .running ∧ k.performed = false ∧ circuitRuns s k = true ∧ k.adds = 1 ∧
     cardLen k.line / dispRec k.line = 1 ∧ k.segs = 0 ∧ (find? k.slots 0).any (· < cardDlen k.line) = true ∧
     isOk (sideErr s k k.src 0 64) = true ∧ sideOpen s k (slice k.src.parts 0 64) = true ∧
     partsReady s (slice k.dst.parts 0 64) = true ∧ isOk (carriedCheck s k (cardDst k.line) 64 0) = true ∧
     k.dst.window = false ∧ s.bad = []) ∧
    (let s := updCard dispatchRuns 0 fun k => { k with adds := 0, slots := [] }
     let k := card0 s
     k.adds < cardLen k.line / dispRec k.line ∧ isOk (carriedCheck s k k.ctr.addr 8 1) = true ∧ find? k.slots 0 = none ∧
     roomFor s (cardReq s (.slot 0 0) k k.engine false .add true k.ctr 1) = true) ∧
    (let k := card0 (updCard dispatchRuns 0 fun k => { k with slots := [(0, 4)] })
     find? k.slots 0 = some 4 ∧ cardDlen k.line ≤ 4) := by decide +kernel

/-! Witnesses: launches, tasks, the device. -/

/-- The header of a launch of one task at 0x30000. -/
def oneHdr : BitVec 4096 :=
  BitVec.ofNat 4096 (1 + 2 ^ 16 + 2 ^ 32 + 4 * 2 ^ 64 + 0x30000 * 2 ^ 128 + (8 + 2 ^ 32) * 2 ^ 512)
def oneSub : Submission := { addr := 0x1000, hdr := some oneHdr, root := bootRoot }

/-- A bind record's contents for position 1. -/
def bindAt1 : BindReq := ⟨1, 1, 0, false, false, 0, false, 0, 1, 0⟩
def boundS : Machine.State := next (exec (.bindRecordWrite bindAt1) booted) booted

/-- LaunchLife: a header that is admitted and one that is refused, a LAUNCH whose header can be read, a position that is
free and one that is taken, a task that can start, and a launch with and without tasks left. -/
theorem witness_LaunchLife : isOk (accessCheck booted (bootC.who 0) .read notWs 64 0x1000 512) = true ∧
    (booted.die 0).queue.length < 16 ∧ (booted.launch? 1).isSome = true ∧ hdrAt oneHdr 0x38 8 = 0 ∧ oneSub.full = false ∧
    coreWorks booted 0 0 = true ∧ coreWorks Machine.State.reset 0 0 = false ∧
    (match choose booted oneSub oneHdr with
      | .ok (_, c, _) => !heldBack booted oneHdr c none && c.entry == 0x30000
      | .error _ => false) = true ∧
    (match choose booted oneSub 0 with
      | .ok _ => false
      | .error e => decide (e ≠ .wait)) = true ∧
    (match choose booted oneSub 0 with
      | .ok _ => false
      | .error e => (refuseLaunch booted oneSub (some 0) e).isSome) = true ∧
    isOk (writeMem booted (firmware 0 bootRoot) 0 plainW 8 8 8 5) = true ∧
    isTrap (writeMem booted (firmware 0 bootRoot) 0 plainW 8 (2 ^ 55) 8 5) = true ∧
    (match writeMem { booted with m := { booted.m with ready := 0 } } (firmware 0 bootRoot) 0 plainW 8 8 8 5 with
      | .error .wait => true
      | _ => false) = true ∧
    booted.m.hostQ = [] ∧ find? (booted.die 0).slots 1 = none ∧ (find? (booted.die 0).slots 0).isSome = true ∧
    (match find? (boundS.die 0).slots 1 with
      | some r => (boundS.launch? r.lid).any (canStart boundS 1 r)
      | none => false) = true ∧
    (match find? (booted.die 0).slots 0 with
      | some r => canStart booted 0 r bootLaunch
      | none => true) = false ∧
    bootLaunch.left ≠ 0 ∧ hdrAt bootLaunch.hdr 0xF8 8 = 0 := by decide +kernel

/-- The booted task, debugged and halted, and as it is after pre-emption with its record bound again. -/
def debugS : Machine.State := booted.setLaunch 1 { bootLaunch with debugger := true }
def haltedS : Machine.State := next (execDebugHalt 0 debugS) debugS
def backS : Machine.State :=
  let s := next (exec (.preempt 0) booted) booted
  next (exec (.bindRecordWrite { bindAt1 with pos := 0, res := true }) s) s

/-- TaskLife: a task halted under a debugger and one that is not, one that is blocked by nothing, and one whose saved
context may come back. -/
theorem witness_TaskLife : debugS.debugged bootC = true ∧ booted.debugged bootC = false ∧ bootC.pendingFault = none ∧
    blocked booted 0 bootC = false ∧ booted.launch? 2 = none ∧ bootC.stopping = false ∧ bootC.idle = false ∧
    ({ bootC with pendingFault := some { code := .illop } } : Context).preempting = false ∧ requestsOut booted 1 0 = false ∧
    (haltedAt? haltedS 0).any (fun x => x.2.ctx.lineOk 255) = true ∧ haltedAt? booted 0 = none ∧
    coreWorks backS 0 0 = true ∧ requestsOut backS 1 0 = false ∧
    (match find? (backS.die 0).slots 0 with
      | some r => r.res && !r.run && (match savedEntry? backS r.lid r.wid with
          | some (_, v) => fits backS v 0 && decide (v.pos = 0) && !v.bad && v.ctx.pendingFault.isNone && !v.ctx.halted &&
              !v.ctx.stepping
          | none => false)
      | none => false) = true ∧ backS.ctx? 0 = none := by decide +kernel

/-- TaskLife: a task whose CTL is at an IDLE and no engine of which goes on, one that can go on, and what the watchdog's firing
leaves to be delivered; a persistent task with no counted wait. -/
theorem witness_TaskLife_watchdog :
    (let c : Context := { bootC with idle := true }
     let s := booted.setCtx 0 c
     stand s 0 c .ctl = .counted 0 0 ∧ ([Engine.ctl, .vec, .mat, .spe, .mem, .syn].all fun e => stand s 0 c e != .free) = true ∧
     (firstWait s 0 c).isSome = true ∧ c.stopping = false ∧ c.bind.pers = false) ∧
    stand booted 0 bootC .ctl = .free ∧ spanHold bootC .ctl = false ∧ aheadHold bootC .ctl = false ∧
    (match fetchSlot booted (bootC.who 0) (bootC.posOf .ctl) with
      | .ok x => decide (x.owner bootC = .ctl)
      | .error _ => false) = true ∧ (firstWait booted 0 bootC).isNone = true ∧
    ({ bootC with bind := { bootC.bind with pers := true } } : Context).bind.pers = true := by decide +kernel

/-- TaskLife: a scalar load that is on its way when the sector that it has read goes bad, once the engine has gone on. -/
theorem witness_TaskLife_late :
    (let r : LateRead := ⟨.mem, bootC.pos.mem, none, 0, [(0x40008, 0x40008, 8)], [], [(4, 7)], [], []⟩
     let c : Context := { bootC with r := { bootC.r with s := [(4, 9)], span := 1 }, pos := bootC.pos.set .mem bootC.pos.mem.next
                                     late := [r] }
     let s := { booted with ctxs := [(0, c)] }
     let t := next (exec (.scrubError ⟨.mem 0x40000 none, .latent⟩) s) s
     c.together = false ∧ c.handler = false ∧ c.stopping = false ∧ rangesMeet 0x40008 8 0x40000 64 = true ∧
     r.meets 0x40000 = some (0x40008 + (0x40000 - 0x40008)) ∧ (c.unread r).pos.get .mem = r.place ∧
     lookD (c.unread r).r.s 4 0 = 7 ∧ isBad t 0x40000 = true ∧
     (t.m.reports.any fun x => match x with | .assayDue _ => true | _ => false) = true) := by decide +kernel

/-- Owner: a master that owns the device and one that does not, keys open and locked, links up and down, an election
open and none, and the queue's limits. -/
theorem witness_Owner : (let s : Machine.State := { m := { ownerKind := (masterId .os).1, ownerDev := (masterId .os).2 } }
     owns s .os = true ∧ owns s .mgmt = false ∧ s.m.oklock = false ∧ s.m.ownerKind ≠ 0 ∧ s.m.handover = 0 ∧
     (1#32 - s.m.fqdone).toNat = 1 ∧ (64#32 - s.m.fqdone).toNat = 64 ∧ (65#32 - s.m.fqdone).toNat = 65) ∧
    owns Machine.State.reset .os = false ∧ Machine.State.reset.m.nonce = none ∧ Machine.State.reset.m.ownerKind = 0 := by
  decide +kernel

/-- Management: bits that are assigned and reserved, a resource free and one that a deterministic launch holds, and a launch alone
on its die. -/
theorem witness_Management : readyAssigned 22 = true ∧ readyAssigned 23 = false ∧
    defectKind 1 = true ∧ detHolds booted (trimRes ⟨1, 0, 5⟩) = false ∧ inUse booted (trimRes ⟨1, 0, 5⟩) = false ∧
    inUse booted (trimRes ⟨1, 0, 0⟩) = true ∧
    detHolds (booted.setLaunch 1 { bootLaunch with hdr := bootHdr ||| BitVec.ofNat 4096 (2 ^ 24) }) ⟨1, 0, 0⟩ = true ∧
    booted.ctx? 0 = some bootC ∧ bootC.late = [] ∧ booted.ctxs.length = 1 ∧
    soleOn booted 0 1 = true ∧ soleOn booted 0 2 = false ∧
    (let s : Machine.State := { m := { defects := [defectWord ⟨5, 2, 7⟩], ready := 0, spare := some 4 } }
     defectWord { kind := 5, die := BitVec.ofNat 4 2, index := BitVec.ofNat 32 7 } ∈ s.m.defects ∧
     readyBit s (1216 + 32 * 2 + 7) = false ∧ lookD s.m.copied 2 0 < 2) := by decide +kernel

/-- Bank 2 has been replaced by bank 4; and it has been retired when no spare was ready. -/
def switched : Machine.State := next (execLaserBankRemove 2 booted) booted
def retiredS : Machine.State :=
  { booted with m := { booted.m with defects := [defectWord ⟨6, 0, 4⟩], serves := [(2, 4)], spare := none
                                     ready := BitVec.allOnes 2048 &&& ~~~(0x500000#2048) } }

/-- Management: banks that serve, the spare, one that is out, and one that comes to the place of a retired one. -/
theorem witness_Management_banks :
    ((∃ p < 4, bankAt booted p = 2) ∧ booted.m.spare = some 4 ∧ readyBit booted (18 + 2) = true ∧
      readyBit booted (18 + 4) = true) ∧
    (let t := switched
     bankAt t 2 = 4 ∧ t.m.spare = none ∧ readyBit t (18 + 2) = false ∧ readyBit t (18 + 4) = true ∧
      ¬ ∃ p < 4, bankAt t p = 2) ∧
    (let t := retiredS
     bankAt t 2 = 4 ∧ readyBit t (18 + 4) = false ∧ readyBit t (18 + 2) = false ∧ (¬ ∃ p < 4, bankAt t p = 2) ∧
      defectWord { kind := 6, die := 0, index := BitVec.ofNat 32 (bankAt t 2) } ∈ t.m.defects ∧
      bankAt (next (exec (.laserBankReturn 2 true) t) t) 2 = 2) ∧
    (let t := setReady booted (18 + 1) false
     (∃ p < 4, bankAt t p = 1) ∧ readyBit t (18 + 1) = false) ∧
    (let t := setReady booted (18 + 4) false
     t.m.spare = some 4 ∧ readyBit t (18 + 4) = false ∧ readyBit t 18 = true) := by decide +kernel

/-- Management: errors in the weight store, in a locked way of the die cache, and in HBM. -/
theorem witness_Management_rows : (2 ^ 44 : Nat) / 2 ^ 44 ≠ 0 ∧ (0x40000 : Nat) / 2 ^ 44 = 0 ∧
    find? ({ bad := [(0x1000, some 5)] } : Machine.State).bad (0x40000 / 64) = some (some 5) ∧
    Machine.State.reset.bad = [] := by decide +kernel

/-- Links: a link that may train, one that is up, and LINKSET idle, asked for and under way. -/
def heldRun (mask : BitVec 32) (p : LinksetPhase) : LinksetRun :=
  { seq := 1, lmask := mask, map := [some (5, 4)], crec := 0, phase := p }
theorem witness_Links : (let x := linkAt Machine.State.reset 0
     x.up = false ∧ x.drain = false) ∧
    (let s : Machine.State := { links := [(0, { up := true, width := 16 })] }
     (linkAt s 0).up = true ∧ (linkAt s 0).drain = false ∧ linksetDrained s (heldRun 3 .drain) = true) ∧
    (∀ e ∈ Machine.State.reset.circuits, e.2.state ≠ .recovering) ∧
    Machine.State.reset.m.lset = none ∧ Machine.State.reset.m.fqdone = Machine.State.reset.m.fqtail ∧
    ({ fqtail := 1 } : Mgmt).fqdone ≠ ({ fqtail := 1 } : Mgmt).fqtail := by decide +kernel

/-- Links: a LINKSET from the end of its drain to its end: UP at Close and down at Re-map with DRAIN set, trained with the peer of
its map, and resumed; and a peer that its map does not name. -/
theorem witness_Links_phases :
    (let w : PeerInfo := ⟨5, 4, 0⟩
     let s0 : Machine.State := { links := [(0, { up := true, width := 16, drain := true, pdev := 9 })]
                                 m := { fqtail := 1, lset := some (heldRun 1 .drain) } }
     let s1 := next (exec (.linkset []) s0) s0
     let s2 := next (exec (.linkset []) s1) s1
     let s3 := next (exec (.linkset [(0, w)]) s2) s2
     let s4 := next (exec (.linkset []) s3) s3
     let x3 := next (exec (.linkset [(0, { w with link := 3 })]) s2) s2
     ([s1, s2, s3, s4, x3].map fun s => ((s.m.lset.map fun r => (r.phase, r.bad)), (linkAt s 0).up, (linkAt s 0).drain,
       (linkAt s 0).pdev)) =
     [(some (.closed, 0), true, true, 9), (some (.mapped, 0), false, true, 9), (some (.trained, 0), true, true, 9),
       (none, true, false, 5), (some (.trained, 1), false, true, 9)] ∧
     s4.m.fqdone = 1 ∧ s4.m.fqstatus = 0 ∧ (1#32).getLsbD 0 = true ∧
     peerSeen? [(0, w)] 0 = some w ∧ (heldRun 1 .mapped).map.getD 0 none = some (w.dev.toNat, w.link.toNat)) := by
  decide +kernel

/-- Links: a wavelength that may leave by itself, one that must wait for another, one that is away, one that is being steered,
and a link that has none. -/
theorem witness_Links_retraining :
    (let s : Machine.State := { links := [(0, { up := true, width := 16 }), (1, { up := true, width := 15, away := [3] }),
       (2, { up := true, width := 15, moving := true }), (3, { up := true })] }
     (linkAt s 0).width ≠ 0 ∧ (linkAt s 0).away = [] ∧ (linkAt s 0).moving = false ∧
     portOpen s 0 7 = false ∧ 4 ∉ (linkAt s 1).away ∧ (linkAt s 1).away ≠ [] ∧ 3 ∈ (linkAt s 1).away ∧
     3 ∉ (linkAt s 2).away ∧ (linkAt s 2).moving = true ∧ (linkAt s 3).width = 0 ∧ (linkAt s 4).up = false) := by
  decide +kernel

/-- Two links to one peer, each with 16 wavelengths, and what the first has offered in units of 64 KiB. -/
def pairS (dev units : Nat) : Machine.State :=
  { links := [(0, { up := true, width := 16, pdev := 5, plink := 4, offered := 65536 * units }),
      (1, { up := true, width := 16, pdev := 5, plink := 5 })]
    m := { devno := dev } }

/-- Links: a pair that may be steered at the end that decides and at the one that follows, with a demand that moves a
wavelength and the largest that does not, and a pair that may not. -/
theorem witness_Links_steering : (∀ d ∈ [1, 9], ∀ u ∈ [16, 17],
    (let s := pairS d u
     let y := { linkAt s 0 with demand := u, offered := 0 }
     steerable ((s.setLink 0 y).setLink 1 (linkAt s 1)) 0 1 = true ∧ (s.m.devno < y.pdev ↔ d = 1) ∧
     (2 * (linkAt s 1).demand + 16 < y.demand ↔ u = 17))) ∧
    steerable Machine.State.reset 0 1 = false := by decide +kernel

/-- LINKSET that waits for a card on a link's circuit. -/
theorem witness_Links_draining : (let l := cardLine (0x10 + 3 * 2 ^ 16) 64 64 0 3 0x2000 0
     let s : Machine.State := { circuits := [(3, { lid := 1, state := .draining, est := some { estC3 with x := true } })]
                                cards := [(0, { line := l, lid := 1, wid := 0, die := 0, core := 0, window := 4
                                                det := false, q := 0, seq := 1, preds := [] })] }
     linksetDrained s (heldRun (BitVec.allOnes 32) .drain) = false) := by decide +kernel

/-! Witnesses: the whole machine. -/

/-- ComputingTouchesNobodyElse: an instruction of it that answers. -/
theorem witness_ComputingTouchesNobodyElse : ownContextOnly (.add ⟨4, 5, 6⟩) = true ∧
    (after (exec (.add ⟨4, 5, 6⟩) (at0 base))).isSome = true := by decide +kernel

/-- StepRunsTheDecodedInstruction: with one program counter and with the engines apart, ADDI fetched by CTL. -/
def placed : Machine.State := Machine.State.reset.withFetchWord 64 0x08001050FFFFFFC0
def apartC : Context := { (placed.ctx? 0).getD {} with r := { span := 1 } }
theorem witness_StepRunsTheDecodedInstruction : placed.agenda = [.engine 0 .ctl] ∧ placed.ctx? 0 = some bootC ∧
    bootC.still = false ∧ bootC.together = true ∧ apartC.together = false ∧ apartC.still = false ∧
    (match fetchRecord { placed with agenda := [] } (bootC.who 0) (bootC.posOf .ctl).addr with
      | .ok r => !(slotIn r 0).inside (bootC.posOf .ctl) && decide ((slotIn r 0).owner bootC = .ctl) &&
          (match decodeSlot (slotsOf r) 0 with
            | .ok i =>
                let s0 : Machine.State := { placed with agenda := [] }
                let s1 : Machine.State := { s0 with ctxs := [(0, apartC)] }
                let f := footAt s0 bootC .ctl 0 i
                let g := footAt s1 apartC .ctl 0 i
                !boardHold s0 0 bootC i f && !soHold s0 0 bootC (bootC.posOf .ctl).idx f [] &&
                !redHold s0 0 bootC .ctl (bootC.posOf .ctl).idx i f &&
                !sbarHold s0 bootC (bootC.posOf .ctl).idx f [] && (ownError bootC i f).isNone &&
                  !performHold s1 0 apartC .ctl i &&
                (ownError apartC i g).isNone && (lateLine s1 ((apartC.awaitMem .ctl g).passCycles .ctl (max (dlyWait apartC .ctl g) (yWait apartC i))) .ctl g).isNone &&
                (granted s0 0 .ctl).any (fun x => x.1 == 0) && (granted s1 0 .ctl).any (fun x => x.1 == 0)
            | .error _ => false)
      | .error _ => false) = true ∧
    spanHold apartC .ctl = false ∧ aheadHold apartC .ctl = false ∧ apartC.r.latmode = false := by decide +kernel

/-- DecodingReadsWhatTheEncoderWrote: a slot's instruction, a record's, and the sequencer's. -/
theorem witness_DecodingReadsWhatTheEncoderWrote : (Instr.addi ⟨4, 5, -64⟩).wf = true ∧
    encode (.addi ⟨4, 5, -64⟩) ≠ [] ∧ sequencerOp (.addi ⟨4, 5, -64⟩) = false ∧ (Instr.est estC3).wf = true ∧
    encode (.est estC3) ≠ [] ∧ sequencerOp (.est estC3) = true ∧
    (match decodeTableWord 512 upRecord with
      | some i => i.wf && encode i != []
      | none => false) = true := by decide +kernel

/-- EveryStepKeepsMemoryCanonical: memory after reset, and a step from it. -/
theorem witness_EveryStepKeepsMemoryCanonical : MemoryOk Machine.State.reset ∧
    (∃ t, step Machine.State.reset = .next t) ∧ MemoryOk booted := by
  exact ⟨rfl, ⟨_, rfl⟩, by show _ = _; decide +kernel⟩

/-- PriorityHeartAndIdle and Return: a persistent task and one that is not, a task that idles, one in its handler. -/
theorem witness_PriorityHeartAndIdle_Return :
    ({ base with bind := { base.bind with pers := true } } : Context).bind.pers = true ∧ base.bind.pers = false ∧
    ({ base with idle := true } : Context).idle = true ∧ ({ base with handler := true } : Context).handler = true ∧
    base.nestV = none ∧ FaultCode.page ≠ .debug := by decide +kernel

end Sys2Proof.Tests
end

section
/-!
Memory as bytes (R6): what a byte and a number read after a number of bytes is written.
-/
namespace Sys2Proof.Machine

/-- A written byte reads back. -/
@[simp] theorem Memory.read_write_same (m : Memory) (a : Nat) (b : Byte) : (m.write a b).read a = b :=
  lookD_putD_same m a b unlistedByte

/-- A written byte leaves every other byte. -/
theorem Memory.read_write_other (m : Memory) {a q : Nat} (b : Byte) (h : q ≠ a) : (m.write a b).read q = m.read q :=
  lookD_putD_other m a q b unlistedByte h

/-- A written number leaves every byte outside its range. -/
theorem Memory.read_writeN_outside (n : Nat) : ∀ (m : Memory) (a v q : Nat), q < a ∨ a + n ≤ q →
    (m.writeN a n v).read q = m.read q := by
  induction n with
  | zero => intros; rfl
  | succ n ih =>
    intro m a v q h
    rw [Memory.writeN, ih _ _ _ _ (by omega), Memory.read_write_other _ _ (by omega)]

/-- Byte `k` of a written number lies at its address plus `k`. -/
theorem Memory.read_writeN_inside (n : Nat) : ∀ (m : Memory) (a v k : Nat), k < n →
    (m.writeN a n v).read (a + k) = BitVec.ofNat 8 (v / 2 ^ (8 * k)) := by
  induction n with
  | zero => intro m a v k h; omega
  | succ n ih =>
    intro m a v k h
    rw [Memory.writeN]
    cases k with
    | zero => simp [Memory.read_writeN_outside n _ (a + 1)]
    | succ k =>
      have hdiv : v / 256 / 2 ^ (8 * k) = v / 2 ^ (8 * (k + 1)) := by
        rw [Nat.div_div_eq_div_mul, show 8 * (k + 1) = 8 + 8 * k by omega, Nat.pow_add]
      rw [show a + (k + 1) = a + 1 + k by omega, ih _ _ _ _ (by omega), hdiv]

/-- A number written reads back, modulo its bytes. -/
theorem Memory.readN_writeN (n : Nat) : ∀ (m : Memory) (a v : Nat), (m.writeN a n v).readN a n = v % 2 ^ (8 * n) := by
  induction n with
  | zero => intro m a v; simp [Memory.readN, Nat.mod_one]
  | succ n ih =>
    intro m a v
    have hlow : (m.writeN a (n + 1) v).read a = BitVec.ofNat 8 v := by
      simpa using Memory.read_writeN_inside (n + 1) m a v 0 (Nat.succ_pos n)
    calc (m.writeN a (n + 1) v).readN a (n + 1)
        = v % 256 + 256 * ((m.writeN a (n + 1) v).readN (a + 1) n) := by rw [Memory.readN, hlow, BitVec.toNat_ofNat]
      _ = v % 256 + 256 * (v / 256 % 2 ^ (8 * n)) := by rw [Memory.writeN, ih]
      _ = v % 2 ^ (8 * (n + 1)) := by
        rw [show 8 * (n + 1) = 8 + 8 * n by omega, Nat.pow_add, Nat.mod_mul]

/-- Settles O9: each part is an induction over the bytes of the number. -/
theorem memoryReadAfterWrite : Obligations.MemoryReadAfterWrite := by
  intro m a n v
  exact ⟨Memory.readN_writeN n m a v, fun k hk => Memory.read_writeN_inside n m a v k hk,
    fun b hb => Memory.read_writeN_outside n m a v b hb⟩

end Sys2Proof.Machine
end

section
/-!
What leaves memory as it is: one rule per function of the model that changes the state and writes no memory. Only the
memory's own writes (`State.store`, `Memory.writeN`) and what calls them have no such rule.
-/
namespace Sys2Proof.Machine

@[simp] theorem State.mem_ite (p : Prop) [Decidable p] (s t : State) :
    (if p then s else t).mem = if p then s.mem else t.mem :=
  apply_ite State.mem p s t

section
variable {β : Type}

/-- A step of a fold that leaves memory. -/
def LeavesMem (f : State → β → State) : Prop := ∀ s b, (f s b).mem = s.mem

@[simp] theorem leavesMem_iff (f : State → β → State) : LeavesMem f ↔ ∀ s b, (f s b).mem = s.mem := Iff.rfl

/-- A fold whose steps leave memory leaves memory. -/
@[simp] theorem foldl_mem (f : State → β → State) (hf : LeavesMem f) (l : List β) :
    ∀ s : State, (l.foldl f s).mem = s.mem := by
  induction l with
  | nil => intro s; rfl
  | cons b r ih => intro s; rw [List.foldl_cons, ih, hf]
end

/-! Handles, faults and handler mode (R198, R316 to R320). -/

@[simp] theorem wakeDie_mem (s : State) (lid die h : Nat) : (wakeDie s lid die h).mem = s.mem := rfl

@[simp] theorem setHBits_mem (s : State) (c : Context) (pos h : Nat) (d : Handle) (b : HBits) :
    (setHBits s c pos h d b).1.mem = s.mem :=
  (setHBits_sameBut s c pos h d b).mem

@[simp] theorem applyRelease_mem (pos : Nat) (sc : State × Context) (r : Release) :
    (applyRelease pos sc r).1.mem = sc.1.mem :=
  (applyRelease_sameBut pos sc.1 sc.2 r).1.mem

@[simp] theorem applyReleases_mem (pos : Nat) (s : State) (c : Context) : (applyReleases pos s c).1.mem = s.mem :=
  (applyReleases_sameBut pos s c _ rfl).mem

@[simp] theorem enterHandler_mem (s : State) (pos : Nat) (c : Context) (e : Engine) (t : Trap) :
    (enterHandler s pos c e t).mem = s.mem := by
  simp [enterHandler]

@[simp] theorem deliverTrap_mem (s : State) (pos : Nat) (c : Context) (e : Engine) (t : Trap) :
    (deliverTrap s pos c e t).mem = s.mem := by
  simp [deliverTrap]

@[simp] theorem State.noteFound_mem (s : State) (t : Trap) : (s.noteFound t).mem = s.mem := by
  unfold State.noteFound; split <;> rfl

@[simp] theorem takeTrap_mem (s0 : State) (pos : Nat) (c : Context) (e : Engine) (t : Trap) :
    (takeTrap s0 pos c e t).mem = s0.mem := by
  simp [takeTrap]

@[simp] theorem stopWith_mem (s : State) (pos : Nat) (c : Context) (e : Engine) (x : Stop) :
    (stopWith s pos c e x).mem = s.mem := by
  unfold stopWith; split <;> simp

/-! Translations and tags (R242, R395). -/

@[simp] theorem noteTrans_mem (core : Nat) (root : Nat) (s : State) (t : Trans) :
    (noteTrans core root s t).mem = s.mem := by
  simp [noteTrans]

@[simp] theorem State.noteParts_mem (s : State) (w : Who) (ps : List Part) : (s.noteParts w ps).mem = s.mem := by
  simp [State.noteParts]

@[simp] theorem writeTags_mem (s : State) (ver : Nat) (ps : List Part) : (writeTags s ver ps).mem = s.mem := by
  simp [writeTags]

/-! What a peer device is sent, and cards (R290, R300, R392). -/

@[simp] theorem farPut_mem (n : Nat) : ∀ (s : State) (k v : Nat), (farPut s k n v).mem = s.mem := by
  induction n with
  | zero => intros; rfl
  | succ n ih => intro s k v; rw [farPut, ih]

@[simp] theorem offer_mem (s : State) (c n : Nat) : (offer s c n).mem = s.mem := by
  unfold offer; split <;> simp

@[simp] theorem updTask_mem (s : State) (lid wid : Nat) (f : Context → Context) : (updTask s lid wid f).mem = s.mem :=
  rfl

@[simp] theorem reportFailure_mem (s : State) (lid wid q : Nat) : (reportFailure s lid wid q).mem = s.mem := by
  unfold reportFailure
  split
  · rfl
  · dsimp only
    split
    · rfl
    · split <;> rfl

@[simp] theorem updCard_mem (s : State) (id : Nat) (f : Card → Card) : (updCard s id f).mem = s.mem := rfl

@[simp] theorem failCards_mem (s : State) (ids : List Nat) (status sub faddr : Nat) :
    (failCards s ids status sub faddr).mem = s.mem := rfl

@[simp] theorem failCard_mem (s : State) (id status sub faddr : Nat) : (failCard s id status sub faddr).mem = s.mem :=
  rfl

/-! Streams, fetching and residency (R242, R330, R352). -/

@[simp] theorem closeStreams_mem (s : State) (c : Nat) : (closeStreams s c).mem = s.mem := rfl

@[simp] theorem noteFetch_mem (s : State) (pos : Nat) (c : Context) (p : EnginePos) (t : State) :
    (noteFetch s pos c p t).mem = t.mem := by
  unfold noteFetch
  split
  · rfl
  · split <;> simp

@[simp] theorem evictOne_mem (s : State) (core : Nat) (u : UnitRes) : (evictOne s core u).mem = s.mem := rfl

@[simp] theorem evictFor_mem (core : Nat) (k : Space) (need n : Nat) :
    ∀ s : State, (evictFor core k need n s).mem = s.mem := by
  induction n with
  | zero => intro s; rfl
  | succ n ih =>
    intro s
    unfold evictFor
    split
    · rfl
    · split <;> simp [ih]

@[simp] theorem makeRoom_mem (s : State) (core : Nat) (k : Space) (need : Nat) :
    (makeRoom s core k need).mem = s.mem := by
  simp [makeRoom]

@[simp] theorem finishTask_mem (s : State) (pos : Nat) (c : Context) (faulted : Bool) :
    (finishTask s pos c faulted).mem = s.mem := by
  unfold finishTask; dsimp only; split <;> simp

/-! Requests and their receipts (R272 to R281). -/

@[simp] theorem takeId_mem (s : State) (r : Req) : (takeId s r).mem = s.mem := by
  simp [takeId]

@[simp] theorem addReq_mem (s : State) (r : Req) : (addReq s r).mem = s.mem := by
  simp [addReq]

@[simp] theorem keepReceipt_mem (s : State) (r : Req) (old : Nat) : (keepReceipt s r old).mem = s.mem := by
  simp [keepReceipt]

@[simp] theorem farAtomic_mem (s : State) (r : Req) : (farAtomic s r).1.mem = s.mem := by
  simp [farAtomic]

@[simp] theorem deliverReply_mem (s : State) (a : Asker) (x : Nat) : (deliverReply s a x).mem = s.mem := by
  unfold deliverReply; split <;> simp

@[simp] theorem failAsker_mem (s : State) (a : Asker) : (failAsker s a).mem = s.mem := by
  unfold failAsker
  split
  · split
    · rfl
    · split
      · rfl
      · split
        · split <;> simp
        · rfl
  all_goals rfl

@[simp] theorem redDone_mem (s : State) (a : Asker) : (redDone s a).mem = s.mem := by
  unfold redDone; split <;> rfl

@[simp] theorem finishReds_mem (s : State) (a : Asker) : (finishReds s a).mem = s.mem := by
  simp [finishReds]

@[simp] theorem settleReds_mem (n : Nat) : ∀ (a : Asker) (s : State), (settleReds n a s).mem = s.mem := by
  induction n with
  | zero => intro a s; rfl
  | succ n ih =>
    intro a s
    cases a with
    | entry id =>
      unfold settleReds
      split
      · rfl
      · dsimp only; split <;> split <;> simp [ih]
    | _ => rfl

@[simp] theorem sendBack_mem (s : State) (rid : Nat) (r : Req) (x : Nat) : (sendBack s rid r x).mem = s.mem := by
  simp [sendBack]

@[simp] theorem partReply_mem (s : State) (entry : Nat) (e : PartEntry) (x : Nat) :
    (partReply s entry e x).mem = s.mem := by
  simp [partReply]

/-! Barriers and phases (R221 to R226). -/

@[simp] theorem gatherTeams_mem (s : State) (lid : Nat) (l : Launch) : (gatherTeams s lid l).mem = s.mem := rfl

@[simp] theorem updLaunchTasks_mem (s : State) (lid : Nat) (f : Context → Context) :
    (updLaunchTasks s lid f).mem = s.mem := rfl

@[simp] theorem releaseBar_mem (s : State) (l : Launch) (lid k g : Nat) : (releaseBar s l lid k g).mem = s.mem := rfl

@[simp] theorem newPhase_mem (s : State) (l : Launch) (lid : Nat) : (newPhase s l lid).mem = s.mem := rfl

@[simp] theorem arriveHere_mem (s : State) (lid k g : Nat) : (arriveHere s lid k g).mem = s.mem := by
  simp [arriveHere]

@[simp] theorem arriveAt_mem (s : State) (l : Launch) (c : Context) (pos k : Nat) :
    (arriveAt s l c pos k).mem = s.mem := by
  simp [arriveAt]

/-! Chains, launches and tasks (R209 to R220, R290, R327 to R330). -/

@[simp] theorem clearEn_mem (s : State) (pos : Nat) (c : Context) (e : Engine) (q : Nat) :
    (clearEn s pos c e q).mem = s.mem := by
  simp [clearEn]

@[simp] theorem answerParent_mem (s : State) (p : Option Parent) (lid code : Nat) :
    (answerParent s p lid code).mem = s.mem := by
  unfold answerParent; split <;> rfl

@[simp] theorem admitLaunch_mem (s : State) (sub : Submission) (h : BitVec 4096) (t : Tables) (c : Choice)
    (images : List (Nat × Nat)) (p : Option CProg) :
    (admitLaunch s sub h t c images p).mem = s.mem := by
  unfold admitLaunch
  cases p <;> simp

@[simp] theorem freeCircuit_mem (s : State) (c : Nat) : (freeCircuit s c).mem = s.mem := by
  unfold freeCircuit; dsimp only; split <;> simp

@[simp] theorem clearLaunch_mem (s1 : State) (lid : Nat) : (clearLaunch s1 lid).mem = s1.mem := by
  simp [clearLaunch]

@[simp] theorem claim_mem (lid d : Nat) (l : Launch) (full : Bool) (s : State) (h : Nat) :
    (claim lid d l full s h).mem = s.mem := by
  unfold claim; split <;> rfl

@[simp] theorem startTask_mem (s : State) (pos : Nat) (r : BindRec) (l : Launch) :
    (startTask s pos r l).mem = s.mem := by
  simp [startTask]

@[simp] theorem stopReports_mem (c : Context) (s : State) : (stopReports c s).mem = s.mem := by
  unfold stopReports
  dsimp only
  split <;> split <;> simp

@[simp] theorem preemptCtx_mem (s : State) (pos : Nat) (c : Context) : (preemptCtx s pos c).mem = s.mem := by
  simp [preemptCtx]

@[simp] theorem askPreempt_mem (s : State) (pos : Nat) (c : Context) : (askPreempt s pos c).mem = s.mem := by
  simp [askPreempt]

@[simp] theorem bringUnits_mem (s : State) (v : Saved) (pos : Nat) : (bringUnits s v pos).1.mem = s.mem := by
  simp [bringUnits]

/-! Circuits (R345, R346, R351 to R363). -/

@[simp] theorem setProg_mem (s : State) (lid : Nat) (p : CProg) : (setProg s lid p).mem = s.mem := by
  unfold setProg; split <;> rfl

@[simp] theorem newInstance_mem (s : State) (c : Nat) (k : Circuit) : (newInstance s c k).1.mem = s.mem := rfl

@[simp] theorem askAll_mem (s : State) (c : Nat) : (askAll s c).mem = s.mem := rfl

@[simp] theorem tearCircuit_mem (s : State) (c : Nat) : (tearCircuit s c).mem = s.mem := by
  unfold tearCircuit; dsimp only; split <;> simp

@[simp] theorem idleCircuit_mem (s : State) (c : Nat) : (idleCircuit s c).mem = s.mem := by
  simp [idleCircuit]

@[simp] theorem countTorn_mem (s : State) (n : Nat) : (countTorn s n).mem = s.mem := by
  unfold countTorn; split <;> rfl

@[simp] theorem routeReport_mem (s : State) (lid c : Nat) (w : Word) : (routeReport s lid c w).mem = s.mem := rfl

@[simp] theorem beginRecovery_mem (s : State) (c : Nat) (k : Circuit) (r : Recovery) :
    (beginRecovery s c k r).mem = s.mem := by
  unfold beginRecovery
  dsimp only
  split
  · split <;> simp
  · rfl

@[simp] theorem opticalFault_mem (s : State) (c die port wave : Nat) (sub : OptSub) :
    (opticalFault s c die port wave sub).mem = s.mem := by
  unfold opticalFault
  dsimp only
  split
  · rfl
  · split
    · split <;> simp
    · simp

@[simp] theorem restartCards_mem (s : State) (lid c : Nat) : (restartCards s lid c).mem = s.mem := rfl

@[simp] theorem recovered_mem (s : State) (c : Nat) (k : Circuit) (r : Recovery) : (recovered s c k r).mem = s.mem := by
  simp [recovered]

@[simp] theorem lostCircuit_mem (s : State) (c : Nat) (k : Circuit) (r : Recovery) :
    (lostCircuit s c k r).mem = s.mem := by
  simp [lostCircuit]

@[simp] theorem sendOn_mem (s : State) (o : EstOp) (hop : Nat) (dir : Bool) (plain : List Byte) :
    (sendOn s o hop dir plain).mem = s.mem := by
  unfold sendOn; split <;> rfl

@[simp] theorem taken_mem (s : State) (k : Nat) : (taken s k).mem = s.mem := rfl

@[simp] theorem streamNext_mem (s : State) (p : Packet) (tag : Nat) (f : Stream → Option Stream) :
    (streamNext s p tag f).mem = s.mem := by
  unfold streamNext
  dsimp only
  split
  · split
    · rfl
    · split <;> rfl
  · rfl

@[simp] theorem markSettled_mem (s : State) (a : Asker) : (markSettled s a).mem = s.mem := by
  unfold markSettled
  refine foldl_mem _ (fun t b => ?_) _ _
  cases b <;> rfl

@[simp] theorem settleReceipt_mem (s : State) (rid : Nat) (r : Req) (x : Receipt) :
    (settleReceipt s rid r x).mem = s.mem := by
  unfold settleReceipt; split <;> simp

@[simp] theorem askReceipt_mem (s : State) (e : Nat × Req) : (askReceipt s e).mem = s.mem := by
  unfold askReceipt; split <;> simp

@[simp] theorem settlePart_mem (s : State) (c : Nat) (e : Nat × PartEntry) (x : Nat) :
    (settlePart s c e x).mem = s.mem := by
  simp [settlePart]

/-! Links (R390 to R402). -/

@[simp] theorem State.setLink_mem (s : State) (n : Nat) (l : Link) : (s.setLink n l).mem = s.mem := rfl

@[simp] theorem resettle_mem (s : State) (n : Nat) : (resettle s n).mem = s.mem := by
  simp [resettle]

@[simp] theorem levelPair_mem (s : State) (n : Nat) : (levelPair s n).mem = s.mem := by
  simp [levelPair]

@[simp] theorem unlinked_mem (s : State) (n : Nat) : (unlinked s n).mem = s.mem := rfl

@[simp] theorem trainLink_mem (s : State) (n : Nat) (peer : PeerInfo) : (trainLink s n peer).mem = s.mem := by
  simp [trainLink]

@[simp] theorem moveWave_mem (s : State) (a b : Nat) : (moveWave s a b).mem = s.mem := rfl

@[simp] theorem endInterval_mem (s : State) (n : Nat) : (endInterval s n).mem = s.mem := rfl

@[simp] theorem linksetDone_mem (s : State) (seq status crec w1 w2 : Nat) :
    (linksetDone s seq status crec w1 w2).mem = s.mem := rfl

@[simp] theorem closeLinks_mem (s : State) (ls : List Nat) : (closeLinks s ls).mem = s.mem := by
  simp [closeLinks]

@[simp] theorem retrainLink_mem (r : LinksetRun) (peers : List (Nat × PeerInfo)) (s : State) (n : Nat) :
    (retrainLink r peers s n).mem = s.mem := by
  unfold retrainLink; split <;> simp

@[simp] theorem resumeLink_mem (r : LinksetRun) (s : State) (n : Nat) : (resumeLink r s n).mem = s.mem := rfl

@[simp] theorem inPhase_mem (s : State) (r : LinksetRun) (p : LinksetPhase) : (inPhase s r p).mem = s.mem := rfl

@[simp] theorem linksetResume_mem (s : State) (r : LinksetRun) : (linksetResume s r).mem = s.mem := by
  simp [linksetResume]

/-! Releases and tokens (R198 to R200). -/

@[simp] theorem release_mem (pos : Nat) (s : State) (c : Context) (e : Engine) (r : Release) :
    (release pos s c e r).1.mem = s.mem := by
  unfold release; split <;> simp

@[simp] theorem sendTokens_mem (pos : Nat) (s : State) (c : Context) (snd rcv : Engine) (n : Nat) :
    (sendTokens pos s c snd rcv n).1.mem = s.mem := by
  simp [sendTokens]

@[simp] theorem nestSend_mem (p : NestP) (e : Engine) (s : State) (c : Context) : (nestSend p e s c).1.mem = s.mem := by
  unfold nestSend
  split
  · rfl
  · split <;> simp

/-! The device in its system (R325 to R328, R407 to R414). -/

@[simp] theorem setReady_mem (s : State) (n : Nat) (b : Bool) : (setReady s n b).mem = s.mem := rfl

@[simp] theorem reEstablish_mem (s : State) (e : Nat × Circuit) : (reEstablish s e).mem = s.mem := by
  unfold reEstablish; dsimp only; split <;> simp

@[simp] theorem renewCircuits_mem (s : State) (all : Bool) : (renewCircuits s all).mem = s.mem := by
  simp [renewCircuits]

@[simp] theorem switchBank_mem (s : State) (p : Nat) : (switchBank s p).mem = s.mem := by
  unfold switchBank; split <;> simp

@[simp] theorem removeBank_mem (s : State) (b : Nat) : (removeBank s b).mem = s.mem := by
  unfold removeBank; split <;> simp

@[simp] theorem unbindCore_mem (s : State) (k : Nat) : (unbindCore s k).mem = s.mem := by
  unfold unbindCore
  refine foldl_mem _ (fun t e => ?_) _ _
  split <;> rfl

@[simp] theorem fence_mem (s : State) (k : Nat) : (fence s k).mem = s.mem := by
  simp [fence]

@[simp] theorem retire_mem (s : State) (r : Resource) : (retire s r).mem = s.mem := by
  unfold retire
  dsimp only
  split <;> split <;> simp

@[simp] theorem spoil_mem (s : State) (pos : Nat) (p : OwnPart) : (spoil s pos p).mem = s.mem := by
  unfold spoil; split <;> simp

@[simp] theorem spoilAt_mem (s : State) (l : ErrLoc) : (spoilAt s l).mem = s.mem := by
  unfold spoilAt; split <;> simp

@[simp] theorem assayOf_mem (s : State) (l : ErrLoc) : (assayOf s l).mem = s.mem := by
  unfold assayOf; split <;> rfl

@[simp] theorem lateFault_mem (loc : Nat) (s : State) (e : Nat × Context) : (lateFault loc s e).mem = s.mem := by
  unfold lateFault
  dsimp only
  split
  · rfl
  · split
    · rfl
    · split <;> simp

@[simp] theorem lateFaults_mem (s : State) (l : ErrLoc) : (lateFaults s l).mem = s.mem := by
  unfold lateFaults; split <;> simp

/-! Cards under way (R287 to R312). -/

@[simp] theorem performed_mem (s : State) (id : Nat) (f : Card → Card) : (performed s id f).mem = s.mem := rfl

@[simp] theorem failStop_mem (s : State) (id : Nat) (e : Stop) : (failStop s id e).mem = s.mem := by
  unfold failStop; split <;> simp

@[simp] theorem failStart_mem (s : State) (id eng : Nat) (norec : Bool) (e : Stop) :
    (failStart s id eng norec e).mem = s.mem := by
  simp [failStart]

/-! The debugger (R334 to R337). -/

@[simp] theorem dbgHandleBit_mem (pos h slot : Nat) (full : Bool) (s : State) (c : Context) :
    (dbgHandleBit pos h slot full s c).1.mem = s.mem := by
  unfold dbgHandleBit; split <;> simp

@[simp] theorem dbgWrite_mem (pos : Nat) (t : DbgTarget) (s : State) (c : Context) :
    (dbgWrite pos t s c).1.mem = s.mem := by
  cases t with
  | handleBit h slot full => exact dbgHandleBit_mem _ _ _ _ s c
  | handleHead h head tail => unfold dbgWrite; dsimp only; split <;> rfl
  | _ => rfl

/-! Remote cards (R366 to R371). -/

@[simp] theorem commitSegment_mem (s : State) (id : Nat) (k : Card) (g : SegDone) :
    (commitSegment s id k g).mem = s.mem := by
  simp [commitSegment]

@[simp] theorem runsOn_mem (s : State) (id eng : Nat) : (runsOn s id eng).mem = s.mem := rfl

/-! Issue, peers and placement (R187 to R206, R220, R371). -/

@[simp] theorem afterTogether_mem (pos : Nat) (c : Context) (e : Engine) (i : Option (Instr × Foot)) (s : State) :
    (afterTogether pos c e i s).mem = s.mem := by
  unfold afterTogether; split <;> simp

@[simp] theorem passSlot_mem (s : State) (pos : Nat) (c : Context) (e : Engine) (q : EnginePos) :
    (passSlot s pos c e q).mem = s.mem := rfl

@[simp] theorem afterApart_mem (pos : Nat) (c : Context) (x : Issued) (s : State) :
    (afterApart pos c x s).mem = s.mem := by
  unfold afterApart; split <;> simp

@[simp] theorem markHeld_mem (s : State) (pos : Nat) (e : Engine) : (markHeld s pos e).mem = s.mem := by
  unfold markHeld; split <;> simp

@[simp] theorem answer_mem (s : State) (c : Nat) (r : Res Unit) (v : Nat) (tags : List Word) :
    (answer s c r v tags).mem = s.mem := by
  unfold answer; split <;> simp

@[simp] theorem clearPositions_mem (s : State) (ps : List Nat) : (clearPositions s ps).mem = s.mem := by
  unfold clearPositions
  refine foldl_mem _ (fun t p => ?_) _ _
  split <;> simp

@[simp] theorem markCore_mem (s : State) (core : Nat) (e : Engine) : (markCore s core e).mem = s.mem := by
  simp [markCore]

@[simp] theorem noteWaits_mem (s t : State) : (noteWaits s t).mem = t.mem := rfl

end Sys2Proof.Machine
end

section
/-!
What keeps memory canonical: the rules for the answers of meanings and events, and one rule per function of the model
that may write memory.
-/
namespace Sys2Proof.Machine

/-- What a meaning answers satisfies `P`. -/
structure ResAll {α : Type} (P : α → Prop) (r : Res α) : Prop where
  ok : ∀ a, r = .ok a → P a

/-- Memory is canonical in the state that a meaning answers. -/
abbrev ResWf (r : Res State) : Prop := ResAll (fun t => t.mem.wf = true) r

/-- Memory is canonical in the state that follows. -/
structure OutWf (o : HO) : Prop where
  next : ∀ t, o = .next t → t.mem.wf = true

section
variable {α γ : Type} {P : α → Prop}

@[simp] theorem resAll_ok (a : α) : ResAll P (.ok a) ↔ P a :=
  ⟨fun h => h.ok a rfl, fun h => ⟨fun _ hb => by cases hb; exact h⟩⟩

@[simp] theorem resAll_error (e : Stop) : ResAll P (.error e) := ⟨nofun⟩

@[simp] theorem resAll_raise (code : FaultCode) (addr arg : Nat) : ResAll P (raise code addr arg) := by simp [raise]

@[simp] theorem resAll_hold : ResAll P hold := by simp [hold]

@[simp] theorem resAll_bind (x : Res γ) (f : γ → Res α) : ResAll P (x >>= f) ↔ ∀ a, x = .ok a → ResAll P (f a) := by
  cases x with
  | ok a => exact ⟨fun h b hb => by cases hb; exact h, fun h => h a rfl⟩
  | error e => exact ⟨nofun, fun _ => resAll_error e⟩

@[simp] theorem resAll_ite (c : Prop) [Decidable c] (x y : Res α) :
    ResAll P (if c then x else y) ↔ (c → ResAll P x) ∧ (¬c → ResAll P y) := by
  split <;> simp_all
end

@[simp] theorem outWf_next (t : State) : OutWf (.next t) ↔ t.mem.wf = true :=
  ⟨fun h => h.next t rfl, fun h => ⟨fun _ hu => by cases hu; exact h⟩⟩

@[simp] theorem outWf_fault (r : Fault) : OutWf (.fault r) := ⟨fun _ h => by cases h⟩

@[simp] theorem outWf_refused (r : Refusal) : OutWf (.refused r) := ⟨fun _ h => by cases h⟩

@[simp] theorem outWf_ite (c : Prop) [Decidable c] (x y : HO) :
    OutWf (if c then x else y) ↔ (c → OutWf x) ∧ (¬c → OutWf y) := by
  split <;> simp_all

section
variable {s : State} (h : s.mem.wf = true)
include h

theorem runC_wf (f : Engine → Context → Res Context) : OutWf (runC s f) := by
  unfold runC
  split
  · simp
  · split <;> simp [h]

theorem runS_wf {f : Engine → Context → Res State} (hf : ∀ e c, ResWf (f e c)) : OutWf (runS s f) := by
  unfold runS
  split
  · simp
  · split
    · next hok => simpa using (hf _ _).ok _ hok
    · simp [h]
end

/-! Words that the machine itself writes. -/

section
variable {s : State} (h : s.mem.wf = true)
include h

/-- A checked store keeps memory canonical. -/
theorem writeMem_wf (w : Who) (ver : Nat) (ok : Trans → Bool) (align va len v : Nat) :
    ResWf (writeMem s w ver ok align va len v) := by
  simp [writeMem, State.wf_store, h]

/-- A word that a card's chain or a chain itself writes keeps memory canonical. -/
theorem cardStore_wf (w : Who) (align va len v : Nat) : ∀ t ∈ cardStore s w align va len v, t.mem.wf = true := by
  intro t ht
  have hput (w : Who) {t : State} (hok : writeMem s w 0 plainW align va len v = .ok t) : t.mem.wf = true :=
    (writeMem_wf h _ _ _ _ _ _ _).ok t hok
  simp only [cardStore, Option.mem_def] at ht
  split at ht
  · next hok => cases ht; exact hput _ hok
  · cases ht
  · split at ht
    · split at ht
      · split at ht
        · next hok => cases ht; exact hput _ hok
        · cases ht
        · cases ht; exact h
      · cases ht
    · cases ht; exact h

theorem advanceDone_wf (lid wid q : Nat) : (advanceDone s lid wid q).mem.wf = true := by
  unfold advanceDone
  split
  · dsimp only
    split
    · exact h
    · split
      · exact h
      · next hs => simpa using cardStore_wf h _ _ _ _ _ _ hs
  · exact h
end

theorem clearFailed_wf {s : State} (h : s.mem.wf = true) (lid wid q : Nat) :
    (clearFailed s lid wid q).mem.wf = true := by
  unfold clearFailed
  split
  · exact h
  · dsimp only
    split
    · simpa using advanceDone_wf (by simpa using h) _ _ _
    · exact h

/-- A fold whose steps keep memory canonical keeps it so. -/
theorem foldl_wf {β : Type} {f : State → β → State} (hf : ∀ s b, s.mem.wf = true → (f s b).mem.wf = true)
    (l : List β) :
    ∀ s : State, s.mem.wf = true → (l.foldl f s).mem.wf = true := by
  induction l with
  | nil => intro s h; exact h
  | cons b r ih => intro s h; exact ih _ (hf s b h)

theorem discardStuck_wf {s : State} (h : s.mem.wf = true) (lid wid : Nat) :
    (discardStuck s lid wid).mem.wf = true := by
  unfold discardStuck
  exact foldl_wf (fun t q ht => advanceDone_wf ht lid wid q) _ _ (by simpa using h)

theorem forcedEnd_wf {s : State} (h : s.mem.wf = true) (pos : Nat) (c : Context) :
    (forcedEnd s pos c).mem.wf = true := by
  unfold forcedEnd
  split
  · exact h
  · have hd : (discardStuck ((applyReleases pos s c).1.setCtx pos (applyReleases pos s c).2)
        c.bind.lid c.bind.wid).mem.wf = true := discardStuck_wf (by simpa using h) _ _
    dsimp only
    split
    · simpa using hd
    · exact h

theorem discardChain_wf {s : State} (h : s.mem.wf = true) (lid wid q : Nat) :
    (discardChain s lid wid q).mem.wf = true :=
  advanceDone_wf (by simpa using h) lid wid q

/-! Requests (R272 to R281). -/

section
variable {s : State} (h : s.mem.wf = true)
include h

/-- The update that a request makes at its home keeps memory canonical. -/
theorem homeStep_wf (r : Req) : (homeStep s r).1.mem.wf = true := by
  unfold homeStep
  split
  · exact h
  · split
    · simp [h]
    · dsimp only [atomicAt]
      split <;> simp [h, Memory.wf_writeN]

theorem performReq_wf (rid : Nat) : (performReq s rid).mem.wf = true := by
  unfold performReq
  split
  · exact h
  · next r _ =>
    dsimp only
    split
    · simp [h]
    · split
      · simp [h]
      · have hr : (homeStep { s with reqs := del s.reqs rid } r).1.mem.wf = true := homeStep_wf (by simpa using h) r
        split <;> simp [hr]
end

theorem settleOne_wf {s : State} (h : s.mem.wf = true) (e : Nat × Req) : (settleOne s e).mem.wf = true := by
  unfold settleOne
  split
  · simp [h]
  · exact performReq_wf (performReq_wf (by simpa using h) _) _

theorem settleRound_wf (c n : Nat) : ∀ s : State, s.mem.wf = true → (settleRound c n s).mem.wf = true := by
  induction n with
  | zero => intro s h; exact h
  | succ n ih =>
    intro s h
    unfold settleRound
    split
    · exact ih _ (settleOne_wf h _)
    · split
      · exact ih _ (by simpa using h)
      · exact h

theorem settleCircuit_wf {s : State} (h : s.mem.wf = true) (c : Nat) : (settleCircuit s c).mem.wf = true :=
  settleRound_wf c _ s h

/-! Links (R390 to R402). -/

theorem stopCircuit_wf {s : State} (h : s.mem.wf = true) (e : Nat × Circuit) : (stopCircuit s e).mem.wf = true := by
  unfold stopCircuit
  split
  · simpa using h
  · simpa using h
  · exact settleCircuit_wf (by simpa using h) _
  · exact h

theorem stopLink_wf {s : State} (h : s.mem.wf = true) (n : Nat) : (stopLink s n).mem.wf = true :=
  foldl_wf (fun _ e ht => stopCircuit_wf ht e) _ _ (by simpa using h)

theorem linksetStart_wf {s : State} (h : s.mem.wf = true) : (linksetStart s).mem.wf = true := by
  unfold linksetStart
  dsimp only
  split
  · exact foldl_wf (fun _ n ht => stopLink_wf ht n) _ _ h
  · simpa using h

/-! Launches (R209 to R220). -/

section
variable {s : State} (h : s.mem.wf = true)
include h

theorem writeDone_wf (root addr word : Nat) : ∀ t ∈ writeDone s root addr word, t.mem.wf = true := by
  intro t ht
  simp only [writeDone, Option.mem_def] at ht
  split at ht
  · cases ht; exact h
  · split at ht
    · next hok => cases ht; exact (writeMem_wf h _ _ _ _ _ _ _).ok _ hok
    · cases ht
    · cases ht; exact h

theorem refuseLaunch_wf (sub : Submission) (hd : Option (BitVec 4096)) (e : LErr) :
    ∀ t ∈ refuseLaunch s sub hd e, t.mem.wf = true := by
  intro t ht
  simp only [refuseLaunch, Option.mem_def, Option.map_eq_some_iff] at ht
  obtain ⟨u, hu, rfl⟩ := ht
  rw [answerParent_mem]
  split at hu
  · exact writeDone_wf h _ _ _ u hu
  · cases hu; exact h

theorem tryAdmit_wf (sub : Submission) : ∀ t ∈ tryAdmit s sub, t.mem.wf = true := by
  intro t ht
  have hr (hd e) (hu : refuseLaunch s sub hd e = some t) : t.mem.wf = true := refuseLaunch_wf h sub hd e t hu
  simp only [tryAdmit, Option.mem_def] at ht
  split at ht
  · cases ht
  · split at ht
    · cases ht; exact h
    · exact hr _ _ ht
  · split at ht
    · exact hr _ _ ht
    · split at ht
      · cases ht
      · exact hr _ _ ht
      · split at ht
        · cases ht
        · exact hr _ _ ht
        · split at ht
          · cases ht
          · cases ht; simpa using h

theorem admitFrom_wf (l : List Submission) : ∀ x ∈ admitFrom s l, x.1.mem.wf = true := by
  induction l with
  | nil => intro x hx; cases hx
  | cons y r ih =>
    intro x hx
    simp only [admitFrom, Option.mem_def] at hx
    split at hx
    · next hy => cases hx; exact tryAdmit_wf h y _ hy
    · exact ih x hx

theorem admitDies_wf (ds : List Nat) : ∀ t ∈ admitDies s ds, t.mem.wf = true := by
  induction ds with
  | nil => intro t ht; cases ht
  | cons d r ih =>
    intro t ht
    simp only [admitDies, Option.mem_def] at ht
    split at ht
    · next hx => cases ht; simpa using admitFrom_wf h _ _ hx
    · exact ih t ht

theorem admitNext?_wf : ∀ t ∈ admitNext? s, t.mem.wf = true := by
  intro t ht
  simp only [admitNext?, Option.mem_def] at ht
  split at ht
  · next hx => cases ht; exact admitFrom_wf h _ _ hx
  · exact admitDies_wf h _ t ht

theorem endLaunch_wf (lid : Nat) (l : Launch) : ∀ t ∈ endLaunch s lid l, t.mem.wf = true := by
  intro t ht
  simp only [endLaunch, Option.mem_def, Option.map_eq_some_iff] at ht
  obtain ⟨u, hu, rfl⟩ := ht
  simpa using writeDone_wf h _ _ _ u hu
end

/-- A step that may not be possible: the state that it gives, or another. -/
theorem getD_wf {d : State} (hd : d.mem.wf = true) {o : Option State} (ho : ∀ t ∈ o, t.mem.wf = true) :
    (o.getD d).mem.wf = true := by
  cases o with
  | none => exact hd
  | some t => exact ho t rfl

/-! Tensors and stores of the memory engine (R248 to R254). -/

section
variable {s : State} (h : s.mem.wf = true)
include h

theorem writeTensorPart_wf (w : Nat) (p : Part) (v : Nat) : (writeTensorPart s w p v).1.mem.wf = true := by
  unfold writeTensorPart
  split <;> simp [State.wf_store, h]

theorem loadIssue_wf (ok : Trans → Bool) (o : MV) (f : Offs) (e : Engine) (c : Context) :
    ResAll (fun x => x.1.mem.wf = true) (loadIssue ok o f s e c) := by
  simp only [loadIssue, resAll_bind]
  intros
  split <;> simp [h]

theorem storeIssue_wf (ws : Bool) (o : MV) (f : Offs) (e : Engine) (c : Context) :
    ResAll (fun x => x.1.mem.wf = true) (storeIssue ws o f s e c) := by
  simp only [storeIssue, resAll_bind]
  intros
  split
  · simp only [resAll_bind, resAll_ite, resAll_ok]
    have hw {w ver ok align va len v} (t) (ht : writeMem s w ver ok align va len v = .ok t) : t.mem.wf = true :=
      (writeMem_wf h w ver ok align va len v).ok t ht
    exact fun _ _ => ⟨fun _ _ _ => hw, fun _ _ _ => hw⟩
  · simp [h]

theorem mvIssue_wf (op : MvOp) (o : MV) (f : Offs) (e : Engine) (c : Context) :
    ResAll (fun x => x.1.mem.wf = true) (mvIssue op o f s e c) := by
  simp only [mvIssue, resAll_bind]
  intros
  cases op with
  | vld => exact loadIssue_wf h _ o f e c
  | wld => exact loadIssue_wf h _ o f e c
  | vst => exact storeIssue_wf h _ o f e c
  | wst => exact storeIssue_wf h _ o f e c
  | pref => simpa using h
end

theorem writeTensor_wf (w : Nat) (ps : List Part) : ∀ (s : State) (v : Nat), s.mem.wf = true →
    (writeTensor s w ps v).1.mem.wf = true := by
  induction ps with
  | nil => intro s v h; exact h
  | cons p r ih => intro s v h; exact ih _ _ (writeTensorPart_wf h w p v)

theorem putTensor_wf {s : State} (h : s.mem.wf = true) (c : Context) (w : Nat) (ps : List Part) (v : Nat) :
    (putTensor s c w ps v).1.mem.wf = true := by
  simpa [putTensor] using writeTensor_wf w ps s v h

theorem vsttLine_wf {s : State} (h : s.mem.wf = true) (c : Context) (t : TEnt) (k : TCoord) (i0 : Int) (l : Line) :
    ResAll (fun x => x.1.mem.wf = true) (vsttLine s c t k i0 l) := by
  unfold vsttLine
  split
  · simp [h, putTensor_wf]
  · simp [h, putTensor_wf]

theorem mxIssue_wf {s : State} (h : s.mem.wf = true) (store : Bool) (o : MX) (f : Offs) (e : Engine) (c : Context) :
    ResAll (fun x => x.1.mem.wf = true) (mxIssue store o f s e c) := by
  simp only [mxIssue, resAll_bind, resAll_ite, resAll_ok, State.noteParts_mem, h]
  exact fun _ _ _ _ => ⟨fun _ _ _ _ _ => (vsttLine_wf h ..).ok, by simp⟩

theorem scatterWrite_wf (l : Line) (w : Nat) (xs : List (Nat × List Part)) : ∀ s : State, s.mem.wf = true →
    (scatterWrite l w s xs).mem.wf = true := by
  induction xs with
  | nil => intro s h; exact h
  | cons x r ih => intro s h; exact ih _ (State.wf_store s _ _ h)

theorem mgIssue_wf {s : State} (h : s.mem.wf = true) (store : Bool) (o : MG) (f : Offs) (e : Engine) (c : Context) :
    ResAll (fun x => x.1.mem.wf = true) (mgIssue store o f s e c) := by
  simp [mgIssue, h, scatterWrite_wf]

/-! Nests (R67, R68, R200). -/

theorem leadIssue_wf {s : State} (h : s.mem.wf = true) (l : Lead) (f : Offs) (e : Engine) (c : Context) :
    ResAll (fun x => x.1.mem.wf = true) (leadIssue l f s e c) := by
  cases l with
  | v3 op o => simp [leadIssue, h]
  | v2 op o => simp [leadIssue, h]
  | mv op o => exact mvIssue_wf h op o f e c
  | mx st o => exact mxIssue_wf h st o f e c
  | mg st o => exact mgIssue_wf h st o f e c

theorem nestOne_wf {s : State} (h : s.mem.wf = true) (l : Lead) (p : NestP) (x : NestPos) (e : Engine) (c : Context) :
    ResWf (nestOne l p x s e c) := by
  have hl (c1 : Context) := (leadIssue_wf h l (nestOffs p x) e c1).ok
  unfold nestOne
  dsimp only
  split <;> split <;> simp only [resAll_bind, resAll_ok, State.setCtx_mem, nestSend_mem] <;>
    exact fun _ _ _ _ => hl _

theorem execNestIssue_wf {s : State} (h : s.mem.wf = true) (lead : Lead) (p : NestP) :
    OutWf (execNestIssue lead p s) := by
  unfold execNestIssue
  dsimp only
  split
  · simp
  · split
    · simp [h]
    · split
      · simp [h]
      · split
        · split
          · split
            · split <;> simp [h]
            · simp [h]
          · simp [h]
        · split
          · simp [h]
          · split
            · next hok => simpa using (nestOne_wf h ..).ok _ hok
            · simp [h]

theorem memExec_wf {s : State} {f : State → Engine → Context → Eff} (h : s.mem.wf = true)
    (hf : ∀ e c, ResAll (fun x => x.1.mem.wf = true) (f s e c)) : OutWf (memExec f s) := by
  refine runS_wf h fun e c => ?_
  simp only [resAll_bind, resAll_ok, State.setCtx_mem]
  exact (hf e c).ok

/-! Cards on this device (R294 to R309). -/

/-- A card starts only where its own checks let it. -/
theorem startFault_ok {α : Type} {crec : Res Unit} {run : Res α} {norec : Bool} {a : α}
    (h : startFault crec run = (norec, .ok a)) : run = .ok a := by
  unfold startFault at h
  split at h <;> cases h
  rfl

section
variable {s : State} (h : s.mem.wf = true)
include h

theorem sideStore_wf (k : Card) (d : Side) (i n v : Nat) : (sideStore s k d i n v).mem.wf = true := by
  unfold sideStore
  split
  · simp [h]
  · split <;> simp [State.wf_store, h]

theorem sideWrite_wf (k : Card) (d : Side) (i n v : Nat) : (sideWrite s k d i n v).mem.wf = true := by
  simpa [sideWrite] using sideStore_wf h k d i n v

theorem putProduct_wf (k : Card) (dst : Side) (p : Product) (n : Nat) : (putProduct s k dst p n).mem.wf = true :=
  foldl_wf (fun _ _ ht => sideWrite_wf ht ..) _ _ h

theorem deliverProduct_wf (id eng : Nat) (k : Card) (src dst : Side) (p : Product) :
    (deliverProduct s id eng k src dst p).mem.wf = true := by
  have hp (n : Nat) : (putProduct s k dst p n).mem.wf = true := putProduct_wf h k dst p n
  unfold deliverProduct
  extract_lets stop stop2 n s1 v crc st s2
  split
  · split
    · exact h
    · simpa [s1] using hp _
  · split <;> simpa [s2, s1] using hp _

theorem runLocal_wf (id kind : Nat) (xop : Option Nat) (make : State → Card → Side → Side → Nat → Res Product) :
    OutWf (runLocal s id kind xop make) := by
  unfold runLocal
  split
  · simp [h]
  · refine (outWf_ite ..).2 ⟨fun _ => by simpa using h, fun _ => ?_⟩
    split
    · simp [h]
    · extract_lets l r auxErr
      split
      · simp [h]
      · split
        · simp [h]
        · simpa using deliverProduct_wf h ..

theorem execCardRetire_wf (id : Nat) : OutWf (execCardRetire id s) := by
  unfold execCardRetire
  split
  · simp [h]
  · split
    · simpa using advanceDone_wf h ..
    · split
      · split
        · simp [h]
        · next t ht =>
          have ht : t.mem.wf = true := by
            split at ht
            · exact cardStore_wf h _ _ _ _ _ _ ht
            · cases ht; exact h
          simp [apply_ite, advanceDone_wf, ht]
      · simp [h]

/-! Remote cards (R366 to R381). -/

theorem sideSend_wf (k : Card) (d : Side) (i n v : Nat) : (sideSend s k d i n v).mem.wf = true :=
  sideWrite_wf (by simpa using h) ..

theorem signalStore_wf (k : Card) (d : Side) (v : Nat) : (signalStore s k d v).mem.wf = true :=
  sideStore_wf (by simpa using h) ..

theorem moveSegment_wf (id : Nat) (k : Card) : (moveSegment s id k).mem.wf = true := by
  unfold moveSegment
  extract_lets o stop stopped n s1
  have hs1 : s1.mem.wf = true := by
    unfold s1
    split
    · exact h
    · exact sideSend_wf h ..
  split
  · exact h
  · split <;> simpa using hs1

theorem resendSegment_wf (id : Nat) (k : Card) (g : SegDone) : (resendSegment s id k g).mem.wf = true := by
  unfold resendSegment
  dsimp only
  rw [updCard_mem]
  split
  · exact h
  · exact sideSend_wf h ..

theorem spill_wf (k : Card) : (spill s k).mem.wf = true := by
  refine foldl_wf (fun t b ht => ?_) _ _ h
  split
  · exact sideStore_wf ht ..
  · exact ht

theorem startRemote_wf (id kind : Nat) {run : State → Card → Nat → Res State} (hr : ∀ k eng, ResWf (run s k eng)) :
    OutWf (startRemote s id kind run) := by
  unfold startRemote
  split
  · simp [h]
  · split
    · simp [h]
    · split
      · simp [h]
      · split
        · simp [h]
        · split
          · simp [h]
          · next hok => simpa using (hr _ _).ok _ (startFault_ok hok)

theorem sendReq_wf (k : Card) (r : Req) (d : Side) : ResWf (sendReq s k r d) := by
  simp [sendReq, h]

theorem startData_wf (id kind : Nat) : OutWf (startData s id kind) :=
  startRemote_wf h id kind fun k eng => by simp [h]

theorem execRfetch_wf (id : Nat) : OutWf (execRfetch id s) :=
  startRemote_wf h id _ fun k eng => by
    split
    · simp
    · simp only [resAll_bind]
      exact fun _ _ => sendReq_wf (by simpa using h) ..

theorem execRsignal_wf (id : Nat) : OutWf (execRsignal id s) :=
  startRemote_wf h id _ fun k eng => by
    simp only [resAll_bind, resAll_ite]
    have hst (d v f) : (performed (signalStore s k d v) id f).mem.wf = true := signalStore_wf h k d v
    exact fun d _ => ⟨fun _ => sendReq_wf (by simpa using h) .., fun _ _ _ =>
      ⟨fun _ _ _ => (resAll_ok _).2 (hst ..), fun _ _ _ => (resAll_ok _).2 (hst ..)⟩⟩

theorem dispatchAdd_wf (id : Nat) (k : Card) (eng : Nat) (ctr : Side) : ResWf (dispatchAdd s id k eng ctr) :=
  sendReq_wf (by simpa using h) ..

theorem dispatchPlace_wf (id : Nat) (k : Card) (j : Nat) : ResWf (dispatchPlace s id k j) := by
  simp [dispatchPlace, h, sideSend_wf]

theorem runCard_wf (id : Nat) {r : Res State} (hr : ResWf r) : OutWf (runCard s id r) := by
  unfold runCard
  split
  · simpa using hr
  · simp [h]

theorem execDispatch_wf (id : Nat) : OutWf (execDispatch id s) := by
  unfold execDispatch
  split
  · simp [h]
  · split
    · split
      · exact runCard_wf h id (dispatchAdd_wf h ..)
      · simp [h]
    · refine startRemote_wf h id _ fun k eng => ?_
      simp only [resAll_bind]
      exact fun _ _ => dispatchAdd_wf (by simpa using h) ..

theorem execSegmentCommit_wf (id : Nat) : OutWf (execSegmentCommit id s) := by
  unfold execSegmentCommit
  split
  · simp [h]
  · split
    · split
      · simp [apply_ite, resendSegment_wf, h]
      · simp [apply_ite, moveSegment_wf, h]
    · split
      · split
        · exact runCard_wf h id (dispatchPlace_wf h ..)
        · simp [h]
      · split
        · simpa using spill_wf (by simpa using h) _
        · simp [h]
end

/-! Peer devices (R367 to R371). -/

section
variable {s : State} (h : s.mem.wf = true)
include h

theorem peerPut_wf (c : Nat) (d : Side) (ver v ret : Nat) (stop : Nat × Option Stop) :
    (peerPut s c d ver v ret stop).mem.wf = true := by
  unfold peerPut
  dsimp only
  split <;> simp [h, State.wf_store]

theorem peerWrite_wf (c : Nat) (p : PeerEnd) (va len v ver : Nat) (tags : List Word) :
    ResWf (peerWrite s c p va len v ver tags) := by
  simp [peerWrite, peerPut_wf, h]

theorem peerReduce_wf (c : Nat) (p : PeerEnd) (va len v ver opt : Nat) (tags : List Word) :
    ResWf (peerReduce s c p va len v ver opt tags) := by
  unfold peerReduce
  split <;> simp [peerPut_wf, h]

theorem peerSignal_wf (c : Nat) (p : PeerEnd) (va v ver : Nat) (tags : List Word) :
    ResWf (peerSignal s c p va v ver tags) := by
  simp [peerSignal, peerPut_wf, h]

theorem peerRead_wf (c : Nat) (p : PeerEnd) (va len ver dst : Nat) : ResWf (peerRead s c p va len ver dst) := by
  simp [peerRead, h]

theorem peerFetch_wf (c : Nat) (p : PeerEnd) (va : Nat) (aop : Aop) (w64 red : Bool) (b ver requester reqid : Nat)
    (grant : Option Nat) (tags : List Word) :
    ResWf (peerFetch s c p va aop w64 red b ver requester reqid grant tags) := by
  unfold peerFetch
  simp only [resAll_bind]
  intro _ _
  split <;> simp only [resAll_bind] <;> intros <;> split <;> simp [h]

theorem answered_wf (c : Nat) {r : Res State} (hr : ResWf r) : OutWf (answered s c r) := by
  unfold answered
  split
  · simpa using hr
  · simp [h]
  · simp [h]

theorem peerAct_wf (c : Nat) (op : PeerOp) : OutWf (peerAct c op s) := by
  unfold peerAct
  split
  · simp [h]
  · refine answered_wf h c ?_
    cases op with
    | check kind va len => simp [h]
    | read va len ver dst => exact peerRead_wf h ..
    | write va len v ver tags => exact peerWrite_wf h ..
    | reduce va len v ver opt tags => exact peerReduce_wf h ..
    | fetch va aop w64 red b ver requester reqid grant tags => exact peerFetch_wf h ..
    | signal va v ver tags => exact peerSignal_wf h ..
end
end Sys2Proof.Machine
end

section
/-!
Single instructions and events that are more than a meaning of their context alone keep memory canonical.
-/
namespace Sys2Proof.Machine

/-! The end of a task, and memory (R31, R232 to R243, R272 to R278). -/

section
variable {s : State} (h : s.mem.wf = true)
include h

theorem execEndTask_wf : OutWf (execEndTask s) := by
  unfold execEndTask
  split
  · simp
  · split
    · simpa using forcedEnd_wf h ..
    · split
      · simp [h]
      · split
        · simpa using forcedEnd_wf h ..
        · split
          · simp [h]
          · split <;> simp [h]

theorem execJmpt_wf (o : JmptOp) : OutWf (execJmpt o s) := runS_wf h fun e c => by simp [h]

theorem execLds_wf (o : CMem) : OutWf (execLds o s) := runS_wf h fun e c => by simp [h]

theorem execSts_wf (o : CMem) : OutWf (execSts o s) :=
  runS_wf h fun e c => by
    simp only [resAll_bind, resAll_ok, State.setCtx_mem]
    exact (writeMem_wf h ..).ok

theorem execAtom_wf (o : MA) : OutWf (execAtom o s) := runS_wf h fun e c => by simp [h]

theorem execRed_wf (o : MA) : OutWf (execRed o s) := runS_wf h fun e c => by simp [h]

theorem execFence_wf (o : FenceOp) : OutWf (execFence o s) :=
  runS_wf h fun e c => by (repeat' split) <;> simp [h]

theorem execAtomicAtHome_wf (rid : Nat) : OutWf (execAtomicAtHome rid s) := by
  unfold execAtomicAtHome
  split
  · simp [h]
  · rw [outWf_next]
    split
    · exact performReq_wf h rid
    · exact h

theorem execAlloy_wf (router p q : Nat) : OutWf (execAlloy router p q s) := by
  unfold execAlloy
  split <;> simp [h]

theorem execPart_wf (entry : Nat) : OutWf (execPart entry s) := by
  unfold execPart
  split
  · simp [h]
  · split <;> simp [h]

/-! Barriers and phases (R221 to R226). -/

theorem execBarrierComplete_wf (lid level group : Nat) : OutWf (execBarrierComplete lid level group s) := by
  unfold execBarrierComplete
  split
  · simp [h]
  · split <;> simp [h]

theorem execPhaseComplete_wf (lid : Nat) : OutWf (execPhaseComplete lid s) := by
  unfold execPhaseComplete
  split
  · simp [h]
  · split <;> simp [h]

theorem execBar_wf (k : BitVec 3) : OutWf (execBar k s) :=
  runS_wf h fun e c => by split <;> simp [h]

theorem execPhase_wf : OutWf (execPhase s) :=
  runS_wf h fun e c => by split <;> simp [h]

theorem execBarrierArrivalAdd_wf (pos : Nat) : OutWf (execBarrierArrivalAdd pos s) := by
  unfold execBarrierArrivalAdd
  split
  · simp [h]
  · split <;> simp [h, performReq_wf]

/-! System registers and chains (R107 to R112, R290). -/

theorem execSysrd_wf (o : SysRd) : OutWf (execSysrd o s) :=
  runS_wf h fun e c => by
    dsimp only
    split
    · simp [h]
    · split
      · simp [h]
      · split <;> simp [h]

theorem writeQw0_wf (pos : Nat) (c : Context) (e : Engine) (v : Nat) : ResWf (writeQw0 s pos c e v) := by
  unfold writeQw0
  dsimp only
  split
  · split
    · simp
    · split
      · simp only [resAll_ok]
        split
        · exact clearFailed_wf (by simpa using h) ..
        · simpa using h
      · simp [h]
  · split <;> simp [h]

theorem execSyswr_wf (o : SysWr) : OutWf (execSyswr o s) :=
  runS_wf h fun e c => by
    dsimp only
    split
    · simp [h]
    · split
      · exact writeQw0_wf h ..
      · split
        · simp [h]
        · split <;> simp [h]

theorem execChainEnable_wf (a : Reg) : OutWf (execChainEnable a s) := runS_wf h fun e c => by simp [h]

theorem execChainDisable_wf (a : Reg) : OutWf (execChainDisable a s) := runS_wf h fun e c => by simp [h]

theorem execChainFailedClear_wf (a : Reg) : OutWf (execChainFailedClear a s) :=
  runS_wf h fun e c => (resAll_ok _).2 (clearFailed_wf (by simpa using h) ..)

theorem execChainDisableComplete_wf (pos : Nat) (q : BitVec 4) : OutWf (execChainDisableComplete pos q s) := by
  unfold execChainDisableComplete
  split
  · simp [h]
  · next c _ =>
    split
    · extract_lets lid wid s1
      have hs1 : s1.mem.wf = true := by
        unfold s1
        split
        · exact discardChain_wf h ..
        · exact h
      split <;> simpa using hs1
    · simp [h]

theorem execBkpt_wf (n : BitVec 16) : OutWf (execBkpt n s) := runS_wf h fun e c => by simp [h]

theorem execIdleTimeout_wf (pos : Nat) : OutWf (execIdleTimeout pos s) := by
  unfold execIdleTimeout
  split <;> simp [h]

/-! Launches, tasks and their pre-emption (R209 to R220, R327 to R337). -/

theorem execLaunch_wf (o : LaunchOp) : OutWf (execLaunch o s) :=
  runS_wf h fun e c => by
    simp only [resAll_bind]
    intros
    split <;> simp [h]

theorem execLaunchSubmit_wf (addr root : Nat) : OutWf (execLaunchSubmit addr root s) := by
  unfold execLaunchSubmit
  rw [outWf_next]
  split
  · exact getD_wf (by exact h) (tryAdmit_wf h _)
  · exact h

theorem execAdmitNext_wf : OutWf (execAdmitNext s) := (outWf_next _).2 (getD_wf h (admitNext?_wf h))

theorem execLaunchComplete_wf (lid : Nat) : OutWf (execLaunchComplete lid s) := by
  unfold execLaunchComplete
  split
  · simp [h]
  · rw [outWf_next]
    split
    · exact getD_wf h (endLaunch_wf h _ _)
    · exact h

theorem execBindRecordWrite_wf (b : BindReq) : OutWf (execBindRecordWrite b s) := by
  unfold execBindRecordWrite
  dsimp only
  split
  · simp [h]
  · split
    · simp [h]
    · rw [outWf_next]
      split <;> simp [h]

theorem execTaskDispatch_wf (pos : Nat) : OutWf (execTaskDispatch pos s) := by
  unfold execTaskDispatch
  split
  · simp [h]
  · split <;> simp [h]

theorem execPreempt_wf (pos : Nat) : OutWf (execPreempt pos s) := by
  unfold execPreempt
  split <;> simp [h]

theorem execResume_wf (pos : Nat) : OutWf (execResume pos s) := by
  unfold execResume
  split
  · simp [h]
  · split
    · simp [h]
    · dsimp only
      split
      · rw [outWf_next]
        split
        · simp [h]
        · split <;> simp [h]
      · simp [h]

theorem execHandlerEntry_wf (pos : Nat) : OutWf (execHandlerEntry pos s) := by
  unfold execHandlerEntry
  split
  · simp [h]
  · split <;> simp [h]

theorem execWatchdogFire_wf (pos : Nat) : OutWf (execWatchdogFire pos s) := by
  unfold execWatchdogFire
  split <;> simp [h, fireWatchdog]

theorem execDebuggerAttach_wf (lid : Nat) : OutWf (execDebuggerAttach lid s) := by
  unfold execDebuggerAttach
  split <;> simp [h]

theorem execDebugHalt_wf (pos : Nat) : OutWf (execDebugHalt pos s) := by
  unfold execDebugHalt
  split <;> simp [h]

theorem updHalted_wf (pos : Nat) {f : State → Context → State × Context} (hf : ∀ c, (f s c).1.mem = s.mem) :
    (updHalted s pos f).mem.wf = true := by
  unfold updHalted
  split
  · exact h
  · simp [hf, h]

theorem execDebugWrite_wf (pos : Nat) (t : DbgTarget) : OutWf (execDebugWrite pos t s) := by
  unfold execDebugWrite
  split
  · split <;> simp [h, clearFailed_wf]
  · simpa using updHalted_wf h pos (dbgWrite_mem pos _ s)

theorem execDebugStep_wf (pos : Nat) : OutWf (execDebugStep pos s) :=
  (outWf_next _).2 (updHalted_wf h pos fun _ => rfl)

/-! Circuits and their program (R345, R346, R351 to R363). -/

theorem runSeq_wf {f : CProg → State} (hf : ∀ p, (f p).mem.wf = true) : OutWf (runSeq s f) := by
  unfold runSeq
  split
  · simp [h]
  · extract_lets held
    rw [outWf_next]
    split
    · exact h
    · exact hf _

theorem execFstep_wf (a : Reg) : OutWf (execFstep a s) :=
  runS_wf h fun e c => by
    simp only [resAll_bind]
    intros
    split <;> simp [h]

theorem execFhint_wf (a : Reg) : OutWf (execFhint a s) :=
  runS_wf h fun e c => by
    simp only [resAll_bind]
    intros
    split <;> simp [h]

theorem execEst_wf (o : EstOp) : OutWf (execEst o s) := runSeq_wf h fun p => by simp [h]

theorem execTear_wf (c : BitVec 8) : OutWf (execTear c s) := runSeq_wf h fun p => by simp [h]

theorem execHold_wf (c : BitVec 8) : OutWf (execHold c s) := runSeq_wf h fun p => by simp [h]

theorem execSeqStep_wf (o : StepOp) : OutWf (execSeqStep o s) := runSeq_wf h fun p => by simp [h]

theorem execStepIssue_wf (lid : Nat) : OutWf (execStepIssue lid s) := by
  unfold execStepIssue
  split
  · simp [h]
  · split <;> simp [h]

theorem execGap_wf (o : GapOp) : OutWf (execGap o s) := runSeq_wf h fun p => by simp [h]

theorem execLmove_wf (o : LmoveOp) : OutWf (execLmove o s) := runSeq_wf h fun p => by simp [h]

theorem execVect_wf (o : VectOp) : OutWf (execVect o s) := runSeq_wf h fun p => by simp [h]

theorem execRetry_wf (o : RetryOp) : OutWf (execRetry o s) :=
  runSeq_wf h fun p => by
    extract_lets c k s1
    have hs1 : s1.mem = s.mem := by
      unfold s1
      split <;> simp
    simpa [hs1] using h

theorem execSignal_wf (addr : BitVec 56) : OutWf (execSignal addr s) :=
  runSeq_wf h fun p => by
    extract_lets root v
    split
    · next hok => simpa using (writeMem_wf h ..).ok _ hok
    · exact h
    · simpa using h

theorem execSeqDone_wf : OutWf (execSeqDone s) := runSeq_wf h fun p => by simp [h]

theorem execRecoveryAttemptEnd_wf (c : BitVec 8) (locked : Bool) : OutWf (execRecoveryAttemptEnd c locked s) := by
  unfold execRecoveryAttemptEnd
  dsimp only
  split
  · split
    · simp [h]
    · split <;> simp [h]
  · simp [h]

theorem execFrameReceive_wf (c : BitVec 8) (hop : Nat) (dir : Bool) (body : List Byte) (tag : BitVec 128) :
    OutWf (execFrameReceive c hop dir body tag s) := by
  unfold execFrameReceive
  dsimp only
  split
  · simp [h]
  · split
    · simp [h]
    · split
      · simp [h]
      · split <;> simp [h]

theorem execStreamOpen_wf (p : Packet) : OutWf (execStreamOpen p s) := by
  unfold execStreamOpen
  rw [outWf_next]
  split <;> simp [h]

theorem execAccept_wf (p : Packet) : OutWf (execAccept p s) := by
  unfold execAccept
  dsimp only
  split <;> simp [h]

theorem execRefuse_wf (p : Packet) : OutWf (execRefuse p s) := by
  unfold execRefuse
  split <;> simp [h]

theorem execLostCircuitSettle_wf (c : BitVec 8) : OutWf (execLostCircuitSettle c s) := by
  unfold execLostCircuitSettle
  rw [outWf_next]
  split
  · exact settleCircuit_wf h _
  · exact h

/-! Links (R390 to R402). -/

theorem execLinkSteer_wf (pair : Nat) : OutWf (execLinkSteer pair s) := by
  unfold execLinkSteer
  dsimp only
  split
  · simp [h]
  · split
    · split
      · simp [h]
      · split <;> simp [h]
    · simp [h]

theorem execLinkset_wf (peers : List (Nat × PeerInfo)) : OutWf (execLinkset peers s) := by
  unfold execLinkset
  split
  · rw [outWf_next]
    split <;> simp [h]
  · rw [outWf_next]
    split
    · exact h
    · exact linksetStart_wf h

theorem execLinkDown_wf (link : Nat) : OutWf (execLinkDown link s) := by
  unfold execLinkDown
  dsimp only
  split
  · refine (outWf_next _).2 (foldl_wf (fun t e ht => ?_) _ _ (by simpa using h))
    split
    · exact settleCircuit_wf ht _
    · simpa using ht
  · simp [h]

/-! Handles, tokens and the matrix engine (R146 to R166, R196 to R201). -/

theorem execSwfence_wf : OutWf (execSwfence s) := runS_wf h fun e c => by simp [h]

theorem execAdvc_wf (o : GateOp) : OutWf (execAdvc o s) := runS_wf h fun e c => by simp [h]

theorem execAdvp_wf (o : GateOp) : OutWf (execAdvp o s) := runS_wf h fun e c => by simp [h]

theorem execTksend_wf (o : TokOp) : OutWf (execTksend o s) := runS_wf h fun e c => by simp [h]

theorem releaseOne_wf (pos : Nat) (p : Release → Bool) : OutWf (releaseOne pos p s) := by
  unfold releaseOne
  split
  · simp [h]
  · split <;> simp [h]

theorem tcfgTo_wf (e : Engine) (c : Context) (n : Nat) (v : Word) : ResWf (tcfgTo s e c n v) := by
  unfold tcfgTo
  dsimp only
  split
  · simp [h]
  · split
    · simp
    · split <;> simp [h]

theorem execTcfg_wf (o : TM) : OutWf (execTcfg o s) := runS_wf h fun _ _ => tcfgTo_wf h ..

theorem execSyswrTshape_wf (o : SysWrK) : OutWf (execSyswrTshape o s) :=
  runS_wf h fun _ _ => (resAll_bind ..).2 fun _ _ => tcfgTo_wf h ..

theorem execOclaim_wf (o : TM) : OutWf (execOclaim o s) := runS_wf h fun e c => by simp [h]

theorem execOload_wf (o : TM) : OutWf (execOload o s) :=
  runS_wf h fun e c => by
    simp only [resAll_bind]
    intro _ _
    split <;> simp [h]

theorem execMatrixNestStart_wf (pos : Nat) : OutWf (execMatrixNestStart pos s) := by
  unfold execMatrixNestStart
  split
  · simp [h]
  · split
    · split
      · simp [h]
      · split <;> simp [h]
    · simp [h]

theorem execMatrixNestComplete_wf (pos : Nat) : OutWf (execMatrixNestComplete pos s) := by
  unfold execMatrixNestComplete
  split <;> simp [h]

/-! The device in its system (R325, R407 to R414). -/

theorem ownerWrite_wf (m : Master) (f : Mgmt → Mgmt) : OutWf (ownerWrite m s f) := by
  simp [ownerWrite, h]

theorem apertureWrite_wf (m : Master) (off : Nat) (v : Word) : OutWf (apertureWrite m off v s) := by
  simp only [apertureWrite, execHandoverWrite, execDevnoWrite, execPcapWrite, execFqtailWrite, execLsecretWrite,
    execOkeysWrite, execOklockCommit, outWf_ite, ownerWrite_wf h, implies_true, and_self]

theorem execOwnerAnswer_wf (m : Master) (key : BitVec 456) (sig : BitVec 912) :
    OutWf (execOwnerAnswer m key sig s) := by
  unfold execOwnerAnswer
  split <;> simp [h]

theorem execLaserBankReturn_wf (b : Nat) (passed : Bool) : OutWf (execLaserBankReturn b passed s) := by
  unfold execLaserBankReturn
  rw [outWf_next]
  dsimp only
  split
  · split
    · simp [h]
    · split <;> simp [h]
  · exact h

theorem execScrubError_wf (e : ScrubErr) : OutWf (execScrubError e s) := by
  unfold execScrubError
  rw [outWf_next]
  split <;> simp [h]

/-! Posting a card (R287). -/

theorem execCpost_wf (o : CpostOp) : OutWf (execCpost o s) :=
  runS_wf h fun e c => by
    simp only [resAll_bind, resAll_ite, resAll_ok, reduceCtorEq, false_imp_iff, implies_true, true_and,
      forall_const, State.setCtx_mem]
    intros
    exact (writeMem_wf h ..).ok _ (by assumption)
end
end Sys2Proof.Machine
end

section
/-!
Every instruction and every event keeps memory canonical. Most change only their context (`runC_wf`); the others have a
rule of their own.
-/
namespace Sys2Proof.Machine

theorem exec_wf {s : State} (h : s.mem.wf = true) (i : Instr) : OutWf (exec i s) := by
  cases i with
  | nop | bfi _ | fsqrt _ | ffma _ | fcvt _ | fclass _ | eget _ | epeek _ | mcfg _ | mgo | mwait | mstat _ | movi _
  | movhi _ | lea _ | syswrSpm _ | syswrFpc _ | syswrTxw _ | prio _ | heart | trap _ | idle | br _ | bc _ | call _
  | ret _ | loop _ | tret | vcmp _ | pcnt _ | pseti _ | tzero _ | trowld _ | trowst _ | tcolld _ | tcolst _ | tld _
  | tst _ | tmma _ | tout _ | orel _ | spmode _ | spld _ | spst _ | spmov _ | spclr _ | spnorm _ | spup _ | spdn _
  | sbar _ | hcfg _ | hstat _ | waitf _ | waite _ | tkwait _ | waitseq _ | seqrd _ | cstat _ | cwait _ =>
    simp only [exec, execNop, execBfi, execFsqrt, execFfma, execFcvt, execFclass, execEget, execEpeek, execMcfg,
      execMgo, execMwait, execMstat, execMovi, execMovhi, execLea, execSyswrSpm, execSyswrFpc, execSyswrTxw,
      execPrio, execHeart, execTrap, execIdle, execBr, execBc, execCall, execRet, execLoop, execTret, execVcmp,
      execPcnt, execPseti, execTzero, execTrowld, execTrowst, execTcolld, execTcolst, execTld, execTst, execTmma,
      execTout, execOrel, execSpmode, execSpld, execSpst, execSpmov, execSpclr, execSpnorm, execSpup, execSpdn,
      execSbar, execHcfg, execHstat, execWaitf, execWaite, execTkwait, execWaitseq, execSeqrd, execCstat,
      execCwait, runC_wf h]
  | add _ | sub _ | mul _ | mulh _ | mulhz _ | div _ | divz _ | rem _ | remz _ | and _ | or _ | xor _ | andn _
  | shl _ | shr _ | sha _ | rotl _ | min _ | minz _ | max _ | maxz _ | seq _ | sne _ | slt _ | sltz _ | sle _
  | slez _ =>
    simp only [exec, execAdd, execSub, execMul, execMulh, execMulhz, execDiv, execDivz, execRem, execRemz,
      execAnd, execOr, execXor, execAndn, execShl, execShr, execSha, execRotl, execMin, execMinz, execMax,
      execMaxz, execSeq, execSne, execSlt, execSltz, execSle, execSlez, alu3, runC_wf h]
  | clz _ | ctz _ | popc _ => simp only [exec, execClz, execCtz, execPopc, alu2, runC_wf h]
  | sel _ | bfx _ | bfxz _ => simp only [exec, execSel, execBfx, execBfxz, alu4, runC_wf h]
  | addi _ | andi _ | ori _ | xori _ => simp only [exec, execAddi, execAndi, execOri, execXori, aluImm, runC_wf h]
  | shli _ | shri _ | shai _ | rotli _ => simp only [exec, execShli, execShri, execShai, execRotli, aluSh, runC_wf h]
  | fadd _ | fsub _ | fmul _ | fdiv _ => simp only [exec, execFadd, execFsub, execFmul, execFdiv, fop3, runC_wf h]
  | fmin _ | fmax _ => simp only [exec, execFmin, execFmax, fminmax, runC_wf h]
  | feq _ | flt _ | fle _ => simp only [exec, execFeq, execFlt, execFle, fcmp, runC_wf h]
  | vadd _ | vsub _ | vmul _ | vfma _ | vfms _ | vmin _ | vmax _ | vdiv _ | vand _ | vor _ | vxor _ | vshl _
  | vshr _ | vsha _ | vadds _ | vsubs _ | vmulh _ | vsel _ | vperm _ | vrotl _ | vzip _ | vunzip _ | vbcast _ =>
    simp only [exec, execVadd, execVsub, execVmul, execVfma, execVfms, execVmin, execVmax, execVdiv, execVand,
      execVor, execVxor, execVshl, execVshr, execVsha, execVadds, execVsubs, execVmulh, execVsel, execVperm,
      execVrotl, execVzip, execVunzip, execVbcast, v3Exec, runC_wf h]
  | vabs _ | vneg _ | vnot _ | vmov _ | vsqrt _ | vrsqrt _ | vrcp _ | vexp2 _ | vlog2 _ | vtanh _ | vsig _ | verf _
  | vcvt _ | vwiden _ | vnarrow _ | vhad _ | vqnt _ | vdqnt _ | vradd _ | vrmax _ | vrmin _ | vscan _ | vcompr _
  | vexpd _ | viota _ =>
    simp only [exec, execVabs, execVneg, execVnot, execVmov, execVsqrt, execVrsqrt, execVrcp, execVexp2,
      execVlog2, execVtanh, execVsig, execVerf, execVcvt, execVwiden, execVnarrow, execVhad, execVqnt, execVdqnt,
      execVradd, execVrmax, execVrmin, execVscan, execVcompr, execVexpd, execViota, v2Exec, runC_wf h]
  | pand _ | por _ | pxor _ | pnot _ | pfirst _ =>
    simp only [exec, execPand, execPor, execPxor, execPnot, execPfirst, predOp, runC_wf h]
  | vld _ | vst _ | wld _ | wst _ | pref _ =>
    dsimp only [exec, execVld, execVst, execWld, execWst, execPref]
    exact memExec_wf h (mvIssue_wf h _ _ _)
  | vldt _ | vstt _ =>
    dsimp only [exec, execVldt, execVstt]
    exact memExec_wf h (mxIssue_wf h _ _ _)
  | vgath _ | vscat _ =>
    dsimp only [exec, execVgath, execVscat]
    exact memExec_wf h (mgIssue_wf h _ _ _)
  | handleFillRelease _ _ | handleDrainRelease _ _ | tokenRelease _ _ _ =>
    simp only [exec, execHandleFillRelease, execHandleDrainRelease, execTokenRelease, releaseOne_wf h]
  | copy _ | fill _ | crc _ => simp only [exec, execCopy, execFill, execCrc, runLocal_wf h]
  | transpose _ | convert _ | quantise _ | dequantise _ =>
    simp only [exec, execTranspose, execConvert, execQuantise, execDequantise, runXform, runLocal_wf h]
  | compress _ | decompress _ => simp only [exec, execCompress, execDecompress, runZb, runLocal_wf h]
  | rread _ | rwrite _ | rreduce _ => simp only [exec, execRread, execRwrite, execRreduce, startData_wf h]
  | fqtailWrite _ _ | devnoWrite _ _ | lsecretWrite _ _ | okeysWrite _ _ _ | oklockCommit _ _ | handoverWrite _ _
  | pcapWrite _ _ =>
    simp only [exec, execFqtailWrite, execDevnoWrite, execLsecretWrite, execOkeysWrite, execOklockCommit,
      execHandoverWrite, execPcapWrite, ownerWrite_wf h]
  | settleElapsed _ | drainComplete _ | receiptQuery _ | assay _ _ | tlbShootdown _ _ _
  | rangeRegisterWrite _ _ _ _ | wsctlOpen _ _ _ | drainBoundExpiry _ | opticalFaultReport _ _ _ _ _
  | sequencerFailover | groupRetrain _ _ _ | pause _ _ _ | resumeSymbol _ _ _ | linkWavelengthRetrain _ _ _
  | linkTrain _ _ | electionNonce _ | handoverTimeout | keepaliveTimeout | quote _ | bootStageMeasure _
  | governorStep _ | laserBankRemove _ | dieReset _ | readinessSet _ | partnerCircuitChange _ _ _ _ _
  | ownerKeepalive _ | channelCopyComplete _ _ =>
    simp [exec, execSettleElapsed, execDrainComplete, execReceiptQuery, execAssay, execTlbShootdown,
      execRangeRegisterWrite, execWsctlOpen, execDrainBoundExpiry, execOpticalFaultReport, execSequencerFailover,
      execGroupRetrain, execPause, execResumeSymbol, execLinkWavelengthRetrain, execLinkTrain, execElectionNonce,
      execHandoverTimeout, execKeepaliveTimeout, execQuote, execBootStageMeasure, execGovernorStep,
      execLaserBankRemove, execDieReset, execReadinessSet, execPartnerCircuitChange, execOwnerKeepalive,
      execChannelCopyComplete, h]
  | lds _ => exact execLds_wf h ..
  | sts _ => exact execSts_wf h ..
  | sysrd _ => exact execSysrd_wf h ..
  | syswr _ => exact execSyswr_wf h ..
  | syswrTshape _ => exact execSyswrTshape_wf h ..
  | bkpt _ => exact execBkpt_wf h ..
  | jmpt _ => exact execJmpt_wf h ..
  | endTask => exact execEndTask_wf h
  | nestIssue _ _ => exact execNestIssue_wf h ..
  | tcfg _ => exact execTcfg_wf h ..
  | oclaim _ => exact execOclaim_wf h ..
  | oload _ => exact execOload_wf h ..
  | matrixNestStart _ => exact execMatrixNestStart_wf h ..
  | matrixNestComplete _ => exact execMatrixNestComplete_wf h ..
  | atom _ => exact execAtom_wf h ..
  | red _ => exact execRed_wf h ..
  | fence _ => exact execFence_wf h ..
  | swfence => exact execSwfence_wf h
  | advc _ => exact execAdvc_wf h ..
  | advp _ => exact execAdvp_wf h ..
  | tksend _ => exact execTksend_wf h ..
  | bar _ => exact execBar_wf h ..
  | barrierArrivalAdd _ => exact execBarrierArrivalAdd_wf h ..
  | barrierComplete _ _ _ => exact execBarrierComplete_wf h ..
  | phase => exact execPhase_wf h
  | phaseComplete _ => exact execPhaseComplete_wf h ..
  | launch _ => exact execLaunch_wf h ..
  | cpost _ => exact execCpost_wf h ..
  | fstep _ => exact execFstep_wf h ..
  | fhint _ => exact execFhint_wf h ..
  | est _ => exact execEst_wf h ..
  | tear _ => exact execTear_wf h ..
  | hold _ => exact execHold_wf h ..
  | seqStep _ => exact execSeqStep_wf h ..
  | gap _ => exact execGap_wf h ..
  | lmove _ => exact execLmove_wf h ..
  | vect _ => exact execVect_wf h ..
  | retry _ => exact execRetry_wf h ..
  | signal _ => exact execSignal_wf h ..
  | seqDone => exact execSeqDone_wf h
  | stepIssue _ => exact execStepIssue_wf h ..
  | rfetch _ => exact execRfetch_wf h ..
  | rsignal _ => exact execRsignal_wf h ..
  | dispatch _ => exact execDispatch_wf h ..
  | cardRetire _ => exact execCardRetire_wf h ..
  | segmentCommit _ => exact execSegmentCommit_wf h ..
  | chainDisableComplete _ _ => exact execChainDisableComplete_wf h ..
  | atomicAtHome _ => exact execAtomicAtHome_wf h ..
  | launchSubmit _ _ => exact execLaunchSubmit_wf h ..
  | admitNext => exact execAdmitNext_wf h
  | launchComplete _ => exact execLaunchComplete_wf h ..
  | bindRecordWrite _ => exact execBindRecordWrite_wf h ..
  | taskDispatch _ => exact execTaskDispatch_wf h ..
  | resume _ => exact execResume_wf h ..
  | handlerEntry _ => exact execHandlerEntry_wf h ..
  | preempt _ => exact execPreempt_wf h ..
  | watchdogFire _ => exact execWatchdogFire_wf h ..
  | chainEnable _ => exact execChainEnable_wf h ..
  | chainDisable a => exact execChainDisable_wf h a
  | chainFailedClear a => exact execChainFailedClear_wf h a
  | idleTimeout _ => exact execIdleTimeout_wf h ..
  | alloy _ _ _ => exact execAlloy_wf h ..
  | part _ => exact execPart_wf h ..
  | lostCircuitSettle _ => exact execLostCircuitSettle_wf h ..
  | scrubError _ => exact execScrubError_wf h ..
  | debugHalt _ => exact execDebugHalt_wf h ..
  | debugWrite _ _ => exact execDebugWrite_wf h ..
  | debugStep _ => exact execDebugStep_wf h ..
  | recoveryAttemptEnd _ _ => exact execRecoveryAttemptEnd_wf h ..
  | frameReceive _ _ _ _ _ => exact execFrameReceive_wf h ..
  | streamOpen _ => exact execStreamOpen_wf h ..
  | accept _ => exact execAccept_wf h ..
  | refuse _ => exact execRefuse_wf h ..
  | linkSteer _ => exact execLinkSteer_wf h ..
  | linkset _ => exact execLinkset_wf h ..
  | ownerAnswer _ _ _ => exact execOwnerAnswer_wf h ..
  | laserBankReturn _ _ => exact execLaserBankReturn_wf h ..
  | debuggerAttach _ => exact execDebuggerAttach_wf h ..
  | linkDown _ => exact execLinkDown_wf h ..

end Sys2Proof.Machine
end

section
/-!
Every step keeps memory canonical (O59): what an engine issues, what moves next, what the machine does by itself, and
the acts of the agenda.
-/
namespace Sys2Proof.Machine

/-! What an engine issues (R187 to R194). -/

section
variable {s : State} (h : s.mem.wf = true)
include h

theorem issueAt_wf (pos : Nat) (e : Engine) (i : Instr) : OutWf (issueAt s pos e i) :=
  exec_wf (s := { s with cur := pos, eng := e }) h i

theorem issueTogether_wf (pos : Nat) (c : Context) (e : Engine) : OutWf (issueTogether s pos c e) := by
  unfold issueTogether
  split
  · split <;> simp [h]
  · refine (outWf_ite ..).2 ⟨fun _ => (outWf_next _).2 h, fun _ => ?_⟩
    split
    · simp [h]
    · refine (outWf_ite ..).2 ⟨fun _ => (outWf_next _).2 h, fun _ => ?_⟩
      split
      · simp [h]
      · split
        · next ht => simpa using (issueAt_wf h pos e _).next _ ht
        · exact issueAt_wf h pos e _

theorem matNestStep_wf (pos : Nat) (c : Context) : OutWf (matNestStep s pos c) := by
  unfold matNestStep
  split
  · split <;> simp [h]
  · exact exec_wf (by simpa using h) _

theorem matAtMgo_wf (pos : Nat) (c : Context) (x : SlotAt) : OutWf (matAtMgo s pos c x) := by
  unfold matAtMgo
  split
  · simpa using h
  · split
    · exact exec_wf h _
    · simpa using h

theorem issueNow_wf (pos : Nat) (c : Context) (e : Engine) (i : Instr) (f : Foot) :
    OutWf (issueNow s pos c e i f) := by
  unfold issueNow
  dsimp only
  split
  · next ht => simpa using (issueAt_wf (by simpa using h) pos e i).next _ ht
  · exact issueAt_wf (by simpa using h) pos e i

theorem performApart_wf (pos : Nat) (c : Context) (e : Engine) (i : Instr) : OutWf (performApart s pos c e i) := by
  unfold performApart
  dsimp only
  split
  · simpa using h
  · split
    · simpa using h
    · split
      · split
        · simpa using h
        · exact issueNow_wf h ..
      · exact issueNow_wf h ..

theorem issueApart_wf (pos : Nat) (c : Context) (e : Engine) : OutWf (issueApart s pos c e) := by
  unfold issueApart
  dsimp only
  split
  · simpa using h
  · split
    · simpa using h
    · split
      · simpa using h
      · split
        · split
          · simpa using h
          · exact performApart_wf h ..
        · split
          · split <;> simpa using h
          · split
            · split
              · exact matAtMgo_wf h ..
              · simpa using h
            · split <;> simpa using h
            · simpa using h

omit h in
theorem keepFetch_wf (pos : Nat) (c : Context) (p : EnginePos) {o : HO} (ho : OutWf o) :
    OutWf (keepFetch s pos c p o) := by
  unfold keepFetch
  split
  · simpa using ho
  · exact ho

theorem engineStep_wf (pos : Nat) (e : Engine) : OutWf (engineStep s pos e) := by
  unfold engineStep
  split
  · simpa using h
  · simp only [outWf_ite, outWf_next, h, implies_true, true_and, matNestStep_wf h,
      keepFetch_wf pos _ _ (issueTogether_wf h ..), keepFetch_wf pos _ _ (issueApart_wf h ..), and_true]
    exact fun _ _ _ => exec_wf (s := { s with cur := pos, eng := .ctl }) h .endTask
end

/-! What moves next (R204 to R206, R220). -/

/-- Memory is canonical in the state that follows, where something moves at all. -/
structure MoveWf (x : Option HO) : Prop where
  out : ∀ o, x = some o → OutWf o

@[simp] theorem moveWf_none : MoveWf none :=
  ⟨fun _ h => by cases h⟩

@[simp] theorem moveWf_some (o : HO) : MoveWf (some o) ↔ OutWf o :=
  ⟨fun h => h.out o rfl, fun h => ⟨fun _ hu => by cases hu; exact h⟩⟩

/-- What moves, or else a given outcome. -/
theorem MoveWf.getD {x : Option HO} (hx : MoveWf x) {d : HO} (hd : OutWf d) : OutWf (x.getD d) := by
  cases x with
  | none => exact hd
  | some o => exact hx.out o rfl

theorem orElse_wf {x : Option HO} {y : Unit → Option HO} (hx : MoveWf x) (hy : MoveWf (y ())) :
    MoveWf (orElse x y) := by
  unfold orElse
  split
  · exact hx
  · exact hy

theorem writeBinds_wf (l : List BindReq) : ∀ {s : State}, s.mem.wf = true → OutWf (writeBinds s l) := by
  induction l with
  | nil => intro s h; simpa [writeBinds] using h
  | cons b r ih =>
    intro s h
    unfold writeBinds
    split
    · next ht => exact ih ((execBindRecordWrite_wf h b).next _ ht)
    · exact execBindRecordWrite_wf h b

theorem noteRr_wf (core : Nat) (e : Engine) (x : Nat × Nat) {o : HO} (ho : OutWf o) : OutWf (noteRr core e x o) := by
  unfold noteRr
  split
  · simpa using ho
  · exact ho

section
variable {s : State} (h : s.mem.wf = true)
include h

theorem bindNext_wf : MoveWf (bindNext s) := by
  unfold bindNext
  split
  · simp
  · exact (moveWf_some _).2 (writeBinds_wf _ h)
  · dsimp only
    split <;> simp [h]

theorem serve_wf (core : Nat) (e : Engine) (x : Nat × Nat) : OutWf (serve s core e x) :=
  noteRr_wf core e x (engineStep_wf h ..)

theorem passing_wf (pos : Nat) (e : Engine) : MoveWf (passing s pos e) := by
  unfold passing
  split
  · simp
  · split
    · simp
    · have hs := engineStep_wf h pos e
      split
      · next ht =>
        split
        · simpa using hs.next _ ht
        · simp
      · simpa using hs

theorem engineMoves_wf (core : Nat) (e : Engine) : MoveWf (engineMoves s core e) := by
  unfold engineMoves
  split
  · next hf =>
    obtain ⟨i, -, hi⟩ := List.exists_of_findSome?_eq_some hf
    exact (moveWf_some _).2 ((passing_wf h _ e).out _ hi)
  · cases granted s core e with
    | none => simp
    | some x => simpa using serve_wf h core e x

theorem engineAct_wf (pos : Nat) (e : Engine) : OutWf (engineAct s pos e) := by
  unfold engineAct
  split
  · simpa using h
  · split
    · split
      · split
        · exact serve_wf h ..
        · simpa using h
      · simpa using h
    · exact engineStep_wf h ..

end

theorem issueFrom_wf (l : List (Nat × (Nat × Engine))) :
    ∀ {s : State}, s.mem.wf = true → MoveWf (issueFrom s l) := by
  induction l with
  | nil => intro s _; simp [issueFrom]
  | cons x r ih =>
    intro s h
    obtain ⟨n, k, e⟩ := x
    unfold issueFrom
    split
    · next ht => simpa using (engineMoves_wf h k e).out _ ht
    · next hs => exact (moveWf_some _).2 ((engineMoves_wf h k e).out _ hs)
    · exact ih (by simpa using h)

theorem issueNext_wf {s : State} (h : s.mem.wf = true) : MoveWf (issueNext s) := issueFrom_wf _ h

/-! What the machine does by itself: each of its events is an event of the model. -/

/-- An event keeps memory canonical. -/
def KeepsWf (f : State → HO) : Prop := ∀ s : State, s.mem.wf = true → OutWf (f s)

theorem keepsWf_exec (i : Instr) : KeepsWf (exec i) := fun _ h => exec_wf h i

theorem keepsWf_releaseEvent (pos : Nat) (r : Release) : KeepsWf (releaseEvent pos r) := by
  cases r with
  | fill a _ _ => exact keepsWf_exec (.handleFillRelease pos (BitVec.ofNat 5 a))
  | drain a _ _ => exact keepsWf_exec (.handleDrainRelease pos (BitVec.ofNat 5 a))
  | token a b _ => exact keepsWf_exec (.tokenRelease pos a b)

theorem keepsWf_contextEvents (pos : Nat) (c : Context) : ∀ f ∈ contextEvents pos c, KeepsWf f := by
  unfold contextEvents
  simp only [List.forall_mem_append, List.forall_mem_map]
  refine ⟨⟨⟨fun r _ => keepsWf_releaseEvent pos r.rel, ?_⟩, ?_⟩,
    fun e _ => keepsWf_exec (.chainDisableComplete pos (BitVec.ofNat 4 e.1))⟩
  · split
    · exact List.forall_mem_singleton.2 (keepsWf_exec (.preempt pos))
    · split
      · exact List.forall_mem_singleton.2 (keepsWf_exec (.handlerEntry pos))
      · simp
  · split
    · exact List.forall_mem_singleton.2 (keepsWf_exec (.barrierArrivalAdd pos))
    · simp

theorem keepsWf_barrierEvents (s : State) (c : Context) : ∀ f ∈ barrierEvents s c, KeepsWf f := by
  unfold barrierEvents
  split
  · next k l _ _ =>
    split
    · exact List.forall_mem_singleton.2 (keepsWf_exec (.phaseComplete c.bind.lid))
    · exact List.forall_mem_singleton.2 (keepsWf_exec (.barrierComplete c.bind.lid k (barGroup l c.bind.wid k)))
  · simp

theorem keepsWf_cardStart (id : Nat) (k : Card) : ∀ f ∈ cardStart id k, KeepsWf f := by
  unfold cardStart
  split
  · exact List.forall_mem_singleton.2 (keepsWf_exec (.copy id))
  · exact List.forall_mem_singleton.2 (keepsWf_exec (.fill id))
  · exact List.forall_mem_singleton.2 (keepsWf_exec (.crc id))
  · exact List.forall_mem_singleton.2 (keepsWf_exec (.rread id))
  · exact List.forall_mem_singleton.2 (keepsWf_exec (.rwrite id))
  · exact List.forall_mem_singleton.2 (keepsWf_exec (.rreduce id))
  · exact List.forall_mem_singleton.2 (keepsWf_exec (.rfetch id))
  · exact List.forall_mem_singleton.2 (keepsWf_exec (.rsignal id))
  · exact List.forall_mem_singleton.2 (keepsWf_exec (.dispatch id))
  · simp only [List.forall_mem_cons]
    exact ⟨keepsWf_exec (.transpose id), keepsWf_exec (.convert id), keepsWf_exec (.quantise id),
      keepsWf_exec (.dequantise id), keepsWf_exec (.compress id), keepsWf_exec (.decompress id), by simp⟩

theorem keepsWf_cardEvents (id : Nat) (k : Card) : ∀ f ∈ cardEvents id k, KeepsWf f := by
  unfold cardEvents
  split
  · exact keepsWf_cardStart id k
  · simp only [List.forall_mem_append, List.forall_mem_cons]
    refine ⟨⟨keepsWf_exec (.segmentCommit id), keepsWf_exec (.cardRetire id), by simp⟩, ?_⟩
    split
    · exact List.forall_mem_singleton.2 (keepsWf_exec (.dispatch id))
    · simp
  · exact List.forall_mem_singleton.2 (keepsWf_exec (.cardRetire id))
  · simp

theorem keepsWf_launchEvents (lid : Nat) (l : Launch) : ∀ f ∈ launchEvents lid l, KeepsWf f := by
  unfold launchEvents
  refine List.forall_mem_append.2 ⟨?_, ?_⟩
  · split
    · exact List.forall_mem_singleton.2 (keepsWf_exec (.launchComplete lid))
    · simp
  · split
    · split
      · exact List.forall_mem_singleton.2 (keepsWf_exec (.stepIssue lid))
      · simp
    · simp

theorem keepsWf_circuitEvents (s : State) (n : Nat) (c : Circuit) : ∀ f ∈ circuitEvents s n c, KeepsWf f := by
  unfold circuitEvents
  refine List.forall_mem_append.2 ⟨?_, ?_⟩
  · split
    · exact List.forall_mem_singleton.2 (keepsWf_exec (.receiptQuery (BitVec.ofNat 8 n)))
    · simp
  · cases c.state with
    | settling =>
      dsimp only
      split
      · simp
      · exact List.forall_mem_singleton.2 (keepsWf_exec (.settleElapsed (BitVec.ofNat 8 n)))
    | draining => exact List.forall_mem_singleton.2 (keepsWf_exec (.drainComplete (BitVec.ofNat 8 n)))
    | lost | idle =>
      dsimp only
      split
      · exact List.forall_mem_singleton.2 (keepsWf_exec (.lostCircuitSettle (BitVec.ofNat 8 n)))
      · simp
    | recovering =>
      dsimp only
      split
      · exact List.forall_mem_singleton.2 (keepsWf_exec (.recoveryAttemptEnd (BitVec.ofNat 8 n) true))
      · simp
    | live => simp

theorem keepsWf_dieEvents (d : Nat) (x : Die) : ∀ f ∈ dieEvents d x, KeepsWf f := by
  unfold dieEvents
  simp only [List.forall_mem_flatMap]
  intro e _
  split
  · simp
  · split
    · exact List.forall_mem_singleton.2 (keepsWf_exec (.resume (128 * d + e.1)))
    · exact List.forall_mem_singleton.2 (keepsWf_exec (.taskDispatch (128 * d + e.1)))

theorem keepsWf_ownEvents (s : State) : ∀ f ∈ ownEvents s, KeepsWf f := by
  unfold ownEvents
  simp only [List.forall_mem_append, List.forall_mem_flatMap, List.forall_mem_map]
  refine ⟨⟨⟨⟨⟨⟨⟨⟨?_, ?_⟩, ?_⟩, ?_⟩, ?_⟩, ?_⟩, ?_⟩, ?_⟩, ?_⟩
  · exact fun e _ => keepsWf_contextEvents e.1 e.2
  · exact fun c _ => keepsWf_barrierEvents s c
  · exact fun e _ => keepsWf_exec (.atomicAtHome e.1)
  · exact fun e _ => keepsWf_exec (.part e.1)
  · exact fun e _ => keepsWf_cardEvents e.1 e.2
  · exact fun e _ => keepsWf_circuitEvents s e.1 e.2
  · exact fun e _ => keepsWf_launchEvents e.1 e.2
  · split
    · exact List.forall_mem_singleton.2 (keepsWf_exec .admitNext)
    · simp
  · exact fun e _ => keepsWf_dieEvents e.1 e.2

theorem keepsWf_timeEvents (s : State) : ∀ f ∈ timeEvents s, KeepsWf f := by
  unfold timeEvents
  simp only [List.forall_mem_append, List.forall_mem_map]
  refine ⟨⟨?_, fun e _ => keepsWf_exec (.idleTimeout e.1)⟩, fun e _ => keepsWf_exec (.watchdogFire e.1)⟩
  split
  · simp [KeepsWf]
  · simp

section
variable {s : State} (h : s.mem.wf = true)
include h

theorem firstEvent_wf {l : List (State → HO)} (hl : ∀ f ∈ l, KeepsWf f) : MoveWf (firstEvent s l) := by
  induction l with
  | nil => simp [firstEvent]
  | cons f r ih =>
    obtain ⟨hf, hr⟩ := List.forall_mem_cons.1 hl
    unfold firstEvent
    split
    · next ht =>
      split
      · simpa using (hf s h).next _ ht
      · exact ih hr
    · exact (moveWf_some _).2 (hf s h)

theorem sequencerStep_wf (lid : Nat) : OutWf (sequencerStep s lid) := by
  unfold sequencerStep
  split
  · simpa using h
  · split
    · simpa using h
    · split
      · simpa using h
      · exact exec_wf (s := { s with curLid := lid }) h _

theorem firstSequencer_wf (l : List Nat) : MoveWf (firstSequencer s l) := by
  induction l with
  | nil => simp [firstSequencer]
  | cons lid r ih =>
    unfold firstSequencer
    split
    · next ht =>
      split
      · simpa using (sequencerStep_wf h lid).next _ ht
      · exact ih
    · exact (moveWf_some _).2 (sequencerStep_wf h lid)
end

theorem issueStep_wf (lid n : Nat) : ∀ {s : State}, s.mem.wf = true → (issueStep n lid s).mem.wf = true := by
  induction n with
  | zero => exact fun h => h
  | succ n ih =>
    intro s h
    unfold issueStep
    split
    · exact h
    · split
      · split
        · next ht =>
          split
          · exact ih ((sequencerStep_wf h lid).next _ ht)
          · exact h
        · exact h
      · exact h

/-! One step. -/

section
variable {s : State} (h : s.mem.wf = true)
include h

theorem issueSteps_wf : (issueSteps s).mem.wf = true := by
  refine foldl_wf (fun t e ht => ?_) _ s h
  split
  · exact issueStep_wf _ _ ht
  · exact ht

theorem moveNext_wf : MoveWf (moveNext s) :=
  orElse_wf (firstEvent_wf h (keepsWf_ownEvents s)) (orElse_wf (firstSequencer_wf h _) (bindNext_wf h))

theorem defaultStep_wf : OutWf (defaultStep s) := by
  refine (orElse_wf ?_ (firstEvent_wf h (keepsWf_timeEvents s))).getD ((outWf_next _).2 h)
  split
  · exact orElse_wf (moveNext_wf h) (issueNext_wf h)
  · exact orElse_wf (issueNext_wf h) (moveNext_wf h)

theorem runAct_wf (a : Act) : OutWf (runAct a s) := by
  cases a with
  | engine pos e => exact engineAct_wf h pos e
  | sequencer lid => exact sequencerStep_wf h lid
  | event i => simpa [runAct, h] using fun _ => exec_wf h i
  | aperture m off v => exact apertureWrite_wf h m off v
  | peer c op => exact peerAct_wf h c op
  | peerStore k n v => simpa [runAct] using h

theorem nextAct_wf : OutWf (nextAct s) := by
  unfold nextAct
  split
  · next rest _ => exact runAct_wf (s := { s with agenda := rest }) h _
  · exact defaultStep_wf h
end

theorem withSteps_wf {o : HO} (ho : OutWf o) : OutWf (withSteps o) := by
  unfold withSteps
  split
  · exact (outWf_next _).2 (issueSteps_wf ((outWf_next _).1 ho))
  · exact ho

theorem countWaits_wf (s : State) {o : HO} (ho : OutWf o) : OutWf (countWaits s o) := by
  unfold countWaits
  split
  · simpa using ho
  · exact ho

theorem bumpFree_wf {o : HO} (ho : OutWf o) : OutWf (bumpFree o) := by
  unfold bumpFree
  split
  · simpa using ho
  · exact ho

theorem oneStep_wf {s : State} (h : s.mem.wf = true) : OutWf (oneStep s) :=
  bumpFree_wf (countWaits_wf s (withSteps_wf (nextAct_wf h)))

/-- Settles O59: memory changes only by the memory's own writes, which keep it canonical, in every event and
instruction (`exec_wf`), and so in every step. -/
theorem everyStepKeepsMemoryCanonical : Obligations.EveryStepKeepsMemoryCanonical :=
  fun _ _ h hstep => (oneStep_wf h).next _ hstep

end Sys2Proof.Machine
end

section
/-!
The scalars (R13, R319): what a scalar holds after a write to it and to another; and the immediate forms (R26, R94).
-/
namespace Sys2Proof.Machine
open Sys2Proof.Says

/-- A write to s0 is discarded. -/
@[simp] theorem Context.wrS_zero (c : Context) (v : Word) : c.wrS 0 v = c := by simp [Context.wrS]

/-- s0 reads as zero. -/
@[simp] theorem Context.rdS_zero (c : Context) (e : Engine) : c.rdS e 0 = 0 := by simp [Context.rdS]

/-- The scalars and the bank after a write: in handler mode s56 to s63 are the bank's (R319). -/
theorem Context.wrS_stores (c : Context) {d : Reg} (v : Word) (hd : d ≠ 0) :
    (c.handler ∧ 56 ≤ d.toNat → (c.wrS d v).r.bank = putD c.r.bank d.toNat v 0 ∧ (c.wrS d v).r.s = c.r.s) ∧
    (¬ (c.handler ∧ 56 ≤ d.toNat) → (c.wrS d v).r.s = putD c.r.s d.toNat v 0 ∧ (c.wrS d v).r.bank = c.r.bank) := by
  refine ⟨fun hb => ?_, fun hb => ?_⟩
  · rw [Context.wrS, if_neg hd, if_pos hb]; exact ⟨rfl, rfl⟩
  · rw [Context.wrS, if_neg hd, if_neg hb]; simp

/-- A written scalar other than s0 holds the value. -/
theorem held_wrS_same (c : Context) {d : Reg} (v : Word) (hd : d ≠ 0) : held (c.wrS d v) d = v := by
  obtain ⟨hbank, hs⟩ := c.wrS_stores v hd
  rw [held, if_neg hd, Context.wrS_handler]
  split
  · next hb => rw [(hbank hb).1, lookD_putD_same]
  · next hb => rw [(hs hb).1, lookD_putD_same]

/-- A write leaves every other scalar. -/
theorem held_wrS_other (c : Context) {d n : Reg} (v : Word) (hn : n ≠ d) : held (c.wrS d v) n = held c n := by
  have hkey : n.toNat ≠ d.toNat := fun h => hn (BitVec.eq_of_toNat_eq h)
  by_cases hd : d = 0
  · rw [hd, Context.wrS_zero]
  · obtain ⟨hbank, hs⟩ := c.wrS_stores v hd
    simp only [held, Context.wrS_handler]
    by_cases hb : c.handler ∧ 56 ≤ d.toNat
    · rw [(hbank hb).1, (hbank hb).2, lookD_putD_other _ _ _ _ _ hkey]
    · rw [(hs hb).1, (hs hb).2, lookD_putD_other _ _ _ _ _ hkey]

/-- Settles O1: the rules of a scalar that is written and of one that is not. -/
theorem scalarZero : Obligations.ScalarZero := fun c e v =>
  ⟨c.rdS_zero e, c.wrS_zero v, fun _ hd => ⟨held_wrS_same c v hd, fun _ hn => held_wrS_other c v hn⟩⟩

/-! The shifts of a word as arithmetic (R89, R94). -/

theorem shiftLeft_eq_mul (a : Word) (n : Nat) : a <<< n = BitVec.ofNat 64 (a.toNat * 2 ^ n) := by
  apply BitVec.eq_of_toNat_eq
  rw [BitVec.toNat_shiftLeft, Nat.shiftLeft_eq, BitVec.toNat_ofNat]

theorem ushiftRight_eq_div (a : Word) (n : Nat) : a >>> n = BitVec.ofNat 64 (a.toNat / 2 ^ n) := by
  apply BitVec.eq_of_toNat_eq
  rw [BitVec.toNat_ushiftRight, Nat.shiftRight_eq_div_pow, BitVec.toNat_ofNat,
    Nat.mod_eq_of_lt (Nat.lt_of_le_of_lt (Nat.div_le_self _ _) a.isLt)]

theorem sshiftRight_eq_div (a : Word) (n : Nat) : a.sshiftRight n = BitVec.ofInt 64 (a.toInt / 2 ^ n) := by
  rw [BitVec.sshiftRight, Int.shiftRight_eq_div_pow]
  norm_cast

theorem rotateLeft_eq_or (a : Word) {n : Nat} (h : n < 64) : a.rotateLeft n = a <<< n ||| a >>> (64 - n) := by
  rw [BitVec.rotateLeft, Nat.mod_eq_of_lt h, BitVec.rotateLeftAux]

/-- The high half of a word put before its low half. -/
theorem append_setWidth_eq (x : BitVec 32) (a : Word) :
    x ++ a.setWidth 32 = BitVec.ofNat 64 (x.toNat * 2 ^ 32 + a.toNat % 2 ^ 32) := by
  apply BitVec.eq_of_toNat_eq
  have hx := x.isLt
  have ha : a.toNat % 2 ^ 32 < 2 ^ 32 := Nat.mod_lt _ (by decide)
  rw [BitVec.toNat_append, BitVec.toNat_setWidth, BitVec.toNat_ofNat, ← Nat.shiftLeft_add_eq_or_of_lt ha,
    Nat.shiftLeft_eq]
  omega

/-! The immediate forms (R94). -/

section
variable {s : State} {c : Context} (h : runs s c)
include h

/-- An immediate operation writes its result. -/
theorem aluImm_writes (f : Word → Word → Word) (o : I2) :
    aluImm f o s = writes s c o.d (f (c.rdS s.eng o.a) (o.imm.signExtend 64)) :=
  runC_ok h rfl

/-- An immediate shift writes its result. -/
theorem aluSh_writes (f : Word → Nat → Word) (o : Sh) :
    aluSh f o s = writes s c o.d (f (c.rdS s.eng o.a) o.n.toNat) :=
  runC_ok h rfl

theorem execShli_writes (o : Sh) :
    execShli o s = writes s c o.d (BitVec.ofNat 64 ((c.rdS s.eng o.a).toNat * 2 ^ o.n.toNat)) := by
  rw [execShli, aluSh_writes h, shiftLeft_eq_mul]

theorem execShri_writes (o : Sh) :
    execShri o s = writes s c o.d (BitVec.ofNat 64 ((c.rdS s.eng o.a).toNat / 2 ^ o.n.toNat)) := by
  rw [execShri, aluSh_writes h, ushiftRight_eq_div]

theorem execShai_writes (o : Sh) :
    execShai o s = writes s c o.d (BitVec.ofInt 64 ((c.rdS s.eng o.a).toInt / 2 ^ o.n.toNat)) := by
  rw [execShai, aluSh_writes h, sshiftRight_eq_div]

theorem execRotli_writes (o : Sh) : execRotli o s = writes s c o.d
    (c.rdS s.eng o.a <<< o.n.toNat ||| c.rdS s.eng o.a >>> (64 - o.n.toNat)) := by
  rw [execRotli, aluSh_writes h, rotateLeft_eq_or _ o.n.isLt]

theorem execNop_passes : execNop s = passes s c := runC_ok h rfl

theorem execMovi_writes (o : I1) : execMovi o s = writes s c o.d (o.imm.signExtend 64) := runC_ok h rfl

theorem execMovhi_writes (o : I1) : execMovhi o s = writes s c o.d
    (BitVec.ofNat 64 (o.imm.toNat * 2 ^ 32 + (c.rdS s.eng o.d).toNat % 2 ^ 32)) := by
  rw [← append_setWidth_eq]
  exact runC_ok h rfl

theorem execLea_writes (o : LeaOp) : execLea o s = writes s c o.d
    (BitVec.ofNat 64 ((c.rdS s.eng o.a).toNat * 2 ^ o.k.toNat) + o.imm.signExtend 64) := by
  rw [← shiftLeft_eq_mul]
  exact runC_ok h rfl
end

/-- Settles O5: every form writes one result, which the shifts and MOVHI give as arithmetic. -/
theorem immediateResults : Obligations.ImmediateResults := fun _ _ o sh m l h =>
  ⟨execNop_passes h, aluImm_writes h _ o, aluImm_writes h _ o, aluImm_writes h _ o, aluImm_writes h _ o,
    execShli_writes h sh, execShri_writes h sh, execShai_writes h sh, execRotli_writes h sh,
    execMovi_writes h m, execMovhi_writes h m, execLea_writes h l⟩

end Sys2Proof.Machine
end

section
/-!
Exchange registers and the instructions by which a matrix nest is run (R17, R101, R159 to R161, R202).
-/
namespace Sys2Proof.Machine
open Sys2Proof.Says

section
variable {α : Type} [DecidableEq α]

/-- What is found at a key after another was written. -/
theorem find?_putD_other (m : Store α) (n q : Nat) (v d : α) (h : q ≠ n) : find? (putD m n v d) q = find? m q := by
  unfold putD
  split
  · exact find?_del_other m n q h
  · exact find?_put_other m n q v h

/-- What is read at a key after another was written, where the read and the write have defaults of their own. -/
theorem lookD_putD_other_key (m : Store α) (n q : Nat) (v d d' : α) (h : q ≠ n) :
    lookD (putD m n v d) q d' = lookD m q d' := by
  rw [lookD, find?_putD_other m n q v d h, lookD]
end

/-- What is awaited holds: the meaning goes on. -/
theorem await_bind_true {α : Type} {b : Bool} (h : b = true) (f : Unit → Res α) : (await b >>= f) = f () := by
  rw [h]; rfl

/-- What is awaited does not hold: the meaning waits. -/
theorem await_bind_false {α : Type} {b : Bool} (h : b = false) (f : Unit → Res α) : (await b >>= f) = .error .wait := by
  rw [h]; rfl

/-- What is checked holds: the meaning goes on. -/
theorem check_bind_true {α : Type} {b : Bool} (h : b = true) (code : FaultCode) (addr arg : Nat) (f : Unit → Res α) :
    (check b code addr arg >>= f) = f () := by
  rw [h]; rfl

/-- What is checked does not hold: the fault is raised. -/
theorem check_bind_false {α : Type} {b : Bool} (h : b = false) (code : FaultCode) (addr arg : Nat) (f : Unit → Res α) :
    (check b code addr arg >>= f) = .error (.trap { code := code, addr := addr, arg := arg }) := by
  rw [h]; rfl

/-! The exchange registers (R17, R101, R202). -/

/-- The context after an exchange register is emptied (R17). -/
def Context.emptyEx (c : Context) (k : Nat) : Context :=
  { c with r := { c.r with exFull := c.r.exFull &&& ~~~(1#8 <<< k) } }

@[simp] theorem Context.emptyEx_r_ex (c : Context) (k : Nat) : (c.emptyEx k).r.ex = c.r.ex := rfl
@[simp] theorem Context.emptyEx_r_flags (c : Context) (k : Nat) : (c.emptyEx k).r.flags = c.r.flags := rfl
@[simp] theorem Context.emptyEx_lines (c : Context) (k : Nat) : (c.emptyEx k).lines = c.lines := rfl

/-- The emptied register is empty. -/
theorem Context.emptyEx_same (c : Context) (k : Nat) : (c.emptyEx k).r.exFull.getLsbD k = false := by
  simp [Context.emptyEx]

/-- Emptying a register leaves the others as full as they were. -/
theorem Context.emptyEx_other (c : Context) {k j : Nat} (h : j ≠ k) :
    (c.emptyEx k).r.exFull.getLsbD j = c.r.exFull.getLsbD j := by
  by_cases hj : j < 8
  · simp [Context.emptyEx, hj]
    omega
  · rw [BitVec.getLsbD_of_ge _ _ (by omega), BitVec.getLsbD_of_ge _ _ (by omega)]

/-- Where the engines stand is no part of what a scalar holds. -/
@[simp] theorem held_advance (c : Context) (e : Engine) (r : Reg) : held (c.advance e) r = held c r := by
  simp [held]

section
variable {s : State} {c : Context} (h : runs s c) (o : ExOp)
include h

theorem execEget_full (hf : c.r.exFull.getLsbD o.k.toNat = true) (hd : fillDue c o.k.toNat = false) :
    execEget o s = becomes s (((c.emptyEx o.k.toNat).wrS o.d (lookD c.r.ex o.k.toNat 0)).advance s.eng) := by
  refine runC_ok h (await_bind_true ?_ _)
  show (c.r.exFull.getLsbD o.k.toNat && !fillDue c o.k.toNat) = true
  rw [hf, hd]; rfl

theorem execEget_waits (hw : c.r.exFull.getLsbD o.k.toNat = false ∨ fillDue c o.k.toNat = true) :
    execEget o s = waits s := by
  refine runC_wait h (await_bind_false ?_ _)
  show (c.r.exFull.getLsbD o.k.toNat && !fillDue c o.k.toNat) = false
  rcases hw with hw | hw <;> simp [hw]

theorem execEpeek_writes (hd : fillDue c o.k.toNat = false) :
    execEpeek o s = writes s c o.d (lookD c.r.ex o.k.toNat 0) :=
  runC_ok h (await_bind_true (b := !fillDue c o.k.toNat) (by rw [hd]; rfl) _)

theorem execEpeek_waits (hd : fillDue c o.k.toNat = true) : execEpeek o s = waits s :=
  runC_wait h (await_bind_false (b := !fillDue c o.k.toNat) (by rw [hd]; rfl) _)
end

/-- The exchange registers are read as R17, R101 and R202 say. -/
theorem exchangeReads : ExchangeReads := by
  intro s c o h
  refine ⟨fun ⟨hf, hd⟩ => ⟨_, execEget_full h o hf hd, ?_, fun j hj => ?_, ?_, fun h0 => ?_, ?_, ?_⟩,
    execEget_waits h o, execEpeek_writes h o, execEpeek_waits h o⟩
  · simpa using c.emptyEx_same o.k.toNat
  · simpa using c.emptyEx_other hj
  · simp
  · rw [held_advance, held_wrS_same _ _ h0]
  · simp
  · simp

/-! A nest's control (R159 to R161, R166). -/

/-- A field that reaches to the top of a word is zero if and only if nothing lies above its low end. -/
theorem bitsOf_top_eq_zero (a : Word) {lo n : Nat} (hn : lo + n = 64) : bitsOf a.toNat lo n = 0 ↔ a.toNat / 2 ^ lo = 0 := by
  have hlt : a.toNat / 2 ^ lo < 2 ^ n := by
    rw [Nat.div_lt_iff_lt_mul (Nat.two_pow_pos _), ← Nat.pow_add, Nat.add_comm, hn]
    exact a.isLt
  rw [bitsOf, Nat.mod_eq_of_lt hlt]

/-- The reserved bits that MCFG checks in the words of a level are zero (R159, Table 41). -/
theorem mcfg_reserved_iff (a b : Word) (k : Nat) :
    (bitsOf b.toNat 32 32 == 0 && bitsOf a.toNat (if k = 0 then 40 else 14) (if k = 0 then 24 else 50) == 0) = true ↔
      b.toNat / 2 ^ 32 = 0 ∧ a.toNat / 2 ^ (if k = 0 then 40 else 14) = 0 := by
  have hsum : (if k = 0 then 40 else 14) + (if k = 0 then 24 else 50) = 64 := by split <;> rfl
  rw [Bool.and_eq_true, beq_iff_eq, beq_iff_eq, bitsOf_top_eq_zero b rfl, bitsOf_top_eq_zero a hsum]

/-- The context after a level of the shadow table is written (R159). -/
def Context.wrLevel (c : Context) (k : Nat) (a b : Word) : Context :=
  { c with mat := { c.mat with shadow := putD (putD c.mat.shadow (2 * k) a 1) (2 * k + 1) b 0 } }

theorem Context.wrLevel_levelA (c : Context) (k : Nat) (a b : Word) :
    lookD (c.wrLevel k a b).mat.shadow (2 * k) 1 = a := by
  rw [Context.wrLevel, lookD_putD_other_key _ _ _ _ _ _ (by omega), lookD_putD_same]

theorem Context.wrLevel_levelB (c : Context) (k : Nat) (a b : Word) :
    lookD (c.wrLevel k a b).mat.shadow (2 * k + 1) 0 = b := by
  rw [Context.wrLevel, lookD_putD_same]

section
variable {s : State} {c : Context} (h : runs s c)
include h

section
variable (o : McfgOp) (hk : o.k.toNat < 6)
include hk

theorem execMcfg_writes (hgo : c.mat.go = false) (hb : (c.rdS s.eng o.b).toNat / 2 ^ 32 = 0)
    (ha : (c.rdS s.eng o.a).toNat / 2 ^ (if o.k.toNat = 0 then 40 else 14) = 0) :
    execMcfg o s = becomes s ((c.wrLevel o.k.toNat (c.rdS s.eng o.a) (c.rdS s.eng o.b)).advance s.eng) := by
  refine runC_ok h ?_
  rw [check_bind_true (decide_eq_true hk), check_bind_true ((mcfg_reserved_iff ..).2 ⟨hb, ha⟩),
    await_bind_true (by rw [hgo]; rfl)]
  rfl

theorem execMcfg_waits (hgo : c.mat.go = true) (hb : (c.rdS s.eng o.b).toNat / 2 ^ 32 = 0)
    (ha : (c.rdS s.eng o.a).toNat / 2 ^ (if o.k.toNat = 0 then 40 else 14) = 0) : execMcfg o s = waits s := by
  refine runC_wait h ?_
  rw [check_bind_true (decide_eq_true hk), check_bind_true ((mcfg_reserved_iff ..).2 ⟨hb, ha⟩),
    await_bind_false (by rw [hgo]; rfl)]

theorem execMcfg_traps (hb : (c.rdS s.eng o.b).toNat / 2 ^ 32 ≠ 0) :
    execMcfg o s = traps s c { code := .illop } := by
  refine runC_trap h ?_
  rw [check_bind_true (decide_eq_true hk), check_bind_false]
  exact Bool.eq_false_iff.2 fun hr => hb ((mcfg_reserved_iff ..).1 hr).1
end

theorem execMgo_apart (hgo : c.mat.go = false) (ht : c.together = false) :
    execMgo s = becomes s ({ c with mat := { c.mat with go := true } }.advance s.eng) := by
  refine runC_ok h ?_
  rw [await_bind_true (by rw [hgo]; rfl), if_neg (by simp [ht])]

theorem execMgo_waits (hgo : c.mat.go = true) : execMgo s = waits s :=
  runC_wait h (await_bind_false (by rw [hgo]; rfl) _)

theorem execMwait_passes (hm : c.mat.go = false ∧ c.mat.running = false) : execMwait s = passes s c :=
  runC_ok h (await_bind_true (by simp [hm]) _)

theorem execMwait_waits (hm : c.mat.go = true ∨ c.mat.running = true) : execMwait s = waits s :=
  runC_wait h (await_bind_false (by rcases hm with hm | hm <;> simp [hm]) _)

theorem execMstat_writes (d : Reg) : execMstat d s = writes s c d (BitVec.ofNat 64
    ((if c.mat.running then 1 else 0) + (if c.mat.go then 2 else 0) + c.mat.steps % 2 ^ 32 * 2 ^ 32)) :=
  runC_ok h rfl
end

/-- A nest is set up, started, awaited and reported as R159 to R161 say. -/
theorem nestControl : NestControl := by
  intro s c o d h
  refine ⟨fun hgo hk hb ha => ⟨_, execMcfg_writes h o hk hgo hb ha, ?_, ?_, ?_, ?_, ?_⟩,
    fun hgo hk => execMcfg_waits h o hk hgo, execMcfg_traps h o, execMgo_apart h, execMgo_waits h,
    execMwait_passes h, execMwait_waits h, execMstat_writes h d⟩
  · simpa using c.wrLevel_levelA o.k.toNat _ _
  · simpa using c.wrLevel_levelB o.k.toNat _ _
  all_goals simp [Context.wrLevel]

/-- Settles O10: each meaning goes on or stops at what it checks and awaits. -/
theorem exchangeAndMatrixControl : Obligations.ExchangeAndMatrixControl := ⟨exchangeReads, nestControl⟩

end Sys2Proof.Machine
end

section
/-!
An instruction that computes in its own context runs a meaning of that context alone (R28, R204), and so touches nothing
of another launch.
-/
namespace Sys2Proof.Machine
open Sys2Proof.Says

/-- What is answered is a meaning of the running context alone, run there. -/
def RunsAlone (s : State) (o : HO) : Prop := ∃ f, o = runC s f

section
variable (s : State)

theorem alu2_runsAlone (f : Word → Word) (o : R2) : RunsAlone s (alu2 f o s) := ⟨_, rfl⟩
theorem alu3_runsAlone (f : Word → Word → Word) (o : R3) : RunsAlone s (alu3 f o s) := ⟨_, rfl⟩
theorem alu4_runsAlone (f : Word → Word → Word → Word) (o : R4) : RunsAlone s (alu4 f o s) := ⟨_, rfl⟩
theorem aluImm_runsAlone (f : Word → Word → Word) (o : I2) : RunsAlone s (aluImm f o s) := ⟨_, rfl⟩
theorem aluSh_runsAlone (f : Word → Nat → Word) (o : Sh) : RunsAlone s (aluSh f o s) := ⟨_, rfl⟩
theorem fop3_runsAlone (f : RMode → Val → Val → Val × Flags) (o : F3) : RunsAlone s (fop3 f o s) := ⟨_, rfl⟩
theorem fminmax_runsAlone (b : Bool) (o : F3) : RunsAlone s (fminmax b o s) := ⟨_, rfl⟩
theorem fcmp_runsAlone (f : Ordering → Bool) (b : Bool) (o : F3) : RunsAlone s (fcmp f b o s) := ⟨_, rfl⟩
theorem predOp_runsAlone (f : BitVec 128 → BitVec 128 → BitVec 128) (o : PP) : RunsAlone s (predOp f o s) := ⟨_, rfl⟩
theorem v3Exec_runsAlone (op : V3Op) (o : V3) : RunsAlone s (v3Exec op o s) := ⟨_, rfl⟩
theorem v2Exec_runsAlone (op : V2Op) (o : V2) : RunsAlone s (v2Exec op o s) := ⟨_, rfl⟩

/-- An instruction that acts on its own context alone runs a meaning of that context. -/
theorem exec_runsAlone {i : Instr} (hi : ownContextOnly i = true) : RunsAlone s (exec i s) := by
  unfold exec
  cases i with
  | nop | bfi _ | fsqrt _ | ffma _ | fcvt _ | fclass _ | eget _ | epeek _ | mcfg _ | mgo | mwait | mstat _ | movi _
  | movhi _ | lea _ | syswrSpm _ | syswrFpc _ | syswrTxw _ | prio _ | heart | trap _ | idle | br _ | bc _ | call _
  | ret _ | loop _ | tret | vcmp _ | pcnt _ | pseti _ | tzero _ | trowld _ | trowst _ | tcolld _ | tcolst _ | tld _
  | tst _ | tmma _ | tout _ | orel _ | spmode _ | spld _ | spst _ | spmov _ | spclr _ | spnorm _ | spup _ | spdn _
  | sbar _ | hcfg _ | hstat _ | waitf _ | waite _ | tkwait _ | waitseq _ | seqrd _ | cstat _ | cwait _ => exact ⟨_, rfl⟩
  | clz _ | ctz _ | popc _ => exact alu2_runsAlone ..
  | add _ | sub _ | mul _ | mulh _ | mulhz _ | div _ | divz _ | rem _ | remz _ | and _ | or _ | xor _ | andn _
  | shl _ | shr _ | sha _ | rotl _ | min _ | minz _ | max _ | maxz _ | seq _ | sne _ | slt _ | sltz _ | sle _
  | slez _ => exact alu3_runsAlone ..
  | sel _ | bfx _ | bfxz _ => exact alu4_runsAlone ..
  | addi _ | andi _ | ori _ | xori _ => exact aluImm_runsAlone ..
  | shli _ | shri _ | shai _ | rotli _ => exact aluSh_runsAlone ..
  | fadd _ | fsub _ | fmul _ | fdiv _ => exact fop3_runsAlone ..
  | fmin _ | fmax _ => exact fminmax_runsAlone ..
  | feq _ | flt _ | fle _ => exact fcmp_runsAlone ..
  | vadd _ | vsub _ | vmul _ | vfma _ | vfms _ | vmin _ | vmax _ | vdiv _ | vand _ | vor _ | vxor _ | vshl _
  | vshr _ | vsha _ | vadds _ | vsubs _ | vmulh _ | vsel _ | vperm _ | vrotl _ | vzip _ | vunzip _ | vbcast _ =>
    exact v3Exec_runsAlone ..
  | vabs _ | vneg _ | vnot _ | vmov _ | vsqrt _ | vrsqrt _ | vrcp _ | vexp2 _ | vlog2 _ | vtanh _ | vsig _ | verf _
  | vcvt _ | vwiden _ | vnarrow _ | vhad _ | vqnt _ | vdqnt _ | vradd _ | vrmax _ | vrmin _ | vscan _ | vcompr _
  | vexpd _ | viota _ => exact v2Exec_runsAlone ..
  | pand _ | por _ | pxor _ | pnot _ | pfirst _ => exact predOp_runsAlone ..
  | _ => cases hi
end

/-- Settles O55: such an instruction runs a meaning of its own context, and neither its answer nor a fault that it takes
reaches beyond the context's launch (`runC_sameBut`). -/
theorem computingTouchesNobodyElse : Obligations.ComputingTouchesNobodyElse := by
  intro i s t c hi hc h
  obtain ⟨f, hf⟩ := exec_runsAlone s hi
  have hsame : SameBut c.bind.lid s t := runC_sameBut hc (hf ▸ h)
  exact ⟨hsame.mem, hsame.launches, hsame.circuits, hsame.cards, hsame.links, hsame.agenda,
    fun q x _ hq hx => hsame.others q x hq hx⟩

end Sys2Proof.Machine
end

section
/-!
Control transfer (R25, R74, R102 to R105): where a branch, a call, a return and a table jump go, and that every engine
follows while one program counter governs.
-/
namespace Sys2Proof.Machine
open Sys2Proof.Says

/-! Places (R25, R28). -/

@[simp] theorem SixPos.get_map (f : EnginePos → EnginePos) (p : SixPos) (e : Engine) : (p.map f).get e = f (p.get e) := by
  cases e <;> rfl

section
variable {c : Context} (h : c.together = true)
include h

/-- With one program counter every engine moves. -/
theorem Context.posOf_move_of_together (e g : Engine) (f : EnginePos → EnginePos) :
    (c.move e f).posOf g = f (c.posOf g) := by
  unfold Context.move
  split
  · next hh => simp [Context.posOf, hh]
  · next hh => simp [Context.posOf, hh]

/-- With one program counter every engine stands at a taken branch's target. -/
theorem Context.posOf_branchTo_of_together (addr slot : Nat) (g : Engine) :
    (c.branchTo addr slot).posOf g = EnginePos.jump addr slot (c.posOf g) := by
  rw [Context.branchTo, Context.resolve, if_pos h, Context.posOf_move_of_together h]
end

/-- After slot 7 comes slot 0 of the next record. -/
theorem EnginePos.next_of_last {p : EnginePos} (h : p.slot = 7) : p.next.slot = 0 ∧ p.next.addr = (p.addr + 64) % 2 ^ 56 := by
  rw [EnginePos.next, if_pos h]; exact ⟨rfl, rfl⟩

/-- Before slot 7 the record goes on. -/
theorem EnginePos.next_of_lt {p : EnginePos} (h : p.slot < 7) : p.next.slot = p.slot + 1 ∧ p.next.addr = p.addr := by
  rw [EnginePos.next, if_neg (by omega)]; exact ⟨rfl, rfl⟩

/-- One program counter moves every engine (R25, R102). -/
theorem everyEngineFollows : EveryEngineFollows := by
  intro c e f addr slot h
  rw [Context.posOf_branchTo_of_together h, Context.advance, Context.posOf_move_of_together h]
  exact ⟨rfl, rfl, EnginePos.next_of_last, EnginePos.next_of_lt⟩

/-! Branches, calls and returns (R102 to R104). -/

section
variable {s : State} {c : Context} (h : runs s c)
include h

theorem execBr_becomes (o : BrOp) :
    execBr o s = becomes s (c.branchTo (targetAddr (c.posOf .ctl) o.off) o.slot.toNat) :=
  runC_ok h rfl

theorem execBc_taken (o : BcOp) (hc : c.cond .ctl o.ck o.x = true) :
    execBc o s = becomes s (c.branchTo (targetAddr (c.posOf .ctl) o.off) o.slot.toNat) :=
  runC_ok h (by rw [if_pos hc])

theorem execBc_notTaken (o : BcOp) (hc : c.cond .ctl o.ck o.x = false) : execBc o s = becomes s c.branchPast :=
  runC_ok h (by rw [if_neg (by simp [hc])])

theorem execCall_becomes (o : CallOp) :
    execCall o s = becomes s ((c.wrS o.x (BitVec.ofNat 64 (c.posOf .ctl).next.word)).branchTo
      (targetAddr (c.posOf .ctl) o.off) o.slot.toNat) :=
  runC_ok h rfl

theorem execRet_becomes (x : Reg) :
    execRet x s = becomes s (c.branchTo (codeAddr (c.rdS .ctl x).toNat) (codeSlot (c.rdS .ctl x).toNat)) :=
  runC_ok h rfl
end

/-- In a padded task p1 reads as zero (R14). -/
theorem Context.rdP_one_of_pad {c : Context} (h : c.bind.pad = true) (e : Engine) : c.rdP e 1 = 0 := by
  simp [Context.rdP, h]

/-- In a padded task a branch on no lane of p1 is taken. -/
theorem Context.cond_none_of_pad {c : Context} (h : c.bind.pad = true) (e : Engine) : c.cond e .none 1 = true :=
  beq_iff_eq.2 (c.rdP_one_of_pad h e)

/-- In a padded task a branch on any lane of p1 is not taken. -/
theorem Context.cond_any_of_pad {c : Context} (h : c.bind.pad = true) (e : Engine) : c.cond e .any 1 = false :=
  bne_eq_false_iff_eq.2 (c.rdP_one_of_pad h e)

/-- Branches, calls and returns go where R102 to R104 say. -/
theorem branches : Branches := fun _ _ b k l x h =>
  ⟨execBr_becomes h b, execBc_taken h k, execBc_notTaken h k,
    fun hp hx hk => execBc_taken h k (hk ▸ hx ▸ Context.cond_none_of_pad hp .ctl),
    fun hp hx hk => execBc_notTaken h k (hk ▸ hx ▸ Context.cond_any_of_pad hp .ctl),
    execCall_becomes h l, execRet_becomes h x⟩

/-! The table jump (R105). -/

/-- A read at an address that is not a multiple of its alignment raises ALIGN before every other fault (R243). -/
theorem readMem_misaligned (s : State) (w : Who) (ver : Nat) (ok : Trans → Bool) {align va : Nat} (len : Nat)
    (h : va % align ≠ 0) :
    readMem s w ver ok align va len = .error (.trap { code := .align, addr := va % 2 ^ 56 }) := by
  rw [readMem, accessCheck, check_bind_false (beq_eq_false_iff_ne.2 h)]
  rfl

section
variable {s : State} {c : Context} (h : runs s c) (o : JmptOp)
include h

theorem execJmpt_jumps {v : Nat} {ps : List Part}
    (hr : readMem s (c.who s.cur) c.r.gver notWs 8 (c.rdS .ctl o.y + 8 * c.rdS .ctl o.x).toNat 8 = .ok (v, ps)) :
    execJmpt o s =
      .next ((s.noteParts (c.who s.cur) ps).setCtx s.cur (c.branchTo (codeAddr v) (codeSlot v))) :=
  runS_ok h (by simp only [hr]; rfl)

theorem execJmpt_traps {x : Trap}
    (hr : readMem s (c.who s.cur) c.r.gver notWs 8 (c.rdS .ctl o.y + 8 * c.rdS .ctl o.x).toNat 8 = .error (.trap x)) :
    execJmpt o s = traps s c x :=
  runS_trap h (by simp only [hr]; rfl)
end

/-- JMPT goes where the word that it reads names, or takes the fault of the read (R105). -/
theorem tableJump : TableJump := fun s c o h =>
  ⟨fun _ ps hr => ⟨_, execJmpt_jumps h o hr, State.ctx?_setCtx_same .., State.noteParts_mem s (c.who s.cur) ps⟩,
    fun _ hr => execJmpt_traps h o hr,
    fun ha => execJmpt_traps h o (readMem_misaligned s _ _ _ 8 ha)⟩

/-- Settles O18: the transfers, and the places of the engines after them. -/
theorem controlTransfer : Obligations.ControlTransfer := ⟨branches, everyEngineFollows, tableJump⟩

end Sys2Proof.Machine
end

section
/-!
The end of a task (R31, R32, R277, R313, R321): what it frees, and what discarding the cards that go no further leaves of a
task that has none.
-/
namespace Sys2Proof.Machine
open Sys2Proof.Says

/-! What the end frees (R31, R32, R219). -/

section
variable (s : State) (pos : Nat) (c : Context) (f : Bool)

theorem finishTask_ctxs : (finishTask s pos c f).ctxs = del s.ctxs pos := by
  unfold finishTask; dsimp only; split <;> rfl

theorem finishTask_dies : (finishTask s pos c f).dies = (s.setDie (dieOf pos)
    { s.die (dieOf pos) with slots := del (s.die (dieOf pos)).slots (pos % 128) }).dies := by
  unfold finishTask; dsimp only; split <;> rfl

theorem finishTask_launches {l : Launch} (h : s.launch? c.bind.lid = some l) :
    (finishTask s pos c f).launches = put s.launches c.bind.lid
      { l with
        left := l.left - 1
        faulted := l.faulted || f
        endedTasks := l.endedTasks ++ [{ wid := c.bind.wid, arrivals := c.barCount }] } := by
  unfold finishTask
  dsimp only
  split
  · next hn => cases h.symm.trans hn
  · next hl => cases h.symm.trans hl; rfl

/-- The context and its position are freed, and the launch counts one task less. -/
theorem finishTask_frees {l : Launch} (h : s.launch? c.bind.lid = some l) :
    let t := finishTask s pos c f
    t.ctx? pos = none ∧ find? (t.die (dieOf pos)).slots (pos % 128) = none ∧
      (∃ l', t.launch? c.bind.lid = some l' ∧ l'.left = l.left - 1 ∧ l'.faulted = (l.faulted || f)) ∧ t.mem = s.mem := by
  refine ⟨?_, ?_, ?_, finishTask_mem s pos c f⟩
  · rw [State.ctx?, finishTask_ctxs, find?_del_same]
  · rw [State.die, finishTask_dies, State.setDie, lookD_putD_same, find?_del_same]
  · exact ⟨_, by rw [State.launch?, finishTask_launches s pos c f h, find?_put_same], rfl, rfl⟩

/-- Every other context stays. -/
theorem finishTask_ctx?_other {p : Nat} (h : p ≠ pos) : (finishTask s pos c f).ctx? p = s.ctx? p := by
  rw [State.ctx?, finishTask_ctxs, find?_del_other _ _ _ h, State.ctx?]
end

/-! A task without cards (R297, R313). -/

/-- No card is the task's. -/
def NoCards (s : State) (lid wid : Nat) : Prop := ∀ e ∈ s.cards, e.2.of lid wid = false

section
variable {s : State} {lid wid : Nat} (h : NoCards s lid wid)
include h

theorem findCard?_of_noCards (q seq : Nat) : findCard? s lid wid q seq = none :=
  List.find?_eq_none.2 fun e he => by simp [h e he]

/-- DONE has no card to pass. -/
theorem doneFrom_of_noCards (q fuel d : Nat) : doneFrom s lid wid q fuel d = d := by
  cases fuel with
  | zero => rfl
  | succ n => rw [doneFrom, findCard?_of_noCards h]

theorem stuckRound_of_noCards (l : List Nat) : stuckRound s lid wid l = [] := by
  rw [stuckRound, List.filter_eq_nil_iff.2 fun e he => by simp [h e he], List.map_nil]

theorem stuckFrom_of_noCards (fuel : Nat) : stuckFrom s lid wid fuel [] = [] := by
  induction fuel with
  | zero => rfl
  | succ n ih => rw [stuckFrom, stuckRound_of_noCards h, ih]

theorem cardsSettled_of_noCards (c : Context) : cardsSettled s lid wid c = true := by
  unfold cardsSettled
  simp only [doneFrom_of_noCards h, beq_self_eq_true, Bool.and_eq_true, List.all_eq_true]
  exact ⟨fun e he => by simp [h e he], fun _ _ => trivial⟩

theorem advanceDone_of_noCards (q : Nat) : advanceDone s lid wid q = s := by
  unfold advanceDone
  split
  · simp [doneFrom_of_noCards h]
  · rfl
end

/-- The chains after FAILED and ECODE are cleared on each of them (R313). -/
def Context.clearChains (c : Context) : Context :=
  { c with chains := c.chains.map fun e => (e.1, { e.2 with failed := false, ecode := 0, failedSeq := 0 }) }

@[simp] theorem Context.clearChains_bind (c : Context) : c.clearChains.bind = c.bind := rfl

/-- Discarding what goes no further of a task without cards clears its chains. -/
theorem discardStuck_of_noCards {s : State} {lid wid : Nat} (h : NoCards s lid wid) :
    discardStuck s lid wid = updTask s lid wid Context.clearChains := by
  have hdone : ∀ qs : List Nat, qs.foldl (fun t q => advanceDone t lid wid q) (updTask s lid wid Context.clearChains) =
      updTask s lid wid Context.clearChains := by
    intro qs
    induction qs with
    | nil => rfl
    | cons q r ih => rw [List.foldl_cons, advanceDone_of_noCards (s := updTask s lid wid Context.clearChains) h, ih]
  unfold discardStuck
  simp only [stuckCards, stuckFrom_of_noCards h, List.contains_nil, Bool.false_eq_true, if_false, List.map_id']
  exact hdone _

/-- What a change of the values that a test names leaves at a key. -/
theorem find?_map_if {α : Type} (m : Store α) (p : α → Bool) (g : α → α) (q : Nat) :
    find? (m.map fun e => if p e.2 then (e.1, g e.2) else e) q = (find? m q).map fun x => if p x then g x else x := by
  induction m with
  | nil => rfl
  | cons e r ih =>
    obtain ⟨k, w⟩ := e
    by_cases hk : k = q
    · by_cases hw : p w <;> simp [find?, hk, hw]
    · by_cases hw : p w <;> simpa [find?, hk, hw] using ih

/-- A change of a task's context is made where it stands. -/
theorem updTask_ctx?_own {s : State} {pos : Nat} {c : Context} (hc : s.ctx? pos = some c) (g : Context → Context) :
    (updTask s c.bind.lid c.bind.wid g).ctx? pos = some (g c) := by
  rw [State.ctx?] at hc
  rw [State.ctx?, updTask, find?_map_if s.ctxs (fun x => x.bind.lid == c.bind.lid && x.bind.wid == c.bind.wid), hc]
  simp

/-! END (R31, R32, R277, R313, R321). -/

/-- Without recorded releases nothing takes effect. -/
theorem applyReleases_of_nil (pos : Nat) (s : State) {c : Context} (h : c.releases = []) : applyReleases pos s c = (s, c) := by
  rw [applyReleases, h, List.foldl_nil]
  simp [← h]

/-- The end of a task that its handler or the firmware ends, where no card of it is left. -/
theorem forcedEnd_of_noCards {s : State} {pos : Nat} {c : Context} (hrel : c.releases = [])
    (hreq : requestsOut s c.bind.lid c.bind.wid = false) (hcards : NoCards s c.bind.lid c.bind.wid) :
    forcedEnd s pos c =
      finishTask (updTask (s.setCtx pos c) c.bind.lid c.bind.wid Context.clearChains) pos c.clearChains true := by
  have hset : NoCards (s.setCtx pos c) c.bind.lid c.bind.wid := hcards
  unfold forcedEnd
  simp only [hreq, cardsSettled_of_noCards hcards, applyReleases_of_nil pos s hrel, discardStuck_of_noCards hset,
    updTask_ctx?_own (State.ctx?_setCtx_same s pos c), Option.getD_some]
  rw [cardsSettled_of_noCards (s := updTask (s.setCtx pos c) c.bind.lid c.bind.wid Context.clearChains) hcards]
  rfl

section
variable {s : State} {c : Context} (h : runs s c)
include h

theorem execEndTask_redErr {r : RedErr} {rest : List RedErr} (hend : c.ending = false) (hred : c.redErrs = r :: rest) :
    execEndTask s = .next (takeTrap s s.cur { c with redErrs := rest } .ctl (redTrap r 7)) := by
  simp only [execEndTask, show s.ctx? s.cur = some c from h, hend, hred]
  rfl

theorem execEndTask_forced (hend : c.ending = true ∨ c.handler = true ∧ c.redErrs = []) :
    execEndTask s = .next (forcedEnd s s.cur c) := by
  simp only [execEndTask, show s.ctx? s.cur = some c from h]
  by_cases he : c.ending = true
  · rw [if_pos he]
  · obtain ⟨hh, hred⟩ := hend.resolve_left he
    rw [if_neg he, hred]
    exact if_pos hh

theorem execEndTask_finishes (hend : c.ending = false) (hred : c.redErrs = []) (hh : c.handler = false)
    (hrun : c.mat.running = false) (hgo : c.mat.go = false) (hrel : c.releases = [])
    (hreq : requestsOut s c.bind.lid c.bind.wid = false) (hset : cardsSettled s c.bind.lid c.bind.wid c = true)
    (hfail : failedChain? c = none) : execEndTask s = .next (finishTask s s.cur c false) := by
  simp only [execEndTask, show s.ctx? s.cur = some c from h, hend, hred, hh, hrun, hgo, hrel, hreq, hset, hfail]
  rfl
end

/-- Settles O17: END answers with the end of the task, at once or by force, and the end frees what is the task's; an ECCU of
a RED comes first. -/
theorem endFreesTheTask : Obligations.EndFreesTheTask := by
  intro s c l h hl hrel hreq
  refine ⟨fun hh hend hred hrun hgo hset hfail => ?_, fun hend hcards => ?_, fun _ _ => execEndTask_redErr h⟩
  · refine ⟨_, execEndTask_finishes h hend hred hh hrun hgo hrel hreq hset hfail, ?_,
      fun p hp => finishTask_ctx?_other s s.cur c false hp⟩
    simpa using finishTask_frees s s.cur c false hl
  · refine ⟨_, execEndTask_forced h hend, ?_⟩
    rw [forcedEnd_of_noCards hrel hreq hcards]
    have hfrees := finishTask_frees (updTask (s.setCtx s.cur c) c.bind.lid c.bind.wid Context.clearChains) s.cur
      c.clearChains true hl
    simpa only [Context.clearChains_bind, Bool.or_true, updTask_mem, State.setCtx_mem] using hfrees

end Sys2Proof.Machine
end

section
/-!
A step at which the agenda names an engine (R25, R26, R28, R187, R206): from the act to the arbitration, from the arbitration
to the engine's slot, and from the slot to `exec` of what it decodes to.
-/
namespace Sys2Proof.Machine
open Sys2Proof.Says

/-- What follows a next state, and leaves a stop as it is. -/
def mapNext (f : State → State) : HO → HO
  | .next t => .next (f t)
  | o => o

theorem keepFetch_eq_mapNext (s : State) (pos : Nat) (c : Context) (p : EnginePos) :
    keepFetch s pos c p = mapNext (noteFetch s pos c p) := by
  funext o; cases o <;> rfl

theorem mapNext_mapNext (f g : State → State) (o : HO) : mapNext f (mapNext g o) = mapNext (fun t => f (g t)) o := by
  cases o <;> rfl

/-- The slot at a place of a record that is fetched. -/
theorem fetchSlot_of_fetchRecord {s : State} {w : Who} {p : EnginePos} {r : BitVec 512}
    (h : fetchRecord s w p.addr = .ok r) : fetchSlot s w p = .ok (slotIn r p.slot) := by
  rw [fetchSlot, h]; rfl

/-! From the agenda to the engine (R206). -/

theorem step_of_engine_act {s : State} {pos : Nat} {e : Engine} {rest : List Act} (h : s.agenda = .engine pos e :: rest) :
    step s = bumpFree (countWaits s (withSteps (engineAct { s with agenda := rest } pos e))) := by
  rw [step, oneStep, nextAct, h]; rfl

section
variable {s : State} {pos : Nat} {e : Engine} {c : Context} (hc : s.ctx? pos = some c)
include hc

/-- An engine that stands at its own slot moves when its core's arbitration serves its context. -/
theorem engineAct_of_granted {k : Nat} (hown : atOwnSlot s pos c e = true)
    (hg : granted s (coreOf pos) e = some (pos % 4, k)) :
    engineAct s pos e = noteRr (coreOf pos) e (pos % 4, k) (engineStep s pos e) := by
  simp only [engineAct, hc, hown, hg, if_true, serve]
  rw [show 4 * coreOf pos + pos % 4 = pos from Nat.div_add_mod pos 4]

/-- An engine of a context that issues, and that no matrix nest keeps, goes to its slot. -/
theorem engineStep_of_issues (hs : c.still = false) (hm : ¬ (e = .mat ∧ c.mat.running = true ∧ c.handler = false)) :
    engineStep s pos e =
      if c.together then mapNext (noteFetch s pos c (c.posOf .ctl)) (issueTogether s pos c e)
      else mapNext (noteFetch s pos c (c.pos.get e)) (issueApart s pos c e) := by
  simp only [Context.still, Bool.or_eq_false_iff] at hs
  obtain ⟨⟨⟨⟨hhalt, hpre⟩, hpend⟩, hend⟩, hidle⟩ := hs
  simp only [engineStep, hc, hhalt, hpre, hpend, hend, hidle, if_neg hm, keepFetch_eq_mapNext]
  rfl

end

/-- With one program counter every engine stands at its own slot. -/
theorem atOwnSlot_of_together (s : State) (pos : Nat) {c : Context} (e : Engine) (ht : c.together = true) :
    atOwnSlot s pos c e = true := by
  simp [atOwnSlot, ht]

/-- An engine stands at its own slot where it owns the one that is fetched. -/
theorem atOwnSlot_of_owner {s : State} {pos : Nat} {c : Context} {e : Engine} {x : SlotAt}
    (hx : fetchSlot s (c.who pos) (c.pos.get e) = .ok x) (he : e = x.owner c) : atOwnSlot s pos c e = true := by
  simp [atOwnSlot, hx, ← he]

/-! From the slot to `exec` (R25, R26, R28, R187). -/

section
variable {s : State} {pos : Nat} {c : Context} {e : Engine} {x : SlotAt} {i : Instr}

/-- The engine that owns the slot at the one program counter performs what it decodes to, where nothing holds it. -/
theorem issueTogether_of_slot (hx : fetchSlot s (c.who pos) (c.posOf .ctl) = .ok x) (hin : x.inside (c.posOf .ctl) = false)
    (he : e = x.owner c) (hd : x.dec = .ok i) (hown : ownError c i (footAt s c e pos i) = none)
    (hb : boardHold s pos c i (footAt s c e pos i) = false)
    (hh : c.handler = true ∨ (soHold s pos c (c.posOf e).idx (footAt s c e pos i) [] = false ∧
      redHold s pos c e (c.posOf e).idx i (footAt s c e pos i) = false ∧
      sbarHold s c (c.posOf e).idx (footAt s c e pos i) [] = false)) :
    issueTogether s pos c e =
      mapNext (afterTogether pos c e (some (i, footAt s c e pos i))) (exec i { s with cur := pos, eng := e }) := by
  have hfree : (boardHold s pos c i (footAt s c e pos i) || (!c.handler &&
      (soHold s pos c (c.posOf e).idx (footAt s c e pos i) [] || redHold s pos c e (c.posOf e).idx i (footAt s c e pos i) ||
        sbarHold s c (c.posOf e).idx (footAt s c e pos i) []))) = false := by
    rcases hh with hh | ⟨hso, hred, hsb⟩
    · simp [hb, hh]
    · simp [hb, hso, hred, hsb]
  unfold issueTogether
  simp only [hx, hin, ← he, hd, hfree, hown]
  cases h : exec i { s with cur := pos, eng := e } <;> simp [issueAt, h, mapNext]

/-- An engine at its own program counter performs the slot it owns, where neither the span nor a slower engine holds it. -/
theorem issueApart_of_slot (hspan : spanHold c e = false) (hahead : aheadHold c e = false)
    (hx : fetchSlot s (c.who pos) (c.pos.get e) = .ok x) (hin : x.inside (c.pos.get e) = false)
    (he : e = x.owner c) (hd : x.dec = .ok i) : issueApart s pos c e = performApart s pos c e i := by
  unfold issueApart
  simp only [hspan, hahead, hx, hin, ← he, hd]
  rfl
end

/-- The context once the cycles of DLY and of the sum-product banks that an engine waits for have passed (R182, R192). -/
def Context.waitedFor (c : Context) (e : Engine) (i : Instr) (f : Foot) : Context :=
  ((if syncs i then c.markWaited e else c).awaitMem e f).passCycles e (max (dlyWait c e f) (yWait c i))

/-- That context as the engine issues: where a line that the instruction reads is still being written, the engine has stalled
for a time that is not counted (R192). -/
def Context.stalled (s : State) (c : Context) (e : Engine) (i : Instr) (f : Foot) : Context :=
  let d := c.waitedFor e i f
  if lateLine s d e f = none then d else d.markWaited e

section
variable {s : State} {pos : Nat} {c : Context} {e : Engine} {i : Instr}

/-- An engine issues the instruction that nothing holds and whose parts are correct, unless it raises LATVIOL. -/
theorem performApart_of_free (hhold : performHold s pos c e i = false) (hown : ownError c i (footAt s c e pos i) = none)
    (hlate : lateLine s (c.waitedFor e i (footAt s c e pos i)) e (footAt s c e pos i) = none ∨ c.r.latmode = false ∨
      c.r.span = 0 ∨ c.stepping = true) :
    performApart s pos c e i =
      issueNow s pos (Context.stalled s c e i (footAt s c e pos i)) e i (footAt s c e pos i) := by
  unfold performApart
  simp only [hhold, hown]
  rw [if_neg Bool.false_ne_true]
  change (match lateLine s (c.waitedFor e i (footAt s c e pos i)) e (footAt s c e pos i) with
    | some n => _ | none => _) = _
  cases h : lateLine s (c.waitedFor e i (footAt s c e pos i)) e (footAt s c e pos i) with
  | none => simp [Context.stalled, h]; rfl
  | some n =>
    have hno : ¬ (c.r.latmode = true ∧ c.r.span ≠ 0 ∧ c.stepping = false) := by
      rintro ⟨hl, hs, hst⟩
      simp [h, hl, hs, hst] at hlate
    simp only [Context.stalled, h, if_neg hno]
    rfl

/-- An issue apart is `exec` of the instruction on what its place in program order reads. -/
theorem issueNow_eq_mapNext (f : Foot) :
    let k := (c.pos.get e).idx
    let ls := lagging s pos c k
    let bs := barsBefore c ls
    issueNow s pos c e i f =
      mapNext (afterApart pos c ⟨e, i, f, dlyLat s c e pos i, owedNew c k f ls, bs⟩)
        (exec i { s.setCtx pos (c.asRead s.freeCtr bs e k f) with cur := pos, eng := e }) := by
  intro k ls bs
  show (match exec i { s.setCtx pos (c.asRead s.freeCtr bs e k f) with cur := pos, eng := e } with
    | .next t => _ | o => o) = _
  cases exec i { s.setCtx pos (c.asRead s.freeCtr bs e k f) with cur := pos, eng := e } <;> rfl
end

/-- Settles O56: the agenda's act is the engine's, the arbitration serves its context, and the slot that it owns decodes to the
instruction that `exec` performs. -/
theorem stepRunsTheDecodedInstruction : Obligations.StepRunsTheDecodedInstruction := by
  intro s pos k e rest c r i s0 p x f adds hag hc hstill hmat hfetch hdec hin he hg hown
  have hc0 : s0.ctx? pos = some c := hc
  have hslot : fetchSlot s0 (c.who pos) p = .ok x := fetchSlot_of_fetchRecord hfetch
  have hstep (ho : atOwnSlot s0 pos c e = true) : step s = adds (engineStep s0 pos e) := by
    rw [step_of_engine_act hag, engineAct_of_granted hc0 ho hg]
  refine ⟨fun ht hb hh => ?_, ?_⟩
  · have hp : p = c.posOf .ctl := if_pos ht
    rw [hp] at hslot hin
    rw [hstep (atOwnSlot_of_together s0 pos e ht), engineStep_of_issues hc0 hstill hmat, if_pos ht,
      issueTogether_of_slot hslot hin he hdec hown hb hh, mapNext_mapNext, ← hp]
    cases exec i { s0 with cur := pos, eng := e } <;> rfl
  · intro ht hspan hahead hhold d late hlate c1 n ls bs
    have hp : p = c.pos.get e := if_neg (by simp [ht])
    rw [hp] at hslot hin
    rw [hstep (atOwnSlot_of_owner hslot he), engineStep_of_issues hc0 hstill hmat, if_neg (by simp [ht]),
      issueApart_of_slot hspan hahead hslot hin he hdec, performApart_of_free hhold hown hlate,
      issueNow_eq_mapNext, mapNext_mapNext, ← hp]
    change adds (mapNext _ (exec i { s0.setCtx pos (c1.asRead s0.freeCtr bs e n f) with cur := pos, eng := e })) = _
    cases exec i { s0.setCtx pos (c1.asRead s0.freeCtr bs e n f) with cur := pos, eng := e } <;> rfl

end Sys2Proof.Machine
end

section
/-!
What the vector instructions share: lines as elements (R15), sources and destinations inside the window (R22, R71), and fills of
the exchange registers (R17, R202).
-/
namespace Sys2Proof.Machine
open Sys2Proof.Says

/-! Elements of lines and of sources (R15, R71). -/

/-- A line's list of elements, by the elements that R15 names. -/
theorem lineEls_eq_map_elem (l : Line) (t : ElemType) : lineEls l t.width = (List.range t.count).map (elem l t.width) := by
  simp [lineEls, lineEl, elem, ElemType.count, Nat.shiftRight_eq_div_pow]

/-- A packed number's element `i` is the `i`-th of the list, and zero past its end. -/
theorem packEls_elem (w : Nat) (xs : List Nat) (i : Nat) : packEls w xs / 2 ^ (w * i) % 2 ^ w = xs.getD i 0 % 2 ^ w := by
  induction xs generalizing i with
  | nil => simp [packEls]
  | cons x r ih =>
    rw [packEls, Nat.shiftLeft_eq, Nat.mul_comm (packEls w r)]
    cases i with
    | zero => simp
    | succ j =>
      rw [Nat.mul_succ, Nat.add_comm (w * j), Nat.pow_add, ← Nat.div_div_eq_div_mul,
        Nat.add_mul_div_left _ _ (Nat.two_pow_pos w), Nat.div_eq_of_lt (Nat.mod_lt _ (Nat.two_pow_pos w)), Nat.zero_add, ih]
      rfl

/-- Element `i` of a line that is made of a list of elements. -/
theorem elem_lineOfEls (t : ElemType) (xs : List Nat) {i : Nat} (hi : i < t.count) :
    elem (lineOfEls t.width xs) t.width i = xs.getD i 0 % 2 ^ t.width := by
  have hw : 0 < t.width := by cases t <;> decide
  have hfit : t.width * i + t.width ≤ 4096 := by
    rw [← Nat.mul_succ, Nat.mul_comm]
    exact (Nat.le_div_iff_mul_le hw).1 hi
  rw [elem, lineOfEls, BitVec.toNat_ofNat, ← packEls_elem]
  refine Nat.eq_of_testBit_eq fun j => ?_
  simp only [Nat.testBit_mod_two_pow, Nat.testBit_div_two_pow]
  by_cases hj : j < t.width
  · rw [decide_eq_true (show j + t.width * i < 4096 by omega), Bool.true_and]
  · simp [hj]

/-- The elements of a source of one line (R71). -/
theorem Context.opdEls_eq_map_sourceElem (c : Context) (t : ElemType) (a : Opd) :
    c.opdEls t.width 0 a = (List.range t.count).map (sourceElem c t.width a) := by
  match a with
  | .at n => exact lineEls_eq_map_elem (c.rdL n.toNat) t
  | .all v =>
    change _ = (List.range t.count).map fun _ => v.toNat % 2 ^ t.width
    rw [List.map_const', List.length_range]
    rfl

/-! Operands inside the window (R22, R71). -/

/-- A meaning whose first part answers goes on with the answer. -/
theorem res_bind_of_ok {α β : Type} {x : Res α} {a : α} (h : x = .ok a) (g : α → Res β) : (x >>= g) = g a := by
  rw [h]; rfl

/-- Lines inside the window pass its check. -/
theorem Context.inWin_ok {c : Context} {k : Nat} {n : Int} (h0 : 0 ≤ n) (h : n.toNat + k ≤ 64 * c.bind.window) :
    c.inWin k n = .ok n.toNat := by
  rw [Context.inWin, if_neg (Int.not_lt.2 h0), if_pos h]

/-- A source inside the window passes its check. -/
theorem Context.opdIn_ok {c : Context} {k : Nat} {a : Opd} (h : inside c k a) : c.opdIn k a = .ok () := by
  match a with
  | .at n => exact res_bind_of_ok (Context.inWin_ok h.1 h.2) _
  | .all v => rfl

/-- A destination that resolves to a line is no exchange register (R72). -/
theorem exchOf_eq_none_of_vdst {c : Context} {e : Engine} {d : Spec} {f n : Int} (h : c.vdst e d f = .ok n) :
    exchOf d = none := by
  cases d with
  | scalar k => cases h
  | reg v | line v | handle v => rfl

/-! Fills of the exchange registers (R17, R202). -/

section
variable (c : Context) (k : Nat) (v : Word)

@[simp] theorem Context.fill_r_flags : (c.fill k v).r.flags = c.r.flags := by simp [Context.fill]

/-- A filled register holds the value. -/
theorem Context.fill_ex_same : lookD (c.fill k v).r.ex k 0 = v := by simp [Context.fill]

/-- A filled register is full. -/
theorem Context.fill_full_same (hk : k < 8) : (c.fill k v).r.exFull.getLsbD k = true := by simp [Context.fill, hk]

@[simp] theorem Context.addFlags_r_flags (f : Flags) : (c.addFlags f).r.flags = c.r.flags ||| f := rfl
end

/-- With no LAUNCH's fill due, a fill goes on. -/
theorem Context.awaitFill_bind_of_free {α : Type} {c : Context} {k : Nat} (h : fillDue c k = false) (g : Unit → Res α) :
    (c.awaitFill k >>= g) = g () := await_bind_true (b := !fillDue c k) (by rw [h]; rfl) g

/-- While a LAUNCH's fill is due, a fill waits. -/
theorem Context.awaitFill_bind_of_due {α : Type} {c : Context} {k : Nat} (h : fillDue c k = true) (g : Unit → Res α) :
    (c.awaitFill k >>= g) = .error .wait := await_bind_false (b := !fillDue c k) (by rw [h]; rfl) g

end Sys2Proof.Machine
end

section
/-!
The reductions (R57, R136, R202): what one issue gives to a line and to an exchange register, and the instructions that make it.
-/
namespace Sys2Proof.Machine
open Sys2Proof.Says

/-- The result and the flags of a reduction of the source `a` under the instruction's predicate (R57, R136). -/
def Context.reduced (c : Context) (e : Engine) (r : Reduction) (o : V2) (a : Opd) : Nat × Flags :=
  reduceLine r o.ty c.fpm (c.rdP e o.pred.toNat) ((List.range o.ty.count).map (sourceElem c o.ty.width a))

/-- The instructions that reduce are issues of the reduction that the operation names. -/
theorem v2Issue_eq_reduceIssue {op : V2Op} {r : Reduction} {o : V2} (hr : reductionOf op = some r) (hwf : o.wf op = true)
    (f : Offs) (e : Engine) (c : Context) : v2Issue op o f e c = reduceIssue r o f e c := by
  cases op <;> cases hr <;> exact check_bind_true hwf ..

/-- Each instruction that reduces runs in a slot of its own as one issue. -/
theorem exec_eq_v2Exec_of_reduction {op : V2Op} {r : Reduction} (hr : reductionOf op = some r) (o : V2) (s : State) :
    exec (op.instr o) s = v2Exec op o s := by
  cases op <;> cases hr <;> rfl

section
variable {c : Context} {e : Engine} {r : Reduction} {o : V2} {f : Offs} {a : Opd}
  (ha : c.vsrc e o.a f.a = .ok a) (hin : inside c 1 a)
include ha hin

/-- A reduction to a line writes its result as the line's only element. -/
theorem reduceIssue_line {n : Nat} (hd : c.vdst e o.d f.d = .ok (n : Int)) (hn : n < 64 * c.bind.window) :
    reduceIssue r o f e c =
      .ok ((c.wrL n (lineOfEls o.ty.width [(c.reduced e r o a).1])).addFlags (c.reduced e r o a).2) := by
  have hwin : c.inWin 1 n = .ok n := Context.inWin_ok (Int.natCast_nonneg n) hn
  simp only [reduceIssue, exchOf_eq_none_of_vdst hd, Context.opdEls_eq_map_sourceElem]
  rw [res_bind_of_ok hd, res_bind_of_ok hwin, res_bind_of_ok ha, res_bind_of_ok (Context.opdIn_ok hin)]
  rfl

/-- A reduction to an exchange register fills it. -/
theorem reduceIssue_fill {k : Reg} (hd : o.d = .scalar k) (hfree : fillDue c (k.toNat % 8) = false) :
    reduceIssue r o f e c =
      .ok ((c.fill (k.toNat % 8) (exchVal o.ty (c.reduced e r o a).1)).addFlags (c.reduced e r o a).2) := by
  have hx : exchOf o.d = some (k.toNat % 8) := by rw [hd]; rfl
  simp only [reduceIssue, hx, Context.opdEls_eq_map_sourceElem]
  rw [res_bind_of_ok ha, res_bind_of_ok (Context.opdIn_ok hin), Context.awaitFill_bind_of_free hfree]
  rfl

/-- A reduction to an exchange register waits for the fill of a LAUNCH before it. -/
theorem reduceIssue_waits {k : Reg} (hd : o.d = .scalar k) (hdue : fillDue c (k.toNat % 8) = true) :
    reduceIssue r o f e c = .error .wait := by
  have hx : exchOf o.d = some (k.toNat % 8) := by rw [hd]; rfl
  simp only [reduceIssue, hx]
  rw [res_bind_of_ok ha, res_bind_of_ok (Context.opdIn_ok hin), Context.awaitFill_bind_of_due hdue]
end

section
variable {s : State} {c c' : Context} {op : V2Op} {r : Reduction} {o : V2} (h : runs s c)
  (hr : reductionOf op = some r) (hwf : o.wf op = true)
include h hr hwf

/-- An instruction that reduces goes on with what its reduction gives. -/
theorem exec_reduction_becomes (hi : reduceIssue r o {} s.eng c = .ok c') :
    exec (op.instr o) s = becomes s (c'.advance s.eng) := by
  rw [exec_eq_v2Exec_of_reduction hr]
  exact runC_ok h (by rw [v2Issue_eq_reduceIssue hr hwf, hi]; rfl)

/-- An instruction that reduces waits where its reduction does. -/
theorem exec_reduction_waits (hi : reduceIssue r o {} s.eng c = .error .wait) : exec (op.instr o) s = waits s := by
  rw [exec_eq_v2Exec_of_reduction hr]
  exact runC_wait h (by rw [v2Issue_eq_reduceIssue hr hwf, hi]; rfl)
end

/-- Settles O24: the destination is a line, a register that a LAUNCH has still to fill, or one that it has not. -/
theorem vectorReductions : Obligations.VectorReductions := by
  intro s c op r o a h hr hwf ha hin
  refine ⟨fun n hd hn => ⟨_, exec_reduction_becomes h hr hwf (reduceIssue_line ha hin hd hn), ?_, fun i hpos hi => ?_⟩,
    fun k hd hdue => exec_reduction_waits h hr hwf (reduceIssue_waits ha hin hd hdue),
    fun k hd hfree => ⟨_, exec_reduction_becomes h hr hwf (reduceIssue_fill ha hin hd hfree), ?_, ?_, ?_, ?_⟩⟩
  · exact elem_lineOfEls o.ty _ (by cases o.ty <;> decide)
  · rw [elem_lineOfEls o.ty _ hi, List.getD_eq_getElem?_getD, List.getElem?_eq_none hpos, Option.getD_none, Nat.zero_mod]
  · exact c.fill_full_same _ _ (Nat.mod_lt _ (by decide))
  · simp [Context.reduced]
  · simp
  · exact c.fill_ex_same _ _

end Sys2Proof.Machine
end

section
/-!
The encoder against the decoder (R61 to R79, Table 94): each field reads back, then each format class, then each record.
-/
namespace Sys2Proof

/-!
Fields. In a slot the width of two joined bit strings is a number and not a sum, so the rules for simp leave it
unindexed.
-/

/-- A field below the joint of two bit strings. -/
@[simp] theorem extractLsb'_append_low {a b : Nat} (x : BitVec a) (y : BitVec b) (lo len : Nat) (h : lo + len ≤ b) :
    BitVec.extractLsb' (n := no_index _) lo len (no_index (x ++ y)) = y.extractLsb' lo len :=
  extract_append_low x y lo len h

/-- A field above the joint of two bit strings. -/
@[simp] theorem extractLsb'_append_high {a b : Nat} (x : BitVec a) (y : BitVec b) (lo len : Nat) (h : b ≤ lo) :
    BitVec.extractLsb' (n := no_index _) lo len (no_index (x ++ y)) = x.extractLsb' (lo - b) len :=
  extract_append_high x y lo len h

/-- Two neighbouring fields, read as one. -/
theorem extractLsb'_append_pair {a b c : Nat} (x : BitVec a) (y : BitVec b) (z : BitVec c) :
    (x ++ (y ++ z)).extractLsb' c (a + b) = x ++ y := by
  ext i hi
  simp only [BitVec.getElem_extractLsb', BitVec.getLsbD_append, BitVec.getElem_append]
  grind

/-- The parts of a bit string, joined again. -/
@[simp] theorem append_parts {a b : Nat} (x : BitVec (no_index (b + a))) :
    HAppend.hAppend (γ := no_index (BitVec (b + a))) (x.extractLsb' a b) (x.extractLsb' 0 a) = x :=
  BitVec.extractLsb'_append_extractLsb'

/-- OP of an encoded slot, as a number. -/
theorem slotWord_opcode (e : BitVec 3) (n : BitVec 1) {op : Nat} (d : BitVec 4) (x : BitVec 48) (h : op < 256) :
    (fld (slotWord e n op d x) 52 8).toNat = op := by
  rw [slotWord_op, BitVec.toNat_ofNat, Nat.mod_eq_of_lt h]

/-- The specifier of a line operand is not of the scalar kind. -/
theorem Spec.kind_ne_scalar {x : Spec} (h : x.isLine = true) : x.encode.extractLsb' 11 2 ≠ 3#2 := by
  cases x with
  | scalar s => cases h
  | _ => simp [Spec.encode]

@[simp] theorem need_some {α : Type} (a : α) (k : α → Dec) : need (some a) k = k a := rfl

@[simp] theorem needZero_true (i : Instr) : needZero true i = .ok i := rfl

@[simp] theorem dblOfType_typeOfDbl (b : Bool) : dblOfType (typeOfDbl b) = some b := by cases b <;> rfl

/-- A fetch-and-op reads back. -/
theorem aop_round (a : Aop) : Aop.ofCode (a.code % 16) = some a := by cases a <;> rfl

/-- A fence kind reads back. -/
theorem fenceKind_round (k : FenceKind) : FenceKind.ofCode (k.code % 4) = some k := by cases k <;> rfl

/-- A scope reads back. -/
theorem scope_round (s : Scope) : Scope.ofCode (s.code % 8) = some s := by cases s <;> rfl

/-- An engine reads back. -/
theorem engine_round (e : Engine) : Engine.ofCode (e.code % 8) = some e := by cases e <;> rfl

/-- A flag reads back. -/
theorem flag_round (b : Bool) : ((if b then 1#1 else 0#1) == 1#1) = b := by cases b <;> rfl

/-- W of an atomic reads back from the lower of its two bits. -/
theorem wide_round (b : Bool) : ((if b then 1#2 else 0#2).extractLsb' 0 1 == 1#1) = b := by cases b <;> rfl

/-- The upper bit of an atomic's W is zero. -/
theorem wide_upper (b : Bool) : (if b then 1#2 else 0#2).extractLsb' 1 1 = 0#1 := by cases b <;> rfl

/-- A token field reads back from its enable bit and its code. -/
theorem tokField_round (t : Option Engine) :
    decodeTokField ((encTokField t).extractLsb' 0 1) ((encTokField t).extractLsb' 1 3) = some t := by
  cases t with
  | none => rfl
  | some e => cases e <;> rfl

@[simp] theorem V3Op.ofCode_code (op : V3Op) : V3Op.ofCode op.code = some op := by cases op <;> rfl

@[simp] theorem V2Op.ofCode_code (op : V2Op) : V2Op.ofCode op.code = some op := by cases op <;> rfl

@[simp] theorem MvOp.ofCode_code (op : MvOp) : MvOp.ofCode op.code = some op := by cases op <;> rfl

/-- The V3 operations have no code of a V2 operation. -/
@[simp] theorem V3Op.ofCode_v2_code (op : V2Op) : V3Op.ofCode op.code = none := by cases op <;> rfl

theorem V3Op.code_lt (op : V3Op) : op.code < 256 := by cases op <;> decide

theorem V2Op.code_lt (op : V2Op) : op.code < 256 := by cases op <;> decide

theorem MvOp.code_lt (op : MvOp) : op.code < 256 := by cases op <;> decide

/-! Format classes (Table 15). -/

theorem decR3_encR3 (k : R3 → Instr) (op : Nat) (o : R3) : decR3 k (encR3 op o) = .ok (k o) := by
  simp [decR3, encR3, encCtl, slotWord_operand]

theorem decR2_encR2 (k : R2 → Instr) (op : Nat) (o : R2) : decR2 k (encR2 op o) = .ok (k o) := by
  simp [decR2, encR2, encCtl, slotWord_operand]

theorem decR4_encR4 (k : R4 → Instr) (op : Nat) (o : R4) : decR4 k (encR4 op o) = .ok (k o) := by
  simp [decR4, encR4, encCtl, slotWord_operand]

theorem decF3_encF3 (k : F3 → Instr) (op : Nat) (o : F3) : decF3 k (encF3 op o) = .ok (k o) := by
  simp [decF3, encF3, encCtl, slotWord_operand, elemType_round]

theorem decI2_encI2 (k : I2 → Instr) (op : Nat) (o : I2) : decI2 k (encI2 op o) = .ok (k o) := by
  simp [decI2, encI2, encCtl, slotWord_operand]

theorem decSh_encSh (k : Sh → Instr) (op : Nat) (o : Sh) : decSh k (encSh op o) = .ok (k o) := by
  simp [decSh, encSh, encCtl, slotWord_operand]

theorem decI1_encI1 (k : I1 → Instr) (op : Nat) (o : I1) : decI1 k (encI1 op o) = .ok (k o) := by
  simp [decI1, encI1, encCtl, slotWord_operand]

theorem decCMem_encCMem (k : CMem → Instr) (op : Nat) (o : CMem) : decCMem k (encCMem op o) = .ok (k o) := by
  simp [decCMem, encCMem, encCtl, slotWord_operand, memW_round]

theorem decEx_encCtl (k : ExOp → Instr) (op : Nat) (o : ExOp) :
    decEx k (encCtl op (o.d ++ (0#31 ++ (o.k ++ 0#8)))) = .ok (k o) := by
  simp [decEx, encCtl, slotWord_operand]

theorem decV3_encV3 (k : V3 → Instr) (n : BitVec 1) (op : Nat) (o : V3) : decV3 k (encV3 n op o) = .ok (k o) := by
  simp [decV3, encV3, slotWord_operand, slotWord_dly, elemType_round, spec_round]

theorem decV2_encV2 (k : V2 → Instr) (n : BitVec 1) (op : Nat) (o : V2) : decV2 k (encV2 n op o) = .ok (k o) := by
  simp [decV2, encV2, slotWord_operand, slotWord_dly, elemType_round, spec_round, rm_round, flag_round]

theorem decPP_encPP (k : PP → Instr) (op : Nat) (o : PP) : decPP k (encPP op o) = .ok (k o) := by
  simp [decPP, encPP, slotWord_operand, elemType_round]

theorem decTM_encTM (k : TM → Instr) (op : Nat) (o : TM) : decTM k (encTM op o) = .ok (k o) := by
  simp [decTM, encTM, slotWord_operand, slotWord_dly, elemType_round, spec_round, rm_round]

theorem decSPF_encSPF (k : SPF → Instr) (op : Nat) (o : SPF) : decSPF k (encSPF op o) = .ok (k o) := by
  simp [decSPF, encSPF, slotWord_operand, slotWord_dly, spec_round]

theorem decMV_encMV (k : MV → Instr) (n : BitVec 1) (op : Nat) (o : MV) : decMV k (encMV n op o) = .ok (k o) := by
  simp [decMV, encMV, slotWord_operand, slotWord_dly, spec_round]

theorem decMX_encMX (k : MX → Instr) (n : BitVec 1) (op : Nat) (o : MX) : decMX k (encMX n op o) = .ok (k o) := by
  simp [decMX, encMX, slotWord_operand, slotWord_dly, spec_round]

theorem decMG_encMG (k : MG → Instr) (n : BitVec 1) (op : Nat) (o : MG) : decMG k (encMG n op o) = .ok (k o) := by
  simp [decMG, encMG, slotWord_operand, slotWord_dly, elemType_round, spec_round]

theorem decMA_encMA (k : MA → Instr) (op : Nat) (o : MA) : decMA k (encMA op o) = .ok (k o) := by
  simp [decMA, encMA, slotWord_operand, aop_round, wide_round, wide_upper]

theorem decGate_encSG (k : GateOp → Instr) (op : Nat) (o : GateOp) :
    decGate k (encSG op 0 0 (0#3 ++ o.h) o.n 0) = .ok (k o) := by
  simp [decGate, encSG, sgZero, slotWord_operand]

theorem decTok_encSG (k : TokOp → Instr) (op : Nat) (o : TokOp) :
    decTok k (encSG op 0 0 (BitVec.ofNat 3 o.snd.code ++ (BitVec.ofNat 3 o.rcv.code ++ 0#2)) o.n 0) = .ok (k o) := by
  simp [decTok, encSG, sgZero, slotWord_operand, engine_round]

/-! Slots with an encoding of their own (Tables 17 to 23). -/

theorem decodeCtl_fsqrt (o : F2) :
    decodeCtl 0x34 (encCtl 0x34 (o.d ++ (o.a ++ (0#12 ++ ((typeOfDbl o.dbl).encode ++ 0#20))))) =
      some (.ok (.fsqrt o)) := by
  simp [decodeCtl, decF2, encCtl, slotWord_operand, elemType_round]

theorem decodeCtl_ffma (o : F4) :
    decodeCtl 0x35 (encCtl 0x35 (o.d ++ (o.a ++ (o.b ++ (o.c ++ ((typeOfDbl o.dbl).encode ++ 0#20)))))) =
      some (.ok (.ffma o)) := by
  simp [decodeCtl, decF4, encCtl, slotWord_operand, elemType_round]

theorem decodeCtl_fcvt (o : FCvt) :
    decodeCtl 0x3B (encCtl 0x3B (o.d ++ (o.a ++ (0#12 ++ (o.t1.encode ++ (o.t2.encode ++ (o.rm.encode ++ 0#13))))))) =
      some (.ok (.fcvt o)) := by
  simp [decodeCtl, decFCvt, encCtl, slotWord_operand, elemType_round, rm_round]

theorem decodeCtl_fclass (o : FCls) :
    decodeCtl 0x3C (encCtl 0x3C (o.d ++ (o.a ++ (0#12 ++ (o.t.encode ++ 0#20))))) = some (.ok (.fclass o)) := by
  simp [decodeCtl, decFCls, encCtl, slotWord_operand, elemType_round]

theorem decodeCtl_mcfg (o : McfgOp) :
    decodeCtl 0x50 (encCtl 0x50 (0#6 ++ (o.a ++ (o.b ++ (0#19 ++ (o.k ++ 0#8)))))) = some (.ok (.mcfg o)) := by
  simp [decodeCtl, decMcfg, encCtl, slotWord_operand]

theorem decodeCtl_mstat (d : Reg) : decodeCtl 0x53 (encCtl 0x53 (d ++ 0#42)) = some (.ok (.mstat d)) := by
  simp [decodeCtl, encCtl, slotWord_operand]

theorem decodeCtl_lea (o : LeaOp) :
    decodeCtl 0x8A (encCtl 0x8A (o.d ++ (o.a ++ (o.k ++ o.imm)))) = some (.ok (.lea o)) := by
  simp [decodeCtl, encCtl, slotWord_operand]

theorem decodeCtl_sysrd (o : SysRd) :
    decodeCtl 0xA0 (encCtl 0xA0 (o.d ++ (0#30 ++ o.n))) = some (.ok (.sysrd o)) := by
  simp [decodeCtl, encCtl, slotWord_operand]

/-- A SYSWR slot is read as the row of its register number. -/
theorem decodeCtl_syswr (n : BitVec 12) (a : Reg) :
    decodeCtl 0xA1 (encCtl 0xA1 (0#6 ++ (a ++ (0#24 ++ n)))) = some (.ok (syswrInstr n a)) := by
  simp [decodeCtl, encCtl, slotWord_operand]

theorem decodeCtl_prio (n : BitVec 2) : decodeCtl 0xA2 (encCtl 0xA2 (0#46 ++ n)) = some (.ok (.prio n)) := by
  simp [decodeCtl, encCtl, slotWord_operand]

theorem decodeCtl_trap (n : BitVec 16) : decodeCtl 0xA4 (encCtl 0xA4 (0#32 ++ n)) = some (.ok (.trap n)) := by
  simp [decodeCtl, encCtl, slotWord_operand]

theorem decodeCtl_bkpt (n : BitVec 16) : decodeCtl 0xA5 (encCtl 0xA5 (0#32 ++ n)) = some (.ok (.bkpt n)) := by
  simp [decodeCtl, encCtl, slotWord_operand]

/-- The number of a register in a numbered group. -/
theorem toNat_groupNumber (base : Nat) (k : BitVec 3) (h : base + 8 ≤ 4096) :
    (BitVec.ofNat 12 base + k.setWidth 12).toNat = base + k.toNat := by
  bv_omega

/-- A register number in no group with a row of its own is written by SYSWR itself. -/
theorem syswrInstr_plain (n : BitVec 12) (a : Reg) (h : sysOwnRow n.toNat = false) :
    syswrInstr n a = .syswr ⟨n, a⟩ := by
  simp only [sysOwnRow, Bool.or_eq_false_iff, Bool.and_eq_false_iff, decide_eq_false_iff_not, beq_eq_false_iff_ne] at h
  obtain ⟨⟨⟨htshape, hspm⟩, hfpc⟩, htxw⟩ := h
  rw [syswrInstr, if_neg (by omega), if_neg hspm, if_neg (by omega), if_neg (by omega)]

theorem syswrInstr_tshape (k : BitVec 3) (a : Reg) :
    syswrInstr (0x010#12 + k.setWidth 12) a = .syswrTshape ⟨k, a⟩ := by
  have hn := toNat_groupNumber 0x010 k (by decide)
  have hk : ∀ j : BitVec 3, (0x010#12 + j.setWidth 12).extractLsb' 0 3 = j := by decide
  rw [syswrInstr, if_pos (by omega), hk]

theorem syswrInstr_fpc (k : BitVec 3) (a : Reg) (h : k.toNat < 6) :
    syswrInstr (0x088#12 + k.setWidth 12) a = .syswrFpc ⟨k, a⟩ := by
  have hn := toNat_groupNumber 0x088 k (by decide)
  have hk : ∀ j : BitVec 3, (0x088#12 + j.setWidth 12).extractLsb' 0 3 = j := by decide
  rw [syswrInstr, if_neg (by omega), if_neg (by omega), if_pos (by omega), hk]

theorem syswrInstr_txw (k : BitVec 3) (a : Reg) : syswrInstr (0x021#12 + k.setWidth 12) a = .syswrTxw ⟨k, a⟩ := by
  have hn := toNat_groupNumber 0x021 k (by decide)
  have hk : ∀ j : BitVec 3, (0x021#12 + j.setWidth 12 - 0x21).extractLsb' 0 3 = j := by decide
  rw [syswrInstr, if_neg (by omega), if_neg (by omega), if_neg (by omega), if_pos (by omega), hk]

theorem decodeAll_br (o : BrOp) : decodeAll 0 (encBra 0 0 0 o.slot o.off 0) = some (.ok (.br o)) := by
  have hxy : (0#6 ++ (0#6 ++ (o.slot ++ (o.off ++ 0#3)))).extractLsb' 36 12 = 0#12 := extractLsb'_append_pair ..
  simp [decodeAll, encBra, slotWord_operand, hxy]

theorem decodeAll_bc (o : BcOp) : decodeAll 1 (encBra 1 o.x 0 o.slot o.off o.ck.encode) = some (.ok (.bc o)) := by
  simp [decodeAll, encBra, slotWord_operand, condKind_round]

theorem decodeAll_call (o : CallOp) : decodeAll 2 (encBra 2 o.x 0 o.slot o.off 0) = some (.ok (.call o)) := by
  simp [decodeAll, encBra, slotWord_operand]

theorem decodeAll_ret (x : Reg) : decodeAll 3 (encBra 3 x 0 0 0 0) = some (.ok (.ret x)) := by
  simp [decodeAll, encBra, slotWord_operand]

theorem decodeAll_jmpt (o : JmptOp) : decodeAll 4 (encBra 4 o.x o.y 0 0 0) = some (.ok (.jmpt o)) := by
  simp [decodeAll, encBra, slotWord_operand]

theorem decodeAll_loop (o : LoopOp) : decodeAll 5 (encBra 5 o.x o.y o.slot o.off 0) = some (.ok (.loop o)) := by
  simp [decodeAll, encBra, slotWord_operand]

theorem decVP_slotWord (o : VP) :
    decVP (slotWord 1 0 0x40 0 (o.ty.encode ++ (o.pred ++ (o.pd ++ (o.cc.encode ++ (0#6 ++
      (o.a.encode ++ (o.b.encode ++ 0#1)))))))) = .ok (.vcmp o) := by
  simp [decVP, slotWord_operand, elemType_round, spec_round, cmpCode_round]

theorem decodeMem_fence (o : FenceOp) :
    decodeMem 0x20 (slotWord 4 0 0x20 0
      (BitVec.ofNat 2 o.kind.code ++ (BitVec.ofNat 3 o.scope.code ++ (o.circ ++ 0#35)))) =
      some (.ok (.fence o)) := by
  simp [decodeMem, MvOp.ofCode, slotWord_operand, fenceKind_round, scope_round]

theorem decodeMem_sbar (sm : BitVec 3) :
    decodeMem 0x21 (slotWord 4 0 0x21 0 (0#13 ++ (sm ++ 0#32))) = some (.ok (.sbar sm)) := by
  simp [decodeMem, MvOp.ofCode, slotWord_operand]

theorem decodeSyn_hcfg (o : HcfgOp) : decodeSyn 0 (encSG 0 0 o.a (0#3 ++ o.h) 0 0) = some (.ok (.hcfg o)) := by
  simp [decodeSyn, encSG, sgZero, slotWord_operand]

theorem decodeSyn_hstat (o : HstatOp) : decodeSyn 1 (encSG 1 o.d 0 (0#3 ++ o.h) 0 0) = some (.ok (.hstat o)) := by
  simp [decodeSyn, encSG, sgZero, slotWord_operand]

theorem decodeSyn_bar (k : BitVec 3) : decodeSyn 0x10 (encSG 0x10 0 0 (0#5 ++ k) 0 0) = some (.ok (.bar k)) := by
  simp [decodeSyn, encSG, sgZero, slotWord_operand]

theorem decodeSyn_launch (o : LaunchOp) :
    decodeSyn 0x12 (encSG 0x12 0 o.a (0#5 ++ o.e) 0 0) = some (.ok (.launch o)) := by
  simp [decodeSyn, encSG, sgZero, slotWord_operand]

theorem decodeSyn_cpost (o : CpostOp) :
    decodeSyn 0x18 (encSG 0x18 0 0 (0#4 ++ o.q) 0 o.l.encode) = some (.ok (.cpost o)) := by
  simp [decodeSyn, encSG, sgZero, slotWord_operand, spec_round]

theorem decodeSyn_waitseq (o : WaitseqOp) :
    decodeSyn 0x19 (encSG 0x19 0 o.a (0#4 ++ o.q) 0 0) = some (.ok (.waitseq o)) := by
  simp [decodeSyn, encSG, sgZero, slotWord_operand]

theorem decodeSyn_seqrd (o : SeqrdOp) :
    decodeSyn 0x1A (encSG 0x1A o.d 0 (0#4 ++ o.q) 0 0) = some (.ok (.seqrd o)) := by
  simp [decodeSyn, encSG, sgZero, slotWord_operand]

theorem decodeSyn_fstep (a : Reg) : decodeSyn 0x20 (encSG 0x20 0 a 0 0 0) = some (.ok (.fstep a)) := by
  simp [decodeSyn, encSG, sgZero, slotWord_operand]

theorem decodeSyn_cstat (o : CstatOp) : decodeSyn 0x21 (encSG 0x21 o.d 0 o.c 0 0) = some (.ok (.cstat o)) := by
  simp [decodeSyn, encSG, sgZero, slotWord_operand]

theorem decodeSyn_cwait (c : BitVec 8) : decodeSyn 0x22 (encSG 0x22 0 0 c 0 0) = some (.ok (.cwait c)) := by
  simp [decodeSyn, encSG, sgZero, slotWord_operand]

theorem decodeSyn_fhint (a : Reg) : decodeSyn 0x23 (encSG 0x23 0 a 0 0 0) = some (.ok (.fhint a)) := by
  simp [decodeSyn, encSG, sgZero, slotWord_operand]

/-! Led records (R63, R66, R69): slot 0 has N set, and the other slots hold its parameters. -/

/-- A slot 0 with N set, of an operation that leads a record, is read as that record. -/
theorem decodeSlot_led {s : Nat → Word} {i : Instr} {r : Dec} (hn : fld (s 0) 60 1 = 1#1)
    (hop : decodeOp (s 0) = some r) (hlead : leadsRecord (s 0) = true) (hd : decodeLed s = .ok i) :
    decodeSlot s 0 = .ok i := by
  simp [decodeSlot, hn, hop, hlead, hd]

theorem decodeSubtree_encode (w : Word) (t : Subtree) : decodeSubtree (fun k => (w :: t.encode).getD k 0) = some t := by
  simp [decodeSubtree, Subtree.encode, fld]

theorem decodeNestP_encode (w : Word) (p : NestP) : decodeNestP (fun k => (w :: p.encode).getD k 0) = some p := by
  simp [decodeNestP, NestP.encode, fld, tokField_round]

/-- A record led by SPUP or SPDN. -/
theorem decodeLed_subtree {s : Nat → Word} {op : Nat} {d : BitVec 4} {t : Subtree} (hs : s 0 = slotWord 3 1 op d 0)
    (hop : op < 256) (ht : decodeSubtree s = some t) (hw : t.wf = true) :
    decodeLed s = .ok (if op = 0x10 then .spup ⟨d, t⟩ else .spdn ⟨d, t⟩) := by
  have hwf : (if op = 0x10 then Instr.spup ⟨d, t⟩ else .spdn ⟨d, t⟩).wf = true := by split <;> exact hw
  simp [decodeLed, hs, ht, checkWf, hwf, slotWord_eng, slotWord_opcode _ _ _ _ hop, slotWord_dly, slotWord_operand]

/-- A subtree record reads back as its slot 0 says: SPUP or SPDN. -/
theorem decodeSlot_subtree {op : Nat} (o : SpRec) (hop : op = 0x10 ∨ op = 0x11) (hw : o.tree.wf = true) :
    decodeSlot (fun k => (slotWord 3 1 op o.dly 0 :: o.tree.encode).getD k 0) 0 =
      .ok (if op = 0x10 then .spup o else .spdn o) := by
  have hlt : op < 256 := by omega
  have hnone : decodeOp (slotWord 3 1 op o.dly 0) = some (.error .illrec) := by
    rw [decodeOp_spe _ _ _ _ hlt]
    obtain rfl | rfl := hop <;> rfl
  refine decodeSlot_led (slotWord_n ..) hnone ?_ (decodeLed_subtree rfl hlt (decodeSubtree_encode _ _) hw)
  simpa [leadsRecord, slotWord_eng, slotWord_opcode _ _ _ _ hlt] using hop

/-- A nest record, from what its lead and its parameter slots say. -/
theorem decodeLed_nest {s : Nat → Word} {i : Instr} {l : Lead} {p : NestP} (heng : (fld (s 0) 61 3).toNat ≠ 3)
    (hop : decodeOp (s 0) = some (.ok i)) (hl : i.lead? (s 0) = some l) (hp : decodeNestP s = some p)
    (hw : (Instr.nestIssue l p).wf = true) : decodeLed s = .ok (.nestIssue l p) := by
  simp [decodeLed, heng, hop, hl, hp, checkWf, hw]

theorem decodeOp_encV3 (n : BitVec 1) (op : V3Op) (o : V3) :
    decodeOp (encV3 n op.code o) = some (.ok (op.instr o)) := by
  rw [encV3, decodeOp_vec _ _ _ _ op.code_lt, ← encV3]
  simp [decodeVec, decV3_encV3]

theorem decodeOp_encV2 (n : BitVec 1) (op : V2Op) (o : V2) :
    decodeOp (encV2 n op.code o) = some (.ok (op.instr o)) := by
  rw [encV2, decodeOp_vec _ _ _ _ op.code_lt, ← encV2]
  simp [decodeVec, decV2_encV2]

theorem decodeOp_encMV (n : BitVec 1) (op : MvOp) (o : MV) :
    decodeOp (encMV n op.code o) = some (.ok (op.instr o)) := by
  rw [encMV, decodeOp_mem _ _ _ _ op.code_lt, ← encMV]
  simp [decodeMem, decMV_encMV]

theorem lead?_encV3 (n : BitVec 1) (op : V3Op) (o : V3) : (op.instr o).lead? (encV3 n op.code o) = some (.v3 op o) := by
  have hop : (fld (encV3 n op.code o) 52 8).toNat = op.code := slotWord_opcode _ _ _ _ op.code_lt
  have hdec := decV3_encV3 (fun o => .nestIssue (.v3 op o) ⟨0, 0, 0, 0, none, none, 0, 0, 0⟩) n op.code o
  cases op <;> simp only [Instr.lead?, V3Op.instr, hop, hdec, V3Op.ofCode_code]

theorem lead?_encV2 (n : BitVec 1) (op : V2Op) (o : V2) : (op.instr o).lead? (encV2 n op.code o) = some (.v2 op o) := by
  have hop : (fld (encV2 n op.code o) 52 8).toNat = op.code := slotWord_opcode _ _ _ _ op.code_lt
  have hdec := decV2_encV2 (fun o => .nestIssue (.v2 op o) ⟨0, 0, 0, 0, none, none, 0, 0, 0⟩) n op.code o
  cases op <;> simp only [Instr.lead?, V2Op.instr, hop, hdec, V2Op.ofCode_code, V3Op.ofCode_v2_code]

/-- The lead slot of a nest decodes to an instruction that stands for that lead. -/
theorem decodeOp_lead (l : Lead) (hw : l.wf = true) :
    ∃ i, decodeOp l.encode = some (.ok i) ∧ i.lead? l.encode = some l := by
  cases l with
  | v3 op o => exact ⟨_, decodeOp_encV3 1 op o, lead?_encV3 1 op o⟩
  | v2 op o => exact ⟨_, decodeOp_encV2 1 op o, lead?_encV2 1 op o⟩
  | mv op o =>
    refine ⟨_, decodeOp_encMV 1 op o, ?_⟩
    cases op with
    | wst => simp [Lead.wf] at hw
    | _ => rfl
  | mx store o =>
    cases store with
    | false => exact ⟨.vldt o, (decodeOp_mem _ 2 _ _ (by decide)).trans (congrArg some (decMX_encMX ..)), rfl⟩
    | true => exact ⟨.vstt o, (decodeOp_mem _ 3 _ _ (by decide)).trans (congrArg some (decMX_encMX ..)), rfl⟩
  | mg store o =>
    cases store with
    | false => exact ⟨.vgath o, (decodeOp_mem _ 4 _ _ (by decide)).trans (congrArg some (decMG_encMG ..)), rfl⟩
    | true => exact ⟨.vscat o, (decodeOp_mem _ 5 _ _ (by decide)).trans (congrArg some (decMG_encMG ..)), rfl⟩

/-- The lead slot of a nest leads a record (R63, R68). -/
theorem leadsRecord_lead (l : Lead) (hw : l.wf = true) : leadsRecord l.encode = true := by
  cases l with
  | v3 op o => simp [leadsRecord, Lead.encode, encV3, slotWord_eng, slotWord_opcode _ _ _ _ op.code_lt]
  | v2 op o =>
    have hline : o.d.encode.extractLsb' 11 2 ≠ 3#2 := Spec.kind_ne_scalar (Bool.and_eq_true_iff.mp hw).2
    simp [leadsRecord, Lead.encode, encV2, slotWord_eng, slotWord_operand, slotWord_opcode _ _ _ _ op.code_lt, hline]
  | mv op o =>
    cases op with
    | wst => simp [Lead.wf] at hw
    | _ => simp [leadsRecord, Lead.encode, encMV, slotWord_eng, slotWord_opcode, MvOp.code]
  | mx store o => cases store <;> simp [leadsRecord, Lead.encode, encMX, slotWord_eng, slotWord_opcode]
  | mg store o => cases store <;> simp [leadsRecord, Lead.encode, encMG, slotWord_eng, slotWord_opcode]

theorem lead_n (l : Lead) : fld l.encode 60 1 = 1#1 := by
  cases l <;> exact slotWord_n ..

/-- No nest is led by the engine of the subtree records. -/
theorem lead_eng_ne_spe (l : Lead) : (fld l.encode 61 3).toNat ≠ 3 := by
  cases l <;> simp [Lead.encode, encV3, encV2, encMV, encMX, encMG, slotWord_eng]

theorem decodeSlot_nest (l : Lead) (p : NestP) (hw : (Instr.nestIssue l p).wf = true) :
    decodeSlot (fun k => (encode (.nestIssue l p)).getD k 0) 0 = .ok (.nestIssue l p) := by
  have hl : l.wf = true := (Bool.and_eq_true_iff.mp hw).1
  obtain ⟨i, hop, hlead⟩ := decodeOp_lead l hl
  exact decodeSlot_led (lead_n l) hop (leadsRecord_lead l hl)
    (decodeLed_nest (lead_eng_ne_spe l) hop hlead (decodeNestP_encode _ p) hw)

/-! Operations of a circuit program (Table 94). -/

@[simp] theorem bit1_eq_one (b : Bool) : bit1 b = 1#1 ↔ b = true := by cases b <;> decide

@[simp] theorem bit1_eq_zero (b : Bool) : bit1 b = 0#1 ↔ b = false := by cases b <;> decide

@[simp] theorem bit1_beq_one (b : Bool) : (bit1 b == 1#1) = b := by cases b <;> rfl

theorem decodeSeqOp_est (o : EstOp) (hw : (Instr.est o).wf = true) :
    ∃ w, encode (.est o) = [w] ∧ decodeSeqOp w = some (.est o) := by
  have hwf : (o.x = true ∨ o.lpos = false) ∧ o.nr ≠ 3#2 := by simpa [Instr.wf] using hw
  exact ⟨_, rfl, by simp [decodeSeqOp, fld, hwf]⟩

theorem decodeSeqOp_retry (o : RetryOp) : ∃ w, encode (.retry o) = [w] ∧ decodeSeqOp w = some (.retry o) := by
  obtain ⟨c, mode, limit⟩ := o
  cases mode <;> exact ⟨_, rfl, by simp [decodeSeqOp, fld]⟩

theorem decodeSeqOp_signal (a : BitVec 56) (hw : (Instr.signal a).wf = true) :
    ∃ w, encode (.signal a) = [w] ∧ decodeSeqOp w = some (.signal a) := by
  have hmod : a.toNat % 8 = 0 := by simpa [Instr.wf] using hw
  have hlow : a.extractLsb' 0 3 = 0#3 := BitVec.eq_of_toNat_eq (by simpa using hmod)
  exact ⟨_, rfl, by simp [decodeSeqOp, fld, hlow]⟩

/-- Every operation of a circuit program is one word, which reads back. -/
theorem decodeSeqOp_encode (i : Instr) (hw : i.wf = true) (hs : Says.sequencerOp i = true) :
    ∃ w, encode i = [w] ∧ decodeSeqOp w = some i := by
  cases i with
  | est o => exact decodeSeqOp_est o hw
  | retry o => exact decodeSeqOp_retry o
  | signal a => exact decodeSeqOp_signal a hw
  | tear c | hold c => exact ⟨_, rfl, by simp [decodeSeqOp, fld]⟩
  | seqStep o | gap o | lmove o | vect o => exact ⟨_, rfl, by simp [decodeSeqOp, fld]⟩
  | seqDone => exact ⟨_, rfl, rfl⟩
  | _ => cases hs

/-! Every instruction that slots hold. -/

/-- A slot without N is read from the opcode space of its engine. -/
theorem decodeSlot_of_table {e : BitVec 3} {op : Nat} {d : BitVec 4} {x : BitVec 48} {i : Instr} {r : Dec}
    {table : Nat → Word → Option Dec} (he : decodeOp (slotWord e 0 op d x) = table op (slotWord e 0 op d x))
    (ht : table op (slotWord e 0 op d x) = some r) (hr : r = .ok i) (hw : i.wf = true) :
    decodeSlot (fun k => [slotWord e 0 op d x].getD k 0) 0 = .ok i :=
  decodeSlot_plain (slotWord_n ..) (by rw [← hr, ← ht, ← he]; rfl) hw

theorem decodeSlot_syswr {n : BitVec 12} {a : Reg} {i : Instr} (hi : syswrInstr n a = i) (hw : i.wf = true) :
    decodeSlot (fun k => [encCtl 0xA1 (0#6 ++ (a ++ (0#24 ++ n)))].getD k 0) 0 = .ok i :=
  decodeSlot_of_table (decodeOp_ctl _ _ _ _ (by decide)) (decodeCtl_syswr n a) (congrArg _ hi) hw

/-- An encoded instruction reads back: its engine's opcode space chooses its class, whose fields read back. -/
theorem decodeSlot_encode (i : Instr) (hw : i.wf = true) (hne : encode i ≠ []) (hs : Says.sequencerOp i = false) :
    decodeSlot (fun k => (encode i).getD k 0) 0 = .ok i := by
  cases i with
  | nop | mgo | mwait | heart | idle | endTask | tret | swfence | phase => rfl
  | add o | sub o | mul o | mulh o | mulhz o | div o | divz o | rem o | remz o | and o | or o | xor o | andn o | shl o
  | shr o | sha o | rotl o | min o | minz o | max o | maxz o | seq o | sne o | slt o | sltz o | sle o | slez o =>
    exact decodeSlot_of_table (decodeOp_ctl _ _ _ _ (by decide)) rfl (decR3_encR3 _ _ o) hw
  | clz o | ctz o | popc o => exact decodeSlot_of_table (decodeOp_ctl _ _ _ _ (by decide)) rfl (decR2_encR2 _ _ o) hw
  | sel o | bfx o | bfxz o | bfi o =>
    exact decodeSlot_of_table (decodeOp_ctl _ _ _ _ (by decide)) rfl (decR4_encR4 _ _ o) hw
  | fadd o | fsub o | fmul o | fdiv o | fmin o | fmax o | feq o | flt o | fle o =>
    exact decodeSlot_of_table (decodeOp_ctl _ _ _ _ (by decide)) rfl (decF3_encF3 _ _ o) hw
  | fsqrt o => exact decodeSlot_of_table (decodeOp_ctl _ _ _ _ (by decide)) (decodeCtl_fsqrt o) rfl hw
  | ffma o => exact decodeSlot_of_table (decodeOp_ctl _ _ _ _ (by decide)) (decodeCtl_ffma o) rfl hw
  | fcvt o => exact decodeSlot_of_table (decodeOp_ctl _ _ _ _ (by decide)) (decodeCtl_fcvt o) rfl hw
  | fclass o => exact decodeSlot_of_table (decodeOp_ctl _ _ _ _ (by decide)) (decodeCtl_fclass o) rfl hw
  | eget o | epeek o => exact decodeSlot_of_table (decodeOp_ctl _ _ _ _ (by decide)) rfl (decEx_encCtl _ _ o) hw
  | mcfg o => exact decodeSlot_of_table (decodeOp_ctl _ _ _ _ (by decide)) (decodeCtl_mcfg o) rfl hw
  | mstat d => exact decodeSlot_of_table (decodeOp_ctl _ _ _ _ (by decide)) (decodeCtl_mstat d) rfl hw
  | addi o | andi o | ori o | xori o =>
    exact decodeSlot_of_table (decodeOp_ctl _ _ _ _ (by decide)) rfl (decI2_encI2 _ _ o) hw
  | shli o | shri o | shai o | rotli o =>
    exact decodeSlot_of_table (decodeOp_ctl _ _ _ _ (by decide)) rfl (decSh_encSh _ _ o) hw
  | movi o | movhi o => exact decodeSlot_of_table (decodeOp_ctl _ _ _ _ (by decide)) rfl (decI1_encI1 _ _ o) hw
  | lea o => exact decodeSlot_of_table (decodeOp_ctl _ _ _ _ (by decide)) (decodeCtl_lea o) rfl hw
  | lds o | sts o => exact decodeSlot_of_table (decodeOp_ctl _ _ _ _ (by decide)) rfl (decCMem_encCMem _ _ o) hw
  | sysrd o => exact decodeSlot_of_table (decodeOp_ctl _ _ _ _ (by decide)) (decodeCtl_sysrd o) rfl hw
  | syswr o => exact decodeSlot_syswr (syswrInstr_plain _ _ (by simpa [Instr.wf] using hw)) hw
  | syswrTshape o => exact decodeSlot_syswr (syswrInstr_tshape ..) hw
  | syswrSpm a => exact decodeSlot_syswr (n := 0x019#12) rfl hw
  | syswrFpc o => exact decodeSlot_syswr (syswrInstr_fpc _ _ (of_decide_eq_true hw)) hw
  | syswrTxw o => exact decodeSlot_syswr (syswrInstr_txw ..) hw
  | prio n => exact decodeSlot_of_table (decodeOp_ctl _ _ _ _ (by decide)) (decodeCtl_prio n) rfl hw
  | trap n => exact decodeSlot_of_table (decodeOp_ctl _ _ _ _ (by decide)) (decodeCtl_trap n) rfl hw
  | bkpt n => exact decodeSlot_of_table (decodeOp_ctl _ _ _ _ (by decide)) (decodeCtl_bkpt n) rfl hw
  | br o => exact decodeSlot_of_table (decodeOp_all _ _ _ _ (by decide)) (decodeAll_br o) rfl hw
  | bc o => exact decodeSlot_of_table (decodeOp_all _ _ _ _ (by decide)) (decodeAll_bc o) rfl hw
  | call o => exact decodeSlot_of_table (decodeOp_all _ _ _ _ (by decide)) (decodeAll_call o) rfl hw
  | ret x => exact decodeSlot_of_table (decodeOp_all _ _ _ _ (by decide)) (decodeAll_ret x) rfl hw
  | jmpt o => exact decodeSlot_of_table (decodeOp_all _ _ _ _ (by decide)) (decodeAll_jmpt o) rfl hw
  | loop o => exact decodeSlot_of_table (decodeOp_all _ _ _ _ (by decide)) (decodeAll_loop o) rfl hw
  | vadd o | vsub o | vmul o | vfma o | vfms o | vmin o | vmax o | vdiv o | vand o | vor o | vxor o | vshl o | vshr o
  | vsha o | vadds o | vsubs o | vmulh o | vsel o | vperm o | vrotl o | vzip o | vunzip o | vbcast o =>
    exact decodeSlot_of_table (decodeOp_vec _ _ _ _ (by decide)) rfl (decV3_encV3 _ _ _ o) hw
  | vabs o | vneg o | vnot o | vmov o | vsqrt o | vrsqrt o | vrcp o | vexp2 o | vlog2 o | vtanh o | vsig o | verf o
  | vcvt o | vwiden o | vnarrow o | vhad o | vqnt o | vdqnt o | vradd o | vrmax o | vrmin o | vscan o | vcompr o
  | vexpd o | viota o => exact decodeSlot_of_table (decodeOp_vec _ _ _ _ (by decide)) rfl (decV2_encV2 _ _ _ o) hw
  | vcmp o => exact decodeSlot_of_table (decodeOp_vec _ _ _ _ (by decide)) rfl (decVP_slotWord o) hw
  | pand o | por o | pxor o | pnot o | pfirst o | pcnt o | pseti o =>
    exact decodeSlot_of_table (decodeOp_vec _ _ _ _ (by decide)) rfl (decPP_encPP _ _ o) hw
  | nestIssue l p => exact decodeSlot_nest l p hw
  | tcfg o | tzero o | trowld o | trowst o | tcolld o | tcolst o | tld o | tst o | tmma o | tout o | oclaim o | orel o
  | oload o => exact decodeSlot_of_table (decodeOp_mat _ _ _ _ (by decide)) rfl (decTM_encTM _ _ o) hw
  | spmode o | spld o | spst o | spmov o | spclr o | spnorm o =>
    exact decodeSlot_of_table (decodeOp_spe _ _ _ _ (by decide)) rfl (decSPF_encSPF _ _ o) hw
  | spup o => exact decodeSlot_subtree o (.inl rfl) hw
  | spdn o => exact decodeSlot_subtree o (.inr rfl) hw
  | vld o | vst o | wld o | wst o | pref o =>
    exact decodeSlot_of_table (decodeOp_mem _ _ _ _ (by decide)) rfl (decMV_encMV _ _ _ o) hw
  | vldt o | vstt o => exact decodeSlot_of_table (decodeOp_mem _ _ _ _ (by decide)) rfl (decMX_encMX _ _ _ o) hw
  | vgath o | vscat o => exact decodeSlot_of_table (decodeOp_mem _ _ _ _ (by decide)) rfl (decMG_encMG _ _ _ o) hw
  | atom o | red o => exact decodeSlot_of_table (decodeOp_mem _ _ _ _ (by decide)) rfl (decMA_encMA _ _ o) hw
  | fence o => exact decodeSlot_of_table (decodeOp_mem _ _ _ _ (by decide)) (decodeMem_fence o) rfl hw
  | sbar sm => exact decodeSlot_of_table (decodeOp_mem _ _ _ _ (by decide)) (decodeMem_sbar sm) rfl hw
  | hcfg o => exact decodeSlot_of_table (decodeOp_syn _ _ _ _ (by decide)) (decodeSyn_hcfg o) rfl hw
  | hstat o => exact decodeSlot_of_table (decodeOp_syn _ _ _ _ (by decide)) (decodeSyn_hstat o) rfl hw
  | waitf o | waite o | advc o | advp o =>
    exact decodeSlot_of_table (decodeOp_syn _ _ _ _ (by decide)) rfl (decGate_encSG _ _ o) hw
  | tksend o | tkwait o => exact decodeSlot_of_table (decodeOp_syn _ _ _ _ (by decide)) rfl (decTok_encSG _ _ o) hw
  | bar k => exact decodeSlot_of_table (decodeOp_syn _ _ _ _ (by decide)) (decodeSyn_bar k) rfl hw
  | launch o => exact decodeSlot_of_table (decodeOp_syn _ _ _ _ (by decide)) (decodeSyn_launch o) rfl hw
  | cpost o => exact decodeSlot_of_table (decodeOp_syn _ _ _ _ (by decide)) (decodeSyn_cpost o) rfl hw
  | waitseq o => exact decodeSlot_of_table (decodeOp_syn _ _ _ _ (by decide)) (decodeSyn_waitseq o) rfl hw
  | seqrd o => exact decodeSlot_of_table (decodeOp_syn _ _ _ _ (by decide)) (decodeSyn_seqrd o) rfl hw
  | fstep a => exact decodeSlot_of_table (decodeOp_syn _ _ _ _ (by decide)) (decodeSyn_fstep a) rfl hw
  | cstat o => exact decodeSlot_of_table (decodeOp_syn _ _ _ _ (by decide)) (decodeSyn_cstat o) rfl hw
  | cwait c => exact decodeSlot_of_table (decodeOp_syn _ _ _ _ (by decide)) (decodeSyn_cwait c) rfl hw
  | fhint a => exact decodeSlot_of_table (decodeOp_syn _ _ _ _ (by decide)) (decodeSyn_fhint a) rfl hw
  | est _ | tear _ | hold _ | seqStep _ | gap _ | lmove _ | vect _ | retry _ | signal _ | seqDone => cases hs
  | _ => exact absurd rfl hne

/-- Settles O58: a circuit program's operation by its own decoder, every other instruction by its engine's. -/
theorem decodingReadsWhatTheEncoderWrote : Obligations.DecodingReadsWhatTheEncoderWrote := fun i hw hne =>
  ⟨decodeSeqOp_encode i hw, decodeSlot_encode i hw hne⟩

end Sys2Proof
end

section
/-!
Integer arithmetic of the scalars (R88 to R93): the three-register operations, division, the bit counts, SEL and the bit
fields.
-/
namespace Sys2Proof.Machine
open Sys2Proof.Says

section
variable {s : State} {c : Context} (h : runs s c)
include h

/-- A one-source operation writes its value. -/
theorem alu2_writes (f : Word → Word) (o : R2) : alu2 f o s = writes s c o.d (f (c.rdS s.eng o.a)) := runC_ok h rfl

/-- A two-source operation writes its value, however that is written. -/
theorem alu3_writes (o : R3) {f : Word → Word → Word} {v : Word} (hv : f (c.rdS s.eng o.a) (c.rdS s.eng o.b) = v) :
    alu3 f o s = writes s c o.d v :=
  hv ▸ runC_ok h rfl

/-- A three-source operation writes its value. -/
theorem alu4_writes (f : Word → Word → Word → Word) (o : R4) :
    alu4 f o s = writes s c o.d (f (c.rdS s.eng o.a) (c.rdS s.eng o.b) (c.rdS s.eng o.c)) :=
  runC_ok h rfl

/-- BFI reads the scalar that it writes. -/
theorem execBfi_writes (o : R4) : execBfi o s = writes s c o.d
    (bfiVal (c.rdS s.eng o.d) (c.rdS s.eng o.a) (c.rdS s.eng o.b) (c.rdS s.eng o.c)) :=
  runC_ok h rfl
end

/-! The results of Table 25 (R89). -/

theorem mul_eq_ofNat (a b : Word) : a * b = BitVec.ofNat 64 (a.toNat * b.toNat) := by
  apply BitVec.eq_of_toNat_eq
  rw [BitVec.toNat_mul, BitVec.toNat_ofNat]

theorem rotateLeft_cnt6 (a b : Word) :
    a.rotateLeft (cnt6 b) = a <<< (b.toNat % 64) ||| a >>> (64 - b.toNat % 64) :=
  rotateLeft_eq_or a (Nat.mod_lt _ (by decide))

theorem slt_min_eq (a b : Word) : (if a.slt b then a else b) = BitVec.ofInt 64 (min a.toInt b.toInt) := by
  rw [BitVec.slt_eq_decide]
  by_cases hlt : a.toInt < b.toInt
  · simp [hlt, Int.min_eq_left (Int.le_of_lt hlt)]
  · simp [hlt, Int.min_eq_right (Int.not_lt.1 hlt)]

theorem slt_max_eq (a b : Word) : (if a.slt b then b else a) = BitVec.ofInt 64 (max a.toInt b.toInt) := by
  rw [BitVec.slt_eq_decide]
  by_cases hlt : a.toInt < b.toInt
  · simp [hlt, Int.max_eq_right (Int.le_of_lt hlt)]
  · simp [hlt, Int.max_eq_left (Int.not_lt.1 hlt)]

theorem ult_min_eq (a b : Word) : (if a.ult b then a else b) = BitVec.ofNat 64 (min a.toNat b.toNat) := by
  rw [BitVec.ult_eq_decide]
  by_cases hlt : a.toNat < b.toNat
  · simp [hlt, Nat.min_eq_left (Nat.le_of_lt hlt)]
  · simp [hlt, Nat.min_eq_right (Nat.not_lt.1 hlt)]

theorem ult_max_eq (a b : Word) : (if a.ult b then b else a) = BitVec.ofNat 64 (max a.toNat b.toNat) := by
  rw [BitVec.ult_eq_decide]
  by_cases hlt : a.toNat < b.toNat
  · simp [hlt, Nat.max_eq_right (Nat.le_of_lt hlt)]
  · simp [hlt, Nat.max_eq_left (Nat.not_lt.1 hlt)]

/-- The truth of a decided proposition is 1 or 0. -/
theorem truth_of_iff {b : Bool} {p : Prop} [Decidable p] (hb : b = true ↔ p) : truth b = if p then 1 else 0 := by
  by_cases hp : p
  · rw [if_pos hp, truth, if_pos (hb.2 hp)]
  · rw [if_neg hp, truth, if_neg (mt hb.1 hp)]

/-- Settles O2: each operation is one of two sources, whose value is Table 25's. -/
theorem integerResults : Obligations.IntegerResults := by
  intro _ _ o h
  simp only [exec]
  exact ⟨alu3_writes h o rfl, alu3_writes h o rfl, alu3_writes h o (mul_eq_ofNat _ _), alu3_writes h o rfl,
    alu3_writes h o rfl, alu3_writes h o rfl, alu3_writes h o rfl, alu3_writes h o rfl, alu3_writes h o rfl,
    alu3_writes h o (shiftLeft_eq_mul _ _), alu3_writes h o (ushiftRight_eq_div _ _),
    alu3_writes h o (sshiftRight_eq_div _ _), alu3_writes h o (rotateLeft_cnt6 _ _),
    alu3_writes h o (slt_min_eq _ _), alu3_writes h o (ult_min_eq _ _), alu3_writes h o (slt_max_eq _ _),
    alu3_writes h o (ult_max_eq _ _), alu3_writes h o (truth_of_iff beq_iff_eq),
    alu3_writes h o (truth_of_iff bne_iff_ne), alu3_writes h o (truth_of_iff BitVec.slt_iff_toInt_lt),
    alu3_writes h o (truth_of_iff BitVec.ult_iff_toNat_lt), alu3_writes h o (truth_of_iff BitVec.sle_iff_toInt_le),
    alu3_writes h o (truth_of_iff BitVec.ule_iff_toNat_le)⟩

/-! Division (R90). -/

section
variable {a b : Word}

theorem quotU_divides (hb : b ≠ 0) :
    a.toNat = (quotU a b).toNat * b.toNat + (remU a b).toNat ∧ (remU a b).toNat < b.toNat := by
  have hpos : 0 < b.toNat := Nat.pos_of_ne_zero fun h0 => hb (BitVec.eq_of_toNat_eq h0)
  have hq : (quotU a b).toNat = a.toNat / b.toNat := by
    rw [quotU, if_neg hb, BitVec.toNat_ofNat, Nat.mod_eq_of_lt (Nat.lt_of_le_of_lt (Nat.div_le_self _ _) a.isLt)]
  have hr : (remU a b).toNat = a.toNat % b.toNat := by
    rw [remU, if_neg hb, BitVec.toNat_ofNat, Nat.mod_eq_of_lt (Nat.lt_of_le_of_lt (Nat.mod_le _ _) a.isLt)]
  rw [hq, hr]
  exact ⟨(Nat.div_add_mod' _ _).symm, Nat.mod_lt _ hpos⟩

/-- The truncated quotient, as the library's signed division. -/
theorem quotS_eq_sdiv (hb : b ≠ 0) : quotS a b = a.sdiv b := by
  apply BitVec.eq_of_toInt_eq
  rw [quotS, if_neg hb, BitVec.toInt_ofInt, BitVec.toInt_sdiv]

/-- The remainder of the dividend's sign, as the library's. -/
theorem remS_toInt (hb : b ≠ 0) : (remS a b).toInt = a.toInt.tmod b.toInt := by
  rw [remS, if_neg hb, ← BitVec.toInt_srem, BitVec.ofInt_toInt]

/-- The one quotient that does not fit wraps round (R90). -/
theorem quotS_overflow (ha : a.toInt = -2 ^ 63) (hb : b.toInt = -1) :
    (quotS a b).toInt = -2 ^ 63 ∧ remS a b = 0 := by
  have hb0 : b ≠ 0 := by rintro rfl; simp at hb
  constructor
  · rw [quotS, if_neg hb0, ha, hb]; decide
  · rw [remS, if_neg hb0, ha, hb]; decide

theorem quotS_divides (hb : b ≠ 0) (hov : ¬ (a.toInt = -2 ^ 63 ∧ b.toInt = -1)) :
    a.toInt = (quotS a b).toInt * b.toInt + (remS a b).toInt := by
  have hfit : a ≠ BitVec.intMin 64 ∨ b ≠ -1#64 := by
    by_cases ha : a = BitVec.intMin 64
    · exact .inr fun hb1 => hov ⟨by rw [ha]; decide, by rw [hb1]; decide⟩
    · exact .inl ha
  rw [quotS_eq_sdiv hb, remS_toInt hb, BitVec.toInt_sdiv_of_ne_or_ne a b hfit, Int.mul_comm, Int.mul_tdiv_add_tmod]

/-- The remainder is smaller than the divisor, and has the dividend's sign where it is not zero. -/
theorem remS_bounds (hb : b ≠ 0) : (remS a b).toInt.natAbs < b.toInt.natAbs ∧
    ((remS a b).toInt = 0 ∨ ((remS a b).toInt < 0 ↔ a.toInt < 0)) := by
  have hb0 : b.toInt ≠ 0 := fun h0 => hb (BitVec.eq_of_toInt_eq h0)
  rw [remS_toInt hb]
  refine ⟨?_, ?_⟩
  · rw [Int.natAbs_tmod]
    exact Nat.mod_lt _ (Int.natAbs_pos.2 hb0)
  · by_cases ha : a.toInt < 0
    · have hneg := Int.tmod_nonneg b.toInt (Int.neg_nonneg_of_nonpos (Int.le_of_lt ha))
      rw [Int.neg_tmod] at hneg
      omega
    · have hpos := Int.tmod_nonneg b.toInt (Int.not_lt.1 ha)
      omega
end

/-- Settles O3: each division writes a quotient or a remainder, in the corner cases and in every other. -/
theorem division : Obligations.Division := by
  intro s c o h
  simp only [exec]
  refine ⟨_, _, _, _, alu3_writes h o rfl, alu3_writes h o rfl, alu3_writes h o rfl, alu3_writes h o rfl,
    fun hb => ?_, fun ⟨ha, hb⟩ => quotS_overflow ha hb, quotU_divides,
    fun ⟨hb, hov⟩ => ⟨quotS_divides hb hov, remS_bounds hb⟩⟩
  exact ⟨if_pos hb, if_pos hb, if_pos hb, if_pos hb⟩

/-! The bit counts (R91). -/

/-- What CLZ counts among the low `n` bits: zeros, down to the first one. -/
theorem leadZeros_spec (a : Word) (n : Nat) : leadZeros a n ≤ n ∧
    (∀ i < leadZeros a n, a.getLsbD (n - 1 - i) = false) ∧
    (leadZeros a n < n → a.getLsbD (n - 1 - leadZeros a n) = true) := by
  induction n with
  | zero => simp [leadZeros]
  | succ n ih =>
    obtain ⟨hle, hzero, hone⟩ := ih
    rw [leadZeros]
    by_cases hn : a.getLsbD n = true
    · simp [hn]
    · rw [if_neg hn]
      refine ⟨by omega, fun i hi => ?_, fun hlt => ?_⟩
      · rcases i with _ | i
        · simpa using hn
        · rw [show n + 1 - 1 - (i + 1) = n - 1 - i by omega]
          exact hzero i (by omega)
      · rw [show n + 1 - 1 - (leadZeros a n + 1) = n - 1 - leadZeros a n by omega]
        exact hone (by omega)

/-- What CTZ counts among `n` bits from bit `i`: zeros, up to the first one. -/
theorem trailZeros_spec (a : Word) (n : Nat) : ∀ i, trailZeros a i n ≤ n ∧
    (∀ j < trailZeros a i n, a.getLsbD (i + j) = false) ∧
    (trailZeros a i n < n → a.getLsbD (i + trailZeros a i n) = true) := by
  induction n with
  | zero => simp [trailZeros]
  | succ n ih =>
    intro i
    obtain ⟨hle, hzero, hone⟩ := ih (i + 1)
    rw [trailZeros]
    by_cases hi : a.getLsbD i = true
    · simp [hi]
    · rw [if_neg hi]
      refine ⟨by omega, fun j hj => ?_, fun hlt => ?_⟩
      · rcases j with _ | j
        · simpa using hi
        · rw [show i + (j + 1) = i + 1 + j by omega]
          exact hzero j (by omega)
      · rw [show i + (trailZeros a (i + 1) n + 1) = i + 1 + trailZeros a (i + 1) n by omega]
        exact hone (by omega)

/-- What POPC counts among the low `n` bits: the ones. -/
theorem popCount_eq_countP (a : Word) (n : Nat) : popCount a n = (List.range n).countP fun i => a.getLsbD i := by
  induction n with
  | zero => rfl
  | succ n ih => rw [popCount, ih, List.range_succ, List.countP_append, List.countP_singleton, Nat.add_comm]

/-- CLZ, CTZ and POPC count what R91 says. -/
theorem bitCounts : BitCounts := by
  intro s c o h
  obtain ⟨hl, hlz, hlo⟩ := leadZeros_spec (c.rdS s.eng o.a) 64
  obtain ⟨ht, htz, hto⟩ := trailZeros_spec (c.rdS s.eng o.a) 64 0
  simp only [Nat.zero_add] at htz hto
  simp only [exec]
  refine ⟨_, _, alu2_writes h _ o, alu2_writes h _ o, ?_, hl, hlz, hlo, ht, htz, hto⟩
  rw [← popCount_eq_countP]
  exact alu2_writes h _ o

/-! SEL and the bit fields (R92, R93). -/

/-- A field of width 0 or from bit 64 on is empty. -/
theorem fieldBounds_of_empty {off wid : Word} (h : wid.toNat = 0 ∨ 64 ≤ off.toNat) : fieldBounds off wid = none :=
  if_pos (h.imp_left fun h0 => BitVec.eq_of_toNat_eq h0)

/-- The width of another is clipped at bit 63. -/
theorem fieldBounds_of_nonempty {off wid : Word} (hw : 0 < wid.toNat) (ho : off.toNat < 64) :
    fieldBounds off wid = some (min wid.toNat (64 - off.toNat)) :=
  if_neg fun h => h.elim (fun h0 => by simp [h0] at hw) (fun h1 => by omega)

/-- The bits of a word from bit `off` on, as a bit vector of `w`. -/
theorem getLsbD_ofNat_div (a : Word) (off w i : Nat) :
    (BitVec.ofNat w (a.toNat / 2 ^ off)).getLsbD i = (decide (i < w) && a.getLsbD (off + i)) := by
  rw [BitVec.getLsbD_ofNat, Nat.testBit_div_two_pow, Nat.add_comm, BitVec.testBit_toNat]

/-- BFXZ's bits: the field's, with zeros above. -/
theorem getLsbD_bfxz (a : Word) (off w : Nat) {i : Nat} (hi : i < 64) :
    (BitVec.ofNat 64 (a.toNat / 2 ^ off % 2 ^ w)).getLsbD i = (decide (i < w) && a.getLsbD (off + i)) := by
  rw [BitVec.getLsbD_ofNat, Nat.testBit_mod_two_pow, Nat.testBit_div_two_pow, Nat.add_comm, BitVec.testBit_toNat]
  simp [hi]

/-- A signed integer of `w` bits is the bit vector's own. -/
theorem intOf_true_eq_toInt {w : Nat} (hw : 0 < w) (x : Nat) : intOf true w x = (BitVec.ofNat w x).toInt := by
  have hpow : 2 ^ w = 2 * 2 ^ (w - 1) := by rw [← Nat.pow_succ']; congr 1; omega
  rw [intOf, BitVec.toInt_eq_toNat_cond, BitVec.toNat_ofNat]
  by_cases hs : 2 ^ (w - 1) ≤ x % 2 ^ w
  · simp [hs, show ¬ 2 * (x % 2 ^ w) < 2 ^ w by omega]
  · simp [hs, show 2 * (x % 2 ^ w) < 2 ^ w by omega]

/-- BFX's bits: the field's, and its uppermost one above it. -/
theorem getLsbD_bfx (a : Word) (off : Nat) {w i : Nat} (hw : 0 < w) (hi : i < 64) :
    (BitVec.ofInt 64 (intOf true w (a.toNat / 2 ^ off))).getLsbD i = a.getLsbD (off + min i (w - 1)) := by
  rw [intOf_true_eq_toInt hw, ← BitVec.signExtend, BitVec.getLsbD_signExtend, BitVec.msb_eq_getLsbD_last,
    getLsbD_ofNat_div, getLsbD_ofNat_div]
  by_cases hiw : i < w
  · simp [hi, hiw, show min i (w - 1) = i by omega]
  · simp [hi, hiw, show w - 1 < w by omega, show min i (w - 1) = w - 1 by omega]

/-- BFI's bits: the source's low ones inside the field, and the old ones outside. -/
theorem getLsbD_bfi (d a : Word) (off w : Nat) {i : Nat} (hi : i < 64) :
    let m : Word := BitVec.ofNat 64 (2 ^ w - 1) <<< off
    ((d &&& ~~~m) ||| ((a <<< off) &&& m)).getLsbD i =
      if off ≤ i ∧ i < off + w then a.getLsbD (i - off) else d.getLsbD i := by
  intro m
  have hm : m.getLsbD i = decide (off ≤ i ∧ i < off + w) := by
    rw [BitVec.getLsbD_shiftLeft, BitVec.getLsbD_ofNat, Nat.testBit_two_pow_sub_one, Bool.eq_iff_iff]
    simp only [Bool.and_eq_true, Bool.not_eq_true', decide_eq_true_eq, decide_eq_false_iff_not]
    omega
  rw [BitVec.getLsbD_or, BitVec.getLsbD_and, BitVec.getLsbD_and, BitVec.getLsbD_not, hm, BitVec.getLsbD_shiftLeft]
  by_cases hin : off ≤ i ∧ i < off + w
  · simp [hin, hi]
  · simp [hin, hi]

/-- SEL and the bit fields write what R92 and R93 say. -/
theorem selectAndBitFields : SelectAndBitFields := by
  intro s c o h
  simp only [exec]
  refine ⟨_, _, _, ?_, alu4_writes h _ o, alu4_writes h _ o, execBfi_writes h o, fun hempty => ?_,
    fun ⟨hwid, hoff⟩ i hi => ?_⟩
  · refine (alu4_writes h _ o).trans (congrArg (writes s c o.d) ?_)
    by_cases h0 : c.rdS s.eng o.c = 0
    · rw [if_pos h0, h0]
      rfl
    · have hwid : (c.rdS s.eng o.c).toNat ≠ 0 := fun hn => h0 (BitVec.eq_of_toNat_eq hn)
      rw [if_neg h0, if_pos hwid]
  · simp [bfxVal, bfxzVal, bfiVal, fieldBounds_of_empty hempty]
  · simp only [bfxVal, bfxzVal, bfiVal, fieldBounds_of_nonempty hwid hoff]
    exact ⟨getLsbD_bfxz _ _ _ hi, getLsbD_bfx _ _ (by omega) hi, getLsbD_bfi _ _ _ _ hi⟩

/-- Settles O4: the counts by induction over the bits that they count, the fields bit by bit. -/
theorem bitCountsAndFields : Obligations.BitCountsAndFields := ⟨bitCounts, selectAndBitFields⟩

end Sys2Proof.Machine
end

section
/-!
Scalar floating point (R96 to R100): each instruction's result and flags, and the order and NaN rules of FMIN, FMAX and the
comparisons.
-/
namespace Sys2Proof.Machine
open Sys2Proof.Says

/-- What a comparison delivers: whether the order of its operands is one that `f` accepts, with IV for a NaN that signals, and for
a quiet one where `quietIv` says so (R98). -/
def compared (f : Ordering → Bool) (quietIv : Bool) (x y : Val) : Nat × Flags :=
  (if (match cmpVal x y with | some q => f q | none => false) then 1 else 0,
    if x.isSig || y.isSig || (quietIv && (x.isNan || y.isNan)) then fIV else 0)

section
variable {s : State} {c : Context} (h : runs s c)
include h

/-- A rounded operation delivers its exact value, rounded once. -/
theorem fop3_delivers (f : RMode → Val → Val → Val × Flags) (o : F3) :
    fop3 f o s = delivers s c o.d (rounded c (fType o.dbl)
      (f (RMode.ofFpmode c.r.fpmode) (operand c s.eng o.a o.dbl) (operand c s.eng o.b o.dbl))) :=
  runC_ok h rfl

theorem execFsqrt_delivers (o : F2) :
    execFsqrt o s = delivers s c o.d (rounded c (fType o.dbl) (sqrtVal (operand c s.eng o.a o.dbl))) :=
  runC_ok h rfl

/-- FFMA rounds the sum of its exact product and its third source once, and merges the flags of both steps. -/
theorem execFfma_delivers (o : F4) :
    let p := mulVal (operand c s.eng o.a o.dbl) (operand c s.eng o.b o.dbl)
    let z := sumVals (RMode.ofFpmode c.r.fpmode) [p.1, operand c s.eng o.c o.dbl]
    execFfma o s = delivers s c o.d (rounded c (fType o.dbl) (z.1, p.2 ||| z.2)) :=
  runC_ok h rfl

theorem execFcvt_becomes (o : FCvt) :
    let r := convert o.t1 o.t2 (.ofRm o.rm c.r.fpmode 0) (c.rdF s.eng o.a o.t2)
    execFcvt o s = becomes s (((c.wrS o.d (placeS o.t1 r.1)).addFlags r.2).advance s.eng) :=
  runC_ok h rfl

theorem execFclass_writes (o : FCls) :
    execFclass o s = writes s c o.d (BitVec.ofNat 64 (classMask o.t (c.rdF s.eng o.a o.t))) :=
  runC_ok h rfl

theorem fminmax_delivers (wantMax : Bool) (o : F3) : fminmax wantMax o s = delivers s c o.d
    (minMaxCode wantMax (fType o.dbl) (c.rdF s.eng o.a (fType o.dbl)) (c.rdF s.eng o.b (fType o.dbl))) :=
  runC_ok h rfl

/-- A comparison delivers whether the operands' order is one that it accepts, and IV for the NaNs that it does not. -/
theorem fcmp_delivers (f : Ordering → Bool) (quietIv : Bool) (o : F3) :
    fcmp f quietIv o s = delivers s c o.d
      (compared f quietIv (operand c s.eng o.a o.dbl) (operand c s.eng o.b o.dbl)) :=
  runC_ok h rfl
end

/-- Scalar arithmetic, FCVT and FCLASS deliver what R97, R99 and R100 say. -/
theorem scalarFloatResults : ScalarFloatResults := by
  intro s c o q f v k h
  simp only [exec]
  exact ⟨fop3_delivers h _ o, fop3_delivers h _ o, fop3_delivers h _ o, fop3_delivers h _ o, execFsqrt_delivers h q,
    execFfma_delivers h f, execFcvt_becomes h v, execFclass_writes h k⟩

/-! FMIN and FMAX (R98). -/

/-- The order of FMIN and FMAX on operands that are no NaN: -0 stands below +0. -/
def below (x y : Val) : Bool :=
  match cmpVal x y with
  | some .lt => true
  | some .eq => x.neg? && !y.neg?
  | _ => false

/-- IV is raised for a NaN that signals. -/
def sigFlags (x y : Val) : Flags := if x.isSig || y.isSig then fIV else 0

section
variable {wantMax dbl : Bool} {a b : Nat}

/-- No code of f32 or f64 is replaced as it is selected. -/
theorem canonCode_fType (dbl : Bool) (x : Nat) : canonCode (fType dbl) x = x :=
  if_neg fun h => by cases dbl <;> cases h.1

theorem fType_isInt (dbl : Bool) : (fType dbl).isInt = false := by cases dbl <;> rfl

theorem minMaxCode_flags :
    (minMaxCode wantMax (fType dbl) a b).2 = sigFlags (valOf (fType dbl) a) (valOf (fType dbl) b) := by
  simp only [minMaxCode, fType_isInt, Bool.false_eq_true, if_false, sigFlags]
  split <;> rfl

theorem minMaxCode_of_both_nan (ha : (valOf (fType dbl) a).isNan = true) (hb : (valOf (fType dbl) b).isNan = true) :
    (minMaxCode wantMax (fType dbl) a b).1 = canonNanOf (fType dbl) := by
  simp [minMaxCode, fType_isInt, ha, hb]

theorem minMaxCode_of_left_nan (ha : (valOf (fType dbl) a).isNan = true) (hb : (valOf (fType dbl) b).isNan = false) :
    (minMaxCode wantMax (fType dbl) a b).1 = b := by
  simp [minMaxCode, fType_isInt, canonCode_fType, ha, hb]

theorem minMaxCode_of_right_nan (ha : (valOf (fType dbl) a).isNan = false) (hb : (valOf (fType dbl) b).isNan = true) :
    (minMaxCode wantMax (fType dbl) a b).1 = a := by
  simp [minMaxCode, fType_isInt, canonCode_fType, ha, hb]

theorem minMaxCode_of_ordered (ha : (valOf (fType dbl) a).isNan = false) (hb : (valOf (fType dbl) b).isNan = false) :
    (minMaxCode wantMax (fType dbl) a b).1 =
      if below (valOf (fType dbl) a) (valOf (fType dbl) b) != wantMax then a else b := by
  simp only [minMaxCode, fType_isInt, canonCode_fType, ha, hb, below]
  rfl
end

section
variable {x y : Val}

theorem below_of_less (h : cmpVal x y = some .lt ∨ cmpVal x y = some .eq ∧ x.neg? = true ∧ y.neg? = false) :
    below x y = true := by
  rcases h with h | ⟨h, hx, hy⟩
  · simp [below, h]
  · simp [below, h, hx, hy]

theorem not_below_of_more (h : cmpVal x y = some .gt ∨ cmpVal x y = some .eq ∧ x.neg? = false ∧ y.neg? = true) :
    below x y = false := by
  rcases h with h | ⟨h, hx, hy⟩
  · simp [below, h]
  · simp [below, h, hx, hy]

/-! The comparisons (R98). -/

/-- A NaN that signals is a NaN. -/
theorem Val.isSig_of_not_nan (h : x.isNan = false) : x.isSig = false := by
  cases x with
  | nan q => cases h
  | inf q | fin q n e => rfl

/-- A NaN is unordered. -/
theorem cmpVal_of_nan (h : x.isNan = true ∨ y.isNan = true) : cmpVal x y = none := by
  cases x with
  | nan q => rfl
  | inf q | fin q n e =>
    cases y with
    | nan r => rfl
    | inf r | fin r m f => simp [Val.isNan] at h

/-- Every two other values are ordered. -/
theorem cmpVal_of_not_nan (hx : x.isNan = false) (hy : y.isNan = false) : ∃ q, cmpVal x y = some q := by
  cases x with
  | nan q => cases hx
  | inf q | fin q n e =>
    cases y with
    | nan r => cases hy
    | inf r | fin r m f => exact ⟨_, rfl⟩

variable {f : Ordering → Bool} {quietIv : Bool}

/-- No order of a NaN is accepted. -/
theorem compared_of_nan (h : x.isNan = true ∨ y.isNan = true) : (compared f quietIv x y).1 = 0 := by
  simp [compared, cmpVal_of_nan h]

/-- A comparison for which a quiet NaN sets IV is false and sets it for each NaN. -/
theorem compared_true_of_nan (h : x.isNan = true ∨ y.isNan = true) : compared f true x y = (0, fIV) := by
  have hor : (x.isNan || y.isNan) = true := Bool.or_eq_true_iff.2 h
  simp [compared, cmpVal_of_nan h, hor]

/-- FEQ sets IV for a NaN that signals alone. -/
theorem compared_false_flags : (compared f false x y).2 = sigFlags x y := by simp [compared, sigFlags]

/-- Ordered operands set no flag. -/
theorem compared_flags_of_not_nan (hx : x.isNan = false) (hy : y.isNan = false) : (compared f quietIv x y).2 = 0 := by
  simp [compared, hx, hy, Val.isSig_of_not_nan hx, Val.isSig_of_not_nan hy]
end

/-- What a condition chooses is one of the two. -/
theorem ite_either {α : Type} (p : Prop) [Decidable p] (x y : α) :
    (if p then x else y) = x ∨ (if p then x else y) = y := by
  by_cases hp : p
  · exact .inl (if_pos hp)
  · exact .inr (if_neg hp)

/-- FMIN, FMAX and the comparisons deliver what R98 says. -/
theorem scalarFloatOrder : ScalarFloatOrder := by
  intro s c o h
  simp only [exec]
  refine ⟨_, _, _, _, _, fminmax_delivers h _ o, fminmax_delivers h _ o, fcmp_delivers h _ _ o, fcmp_delivers h _ _ o,
    fcmp_delivers h _ _ o, minMaxCode_flags, minMaxCode_flags, compared_false_flags, fun ⟨hx, hy⟩ => ?_, fun ⟨hx, hy⟩ => ?_,
    fun ⟨hx, hy⟩ => ?_, fun hn => ?_, fun ⟨hx, hy⟩ => ?_⟩
  · exact ⟨minMaxCode_of_both_nan hx hy, minMaxCode_of_both_nan hx hy⟩
  · have hy := Bool.eq_false_iff.2 hy
    exact ⟨minMaxCode_of_left_nan hx hy, minMaxCode_of_left_nan hx hy⟩
  · have hx := Bool.eq_false_iff.2 hx
    exact ⟨minMaxCode_of_right_nan hx hy, minMaxCode_of_right_nan hx hy⟩
  · exact ⟨compared_of_nan hn, compared_true_of_nan hn, compared_true_of_nan hn⟩
  · have hx := Bool.eq_false_iff.2 hx
    have hy := Bool.eq_false_iff.2 hy
    obtain ⟨q, hq⟩ := cmpVal_of_not_nan hx hy
    rw [minMaxCode_of_ordered hx hy, minMaxCode_of_ordered hx hy]
    refine ⟨fun hless => ?_, fun hmore => ?_, ite_either .., ite_either .., compared_flags_of_not_nan hx hy,
      compared_flags_of_not_nan hx hy, ?_⟩
    · rw [below_of_less hless]; exact ⟨rfl, rfl⟩
    · rw [not_below_of_more hmore]; exact ⟨rfl, rfl⟩
    · simp only [compared, operand, hq]
      cases q <;> exact ⟨rfl, rfl, rfl⟩

/-- Settles O7: the results are each instruction's own, the order a split on the operands' NaNs. -/
theorem scalarFloat : Obligations.ScalarFloat := ⟨scalarFloatResults, scalarFloatOrder⟩

end Sys2Proof.Machine
end

section
/-!
What a scalar instruction leaves unchanged (R88, R96): a meaning that writes one scalar, and one that also sets flags.
-/
namespace Sys2Proof.Machine
open Sys2Proof.Says

/-- A written scalar's key is the only one that changes, in the scalars and in the bank. -/
theorem Context.wrS_lookD_other (c : Context) (d : Reg) (v : Word) {n : Nat} (hn : n ≠ d.toNat) :
    lookD (c.wrS d v).r.s n 0 = lookD c.r.s n 0 ∧ lookD (c.wrS d v).r.bank n 0 = lookD c.r.bank n 0 := by
  by_cases hd : d = 0
  · rw [hd, Context.wrS_zero]; exact ⟨rfl, rfl⟩
  · obtain ⟨hbank, hs⟩ := c.wrS_stores v hd
    by_cases hb : c.handler ∧ 56 ≤ d.toNat
    · rw [(hbank hb).1, (hbank hb).2, lookD_putD_other _ _ _ _ _ hn]; exact ⟨rfl, rfl⟩
    · rw [(hs hb).1, (hs hb).2, lookD_putD_other _ _ _ _ _ hn]; exact ⟨rfl, rfl⟩

/-- Moving on changes at most where the engines stand. -/
theorem Context.advance_eq (c : Context) (e : Engine) :
    c.advance e = { c with pos := (c.advance e).pos, hpos := (c.advance e).hpos } := by
  unfold Context.advance Context.move
  split
  · rfl
  · split <;> rfl

/-- A write of a scalar changes at most the scalars, the bank and the owed versions. -/
theorem Context.wrS_eq (c : Context) (d : Reg) (v : Word) :
    c.wrS d v = { c with
      r := { c.r with s := (c.wrS d v).r.s, bank := (c.wrS d v).r.bank }
      owed := (c.wrS d v).owed } := by
  unfold Context.wrS Context.purgeH
  split
  · rfl
  · split
    · rfl
    · split <;> rfl

/-- A scalar that is written, and the next slot. -/
theorem onlyScalar_wrS_advance (c : Context) (d : Reg) (v : Word) (e : Engine) :
    OnlyScalar d c ((c.wrS d v).advance e) where
  scalars n hn := by rw [Context.advance_r, (c.wrS_lookD_other d v hn).1]
  banked n hn := by rw [Context.advance_r, (c.wrS_lookD_other d v hn).2]
  zero hd := by rw [Context.advance_r, hd, Context.wrS_zero]
  rest := by
    rw [Context.advance_r, Context.advance_owed, Context.advance_eq, Context.wrS_eq]

/-- A scalar that is written with flags, and the next slot. -/
theorem onlyScalarAndFlags_addFlags_advance (c : Context) (d : Reg) (v : Word) (f : Flags) (e : Engine) :
    OnlyScalarAndFlags d c (((c.wrS d v).addFlags f).advance e) where
  scalars n hn := by rw [Context.advance_r]; exact (c.wrS_lookD_other d v hn).1
  banked n hn := by rw [Context.advance_r]; exact (c.wrS_lookD_other d v hn).2
  sticky := by
    rw [Context.advance_r, Context.addFlags_r_flags, Context.wrS_r_flags]
    ext i
    cases hi : c.r.flags[i] <;> simp [hi]
  rest := by
    rw [Context.advance_r, Context.advance_owed, Context.advance_eq, Context.addFlags, Context.wrS_eq]

section
variable {s : State} {c : Context} {d : Reg} {i : Instr} (h : runs s c)
include h

/-- An integer or immediate instruction, and FCLASS, writes a value to its scalar. -/
theorem exec_writes_of_scalarOnly (hi : scalarOnly i = some d) : ∃ v, exec i s = writes s c d v := by
  unfold exec
  cases i with
  | clz o | ctz o | popc o => cases hi; exact ⟨_, alu2_writes h _ o⟩
  | add o | sub o | mul o | mulh o | mulhz o | div o | divz o | rem o | remz o | and o | or o | xor o | andn o
  | shl o | shr o | sha o | rotl o | min o | minz o | max o | maxz o | seq o | sne o | slt o | sltz o | sle o
  | slez o => cases hi; exact ⟨_, alu3_writes h o rfl⟩
  | sel o | bfx o | bfxz o => cases hi; exact ⟨_, alu4_writes h _ o⟩
  | bfi o => cases hi; exact ⟨_, execBfi_writes h o⟩
  | addi o | andi o | ori o | xori o => cases hi; exact ⟨_, aluImm_writes h _ o⟩
  | shli o | shri o | shai o | rotli o => cases hi; exact ⟨_, aluSh_writes h _ o⟩
  | movi o => cases hi; exact ⟨_, execMovi_writes h o⟩
  | movhi o => cases hi; exact ⟨_, execMovhi_writes h o⟩
  | lea o => cases hi; exact ⟨_, execLea_writes h o⟩
  | fclass o => cases hi; exact ⟨_, execFclass_writes h o⟩
  | _ => cases hi

/-- A scalar floating-point instruction that sets flags writes a value to its scalar. -/
theorem exec_becomes_of_scalarAndFlags (hi : scalarAndFlags i = some d) :
    ∃ v f, exec i s = becomes s (((c.wrS d v).addFlags f).advance s.eng) := by
  unfold exec
  cases i with
  | fadd o | fsub o | fmul o | fdiv o => cases hi; exact ⟨_, _, fop3_delivers h _ o⟩
  | fmin o | fmax o => cases hi; exact ⟨_, _, fminmax_delivers h _ o⟩
  | feq o | flt o | fle o => cases hi; exact ⟨_, _, fcmp_delivers h _ _ o⟩
  | fsqrt o => cases hi; exact ⟨_, _, execFsqrt_delivers h o⟩
  | ffma o => cases hi; exact ⟨_, _, execFfma_delivers h o⟩
  | fcvt o => cases hi; exact ⟨_, _, execFcvt_becomes h o⟩
  | _ => cases hi
end

/-- Settles O6: the one scalar is written, with flags or without, and the context goes on. -/
theorem scalarFrame : Obligations.ScalarFrame := by
  intro i s t c d h ht
  refine ⟨fun hi => ?_, fun hi => ?_⟩
  · obtain ⟨v, hv⟩ := exec_writes_of_scalarOnly h hi
    cases hv.symm.trans ht
    exact ⟨_, rfl, onlyScalar_wrS_advance c d v s.eng, fun _ => rfl⟩
  · obtain ⟨v, f, hv⟩ := exec_becomes_of_scalarAndFlags h hi
    cases hv.symm.trans ht
    exact ⟨_, rfl, onlyScalarAndFlags_addFlags_advance c d v f s.eng, fun _ => rfl⟩

end Sys2Proof.Machine
end

section
/-!
LDS and STS (R6, R95): the answers of their accesses, and the bytes that a store leaves.
-/
namespace Sys2Proof.Machine
open Sys2Proof.Says

/-! What noting an access leaves (R242, R312). -/

/-- A fold each of whose steps keeps a part of the state keeps it. -/
theorem foldl_keeps {σ β γ : Type} (g : σ → γ) {f : σ → β → σ} (hf : ∀ s b, g (f s b) = g s) (l : List β) :
    ∀ s, g (l.foldl f s) = g s := by
  induction l with
  | nil => intro s; rfl
  | cons b r ih => intro s; rw [List.foldl_cons, ih, hf]

theorem noteTrans_ctxs (core root : Nat) (s : State) (t : Trans) : (noteTrans core root s t).ctxs = s.ctxs := by
  unfold noteTrans; dsimp only; split <;> rfl

theorem noteTrans_tags (core root : Nat) (s : State) (t : Trans) : (noteTrans core root s t).tags = s.tags := by
  unfold noteTrans; dsimp only; split <;> rfl

theorem State.noteParts_ctxs (s : State) (w : Who) (ps : List Part) : (s.noteParts w ps).ctxs = s.ctxs :=
  foldl_keeps State.ctxs (by exact fun s p => noteTrans_ctxs w.core w.root s p.t) ps s

@[simp] theorem State.noteParts_tags (s : State) (w : Who) (ps : List Part) : (s.noteParts w ps).tags = s.tags :=
  foldl_keeps State.tags (by exact fun s p => noteTrans_tags w.core w.root s p.t) ps s

theorem writeTags_ctxs (s : State) (ver : Nat) (ps : List Part) : (writeTags s ver ps).ctxs = s.ctxs := by
  refine foldl_keeps State.ctxs (fun t p => ?_) ps s
  split
  · exact foldl_keeps State.ctxs (by exact fun _ _ => rfl) _ t
  · rfl

@[simp] theorem State.noteParts_ctx? (s : State) (w : Who) (ps : List Part) (p : Nat) :
    (s.noteParts w ps).ctx? p = s.ctx? p := by
  rw [State.ctx?, State.noteParts_ctxs, State.ctx?]

@[simp] theorem writeTags_ctx? (s : State) (ver : Nat) (ps : List Part) (p : Nat) :
    (writeTags s ver ps).ctx? p = s.ctx? p := by
  rw [State.ctx?, writeTags_ctxs, State.ctx?]

@[simp] theorem State.store_ctx? (s : State) (ps : List Part) (v p : Nat) : (s.store ps v).ctx? p = s.ctx? p := rfl

/-! LDS (R95). -/

section
variable {s : State} {c : Context} (h : runs s c) (o : CMem)
include h

theorem execLds_loads {v : Nat} {ps : List Part} (hr : readMem s (c.who s.cur) c.r.gver notWs (memBytes o.w)
    (c.addr s.eng o.base o.off) (memBytes o.w) = .ok (v, ps)) :
    execLds o s = .next ((s.noteParts (c.who s.cur) ps).setCtx s.cur ((c.wrS o.d (memExtend o.w v)).advance s.eng)) :=
  runS_ok h (by simp only [hr]; rfl)

theorem execLds_traps {x : Trap} (hr : readMem s (c.who s.cur) c.r.gver notWs (memBytes o.w)
    (c.addr s.eng o.base o.off) (memBytes o.w) = .error (.trap x)) : execLds o s = traps s c x :=
  runS_trap h (by simp only [hr]; rfl)

theorem execLds_waits (hr : readMem s (c.who s.cur) c.r.gver notWs (memBytes o.w)
    (c.addr s.eng o.base o.off) (memBytes o.w) = .error .wait) : execLds o s = waits s :=
  runS_wait h (by simp only [hr]; rfl)
end

/-- LDS loads, faults or waits as its access does. -/
theorem scalarLoad : ScalarLoad := fun s c o h =>
  ⟨fun ha => execLds_traps h o (readMem_misaligned s _ _ _ (memBytes o.w) ha), fun _ => execLds_traps h o,
    execLds_waits h o, fun _ ps hr => ⟨_, execLds_loads h o hr, State.ctx?_setCtx_same .., fun _ => by simp, by simp,
      fun p hp => by rw [State.ctx?_setCtx_other _ _ _ _ hp, State.noteParts_ctx?]⟩⟩

/-! STS (R6, R95). -/

/-- An access at an address that is not a multiple of its alignment raises ALIGN (R243). -/
theorem accessCheck_misaligned (s : State) (w : Who) (kind : AccKind) (ok : Trans → Bool) {align va : Nat} (len : Nat)
    (h : va % align ≠ 0) :
    accessCheck s w kind ok align va len = .error (.trap { code := .align, addr := va % 2 ^ 56 }) := by
  rw [accessCheck, check_bind_false (beq_eq_false_iff_ne.2 h)]

/-- The bytes of a part that are not written read as before. -/
theorem read_writePart_outside (t : Trans) (l n : Nat) : ∀ (m : Memory) (i v : Nat),
    (∀ j < n, l ≠ t.locAt (i + j)) → (writePart m t i n v).read l = m.read l := by
  induction n with
  | zero => intros; rfl
  | succ n ih =>
    intro m i v hl
    rw [writePart, ih _ _ _ fun j hj => by rw [Nat.add_assoc, Nat.add_comm 1]; exact hl (j + 1) (by omega)]
    exact Memory.read_write_other m _ (hl 0 (by omega))

/-- The bytes outside the parts that are written read as before. -/
theorem read_writeParts_outside (l : Nat) (ps : List Part) : ∀ (m : Memory) (v : Nat),
    l ∉ locations ps → (writeParts m ps v).read l = m.read l := by
  induction ps with
  | nil => intros; rfl
  | cons p r ih =>
    intro m v hl
    rw [locations, List.flatMap_cons, List.mem_append, not_or] at hl
    rw [writeParts, ih _ _ hl.2]
    refine read_writePart_outside p.t l p.len m 0 v fun j hj he => hl.1 ?_
    exact List.mem_map.2 ⟨j, List.mem_range.2 hj, by rw [he, Nat.zero_add]⟩

section
variable {s : State} {c : Context} (h : runs s c) (o : CMem)
include h

theorem execSts_stores {ps : List Part} (hr : accessCheck s (c.who s.cur) .write plainW (memBytes o.w)
    (c.addr s.eng o.base o.off) (memBytes o.w) = .ok ps) (hbad : s.bad = []) :
    execSts o s = .next ((writeTags ((s.store ps (c.rdS s.eng o.d).toNat).noteParts (c.who s.cur) ps) c.r.gver ps).setCtx
      s.cur (c.advance s.eng)) :=
  runS_ok h (by simp only [writeMem, hr, hbad]; rfl)

theorem execSts_traps {x : Trap} (hr : accessCheck s (c.who s.cur) .write plainW (memBytes o.w)
    (c.addr s.eng o.base o.off) (memBytes o.w) = .error (.trap x)) : execSts o s = traps s c x :=
  runS_trap h (by simp only [writeMem, hr]; rfl)

theorem execSts_waits (hr : accessCheck s (c.who s.cur) .write plainW (memBytes o.w)
    (c.addr s.eng o.base o.off) (memBytes o.w) = .error .wait) : execSts o s = waits s :=
  runS_wait h (by simp only [writeMem, hr]; rfl)
end

/-- STS stores, faults or waits as its access does. -/
theorem scalarStore : ScalarStore := by
  intro s c o h
  refine ⟨fun ha => execSts_traps h o (accessCheck_misaligned s _ _ _ (memBytes o.w) ha), fun _ => execSts_traps h o,
    execSts_waits h o, fun ps hr hbad => ⟨_, execSts_stores h o hr hbad, ?_, fun l hl => ?_, State.ctx?_setCtx_same ..,
      fun p hp => ?_⟩⟩
  · simp [State.store]
  · simpa [State.store] using read_writeParts_outside l ps s.mem _ hl
  · rw [State.ctx?_setCtx_other _ _ _ _ hp, writeTags_ctx?, State.noteParts_ctx?, State.store_ctx?]

/-- Settles O8: each instruction answers what its access answers, and writes no byte outside it. -/
theorem scalarMemory : Obligations.ScalarMemory := ⟨scalarLoad, scalarStore⟩

end Sys2Proof.Machine
end

section
/-!
The system registers (R9, R21, R108, R318): what SYSRD reads at each number, and what SYSWR makes of each.
-/
namespace Sys2Proof.Machine
open Sys2Proof.Says

/-! SYSRD (R108, R318). -/

/-- The numbers that SYSRD reads outside the fault registers and WREFR. -/
def readsPlain (n : Nat) : Bool := decide (n ≠ 0x40 ∧ (n < 0x80 ∨ 0x90 ≤ n))

theorem readsPlain_iff {n : Nat} : readsPlain n = true ↔ n ≠ 0x40 ∧ (n < 0x80 ∨ 0x90 ≤ n) := decide_eq_true_iff

theorem isFaultReg_eq_false {n : Nat} (h : n < 0x80 ∨ 0x90 ≤ n) : isFaultReg n = false := by
  simp [isFaultReg]; omega

theorem isFaultReg_of_noFaultReg {n : Nat} (h : noFaultReg n = true) : isFaultReg n = true := by
  simp [noFaultReg, isFaultReg] at h ⊢
  omega

theorem readsPlain_of_unassigned {n : Nat} (h : unassigned n) : readsPlain n = true := by
  unfold unassigned at h
  rw [readsPlain_iff]
  omega

/-- No table assigns a value to an unassigned number (R108). -/
theorem sysRead_unassigned (s : State) (pos : Nat) (c : Context) {n : Nat} (hn : unassigned n) :
    sysRead s pos c n = none := by
  unfold unassigned at hn
  simp (disch := omega) only [sysRead, if_neg]

section
variable {s : State} {c : Context} (h : runs s c) (o : SysRd) {k : Nat} (hn : o.n.toNat = k)
include h hn

theorem execSysrd_prot (hk : isFaultReg k = true) (hh : c.handler = false) :
    execSysrd o s = traps s c { code := .prot } :=
  runS_trap h (by simp only [hn, hk, hh]; rfl)

theorem execSysrd_noFaultReg (hno : noFaultReg k = true) (hh : c.handler = true) :
    execSysrd o s = traps s c { code := .illop } :=
  runS_trap h (by simp only [hn, isFaultReg_of_noFaultReg hno, hno, hh]; rfl)

theorem execSysrd_faultReg (hk : isFaultReg k = true) (hno : noFaultReg k = false) (hh : c.handler = true) :
    execSysrd o s = writes s c o.d (faultRegWord c.flt k) :=
  runS_ok h (by simp only [hn, hk, hno, hh]; rfl)

theorem execSysrd_reads {v : Word} (hk : readsPlain k = true) (hv : sysRead s s.cur c k = some v) :
    execSysrd o s = writes s c o.d v := by
  obtain ⟨hw, hf⟩ := readsPlain_iff.1 hk
  exact runS_ok h (by simp only [hn, isFaultReg_eq_false hf, hw, hv]; rfl)

theorem execSysrd_unassigned (hk : unassigned k) : execSysrd o s = traps s c { code := .illop } := by
  obtain ⟨hw, hf⟩ := readsPlain_iff.1 (readsPlain_of_unassigned hk)
  exact runS_trap h (by simp only [hn, isFaultReg_eq_false hf, hw, sysRead_unassigned s s.cur c hk]; rfl)
end

/-- WREFR gives a position in the refresh period (R238). -/
theorem execSysrd_wrefr {s : State} {c : Context} (h : runs s c) (o : SysRd) (hn : o.n.toNat = 0x40) :
    ∃ p t, p < 64000 ∧ execSysrd o s = .next t ∧ t.ctx? s.cur = some ((c.wrS o.d (wrefrWord p)).advance s.eng) :=
  ⟨_, _, Nat.mod_lt _ (by decide), runS_ok h (by simp only [hn]; rfl), State.ctx?_setCtx_same ..⟩

/-! The registers that stand at several numbers. -/

section
variable (s : State) (pos : Nat) (c : Context) {k : Nat}

theorem sysRead_tshape (hk : k < 8) : sysRead s pos c (0x10 + k) = some (lookD c.mat.tshape k 0) := by
  simp (disch := omega) only [sysRead, if_neg, if_pos, Nat.add_sub_cancel_left]

theorem sysRead_txw (hk : k < 8) :
    sysRead s pos c (0x21 + k) = some ((lookD c.tens c.r.txsel 0).extractLsb' (64 * k) 64) := by
  simp (disch := omega) only [sysRead, if_neg, if_pos, Nat.add_sub_cancel_left]

theorem sysRead_sh (hk : k < 4) : sysRead s pos c (0x32 + k) = some (BitVec.ofNat 64 (c.bind.sh.getD k 0)) := by
  simp (disch := omega) only [sysRead, if_neg, if_pos, Nat.add_sub_cancel_left]

theorem sysRead_chain (hk : k < 8) : sysRead s pos c (0x45 + k) = some (chainWord (c.chain c.r.qsel) k) := by
  simp (disch := omega) only [sysRead, if_neg, if_pos, Nat.add_sub_cancel_left]

theorem sysRead_range (hk : k < 32) : sysRead s pos c (0x50 + k) = some (lookD (s.die (dieOf pos)).ranges k 0) := by
  simp (disch := omega) only [sysRead, if_neg, if_pos, Nat.add_sub_cancel_left]

theorem sysRead_link (hk : k < 32) : sysRead s pos c (0xA0 + k) = some (linkWord (linkAt s k)) := by
  simp (disch := omega) only [sysRead, if_neg, if_pos, Nat.add_sub_cancel_left, linkAt]

theorem faultRegWord_fpc (f : FaultRegs) (hk : k < 6) : faultRegWord f (0x88 + k) = lookD f.fpc k 0 := by
  simp (disch := omega) only [faultRegWord, if_neg, Nat.add_sub_cancel_left]

end

/-- Settles O11: the numbers of the fault registers, of WREFR, of the other registers, and the unassigned ones. -/
theorem systemReads : Obligations.SystemReads := by
  intro s c o h
  simp only [exec]
  have one {k : Nat} {v : Word} (hk : readsPlain k = true) (hv : sysRead s s.cur c k = some v) (hn : o.n.toNat = k) :
      execSysrd o s = writes s c o.d v := execSysrd_reads h o hn hk hv
  have group {a m k : Nat} {v : Word} (hk : k < m) (ha : ∀ k < m, readsPlain (a + k) = true)
      (hv : sysRead s s.cur c (a + k) = some v) (hn : o.n.toNat = a + k) :
      execSysrd o s = writes s c o.d v := execSysrd_reads h o hn (ha k hk) hv
  refine ⟨fun hf hh => execSysrd_prot h o rfl hf hh, fun hno hh => execSysrd_noFaultReg h o rfl hno hh, fun hh => ?_,
    one rfl rfl, one rfl rfl, one rfl rfl, one rfl rfl, one rfl rfl, one rfl rfl, one rfl rfl, one rfl rfl, one rfl rfl,
    one rfl rfl, one rfl rfl, one rfl rfl,
    fun _ hk => group hk (by decide) (sysRead_tshape s s.cur c hk), one rfl rfl, one rfl rfl, one rfl rfl,
    fun _ hk => group hk (by decide) (sysRead_txw s s.cur c hk), one rfl rfl, one rfl rfl,
    fun _ hk => group hk (by decide) (sysRead_sh s s.cur c hk), one rfl rfl, one rfl rfl, one rfl rfl, one rfl rfl,
    one rfl rfl, one rfl rfl, one rfl rfl,
    fun _ hk => group hk (by decide) (sysRead_chain s s.cur c hk),
    fun _ hk => group hk (by decide) (sysRead_range s s.cur c hk), one rfl rfl, one rfl rfl, one rfl rfl, one rfl rfl,
    fun _ hk => group hk (by decide) (sysRead_link s s.cur c hk), execSysrd_unassigned h o rfl, execSysrd_wrefr h o⟩
  have fault {k : Nat} (hk : isFaultReg k = true) (hno : noFaultReg k = false) (hn : o.n.toNat = k) :
      execSysrd o s = writes s c o.d (faultRegWord c.flt k) := execSysrd_faultReg h o hn hk hno hh
  refine ⟨fault rfl rfl, fault rfl rfl, fault rfl rfl, fault rfl rfl, fun k hk hn => ?_, fault rfl rfl, fault rfl rfl⟩
  rw [← faultRegWord_fpc c.flt hk]
  exact fault (by simp [isFaultReg]; omega) (by simp [noFaultReg]; omega) hn

end Sys2Proof.Machine
end

section
/-!
SYSWR (R9, R21, R108, R120, R147, R155, R169, R318, R346): what it makes of each register, and the rows of their own.
-/
namespace Sys2Proof.Machine
open Sys2Proof.Says

/-! SYSWR of the registers without a row of their own (R108). -/

/-- The numbers that SYSWR writes outside the fault registers and the words of a chain. -/
def writesPlain (n : Nat) : Bool := decide ((n < 0x45 ∨ 0x4C < n) ∧ (n < 0x80 ∨ 0x90 ≤ n))

theorem writesPlain_iff {n : Nat} : writesPlain n = true ↔ (n < 0x45 ∨ 0x4C < n) ∧ (n < 0x80 ∨ 0x90 ≤ n) :=
  decide_eq_true_iff

theorem writesPlain_of_isRo {n : Nat} (h : isRo n = true) : writesPlain n = true := by
  simp [isRo] at h
  rw [writesPlain_iff]
  omega

theorem writesPlain_of_unassigned {n : Nat} (h : unassigned n) : writesPlain n = true := by
  unfold unassigned at h
  rw [writesPlain_iff]
  omega

/-- No RO register takes a value. -/
theorem sysWrite_of_isRo (c : Context) {n : Nat} (v : Word) (h : isRo n = true) : sysWrite c n v = none := by
  simp [isRo] at h
  simp (disch := omega) only [sysWrite, if_neg]

/-- No unassigned number takes a value. -/
theorem sysWrite_of_unassigned (c : Context) {n : Nat} (v : Word) (h : unassigned n) : sysWrite c n v = none := by
  unfold unassigned at h
  simp (disch := omega) only [sysWrite, if_neg]

theorem isRo_of_unassigned {n : Nat} (h : unassigned n) : isRo n = false := by
  unfold unassigned at h
  simp [isRo]
  omega

section
variable {s : State} {c : Context} (h : runs s c) (o : SysWr) {k : Nat} (hn : o.n.toNat = k)
include h hn

theorem execSyswr_sets {c' : Context} (hk : writesPlain k = true)
    (hv : sysWrite (c.advance s.eng) k (c.rdS s.eng o.a) = some c') : execSyswr o s = becomes s c' := by
  obtain ⟨hq, hf⟩ := writesPlain_iff.1 hk
  exact runS_ok h (by
    simp only [hn, isFaultReg_eq_false hf, show k ≠ 0x45 by omega, show ¬ (0x46 ≤ k ∧ k ≤ 0x4C) by omega, hv]; rfl)

theorem execSyswr_ro (hk : isRo k = true) : execSyswr o s = passes s c := by
  obtain ⟨hq, hf⟩ := writesPlain_iff.1 (writesPlain_of_isRo hk)
  exact runS_ok h (by
    simp only [hn, isFaultReg_eq_false hf, show k ≠ 0x45 by omega, show ¬ (0x46 ≤ k ∧ k ≤ 0x4C) by omega,
      sysWrite_of_isRo _ _ hk, hk]; rfl)

theorem execSyswr_unassigned (hk : unassigned k) : execSyswr o s = traps s c { code := .illop } := by
  obtain ⟨hq, hf⟩ := writesPlain_iff.1 (writesPlain_of_unassigned hk)
  exact runS_trap h (by
    simp only [hn, isFaultReg_eq_false hf, show k ≠ 0x45 by omega, show ¬ (0x46 ≤ k ∧ k ≤ 0x4C) by omega,
      sysWrite_of_unassigned _ _ hk, isRo_of_unassigned hk]; rfl)

theorem execSyswr_prot (hk : isFaultReg k = true) (hh : c.handler = false) :
    execSyswr o s = traps s c { code := .prot } :=
  runS_trap h (by simp only [hn, hk, hh]; rfl)

theorem execSyswr_noFaultReg (hno : noFaultReg k = true) (hh : c.handler = true) :
    execSyswr o s = traps s c { code := .illop } :=
  runS_trap h (by simp only [hn, isFaultReg_of_noFaultReg hno, hno, hh]; rfl)
end

section
variable {s : State} {c : Context} (h : runs s c) (o : SysWr) (hh : c.handler = true)
include h hh

theorem execSyswr_fnestv (hn : o.n.toNat = 0x8E) : execSyswr o s = becomes s
    ({ c with flt := { c.flt with fnestv := c.rdS s.eng o.a &&& nestMask } }.advance s.eng) :=
  runS_ok h (by simp only [hn, hh]; rfl)

theorem execSyswr_fnestm (hn : o.n.toNat = 0x8F) : execSyswr o s = becomes s
    ({ c with flt := { c.flt with fnestm := c.rdS s.eng o.a &&& nestMask } }.advance s.eng) :=
  runS_ok h (by simp only [hn, hh]; rfl)

/-- FCAUSE, FADDR, FSLOT and FSEQ are read-only (R318). -/
theorem execSyswr_faultRo (hn : 0x80 ≤ o.n.toNat ∧ o.n.toNat ≤ 0x83) : execSyswr o s = passes s c := by
  have hf : isFaultReg o.n.toNat = true := by simp [isFaultReg]; omega
  have hno : noFaultReg o.n.toNat = false := by simp [noFaultReg]; omega
  exact runS_ok h (by
    simp only [hf, hno, hh, show o.n.toNat ≠ 0x8E by omega, show o.n.toNat ≠ 0x8F by omega]; rfl)
end

/-- SYSWR makes of each register what R9, R21, R108 and R318 say. -/
theorem systemWrites : SystemWrites := by
  intro s c o h
  simp only [exec]
  have sets {k : Nat} {c' : Context} (hk : writesPlain k = true)
      (hv : sysWrite (c.advance s.eng) k (c.rdS s.eng o.a) = some c') (hn : o.n.toNat = k) :
      execSyswr o s = becomes s c' := execSyswr_sets h o hn hk hv
  refine ⟨fun hn => ⟨_, sets rfl rfl hn, by simp, by simp, by simp⟩,
    fun hn => ⟨_, sets rfl rfl hn, by simp⟩, fun hn => ⟨_, sets rfl rfl hn, ?_⟩,
    fun hn => ⟨_, sets rfl rfl hn, ?_⟩, fun hn => ⟨_, sets rfl rfl hn, ?_⟩,
    fun hn => ⟨_, sets rfl rfl hn, ?_⟩, fun hn => ⟨_, sets rfl rfl hn, by simp⟩,
    fun hn => ⟨_, sets rfl rfl hn, by simp⟩, fun hn => ⟨_, sets rfl rfl hn, by simp⟩,
    fun hn => ⟨_, sets rfl rfl hn, by simp⟩, fun hn => ⟨_, sets rfl rfl hn, by simp⟩,
    execSyswr_ro h o rfl, execSyswr_unassigned h o rfl, execSyswr_prot h o rfl, execSyswr_noFaultReg h o rfl,
    fun hn hh => execSyswr_fnestv h o hh hn, fun hn hh => execSyswr_fnestm h o hh hn,
    fun hn hh => execSyswr_faultRo h o hh hn⟩
  · simp [Context.wrRbase]
  all_goals simp [BitVec.setWidth_eq_extractLsb']

/-! The rows of their own: SPM, FPC and TXW (R120, R155, R169, R318). -/

section
variable {s : State} {c : Context} (h : runs s c)
include h

theorem execSyswrSpm_becomes (a : Reg) :
    execSyswrSpm a s = becomes s ({ c with spmode := (c.rdS s.eng a).toNat % 4 }.advance s.eng) :=
  runC_ok h rfl

theorem execSyswrFpc_becomes (o : SysWrK) (hh : c.handler = true) :
    execSyswrFpc o s = becomes s ({ c with flt := c.flt.redirect (c.rdS s.eng o.a) }.advance s.eng) :=
  runC_ok h (by simp only [hh]; rfl)

theorem execSyswrFpc_prot (o : SysWrK) (hh : c.handler = false) :
    execSyswrFpc o s = traps s c { code := .prot } :=
  runC_trap h (by simp only [hh]; rfl)

theorem execSyswrTxw_becomes (o : SysWrK) : execSyswrTxw o s = becomes s
    ({ c with
      tens := putD c.tens c.r.txsel (tensWrite (lookD c.tens c.r.txsel 0) o.k.toNat (c.rdS s.eng o.a)) 0
      tgen := putD c.tgen c.r.txsel (lookD c.tgen c.r.txsel 0 + 1) 0 }.advance s.eng) :=
  runC_ok h rfl
end

/-- All six FPC take the value. -/
theorem FaultRegs.redirect_fpc (f : FaultRegs) (v : Word) {k : Nat} (hk : k < 6) :
    lookD (f.redirect v).fpc k 0 = v := by
  simp only [FaultRegs.redirect, List.foldl_cons, List.foldl_nil]
  match k with
  | 0 | 1 | 2 | 3 | 4 | 5 => simp [lookD_putD_other]
  | n + 6 => omega

/-- V is cleared in FNESTV and FNESTM. -/
theorem FaultRegs.redirect_nests (f : FaultRegs) (v : Word) :
    (f.redirect v).fnestv.getLsbD 56 = false ∧ (f.redirect v).fnestm.getLsbD 56 = false := by
  simp [FaultRegs.redirect]

/-- The bits of a tensor entry after a word of it is written. -/
theorem getLsbD_tensWrite (t : BitVec 512) (k : Nat) (v : Word) {i : Nat} (hi : i < 512) :
    (tensWrite t k v).getLsbD i =
      if 64 * k ≤ i ∧ i < 64 * k + 64 then (v &&& tensMask k).getLsbD (i - 64 * k) else t.getLsbD i := by
  have hm : ((BitVec.allOnes 64).setWidth 512 <<< (64 * k)).getLsbD i = decide (64 * k ≤ i ∧ i < 64 * k + 64) := by
    rw [BitVec.getLsbD_shiftLeft, BitVec.getLsbD_setWidth, BitVec.getLsbD_allOnes, Bool.eq_iff_iff]
    simp only [Bool.and_eq_true, Bool.not_eq_true', decide_eq_true_eq, decide_eq_false_iff_not]
    omega
  rw [tensWrite, BitVec.getLsbD_or, BitVec.getLsbD_and, BitVec.getLsbD_not, hm, BitVec.getLsbD_shiftLeft,
    BitVec.getLsbD_setWidth]
  by_cases hin : 64 * k ≤ i ∧ i < 64 * k + 64
  · simp [hin, hi, show i - 64 * k < 512 by omega]
  · have hout : i < 64 * k ∨ (v &&& tensMask k).getLsbD (i - 64 * k) = false := by
      by_cases hlo : i < 64 * k
      · exact .inl hlo
      · exact .inr (BitVec.getLsbD_of_ge _ _ (by omega))
    rw [if_neg hin, decide_eq_false hin]
    rcases hout with hout | hout
    · simp [hout, hi]
    · rw [hout]; simp [hi]

/-- A written word of a tensor entry holds the value's writable bits. -/
theorem tensWrite_same (t : BitVec 512) {k : Nat} (v : Word) (hk : k < 8) :
    (tensWrite t k v).extractLsb' (64 * k) 64 = v &&& tensMask k := by
  ext i hi
  simp only [← BitVec.getLsbD_eq_getElem]
  rw [BitVec.getLsbD_extractLsb', getLsbD_tensWrite _ _ _ (by omega), if_pos (by omega), Nat.add_sub_cancel_left]
  simp [hi]

/-- The other words stay. -/
theorem tensWrite_other (t : BitVec 512) {k j : Nat} (v : Word) (hj : j < 8) (hjk : j ≠ k) :
    (tensWrite t k v).extractLsb' (64 * j) 64 = t.extractLsb' (64 * j) 64 := by
  ext i hi
  simp only [← BitVec.getLsbD_eq_getElem]
  rw [BitVec.getLsbD_extractLsb', BitVec.getLsbD_extractLsb', getLsbD_tensWrite _ _ _ (by omega), if_neg (by omega)]

/-! The row of TSHAPE (R147, R330). -/

/-- A change of a task's context is made of each context of the task. -/
theorem updTask_ctx? (s : State) (lid wid : Nat) (g : Context → Context) (p : Nat) : (updTask s lid wid g).ctx? p =
    (s.ctx? p).map fun x => if x.bind.lid == lid && x.bind.wid == wid then g x else x :=
  find?_map_if s.ctxs (fun x => x.bind.lid == lid && x.bind.wid == wid) g p

/-- Evicting a unit changes of a context at most which of its units the save area has. -/
theorem evictOne_ctx? (s : State) (core : Nat) (u : UnitRes) {p : Nat} {x : Context} (h : s.ctx? p = some x) :
    ∃ l, (evictOne s core u).ctx? p = some { x with clean := l } := by
  have hset (k : Core) : (s.setCore core k).ctx? p = some x := h
  unfold evictOne
  dsimp only
  rw [updTask_ctx?, hset, Option.map_some]
  split
  · exact ⟨_, rfl⟩
  · exact ⟨x.clean, rfl⟩

/-- Making room changes of a context at most which of its units the save area has. -/
theorem evictFor_ctx? (core : Nat) (k : Space) (need n : Nat) {p : Nat} : ∀ {s : State} {x : Context},
    s.ctx? p = some x → ∃ l, (evictFor core k need n s).ctx? p = some { x with clean := l } := by
  induction n with
  | zero => exact fun {s x} h => ⟨x.clean, h⟩
  | succ n ih =>
    intro s x h
    unfold evictFor
    split
    · exact ⟨x.clean, h⟩
    · split
      · exact ⟨x.clean, h⟩
      · next u _ =>
        obtain ⟨l, hl⟩ := evictOne_ctx? s core u h
        obtain ⟨l', hl'⟩ := ih hl
        exact ⟨l', hl'⟩

theorem makeRoom_ctx? {s : State} (core : Nat) (k : Space) (need : Nat) {p : Nat} {x : Context} (h : s.ctx? p = some x) :
    ∃ l, (makeRoom s core k need).ctx? p = some { x with clean := l } :=
  evictFor_ctx? core k need _ h

/-- What the contexts of a core use of a kind depends on what each uses of it. -/
theorem residentUse_setCtx_congr (s : State) (p core : Nat) {k : Space} {x y : Context} (h : useOf x k = useOf y k) :
    residentUse (s.setCtx p x) core k = residentUse (s.setCtx p y) core k := by
  have huse : ∀ m : Store Context, (((put m p x).filter fun e => coreOf e.1 == core).map (·.2)).map (useOf · k) =
      (((put m p y).filter fun e => coreOf e.1 == core).map (·.2)).map (useOf · k) := by
    intro m
    induction m with
    | nil => cases hp : coreOf p == core <;> simp [put, hp, h]
    | cons e r ih =>
      obtain ⟨q, w⟩ := e
      simp only [put]
      split
      · cases hp : coreOf p == core <;> simp [hp, h]
      · split
        · cases hp : coreOf p == core <;> simp [hp, h]
        · cases hq : coreOf q == core <;> simpa [hq] using ih
  exact congrArg List.sum (huse s.ctxs)

/-- A context whose tile `n` takes a shape, over the accumulator store that is left (R147). -/
def Context.shaped (c : Context) (n : Nat) (v : Word) (a : Store (BitVec 32)) : Context :=
  { c with mat := { c.mat with acc := a, tshape := putD c.mat.tshape n v 0 } }.wroteUnit (.tile n)

/-- The shape stands in its register, and the other tiles' stay. -/
theorem Context.shaped_tshape (c : Context) (n : Nat) (v : Word) (a : Store (BitVec 32)) :
    lookD (c.shaped n v a).mat.tshape n 0 = v ∧
      ∀ j, j ≠ n → lookD (c.shaped n v a).mat.tshape j 0 = lookD c.mat.tshape j 0 :=
  ⟨lookD_putD_same .., fun _ hj => lookD_putD_other _ _ _ _ _ hj⟩

section
variable {s : State} {c : Context} {e : Engine} {n : Nat} {v : Word}

theorem tcfgTo_same (hv : v = lookD c.mat.tshape n 0) : tcfgTo s e c n v = .ok (s.setCtx s.cur (c.advance e)) := by
  simp only [tcfgTo, if_pos hv]

theorem tcfgTo_refuses (hv : v ≠ lookD c.mat.tshape n 0)
    (hbad : shapeOk v = false ∨ ∃ x, tileOf v = some x ∧ overlaps c n x = true) :
    tcfgTo s e c n v = .error (.trap { code := .illop }) := by
  simp only [tcfgTo, if_neg hv]
  cases hs : shapeOk v with
  | false => rfl
  | true =>
    obtain ⟨x, hx, ho⟩ := hbad.resolve_left (by simp [hs])
    simp only [hx, ho]
    rfl

/-- A shape that is valid, overlaps no other tile and fits is set; room is made for it on the core. -/
theorem tcfgTo_sets (hv : v ≠ lookD c.mat.tshape n 0) (hs : shapeOk v = true)
    (ho : ∀ x, tileOf v = some x → overlaps c n x = false) (hfit : tileFits s c n v) :
    ∃ t a l, tcfgTo s e c n v = .ok t ∧ t.ctx? s.cur = some { (c.shaped n v a).advance e with clean := l } ∧
      t.mem = s.mem := by
  simp only [tcfgTo, if_neg hv, hs]
  cases hx : tileOf v with
  | none => exact ⟨_, _, _, rfl, State.ctx?_setCtx_same .., rfl⟩
  | some x =>
    have huse (a : Store (BitVec 32)) :
        residentUse (s.setCtx s.cur ((c.shaped n v a).advance e)) (coreOf s.cur) .tiles ≤ Space.tiles.total := by
      refine Nat.le_trans (Nat.le_of_eq (residentUse_setCtx_congr _ _ _ ?_)) (hfit.resolve_left (by simp [hx]))
      simp only [useOf, Context.advance_mat]
      rfl
    simp only [ho x hx, Bool.not_true, Bool.false_eq_true, if_false]
    obtain ⟨l, hl⟩ := makeRoom_ctx? (coreOf s.cur) .tiles 0 (State.ctx?_setCtx_same s s.cur ((c.shaped n v _).advance e))
    exact ⟨_, _, l, if_pos (huse _), hl, by simp⟩
end

section
variable {s : State} {c : Context} (h : runs s c) (o : SysWrK)
include h

theorem execSyswrTshape_waits (hn : c.mat.running = true ∨ c.mat.go = true) : execSyswrTshape o s = waits s :=
  runS_wait h (await_bind_false (by rcases hn with hn | hn <;> simp [hn]) _)

variable (hrun : c.mat.running = false) (hgo : c.mat.go = false)
include hrun hgo

/-- With no nest left, the row is a TCFG (R147, R166). -/
theorem execSyswrTshape_ok {t : State} (hr : tcfgTo s s.eng c o.k.toNat (c.rdS s.eng o.a) = .ok t) :
    execSyswrTshape o s = .next t :=
  runS_ok h ((await_bind_true (by simp [hrun, hgo]) _).trans hr)

theorem execSyswrTshape_traps {x : Trap} (hr : tcfgTo s s.eng c o.k.toNat (c.rdS s.eng o.a) = .error (.trap x)) :
    execSyswrTshape o s = traps s c x :=
  runS_trap h ((await_bind_true (by simp [hrun, hgo]) _).trans hr)
end

/-- The SYSWR rows of their own do what R120, R147, R155, R169 and R318 say. -/
theorem systemWritesOfTheirOwn : SystemWritesOfTheirOwn := by
  intro s c o a h
  simp only [exec]
  refine ⟨execSyswrSpm_becomes h a, fun hh => ⟨_, execSyswrFpc_becomes h o hh, fun k hk => ?_, ?_⟩,
    execSyswrFpc_prot h o, ⟨_, execSyswrTxw_becomes h o, by simp, fun x hx => ?_, ?_, fun j hj hjk => ?_, ?_⟩,
    fun hrun hgo hv => execSyswrTshape_ok h o hrun hgo (tcfgTo_same hv), execSyswrTshape_waits h o,
    fun hrun hgo hv hbad => execSyswrTshape_traps h o hrun hgo (tcfgTo_refuses hv hbad),
    fun hrun hgo hv hs ho hfit => ?_⟩
  · simpa using c.flt.redirect_fpc (c.rdS s.eng o.a) hk
  · simpa using c.flt.redirect_nests (c.rdS s.eng o.a)
  · simp [lookD_putD_other _ _ _ _ _ hx]
  · simpa using tensWrite_same _ _ o.k.isLt
  · simpa using tensWrite_other _ _ hj hjk
  · simp
  · obtain ⟨t, b, l, ht, hctx, hmem⟩ := tcfgTo_sets (e := s.eng) hv hs ho hfit
    obtain ⟨hsame, hother⟩ := c.shaped_tshape o.k.toNat (c.rdS s.eng o.a) b
    refine ⟨t, _, execSyswrTshape_ok h o hrun hgo ht, hctx, ?_, fun j hj => ?_, ?_, hmem⟩
    · simpa using hsame
    · simpa using hother j hj
    · simp [Context.shaped, Context.wroteUnit]

/-- Settles O12: the plain rows by `sysWrite`'s value at each number, the others by their own rules. -/
theorem systemRegisterWrites : Obligations.SystemRegisterWrites := ⟨systemWrites, systemWritesOfTheirOwn⟩

end Sys2Proof.Machine
end

section
/-!
PRIO, HEART and IDLE (R109, R110, R112), and LOOP (R16, R106).
-/
namespace Sys2Proof.Machine
open Sys2Proof.Says

section
variable {s : State} {c : Context} (h : runs s c)
include h

theorem execPrio_becomes (n : BitVec 2) : execPrio n s =
    becomes s ({ c with r := { c.r with cls := min n.toNat c.bind.grant } }.advance s.eng) :=
  runC_ok h rfl

theorem execHeart_of_persistent (hp : c.bind.pers = true) :
    execHeart s = becomes s ({ c with wdog := 0 }.advance s.eng) :=
  runC_ok h (by rw [if_pos hp])

theorem execHeart_of_ordinary (hp : c.bind.pers = false) : execHeart s = passes s c :=
  runC_ok h (by rw [if_neg (by simp [hp])])

theorem execIdle_becomes : execIdle s = becomes s { c with idle := true } := runC_ok h rfl

theorem execIdleTimeout_of_idle (hi : c.idle = true) : execIdleTimeout s.cur s = becomes s c.endIdle := by
  simp only [execIdleTimeout, show s.ctx? s.cur = some c from h, if_pos hi, becomes]

theorem execIdleTimeout_of_awake (hi : c.idle = false) : execIdleTimeout s.cur s = .next s := by
  simp only [execIdleTimeout, show s.ctx? s.cur = some c from h, hi, Bool.false_eq_true, if_false]
end

/-- Where no debugger steps, the end of an IDLE moves the context on and nothing else. -/
theorem Context.endIdle_of_not_stepping {c : Context} (hi : c.idle = true) (hs : c.stepping = false) :
    c.endIdle = { c.advance .ctl with idle := false } := by
  simp [Context.endIdle, Context.stepped, hi, hs]

/-- Settles O14: each instruction is one change of the context, and the time limit ends an IDLE alone. -/
theorem priorityHeartAndIdle : Obligations.PriorityHeartAndIdle := by
  intro s c n h
  simp only [exec]
  exact ⟨execPrio_becomes h n, execHeart_of_persistent h, execHeart_of_ordinary h, execIdle_becomes h,
    fun hi => ⟨execIdleTimeout_of_idle h hi, Context.endIdle_of_not_stepping hi⟩, execIdleTimeout_of_awake h⟩

/-! LOOP (R16, R106). -/

section
variable {s : State} {c : Context} (h : runs s c) (o : LoopOp)
include h

theorem execLoop_counts (hn : 0 < (c.rdS .ctl o.x).toInt) : execLoop o s =
    becomes s ((c.loopPass o.x (c.rdS .ctl o.x - 1) ones128).branchTo (targetAddr (c.posOf .ctl) o.off) o.slot.toNat) :=
  runC_ok h (by simp only [if_pos hn])

theorem execLoop_drains (hn : (c.rdS .ctl o.x).toInt ≤ 0) (hk : 0 < (c.rdS .ctl o.y).toInt) : execLoop o s =
    becomes s ((c.loopPass o.y (c.rdS .ctl o.y - 1) 0).branchTo (targetAddr (c.posOf .ctl) o.off) o.slot.toNat) :=
  runC_ok h (by simp only [if_neg (Int.not_lt.2 hn), if_pos hk])

theorem execLoop_passes (hn : (c.rdS .ctl o.x).toInt ≤ 0) (hk : (c.rdS .ctl o.y).toInt ≤ 0) :
    execLoop o s = becomes s c.branchPast :=
  runC_ok h (by simp only [if_neg (Int.not_lt.2 hn), if_neg (Int.not_lt.2 hk)])
end

/-- The registers after a write of a predicate other than p0 and p1. -/
theorem Context.wrPhys_r (c : Context) {n : Nat} (v : BitVec 128) (hn : 2 ≤ n) :
    (c.wrPhys n v).r = { c.r with p := putD c.r.p n v 0 } := by
  rw [Context.wrPhys, if_neg (by omega), Context.purgeH_r]

/-- p8 stands at or above physical predicate 8. -/
theorem predPhys_eight (rb : Nat) : predPhys rb 8 = 8 + rb % 8 := by simp [predPhys]

/-- The registers after a pass of LOOP: RBASE turned, and the new p8. -/
theorem Context.loopPass_r (c : Context) (d : Reg) (v : Word) (p8 : BitVec 128) :
    let rb := (c.r.rbase + 31) % 32
    (c.loopPass d v p8).r = { (c.wrS d v).r with rbase := rb, p := putD c.r.p (8 + rb % 8) p8 0 } := by
  intro rb
  rw [Context.loopPass, Context.wrPhys_r _ _ (by rw [predPhys_eight]; omega), predPhys_eight, Context.wrRbase,
    Context.purgeH_r, Context.wrS_r_p]

/-- A pass of LOOP turns RBASE, sets the new p8, counts its register down and leaves lines and flags (R106). -/
theorem Context.loopPass_turns (c : Context) {d : Reg} (v : Word) (p8 : BitVec 128) (hd : d ≠ 0) :
    let rb := (c.r.rbase + 31) % 32
    let c' := c.loopPass d v p8
    c'.r.rbase = rb ∧ held c' d = v ∧ lookD c'.r.p (8 + rb % 8) 0 = p8 ∧ c'.lines = c.lines ∧ c'.r.flags = c.r.flags := by
  intro rb c'
  have hr : c'.r = { (c.wrS d v).r with rbase := rb, p := putD c.r.p (8 + rb % 8) p8 0 } := c.loopPass_r d v p8
  have hheld : held c' d = held (c.wrS d v) d := by
    simp only [held, hr]
    simp [c', Context.loopPass, Context.wrRbase]
  refine ⟨by rw [hr], by rw [hheld, held_wrS_same c v hd], by rw [hr, lookD_putD_same], ?_, ?_⟩
  · simp [c', Context.loopPass, Context.wrRbase]
  · rw [hr, Context.wrS_r_flags]

/-- s0 counts nothing. -/
theorem ne_zero_of_rdS_pos {c : Context} {e : Engine} {d : Reg} (h : 0 < (c.rdS e d).toInt) : d ≠ 0 := by
  rintro rfl
  rw [Context.rdS_zero] at h
  exact absurd h (by decide)

/-- A branch that is not taken changes no register. -/
theorem Context.branchPast_r (c : Context) : c.branchPast.r = c.r := by simp [Context.branchPast]

/-- Settles O19: a pass on either count, or none. -/
theorem loopTurns : Obligations.LoopTurns := by
  intro s c o h
  simp only [exec]
  exact ⟨fun hn => ⟨_, execLoop_counts h o hn, c.loopPass_turns _ _ (ne_zero_of_rdS_pos hn)⟩,
    fun hn hk => ⟨_, execLoop_drains h o hn hk, c.loopPass_turns _ _ (ne_zero_of_rdS_pos hk)⟩,
    fun hn hk => ⟨execLoop_passes h o hn hk, c.branchPast_r⟩⟩

end Sys2Proof.Machine
end

section
/-!
Entering and leaving handler mode (R107, R316 to R320), and what TrapsAndFaults overlooks: after a TRAP the engines stand past
it (R111).
-/
namespace Sys2Proof.Machine
open Sys2Proof.Says

/-! Entering the handler (R316 to R319). -/

/-- `c'` has at most handles, tokens and recorded releases other than `c`. -/
def Released (c c' : Context) : Prop :=
  ∃ hs tk tp rs, c' = { c with handles := hs, tokens := tk, tokPend := tp, releases := rs }

theorem Released.refl (c : Context) : Released c c := ⟨_, _, _, _, rfl⟩

theorem Released.trans {a b c : Context} (h : Released a b) (k : Released b c) : Released a c := by
  obtain ⟨_, _, _, _, rfl⟩ := h
  obtain ⟨_, _, _, _, rfl⟩ := k
  exact ⟨_, _, _, _, rfl⟩

/-- A context that is not idle is not woken. -/
theorem Context.wake_of_awake {c : Context} (h : c.idle = false) : c.wake = c := by simp [Context.wake, Context.endIdle, h]

theorem setHBits_released (s : State) {c : Context} (pos n : Nat) (d : Handle) (b : HBits) (h : c.idle = false) :
    Released c (setHBits s c pos n d b).2 := by
  unfold setHBits
  split
  · dsimp only
    split
    · exact .refl c
    · rw [Context.wake_of_awake h]; exact .refl c
  · dsimp only
    split
    · exact ⟨_, _, _, _, rfl⟩
    · rw [Context.wake_of_awake]
      · exact ⟨_, _, _, _, rfl⟩
      · exact h

theorem applyRelease_released (pos : Nat) (s : State) {c : Context} (r : Release) (h : c.idle = false) :
    Released c (applyRelease pos (s, c) r).2 := by
  cases r with
  | fill n k first | drain n k first =>
    simp only [applyRelease]
    split
    · exact .refl c
    · exact setHBits_released s pos n _ _ h
  | token a b k => exact ⟨_, _, _, _, rfl⟩

/-- The releases of a context that is not idle change at most its handles and tokens. -/
theorem foldl_applyRelease_released (pos : Nat) (rs : List Recorded) : ∀ (s : State) {c : Context}, c.idle = false →
    Released c (rs.foldl (fun sc r => applyRelease pos sc r.rel) (s, c)).2 := by
  induction rs with
  | nil => exact fun s c _ => .refl c
  | cons r rest ih =>
    intro s c h
    have hr : Released c (applyRelease pos (s, c) r.rel).2 := applyRelease_released pos s r.rel h
    refine hr.trans (ih (applyRelease pos (s, c) r.rel).1 ?_)
    obtain ⟨_, _, _, _, he⟩ := hr
    rw [he]; exact h

theorem applyReleases_released (pos : Nat) (s : State) {c : Context} (h : c.idle = false) :
    Released c (applyReleases pos s c).2 :=
  (foldl_applyRelease_released pos c.releases s h).trans ⟨_, _, _, _, rfl⟩

/-- What a context holds as its handler begins, after the exception `x` of engine `e` (R318, R319). -/
structure Entered (c : Context) (e : Engine) (x : Trap) (c' : Context) : Prop where
  handler : c'.handler = true
  flt : c'.flt = faultRegs c e x (c.resumeAt e x).pos
  pos : c'.pos = (c.resumeAt e x).pos

theorem Entered.of_released {c a b : Context} {e : Engine} {x : Trap} (h : Entered c e x a) (k : Released a b) :
    Entered c e x b := by
  obtain ⟨_, _, _, _, rfl⟩ := k
  exact ⟨h.handler, h.flt, h.pos⟩

theorem enterHandler_entered (s : State) (pos : Nat) (c : Context) (e : Engine) (x : Trap) :
    ∃ c', (enterHandler s pos c e x).ctx? pos = some c' ∧ Entered c e x c' := by
  unfold enterHandler
  refine ⟨_, State.ctx?_setCtx_same .., .of_released ?_ (applyReleases_released pos s rfl)⟩
  exact ⟨rfl, rfl, rfl⟩

/-- A fault outside handler mode of a task that has a handler enters it, once nothing of the task is on its way. -/
theorem takeTrap_enters {s : State} {c : Context} {x : Trap} (pos : Nat) (e : Engine) (hh : c.handler = false)
    (ht : c.bind.traph ≠ 0) (hreq : requestsOut s c.bind.lid c.bind.wid = false) (hcode : x.code ≠ .debug)
    (hfound : x.found = none) : takeTrap s pos c e x = enterHandler s pos c e x := by
  simp [takeTrap, State.noteFound, deliverTrap, hfound, hcode, hreq, hh, ht]

/-! Leaving the handler (R320). -/

/-- A handler that wrote no FPC leaves every engine's place. -/
theorem resumePoints_of_kept {c : Context} (h : c.flt.redirected = false) : resumePoints c = c.pos := by
  simp [resumePoints, resumePos, h]

/-- Where no nest stood, none comes back. -/
theorem nestOfWord_none : nestOfWord (nestWord none) = none := by decide

section
variable {c c' : Context} {e : Engine} {x : Trap} (leads : Engine → Bool) (h : Entered c e x c')
include h

/-- A return from a handler that has written nothing takes every engine where the exception found it. -/
theorem Entered.leave_pos : (leaveHandler leads c').pos = (c.resumeAt e x).pos :=
  (resumePoints_of_kept (by rw [h.flt]; rfl)).trans h.pos

theorem Entered.leave_nestV (hn : c.nestV = none) : (leaveHandler leads c').nestV = none := by
  have hf : c'.flt.fnestv = nestWord none := by rw [h.flt, ← hn]; rfl
  simp [leaveHandler, hf, nestOfWord_none]

theorem Entered.leave_nestM (hn : c.nestM = none) : (leaveHandler leads c').nestM = none := by
  have hf : c'.flt.fnestm = nestWord none := by rw [h.flt, ← hn]; rfl
  simp [leaveHandler, hf, nestOfWord_none]
end

/-- A return clears ACTIVE. -/
theorem leaveHandler_active (leads : Engine → Bool) (c : Context) :
    (leaveHandler leads c).flt.fcause.getLsbD 63 = false := by
  simp [leaveHandler]

section
variable {s : State} {c : Context} (h : runs s c)
include h

theorem execTret_outside (hh : c.handler = false) : execTret s = traps s c { code := .illop } :=
  runC_trap h (by simp only [hh]; rfl)

theorem execTret_inside (hh : c.handler = true) :
    execTret s = becomes s (leaveHandler (fun e => leadsAt s (c.who s.cur) e ((resumePoints c).get e)) c) :=
  runC_ok h (by simp only [hh]; rfl)
end

/-- A handler that writes no FPC returns every engine to where it stopped. -/
theorem returnResumesWhereItStopped : ReturnResumesWhereItStopped := by
  intro s c x leads h hh ht hreq hcode hfound hnext hv hm
  simp only [exec]
  obtain ⟨c1, hc1, hin⟩ := enterHandler_entered s s.cur c s.eng x
  refine ⟨execTret_outside h hh, c1, by rw [takeTrap_enters s.cur s.eng hh ht hreq hcode hfound, hc1], hin.handler, rfl, ?_,
    hin.leave_nestV leads hv, hin.leave_nestM leads hm, leaveHandler_active leads c1⟩
  rw [hin.leave_pos leads, Context.resumeAt, hnext]
  rfl

theorem returnCompletes : ReturnCompletes := fun s c h hh => by
  simp only [exec]
  exact execTret_inside h hh

/-- Settles O16: what taking the exception kept is what the return gives back. -/
theorem returnFromException : Obligations.Return := ⟨returnResumesWhereItStopped, returnCompletes⟩

/-! TRAP in a task without a handler (R111, R318). -/

/-- Refutes O15: FaultsWithoutAHandler says of every fault that its end leaves the engines' places, but a TRAP's fault, which
resumes after the TRAP (R111), leaves them past it. The counterexample is TRAP 0 of a task with TRAPH 0, at slot 0. -/
theorem not_trapsAndFaults : ¬ Obligations.TrapsAndFaults := by
  intro h
  obtain ⟨houtside, -, -⟩ := h.2 { ctxs := [(0, {})] } {} { code := .trapi, resumeNext := true } rfl (by decide) rfl
  obtain ⟨f, hafter, -, -, -⟩ := (houtside rfl rfl rfl).1 (by decide)
  have hslot := congrArg (Option.map fun c : Context => c.pos.ctl.slot) hafter
  exact absurd (show some 1 = some 0 from hslot) (by decide)

end Sys2Proof.Machine
end

section
/-!
What the vector operations that write lines share: widths and predicate bits (R14, Table 7), sources of several lines (R71), and
a line written under a predicate, element by element, with its flags (R116).
-/
namespace Sys2Proof

/-! Widths (Table 7). -/

theorem ElemType.width_pos (t : ElemType) : 0 < t.width := by cases t <;> decide

theorem ElemType.count_pos (t : ElemType) : 0 < t.count := by cases t <;> decide

/-- A width divides every width that is not smaller. -/
theorem ElemType.width_dvd {t u : ElemType} (h : t.width ≤ u.width) : t.width ∣ u.width := by
  have hpow (t : ElemType) : ∃ k, t.width = 2 ^ k := ⟨Nat.log2 t.width, by cases t <;> decide⟩
  obtain ⟨j, hj⟩ := hpow t
  obtain ⟨k, hk⟩ := hpow u
  rw [hj, hk] at h ⊢
  exact Nat.pow_dvd_pow 2 ((Nat.pow_le_pow_iff_right (by decide)).1 h)

/-- A line of narrower elements holds as many more of them as they are narrower. -/
theorem ElemType.count_of_le {t u : ElemType} (h : t.width ≤ u.width) : t.count = u.width / t.width * u.count := by
  have hline : u.width * u.count = 4096 := by cases u <;> decide
  obtain ⟨k, hk⟩ := ElemType.width_dvd h
  rw [hk, Nat.mul_div_cancel_left _ t.width_pos, ElemType.count, ← hline, hk, Nat.mul_assoc,
    Nat.mul_div_cancel_left _ t.width_pos]

end Sys2Proof

namespace Sys2Proof.Machine
open Sys2Proof.Says

/-! Predicate bits (R14). -/

/-- Every element's bit is one of the predicate's 128. -/
theorem govBit_lt (t : ElemType) {i : Nat} (hi : i < t.count) : govBit t.width i < 128 := by
  cases t <;> simp only [ElemType.count, ElemType.width, govBit] at hi ⊢ <;> omega

/-- All elements are enabled by a predicate of ones. -/
theorem enabled_ones (t : ElemType) {i : Nat} (hi : i < t.count) : enabled ones128 t.width i = true := by
  rw [enabled, ones128, BitVec.getLsbD_allOnes, decide_eq_true (govBit_lt t hi)]

/-! Elements of sources (R15, R71). -/

theorem elem_lt (l : Line) (w i : Nat) : elem l w i < 2 ^ w := Nat.mod_lt _ (Nat.two_pow_pos w)

theorem sourceElem_lt (c : Context) (w : Nat) (x : Opd) (i : Nat) : sourceElem c w x i < 2 ^ w := by
  cases x <;> exact Nat.mod_lt _ (Nat.two_pow_pos w)

/-- The element of a list that a function gives of the numbers below `n`. -/
theorem getD_map_range {α : Type} (f : Nat → α) (d : α) {n i : Nat} (h : i < n) :
    ((List.range n).map f).getD i d = f i := by
  simp [h]

/-- The element `i` of line `j` of a source of several lines (R71, R131). -/
def sourceElemOf (c : Context) (w j : Nat) (x : Opd) (i : Nat) : Nat :=
  match x with
  | .at n => elem (c.rdL (n.toNat + j)) w i
  | .all v => v.toNat % 2 ^ w

/-- The elements of line `j` of a source. -/
theorem Context.opdEls_eq_map_sourceElemOf (c : Context) (t : ElemType) (j : Nat) (a : Opd) :
    c.opdEls t.width j a = (List.range t.count).map (sourceElemOf c t.width j a) := by
  match a with
  | .at n => exact lineEls_eq_map_elem (c.rdL (n.toNat + j)) t
  | .all v =>
    change _ = (List.range t.count).map fun _ => v.toNat % 2 ^ t.width
    rw [List.map_const', List.length_range]
    rfl

/-! A line written under a predicate (R116). -/

/-- The line `l` with the results `rs` at its enabled elements. -/
def putLine (t : ElemType) (p : BitVec 128) (l : Line) (rs : List (Nat × Flags)) : Line :=
  lineOfEls t.width (keepEls p t.width 0 (lineEls l t.width) rs)

/-- What the vector operations write: a line, and its enabled elements' flags. -/
theorem Context.putEls_eq (c : Context) (t : ElemType) (p : BitVec 128) (n : Nat) (rs : List (Nat × Flags)) :
    c.putEls p t.width n rs = (c.wrL n (putLine t p (c.rdL n) rs)).addFlags (keepFlags p t.width 0 rs) := rfl

/-- Past the results an element stays; before, it takes its result where it is enabled. -/
theorem keepEls_getD (p : BitVec 128) (w : Nat) (xs : List Nat) :
    ∀ (rs : List (Nat × Flags)) (k i : Nat), i < xs.length → (keepEls p w k xs rs).getD i 0 =
      if i < rs.length ∧ enabled p w (k + i) = true then (rs.getD i (0, 0)).1 else xs.getD i 0 := by
  induction xs with
  | nil => intro _ _ _ hi; cases hi
  | cons x xs ih =>
    intro rs k i hi
    cases rs with
    | nil => simp [keepEls]
    | cons r rs =>
      cases i with
      | zero => simp [keepEls]
      | succ i =>
        have hrest := ih rs (k + 1) i (Nat.lt_of_succ_lt_succ hi)
        rw [show k + 1 + i = k + (i + 1) by omega] at hrest
        simpa [keepEls] using hrest

/-- A flag is raised where an enabled result raises it. -/
theorem keepFlags_getLsbD (p : BitVec 128) (w j : Nat) (rs : List (Nat × Flags)) : ∀ k,
    (keepFlags p w k rs).getLsbD j = true ↔
      ∃ i < rs.length, enabled p w (k + i) = true ∧ (rs.getD i (0, 0)).2.getLsbD j = true := by
  induction rs with
  | nil => intro k; simp [keepFlags]
  | cons r rs ih =>
    intro k
    have hhead : (if enabled p w k then r.2 else 0).getLsbD j = true ↔ enabled p w k = true ∧ r.2.getLsbD j = true := by
      by_cases he : enabled p w k = true <;> simp [he]
    rw [keepFlags, BitVec.getLsbD_or, Bool.or_eq_true, hhead, ih, List.length_cons, Nat.exists_lt_succ_left]
    simp [Nat.add_assoc, Nat.add_comm 1]

section
variable (t : ElemType) (p : BitVec 128) (l : Line) (m : Nat) (g : Nat → Nat × Flags)

/-- Element `i` of a line written with the results of the first `m` elements. -/
theorem elem_putLine {i : Nat} (hi : i < t.count) : elem (putLine t p l ((List.range m).map g)) t.width i =
    if i < m ∧ enabled p t.width i = true then (g i).1 % 2 ^ t.width else elem l t.width i := by
  rw [putLine, elem_lineOfEls t _ hi, lineEls_eq_map_elem, keepEls_getD _ _ _ _ _ _ (by simpa using hi),
    getD_map_range _ _ hi, List.length_map, List.length_range, Nat.zero_add]
  by_cases h : i < m ∧ enabled p t.width i = true
  · rw [if_pos h, if_pos h, getD_map_range _ _ h.1]
  · rw [if_neg h, if_neg h, Nat.mod_eq_of_lt (elem_lt ..)]

/-- Element `i` of a line written with a result for each element. -/
theorem elem_putLine_all {i : Nat} (hi : i < t.count) : elem (putLine t p l ((List.range t.count).map g)) t.width i =
    if enabled p t.width i = true then (g i).1 % 2 ^ t.width else elem l t.width i := by
  simp [elem_putLine t p l t.count g hi, hi]

/-- The flags of results are those of the enabled elements. -/
theorem keepFlags_range (j : Nat) : (keepFlags p t.width 0 ((List.range m).map g)).getLsbD j = true ↔
    ∃ i < m, enabled p t.width i = true ∧ (g i).2.getLsbD j = true := by
  rw [keepFlags_getLsbD, List.length_map, List.length_range]
  refine exists_congr fun i => and_congr_right fun hi => ?_
  rw [getD_map_range _ _ hi, Nat.zero_add]

/-- Results without flags raise none. -/
theorem keepFlags_of_zero {m : Nat} {g : Nat → Nat × Flags} (h : ∀ i, (g i).2 = 0) :
    keepFlags p t.width 0 ((List.range m).map g) = 0 := by
  refine BitVec.eq_of_getLsbD_eq fun j _ => ?_
  rw [Bool.eq_iff_iff, keepFlags_range]
  simp [h]
end

@[simp] theorem Context.addFlags_zero (c : Context) : c.addFlags 0 = c := by simp [Context.addFlags]

/-- Line `n` after a write of it. -/
theorem Context.rdL_putEls_same (c : Context) (t : ElemType) (p : BitVec 128) (n : Nat) (rs : List (Nat × Flags)) :
    (c.putEls p t.width n rs).rdL n = putLine t p (c.rdL n) rs := lookD_putD_same c.lines n _ 0

/-- The other lines after a write of line `n`. -/
theorem Context.rdL_putEls_other (c : Context) (p : BitVec 128) (w : Nat) {n m : Nat} (rs : List (Nat × Flags))
    (h : m ≠ n) : (c.putEls p w n rs).rdL m = c.rdL m := lookD_putD_other c.lines n m _ 0 h

/-- Lines that share no bank pass the check of deterministic mode (R24). -/
theorem Context.bankCheck_bind_of_free {α : Type} {c : Context} {ls : List Nat} (h : banksFree c ls) (g : Unit → Res α) :
    (c.bankCheck ls >>= g) = g () := by
  refine check_bind_true ?_ ..
  cases hdet : c.bind.det with
  | false => rfl
  | true => exact h hdet

end Sys2Proof.Machine
end

section
/-!
The V3 operations (R115 to R124, R138): one issue gives each element its result, and each instruction makes one issue.
-/
namespace Sys2Proof.Machine
open Sys2Proof.Says

/-- Each V3 instruction runs in a slot of its own as one issue. -/
theorem exec_eq_v3Exec (op : V3Op) (o : V3) (s : State) : exec (op.instr o) s = v3Exec op o s := by cases op <;> rfl

/-- The results of a V3 operation on destination line `n` and sources `a` and `b`, after the predicate under which they are
written. -/
def Context.results3 (c : Context) (e : Engine) (op : V3Op) (o : V3) (n : Nat) (a b : Opd) :
    BitVec 128 × List (Nat × Flags) :=
  v3Results op o.ty c.fpm (c.rdP e o.pred.toNat) ((List.range o.ty.count).map (sourceElem c o.ty.width a))
    ((List.range o.ty.count).map (sourceElem c o.ty.width b)) ((List.range o.ty.count).map (elem (c.rdL n) o.ty.width))

/-- A V3 operation whose operands resolve writes its results to the destination line under their predicate. -/
theorem v3Issue_of_ready {s : State} {c : Context} {op : V3Op} {o : V3} {f : Offs} {n : Nat} {a b : Opd}
    (h : Ready3 s c op o f n a b) : v3Issue op o f s.eng c =
      let r := c.results3 s.eng op o n a b
      .ok (c.putEls r.1 o.ty.width n r.2) := by
  have hwin : c.inWin 1 n = .ok n := Context.inWin_ok (Int.natCast_nonneg n) h.destIn
  rw [v3Issue, check_bind_true h.wf, res_bind_of_ok h.dest, res_bind_of_ok hwin, res_bind_of_ok h.srcA,
    res_bind_of_ok (Context.opdIn_ok h.aIn), res_bind_of_ok h.srcB, res_bind_of_ok (Context.opdIn_ok h.bIn),
    Context.bankCheck_bind_of_free h.banks]
  simp only [Context.opdEls_eq_map_sourceElem, lineEls_eq_map_elem, Context.results3]

/-! The results, element by element (R122 to R124, R138). -/

section
variable (t : ElemType) (m : RMode) (p : BitVec 128) (a b d : Nat → Nat)

/-- An operation along three lists acts on each element. -/
theorem zip3_map (f : Nat → Nat → Nat → Nat × Flags) (l : List Nat) :
    zip3 f (l.map a) (l.map b) (l.map d) = l.map fun i => f (a i) (b i) (d i) := by
  induction l with
  | nil => rfl
  | cons x l ih => simp [zip3, ih]

/-- VSEL chooses by the predicate, and writes every element (R124). -/
theorem v3Results_vsel : v3Results .vsel t m p ((List.range t.count).map a) ((List.range t.count).map b)
      ((List.range t.count).map d) =
    (ones128, (List.range t.count).map fun i => (if enabled p t.width i then a i else b i, 0)) := by
  refine congrArg (Prod.mk ones128) (List.map_congr_left fun i hi => ?_)
  rw [getD_map_range _ _ (List.mem_range.1 hi), getD_map_range _ _ (List.mem_range.1 hi)]

/-- The operations that move elements (R138). -/
theorem v3Results_of_moves {op : V3Op} (hl : isLane3 op = false) (hs : op ≠ .vsel) :
    v3Results op t m p ((List.range t.count).map a) ((List.range t.count).map b) ((List.range t.count).map d) =
      (p, (List.range t.count).map fun i => (lane3 op t m a b d i, 0)) := by
  have hpos := t.count_pos
  have hmove : ∀ i < t.count, permEl op t.count ((List.range t.count).map a) ((List.range t.count).map b) i =
      lane3 op t m a b d i := by
    intro i hi
    cases op with
    | vsel => exact absurd rfl hs
    | vperm => simp only [permEl, lane3, getD_map_range b _ hi, getD_map_range a _ (Nat.mod_lt _ hpos)]
    | vrotl => simp only [permEl, lane3, getD_map_range b _ hpos, getD_map_range a _ (Nat.mod_lt _ hpos)]
    | vbcast => simp only [permEl, lane3, getD_map_range b _ hpos, getD_map_range a _ (Nat.mod_lt _ hpos)]
    | vzip => simp only [permEl, lane3, getD_map_range _ _ (show i / 2 < t.count by omega)]
    | vunzip =>
      simp only [permEl, lane3]
      split
      · rw [getD_map_range a _ (by omega)]
      · rw [getD_map_range b _ (by omega)]
    | _ => cases hl
  have hres := congrArg (Prod.mk p) (List.map_congr_left fun i hi =>
    congrArg (·, (0 : Flags)) (hmove i (List.mem_range.1 hi)))
  cases op with
  | vsel => exact absurd rfl hs
  | vperm | vrotl | vbcast | vzip | vunzip => exact hres
  | _ => cases hl

/-- The operations of one lane (R122, R123). -/
theorem v3Results_of_lane {op : V3Op} (hl : isLane3 op = true) :
    v3Results op t m p ((List.range t.count).map a) ((List.range t.count).map b) ((List.range t.count).map d) =
      (p, (List.range t.count).map fun i => v3Elem op t m (a i) (b i) (d i)) := by
  rw [← zip3_map]
  cases op with
  | vsel | vperm | vrotl | vbcast | vzip | vunzip => cases hl
  | _ => rfl

/-- What an operation of one lane gives an element. -/
theorem lane3_of_lane {op : V3Op} (hl : isLane3 op = true) (i : Nat) :
    lane3 op t m a b d i = (v3Elem op t m (a i) (b i) (d i)).1 % 2 ^ t.width := by
  cases op with
  | vsel | vperm | vrotl | vbcast | vzip | vunzip => cases hl
  | _ => rfl

/-- What an operation that moves elements gives is an element. -/
theorem lane3_lt (ha : ∀ i, a i < 2 ^ t.width) (hb : ∀ i, b i < 2 ^ t.width) (op : V3Op) (i : Nat) :
    lane3 op t m a b d i < 2 ^ t.width := by
  unfold lane3
  split
  case h_4 | h_5 =>
    split
    · exact ha _
    · exact hb _
  case h_6 => exact Nat.mod_lt _ (Nat.two_pow_pos _)
  all_goals exact ha _
end

/-- The line and the flags of a V3 operation's results are what R115 to R124 and R138 say. -/
theorem result3_of_results (s : State) (c : Context) (op : V3Op) (o : V3) (n : Nat) (a b : Opd) :
    let r := c.results3 s.eng op o n a b
    Result3 s c op o n a b (putLine o.ty r.1 (c.rdL n) r.2) (keepFlags r.1 o.ty.width 0 r.2) := by
  intro r
  cases hl : isLane3 op with
  | true =>
    have hsel : op ≠ .vsel := by rintro rfl; cases hl
    have hr : r = _ := v3Results_of_lane o.ty c.fpm _ _ _ _ hl
    rw [hr]
    refine ⟨fun h => absurd h hsel, fun _ i hi => ?_, fun h => absurd (hl.symm.trans h) (by decide), fun _ j _ => ?_⟩
    · rw [elem_putLine_all _ _ _ _ hi, lane3_of_lane _ _ _ _ _ hl]
    · exact keepFlags_range ..
  | false =>
    by_cases hsel : op = .vsel
    · subst hsel
      have hr : r = _ := v3Results_vsel o.ty c.fpm _ _ _ _
      rw [hr]
      have hzero := keepFlags_of_zero o.ty ones128 (m := o.ty.count)
        (g := fun i => (if enabled (c.rdP s.eng o.pred.toNat) o.ty.width i then sourceElem c o.ty.width a i
          else sourceElem c o.ty.width b i, 0)) fun _ => rfl
      refine ⟨fun _ => ⟨hzero, fun i hi => ?_⟩, fun h => absurd rfl h, fun _ => hzero, fun h => absurd h (by decide)⟩
      rw [elem_putLine_all _ _ _ _ hi, if_pos (enabled_ones o.ty hi)]
      refine Nat.mod_eq_of_lt ?_
      split <;> exact sourceElem_lt ..
    · have hr : r = _ := v3Results_of_moves o.ty c.fpm _ _ _ _ hl hsel
      rw [hr]
      refine ⟨fun h => absurd h hsel, fun _ i hi => ?_, fun _ => keepFlags_of_zero _ _ fun _ => rfl,
        fun h => absurd (hl.symm.trans h) (by decide)⟩
      rw [elem_putLine_all _ _ _ _ hi,
        Nat.mod_eq_of_lt (lane3_lt _ _ _ _ _ (sourceElem_lt c _ a) (sourceElem_lt c _ b) op i)]

/-- Settles O20: one issue writes the results, which are each element's own. -/
theorem vectorThreeOperands : Obligations.VectorThreeOperands := by
  intro s c op o n a b h hready
  refine ⟨_, _, ?_, result3_of_results s c op o n a b⟩
  rw [exec_eq_v3Exec]
  exact runC_ok h (res_bind_of_ok (v3Issue_of_ready hready) _)

end Sys2Proof.Machine
end

section
/-!
The integer lanes (R33, R38, R122, R123, Table 35): codes as integers, and what each operation leaves of them.
-/
namespace Sys2Proof.Machine
open Sys2Proof.Says

/-! Integers modulo 2^w (R38). -/

/-- Two integers agree in their low `w` bits. -/
def Agree (w : Nat) (x y : Int) : Prop := x % 2 ^ w = y % 2 ^ w

section
variable {w : Nat} {x y x' y' : Int} (hx : Agree w x x') (hy : Agree w y y')
include hx hy

theorem Agree.add : Agree w (x + y) (x' + y') := by
  rw [Agree, Int.add_emod, hx, hy, ← Int.add_emod]

theorem Agree.sub : Agree w (x - y) (x' - y') := by
  rw [Agree, Int.sub_emod, hx, hy, ← Int.sub_emod]

theorem Agree.mul : Agree w (x * y) (x' * y') := by
  rw [Agree, Int.mul_emod, hx, hy, ← Int.mul_emod]
end

/-- Integers that agree modulo 2^w, both among the 2^w from `lo` on, are one. -/
theorem Agree.eq_of_bounds {w : Nat} {lo x y : Int} (h : Agree w x y) (hx : lo ≤ x ∧ x < lo + 2 ^ w)
    (hy : lo ≤ y ∧ y < lo + 2 ^ w) : x = y := by
  have hsub : (x - lo) % 2 ^ w = (y - lo) % 2 ^ w := h.sub rfl
  rw [Int.emod_eq_of_lt (by omega) (by omega), Int.emod_eq_of_lt (by omega) (by omega)] at hsub
  omega

theorem two_pow_cast (w : Nat) : (2 : Int) ^ w = (2 ^ w : Nat) := (Int.natCast_pow 2 w).symm

theorem two_pow_eq_double {w : Nat} (hw : 0 < w) : (2 : Int) ^ w = 2 * (2 ^ (w - 1) : Nat) := by
  rw [two_pow_cast, show w = w - 1 + 1 by omega, Nat.pow_succ, Nat.add_sub_cancel, Nat.mul_comm]
  rfl

/-! Codes and integers (R33, R38). -/

section
variable {w : Nat}

/-- A code and its integer agree (R33). -/
theorem intOf_agree (signed : Bool) (w a : Nat) : Agree w (intOf signed w a) a := by
  have hmod : ((a % 2 ^ w : Nat) : Int) % 2 ^ w = a % 2 ^ w := by
    rw [Int.natCast_emod, two_pow_cast, Int.emod_emod]
  rw [Agree, intOf]
  split
  · rw [Int.sub_emod_right, hmod]
  · exact hmod

/-- An integer's low bits agree with it (R38). -/
theorem intCode_agree (w : Nat) (x : Int) : Agree w (intCode w x) x := by
  have hpos : (2 : Int) ^ w ≠ 0 := by
    have := Nat.two_pow_pos w
    rw [two_pow_cast]
    omega
  rw [Agree, intCode, Int.toNat_of_nonneg (Int.emod_nonneg _ hpos), Int.emod_emod]

/-- The low bits of an integer are those of a natural number that agrees with it. -/
theorem intCode_of_agree {x : Int} {n : Nat} (h : Agree w x n) : intCode w x = n % 2 ^ w := by
  rw [intCode, h, two_pow_cast, ← Int.natCast_emod, Int.toNat_natCast]

/-- Two codes of one integer are one code. -/
theorem eq_of_intOf_eq {signed : Bool} {a b : Nat} (ha : a < 2 ^ w) (hb : b < 2 ^ w)
    (h : intOf signed w a = intOf signed w b) : a = b := by
  have hab : Agree w a b := (intOf_agree signed w a).symm.trans (h ▸ intOf_agree signed w b)
  have hcast := two_pow_cast w
  exact Int.ofNat_inj.1 (hab.eq_of_bounds (lo := 0) (by omega) (by omega))

/-- An integer among the 2^w that codes stand for reads back from its low bits. -/
theorem intOf_intCode {signed : Bool} {lo x : Int} (hb : ∀ a, lo ≤ intOf signed w a ∧ intOf signed w a < lo + 2 ^ w)
    (hx : lo ≤ x ∧ x < lo + 2 ^ w) : intOf signed w (intCode w x) = x :=
  Agree.eq_of_bounds ((intOf_agree signed w _).trans (intCode_agree w x)) (hb _) hx

/-- The signed integers are the 2^w from −2^(w − 1) on (R33). -/
theorem intOf_true_bounds (hw : 0 < w) (a : Nat) :
    -((2 ^ (w - 1) : Nat) : Int) ≤ intOf true w a ∧ intOf true w a < -((2 ^ (w - 1) : Nat) : Int) + 2 ^ w := by
  have hlt : a % 2 ^ w < 2 ^ w := Nat.mod_lt _ (Nat.two_pow_pos w)
  have hcast := two_pow_cast w
  have hdouble := two_pow_eq_double hw
  simp only [intOf, Bool.true_and, decide_eq_true_eq]
  generalize a % 2 ^ w = n at *
  generalize (2 : Int) ^ w = m at *
  generalize 2 ^ w = k at *
  generalize 2 ^ (w - 1) = h at *
  split <;> omega

/-- The unsigned integers are the 2^w from 0 on (R33). -/
theorem intOf_false_bounds (a : Nat) : 0 ≤ intOf false w a ∧ intOf false w a < 2 ^ w := by
  have hlt : a % 2 ^ w < 2 ^ w := Nat.mod_lt _ (Nat.two_pow_pos w)
  simp only [intOf, Bool.false_and, two_pow_cast w]
  generalize 2 ^ w = m at *
  rw [if_neg Bool.false_ne_true]
  omega

/-- A quotient by a positive number stays in a signed range. -/
theorem ediv_signed {x d : Int} {h : Nat} (hx : -h ≤ x) (hx' : x < h) (hd : 0 < d) : -h ≤ x / d ∧ x / d < h := by
  have hmul : (h : Int) * 1 ≤ h * d := Int.mul_le_mul_of_nonneg_left (by omega) (by omega)
  refine ⟨Int.le_ediv_of_mul_le hd ?_, Int.ediv_lt_of_lt_mul hd (by omega)⟩
  rw [Int.neg_mul]
  omega

/-- A signed shift's result reads back: it is in range (Table 35). -/
theorem intOf_sha (hw : 0 < w) (a k : Nat) : intOf true w (intCode w (intOf true w a / 2 ^ k)) = intOf true w a / 2 ^ k := by
  have hb := intOf_true_bounds hw
  have hdouble := two_pow_eq_double hw
  obtain ⟨hlo, hhi⟩ := hb a
  have hpos : (0 : Int) < 2 ^ k := by
    have := Nat.two_pow_pos k
    rw [two_pow_cast]
    omega
  obtain ⟨hqlo, hqhi⟩ := ediv_signed hlo (by omega) hpos
  exact intOf_intCode hb ⟨hqlo, by omega⟩
end

section
variable (t : ElemType)

/-- The integers of a type are the 2^w from its least on. -/
theorem intOf_bounds (a : Nat) : minOfType t ≤ intOf t.isSigned t.width a ∧
    intOf t.isSigned t.width a < minOfType t + 2 ^ t.width := by
  unfold minOfType
  cases t.isSigned with
  | true => exact intOf_true_bounds t.width_pos a
  | false =>
    rw [if_neg Bool.false_ne_true, Int.zero_add]
    exact intOf_false_bounds a

theorem maxOfType_eq : maxOfType t = minOfType t + 2 ^ t.width - 1 := by
  cases t <;> decide

/-- The high half of a product of signed factors is in range (Table 35). -/
theorem mul_ediv_signed {x y : Int} {h : Nat} (hx : -h ≤ x) (hx' : x < h) (hy : -h ≤ y) (hy' : y < h) :
    -h ≤ x * y / (2 * h) ∧ x * y / (2 * h) < h := by
  have hpos : 0 < 2 * (h : Int) := by omega
  have hxy : (x * y).natAbs ≤ h * h := by
    rw [Int.natAbs_mul]
    exact Nat.mul_le_mul (by omega) (by omega)
  have hsq : (h : Int) * (2 * h) = 2 * (h * h : Nat) := by rw [Int.mul_left_comm, Int.natCast_mul]
  have hone : 0 < h * h := Nat.mul_pos (by omega) (by omega)
  refine ⟨Int.le_ediv_of_mul_le hpos ?_, Int.ediv_lt_of_lt_mul hpos ?_⟩
  · rw [Int.neg_mul, hsq]
    omega
  · rw [hsq]
    omega

/-- The high half of a product of unsigned factors is in range (Table 35). -/
theorem mul_ediv_unsigned {x y n : Int} (hx : 0 ≤ x) (hx' : x < n) (hy : 0 ≤ y) (hy' : y < n) :
    0 ≤ x * y / n ∧ x * y / n < n :=
  ⟨Int.ediv_nonneg (Int.mul_nonneg hx hy) (by omega),
    Int.ediv_lt_of_lt_mul (by omega) (Int.mul_lt_mul' (Int.le_of_lt hx') hy' hy (by omega))⟩

/-- The high half of a product of a type's integers is one of them (Table 35). -/
theorem mul_ediv_bounds (a b : Nat) :
    let q := intOf t.isSigned t.width a * intOf t.isSigned t.width b / 2 ^ t.width
    minOfType t ≤ q ∧ q < minOfType t + 2 ^ t.width := by
  have hdouble := two_pow_eq_double t.width_pos
  unfold minOfType
  cases t.isSigned with
  | true =>
    obtain ⟨hal, hah⟩ := intOf_true_bounds t.width_pos a
    obtain ⟨hbl, hbh⟩ := intOf_true_bounds t.width_pos b
    rw [hdouble] at *
    obtain ⟨hlo, hhi⟩ := mul_ediv_signed hal (by omega) hbl (by omega)
    rw [if_pos rfl]
    exact ⟨hlo, by omega⟩
  | false =>
    obtain ⟨hal, hah⟩ := intOf_false_bounds (w := t.width) a
    obtain ⟨hbl, hbh⟩ := intOf_false_bounds (w := t.width) b
    rw [if_neg Bool.false_ne_true, Int.zero_add]
    exact mul_ediv_unsigned hal hah hbl hbh

/-- The clamped value reads back (R38, Table 35). -/
theorem intOf_clampTo (x : Int) :
    intOf t.isSigned t.width (clampTo t x).1 = max (minOfType t) (min (maxOfType t) x) := by
  have hmax := maxOfType_eq t
  have hpos := Nat.two_pow_pos t.width
  have hcast := two_pow_cast t.width
  exact intOf_intCode (intOf_bounds t) (by omega)
end

section
variable {t : ElemType}

/-- VMIN and VMAX of integers choose a code; where the integers are equal the codes are one (R122). -/
theorem minMaxCode_of_int (ht : t.isInt = true) {a b : Nat} (ha : a < 2 ^ t.width) (hb : b < 2 ^ t.width) (wantMax : Bool) :
    minMaxCode wantMax t a b = (if intOf t.isSigned t.width a ≤ intOf t.isSigned t.width b then cond wantMax b a
      else cond wantMax a b, 0) := by
  simp only [minMaxCode, ht, if_true]
  rcases Int.lt_trichotomy (intOf t.isSigned t.width a) (intOf t.isSigned t.width b) with hlt | heq | hgt
  · cases wantMax <;> simp [hlt, Int.le_of_lt hlt]
  · obtain rfl := eq_of_intOf_eq ha hb heq
    cases wantMax <;> simp
  · cases wantMax <;> simp [Int.not_lt.2 (Int.le_of_lt hgt), Int.not_le.2 hgt]

/-- No integer lane raises a flag (R122). -/
theorem v3Elem_flags_of_int (ht : t.isInt = true) (op : V3Op) (m : RMode) (a b d : Nat) : (v3Elem op t m a b d).2 = 0 := by
  cases op <;> simp [v3Elem, v3Int, clampTo, minMaxCode, ht]
end

/-- Settles O21: the wrapping operations agree with the integers modulo 2^w, and the others stay in range. -/
theorem integerLanes : Obligations.IntegerLanes := by
  intro t m a b d ht ha hb hd w x y v
  have hx : Agree w x a := intOf_agree _ w a
  have hy : Agree w y b := intOf_agree _ w b
  have hz : Agree w (intOf t.isSigned w d) d := intOf_agree _ w d
  have hv {op : V3Op} (h : v3Elem op t m a b d = if t.isInt then v3Int op t a b d else v3Fp op t m a b d) :
      v op = (v3Int op t a b d).1 := congrArg Prod.fst (h.trans (if_pos ht))
  have hsub (n k : Nat) (hk : k < 2 ^ w) : Agree w (n - k) (n + 2 ^ w - k : Nat) := by
    rw [Agree, Int.natCast_sub (by omega), Int.natCast_add, ← two_pow_cast,
      show (n : Int) + 2 ^ w - k = n - k + 2 ^ w by omega, Int.add_emod_right]
  have hquot := mul_ediv_bounds t a b
  refine ⟨(hv rfl).trans (intCode_of_agree (hx.add hy)),
    (hv rfl).trans (intCode_of_agree ((hx.sub hy).trans (hsub a b hb))),
    (hv rfl).trans (intCode_of_agree (hx.mul hy)), (hv rfl).trans (intCode_of_agree ((hx.mul hy).add hz)),
    (hv rfl).trans (intCode_of_agree (((hx.mul hy).sub hz).trans (hsub (a * b) d hd))),
    (hv rfl).trans (congrArg (· % 2 ^ w) (Nat.shiftLeft_eq ..)), (hv rfl).trans (Nat.shiftRight_eq_div_pow ..),
    (congrArg _ (hv rfl)).trans (intOf_sha t.width_pos a _), rfl, rfl, rfl,
    congrArg Prod.fst (minMaxCode_of_int ht ha hb false), congrArg Prod.fst (minMaxCode_of_int ht ha hb true),
    (congrArg _ (hv rfl)).trans (intOf_clampTo t _), (congrArg _ (hv rfl)).trans (intOf_clampTo t _),
    (congrArg _ (hv rfl)).trans (intOf_intCode (intOf_bounds t) hquot),
    fun op => v3Elem_flags_of_int ht op m a b d⟩

end Sys2Proof.Machine
end

section
/-!
The V2 operations that write lines (R125, R126, R129 to R131, R137, R139): one issue gives each element its result, and each
instruction makes one issue.
-/
namespace Sys2Proof.Machine
open Sys2Proof.Says

/-- Each V2 instruction runs in a slot of its own as one issue. -/
theorem exec_eq_v2Exec (op : V2Op) (o : V2) (s : State) : exec (op.instr o) s = v2Exec op o s := by cases op <;> rfl

section
variable {s : State} {c c' : Context} {op : V2Op} {o : V2} (h : runs s c)
include h

/-- A V2 instruction goes on with what its issue gives. -/
theorem exec_v2_becomes (hi : v2Issue op o {} s.eng c = .ok c') : exec (op.instr o) s = becomes s (c'.advance s.eng) := by
  rw [exec_eq_v2Exec]
  exact runC_ok h (res_bind_of_ok hi _)

/-- A V2 instruction takes the fault that its issue raises. -/
theorem exec_v2_traps {x : Trap} (hi : v2Issue op o {} s.eng c = .error (.trap x)) : exec (op.instr o) s = traps s c x := by
  rw [exec_eq_v2Exec]
  exact runC_trap h (by rw [hi]; rfl)
end

/-- The operands of a V2 operation resolve, and its meaning goes on with them. -/
theorem bind_operands_of_ready {α : Type} {s : State} {c : Context} {op : V2Op} {o : V2} {f : Offs} {kd ka n : Nat}
    {a : Opd} (h : Ready2 s c op o f kd ka n a) (g : Nat → Opd → Res α) :
    (c.vdst s.eng o.d f.d >>= fun d => c.inWin kd d >>= fun n => c.vsrc s.eng o.a f.a >>= fun a =>
      c.opdIn ka a >>= fun _ => g n a) = g n a := by
  have hwin : c.inWin kd n = .ok n := Context.inWin_ok (Int.natCast_nonneg n) h.destIn
  rw [res_bind_of_ok h.dest, res_bind_of_ok hwin, res_bind_of_ok h.srcA, res_bind_of_ok (Context.opdIn_ok h.aIn)]

/-! One line to one line (R125, R126, R129, R137, R139). -/

/-- The V2 operations of one source line and one destination line, without a block entry. -/
def isLineToLine (op : V2Op) : Prop :=
  isLane2 op = true ∨ op = .vcvt ∨ op = .vscan ∨ op = .vcompr ∨ op = .vexpd ∨ op = .viota

/-- The type of a V2 operation's source elements: VCVT's is T2. -/
def sourceType (op : V2Op) (o : V2) : ElemType := if op = .vcvt then o.t2 else o.ty

/-- Such an operation makes its line of its source's elements. -/
theorem v2Issue_of_lineToLine {s : State} {c : Context} {op : V2Op} {o : V2} {f : Offs} {n : Nat} {a : Opd}
    (hop : isLineToLine op) (h : Ready2 s c op o f 1 1 n a) : v2Issue op o f s.eng c =
      .ok (v2Line op o c (c.rdP s.eng o.pred.toNat) n
        ((List.range (sourceType op o).count).map (sourceElem c (sourceType op o).width a))) := by
  have hwin : c.inWin 1 n = .ok n := Context.inWin_ok (Int.natCast_nonneg n) h.destIn
  have hin := Context.opdIn_ok h.aIn
  have hline : v2Issue op o f s.eng c = (check (o.wf op) .illop >>= fun _ => c.vdst s.eng o.d f.d >>= fun d =>
      c.inWin 1 d >>= fun n => c.vsrc s.eng o.a f.a >>= fun a => (if op = .viota then .ok () else c.opdIn 1 a) >>= fun _ =>
      .ok (v2Line op o c (c.rdP s.eng o.pred.toNat) n (c.opdEls (sourceType op o).width 0 a))) := by
    rcases hop with hop | rfl | rfl | rfl | rfl | rfl
    · cases op with
      | vcvt | vwiden | vnarrow | vhad | vqnt | vdqnt | vradd | vrmax | vrmin | vscan | vcompr | vexpd | viota => cases hop
      | _ => rfl
    all_goals rfl
  rw [hline, check_bind_true h.wf, res_bind_of_ok h.dest, res_bind_of_ok hwin, res_bind_of_ok h.srcA,
    res_bind_of_ok (a := ()) (by rw [hin, ite_self]), Context.opdEls_eq_map_sourceElem]

/-- VCOMPR's list: the enabled elements in order (R139). -/
theorem comprEls_map (p : BitVec 128) (w : Nat) (g : Nat → Nat) (m : Nat) : ∀ k,
    comprEls p w k ((List.range' k m).map g) = ((List.range' k m).filter (enabled p w)).map g := by
  induction m with
  | zero => intro k; rfl
  | succ m ih =>
    intro k
    rw [List.range'_succ, List.map_cons, comprEls, ih, List.filter_cons]
    split <;> rfl

/-- VEXPD's list: an enabled place takes the source element of as many as are enabled before it (R139). -/
theorem expdEls_getD (p : BitVec 128) (w : Nat) (ds : List Nat) : ∀ (as : List Nat) (k i : Nat), i < ds.length →
    (expdEls p w k ds as).getD i 0 =
      if enabled p w (k + i) = true then as.getD ((List.range' k i).filter (enabled p w)).length 0 else ds.getD i 0 := by
  induction ds with
  | nil => intro _ _ _ hi; cases hi
  | cons d ds ih =>
    intro as k i hi
    cases i with
    | zero => cases as <;> by_cases he : enabled p w k = true <;> simp [expdEls, he]
    | succ i =>
      have hi := Nat.lt_of_succ_lt_succ hi
      have hnext (as : List Nat) := ih as (k + 1) i hi
      rw [show k + 1 + i = k + (i + 1) by omega] at hnext
      rw [expdEls, List.range'_succ, List.filter_cons]
      split
      · rw [List.getD_cons_succ, hnext, List.length_cons]
        cases as <;> simp
      · rw [List.getD_cons_succ, hnext, List.getD_cons_succ]

section
variable (c : Context) (o : V2) (p : BitVec 128) (n : Nat) (g : Nat → Nat)

/-- An operation of one lane acts on each element. -/
theorem v2Line_of_lane {op : V2Op} (hl : isLane2 op = true) : v2Line op o c p n ((List.range o.ty.count).map g) =
    c.putEls p o.ty.width n ((List.range o.ty.count).map fun i => v2Elem op o.ty c.fpm (g i)) := by
  have hmap : ((List.range o.ty.count).map g).map (v2Elem op o.ty c.fpm) =
    (List.range o.ty.count).map fun i => v2Elem op o.ty c.fpm (g i) := List.map_map
  rw [← hmap]
  cases op with
  | vcvt | vwiden | vnarrow | vhad | vqnt | vdqnt | vradd | vrmax | vrmin | vscan | vcompr | vexpd | viota => cases hl
  | _ => rfl

/-- VCVT converts as many elements as the wider type has in a line (R129). -/
theorem v2Line_vcvt : v2Line .vcvt o c p n ((List.range o.t2.count).map g) =
    c.putEls p o.ty.width n ((List.range (4096 / max o.ty.width o.t2.width)).map fun i =>
      convert o.ty o.t2 (c.rmAt o.rm n i) (g i)) := by
  refine congrArg (c.putEls p o.ty.width n) (List.map_congr_left fun i hi => ?_)
  have hle : 4096 / max o.ty.width o.t2.width ≤ o.t2.count :=
    Nat.div_le_div_left (Nat.le_max_right ..) o.t2.width_pos
  rw [getD_map_range _ _ (Nat.lt_of_lt_of_le (List.mem_range.1 hi) hle)]

/-- VCOMPR's line: the enabled elements, lowest first, and zeros above (R139). -/
theorem elem_vcompr {i : Nat} (hg : ∀ i, g i < 2 ^ o.ty.width) (hi : i < o.ty.count) :
    elem (lineOfEls o.ty.width (comprEls p o.ty.width 0 ((List.range o.ty.count).map g))) o.ty.width i =
      (((List.range o.ty.count).filter (enabled p o.ty.width)).map g).getD i 0 := by
  rw [elem_lineOfEls _ _ hi, List.range_eq_range', comprEls_map, Nat.mod_eq_of_lt]
  rw [List.getD_eq_getElem?_getD, List.getElem?_map]
  cases ((List.range' 0 o.ty.count).filter (enabled p o.ty.width))[i]? with
  | none => exact Nat.two_pow_pos _
  | some j => exact hg j

/-- VEXPD's line: an enabled element takes the next of the source's (R139). -/
theorem elem_vexpd (l : Line) {i : Nat} (hg : ∀ i, g i < 2 ^ o.ty.width) (hi : i < o.ty.count) :
    elem (lineOfEls o.ty.width (expdEls p o.ty.width 0 (lineEls l o.ty.width) ((List.range o.ty.count).map g)))
        o.ty.width i =
      if enabled p o.ty.width i = true then g ((List.range i).filter (enabled p o.ty.width)).length
      else elem l o.ty.width i := by
  have hlen : ((List.range i).filter (enabled p o.ty.width)).length < o.ty.count :=
    Nat.lt_of_le_of_lt (by simpa using List.length_filter_le (enabled p o.ty.width) (List.range i)) hi
  rw [elem_lineOfEls _ _ hi, lineEls_eq_map_elem, expdEls_getD _ _ _ _ _ _ (by simpa using hi), Nat.zero_add,
    ← List.range_eq_range', getD_map_range _ _ hi, getD_map_range _ _ hlen]
  refine Nat.mod_eq_of_lt ?_
  split
  · exact hg _
  · exact elem_lt ..
end

/-- The V2 operations of one line to one line write what each element rule gives. -/
theorem vectorTwoOperands : VectorTwoOperands := by
  intro s c op o n a h hready w p ea ed on ms hop
  have hexec := exec_v2_becomes h (v2Issue_of_lineToLine hop hready)
  have hlt := sourceElem_lt c w a
  rcases hop with hl | rfl | rfl | rfl | rfl | rfl
  · have hne : op ≠ .vcvt ∧ op ≠ .vscan ∧ op ≠ .vcompr ∧ op ≠ .vexpd ∧ op ≠ .viota := by
      refine ⟨?_, ?_, ?_, ?_, ?_⟩ <;> (rintro rfl; cases hl)
    obtain ⟨hcvt, hscan, hcompr, hexpd, hiota⟩ := hne
    have hea : ea = sourceElem c w a := congrArg (sourceElem c · a) (if_neg hcvt)
    rw [sourceType, if_neg hcvt, v2Line_of_lane _ _ _ _ _ hl, Context.putEls_eq] at hexec
    refine ⟨_, _, hexec, fun _ i hi => ?_, (absurd · hcvt), (absurd · hscan), (absurd · hcompr), (absurd · hexpd),
      (absurd · hiota)⟩
    rw [hea]
    exact elem_putLine_all _ _ _ _ hi
  · rw [show sourceType .vcvt o = o.t2 from rfl, v2Line_vcvt, Context.putEls_eq] at hexec
    refine ⟨_, _, hexec, nofun, fun _ i hi => ?_, nofun, nofun, nofun, nofun⟩
    exact elem_putLine _ _ _ _ _ hi
  · refine ⟨_, _, hexec, nofun, nofun, fun _ i hi => ?_, nofun, nofun, nofun⟩
    exact elem_putLine_all _ _ _ _ hi
  · rw [← Context.addFlags_zero (v2Line ..)] at hexec
    exact ⟨_, _, hexec, nofun, nofun, nofun, fun _ => ⟨rfl, fun i hi => elem_vcompr o p _ hlt hi⟩, nofun, nofun⟩
  · rw [← Context.addFlags_zero (v2Line ..)] at hexec
    exact ⟨_, _, hexec, nofun, nofun, nofun, nofun, fun _ => ⟨rfl, fun i hi => elem_vexpd o p _ _ hlt hi⟩, nofun⟩
  · refine ⟨_, _, hexec, nofun, nofun, nofun, nofun, nofun,
      fun _ => ⟨keepFlags_of_zero _ _ fun _ => rfl, fun i hi => ?_⟩⟩
    exact (elem_putLine_all _ _ _ _ hi).trans (by rw [Nat.mod_mod])

/-! One line to several, and several to one (R130, R131). -/

section
variable (o : V2) (p : BitVec 128) (k : Nat) (src c : Context) (n : Nat) (as : List Nat)

/-- The lines that VWIDEN does not write stay. -/
theorem widenPut_rdL_other {m : Nat} (j : Nat) (hm : m < n ∨ n + j ≤ m) :
    (widenPut o p k src c n as j).rdL m = c.rdL m := by
  induction j with
  | zero => rfl
  | succ j ih => rw [widenPut, Context.rdL_putEls_other _ _ _ _ (by omega), ih (by omega)]

/-- Line `r` of those that VWIDEN writes takes its own results. -/
theorem widenPut_rdL {r j : Nat} (hr : r < j) :
    (widenPut o p k src c n as j).rdL (n + r) = putLine o.ty p (c.rdL (n + r)) (widenResults src o k r as) := by
  induction j with
  | zero => omega
  | succ j ih =>
    rw [widenPut]
    by_cases hj : r = j
    · rw [hj, Context.rdL_putEls_same, widenPut_rdL_other _ _ _ _ _ _ _ _ (by omega)]
    · rw [Context.rdL_putEls_other _ _ _ _ (by omega), ih (by omega)]
end

section
variable {s : State} {c : Context} {o : V2} {f : Offs} {n : Nat} {a : Opd}

/-- VWIDEN writes as many lines as its elements are wider (R130). -/
theorem v2Issue_vwiden (h : Ready2 s c .vwiden o f (o.ty.width / o.t2.width) 1 n a) : v2Issue .vwiden o f s.eng c =
    .ok (widenPut o (c.rdP s.eng o.pred.toNat) (o.ty.width / o.t2.width) c c n
      ((List.range o.t2.count).map (sourceElem c o.t2.width a)) (o.ty.width / o.t2.width)) := by
  rw [v2Issue, check_bind_true h.wf]
  dsimp only
  rw [bind_operands_of_ready h, Context.opdEls_eq_map_sourceElem]

/-- VNARROW writes one line of as many source lines as its elements are narrower (R131). -/
theorem v2Issue_vnarrow (h : Ready2 s c .vnarrow o f 1 (o.t2.width / o.ty.width) n a)
    (hb : banksFree c (a.lines (o.t2.width / o.ty.width))) : v2Issue .vnarrow o f s.eng c =
    .ok (c.putEls (c.rdP s.eng o.pred.toNat) o.ty.width n (narrowResults c o n (o.t2.width / o.ty.width)
      ((List.range (o.t2.width / o.ty.width)).map fun j => c.opdEls o.t2.width j a))) := by
  rw [v2Issue, check_bind_true h.wf]
  dsimp only
  rw [bind_operands_of_ready h, Context.bankCheck_bind_of_free hb]
end

/-- VWIDEN converts to wider elements. -/
theorem V2.width_le_of_vwiden {o : V2} (h : o.wf .vwiden = true) : o.t2.width ≤ o.ty.width := by
  simp only [V2.wf, Bool.and_eq_true, decide_eq_true_eq] at h
  omega

/-- VNARROW converts to narrower elements. -/
theorem V2.width_le_of_vnarrow {o : V2} (h : o.wf .vnarrow = true) : o.ty.width ≤ o.t2.width := by
  simp only [V2.wf, Bool.and_eq_true, decide_eq_true_eq] at h
  omega

/-- VNARROW's result for element `i`, of element `i / k` of source line `i` mod `k` (R131). -/
theorem narrowResults_eq (c : Context) {o : V2} (n : Nat) (a : Opd) (hle : o.ty.width ≤ o.t2.width) :
    let k := o.t2.width / o.ty.width
    narrowResults c o n k ((List.range k).map fun j => c.opdEls o.t2.width j a) =
      (List.range o.ty.count).map fun i =>
        convert o.ty o.t2 (c.rmAt o.rm n i) (sourceElemOf c o.t2.width (i % k) a (i / k)) := by
  intro k
  have hk : 0 < k := Nat.div_pos hle o.ty.width_pos
  refine List.map_congr_left fun i hi => ?_
  have hdiv : i / k < o.t2.count :=
    Nat.div_lt_of_lt_mul (by rw [← ElemType.count_of_le hle]; exact List.mem_range.1 hi)
  rw [getD_map_range _ _ (Nat.mod_lt _ hk), Context.opdEls_eq_map_sourceElemOf, getD_map_range _ _ hdiv]

/-- VWIDEN and VNARROW write what each element converts to. -/
theorem widenAndNarrow : WidenAndNarrow := by
  intro s c o n a h w v p
  refine ⟨fun hready => ⟨_, exec_v2_becomes (op := .vwiden) h (v2Issue_vwiden hready),
    fun m hm => widenPut_rdL_other _ _ _ _ _ _ _ _ hm, fun r hr i hi => ?_⟩, fun hready hb => ?_⟩
  · have hcount : o.t2.count = w / v * o.ty.count := ElemType.count_of_le (V2.width_le_of_vwiden hready.wf)
    have hsrc : w / v * i + r < o.t2.count := by
      have := Nat.mul_le_mul_left (w / v) (Nat.succ_le_of_lt hi)
      rw [Nat.mul_succ] at this
      omega
    rw [widenPut_rdL _ _ _ _ _ _ _ hr, widenResults, elem_putLine_all _ _ _ _ hi, getD_map_range _ _ hsrc]
  · have hexec := exec_v2_becomes (op := .vnarrow) h (v2Issue_vnarrow hready hb)
    rw [narrowResults_eq c n a (V2.width_le_of_vnarrow hready.wf), Context.putEls_eq] at hexec
    refine ⟨_, _, hexec, fun i hi => ?_⟩
    exact elem_putLine_all _ _ _ _ hi

/-- Settles O22: each operation writes one list of results, or several, to lines that no other writes. -/
theorem vectorUnary : Obligations.VectorUnary := ⟨vectorTwoOperands, widenAndNarrow⟩

end Sys2Proof.Machine
end

section
/-!
VQNT, VDQNT and VHAD (R119, R121, R132 to R135): what each gives under a valid block entry, and ILLOP for another (R39).
-/
namespace Sys2Proof.Machine
open Sys2Proof.Says

section
variable {s : State} {c : Context} {o : V2} {f : Offs} {n : Nat} {a : Opd} {b : BlockEntry}
  (hb : c.blockEntry o.x.toNat = b)
include hb

section
variable {bf : BFmt} (hv : b.v = true) (hf : BFmt.ofCode b.bfmt = some bf) (ht : b.etype = 0)
include hv hf ht

/-- VQNT writes the segment of its source's blocks (R132, R133). -/
theorem v2Issue_vqnt (h : Ready2 s c .vqnt o f 1 1 n a) : ∃ fl : Flags, v2Issue .vqnt o f s.eng c =
    .ok ((c.wrL n (segment bf (vqntBlocks c o b bf (c.rdP s.eng o.pred.toNat) (a.lineOr n) n
      ((List.range o.ty.count).map (sourceElem c o.ty.width a))))).addFlags fl) := by
  subst hb
  rw [v2Issue, check_bind_true h.wf]
  simp only [vqntIssue, hf]
  rw [check_bind_true (by rw [hv, ht]; rfl), bind_operands_of_ready h, Context.opdEls_eq_map_sourceElem]
  exact ⟨_, rfl⟩

/-- VDQNT writes the decoded elements of its segment, turned back where the entry says so (R134). -/
theorem v2Issue_vdqnt (h : Ready2 s c .vdqnt o f 1 1 n a) : v2Issue .vdqnt o f s.eng c =
    .ok (c.putEls (c.rdP s.eng o.pred.toNat) o.ty.width n (roundAll o.ty (c.rmAt o.rm n 0)
      ((List.range (o.ty.count / 32)).flatMap fun j =>
        let vs := segmentVals bf (o.ty.count / 32)
          (packEls o.ty.width ((List.range o.ty.count).map (sourceElem c o.ty.width a))) j
        if b.hen then hadInv (c.rmAt o.rm n 0) (b.sign (o.ty.count / 32) (a.lineOr n) j) vs
        else vs.map fun v => (v, 0)))) := by
  subst hb
  rw [v2Issue, check_bind_true h.wf]
  simp only [vdqntIssue, hf]
  rw [check_bind_true (by rw [hv, ht]; rfl), bind_operands_of_ready h, Context.opdEls_eq_map_sourceElem]

end

/-- VHAD writes the rotated blocks of its source (R135). -/
theorem v2Issue_vhad (h : Ready2 s c .vhad o f 1 1 n a) (hv : b.v = true) (hh : b.hen = true)
    (hf : b.bfmt < 10) : v2Issue .vhad o f s.eng c =
    .ok (c.putEls (c.rdP s.eng o.pred.toNat) o.ty.width n (roundAll o.ty c.fpm
      ((List.range (o.ty.count / 32)).flatMap fun j =>
        let xs := blockVals o.ty (c.rdP s.eng o.pred.toNat) ((List.range o.ty.count).map (sourceElem c o.ty.width a)) j
        let sg := b.sign (o.ty.count / 32) (a.lineOr n) j
        if o.q then hadInv c.fpm sg xs else hadFwd c.fpm sg xs))) := by
  subst hb
  rw [v2Issue, check_bind_true h.wf]
  dsimp only [vhadIssue]
  rw [check_bind_true (by rw [hv, hh, decide_eq_true hf]; rfl), bind_operands_of_ready h, Context.opdEls_eq_map_sourceElem]

/-- VHAD raises ILLOP for an entry that is not valid, does not rotate, or has a reserved format (R39, R135). -/
theorem v2Issue_vhad_illop (hwf : o.wf .vhad = true) (e : Engine) (hill : b.v = false ∨ b.hen = false ∨
    10 ≤ b.bfmt) : v2Issue .vhad o f e c = .error (.trap { code := .illop }) := by
  subst hb
  rw [v2Issue, check_bind_true hwf]
  refine check_bind_false ?_ ..
  rcases hill with hv | hh | hf
  · simp [hv]
  · simp [hh]
  · simp [Nat.not_lt.2 hf]

/-- VQNT and VDQNT raise ILLOP for an entry that is not valid or has no block format (R39, R133, R134). -/
theorem v2Issue_illop_of_entry {op : V2Op} (hop : op = .vqnt ∨ op = .vdqnt) (hwf : o.wf op = true) (e : Engine)
    (hill : b.v = false ∨ BFmt.ofCode b.bfmt = none) : v2Issue op o f e c = .error (.trap { code := .illop }) := by
  have hv (bf : BFmt) (hf : BFmt.ofCode b.bfmt = some bf) : (b.v && b.etype == 0) = false := by
    rw [hill.resolve_right (by simp [hf])]; rfl
  subst hb
  rcases hop with rfl | rfl
  all_goals
    rw [v2Issue, check_bind_true hwf]
    simp only [vqntIssue, vdqntIssue]
    cases hf : BFmt.ofCode (c.blockEntry o.x.toNat).bfmt with
    | none => rfl
    | some bf => exact check_bind_false (hv bf hf) ..
end

/-- Settles O23: a valid entry passes each operation's check and the operands resolve; another entry fails the check. -/
theorem vectorBlocks : Obligations.VectorBlocks := by
  intro s c o n a bf h b w g p es sign
  refine ⟨fun hr hv hf ht => ?_, fun hr hv hf ht => exec_v2_becomes h (v2Issue_vdqnt rfl hv hf ht hr),
    fun hr hv hh hf => exec_v2_becomes h (v2Issue_vhad rfl hr hv hh hf),
    fun hr hb => exec_v2_traps h (v2Issue_vhad_illop rfl hr.wf s.eng hb),
    fun hr hb => exec_v2_traps h (v2Issue_illop_of_entry rfl (.inl rfl) hr.wf s.eng hb),
    fun hr hb => exec_v2_traps h (v2Issue_illop_of_entry rfl (.inr rfl) hr.wf s.eng hb)⟩
  obtain ⟨fl, hissue⟩ := v2Issue_vqnt rfl hv hf ht hr
  exact ⟨fl, exec_v2_becomes (op := .vqnt) h hissue⟩

end Sys2Proof.Machine
end

section
/-!
VCMP and the predicate instructions (R14, R128, R140 to R142): the bits that each writes, and PCNT's fill.
-/
namespace Sys2Proof.Machine
open Sys2Proof.Says

/-! The predicate instructions as writes of one predicate. -/

section
variable {s : State} {c : Context} (h : runs s c)
include h

/-- A predicate operation writes its result and goes on. -/
theorem predOp_becomes (f : BitVec 128 → BitVec 128 → BitVec 128) (o : PP) : predOp f o s =
    becomes s ((c.wrP s.eng o.pd.toNat (f (c.rdP s.eng o.pa.toNat) (c.rdP s.eng o.pb.toNat))).advance s.eng) :=
  runC_ok h rfl

theorem execPseti_becomes {o : PP} (hi : o.imm.toNat ≤ o.ty.count) : execPseti o s =
    becomes s ((c.wrP s.eng o.pd.toNat (psetiVal o.ty.width o.imm.toNat)).advance s.eng) :=
  runC_ok h (check_bind_true (decide_eq_true hi) ..)

theorem execPcnt_waits {o : PP} (hd : fillDue c (o.pd.toNat % 8) = true) : execPcnt o s = waits s :=
  runC_wait h (Context.awaitFill_bind_of_due hd _)

theorem execPcnt_becomes {o : PP} (hd : fillDue c (o.pd.toNat % 8) = false) :
    let count := enabledCount o.ty.width (c.rdP s.eng o.pa.toNat)
    execPcnt o s = becomes s ((c.fill (o.pd.toNat % 8) (BitVec.ofNat 64 count)).advance s.eng) :=
  runC_ok h (Context.awaitFill_bind_of_free hd _)

/-- VCMP whose sources resolve writes its predicate and its flags. -/
theorem execVcmp_becomes {v : VP} {a b : Opd} (hwf : v.wf = true) (ha : c.vsrc s.eng v.a 0 = .ok a)
    (hb : c.vsrc s.eng v.b 0 = .ok b) (hai : inside c 1 a) (hbi : inside c 1 b)
    (hbank : banksFree c (a.lines 1 ++ b.lines 1)) :
    let x := vcmpResult v.cc v.ty (c.rdP s.eng v.pred.toNat) ((List.range v.ty.count).map (sourceElem c v.ty.width a))
      ((List.range v.ty.count).map (sourceElem c v.ty.width b))
    execVcmp v s = becomes s (((c.wrP s.eng v.pd.toNat x.1).addFlags x.2).advance s.eng) := by
  refine runC_ok h ?_
  rw [check_bind_true hwf, res_bind_of_ok ha, res_bind_of_ok (Context.opdIn_ok hai), res_bind_of_ok hb,
    res_bind_of_ok (Context.opdIn_ok hbi), Context.bankCheck_bind_of_free hbank]
  simp only [Context.opdEls_eq_map_sourceElem]
end

/-! Predicates 0 and 1 (R14). -/

/-- A write of p0 or p1 is discarded (R14). -/
theorem Context.wrP_of_lt (c : Context) (e : Engine) {n : Nat} (hn : n < 2) (z : BitVec 128) : c.wrP e n z = c := by
  rw [Context.wrP, predPhys, if_pos (by omega), Context.wrPhys, if_pos hn]

/-! PFIRST (R140). -/

/-- The lowest bit of a search: one that holds, with none below it. -/
theorem lowestFrom_eq_some_iff (p : Nat → Bool) (n : Nat) : ∀ i k, lowestFrom p i n = some k ↔
    i ≤ k ∧ k < i + n ∧ p k = true ∧ ∀ j, i ≤ j → j < k → p j = false := by
  induction n with
  | zero => intro i k; simp [lowestFrom]; omega
  | succ n ih =>
    intro i k
    rw [lowestFrom]
    by_cases hi : p i = true
    · rw [if_pos hi, Option.some_inj]
      constructor
      · rintro rfl
        exact ⟨Nat.le_refl _, by omega, hi, by omega⟩
      · rintro ⟨hik, -, -, hbelow⟩
        refine Decidable.byContradiction fun hne => ?_
        exact Bool.false_ne_true ((hbelow i (Nat.le_refl _) (by omega)).symm.trans hi)
    · rw [if_neg hi, ih]
      constructor
      · rintro ⟨hik, hkn, hk, hbelow⟩
        refine ⟨by omega, by omega, hk, fun j hj hjk => ?_⟩
        by_cases hji : j = i
        · simpa [hji] using hi
        · exact hbelow j (by omega) hjk
      · rintro ⟨hik, hkn, hk, hbelow⟩
        have hne : i ≠ k := by rintro rfl; exact hi hk
        exact ⟨by omega, by omega, hk, fun j hj hjk => hbelow j (by omega) hjk⟩

/-- The two bits of an element of 64 bits (R14). -/
theorem testBit_three_mul (i k : Nat) : (3 * 2 ^ (2 * i)).testBit k = decide (i = k / 2) := by
  rw [show (3 : Nat) = 2 ^ 2 - 1 from rfl, Nat.testBit_mul_two_pow, Nat.testBit_two_pow_sub_one, ← Bool.decide_and,
    decide_eq_decide]
  omega

/-- PFIRST's bits: those of the lowest enabled element, two for an element of 64 bits (R140). -/
theorem getLsbD_pfirstVal (w : Nat) (x : BitVec 128) {k : Nat} (hk : k < 128) : (pfirstVal w x).getLsbD k = true ↔
    if w = 64 then x.getLsbD (k / 2 * 2) = true ∧ ∀ j < k / 2, x.getLsbD (2 * j) = false
    else x.getLsbD k = true ∧ ∀ j < k, x.getLsbD j = false := by
  unfold pfirstVal
  by_cases hw : w = 64
  · rw [if_pos hw, if_pos hw]
    have hlow := lowestFrom_eq_some_iff (fun i => x.getLsbD (2 * i)) 64 0 (k / 2)
    simp only [Nat.zero_le, true_and, true_implies, Nat.zero_add, show k / 2 < 64 by omega] at hlow
    rw [Nat.mul_comm (k / 2), ← hlow]
    cases lowestFrom (fun i => x.getLsbD (2 * i)) 0 64 with
    | none => simp
    | some i =>
      rw [BitVec.getLsbD_ofNat, decide_eq_true hk, Bool.true_and, testBit_three_mul, decide_eq_true_eq, Option.some_inj]
  · rw [if_neg hw, if_neg hw]
    have hlow := lowestFrom_eq_some_iff (fun i => x.getLsbD i) 128 0 k
    simp only [Nat.zero_le, true_and, true_implies, Nat.zero_add, hk] at hlow
    rw [← hlow]
    cases lowestFrom (fun i => x.getLsbD i) 0 128 with
    | none => simp
    | some i =>
      rw [BitVec.getLsbD_ofNat, decide_eq_true hk, Bool.true_and, Nat.testBit_two_pow, decide_eq_true_eq, Option.some_inj]

/-! PCNT (R141) and PSETI (R142). -/

/-- PCNT's count, as the library's. -/
theorem enabledCount_eq_countP (t : ElemType) (x : BitVec 128) :
    enabledCount t.width x = (List.range t.count).countP fun i => enabled x t.width i :=
  List.countP_eq_length_filter.symm

/-- A fill leaves the other registers as full as they were. -/
theorem Context.fill_full_other (c : Context) {k j : Nat} (v : Word) (h : j ≠ k) :
    (c.fill k v).r.exFull.getLsbD j = c.r.exFull.getLsbD j := by
  have hbit : (1#8 <<< k).getLsbD j = false := by
    rw [BitVec.getLsbD_shiftLeft, BitVec.getLsbD_one]
    simp
    omega
  simp [Context.fill, hbit]

/-- A fill leaves what the other registers hold. -/
theorem Context.fill_ex_other (c : Context) {k j : Nat} (v : Word) (h : j ≠ k) :
    lookD (c.fill k v).r.ex j 0 = lookD c.r.ex j 0 := by
  rw [Context.fill, Context.wake_r]
  exact lookD_putD_other c.r.ex k j v 0 h

/-- A fill of a context that is awake changes its exchange registers alone. -/
theorem Context.fill_of_awake {c : Context} (hi : c.idle = false) (k : Nat) (v : Word) :
    c.fill k v = { c with r := { c.r with ex := putD c.r.ex k v 0, exFull := c.r.exFull ||| (1#8 <<< k) } } :=
  Context.wake_of_awake hi

/-- PSETI enables the elements one of whose predicate bit's elements is below IMM (R142). -/
theorem enabled_psetiVal (t : ElemType) {m i : Nat} (hm : m ≤ t.count) (hi : i < t.count) :
    enabled (psetiVal t.width m) t.width i = true ↔ i * t.width / 32 * 32 < m * t.width := by
  rw [enabled, psetiVal, BitVec.getLsbD_ofNat, Nat.testBit_two_pow_sub_one, decide_eq_true (govBit_lt t hi), Bool.true_and,
    decide_eq_true_eq]
  cases t <;> simp only [ElemType.width, govBit] <;> simp <;> omega

/-! VCMP (R128). -/

/-- A predicate's bits are those of its list. -/
theorem testBit_predOf (bs : List Bool) : ∀ k, (predOf bs).testBit k = bs.getD k false := by
  induction bs with
  | nil => intro k; simp [predOf]
  | cons b r ih =>
    intro k
    have hbit : (if b then 1 else 0) < 2 := by cases b <;> decide
    cases k with
    | zero =>
      rw [predOf, Nat.testBit_zero, Nat.add_mul_mod_self_left]
      cases b <;> rfl
    | succ k =>
      rw [predOf, Nat.testBit_succ, Nat.add_mul_div_left _ _ (by decide), Nat.div_eq_of_lt hbit, Nat.zero_add, ih,
        List.getD_cons_succ]

/-- A flag of many elements together is one that an element raises (R46). -/
theorem getLsbD_orFlags_map {α : Type} (g : α → Flags) (l : List α) (j : Nat) :
    (orFlags (l.map g)).getLsbD j = true ↔ ∃ x ∈ l, (g x).getLsbD j = true := by
  induction l with
  | nil => simp [orFlags]
  | cons x l ih => simp [orFlags, ih]

/-- The elements that bit `k` of a predicate governs are those whose bit is `k`, or the even one of its pair (R14). -/
theorem mem_governed (t : ElemType) {k : Nat} (hk : k < 128) (i : Nat) : i ∈ governed t.width k ↔
    i < t.count ∧ govBit t.width i = if t.width = 64 then k / 2 * 2 else k := by
  have hgroup (n : Nat) (hn : 0 < n) : i ∈ ((List.range n).map fun j => n * k + j) ↔ i / n = k := by
    rw [List.mem_map]
    constructor
    · rintro ⟨j, hj, rfl⟩
      rw [Nat.mul_add_div hn, Nat.div_eq_of_lt (List.mem_range.1 hj), Nat.add_zero]
    · rintro rfl
      exact ⟨i % n, List.mem_range.2 (Nat.mod_lt _ hn), Nat.div_add_mod i n⟩
  have h8 := hgroup 8 (by decide)
  have h4 := hgroup 4 (by decide)
  have h2 := hgroup 2 (by decide)
  have h1 := hgroup 1 (by decide)
  cases t <;> simp only [governed, govBit, ElemType.count, ElemType.width, Nat.reduceEqDiff, Nat.reduceDiv, reduceIte,
    List.mem_singleton, h8, h4, h2, h1] <;> omega

/-- The bit of an element of 64 bits is the even one of its pair (R14). -/
theorem govBit_even (t : ElemType) (i : Nat) :
    (if t.width = 64 then govBit t.width i / 2 * 2 else govBit t.width i) = govBit t.width i := by
  cases t <;> simp [ElemType.width, govBit, Nat.mul_comm]

section
variable (cc : CmpCode) (t : ElemType) (p : BitVec 128) (a b : Nat → Nat)

/-- A bit of VCMP's predicate: its element is enabled, and the comparison holds of all that it governs (R128). -/
theorem vcmpResult_getLsbD {k : Nat} (hk : k < 128) :
    (vcmpResult cc t p ((List.range t.count).map a) ((List.range t.count).map b)).1.getLsbD k =
      (p.getLsbD (if t.width = 64 then k / 2 * 2 else k) &&
        (governed t.width k).all fun i => (cmpEl cc t (a i) (b i)).1) := by
  have hlt (i : Nat) (hi : i ∈ governed t.width k) : i < t.count := ((mem_governed t hk i).1 hi).1
  simp only [vcmpResult, BitVec.getLsbD_ofNat, testBit_predOf, getD_map_range _ _ hk, decide_eq_true hk, Bool.true_and]
  congr 1
  rw [Bool.eq_iff_iff, List.all_eq_true, List.all_eq_true]
  refine forall₂_congr fun i hi => ?_
  rw [getD_map_range _ _ (hlt i hi), getD_map_range _ _ (hlt i hi)]

/-- VCMP raises the flags of the enabled elements (R128). -/
theorem vcmpResult_flags (j : Nat) :
    (vcmpResult cc t p ((List.range t.count).map a) ((List.range t.count).map b)).2.getLsbD j = true ↔
      ∃ i < t.count, enabled p t.width i = true ∧ (cmpEl cc t (a i) (b i)).2.getLsbD j = true := by
  simp only [vcmpResult, getLsbD_orFlags_map, List.mem_range]
  constructor
  · rintro ⟨k, hk, hflag⟩
    by_cases hon : p.getLsbD (if t.width = 64 then k / 2 * 2 else k) = true
    · rw [if_pos hon, getLsbD_orFlags_map] at hflag
      obtain ⟨i, hi, hflag⟩ := hflag
      obtain ⟨hlt, hgov⟩ := (mem_governed t hk i).1 hi
      rw [getD_map_range _ _ hlt, getD_map_range _ _ hlt] at hflag
      exact ⟨i, hlt, by rw [enabled, hgov]; exact hon, hflag⟩
    · rw [if_neg hon] at hflag
      exact absurd hflag (by simp)
  · rintro ⟨i, hlt, hon, hflag⟩
    refine ⟨govBit t.width i, govBit_lt t hlt, ?_⟩
    rw [govBit_even, if_pos (show p.getLsbD (govBit t.width i) = true from hon), getLsbD_orFlags_map]
    refine ⟨i, (mem_governed t (govBit_lt t hlt) i).2 ⟨hlt, (govBit_even t i).symm⟩, ?_⟩
    rw [getD_map_range _ _ hlt, getD_map_range _ _ hlt]
    exact hflag
end

/-- Settles O25: each instruction is one write of a predicate, or PCNT's fill. -/
theorem predicates : Obligations.Predicates := by
  intro s c o v a b h x y puts
  simp only [exec]
  refine ⟨predOp_becomes h _ o, predOp_becomes h _ o, predOp_becomes h _ o, predOp_becomes h _ o,
    ⟨_, predOp_becomes h _ o, fun k hk => getLsbD_pfirstVal _ _ hk⟩, execPcnt_waits h,
    fun hd => ⟨_, execPcnt_becomes h hd, c.fill_full_same _ _ (Nat.mod_lt _ (by decide)),
      fun hi => by rw [Context.fill_of_awake hi], fun j hj => ⟨c.fill_ex_other _ hj, c.fill_full_other _ hj⟩, ?_⟩,
    fun hm => ⟨_, execPseti_becomes h hm, fun i hi => enabled_psetiVal _ hm hi⟩,
    fun hwf ha hb hai hbi hbank => ⟨_, _, execVcmp_becomes h hwf ha hb hai hbi hbank,
      fun k hk => ⟨vcmpResult_getLsbD _ _ _ _ _ hk, fun j _ => vcmpResult_flags _ _ _ _ _ j⟩⟩,
    fun n z hn => c.wrP_of_lt _ hn z, rfl, rfl⟩
  rw [c.fill_ex_same, enabledCount_eq_countP]

end Sys2Proof.Machine
end

section
/-!
Tiles as matrices (R146 to R151): what an element and a word of the accumulator store hold after elements are written or zeroed,
and how many elements of a tile's width a line holds.
-/
namespace Sys2Proof.Machine
open Sys2Proof.Says

/-! Places inside a tile (R146). -/

/-- Two places of a tile have places of their own in its storage. -/
theorem Tile.index_ne {t : Tile} {r c i j : Nat} (hc : c < t.cols) (hj : j < t.cols) (h : (r, c) ≠ (i, j)) :
    r * t.cols + c ≠ i * t.cols + j := by
  intro heq
  have hrow : r = i := by
    have := congrArg (· / t.cols) heq
    simpa [Nat.add_comm, Nat.add_mul_div_right, Nat.div_eq_of_lt hc, Nat.div_eq_of_lt hj, Nat.zero_lt_of_lt hc] using this
  subst hrow
  exact h (by rw [Nat.add_left_cancel heq])

/-- A place of a tile lies in its storage. -/
theorem Tile.index_lt {t : Tile} {r c : Nat} (hr : r < t.rows) (hc : c < t.cols) :
    r * t.cols + c < t.rows * t.cols := by
  have := Nat.mul_le_mul_right t.cols (Nat.succ_le_of_lt hr)
  rw [Nat.succ_mul] at this
  omega

/-- The words of a tile of 64-bit elements, and of one of 32-bit elements. -/
theorem Tile.words_eq (t : Tile) : t.words = if t.fmt = .fp64 then 2 * (t.rows * t.cols) else t.rows * t.cols := by
  by_cases h : t.fmt = .fp64 <;> simp [Tile.words, Tile.width, h, Nat.mul_comm]

/-- The element type of a tile's width. -/
def Tile.elType (t : Tile) : ElemType := if t.fmt = .fp64 then .f64 else .f32

theorem Tile.width_eq (t : Tile) : t.width = t.elType.width := by
  unfold Tile.width Tile.elType
  split <;> rfl

theorem tileGet_lt (acc : Store (BitVec 32)) (t : Tile) (r c : Nat) : tileGet acc t r c < 2 ^ t.width := by
  have hword (w : Nat) : (lookD acc w 0).toNat < 2 ^ 32 := (lookD acc w 0).isLt
  unfold tileGet Tile.width
  split
  · have h0 := hword (t.word + 2 * (r * t.cols + c))
    have h1 := hword (t.word + 2 * (r * t.cols + c) + 1)
    dsimp only
    omega
  · exact hword _

/-! One element written (R146). -/

section
variable (acc : Store (BitVec 32)) (t : Tile) (r c v : Nat)

/-- A written element holds the low bits of what was written. -/
theorem tileGet_tileSet_same : tileGet (tileSet acc t r c v) t r c = v % 2 ^ t.width := by
  unfold tileGet tileSet Tile.width
  split
  · dsimp only
    rw [lookD_putD_other _ _ _ _ _ (by omega), lookD_putD_same, lookD_putD_same, BitVec.toNat_ofNat, BitVec.toNat_ofNat]
    omega
  · simp

/-- A written element leaves the others. -/
theorem tileGet_tileSet_other {i j : Nat} (hc : c < t.cols) (hj : j < t.cols) (h : (r, c) ≠ (i, j)) :
    tileGet (tileSet acc t r c v) t i j = tileGet acc t i j := by
  have hne := Tile.index_ne hc hj h
  unfold tileGet tileSet
  split <;> dsimp only <;> simp (disch := omega) only [lookD_putD_other]

/-- An element written leaves the words outside the tile. -/
theorem lookD_tileSet_outside {w : Nat} (hr : r < t.rows) (hc : c < t.cols) (hw : w < t.word ∨ t.word + t.words ≤ w) :
    lookD (tileSet acc t r c v) w 0 = lookD acc w 0 := by
  have hlt := Tile.index_lt hr hc
  rw [t.words_eq] at hw
  unfold tileSet
  split at hw <;> rename_i hf <;> simp only [hf, if_true, if_false] <;> simp (disch := omega) only [lookD_putD_other]
end

/-! Elements written in turn: a row or a column (R150). -/

/-- The elements of a list written at the places that `p` gives from its `j`-th on. -/
def tileSets (acc : Store (BitVec 32)) (t : Tile) (p : Nat → Nat × Nat) : Nat → List Nat → Store (BitVec 32)
  | _, [] => acc
  | j, x :: xs => tileSet (tileSets acc t p (j + 1) xs) t (p j).1 (p j).2 x

theorem setRow_eq_tileSets (acc : Store (BitVec 32)) (t : Tile) (r : Nat) (xs : List Nat) :
    ∀ j, setRow acc t r j xs = tileSets acc t (fun k => (r, k)) j xs := by
  induction xs with
  | nil => intro j; rfl
  | cons x xs ih => intro j; rw [setRow, tileSets, ih]

theorem setCol_eq_tileSets (acc : Store (BitVec 32)) (t : Tile) (k : Nat) (xs : List Nat) :
    ∀ i, setCol acc t k i xs = tileSets acc t (fun m => (m, k)) i xs := by
  induction xs with
  | nil => intro i; rfl
  | cons x xs ih => intro i; rw [setCol, tileSets, ih]

section
variable (acc : Store (BitVec 32)) (t : Tile) {p : Nat → Nat × Nat}

/-- A place that is none of those written keeps its element. -/
theorem tileGet_tileSets_other {i k : Nat} (hk : k < t.cols) (xs : List Nat) : ∀ j,
    (∀ m, j ≤ m → m < j + xs.length → (p m).2 < t.cols ∧ p m ≠ (i, k)) →
    tileGet (tileSets acc t p j xs) t i k = tileGet acc t i k := by
  induction xs with
  | nil => intro j _; rfl
  | cons x xs ih =>
    intro j h
    obtain ⟨hcol, hne⟩ := h j (Nat.le_refl j) (by simp)
    rw [tileSets, tileGet_tileSet_other _ _ _ _ _ hcol hk hne]
    exact ih _ fun m hm hlt => h m (by omega) (by simp; omega)

/-- A place that is written holds its element of the list. -/
theorem tileGet_tileSets_same (hp : Function.Injective p) {m : Nat} (xs : List Nat) : ∀ j, j ≤ m → m < j + xs.length →
    (∀ n, j ≤ n → n < j + xs.length → (p n).2 < t.cols) →
    tileGet (tileSets acc t p j xs) t (p m).1 (p m).2 = xs.getD (m - j) 0 % 2 ^ t.width := by
  induction xs with
  | nil => intro j hj hm; simp at hm; omega
  | cons x xs ih =>
    intro j hj hm h
    have hcol (n : Nat) (hn : j ≤ n) (hlt : n < j + (xs.length + 1)) : (p n).2 < t.cols := h n hn (by simpa using hlt)
    rw [List.length_cons] at hm
    rw [tileSets]
    by_cases he : m = j
    · subst he
      rw [tileGet_tileSet_same]
      simp
    · have hne : p j ≠ ((p m).1, (p m).2) := fun heq => he (hp heq).symm
      rw [tileGet_tileSet_other _ _ _ _ _ (hcol j (Nat.le_refl j) (by omega)) (hcol m hj hm) hne,
        ih (j + 1) (by omega) (by omega) fun n hn hlt => hcol n (by omega) (by omega),
        show m - j = m - (j + 1) + 1 by omega, List.getD_cons_succ]

/-- Elements written leave the words outside the tile. -/
theorem lookD_tileSets_outside {w : Nat} (hw : w < t.word ∨ t.word + t.words ≤ w) (xs : List Nat) : ∀ j,
    (∀ m, j ≤ m → m < j + xs.length → (p m).1 < t.rows ∧ (p m).2 < t.cols) →
    lookD (tileSets acc t p j xs) w 0 = lookD acc w 0 := by
  induction xs with
  | nil => intro j _; rfl
  | cons x xs ih =>
    intro j h
    obtain ⟨hrow, hcol⟩ := h j (Nat.le_refl j) (by simp)
    rw [tileSets, lookD_tileSet_outside _ _ _ _ _ hrow hcol hw]
    exact ih _ fun m hm hlt => h m (by omega) (by simp; omega)
end

section
variable (acc : Store (BitVec 32)) (t : Tile) (k : Nat)

/-- The elements of a tile after part of a row is written. -/
theorem tileGet_setRow (xs : List Nat) {j i n : Nat} (hlen : j + xs.length ≤ t.cols) (hn : n < t.cols) :
    tileGet (setRow acc t k j xs) t i n =
      if i = k ∧ j ≤ n ∧ n < j + xs.length then xs.getD (n - j) 0 % 2 ^ t.width else tileGet acc t i n := by
  rw [setRow_eq_tileSets]
  split
  · next h =>
    obtain ⟨rfl, hj, hlt⟩ := h
    exact tileGet_tileSets_same acc t (fun _ _ h => (Prod.mk.inj h).2) xs j hj hlt fun m _ _ => by dsimp only; omega
  · next h =>
    refine tileGet_tileSets_other acc t hn xs j fun m hm hlt => ⟨by dsimp only; omega, fun heq => h ?_⟩
    obtain ⟨rfl, rfl⟩ := Prod.mk.inj heq
    exact ⟨rfl, hm, hlt⟩

/-- The elements of a tile after part of a column is written. -/
theorem tileGet_setCol (xs : List Nat) {j i n : Nat} (hk : k < t.cols) (hn : n < t.cols) :
    tileGet (setCol acc t k j xs) t i n =
      if n = k ∧ j ≤ i ∧ i < j + xs.length then xs.getD (i - j) 0 % 2 ^ t.width else tileGet acc t i n := by
  rw [setCol_eq_tileSets]
  split
  · next h =>
    obtain ⟨rfl, hj, hlt⟩ := h
    exact tileGet_tileSets_same acc t (p := fun m => (m, n)) (fun _ _ h => (Prod.mk.inj h).1) xs j hj hlt fun m _ _ => hn
  · next h =>
    refine tileGet_tileSets_other acc t hn xs j fun m hm hlt => ⟨hk, fun heq => h ?_⟩
    obtain ⟨rfl, rfl⟩ := Prod.mk.inj heq
    exact ⟨rfl, hm, hlt⟩

variable {w : Nat} (hw : w < t.word ∨ t.word + t.words ≤ w)
include hw

/-- A row written leaves the words outside the tile. -/
theorem lookD_setRow_outside (xs : List Nat) {j : Nat} (hk : k < t.rows) (hlen : j + xs.length ≤ t.cols) :
    lookD (setRow acc t k j xs) w 0 = lookD acc w 0 := by
  rw [setRow_eq_tileSets]
  exact lookD_tileSets_outside acc t hw xs j fun m _ hlt => ⟨hk, by dsimp only; omega⟩

/-- A column written leaves the words outside the tile. -/
theorem lookD_setCol_outside (xs : List Nat) {j : Nat} (hk : k < t.cols) (hlen : j + xs.length ≤ t.rows) :
    lookD (setCol acc t k j xs) w 0 = lookD acc w 0 := by
  rw [setCol_eq_tileSets]
  exact lookD_tileSets_outside acc t hw xs j fun m _ hlt => ⟨by dsimp only; omega, hk⟩
end

/-! A tile zeroed (R147, R149). -/

/-- What is found in a store whose entries are kept by their keys. -/
theorem find?_filter_key {α : Type} (m : Store α) (f : Nat → Bool) (n : Nat) :
    find? (m.filter fun e => f e.1) n = if f n = true then find? m n else none := by
  induction m with
  | nil => simp [find?]
  | cons e r ih =>
    obtain ⟨k, v⟩ := e
    rw [List.filter_cons, find?]
    by_cases hk : k = n
    · subst hk
      by_cases hf : f k = true
      · simp [hf, find?]
      · simpa [hf] using ih
    · rw [if_neg hk, ← ih]
      split
      · rw [find?, if_neg hk]
      · rfl

/-- The words of a zeroed tile hold zero, and the others what they held. -/
theorem lookD_tileZero (acc : Store (BitVec 32)) (t : Tile) (w : Nat) : lookD (tileZero acc t) w 0 =
    if w < t.word ∨ t.word + t.words ≤ w then lookD acc w 0 else 0 := by
  rw [lookD, tileZero, find?_filter_key acc (fun k => decide (k < t.word) || decide (t.word + t.words ≤ k))]
  simp only [Bool.or_eq_true, decide_eq_true_eq]
  by_cases hw : w < t.word ∨ t.word + t.words ≤ w
  · rw [if_pos hw, if_pos hw]; rfl
  · rw [if_neg hw, if_neg hw]

/-- A zeroed tile reads zero. -/
theorem tileGet_tileZero (acc : Store (BitVec 32)) (t : Tile) {r c : Nat} (hr : r < t.rows) (hc : c < t.cols) :
    tileGet (tileZero acc t) t r c = 0 := by
  have hlt := Tile.index_lt hr hc
  have hwords := t.words_eq
  unfold tileGet
  split at hwords <;> rename_i hf <;> simp only [hf, if_true, if_false, lookD_tileZero]
  · rw [if_neg (by omega), if_neg (by omega)]; rfl
  · rw [if_neg (by omega)]; rfl

/-! Tiles and lines (R15, R147, R150). -/

/-- The rows and the columns of a shape that R147 accepts fit a line. -/
theorem Tile.fits_of_shapeOk {v : Word} {x : Tile} (hx : tileOf v = some x) (hs : shapeOk v = true) :
    x.rows ≤ x.elType.count ∧ x.cols ≤ x.elType.count := by
  simp only [shapeOk, hx, Bool.and_eq_true, decide_eq_true_eq] at hs
  obtain ⟨⟨⟨⟨⟨-, -⟩, hrt⟩, -⟩, hct⟩, -⟩ := hs
  by_cases hf : x.fmt = .fp64
  all_goals
    simp only [hf, if_true, if_false] at hrt hct
    simp only [Tile.rows, Tile.cols, Tile.elType, hf, if_true, if_false, ElemType.count, ElemType.width]
    omega

/-- The first elements of a line. -/
theorem lineEls_take (l : Line) (t : ElemType) {n : Nat} (hn : n ≤ t.count) :
    (lineEls l t.width).take n = (List.range n).map (elem l t.width) := by
  rw [lineEls_eq_map_elem, ← List.map_take, List.take_range, Nat.min_eq_left hn]

/-- The elements of a line whose first ones are replaced. -/
theorem elem_putFront (l : Line) (t : ElemType) (xs : List Nat) {j : Nat} (hj : j < t.count) :
    elem (putFront l t.width xs) t.width j =
      if j < xs.length then xs.getD j 0 % 2 ^ t.width else elem l t.width j := by
  rw [putFront, elem_lineOfEls t _ hj, List.getD_eq_getElem?_getD]
  split
  · next h => rw [List.getElem?_append_left h, ← List.getD_eq_getElem?_getD]
  · next h =>
    rw [List.getElem?_append_right (Nat.le_of_not_lt h), List.getElem?_drop, Nat.add_sub_of_le (Nat.le_of_not_lt h),
      ← List.getD_eq_getElem?_getD, lineEls_eq_map_elem, getD_map_range _ _ hj, Nat.mod_eq_of_lt (elem_lt ..)]

/-- Line `n` after a write of it. -/
@[simp] theorem Context.rdL_wrL_same (c : Context) (n : Nat) (l : Line) : (c.wrL n l).rdL n = l := lookD_putD_same ..

/-- The other lines after a write of line `n`. -/
theorem Context.rdL_wrL_other (c : Context) {n m : Nat} (l : Line) (h : m ≠ n) : (c.wrL n l).rdL m = c.rdL m :=
  lookD_putD_other _ _ _ _ _ h

end Sys2Proof.Machine
end

section
/-!
TCFG and TZERO, and the moves between tiles and window lines (R147 to R151): what each instruction answers, then what its tile
and its lines hold.
-/
namespace Sys2Proof.Machine
open Sys2Proof.Says

theorem Context.needTile_of_some {c : Context} {n : Nat} {x : Tile} (hx : c.tile? n = some x) : c.needTile n = .ok x := by
  rw [Context.needTile, hx]

theorem Context.needTile_of_none {c : Context} {n : Nat} (hx : c.tile? n = none) :
    c.needTile n = .error (.trap { code := .tuncfg, arg := n }) := by
  rw [Context.needTile, hx]
  rfl

@[simp] theorem Context.setAcc_acc (c : Context) (n : Nat) (a : Store (BitVec 32)) : (c.setAcc n a).mat.acc = a := rfl

/-! TCFG and TZERO (R147, R149). -/

/-- What answers under a condition that it awaits answers with its one result. -/
theorem eq_of_ite_hold {α : Type} {p : Prop} [Decidable p] {a b : α} (h : (if p then .ok a else hold) = (.ok b : Res α)) :
    a = b := by
  split at h <;> cases h
  rfl

/-- The tile that a TCFG sets is zeroed (R147). -/
theorem tcfgTo_zeroes {s t : State} {e : Engine} {c c' : Context} {n : Nat} {v : Word} {x : Tile}
    (hok : tcfgTo s e c n v = .ok t) (hc' : t.ctx? s.cur = some c') (hv : v ≠ lookD c.mat.tshape n 0)
    (hx : tileOf v = some x) : ∃ a, c'.mat.acc = tileZero a x := by
  simp only [tcfgTo, if_neg hv, hx] at hok
  split at hok
  · cases hok
  · split at hok
    · cases hok
    · obtain rfl := eq_of_ite_hold hok
      obtain ⟨l, hl⟩ := makeRoom_ctx? (coreOf s.cur) .tiles 0 (State.ctx?_setCtx_same s s.cur _)
      rw [hl] at hc'
      cases hc'
      exact ⟨_, by rw [Context.advance_mat]; rfl⟩

section
variable {s : State} {c : Context} (h : runs s c) (o : TM)
include h

theorem execTcfg_ok {t : State} (hr : tcfgTo s s.eng c o.t.toNat (c.rdS s.eng o.s) = .ok t) : execTcfg o s = .next t :=
  runS_ok h hr

theorem execTcfg_traps {x : Trap} (hr : tcfgTo s s.eng c o.t.toNat (c.rdS s.eng o.s) = .error (.trap x)) :
    execTcfg o s = traps s c x :=
  runS_trap h hr

theorem execTzero_traps (hx : c.tile? o.t.toNat = none) :
    execTzero o s = traps s c { code := .tuncfg, arg := o.t.toNat } :=
  runC_trap h (by rw [Context.needTile_of_none hx]; rfl)

theorem execTzero_becomes {x : Tile} (hx : c.tile? o.t.toNat = some x) :
    execTzero o s = becomes s ((c.setAcc o.t.toNat (tileZero c.mat.acc x)).advance s.eng) :=
  runC_ok h (res_bind_of_ok (Context.needTile_of_some hx) _)
end

/-- Settles O29: TCFG by `tcfgTo`'s cases, of which the last sets a zeroed tile; TZERO by the rule of a zeroed tile. -/
theorem tileConfiguration : Obligations.TileConfiguration := by
  intro s c o h n v
  simp only [exec]
  refine ⟨fun hv => execTcfg_ok h o (tcfgTo_same hv), fun hv hs => execTcfg_traps h o (tcfgTo_refuses hv (.inl hs)),
    fun x hv _ hx ho => execTcfg_traps h o (tcfgTo_refuses hv (.inr ⟨x, hx, ho⟩)), fun hv hs ho hfit => ?_,
    execTzero_traps h o, fun x hx => ⟨_, execTzero_becomes h o hx, fun i hi j hj => tileGet_tileZero _ _ hi hj,
      fun w hw => by rw [lookD_tileZero, if_pos hw]⟩⟩
  obtain ⟨t, a, l, ht, hctx, hmem⟩ := tcfgTo_sets (e := s.eng) hv hs ho hfit
  obtain ⟨hsame, hother⟩ := c.shaped_tshape n v a
  refine ⟨t, _, execTcfg_ok h o ht, hctx, by simpa using hsame, fun j hj => by simpa using hother j hj,
    fun x hx i hi j hj => ?_, by simp [Context.shaped, Context.wroteUnit], by simp [Context.shaped, Context.wroteUnit], hmem⟩
  obtain ⟨b, hb⟩ := tcfgTo_zeroes ht hctx hv hx
  rw [hb]
  exact tileGet_tileZero _ _ hi hj

/-! The slice moves (R150). -/

theorem sliceIndex_of_lt {c : Context} {e : Engine} {o : TM} {b : Nat} (hk : (c.rdS e o.s).toNat < b) :
    sliceIndex c e o b = .ok (c.rdS e o.s).toNat := if_pos hk

theorem sliceIndex_of_ge {c : Context} {e : Engine} {o : TM} {b : Nat} (hk : b ≤ (c.rdS e o.s).toNat) :
    sliceIndex c e o b = .error (.trap { code := .illop }) := if_neg (Nat.not_lt.2 hk)

section
variable {s : State} {c : Context} (h : runs s c) {o : TM} {x : Tile} (hx : c.tile? o.t.toNat = some x)
include h hx

/-- A slice move outside the tile raises ILLOP. -/
theorem rowMoves_trap (hk : x.rows ≤ (c.rdS s.eng o.s).toNat) :
    execTrowld o s = traps s c { code := .illop } ∧ execTrowst o s = traps s c { code := .illop } := by
  constructor <;> refine runC_trap h ?_ <;> rw [res_bind_of_ok (Context.needTile_of_some hx), sliceIndex_of_ge hk] <;> rfl

theorem colMoves_trap (hk : x.cols ≤ (c.rdS s.eng o.s).toNat) :
    execTcolld o s = traps s c { code := .illop } ∧ execTcolst o s = traps s c { code := .illop } := by
  constructor <;> refine runC_trap h ?_ <;> rw [res_bind_of_ok (Context.needTile_of_some hx), sliceIndex_of_ge hk] <;> rfl

variable {n : Nat}

theorem execTrowld_becomes (hk : (c.rdS s.eng o.s).toNat < x.rows) (hl : c.srcLineIn s.eng o.l = .ok n) :
    execTrowld o s = becomes s ((c.setAcc o.t.toNat (setRow c.mat.acc x (c.rdS s.eng o.s).toNat 0
      ((lineEls (c.rdL n) x.width).take x.cols))).advance s.eng) := by
  refine runC_ok h ?_
  rw [res_bind_of_ok (Context.needTile_of_some hx), res_bind_of_ok (sliceIndex_of_lt hk), res_bind_of_ok hl]

theorem execTcolld_becomes (hk : (c.rdS s.eng o.s).toNat < x.cols) (hl : c.srcLineIn s.eng o.l = .ok n) :
    execTcolld o s = becomes s ((c.setAcc o.t.toNat (setCol c.mat.acc x (c.rdS s.eng o.s).toNat 0
      ((lineEls (c.rdL n) x.width).take x.rows))).advance s.eng) := by
  refine runC_ok h ?_
  rw [res_bind_of_ok (Context.needTile_of_some hx), res_bind_of_ok (sliceIndex_of_lt hk), res_bind_of_ok hl]

theorem execTrowst_becomes (hk : (c.rdS s.eng o.s).toNat < x.rows) (hl : c.dstLineIn s.eng o.l = .ok n) :
    execTrowst o s = becomes s ((c.wrL n (putFront (c.rdL n) x.width
      (tileRow c.mat.acc x (c.rdS s.eng o.s).toNat))).advance s.eng) := by
  refine runC_ok h ?_
  rw [res_bind_of_ok (Context.needTile_of_some hx), res_bind_of_ok (sliceIndex_of_lt hk), res_bind_of_ok hl]

theorem execTcolst_becomes (hk : (c.rdS s.eng o.s).toNat < x.cols) (hl : c.dstLineIn s.eng o.l = .ok n) :
    execTcolst o s = becomes s ((c.wrL n (putFront (c.rdL n) x.width
      (tileCol c.mat.acc x (c.rdS s.eng o.s).toNat))).advance s.eng) := by
  refine runC_ok h ?_
  rw [res_bind_of_ok (Context.needTile_of_some hx), res_bind_of_ok (sliceIndex_of_lt hk), res_bind_of_ok hl]
end

/-- The first elements of a list are no more than are asked for. -/
theorem length_take_fits (m : Nat) (xs : List Nat) : 0 + (xs.take m).length ≤ m := by
  rw [Nat.zero_add]
  exact List.length_take_le m xs

section
variable (acc : Store (BitVec 32)) (t : Tile) (l : Line)

/-- A tile with a row taken from a line. -/
theorem tileGet_setRow_line (k : Nat) {i j : Nat} (hfit : t.cols ≤ t.elType.count) (hj : j < t.cols) :
    tileGet (setRow acc t k 0 ((lineEls l t.width).take t.cols)) t i j =
      if i = k then elem l t.width j else tileGet acc t i j := by
  rw [t.width_eq, lineEls_take l _ hfit, tileGet_setRow _ _ _ _ (by simp) hj]
  simp [hj, t.width_eq, Nat.mod_eq_of_lt (elem_lt ..)]

/-- A tile with a column taken from a line. -/
theorem tileGet_setCol_line {k i j : Nat} (hfit : t.rows ≤ t.elType.count) (hk : k < t.cols) (hi : i < t.rows)
    (hj : j < t.cols) : tileGet (setCol acc t k 0 ((lineEls l t.width).take t.rows)) t i j =
      if j = k then elem l t.width i else tileGet acc t i j := by
  rw [t.width_eq, lineEls_take l _ hfit, tileGet_setCol _ _ _ _ hk hj]
  simp [hi, t.width_eq, Nat.mod_eq_of_lt (elem_lt ..)]

/-- A line whose first elements are those of a slice of a tile. -/
theorem elem_putFront_slice {f : Nat → Nat} (hf : ∀ i, f i < 2 ^ t.width) (m : Nat) {j : Nat} (hj : j < 4096 / t.width) :
    elem (putFront l t.width ((List.range m).map f)) t.width j = if j < m then f j else elem l t.width j := by
  rw [t.width_eq] at hf hj ⊢
  rw [elem_putFront l _ _ hj, List.length_map, List.length_range]
  split
  · next hlt => rw [getD_map_range _ _ hlt, Nat.mod_eq_of_lt (hf j)]
  · rfl
end

/-- A row or a column moves between a tile and a line. -/
theorem tileSlices : TileSlices := by
  intro s c o x n h hx hs k acc
  obtain ⟨hrows, hcols⟩ := Tile.fits_of_shapeOk hx hs
  simp only [exec]
  refine ⟨rowMoves_trap h hx, colMoves_trap h hx, fun hk hl => ⟨_, execTrowld_becomes h hx hk hl, ?_, fun w hw => ?_⟩,
    fun hk hl => ⟨_, execTcolld_becomes h hx hk hl, ?_, fun w hw => ?_⟩,
    fun hk hl => ⟨_, execTrowst_becomes h hx hk hl, fun j hj => ?_⟩,
    fun hk hl => ⟨_, execTcolst_becomes h hx hk hl, fun i hi => ?_⟩⟩
  · exact fun i _ j hj => tileGet_setRow_line _ _ _ _ hcols hj
  · exact lookD_setRow_outside _ _ _ hw _ hk (length_take_fits ..)
  · exact fun i hi j hj => tileGet_setCol_line _ _ _ hrows hk hi hj
  · exact lookD_setCol_outside _ _ _ hw _ hk (length_take_fits ..)
  · exact elem_putFront_slice _ _ (fun j => tileGet_lt _ _ _ _) _ hj
  · exact elem_putFront_slice _ _ (fun i => tileGet_lt _ _ _ _) _ hi

/-! Whole tiles (R151). -/

section
variable {s : State} {c : Context} (h : runs s c) {o : TM} {x : Tile} (hx : c.tile? o.t.toNat = some x) {n : Nat}
  (hin : n + x.rows ≤ 64 * c.bind.window)
include h hx hin

theorem execTld_becomes (hl : c.srcLine s.eng o.l = .ok n) :
    execTld o s = becomes s ((c.setAcc o.t.toNat (loadRows c x n c.mat.acc x.rows)).advance s.eng) := by
  refine runC_ok h ?_
  rw [res_bind_of_ok (Context.needTile_of_some hx), res_bind_of_ok hl,
    res_bind_of_ok (Context.inWin_ok (Int.natCast_nonneg n) hin), Int.toNat_natCast]

theorem execTst_becomes (hl : c.dstLine s.eng o.l = .ok n) :
    execTst o s = becomes s ((storeRows x n c x.rows).advance s.eng) := by
  refine runC_ok h ?_
  rw [res_bind_of_ok (Context.needTile_of_some hx), res_bind_of_ok hl,
    res_bind_of_ok (Context.inWin_ok (Int.natCast_nonneg n) hin), Int.toNat_natCast]
end

section
variable (c : Context) (t : Tile) (n : Nat)

/-- The elements of a tile after its first `r` rows are loaded. -/
theorem tileGet_loadRows (hfit : t.cols ≤ t.elType.count) {i j : Nat} (hj : j < t.cols) (r : Nat) : ∀ acc,
    tileGet (loadRows c t n acc r) t i j = if i < r then elem (c.rdL (n + i)) t.width j else tileGet acc t i j := by
  induction r with
  | zero => intro acc; rfl
  | succ r ih =>
    intro acc
    rw [loadRows, ih, tileGet_setRow_line _ _ _ _ hfit hj]
    by_cases hr : i = r
    · subst hr; simp
    · rw [if_neg hr]
      exact ite_congr (propext (by omega)) (fun _ => rfl) fun _ => rfl

/-- Rows loaded leave the words outside the tile. -/
theorem lookD_loadRows_outside {w : Nat} (hw : w < t.word ∨ t.word + t.words ≤ w) (r : Nat) (hr : r ≤ t.rows) : ∀ acc,
    lookD (loadRows c t n acc r) w 0 = lookD acc w 0 := by
  induction r with
  | zero => intro acc; rfl
  | succ r ih =>
    intro acc
    rw [loadRows, ih (by omega), lookD_setRow_outside _ _ _ hw _ hr (length_take_fits ..)]

/-- Storing rows changes lines alone, of what R151 names. -/
theorem storeRows_keeps (r : Nat) : (storeRows t n c r).r = c.r ∧ (storeRows t n c r).mat = c.mat := by
  induction r with
  | zero => exact ⟨rfl, rfl⟩
  | succ r ih => exact ih

/-- The lines past those that are stored stay. -/
theorem storeRows_rdL_other {m : Nat} (r : Nat) (hm : m < n ∨ n + r ≤ m) : (storeRows t n c r).rdL m = c.rdL m := by
  induction r with
  | zero => rfl
  | succ r ih => rw [storeRows, Context.rdL_wrL_other _ _ (by omega), ih (by omega)]

/-- Line `i` of those that are stored takes its row. -/
theorem storeRows_rdL {i : Nat} (r : Nat) (hi : i < r) : (storeRows t n c r).rdL (n + i) =
    putFront (c.rdL (n + i)) t.width (tileRow c.mat.acc t i) := by
  induction r with
  | zero => omega
  | succ r ih =>
    rw [storeRows]
    by_cases hr : i = r
    · rw [hr, Context.rdL_wrL_same]
    · rw [Context.rdL_wrL_other _ _ (by omega), ih (by omega)]
end

/-- A whole tile moves, one line a row. -/
theorem tileMoves : TileMoves := by
  intro s c o x n h hx hs hin
  obtain ⟨-, hcols⟩ := Tile.fits_of_shapeOk hx hs
  simp only [exec]
  refine ⟨fun hl => ⟨_, execTld_becomes h hx hin hl, fun i hi j hj => ?_, fun w hw => ?_⟩,
    fun hl => ⟨_, execTst_becomes h hx hin hl, fun i hi j hj => ?_, fun m hm => storeRows_rdL_other _ _ _ _ hm,
      storeRows_keeps _ _ _ _⟩⟩
  · rw [tileGet_loadRows _ _ _ hcols hj, if_pos hi]
  · exact lookD_loadRows_outside _ _ _ hw _ (Nat.le_refl _) _
  · rw [storeRows_rdL _ _ _ _ hi]
    exact elem_putFront_slice _ _ (fun j => tileGet_lt _ _ _ _) _ hj

/-- Settles O30: a slice is a run of written elements, and a whole tile its rows in turn. -/
theorem tileLineMoves : Obligations.TileLineMoves := ⟨tileSlices, tileMoves⟩

end Sys2Proof.Machine
end

section
/-!
OCLAIM, OREL and OLOAD (R152 to R155): what each answers of a claimed slot, of one that is free, and of a core whose slots are
all claimed.
-/
namespace Sys2Proof.Machine
open Sys2Proof.Says

theorem Context.claimed_of_some {c : Context} {k : Nat} {x : OSlot} (hx : find? c.mat.oslots k = some x) :
    c.claimed k = .ok x := by
  rw [Context.claimed, hx]

theorem Context.claimed_of_none {c : Context} {k : Nat} (hx : find? c.mat.oslots k = none) :
    c.claimed k = .error (.trap { code := .oslot, arg := k }) := by
  rw [Context.claimed, hx]
  rfl

/-- A context whose operand slot `k` is put (R153, R154). -/
def Context.putSlot (c : Context) (k : Nat) (x : OSlot) : Context :=
  { c with mat := { c.mat with oslots := put c.mat.oslots k x } }.wroteUnit (.slot k)

/-- The slot holds what is put, and the others what they held. -/
theorem Context.putSlot_oslots (c : Context) (k : Nat) (x : OSlot) : find? (c.putSlot k x).mat.oslots k = some x ∧
    ∀ j, j ≠ k → find? (c.putSlot k x).mat.oslots j = find? c.mat.oslots j :=
  ⟨find?_put_same .., fun _ hj => find?_put_other _ _ _ _ hj⟩

section
variable {s : State} {c : Context} (h : runs s c) (o : TM)
include h

/-! OCLAIM and OREL (R153). -/

theorem execOclaim_passes (hk : (find? c.mat.oslots o.o1.toNat).isSome = true) : execOclaim o s = passes s c :=
  runS_ok h (if_pos hk)

theorem execOclaim_waits (hk : find? c.mat.oslots o.o1.toNat = none) (hroom : 64 ≤ residentUse s (coreOf s.cur) .slots) :
    execOclaim o s = waits s :=
  runS_wait h ((if_neg (by simp [hk])).trans (if_neg (Nat.not_lt.2 hroom)))

/-- A free slot is claimed, and room is made for it on the core (R330). -/
theorem execOclaim_claims (hk : find? c.mat.oslots o.o1.toNat = none) (hroom : residentUse s (coreOf s.cur) .slots < 64) :
    ∃ t l, execOclaim o s = .next t ∧
      t.ctx? s.cur = some { (c.putSlot o.o1.toNat {}).advance s.eng with clean := l } ∧ t.mem = s.mem := by
  obtain ⟨l, hl⟩ := makeRoom_ctx? (coreOf s.cur) .slots 0
    (State.ctx?_setCtx_same s s.cur ((c.putSlot o.o1.toNat {}).advance s.eng))
  exact ⟨_, l, runS_ok h ((if_neg (by simp [hk])).trans (if_pos hroom)), hl, by simp⟩

theorem execOrel_becomes (hk : (find? c.mat.oslots o.o1.toNat).isSome = true) : execOrel o s =
    becomes s ({ c with mat := { c.mat with oslots := del c.mat.oslots o.o1.toNat } }.advance s.eng) := by
  obtain ⟨x, hx⟩ := Option.isSome_iff_exists.1 hk
  exact runC_ok h (res_bind_of_ok (Context.claimed_of_some hx) _)

theorem execOrel_traps (hk : find? c.mat.oslots o.o1.toNat = none) :
    execOrel o s = traps s c { code := .oslot, arg := o.o1.toNat } :=
  runC_trap h (by rw [Context.claimed_of_none hk]; rfl)

/-! OLOAD (R154, R155). -/

theorem execOload_traps (hk : find? c.mat.oslots o.o1.toNat = none) :
    execOload o s = traps s c { code := .oslot, arg := o.o1.toNat } :=
  runS_trap h (by rw [Context.claimed_of_none hk]; rfl)

end

/-- What an OLOAD of a context reads with (R154, R155). -/
def Context.oReader (c : Context) (pos x : Nat) : OReader :=
  ⟨⟨c.bind.lid, c.bind.wid, x, lookD c.tgen x 0⟩, c.who pos, c.r.gver, c.tent x, false⟩

/-- An OLOAD whose entry and coordinates pass their checks, whose map is `m`, and whose rows read as `rows`, with the operand
cache `oc` after them. -/
structure LoadReady (s : State) (c : Context) (x : Nat) (q : TCoord) (n : Nat) (m : Option DupMap) (rows : Store Line)
    (oc : List OcEntry) : Prop where
  klen : klenOf (c.tent x) = some n
  usable : (c.tent x).usable = true
  coord : (c.tent x).coordOk q = true
  block : ((c.tent x).bfmt = 0 ∧ (c.tent x).hen = false) ∨ q.k % 32 = 0
  map : ((c.tent x).den = false ∧ m = none) ∨
    ((c.tent x).den = true ∧ ∃ d, dupMap s (c.who s.cur) c.r.gver (c.tent x) = .ok d ∧ m = some d)
  look : ∃ z, { c.oReader s.cur x with look := true }.rows s m q n 16 0 (s.core (coreOf s.cur)).ocache = .ok z
  read : (c.oReader s.cur x).rows s m q n 16 0 (s.core (coreOf s.cur)).ocache = .ok (rows, oc)

/-- The slot that an OLOAD fills (R154). -/
def filledSlot (e : TEnt) (q : TCoord) (n : Nat) (m : Option DupMap) (rows : Store Line) : OSlot :=
  ⟨some ⟨if e.bfmt = 0 then e.etype else 16 + e.bfmt, n, e.hen, if e.hen then e.seed else 0⟩, rows, rowsInside e q,
    kInside e m q.k⟩

/-- An OLOAD of a claimed slot fills it and the operand cache. -/
theorem execOload_loads {s : State} {c : Context} (h : runs s c) {o : TM} {n : Nat} {m : Option DupMap} {rows : Store Line}
    {oc : List OcEntry} (hk : (find? c.mat.oslots o.o1.toNat).isSome = true)
    (hr : LoadReady s c o.f.toNat (coordOf (c.rdS s.eng o.s)) n m rows oc) :
    execOload o s = becomes (s.setCore (coreOf s.cur) { s.core (coreOf s.cur) with ocache := oc })
      ((c.putSlot o.o1.toNat (filledSlot (c.tent o.f.toNat) (coordOf (c.rdS s.eng o.s)) n m rows)).advance s.eng) := by
  obtain ⟨x, hx⟩ := Option.isSome_iff_exists.1 hk
  obtain ⟨hklen, husable, hcoord, hblock, hmap, ⟨z, hlook⟩, hread⟩ := hr
  refine runS_ok h ?_
  rw [res_bind_of_ok (Context.claimed_of_some hx)]
  simp only [hklen]
  rw [check_bind_true (by simpa [husable, hcoord] using hblock)]
  obtain ⟨hd, rfl⟩ | ⟨hd, d, hok, rfl⟩ := hmap
  · simp only [hd, Bool.false_eq_true, if_false]
    exact (res_bind_of_ok hlook _).trans (res_bind_of_ok hread _)
  · simp only [hd, if_true, hok]
    exact (res_bind_of_ok hlook _).trans (res_bind_of_ok hread _)

/-- Settles O31: each instruction by whether its slot is claimed, OCLAIM also by the core's room. -/
theorem operandSlots : Obligations.OperandSlots := by
  intro s c o h k others e q rd
  simp only [exec]
  refine ⟨fun hk => ⟨execOclaim_passes h o hk, _, execOrel_becomes h o hk, ?_, fun j hj => ?_, ?_, ?_, ?_⟩,
    fun hk hroom => ?_, execOclaim_waits h o, fun hk => ⟨execOrel_traps h o hk, execOload_traps h o hk⟩,
    fun n m z rows oc hk hn hu hq hblk hm hlook hrows => ?_⟩
  · simp [k]
  · simpa using find?_del_other _ _ _ hj
  · simp
  · simp
  · simp
  · obtain ⟨t, l, hexec, hctx, hmem⟩ := execOclaim_claims h o hk hroom
    obtain ⟨hsame, hother⟩ := c.putSlot_oslots k {}
    exact ⟨t, _, hexec, hctx, by simpa using hsame, fun j hj => by simpa using hother j hj,
      by simp [Context.putSlot, Context.wroteUnit], by simp [Context.putSlot, Context.wroteUnit], hmem⟩
  · have hexec := execOload_loads h hk ⟨hn, hu, hq, hblk, hm, ⟨z, hlook⟩, hrows⟩
    obtain ⟨hsame, hother⟩ := c.putSlot_oslots k _
    exact ⟨_, _, _, hexec, State.ctx?_setCtx_same .., by simpa using hsame, rfl, rfl, rfl, rfl,
      fun j hj => by simpa using hother j hj, by simp [Context.putSlot, Context.wroteUnit],
      by simp [Context.putSlot, Context.wroteUnit], rfl⟩

end Sys2Proof.Machine
end

section
/-!
One K-step (R145, R158): what it leaves in every element of a tile, and the exact sum of the integer classes.
-/
namespace Sys2Proof.Machine
open Sys2Proof.Says

/-! The sub-tile of a K-step, row by row. -/

/-- The element (i, j) of a tile after a K-step that reaches it: `bs` are the values of the columns (R158). -/
def StepAt.result (p : StepAt) (q : Nat) (bs : Nat → List (Val × Bool)) (acc : Store (BitVec 32)) (i j : Nat) : Nat :=
  (accumulate p.tile.fmt p.h (tileGet acc p.tile i j) (stepVals p.nest p.a.1 p.a.2 (i - 16 * p.r) q p.ks)
    (bs (j - 16 * p.c))).1 % 2 ^ p.tile.width

section
variable (p : StepAt) (q : Nat) (bs : Nat → List (Val × Bool)) (hc : p.c < p.tile.ct)
include hc

/-- The columns of a sub-tile lie in the tile. -/
theorem StepAt.cols_le : 16 * p.c + 16 ≤ p.tile.cols := by
  rw [Tile.cols]
  omega

/-- The elements after rows of a K-step: those of its rows and its columns are accumulated, and the others stay. -/
theorem tileGet_kstepRows {i j : Nat} (hj : j < p.tile.cols) (k : Nat) : ∀ (m : Nat) (acc : Store (BitVec 32)) (fl : Flags),
    tileGet (kstepRows p q ((List.range 16).map fun n => (n, bs n)) k m (acc, fl)).1 p.tile i j =
      if (16 * p.r + m ≤ i ∧ i < 16 * p.r + m + k) ∧ 16 * p.c ≤ j ∧ j < 16 * p.c + 16 then p.result q bs acc i j
      else tileGet acc p.tile i j := by
  have hcols := p.cols_le hc
  induction k with
  | zero => intro m acc fl; rw [if_neg (by omega)]; rfl
  | succ k ih =>
    intro m acc fl
    have hrow := tileGet_setRow acc p.tile (16 * p.r + m) (j := 16 * p.c) (i := i) (n := j)
      ((kstepRow p acc m (stepVals p.nest p.a.1 p.a.2 m q p.ks) ((List.range 16).map fun n => (n, bs n))).map (·.1))
      (by simpa [kstepRow] using hcols) hj
    rw [kstepRows, ih]
    simp only [StepAt.result, hrow]
    by_cases hi : i = 16 * p.r + m
    · subst hi
      rw [if_neg (by omega)]
      by_cases hin : 16 * p.c ≤ j ∧ j < 16 * p.c + 16
      · rw [if_pos (by simpa [kstepRow] using hin), if_pos ⟨by omega, hin⟩]
        simp only [kstepRow, List.map_map]
        rw [getD_map_range _ _ (by omega)]
        simp [Nat.add_sub_of_le hin.1]
      · rw [if_neg (by simpa [kstepRow] using hin), if_neg (fun h => hin h.2)]
    · simp only [hi, false_and, if_false]
      exact ite_congr (propext (by omega)) (fun _ => rfl) fun _ => rfl

/-- Rows of a K-step leave the words outside the tile. -/
theorem lookD_kstepRows_outside {w : Nat} (hw : w < p.tile.word ∨ p.tile.word + p.tile.words ≤ w) (k : Nat) :
    ∀ (m : Nat) (acc : Store (BitVec 32)) (fl : Flags), 16 * p.r + m + k ≤ p.tile.rows →
    lookD (kstepRows p q ((List.range 16).map fun n => (n, bs n)) k m (acc, fl)).1 w 0 = lookD acc w 0 := by
  induction k with
  | zero => intro m acc fl _; rfl
  | succ k ih =>
    intro m acc fl hm
    rw [kstepRows, ih _ _ _ (by omega), lookD_setRow_outside _ _ _ hw _ (by omega)]
    simpa [kstepRow] using p.cols_le hc
end

/-- One K-step accumulates into its sub-tile and leaves the rest of the tile and of the store. -/
theorem kStep : KStep := by
  intro p q acc hr hc x a
  have hrows : 16 * p.r + 16 ≤ x.rows := by
    show _ ≤ 16 * p.tile.rt
    omega
  have hcols : 16 * p.c + 16 ≤ x.cols := p.cols_le hc
  have hget (i j : Nat) (hj : j < x.cols) := tileGet_kstepRows p q (fun n => stepVals p.nest p.b.1 p.b.2 n q p.ks) hc
    (i := i) hj 16 0 acc 0
  refine ⟨fun m hm n hn => ?_, fun i _ j hj hne => ?_, fun w hw => lookD_kstepRows_outside p q _ hc hw 16 0 acc 0 hrows⟩
  · refine (hget _ _ (by omega)).trans ((if_pos (by omega)).trans ?_)
    rw [StepAt.result, Nat.add_sub_cancel_left, Nat.add_sub_cancel_left]
  · exact (hget i j hj).trans (if_neg (by omega))

/-! The integer classes (R158). -/

/-- The integer of a sign and a magnitude. -/
def signedOf (u : Bool × Nat) : Int := if u.1 then -(u.2 : Int) else u.2

theorem signedOf_natAbs (x : Int) : signedOf (decide (x < 0), x.natAbs) = x := by
  unfold signedOf
  by_cases hx : x < 0 <;> simp only [hx, decide_true, decide_false, if_true, Bool.false_eq_true, if_false] <;> omega

/-- A product's sign and magnitude are those that `mulVal` gives. -/
theorem signedOf_mul (x y : Int) : signedOf (decide (x < 0) != decide (y < 0), x.natAbs * y.natAbs) = x * y := by
  have hsigns : signedOf (decide (x < 0) != decide (y < 0), x.natAbs * y.natAbs) =
      signedOf (decide (x < 0), x.natAbs) * signedOf (decide (y < 0), y.natAbs) := by
    unfold signedOf
    by_cases h1 : x < 0 <;> by_cases h2 : y < 0 <;>
      simp only [h1, h2, decide_true, decide_false, bne_self_eq_false, Bool.true_bne, Bool.false_bne, Bool.not_false,
        if_true, Bool.false_eq_true, if_false, Int.natCast_mul, Int.neg_neg, Int.neg_mul, Int.mul_neg]
  rw [hsigns, signedOf_natAbs, signedOf_natAbs]

/-- A sum of values in units of one, in the same units. -/
theorem sumAt_units (us : List (Bool × Nat)) : sumAt 0 (us.map fun u => .fin u.1 u.2 0) = (us.map signedOf).sum := by
  induction us with
  | nil => rfl
  | cons u us ih =>
    rw [List.map_cons, sumAt, ih, List.map_cons, List.sum_cons]
    congr 1
    by_cases hn : u.2 = 0
    · simp [signedOf, hn]
    · rw [if_neg hn]
      simp [signedOf]

theorem minExp_units (us : List (Bool × Nat)) : (minExp (us.map fun u => .fin u.1 u.2 0)).getD 0 = 0 := by
  induction us with
  | nil => rfl
  | cons u us ih =>
    rw [List.map_cons, minExp]
    split
    · exact ih
    · split
      · next m hm => rw [hm] at ih; simp_all
      · rfl

/-- An exact sum of values in units of one is their integers' sum, in units of one. -/
theorem sumVals_units (mode : RMode) (us : List (Bool × Nat)) : ∃ u : Bool × Nat,
    (sumVals mode (us.map fun u => .fin u.1 u.2 0)).1 = .fin u.1 u.2 0 ∧ signedOf u = (us.map signedOf).sum := by
  have hnan : (us.map fun u => Val.fin u.1 u.2 0).any Val.isNan = false := by simp [Val.isNan]
  have hinf (b : Bool) : (us.map fun u => Val.fin u.1 u.2 0).any (fun v => v == .inf b) = false := by simp
  simp only [sumVals, hnan, hinf, Bool.false_eq_true, if_false, Bool.and_self, minExp_units, sumAt_units]
  by_cases hx : (us.map signedOf).sum = 0
  · rw [if_pos hx, hx]
    split
    · exact ⟨(true, 0), rfl, rfl⟩
    · split
      · exact ⟨(false, 0), rfl, rfl⟩
      · exact ⟨(mode == .rdn, 0), rfl, by simp [signedOf]⟩
  · rw [if_neg hx]
    exact ⟨_, rfl, signedOf_natAbs _⟩

/-- A value in units of one is rounded to itself. -/
theorem roundInt_units (u : Bool × Nat) : (roundInt .rne u.1 u.2 0).1 = signedOf u := by
  simp [roundInt, splitAt, roundsUp, signedOf]

/-- The products of pairs of integers, as signs and magnitudes. -/
def signedProducts (l : List ((Int × Bool) × Int × Bool)) : List (Bool × Nat) :=
  l.map fun x => (decide (x.1.1 < 0) != decide (x.2.1 < 0), x.1.1.natAbs * x.2.1.natAbs)

theorem products_ofInt (l : List ((Int × Bool) × Int × Bool)) :
    (products 0 (l.map fun x => (Val.ofInt x.1.1, x.1.2)) (l.map fun x => (Val.ofInt x.2.1, x.2.2))).map (·.1) =
      (signedProducts l).map fun u => .fin u.1 u.2 0 := by
  induction l with
  | nil => rfl
  | cons x l ih => exact congrArg (List.cons _) ih

theorem sum_signedProducts (l : List ((Int × Bool) × Int × Bool)) :
    ((signedProducts l).map signedOf).sum = (l.map fun x => x.1.1 * x.2.1).sum := by
  simp only [signedProducts, List.map_map, Function.comp_def, signedOf_mul]

/-- The accumulation of the integer classes is the integers' own sum, modulo 2^32. -/
theorem integerAccumulation : IntegerAccumulation := by
  intro acc l _
  obtain ⟨u, hsum, hu⟩ := sumVals_units .rne
    ((decide (intOf true 32 acc < 0), (intOf true 32 acc).natAbs) :: signedProducts l)
  rw [List.map_cons, ← products_ofInt] at hsum
  rw [List.map_cons, List.sum_cons, signedOf_natAbs, sum_signedProducts] at hu
  have hval : valOf .i32 acc = .fin (decide (intOf true 32 acc < 0)) (intOf true 32 acc).natAbs 0 := rfl
  simp only [accumulate, hval, hsum, roundInt_units, hu]

/-- Settles O32: the K-step row by row, and the integer classes by their exact sum. -/
theorem accumulation : Obligations.Accumulation := ⟨kStep, integerAccumulation⟩

end Sys2Proof.Machine
end

section
/-!
TMMA, and the start, the run and the completion of a matrix nest (R157 to R160): what a nest's table says, what a start leaves,
and what MGO makes of it.
-/
namespace Sys2Proof.Machine
open Sys2Proof.Says

/-- What a meaning of two parts that answers has answered on the way. -/
theorem of_res_bind_eq_ok {α β : Type} {x : Res α} {f : α → Res β} {b : β} (h : (x >>= f) = .ok b) :
    ∃ a, x = .ok a ∧ f a = .ok b := by
  cases x with
  | error e => cases h
  | ok a => exact ⟨a, rfl, h⟩

/-! Loaded slots and pairs (R153, R158). -/

section
variable {c : Context} {k : Nat}

/-- A slot that is not loaded raises OSLOT. -/
theorem Context.loaded_of_unloaded (hu : unloaded c k) : c.loaded k = .error (.trap { code := .oslot, arg := k }) := by
  unfold Context.loaded
  cases hf : find? c.mat.oslots k with
  | none => rw [Context.claimed_of_none hf]; rfl
  | some x =>
    rw [res_bind_of_ok (Context.claimed_of_some hf)]
    simp only [hu x hf]
    rfl

/-- A slot that is not unloaded is loaded. -/
theorem Context.loaded_of_not_unloaded (hu : ¬ unloaded c k) : ∃ z, c.loaded k = .ok z := by
  cases hf : find? c.mat.oslots k with
  | none => exact absurd (fun x hx => nomatch hf.symm.trans hx) hu
  | some x =>
    cases ht : x.tag with
    | none => exact absurd (fun y hy => Option.some.inj (hf.symm.trans hy) ▸ ht) hu
    | some t =>
      refine ⟨(t, x), ?_⟩
      rw [Context.loaded, res_bind_of_ok (Context.claimed_of_some hf)]
      simp only [ht]

/-- Both slots of a checked pair are loaded. -/
theorem loaded_of_pairCheck {cls a b : Nat} {x y : OTag × OSlot} {d : Int} (hp : pairCheck c cls a b = .ok (x, y, d)) :
    (∃ z, c.loaded a = .ok z) ∧ ∃ z, c.loaded b = .ok z := by
  obtain ⟨za, ha, hrest⟩ := of_res_bind_eq_ok hp
  obtain ⟨zb, hb, -⟩ := of_res_bind_eq_ok hrest
  exact ⟨⟨za, ha⟩, zb, hb⟩
end

/-! TMMA (R157, R158). -/

/-- TMMA of a class: its checks in their order, and its K-steps. -/
theorem execTmma_of_class {o : TM} {ks : Nat} (hks : classKs o.ty.code = some ks) (s : State) :
    execTmma o s = runC s (fun e c => do
      let t ← c.needTile o.t.toNat
      let _ ← c.loaded o.o1.toNat
      let _ ← c.loaded o.o2.toNat
      check (t.rt == 1 && t.ct == 1 && t.fmt == classTile o.ty.code) .illop
      let (x, y, h) ← pairCheck c o.ty.code o.o1.toNat o.o2.toNat
      let (acc, fl) := ksteps ⟨t, 0, 0, x, y, h, ks, false⟩ (x.1.klen / ks) 0 (c.mat.acc, 0)
      .ok (((c.setAcc o.t.toNat acc).addFlags fl).advance e)) := by
  refine congrArg (runC s) (funext fun e => funext fun c => congrArg (bind (c.needTile o.t.toNat)) (funext fun t => ?_))
  extract_lets cls
  rw [show classKs cls = some ks from hks]

section
variable {s : State} {c : Context} (h : runs s c) {o : TM} {x : Tile} {ks : Nat} (hx : c.tile? o.t.toNat = some x)
  (hks : classKs o.ty.code = some ks)
include h hx hks

theorem execTmma_traps_first (hu : unloaded c o.o1.toNat) :
    execTmma o s = traps s c { code := .oslot, arg := o.o1.toNat } := by
  rw [execTmma_of_class hks]
  exact runC_trap h (by rw [res_bind_of_ok (Context.needTile_of_some hx), Context.loaded_of_unloaded hu]; rfl)

theorem execTmma_traps_second (h1 : ¬ unloaded c o.o1.toNat) (hu : unloaded c o.o2.toNat) :
    execTmma o s = traps s c { code := .oslot, arg := o.o2.toNat } := by
  obtain ⟨z, hz⟩ := Context.loaded_of_not_unloaded h1
  rw [execTmma_of_class hks]
  refine runC_trap h ?_
  rw [res_bind_of_ok (Context.needTile_of_some hx), res_bind_of_ok hz, Context.loaded_of_unloaded hu]
  rfl

theorem execTmma_becomes {a b : OTag × OSlot} {d : Int} (hrt : x.rt = 1) (hct : x.ct = 1)
    (hfmt : x.fmt = classTile o.ty.code) (hp : pairCheck c o.ty.code o.o1.toNat o.o2.toNat = .ok (a, b, d)) :
    let r := ksteps ⟨x, 0, 0, a, b, d, ks, false⟩ (a.1.klen / ks) 0 (c.mat.acc, 0)
    execTmma o s = becomes s (((c.setAcc o.t.toNat r.1).addFlags r.2).advance s.eng) := by
  obtain ⟨⟨za, ha⟩, zb, hb⟩ := loaded_of_pairCheck hp
  rw [execTmma_of_class hks]
  refine runC_ok h ?_
  rw [res_bind_of_ok (Context.needTile_of_some hx), res_bind_of_ok ha, res_bind_of_ok hb,
    check_bind_true (by simp [hrt, hct, hfmt]), res_bind_of_ok hp]
end

/-! What a nest's table says (Table 41), in the words of the statements. -/

section
variable (tab : Store Word)

theorem matNest_t : (matNest tab).t = nestField tab 14 3 := rfl

theorem matNest_cls : (matNest tab).cls = nestField tab 17 4 := rfl

theorem tripOf_eq_nestTrip (k : Nat) : tripOf tab k = nestTrip tab k := by
  simp [tripOf, bitsOf, nestTrip, levelA]

theorem matNest_trips : (matNest tab).trips = (List.range 6).map (nestTrip tab) :=
  List.map_congr_left fun k _ => tripOf_eq_nestTrip tab k

/-- A nest zeroes its tile as it starts if ZST says so and no trip count is zero (R160). -/
theorem matNest_zeroes_iff : ((matNest tab).zst && !(matNest tab).trips.contains 0) = true ↔
    nestField tab 39 1 = 1 ∧ ∀ k < 6, nestTrip tab k ≠ 0 := by
  have hzst : (matNest tab).zst = (nestField tab 39 1 == 1) := rfl
  simp [hzst, matNest_trips]
end

/-! The start of a nest (R160). -/

/-- A nest whose table is checked starts. -/
theorem nestBegin_of_check {c : Context} (hc : nestCheck c (matNest c.mat.shadow) = .ok ()) : ∃ c1, nestBegin c = .ok c1 :=
  ⟨_, res_bind_of_ok hc _⟩

/-- The go bit is no part of what a start reads. -/
theorem nestBegin_go (c : Context) (b : Bool) : nestBegin { c with mat := { c.mat with go := b } } = nestBegin c := rfl

section
variable {c c1 : Context} (hb : nestBegin c = .ok c1)
include hb

/-- A start sets the nest's own state and nothing outside the matrix engine. -/
theorem nestBegin_sets : ∃ a, c1.mat = { c.mat with
      active := c.mat.shadow, go := false, running := true, steps := 0, stepAt := 0, kAt := 0, nflags := 0, acc := a } ∧
    c1.pos = c.pos ∧ c1.r = c.r ∧ c1.lines = c.lines := by
  obtain ⟨_, -, hok⟩ := of_res_bind_eq_ok hb
  cases hok
  exact ⟨_, rfl, rfl, rfl, rfl⟩

/-- A start that zeroes nothing leaves the accumulator store. -/
theorem nestBegin_acc_kept (hz : ((matNest c.mat.shadow).zst && !(matNest c.mat.shadow).trips.contains 0) = false) :
    c1.mat.acc = c.mat.acc := by
  obtain ⟨_, -, hok⟩ := of_res_bind_eq_ok hb
  cases hok
  simp only [hz]
  split <;> rfl

/-- A start that zeroes its tile leaves the rest of the accumulator store. -/
theorem nestBegin_acc_zeroed {t : Tile}
    (hz : ((matNest c.mat.shadow).zst && !(matNest c.mat.shadow).trips.contains 0) = true)
    (ht : c.tile? (matNest c.mat.shadow).t = some t) : c1.mat.acc = tileZero c.mat.acc t := by
  obtain ⟨_, -, hok⟩ := of_res_bind_eq_ok hb
  cases hok
  simp only [hz, ht, if_true]
end

/-! MGO with one program counter (R160). -/

/-- A run of a nest makes its K-steps until none is left. -/
theorem nestRun_eq_kStepsFrom (n : Nat) : ∀ (fuel : Nat) (c : Context), n ≤ fuel →
    (∀ k < n, nestLeft (kStepsFrom k c) = true) → nestLeft (kStepsFrom n c) = false →
    nestRun fuel c = kStepsFrom n c := by
  induction n with
  | zero =>
    intro fuel c _ _ hdone
    cases fuel with
    | zero => rfl
    | succ fuel => rw [nestRun, if_neg (by simpa [kStepsFrom] using hdone)]; rfl
  | succ n ih =>
    intro fuel c hle hleft hdone
    cases fuel with
    | zero => omega
    | succ fuel =>
      rw [nestRun, if_pos (show nestLeft c = true from hleft 0 (Nat.succ_pos n))]
      exact ih fuel (nestKstep c) (by omega) (fun k hk => hleft (k + 1) (by omega)) hdone

section
variable {s : State} {c c1 : Context} (h : runs s c)
include h

theorem execMgo_together (ht : c.together = true) (hgo : c.mat.go = false) (hrun : c.mat.running = false)
    (hb : nestBegin { c with mat := { c.mat with go := true } } = .ok c1) :
    execMgo s = becomes s ((nestFinish (nestRun (nestFuel c1) c1)).advance s.eng) := by
  refine runC_ok h ?_
  rw [await_bind_true (by rw [hgo]; rfl), if_pos ht, await_bind_true (by rw [hrun]; rfl)]
  simp only [hb]

/-! The matrix engine at its MGO, and after the last K-step (R160, R166). -/

theorem execMatrixNestStart_starts (hgo : c.mat.go = true) (hrun : c.mat.running = false)
    (hat : matAtGo s s.cur c = true) (hown : ∀ u ∈ nestReads (matNest c.mat.shadow), u ∉ c.own)
    (hb : nestBegin c = .ok c1) :
    execMatrixNestStart s.cur s = becomes s { c1 with late := c1.late.filter (·.eng != .mat) } := by
  have hecc : (nestReads (matNest c.mat.shadow)).any c.own.contains = false := by
    simpa [List.any_eq_false] using hown
  have hc : s.ctx? s.cur = some c := h
  simp only [execMatrixNestStart, hc, hgo, hrun, hat, hecc, hb]
  rfl

theorem execMatrixNestStart_stays (hat : matAtGo s s.cur c = false) : execMatrixNestStart s.cur s = .next s := by
  have hc : s.ctx? s.cur = some c := h
  simp only [execMatrixNestStart, hc, hat, Bool.and_false, Bool.false_eq_true, if_false]

theorem execMatrixNestComplete_completes (hrun : c.mat.running = true) (hleft : nestLeft c = false) (hs : c.still = false)
    (hh : c.handler = false) : execMatrixNestComplete s.cur s = becomes s
      (if c.mat.loose then { nestFinish c with mat := { (nestFinish c).mat with loose := false } }
        else (nestFinish c).advance .mat) := by
  have hc : s.ctx? s.cur = some c := h
  simp only [execMatrixNestComplete, hc, hrun, hleft, hs, hh]
  rfl

theorem execMatrixNestComplete_stays (hn : nestLeft c = true ∨ c.still = true ∨ c.handler = true) :
    execMatrixNestComplete s.cur s = .next s := by
  have hc : s.ctx? s.cur = some c := h
  have hcond : (c.mat.running && !nestLeft c && !c.still && !c.handler) = false := by
    rcases hn with hn | hn | hn <;> simp [hn]
  simp only [execMatrixNestComplete, hc, hcond, Bool.false_eq_true, if_false]
end

/-- An engine at its own program counter goes on alone. -/
theorem Context.advance_pos_of_apart {c : Context} (hh : c.handler = false) (ht : c.together = false) (e : Engine) :
    (c.advance e).pos = c.pos.set e (c.pos.get e).next := by
  simp [Context.advance, Context.move, hh, ht]

/-- The products and the nests do what R157, R158 and R160 say. -/
theorem productsSays : Products := by
  intro s c o x ks a b d h
  simp only [exec]
  refine ⟨fun hx hrt hct hks hfmt hp => execTmma_becomes h hx hks hrt hct hfmt hp,
    fun hx hks => execTmma_traps_first h hx hks, fun hx hks => execTmma_traps_second h hx hks,
    fun c1 ht hgo hrun hb => execMgo_together h ht hgo hrun hb, fun hgo hrun hat hown hcheck => ?_,
    execMatrixNestStart_stays h, fun hrun hleft hs hh => ?_, execMatrixNestComplete_stays h⟩
  · obtain ⟨c1, hb⟩ := nestBegin_of_check hcheck
    obtain ⟨acc, hmat, hpos, hr, hlines⟩ := nestBegin_sets hb
    exact ⟨_, execMatrixNestStart_starts h hgo hrun hat hown hb, by simp [hmat], by simp [hmat], by simp [hmat],
      by simp [hmat], by simp [hmat], hpos, hr, hlines⟩
  · refine ⟨_, execMatrixNestComplete_completes h hrun hleft hs hh, ?_⟩
    cases hloose : c.mat.loose with
    | true => exact ⟨rfl, rfl, rfl, rfl, rfl, fun _ => rfl, nofun⟩
    | false =>
      refine ⟨by simp [nestFinish], by simp [nestFinish], by simp [nestFinish], by simp [nestFinish]; rfl,
        by simp [nestFinish], nofun, fun _ ht => ?_⟩
      exact Context.advance_pos_of_apart (c := nestFinish c) hh ht .mat

/-- The start of a nest, and MGO with one program counter, do what R160 says. -/
theorem nestStarts : NestStarts := by
  intro s c c1 t h hb tab zst
  obtain ⟨acc, hmat, -⟩ := nestBegin_sets hb
  have hiff := matNest_zeroes_iff tab
  simp only [exec]
  refine ⟨by rw [hmat], by rw [hmat], by rw [hmat], by rw [hmat], by rw [hmat],
    fun hz => nestBegin_acc_kept hb (Bool.eq_false_iff.2 fun hon => hz (hiff.1 hon)), fun hz ht => ?_,
    fun ht hgo hrun n hn hleft hdone => ?_⟩
  · rw [nestBegin_acc_zeroed hb (hiff.2 hz) ht]
    exact ⟨fun i hi j hj => tileGet_tileZero _ _ hi hj, fun w hw => by rw [lookD_tileZero, if_pos hw]⟩
  · rw [execMgo_together h ht hgo hrun ((nestBegin_go c true).trans hb), nestRun_eq_kStepsFrom n _ c1 hn hleft hdone]

end Sys2Proof.Machine
end

section
/-!
The steps of a running matrix nest (R160, R324): which slots and sub-tile a step names, what its K-step leaves, and what the
matrix engine makes of it.
-/
namespace Sys2Proof.Machine
open Sys2Proof.Says

/-! The iteration space (R160). -/

/-- A nest has as many steps as the product of its trip counts. -/
theorem nestLeft_iff (c : Context) :
    nestLeft c = true ↔ c.mat.stepAt < ((List.range 6).map (nestTrip c.mat.active)).prod := by
  rw [nestLeft, decide_eq_true_iff, MatNest.count, matNest_trips, List.prod_eq_foldl]

/-- The indices of a step, one level at a time: the lowest is the remainder. -/
theorem stepIndices_cons {i t : Nat} (h : i < t) (n : Nat) (ts : List Nat) :
    stepIndices (i + t * n) (t :: ts) = i :: stepIndices n ts := by
  rw [stepIndices, Nat.add_mul_mod_self_left, Nat.mod_eq_of_lt h, Nat.add_mul_div_left _ _ (Nat.zero_lt_of_lt h),
    Nat.div_eq_of_lt h, Nat.zero_add]

section
variable (tab : Store Word) {ix : Nat → Nat}

/-- The indices of a step are those that the statement names. -/
theorem stepIndices_of_stepOf {n : Nat} (h : stepOf tab n ix) :
    stepIndices n (matNest tab).trips = (List.range 6).map ix := by
  obtain ⟨hlt, rfl⟩ := h
  have hlast := stepIndices_cons (hlt 5 (by decide)) 0 []
  rw [Nat.mul_zero, Nat.add_zero] at hlast
  rw [matNest_trips]
  simp only [List.range, List.range.loop, List.map_cons, List.map_nil, stepIndices_cons, hlt, Nat.reduceLT, hlast]
  rfl

/-- A stride of a level, as the signed byte that the statement names. -/
theorem strideOf_levelB (k lo : Nat) : strideOf (levelB tab k) lo = nestStride tab lo k := by
  rw [strideOf, intOf_true_eq_toInt (by decide), nestStride]
  congr 1
  refine BitVec.eq_of_toNat_eq ?_
  simp [bitsOf, levelB, Nat.shiftRight_eq_div_pow]

/-- Terms added in turn to a first value. -/
theorem foldl_add_eq_sum {α : Type} (f : α → Int) (l : List α) (x : Int) :
    l.foldl (fun x a => x + f a) x = x + (l.map f).sum := by
  have hsum := List.foldl_assoc (op := (· + · : Int → Int → Int)) (l := l.map f) (a₁ := x) (a₂ := 0)
  rwa [← List.sum_eq_foldl, List.foldl_map, Int.add_zero] at hsum

/-- A walk's value at the indices of a step: its base, moved by each level's stride (R160). -/
theorem walk_at (base w lo : Nat) (ix : Nat → Nat) :
    Walk6.at ⟨nestField tab base w, (List.range 6).map fun k => strideOf (levelB tab k) lo⟩ ((List.range 6).map ix) =
      (nestWalk tab base w lo ix).toNat := by
  rw [Walk6.at, List.zip_map', List.foldl_map, foldl_add_eq_sum]
  simp only [strideOf_levelB, nestWalk, Int.mul_comm]
end

/-! One K-step of a running nest (R160). -/

/-- The step at which a nest stands: its indices, the slots `a` and `b` and the sub-tile `r`, `k` that they name. -/
structure StepNames (c : Context) (ix : Nat → Nat) (a b r k : Nat) : Prop where
  step : stepOf c.mat.active c.mat.stepAt ix
  slotA : (a : Int) = nestWalk c.mat.active 21 6 0 ix
  slotB : (b : Int) = nestWalk c.mat.active 27 6 8 ix
  row : (r : Int) = nestWalk c.mat.active 33 3 16 ix
  col : (k : Int) = nestWalk c.mat.active 36 3 24 ix

section
variable {c : Context} {ix : Nat → Nat} {a b r k : Nat} (hn : StepNames c ix a b r k)
include hn

/-- The walks of the nest stand at the slots and the sub-tile of the step. -/
theorem StepNames.walks : let n := matNest c.mat.active
    let is := stepIndices c.mat.stepAt n.trips
    n.a.at is = a ∧ n.b.at is = b ∧ n.r.at is = r ∧ n.c.at is = k := by
  obtain ⟨hstep, ha, hb, hr, hk⟩ := hn
  have hat (base w lo v : Nat) (hv : (v : Int) = nestWalk c.mat.active base w lo ix) :=
    (walk_at c.mat.active base w lo ix).trans (by rw [← hv, Int.toNat_natCast])
  dsimp only
  rw [stepIndices_of_stepOf _ hstep]
  exact ⟨hat 21 6 0 a ha, hat 27 6 8 b hb, hat 33 3 16 r hr, hat 36 3 24 k hk⟩

/-- A step of a checked pair makes one K-step on its sub-tile. -/
theorem nestKstep_of_pair {t : Tile} {ks : Nat} {x y : OTag × OSlot} {h : Int}
    (ht : c.tile? (nestField c.mat.active 14 3) = some t) (hks : classKs (nestField c.mat.active 17 4) = some ks)
    (hp : pairCheck c (nestField c.mat.active 17 4) a b = .ok (x, y, h)) :
    let z := kstep ⟨t, r, k, x, y, h, ks, true⟩ c.mat.kAt c.mat.acc
    let last := x.1.klen / ks ≤ c.mat.kAt + 1
    nestKstep c = { c.wroteUnit (.tile (nestField c.mat.active 14 3)) with
      mat := { c.mat with
        acc := z.1
        nflags := c.mat.nflags ||| z.2
        kAt := if last then 0 else c.mat.kAt + 1
        stepAt := if last then c.mat.stepAt + 1 else c.mat.stepAt
        steps := if last then c.mat.steps + 1 else c.mat.steps } } := by
  obtain ⟨ha, hb, hr, hk⟩ := hn.walks
  simp only [nestKstep, ha, hb, hr, hk, matNest_t, matNest_cls, ht, hks, hp]

/-- What a step reads of the context's own arrays (R324). -/
theorem stepReads_any : (stepReads (matNest c.mat.active) c.mat.stepAt).any c.own.contains = true ↔
    .tile (nestField c.mat.active 14 3) ∈ c.own ∨ .slot a ∈ c.own ∨ .slot b ∈ c.own := by
  obtain ⟨ha, hb, -⟩ := hn.walks
  simp [stepReads, ha, hb, matNest_t]

variable (s : State) (pos : Nat) (hleft : nestLeft c = true)
include hleft

theorem matNestStep_steps (ht : .tile (nestField c.mat.active 14 3) ∉ c.own) (ha : .slot a ∉ c.own) (hb : .slot b ∉ c.own) :
    matNestStep s pos c = .next (s.setCtx pos ((nestKstep c).passCycles .mat 1)) := by
  rw [matNestStep, if_pos hleft, if_neg]
  rw [stepReads_any hn]
  exact fun h => h.elim ht fun h => h.elim ha hb

theorem matNestStep_eccu
    (hown : .tile (nestField c.mat.active 14 3) ∈ c.own ∨ .slot a ∈ c.own ∨ .slot b ∈ c.own) :
    matNestStep s pos c = .next (takeTrap s pos c .mat (nestEcc pos)) := by
  rw [matNestStep, if_pos hleft, if_pos ((stepReads_any hn).2 hown)]
end

/-- The matrix engine of a context that is not held makes a step of its running nest (R160, R165). -/
theorem engineStep_of_running {s : State} {pos : Nat} {c : Context} (hc : s.ctx? pos = some c) (hrun : c.mat.running = true)
    (hh : c.handler = false) (hs : c.still = false) : engineStep s pos .mat = matNestStep s pos c := by
  simp only [Context.still, Bool.or_eq_false_iff] at hs
  obtain ⟨⟨⟨⟨hhalt, hpre⟩, hpend⟩, hend⟩, hidle⟩ := hs
  simp [engineStep, hc, hhalt, hpre, hpend, hend, hidle, hrun, hh]

/-- A running nest steps as R160 and R324 say. -/
theorem nestSteps : NestSteps := by
  intro s c pos ix t ks a b r k x y h hc tab q last d free
  refine ⟨nestLeft_iff c, fun hstep ha hb hr hk => ?_⟩
  have hn : StepNames c ix a b r k := ⟨hstep, ha, hb, hr, hk⟩
  refine ⟨fun ht hks hp => ?_, fun ⟨hrun, hh, hhalt, hpre, hpend, hend, hidle⟩ hleft => ?_⟩
  · have hd : d = _ := nestKstep_of_pair hn ht hks hp
    rw [hd]
    exact ⟨rfl, rfl, rfl, rfl⟩
  · have hs : c.still = false := by simp [Context.still, hhalt, hpre, hpend, hend, hidle]
    rw [engineStep_of_running hc hrun hh hs]
    exact ⟨matNestStep_steps hn s pos hleft, matNestStep_eccu hn s pos hleft⟩

/-- Settles O33: TMMA and the nest's start and completion by what each answers, a nest's run by its K-steps, and a step by the
mixed-radix digits of its count. -/
theorem productsAndNests : Obligations.ProductsAndNests := ⟨productsSays, nestStarts, nestSteps⟩

end Sys2Proof.Machine
end

section
/-!
TOUT (R162 to R164): the rows that it writes, line by line, and the flags that they raise together.
-/
namespace Sys2Proof.Machine
open Sys2Proof.Says

/-! The rows written in turn. -/

section
variable {src : Context} {o : TM} {a : ToutArgs} {bf : Option BFmt} {t : Tile} {bias : List Nat} {n : Nat} {c : Context}

/-- TOUT changes lines and flags alone, of what R162 names. -/
theorem toutPut_keeps (r : Nat) :
    (toutPut src o a bf t bias n c r).mat = c.mat ∧ (toutPut src o a bf t bias n c r).r.s = c.r.s := by
  induction r with
  | zero => exact ⟨rfl, rfl⟩
  | succ r ih => exact ih

/-- The lines past those that TOUT writes stay. -/
theorem toutPut_rdL_other {m : Nat} (r : Nat) (hm : m < n ∨ n + r ≤ m) :
    (toutPut src o a bf t bias n c r).rdL m = c.rdL m := by
  induction r with
  | zero => rfl
  | succ r ih => exact (Context.rdL_wrL_other _ _ (by omega)).trans (ih (by omega))

/-- Line `i` of those that TOUT writes takes its row. -/
theorem toutPut_rdL {i : Nat} (r : Nat) (hi : i < r) :
    (toutPut src o a bf t bias n c r).rdL (n + i) = (toutLine src o a bf t bias i).1 := by
  induction r with
  | zero => omega
  | succ r ih =>
    by_cases hr : i = r
    · subst hr
      exact Context.rdL_wrL_same ..
    · exact (Context.rdL_wrL_other _ _ (by omega)).trans (ih (by omega))

/-- A flag after TOUT is one that was set or that a row raises (R46). -/
theorem toutPut_flags (k r : Nat) : (toutPut src o a bf t bias n c r).r.flags.getLsbD k = true ↔
    (c.r.flags.getLsbD k = true ∨ ∃ i < r, (toutLine src o a bf t bias i).2.getLsbD k = true) := by
  induction r with
  | zero => simp [toutPut]
  | succ r ih =>
    rw [toutPut, Context.addFlags_r_flags, Context.wrL_r, BitVec.getLsbD_or, Bool.or_eq_true, ih, Nat.exists_lt_succ_right,
      or_assoc]
end

/-- A row that is neither quantised nor ZB-encoded is its converted elements (R163). -/
theorem elem_toutLine (c : Context) (o : TM) {a : ToutArgs} (t : Tile) (bias : List Nat) (i : Nat) {j : Nat}
    (hzb : a.zb = false) (hfit : t.cols * o.ty.width ≤ 4096) (hj : j < t.cols) :
    elem (toutLine c o a none t bias i).1 o.ty.width j =
      (if t.fmt = .int32 then toutInt c o a t bias i j else toutFp c o a t bias i j).1 % 2 ^ o.ty.width := by
  have hcount : j < o.ty.count :=
    Nat.lt_of_lt_of_le hj ((Nat.le_div_iff_mul_le o.ty.width_pos).2 hfit)
  simp only [toutLine, hzb, Bool.false_eq_true, if_false, toutRow, List.map_map]
  rw [elem_lineOfEls _ _ hcount, getD_map_range _ _ hj]
  rfl

/-- What a TOUT adds to its elements: the bias line's, where F names one (R162). -/
def Context.toutBias (c : Context) (a : ToutArgs) (x : Tile) : List Nat :=
  if a.bias then (List.range (4096 / x.width)).map (elem (c.rdL a.bline) x.width) else []

theorem Context.toutBias_eq (c : Context) (a : ToutArgs) (x : Tile) :
    c.toutBias a x = if a.bias then lineEls (c.rdL a.bline) x.width else [] := by
  rw [Context.toutBias, x.width_eq, lineEls_eq_map_elem]
  rfl

/-- A TOUT whose tile, arguments and lines pass their checks (R162, R163). -/
structure ToutReady (s : State) (c : Context) (o : TM) (x : Tile) (a : ToutArgs) (n : Nat) (bf : Option BFmt) : Prop where
  wf : o.wfTout = true
  tile : c.tile? o.t.toNat = some x
  args : toutArgs o (c.rdS s.eng o.s) = a
  reserved : bitsOf (c.rdS s.eng o.s).toNat 49 15 = 0
  bline : a.bias = true ∨ a.bline = 0
  entry : a.qnt = true ∨ a.qx = 0
  act : ¬ (x.fmt = .int32 ∧ 2 ≤ a.act)
  fits : x.cols * o.ty.width ≤ 4096
  format : toutFormat c o a x = .ok bf
  dest : c.dstLine s.eng o.l = .ok n
  destIn : n + x.rows ≤ 64 * c.bind.window
  biasIn : a.bias = true → c.lineOk a.bline = true

/-- Such a TOUT writes the tile's rows. -/
theorem execTout_becomes {s : State} {c : Context} (h : runs s c) {o : TM} {x : Tile} {a : ToutArgs} {n : Nat}
    {bf : Option BFmt} (hr : ToutReady s c o x a n bf) :
    execTout o s = becomes s ((toutPut c o a bf x (c.toutBias a x) n c x.rows).advance s.eng) := by
  obtain ⟨hwf, hx, rfl, hres, hbl, hqx, hact, hfit, hbf, hl, hin, hok⟩ := hr
  have hint : (x.fmt == .int32 && decide (2 ≤ (toutArgs o (c.rdS s.eng o.s)).act)) = false := by
    refine Bool.eq_false_iff.2 fun hboth => hact ?_
    simpa only [Bool.and_eq_true, beq_iff_eq, decide_eq_true_eq] using hboth
  refine runC_ok h ?_
  rw [check_bind_true hwf, res_bind_of_ok (Context.needTile_of_some hx)]
  dsimp only
  rw [check_bind_true (by simp [hres, hbl, hqx]), check_bind_true (by rw [hint, decide_eq_true hfit]; rfl),
    res_bind_of_ok hbf, res_bind_of_ok hl, res_bind_of_ok (Context.inWin_ok (Int.natCast_nonneg n) hin),
    Int.toNat_natCast, Context.toutBias_eq]
  cases hb : (toutArgs o (c.rdS s.eng o.s)).bias with
  | false => rfl
  | true => exact check_bind_true (hok hb) ..

/-- Settles O34: the rows are written in turn, each to its own line. -/
theorem tileOutput : Obligations.TileOutput := by
  intro s c o x n bf h hwf hx w a bias hres hbl hqx hact hfit hbf hl hin hok
  refine ⟨_, execTout_becomes h ⟨hwf, hx, rfl, hres, hbl, hqx, hact, hfit, hbf, hl, hin, hok⟩, (toutPut_keeps _).1,
    (toutPut_keeps _).2, fun m hm => toutPut_rdL_other _ hm, fun i hi => toutPut_rdL _ hi,
    fun hnone hzb i hi j hj => ?_, fun k _ => toutPut_flags k _⟩
  subst hnone
  rw [toutPut_rdL _ hi]
  exact elem_toutLine c o x bias i hzb hfit hj

end Sys2Proof.Machine
end

section
/-!
The y registers (R168): what a value read there is after another is written, in every format of SPM.MODE; and one element of a
window line replaced (R15).
-/
namespace Sys2Proof.Machine
open Sys2Proof.Says

/-! The value formats of SPM.MODE. -/

theorem spStep_of_pair {m : Nat} (h : m % 4 = 2) : spStep m = 2 := if_pos h

theorem spStep_one_or_two (m : Nat) : spStep m = 1 ∨ spStep m = 2 := by
  unfold spStep
  split
  · exact .inr rfl
  · exact .inl rfl

theorem spType_isInt (m : Nat) : (spType m).isInt = false := by
  unfold spType
  split <;> rfl

/-! Values in the registers. -/

section
variable (y : Store (BitVec 32)) (m : Nat) {i j : Nat}

/-- The value written at an index is read there. -/
theorem yGet_yPut_same (v : Nat) : yGet (yPut y m i v) m i = v % 2 ^ (spType m).width := by
  have hm : m % 4 = 0 ∨ m % 4 = 1 ∨ m % 4 = 2 ∨ m % 4 = 3 := by omega
  rcases hm with hm | hm | hm | hm
  · simp [yGet, yPut, spType, hm, ElemType.width]
  · simp only [yGet, yPut, spType, hm, ElemType.width, lookD_putD_same, BitVec.toNat_ofNat]
    omega
  · simp only [yGet, yPut, spType, hm, ElemType.width, lookD_putD_same, BitVec.toNat_ofNat]
    rw [lookD_putD_other _ _ _ _ _ (by omega), lookD_putD_same, BitVec.toNat_ofNat]
    omega
  · simp [yGet, yPut, spType, hm, ElemType.width]

/-- A value written leaves the registers that it does not take. -/
theorem lookD_yPut_other (v : Nat) (h : j ≠ i) (hpair : m % 4 = 2 → j ≠ (i + 1) % 4096) :
    lookD (yPut y m i v) j 0 = lookD y j 0 := by
  unfold yPut
  split
  · exact lookD_putD_other _ _ _ _ _ h
  · next hm => rw [lookD_putD_other _ _ _ _ _ (hpair hm), lookD_putD_other _ _ _ _ _ h]
  · exact lookD_putD_other _ _ _ _ _ h

/-- A value is what the registers that it takes hold. -/
theorem yGet_congr {y y' : Store (BitVec 32)} (h : lookD y' i 0 = lookD y i 0)
    (hpair : m % 4 = 2 → lookD y' ((i + 1) % 4096) 0 = lookD y ((i + 1) % 4096) 0) : yGet y' m i = yGet y m i := by
  unfold yGet
  split
  · rw [h]
  · next hm => rw [h, hpair hm]
  · rw [h]

/-- A value written below the registers' end leaves the registers before and after it. -/
theorem lookD_yPut_outside (v : Nat) (hi : i + spStep m ≤ 4096) (h : j < i ∨ i + spStep m ≤ j) :
    lookD (yPut y m i v) j 0 = lookD y j 0 := by
  have hstep := spStep_one_or_two m
  refine lookD_yPut_other y m v (by omega) fun hm => ?_
  rw [spStep_of_pair hm] at hi h
  omega

/-- A value below the registers' end is what its run of registers holds. -/
theorem yGet_congr_run {y y' : Store (BitVec 32)} (hi : i + spStep m ≤ 4096)
    (h : ∀ j < i + spStep m, i ≤ j → lookD y' j 0 = lookD y j 0) : yGet y' m i = yGet y m i := by
  have hstep := spStep_one_or_two m
  refine yGet_congr m (h i (by omega) (Nat.le_refl i)) fun hm => ?_
  rw [spStep_of_pair hm] at hi h
  exact h _ (by omega) (by omega)

/-- A value written leaves every other value, where pairs of registers begin at even indices (R168). -/
theorem yGet_yPut_other (v : Nat) (hij : j ≠ i) (heven : m % 4 = 2 → i % 2 = 0 ∧ j % 2 = 0) (hi : i < 4096) (hj : j < 4096) :
    yGet (yPut y m i v) m j = yGet y m j := by
  refine yGet_congr m (lookD_yPut_other y m v hij fun hm => ?_) fun hm => lookD_yPut_other y m v ?_ fun _ => ?_
  all_goals
    obtain ⟨hi2, hj2⟩ := heven hm
    omega
end

/-! An element of a line replaced. -/

/-- The end of a digit's place divides every power of two at or past it. -/
theorem two_pow_digit_dvd {w j p : Nat} (h : w * (j + 1) ≤ p) : 2 ^ (w * j) * 2 ^ w ∣ 2 ^ p := by
  rw [← Nat.pow_add, ← Nat.mul_succ]
  exact Nat.pow_dvd_pow 2 h

/-- A digit of a number is one of its remainder by a multiple of the digit's place and size. -/
theorem mod_div_mod_of_dvd {c d k : Nat} (h : c * d ∣ k) (n : Nat) : n % k / c % d = n / c % d := by
  rw [← Nat.mod_mul_right_div_self, Nat.mod_mod_of_dvd _ h, Nat.mod_mul_right_div_self]

/-- The digits of a number that a word keeps. -/
theorem toNat_ofNat_digit {w j p : Nat} (h : w * (j + 1) ≤ p) (n : Nat) :
    (BitVec.ofNat p n).toNat / 2 ^ (w * j) % 2 ^ w = n / 2 ^ (w * j) % 2 ^ w := by
  rw [BitVec.toNat_ofNat, mod_div_mod_of_dvd (two_pow_digit_dvd h)]

/-- The digits of a number with digit `i` replaced. -/
theorem replaced_digit (w i j n x : Nat) :
    (n - n / 2 ^ (w * i) % 2 ^ w * 2 ^ (w * i) + x % 2 ^ w * 2 ^ (w * i)) / 2 ^ (w * j) % 2 ^ w =
      if j = i then x % 2 ^ w else n / 2 ^ (w * j) % 2 ^ w := by
  have hp : 0 < 2 ^ (w * i) := Nat.two_pow_pos _
  have hw : 0 < 2 ^ w := Nat.two_pow_pos _
  have hx : x % 2 ^ w < 2 ^ w := Nat.mod_lt _ hw
  generalize hh : n / 2 ^ (w * i) / 2 ^ w = h
  generalize ho : n / 2 ^ (w * i) % 2 ^ w = o
  generalize hl : n % 2 ^ (w * i) = l
  generalize x % 2 ^ w = u at hx ⊢
  have hlt : l < 2 ^ (w * i) := hl ▸ Nat.mod_lt _ hp
  have holt : o < 2 ^ w := ho ▸ Nat.mod_lt _ hw
  have hn : n = l + 2 ^ (w * i) * (o + 2 ^ w * h) := by
    rw [← hl, ← ho, ← hh, Nat.mod_add_div, Nat.mod_add_div]
  have hset : n - o * 2 ^ (w * i) + u * 2 ^ (w * i) = l + 2 ^ (w * i) * (u + 2 ^ w * h) := by
    rw [hn, Nat.mul_add, Nat.mul_add, Nat.mul_comm o, Nat.mul_comm u]
    omega
  rw [hset]
  rcases Nat.lt_trichotomy j i with hj | rfl | hj
  · have hdvd : 2 ^ (w * j) * 2 ^ w ∣ 2 ^ (w * i) := two_pow_digit_dvd (Nat.mul_le_mul_left w hj)
    rw [if_neg (Nat.ne_of_lt hj), ← mod_div_mod_of_dvd hdvd, Nat.add_mul_mod_self_left, hn, ← mod_div_mod_of_dvd hdvd (l + _),
      Nat.add_mul_mod_self_left]
  · rw [if_pos rfl, Nat.add_mul_div_left _ _ hp, Nat.div_eq_of_lt hlt, Nat.zero_add, Nat.add_mul_mod_self_left,
      Nat.mod_eq_of_lt hx]
  · have hplace : 2 ^ (w * j) = 2 ^ (w * i) * 2 ^ w * 2 ^ (w * (j - (i + 1))) := by
      rw [← Nat.pow_add, ← Nat.pow_add, ← Nat.mul_succ, ← Nat.mul_add, Nat.add_sub_cancel' hj]
    have habove : ∀ v < 2 ^ w, (l + 2 ^ (w * i) * (v + 2 ^ w * h)) / (2 ^ (w * i) * 2 ^ w) = h := fun v hv => by
      rw [← Nat.div_div_eq_div_mul, Nat.add_mul_div_left _ _ hp, Nat.div_eq_of_lt hlt, Nat.zero_add,
        Nat.add_mul_div_left _ _ hw, Nat.div_eq_of_lt hv, Nat.zero_add]
    rw [if_neg (Nat.ne_of_gt hj), hplace, ← Nat.div_div_eq_div_mul, habove u hx, hn, ← Nat.div_div_eq_div_mul,
      habove o holt]

/-- The elements of a line with element `i` replaced. -/
theorem elem_lineSetEl (l : Line) (w i x : Nat) {j : Nat} (hj : w * (j + 1) ≤ 4096) :
    elem (lineSetEl l w i x) w j = if j = i then x % 2 ^ w else elem l w j := by
  simp only [elem, lineSetEl, Nat.shiftRight_eq_div_pow, Nat.shiftLeft_eq]
  rw [toNat_ofNat_digit hj, replaced_digit]

end Sys2Proof.Machine
end

section
/-!
The moves of the sum-product engine (R168, R170 to R172): what each instruction answers, then what its registers and lines hold.
-/
namespace Sys2Proof.Machine
open Sys2Proof.Says

/-! A run of registers written. -/

/-- The registers from `a` on with the first `k` values of `f`. -/
def yRunPut (f : Nat → BitVec 32) (a : Nat) (y : Store (BitVec 32)) : Nat → Store (BitVec 32)
  | 0 => y
  | k + 1 => yRunPut f a (putD y (a + k) (f k) 0) k

/-- The registers of the run take the values, and the others stay. -/
theorem lookD_yRunPut (f : Nat → BitVec 32) (a j : Nat) (k : Nat) : ∀ y,
    lookD (yRunPut f a y k) j 0 = if a ≤ j ∧ j < a + k then f (j - a) else lookD y j 0 := by
  induction k with
  | zero => exact fun y => (if_neg (by omega)).symm
  | succ k ih =>
    intro y
    rw [yRunPut, ih]
    by_cases hj : j = a + k
    · rw [hj, lookD_putD_same, if_neg (by omega), if_pos (by omega), Nat.add_sub_cancel_left]
    · rw [lookD_putD_other _ _ _ _ _ hj]
      exact ite_congr (propext (by omega)) (fun _ => rfl) fun _ => rfl

theorem lookD_yRunPut_outside {f : Nat → BitVec 32} {a k : Nat} {y : Store (BitVec 32)} {j : Nat} (h : j < a ∨ a + k ≤ j) :
    lookD (yRunPut f a y k) j 0 = lookD y j 0 :=
  (lookD_yRunPut f a j k y).trans (if_neg (by omega))

theorem lookD_yRunPut_inside {f : Nat → BitVec 32} {a k : Nat} {y : Store (BitVec 32)} {i : Nat} (h : i < k) :
    lookD (yRunPut f a y k) (a + i) 0 = f i := by
  rw [lookD_yRunPut, if_pos (by omega), Nat.add_sub_cancel_left]

/-- SPMOV's registers are a run of the old file's. -/
theorem spmovFrom_eq_yRunPut (old : Store (BitVec 32)) (a b k : Nat) : ∀ y,
    spmovFrom old a b y k = yRunPut (fun i => lookD old (b + i) 0) a y k := by
  induction k with
  | zero => exact fun _ => rfl
  | succ k ih => exact fun _ => ih _

/-- SPLD's registers are a run of the lines' elements. -/
theorem spldFrom_eq_yRunPut (c : Context) (n a k : Nat) : ∀ y,
    spldFrom c n a y k = yRunPut (fun i => BitVec.ofNat 32 (lineEl (c.rdL (n + i / 128)) 32 (i % 128))) a y k := by
  induction k with
  | zero => exact fun _ => rfl
  | succ k ih => exact fun _ => ih _

/-- SPCLR's registers read zero, and the others what they held. -/
theorem lookD_cleared (y : Store (BitVec 32)) (a k j : Nat) :
    lookD (y.filter fun r => decide (r.1 < a) || decide (a + k ≤ r.1)) j 0 =
      if j < a ∨ a + k ≤ j then lookD y j 0 else 0 := by
  rw [lookD, find?_filter_key y fun n => decide (n < a) || decide (a + k ≤ n)]
  simp only [Bool.or_eq_true, decide_eq_true_eq]
  by_cases h : j < a ∨ a + k ≤ j
  · rw [if_pos h, if_pos h]; rfl
  · rw [if_neg h, if_neg h]

/-! SPST's lines. -/

section
variable (ya n : Nat)

/-- SPST changes lines alone, of what R171 names. -/
theorem spstFrom_keeps (k : Nat) : ∀ c : Context, (spstFrom ya n c k).y = c.y ∧ (spstFrom ya n c k).r = c.r := by
  induction k with
  | zero => exact fun _ => ⟨rfl, rfl⟩
  | succ k ih => exact fun _ => ih _

/-- The lines past the two that SPST can write stay. -/
theorem spstFrom_rdL_other {m : Nat} (h0 : m ≠ n) (h1 : m ≠ n + 1) (k : Nat) (hk : k ≤ 256) : ∀ c : Context,
    (spstFrom ya n c k).rdL m = c.rdL m := by
  induction k with
  | zero => exact fun _ => rfl
  | succ k ih => exact fun c => (ih (by omega) _).trans (Context.rdL_wrL_other _ _ (by omega))

/-- Element `i` of the lines from `n` on, after element `k` of them is written. -/
theorem elem_wrL_lineSetEl (c : Context) (k i x : Nat) :
    elem ((c.wrL (n + k / 128) (lineSetEl (c.rdL (n + k / 128)) 32 (k % 128) x)).rdL (n + i / 128)) 32 (i % 128) =
      if i = k then x % 2 ^ 32 else elem (c.rdL (n + i / 128)) 32 (i % 128) := by
  by_cases hline : i / 128 = k / 128
  · rw [hline, Context.rdL_wrL_same, elem_lineSetEl _ _ _ _ (by omega)]
    exact ite_congr (propext (by omega)) (fun _ => rfl) fun _ => rfl
  · rw [Context.rdL_wrL_other _ _ (by omega), if_neg fun hik => hline (congrArg (· / 128) hik)]

/-- The elements that SPST writes are the registers', and the others stay. -/
theorem elem_spstFrom (i k : Nat) : ∀ c : Context, elem ((spstFrom ya n c k).rdL (n + i / 128)) 32 (i % 128) =
    if i < k then (lookD c.y (ya + i) 0).toNat else elem (c.rdL (n + i / 128)) 32 (i % 128) := by
  induction k with
  | zero => exact fun c => (if_neg (Nat.not_lt_zero i)).symm
  | succ k ih =>
    intro c
    rw [spstFrom, ih, elem_wrL_lineSetEl, Context.wrL_y]
    rcases Nat.lt_trichotomy i k with hi | rfl | hi
    · rw [if_pos hi, if_pos (by omega)]
    · rw [if_neg (Nat.lt_irrefl i), if_pos rfl, if_pos (Nat.lt_succ_self i), Nat.mod_eq_of_lt (lookD c.y (ya + i) 0).isLt]
    · rw [if_neg (by omega), if_neg (by omega), if_neg (by omega)]
end

/-! What each instruction answers. -/

section
variable {s : State} {c : Context} (h : runs s c) {o : SPF} {n : Nat}
include h

theorem execSpmode_becomes (hm : o.m.toNat ≤ 3) :
    execSpmode o s = becomes s ({ c with spmode := o.m.toNat }.advance s.eng) :=
  runC_ok h (check_bind_true (decide_eq_true hm) ..)

theorem execSpclr_becomes (ha : o.inRange o.ya = true) : execSpclr o s = becomes s ((c.setY (c.y.filter fun r =>
    decide (r.1 < o.ya.toNat) || decide (o.ya.toNat + spCount o ≤ r.1))).advance s.eng) :=
  runC_ok h (check_bind_true ha ..)

theorem execSpmov_becomes (ha : o.inRange o.ya = true) (hb : o.inRange o.yb = true) :
    execSpmov o s = becomes s ((c.setY (spmovFrom c.y o.ya.toNat o.yb.toNat c.y (spCount o))).advance s.eng) :=
  runC_ok h (check_bind_true (by rw [ha, hb]; rfl) ..)

section
variable (ha : o.inRange o.ya = true) (hin : n + spLines o ≤ 64 * c.bind.window)
include ha hin

theorem execSpld_becomes (hl : c.srcLine s.eng o.l = .ok n) :
    execSpld o s = becomes s ((c.setY (spldFrom c n o.ya.toNat c.y (spCount o))).advance s.eng) := by
  refine runC_ok h ?_
  rw [check_bind_true ha, res_bind_of_ok hl, res_bind_of_ok (Context.inWin_ok (Int.natCast_nonneg n) hin), Int.toNat_natCast]

theorem execSpst_becomes (hl : c.dstLine s.eng o.l = .ok n) :
    execSpst o s = becomes s ((spstFrom o.ya.toNat n c (spCount o)).advance s.eng) := by
  refine runC_ok h ?_
  rw [check_bind_true ha, res_bind_of_ok hl, res_bind_of_ok (Context.inWin_ok (Int.natCast_nonneg n) hin), Int.toNat_natCast]
end
end

theorem spCount_le (o : SPF) : spCount o ≤ 256 := o.cnt.isLt

/-- The moves: SPMODE sets the mode, SPCLR, SPMOV and SPLD write one run of registers, SPST one run of elements. -/
theorem sumProductMoves : SumProductMoves := by
  intro s c o n h k a b kept
  refine ⟨execSpmode_becomes h, fun ha => ⟨_, execSpclr_becomes h ha, fun j hj => ?_, fun i hi => ?_⟩,
    fun ha hb => ⟨_, execSpmov_becomes h ha hb, fun j hj => ?_, fun i hi => ?_⟩,
    fun ha hin hl => ⟨_, execSpld_becomes h ha hin hl, fun j hj => ?_, fun i hi => ?_⟩,
    fun ha hin hl => ⟨_, execSpst_becomes h ha hin hl, (spstFrom_keeps ..).1, (spstFrom_keeps ..).2,
      fun i _ => elem_spstFrom .., fun m h0 h1 => spstFrom_rdL_other _ _ h0 h1 _ (spCount_le o) c⟩⟩
  · exact (lookD_cleared ..).trans (if_pos hj)
  · exact (lookD_cleared ..).trans (if_neg (by simp only [spCount]; omega))
  · rw [spmovFrom_eq_yRunPut]
    exact lookD_yRunPut_outside hj
  · rw [spmovFrom_eq_yRunPut]
    exact lookD_yRunPut_inside hi
  · rw [spldFrom_eq_yRunPut]
    exact lookD_yRunPut_outside hj
  · rw [spldFrom_eq_yRunPut]
    refine (congrArg BitVec.toNat (lookD_yRunPut_inside hi)).trans ?_
    rw [BitVec.toNat_ofNat, lineEl, Nat.shiftRight_eq_div_pow, Nat.mod_mod]
    rfl

end Sys2Proof.Machine
end

section
/-!
SPNORM (R181): the tree of R57 that gives its divisor, level by level, and the quotients that it writes in turn.
-/
namespace Sys2Proof.Machine
open Sys2Proof.Says

/-! The levels of a reduction's tree (R57). -/

section
variable (f : Nat → Nat → Nat × Flags)

/-- The values of the tree's level `k` over `xs`. -/
def treeRow (xs : List Nat) : Nat → List Nat
  | 0 => xs
  | k + 1 => (treeLevel f (treeRow xs k)).1

theorem treeRow_zero (xs : List Nat) : treeRow f xs 0 = xs := rfl

theorem treeRow_succ (xs : List Nat) (k : Nat) : treeRow f xs (k + 1) = (treeLevel f (treeRow f xs k)).1 := rfl

/-- The levels over the first level are the next ones over the values. -/
theorem treeRow_treeLevel (xs : List Nat) (k : Nat) : treeRow f (treeLevel f xs).1 k = treeRow f xs (k + 1) := by
  induction k with
  | zero => rfl
  | succ k ih => rw [treeRow_succ, ih, treeRow_succ f xs (k + 1)]

/-- A reduction gives the root of its tree. -/
theorem treeReduce_eq_root (k : Nat) : ∀ xs, (treeReduce f k xs).1 = (treeRow f xs k).getD 0 0 := by
  induction k with
  | zero => exact fun xs => by cases xs <;> rfl
  | succ k ih => exact fun xs => (ih (treeLevel f xs).1).trans (by rw [treeRow_treeLevel])

/-- A level halves the number of values, a value without a partner counted. -/
theorem length_treeLevel : ∀ xs, (treeLevel f xs).1.length = (xs.length + 1) / 2
  | [] => rfl
  | [_] => by simp [treeLevel]
  | a :: b :: r => by
    have ih := length_treeLevel r
    simp only [treeLevel, List.length_cons, ih]
    omega

/-- A level combines the pairs of values, and passes a value without a partner. -/
theorem getD_treeLevel : ∀ (xs : List Nat) (i : Nat), 2 * i < xs.length → (treeLevel f xs).1.getD i 0 =
    if 2 * i + 1 < xs.length then (f (xs.getD (2 * i) 0) (xs.getD (2 * i + 1) 0)).1 else xs.getD (2 * i) 0
  | [_], 0, _ => rfl
  | a :: b :: r, 0, _ => (if_pos (by simp)).symm
  | a :: b :: r, i + 1, h => by
    have hr : 2 * i < r.length := by
      simp only [List.length_cons] at h
      omega
    refine (getD_treeLevel r i hr).trans (ite_congr (propext ?_) (fun _ => rfl) fun _ => rfl)
    simp only [List.length_cons]
    omega

/-- Level `k` has the values whose places begin below the length. -/
theorem lt_length_treeRow (xs : List Nat) (k i : Nat) : i < (treeRow f xs k).length ↔ i * 2 ^ k < xs.length := by
  induction k generalizing i with
  | zero => rw [treeRow_zero, Nat.pow_zero, Nat.mul_one]
  | succ k ih =>
    have hhalf : i < ((treeRow f xs k).length + 1) / 2 ↔ i * 2 < (treeRow f xs k).length := by omega
    rw [treeRow_succ, length_treeLevel, hhalf, ih, Nat.pow_succ', Nat.mul_assoc]

/-- A reduction's value is the root of a balanced tree, whose pairs stand as each combination says. -/
theorem treeOf_treeReduce {R : Nat → Nat → Nat → Prop} (hR : ∀ x y, R x y (f x y).1) (vs : List Nat) :
    treeOf R vs (treeReduce f 8 vs).1 := by
  refine ⟨fun k i => (treeRow f vs k).getD i 0, fun i _ => rfl, treeReduce_eq_root f 8 vs, fun k _ i hi => ?_⟩
  have hleft : 2 * i < (treeRow f vs k).length := by
    rw [lt_length_treeRow, Nat.mul_comm 2, Nat.mul_assoc, ← Nat.pow_succ']
    exact hi
  simp only [treeRow_succ, getD_treeLevel f _ i hleft, ← lt_length_treeRow f vs k]
  split
  · exact hR ..
  · rfl
end

/-! The divisor. -/

section
variable (m : Nat)

/-- The tree of the sum rounds each pair's sum. -/
theorem combine_sum (x y : Nat) : (Reduction.combine .sum (spType m) .rne x y).1 =
    (deliver (spType m) .rne (sumVals .rne [valOf (spType m) x, valOf (spType m) y]).1).1 := by
  simp only [Reduction.combine, spType_isInt, Bool.false_eq_true, if_false, v3Fp]

/-- The tree of the greatest value selects as FMAX. -/
theorem larger_combine_max (x y : Nat) : larger (spType m) x y (Reduction.combine .max (spType m) .rne x y).1 := by
  simp only [Reduction.combine, minMaxCode, spType_isInt, larger, Bool.false_eq_true, if_false]
  cases hx : (valOf (spType m) x).isNan <;> cases hy : (valOf (spType m) y).isNan
  case true.true | true.false | false.true => simp
  case false.false =>
    cases hc : cmpVal (valOf (spType m) x) (valOf (spType m) y) with
    | none => simp
    | some r =>
      cases r with
      | lt | gt => simp
      | eq => cases (valOf (spType m) x).neg? <;> cases (valOf (spType m) y).neg? <;> simp

variable (b : Nat) (y : Store (BitVec 32))

/-- The divisor of two values or more is their tree's. -/
theorem normDivisor_of_tree {k : Nat} (hk : k ≠ 0) {vs : List Nat} (hvs : 2 ≤ vs.length) : normDivisor k m b y vs =
    treeReduce ((if k = 1 then Reduction.sum else .max).combine (spType m) .rne) 8 vs := by
  match k, vs with
  | 0, _ => exact absurd rfl hk
  | _ + 1, _ :: _ :: _ => rfl
  | _ + 1, [_] | _ + 1, [] => simp at hvs

theorem treeOf_normDivisor_sum {vs : List Nat} (hvs : 2 ≤ vs.length) :
    treeOf (fun x y z => z = (deliver (spType m) .rne (sumVals .rne [valOf (spType m) x, valOf (spType m) y]).1).1) vs
      (normDivisor 1 m b y vs).1 := by
  rw [normDivisor_of_tree m b y Nat.one_ne_zero hvs, if_pos rfl]
  refine treeOf_treeReduce _ ?_ vs
  exact combine_sum m

theorem treeOf_normDivisor_max {vs : List Nat} (hvs : 2 ≤ vs.length) :
    treeOf (larger (spType m)) vs (normDivisor 2 m b y vs).1 := by
  rw [normDivisor_of_tree m b y (by decide) hvs, if_neg (by decide)]
  exact treeOf_treeReduce _ (larger_combine_max m) vs

/-- One value alone passes. -/
theorem normDivisor_of_one {k : Nat} (hk : k ≠ 0) (v : Nat) : normDivisor k m b y [v] = passCode (spType m) v := by
  match k with
  | 0 => exact absurd rfl hk
  | _ + 1 => rfl

/-- A value passed is itself, or the canonical NaN. -/
theorem passCode_code (t : ElemType) (v : Nat) :
    (passCode t v).1 = if (valOf t v).isNan then canonNanOf t else canonCode t v := by
  unfold passCode
  dsimp only
  split <;> rfl
end

/-! The quotients. -/

/-- The code of a quotient rounded to nearest even. -/
def quotientCode (t : ElemType) (v : Nat) (d : Val) : Nat := (deliver t .rne (divVal (valOf t v) d).1).1

/-- A value's registers end where the next one's begin. -/
theorem next_place (a i w : Nat) : a + (i + 1) * w = a + i * w + w := by rw [Nat.succ_mul, Nat.add_assoc]

/-- The places of values rise with their numbers. -/
theorem place_le (a w : Nat) {i k : Nat} (h : i ≤ k) : a + i * w ≤ a + k * w :=
  Nat.add_le_add_left (Nat.mul_le_mul_right w h) a

section
variable (m a : Nat) (d : Val)

/-- The registers past those of the quotients stay. -/
theorem lookD_normPut_outside {j : Nat} (vs : List Nat) : ∀ (i : Nat) (x : Store (BitVec 32) × Flags),
    a + (i + vs.length) * spStep m ≤ 4096 → j < a + i * spStep m ∨ a + (i + vs.length) * spStep m ≤ j →
    lookD (normPut m a d i vs x).1 j 0 = lookD x.1 j 0 := by
  induction vs with
  | nil => exact fun _ _ _ _ => rfl
  | cons v r ih =>
    intro i x hin hj
    have hnext := next_place a i (spStep m)
    have hend := place_le a (spStep m) (Nat.le_add_right (i + 1) r.length)
    rw [List.length_cons, ← Nat.add_assoc, Nat.add_right_comm] at hin hj
    exact (ih (i + 1) _ hin (by omega)).trans (lookD_yPut_outside _ _ _ (by omega) (by omega))

/-- The values' registers take the quotients. -/
theorem yGet_normPut (vs : List Nat) : ∀ (i k : Nat) (x : Store (BitVec 32) × Flags),
    a + (i + vs.length) * spStep m ≤ 4096 → k < vs.length →
    yGet (normPut m a d i vs x).1 m (a + (i + k) * spStep m) =
      quotientCode (spType m) (vs.getD k 0) d % 2 ^ (spType m).width := by
  induction vs with
  | nil => exact fun _ _ _ _ hk => absurd hk (Nat.not_lt_zero _)
  | cons v r ih =>
    intro i k x hin hk
    rw [List.length_cons, ← Nat.add_assoc, Nat.add_right_comm] at hin
    cases k with
    | succ k =>
      rw [← Nat.add_assoc, Nat.add_right_comm]
      exact ih (i + 1) k _ hin (Nat.lt_of_succ_lt_succ hk)
    | zero =>
      have hnext := next_place a i (spStep m)
      have hend := place_le a (spStep m) (Nat.le_add_right (i + 1) r.length)
      rw [Nat.add_zero]
      exact (yGet_congr_run m (by omega) fun j hj _ => lookD_normPut_outside m a d r (i + 1) _ hin (.inl (by omega))).trans
        (yGet_yPut_same ..)
end

/-! What SPNORM answers. -/

/-- The values that SPNORM normalises. -/
def normValues (c : Context) (o : SPF) : List Nat :=
  (List.range (spCount o)).map fun i => yGet c.y c.spmode (o.ya.toNat + i * spStep c.spmode)

theorem length_normValues (c : Context) (o : SPF) : (normValues c o).length = spCount o := by
  rw [normValues, List.length_map, List.length_range]

/-- The divisor that SPNORM takes, and its flags. -/
def normBy (c : Context) (o : SPF) : Nat × Flags := normDivisor o.m.toNat c.spmode o.yb.toNat c.y (normValues c o)

/-- The registers after SPNORM's quotients, and the quotients' flags. -/
def normQuotients (c : Context) (o : SPF) : Store (BitVec 32) × Flags :=
  normPut c.spmode o.ya.toNat (valOf (spType c.spmode) (normBy c o).1) 0 (normValues c o) (c.y, 0)

/-- The registers after SPNORM, which writes a divisor of its own to y[YB]. -/
def normRegisters (c : Context) (o : SPF) : Store (BitVec 32) :=
  if o.m = 0 then (normQuotients c o).1 else yPut (normQuotients c o).1 c.spmode o.yb.toNat (normBy c o).1

/-- An SPNORM whose values lie in the registers, at even indices where they take pairs (R168, R181). -/
structure NormReady (c : Context) (o : SPF) : Prop where
  kind : o.m.toNat ≤ 2
  fits : o.ya.toNat + spCount o * spStep c.spmode ≤ 4096
  even : c.spmode % 4 = 2 → o.ya.toNat % 2 = 0 ∧ o.yb.toNat % 2 = 0

section
variable {s : State} {c : Context} {o : SPF} (hr : NormReady c o)
include hr

theorem execSpnorm_becomes (h : runs s c) : execSpnorm o s =
    becomes s (((c.setY (normRegisters c o)).addFlags ((normBy c o).2 ||| (normQuotients c o).2)).advance s.eng) := by
  obtain ⟨hkind, hfits, heven⟩ := hr
  refine runC_ok h ?_
  dsimp only
  rw [check_bind_true (by rw [decide_eq_true hkind, decide_eq_true hfits]; rfl), check_bind_true]
  · rfl
  · by_cases hm : c.spmode % 4 = 2
    · obtain ⟨ha, hb⟩ := heven hm
      rw [hm, ha, hb]; rfl
    · simp [hm]

theorem NormReady.inside : o.ya.toNat + (0 + (normValues c o).length) * spStep c.spmode ≤ 4096 := by
  rw [length_normValues, Nat.zero_add]
  exact hr.fits

/-- Each value is divided by the divisor. -/
theorem yGet_normQuotients {i : Nat} (hi : i < spCount o) :
    yGet (normQuotients c o).1 c.spmode (o.ya.toNat + i * spStep c.spmode) =
      quotientCode (spType c.spmode) (yGet c.y c.spmode (o.ya.toNat + i * spStep c.spmode))
        (valOf (spType c.spmode) (normBy c o).1) % 2 ^ (spType c.spmode).width := by
  have hput := yGet_normPut c.spmode o.ya.toNat (valOf (spType c.spmode) (normBy c o).1) (normValues c o) 0 i (c.y, 0)
    hr.inside (by rwa [length_normValues])
  rwa [Nat.zero_add, normValues, getD_map_range _ _ hi] at hput

/-- A value apart from a divisor that is written keeps its quotient. -/
theorem yGet_normRegisters {i : Nat} (hi : i < spCount o) (hb : o.m = 0 ∨ o.ya.toNat + i * spStep c.spmode ≠ o.yb.toNat) :
    yGet (normRegisters c o) c.spmode (o.ya.toNat + i * spStep c.spmode) =
      yGet (normQuotients c o).1 c.spmode (o.ya.toNat + i * spStep c.spmode) := by
  by_cases hm : o.m = 0
  · rw [normRegisters, if_pos hm]
  · have hfits := hr.fits
    have hnext := next_place o.ya.toNat i (spStep c.spmode)
    have hend := place_le o.ya.toNat (spStep c.spmode) (i := i + 1) hi
    have hstep := spStep_one_or_two c.spmode
    rw [normRegisters, if_neg hm]
    refine yGet_yPut_other _ _ _ (hb.resolve_left hm) (fun hpair => ?_) o.yb.isLt (by omega)
    obtain ⟨ha2, hb2⟩ := hr.even hpair
    rw [spStep_of_pair hpair]
    omega

/-- The registers of neither a value nor a divisor that is written stay. -/
theorem lookD_normRegisters_outside {j : Nat} (hj : j < o.ya.toNat ∨ o.ya.toNat + spCount o * spStep c.spmode ≤ j)
    (hb : o.m ≠ 0 → j ≠ o.yb.toNat ∧ j ≠ (o.yb.toNat + 1) % 4096) : lookD (normRegisters c o) j 0 = lookD c.y j 0 := by
  have hquot : lookD (normQuotients c o).1 j 0 = lookD c.y j 0 :=
    lookD_normPut_outside _ _ _ _ _ _ hr.inside (by rwa [length_normValues, Nat.zero_add, Nat.zero_mul, Nat.add_zero])
  by_cases hm : o.m = 0
  · rwa [normRegisters, if_pos hm]
  · obtain ⟨hb0, hb1⟩ := hb hm
    rw [normRegisters, if_neg hm]
    exact (lookD_yPut_other _ _ _ hb0 fun _ => hb1).trans hquot
end

/-- SPNORM: its divisor by the kind, its quotients value by value. -/
theorem normalisation : Normalisation := by
  intro s c o h m ty n a b vs d hkind hfits heven
  have hr : NormReady c o := ⟨hkind, hfits, heven⟩
  have hd : ∀ k : BitVec 3, o.m = k → d = normDivisor k.toNat m b c.y vs := fun k hk => hk ▸ rfl
  have hlen : vs.length = n := length_normValues c o
  refine ⟨normRegisters c o, _, execSpnorm_becomes hr h, fun hm => ?_, fun hm hn => ?_, fun hm hn => ?_, fun hm hn => ?_,
    fun hm => ?_, fun i hi hb => (yGet_normRegisters hr hi hb).trans (yGet_normQuotients hr hi),
    fun j hj hb => lookD_normRegisters_outside hr hj hb⟩
  · exact hd 0 hm
  · exact hd 1 hm ▸ treeOf_normDivisor_sum m b c.y (hlen.symm ▸ hn)
  · exact hd 2 hm ▸ treeOf_normDivisor_max m b c.y (hlen.symm ▸ hn)
  · have hone : vs = [yGet c.y m a] := by simp [vs, hn]
    have hk : o.m.toNat ≠ 0 := fun h0 => hm (BitVec.eq_of_toNat_eq h0)
    rw [← passCode_code, ← normDivisor_of_one m b c.y hk, ← hone]
  · rw [normRegisters, if_neg hm]
    exact yGet_yPut_same ..

/-- Settles O36: the moves write one run each, and SPNORM its quotients and its divisor. -/
theorem sumProductData : Obligations.SumProductData := ⟨sumProductMoves, normalisation⟩

end Sys2Proof.Machine
end

section
/-!
Subtree records (R174 to R180): the nodes of SPUP, whose values stand as each node's operation gives it of its children, and the
registers that SPUP and SPDN write.
-/
namespace Sys2Proof.Machine
open Sys2Proof.Says

theorem mem_activeNodes {t : Subtree} {n : Nat} : n ∈ activeNodes t ↔ n < 7 ∧ treeActive t n = true := by
  rw [activeNodes, List.mem_filter, List.mem_range]

theorem activeNodes_rising (t : Subtree) : (activeNodes t).Pairwise (· < ·) := List.pairwise_lt_range.filter _

/-! The upward pass (R179). -/

section
variable (t : Subtree) (y : Store (BitVec 32)) (m : Nat)

/-- A child that is a node comes before its parent (R69). -/
theorem child_lt (n k : Nat) : (children n).1 = .node k ∨ (children n).2 = .node k → k < n := by
  unfold children
  split <;> simp <;> omega

/-- A node's value is that of its children, which come before it. -/
theorem nodeValue_congr {vs ws : NodeVals} {n : Nat} (h : ∀ k < n, lookD vs k 0 = lookD ws k 0) :
    nodeValue t y m vs n = nodeValue t y m ws n := by
  have hchild : ∀ c, (∀ k, c = .node k → k < n) → childCode t y m vs c = childCode t y m ws c
    | .leaf _, _ => rfl
    | .node k, hk => h k (hk k rfl)
  simp only [nodeValue, hchild _ fun k hk => child_lt n k (.inl hk), hchild _ fun k hk => child_lt n k (.inr hk)]

/-- The nodes that are not in the list keep their values. -/
theorem lookD_upNodes_other {k : Nat} (ns : List Nat) : ∀ x : NodeVals × Flags, k ∉ ns →
    lookD (upNodes t y m ns x).1 k 0 = lookD x.1 k 0 := by
  induction ns with
  | nil => exact fun _ _ => rfl
  | cons n r ih =>
    intro x hk
    rw [List.mem_cons, not_or] at hk
    obtain ⟨hkn, hkr⟩ := hk
    exact (ih _ hkr).trans (lookD_putD_other _ _ _ _ _ hkn)

/-- The node that is computed first is computed of what stands at the end. -/
theorem nodeValue_upNodes {n : Nat} {r : List Nat} (hr : ∀ k ∈ r, n < k) (x : NodeVals × Flags) :
    nodeValue t y m (upNodes t y m (n :: r) x).1 n = nodeValue t y m x.1 n :=
  nodeValue_congr t y m fun k hk => lookD_upNodes_other t y m (n :: r) x fun hmem =>
    (List.mem_cons.1 hmem).elim (Nat.ne_of_lt hk) fun hkr => Nat.lt_asymm hk (hr k hkr)

/-- Each node of a rising list takes the value of its operation. -/
theorem lookD_upNodes {ns : List Nat} (hns : ns.Pairwise (· < ·)) : ∀ (x : NodeVals × Flags), ∀ n ∈ ns,
    lookD (upNodes t y m ns x).1 n 0 = (nodeValue t y m (upNodes t y m ns x).1 n).1 := by
  induction hns with
  | nil => exact fun _ _ hn => absurd hn List.not_mem_nil
  | @cons k r hk _ ih =>
    intro x n hn
    rcases List.mem_cons.1 hn with rfl | hn
    · rw [nodeValue_upNodes t y m hk]
      exact (lookD_upNodes_other t y m r _ fun hmem => Nat.lt_irrefl n (hk n hmem)).trans (lookD_putD_same ..)
    · exact ih _ n hn

/-- The flags of the nodes of a rising list are merged. -/
theorem upNodes_flags (j : Nat) {ns : List Nat} (hns : ns.Pairwise (· < ·)) : ∀ (x : NodeVals × Flags),
    (upNodes t y m ns x).2.getLsbD j = true ↔
      x.2.getLsbD j = true ∨ ∃ n ∈ ns, (nodeValue t y m (upNodes t y m ns x).1 n).2.getLsbD j = true := by
  induction hns with
  | nil => exact fun x => by simp [upNodes]
  | @cons k r hk _ ih =>
    intro x
    simp only [List.mem_cons, exists_eq_or_imp, nodeValue_upNodes t y m hk]
    refine (ih _).trans ?_
    rw [BitVec.getLsbD_or, Bool.or_eq_true, or_assoc]
    rfl

/-- The values of SPUP's nodes. -/
def upValues : NodeVals := (upNodes t y m (activeNodes t) ([], 0)).1

/-- An active node takes the value of its operation, and the others none. -/
theorem lookD_upValues {n : Nat} (hn : n < 7) :
    lookD (upValues t y m) n 0 = if treeActive t n then (nodeValue t y m (upValues t y m) n).1 else 0 := by
  by_cases ha : treeActive t n = true
  · rw [if_pos ha]
    exact lookD_upNodes t y m (activeNodes_rising t) _ n (mem_activeNodes.2 ⟨hn, ha⟩)
  · rw [if_neg ha]
    exact lookD_upNodes_other t y m _ _ fun hmem => ha (mem_activeNodes.1 hmem).2

/-- SPUP's flags are those of its active nodes. -/
theorem spupEffect_flags (j : Nat) : (spupEffect t m y).2.getLsbD j = true ↔
    ∃ n < 7, treeActive t n = true ∧ (nodeValue t y m (upValues t y m) n).2.getLsbD j = true := by
  refine (upNodes_flags t y m j (activeNodes_rising t) ([], 0)).trans ?_
  simp [mem_activeNodes, and_assoc, upValues]

/-- SPUP writes node 6's value to ROOT. -/
theorem yGet_spupEffect_root :
    yGet (spupEffect t m y).1 m t.root.toNat = lookD (upValues t y m) 6 0 % 2 ^ (spType m).width := yGet_yPut_same ..

/-- SPUP changes no register but ROOT's and those of the kept values (R176). -/
theorem lookD_spupEffect_other {j : Nat}
    (h : ∀ d ∈ t.root.toNat :: (treeKeeps t).map (·.1), j ≠ d ∧ j ≠ (d + 1) % 4096) :
    lookD (spupEffect t m y).1 j 0 = lookD y j 0 := by
  rw [List.forall_mem_cons, List.forall_mem_map] at h
  obtain ⟨⟨hroot, hpair⟩, hkeeps⟩ := h
  refine (lookD_yPut_other _ _ _ hroot fun _ => hpair).trans ?_
  refine List.foldlRecOn (treeKeeps t) _ (motive := fun z => lookD z j 0 = lookD y j 0) rfl fun z hz k hk => ?_
  obtain ⟨hk0, hk1⟩ := hkeeps k hk
  exact (lookD_yPut_other _ _ _ hk0 fun _ => hk1).trans hz

/-! The downward pass (R180). -/

/-- An accumulation writes its own value's registers. -/
theorem lookD_accumY_other (x : Store (BitVec 32) × Flags) {i j : Nat} (a b : Val) (h : j ≠ i) (hpair : j ≠ (i + 1) % 4096) :
    lookD (accumY m x i a b).1 j 0 = lookD x.1 j 0 := lookD_yPut_other _ _ _ h fun _ => hpair

/-- The leaves of the tree are 0 to 7 (R69). -/
theorem leaf_lt {n i : Nat} (hn : n < 7) (h : (children n).1 = .leaf i ∨ (children n).2 = .leaf i) : i < 8 := by
  match n with
  | 4 | 5 | 6 => simp [children] at h
  | 0 | 1 | 2 | 3 =>
    simp only [children, Child.leaf.injEq] at h
    omega

/-- The leaves that a derivative reaches so far are among 0 to 7. -/
def Down.LeavesIn (d : Down) : Prop := ∀ e ∈ d.leaves, e.1 < 8

variable {d : Down}

theorem downChild_leavesIn {n : Nat} (hn : n < 7) (left : Bool) (hd : d.LeavesIn) : (downChild t y m n left d).LeavesIn := by
  have hleaf : ∀ i, (if left then (children n).1 else (children n).2) = .leaf i → i < 8 := fun i hi =>
    leaf_lt hn (match left, hi with
      | true, hi => .inl hi
      | false, hi => .inr hi)
  unfold downChild
  dsimp only
  generalize (if left then (children n).1 else (children n).2) = c at hleaf ⊢
  generalize factor t y m n left = f
  match c, f with
  | .leaf i, _ =>
    intro e he
    rcases mem_put he with rfl | he
    · exact hleaf i rfl
    · exact hd e he
  | .node _, none | .node _, some _ => exact hd

theorem downNode_leavesIn {n : Nat} (hn : n < 7) (hd : d.LeavesIn) : (downNode t y m d n).LeavesIn := by
  unfold downNode
  split
  · split
    · exact downChild_leavesIn t y m hn true hd
    · exact downChild_leavesIn t y m hn false hd
    · exact downChild_leavesIn t y m hn false (downChild_leavesIn t y m hn true hd)
  · exact hd

/-- SPDN's derivatives of nodes and its contributions to leaves (R180). -/
def downPass : Down := [6, 5, 4, 3, 2, 1, 0].foldl (downNode t y m) { g := putD [] 6 (yGet y m t.root.toNat) 0 }

theorem downPass_leavesIn : (downPass t y m).LeavesIn :=
  List.foldlRecOn (motive := Down.LeavesIn) _ _ (fun _ he => absurd he List.not_mem_nil) fun _ hd n hn =>
    downNode_leavesIn t y m (by revert n; decide) hd

/-- Register `j` is of no leaf's derivative (R180). -/
def noLeafDerivative (j : Nat) : Prop := ∀ k < 8, ∀ i < 2, j ≠ ((treeLeaf t k + t.doff.toNat) % 4096 + i) % 4096

/-- Register `j` is of no weight's derivative (R180). -/
def noWeightDerivative (j : Nat) : Prop := ∀ n < 7, ∀ i < 4, j ≠ (treeWgt t n + treeWgt t 7 + i) % 4096

variable {j : Nat}

/-- One leaf's accumulation writes the registers of its derivative. -/
theorem lookD_accumY_leaf (h : noLeafDerivative t j) (x : Store (BitVec 32) × Flags) {k : Nat} (hk : k < 8) (a b : Val) :
    lookD (accumY m x ((treeLeaf t k + t.doff.toNat) % 4096) a b).1 j 0 = lookD x.1 j 0 :=
  lookD_accumY_other m x a b (by simpa using h k hk 0 (by decide)) (h k hk 1 (by decide))

/-- The accumulations of a node's two weights write the registers of their derivatives. -/
theorem lookD_accumY_weights (h : noWeightDerivative t j) (x : Store (BitVec 32) × Flags) {n : Nat} (hn : n < 7) (a b d e : Val) :
    let w := (treeWgt t n + treeWgt t 7) % 4096
    lookD (accumY m (accumY m x w a b) ((w + spStep m) % 4096) d e).1 j 0 = lookD x.1 j 0 := by
  have h0 := h n hn 0 (by decide)
  have h1 := h n hn 1 (by decide)
  have h2 := h n hn 2 (by decide)
  have h3 := h n hn 3 (by decide)
  intro w
  have hstep := spStep_one_or_two m
  exact (lookD_accumY_other m _ d e (by omega) (by omega)).trans (lookD_accumY_other m x a b (by omega) (by omega))

/-- SPDN changes no register but those of the derivatives of leaves and, with weight derivatives on, of weights. -/
theorem lookD_spdnEffect_other (hleaf : noLeafDerivative t j) (hwgt : wderiv t = true → noWeightDerivative t j) :
    lookD (spdnEffect t m y).1 j 0 = lookD y j 0 := by
  have hleaves : lookD ((downPass t y m).leaves.foldl (fun x e =>
      accumY m x ((treeLeaf t e.1 + t.doff.toNat) % 4096) e.2.1 e.2.2) (y, (downPass t y m).flags)).1 j 0 = lookD y j 0 :=
    List.foldlRecOn (motive := fun x : Store (BitVec 32) × Flags => lookD x.1 j 0 = lookD y j 0) _ _ rfl fun x hx e he =>
      (lookD_accumY_leaf t m hleaf x (downPass_leavesIn t y m e he) _ _).trans hx
  unfold spdnEffect
  dsimp only
  split
  · next hw =>
    refine List.foldlRecOn (motive := fun x : Store (BitVec 32) × Flags => lookD x.1 j 0 = lookD y j 0) _ _ hleaves
      fun x hx n hn => ?_
    split
    · exact (lookD_accumY_weights t m (hwgt hw) x (mem_activeNodes.1 hn).1 ..).trans hx
    · exact hx
  · exact hleaves
end

/-! What each instruction answers. -/

/-- A meaning whose first part stops, stops as it does. -/
theorem res_bind_of_error {α β : Type} {x : Res α} {z : Stop} (h : x = .error z) (g : α → Res β) :
    (x >>= g) = .error z := by
  rw [h]; rfl

section
variable {s : State} {c : Context} (h : runs s c) {o : SpRec}
include h

theorem execSpup_traps {x : Trap} (hc : checkRecord o.tree c.spmode false = .error (.trap x)) : execSpup o s = traps s c x :=
  runC_trap h (res_bind_of_error hc _)

theorem execSpup_becomes (hc : checkRecord o.tree c.spmode false = .ok ()) :
    execSpup o s = becomes s (((c.setY (spupEffect o.tree c.spmode c.y).1).addFlags
      (spupEffect o.tree c.spmode c.y).2).advanceRecord s.eng) :=
  runC_ok h (res_bind_of_ok hc _)

theorem execSpdn_traps {x : Trap} (hc : checkRecord o.tree c.spmode true = .error (.trap x)) : execSpdn o s = traps s c x :=
  runC_trap h (res_bind_of_error hc _)

theorem execSpdn_becomes (hc : checkRecord o.tree c.spmode true = .ok ()) :
    execSpdn o s = becomes s (((c.setY (spdnEffect o.tree c.spmode c.y).1).addFlags
      (spdnEffect o.tree c.spmode c.y).2).advanceRecord s.eng) :=
  runC_ok h (res_bind_of_ok hc _)
end

/-- The upward pass. -/
theorem upwardPass : UpwardPass := fun _ c o h =>
  ⟨fun _ hc => execSpup_traps h hc, fun hc => ⟨_, _, upValues o.tree c.y c.spmode, execSpup_becomes h hc,
    fun _ hn => lookD_upValues _ _ _ hn, yGet_spupEffect_root .., fun k _ => spupEffect_flags _ _ _ k,
    fun _ hj => lookD_spupEffect_other _ _ _ hj⟩⟩

/-- The downward pass. -/
theorem downwardPass : DownwardPass := fun _ _ _ h =>
  ⟨fun _ hc => execSpdn_traps h hc, fun hc => ⟨_, _, rfl, execSpdn_becomes h hc, fun _ hleaf hwgt =>
    lookD_spdnEffect_other _ _ _ hleaf hwgt⟩⟩

/-- Settles O35: SPUP's values node by node, and the registers that each pass writes one value after another. -/
theorem sumProductPasses : Obligations.SumProductPasses := ⟨upwardPass, downwardPass⟩

end Sys2Proof.Machine
end

section
/-!
Handles (R196 to R198): a mask as the set of its slots; where a handle that is not shared has its bits; HCFG, HSTAT and the
gates.
-/
namespace Sys2Proof.Machine
open Sys2Proof.Says

/-! Slots (R198). -/

/-- The first of the slots and those after it. -/
theorem amongSlots_succ (count first n i : Nat) :
    amongSlots count first (n + 1) i ↔ i = first % count ∨ amongSlots count (first + 1) n i := by
  constructor
  · rintro ⟨j, hj, rfl⟩
    cases j with
    | zero => exact .inl rfl
    | succ j => exact .inr ⟨j, by omega, by rw [Nat.add_assoc, Nat.add_comm 1 j]⟩
  · rintro (rfl | ⟨j, hj, rfl⟩)
    · exact ⟨0, n.succ_pos, rfl⟩
    · exact ⟨j + 1, by omega, by rw [Nat.add_assoc, Nat.add_comm 1 j]⟩

/-- All slots of a handle, from slot 0 on. -/
theorem amongSlots_all (count i : Nat) : amongSlots count 0 count i ↔ i < count := by
  constructor
  · rintro ⟨j, hj, rfl⟩
    exact Nat.mod_lt _ (by omega)
  · exact fun hi => ⟨i, hi, by rw [Nat.zero_add, Nat.mod_eq_of_lt hi]⟩

section
variable {count : Nat} (hpos : 0 < count) (hle : count ≤ 64)
include hpos hle

/-- A mask has the bits of its slots. -/
theorem getLsbD_slotMask (n i : Nat) : ∀ first, (slotMask count first n).getLsbD i = true ↔ amongSlots count first n i := by
  induction n with
  | zero => exact fun first => by simp [slotMask, amongSlots]
  | succ n ih =>
    intro first
    have hslot : first % count < 64 := Nat.lt_of_lt_of_le (Nat.mod_lt first hpos) hle
    have hone : (1#64 <<< (first % count)).getLsbD i = true ↔ i = first % count := by simp; omega
    rw [slotMask, BitVec.getLsbD_or, Bool.or_eq_true, hone, ih, amongSlots_succ]

variable (b : BitVec 64) (first n : Nat)

/-- Every slot of the mask is set. -/
theorem and_slotMask_eq_self_iff : (b &&& slotMask count first n == slotMask count first n) = true ↔
    ∀ i < 64, amongSlots count first n i → b.getLsbD i = true := by
  simp only [beq_iff_eq, BitVec.eq_of_getLsbD_eq_iff, BitVec.getLsbD_and, Bool.and_eq_right_iff_imp,
    getLsbD_slotMask hpos hle]

/-- No slot of the mask is set. -/
theorem and_slotMask_eq_zero_iff : (b &&& slotMask count first n == 0) = true ↔
    ∀ i < 64, amongSlots count first n i → b.getLsbD i = false := by
  have hzero (i : Nat) : (0 : BitVec 64).getLsbD i = false := BitVec.getLsbD_zero
  simp only [beq_iff_eq, BitVec.eq_of_getLsbD_eq_iff, BitVec.getLsbD_and, hzero, Bool.and_comm (b.getLsbD _),
    Bool.and_eq_false_imp, getLsbD_slotMask hpos hle]
end

/-! A handle that is not shared (R196). -/

/-- `c'` has `d` as handle `n`, and the registers, lines and recorded releases of `c`. -/
structure Rehandled (n : Nat) (d : Handle) (c c' : Context) : Prop where
  handle : c'.handle? n = some d
  regs : c'.r = c.r
  lines : c'.lines = c.lines
  releases : c'.releases = c.releases

/-- Purging what is owed of a handle's ends changes only what is owed. -/
theorem Context.purgeEnds_eq (c : Context) (n : Nat) : ∃ l, c.purgeEnds n = { c with owed := l } := by
  have hpurge (c : Context) (x : RegName) : ∃ l, c.purgeH x = { c with owed := l } := by
    unfold Context.purgeH; split <;> exact ⟨_, rfl⟩
  obtain ⟨_, hhead⟩ := hpurge c (.head n)
  obtain ⟨l, htail⟩ := hpurge (c.purgeH (.head n)) (.tail n)
  exact ⟨l, by rw [Context.purgeEnds, htail, hhead]⟩

/-- The handle once `n` slots from `first` are full. -/
def Handle.filled (d : Handle) (n first : Nat) : Handle :=
  { d with full := d.full ||| slotMask d.count first n, fillPend := d.fillPend &&& ~~~slotMask d.count first n }

/-- The handle once `n` slots from `first` are empty. -/
def Handle.drained (d : Handle) (n first : Nat) : Handle :=
  { d with full := d.full &&& ~~~slotMask d.count first n, clearPend := d.clearPend &&& ~~~slotMask d.count first n }

/-- The handle once ADVP has moved its tail past `n` slots that are still to fill. -/
def Handle.produced (d : Handle) (n : Nat) : Handle :=
  { d with fillPend := d.fillPend ||| slotMask d.count d.tail n, tail := (d.tail + n) % d.count }

/-- The handle once ADVC has moved its head past `n` slots that are still to empty. -/
def Handle.consumed (d : Handle) (n : Nat) : Handle :=
  { d with clearPend := d.clearPend ||| slotMask d.count d.head n, head := (d.head + n) % d.count }

section
variable {d : Handle} (hs : d.shared = false)
include hs

theorem hBits_of_unshared (s : State) (c : Context) (pos n : Nat) :
    hBits s c pos n d = ⟨d.full, d.fillPend, d.clearPend⟩ :=
  if_neg (by simp [hs])

/-- Marks alone wake nobody. -/
theorem setHBits_marks (s : State) (c : Context) (pos n : Nat) (p q : BitVec 64) : setHBits s c pos n d ⟨d.full, p, q⟩ =
    (s, { c with handles := put c.handles n { d with fillPend := p, clearPend := q } }) := by
  rw [setHBits, if_neg (by simp [hs])]
  exact congrArg (Prod.mk s) (if_pos rfl)

/-- The bits are the handle's own. -/
theorem setHBits_rehandles (s : State) (c : Context) (pos n : Nat) (b : HBits) : ∃ c', setHBits s c pos n d b = (s, c') ∧
    Rehandled n { d with full := b.full, fillPend := b.fillPend, clearPend := b.clearPend } c c' := by
  rw [setHBits, if_neg (by simp [hs])]
  refine ⟨_, rfl, ?_⟩
  split
  · exact ⟨find?_put_same .., rfl, rfl, rfl⟩
  · constructor <;> simp [Context.handle?]

variable {s : State} {c : Context} {k : Nat} (hk : c.handle? k = some d) (pos n first : Nat)
include hk

theorem applyRelease_fill :
    ∃ c', applyRelease pos (s, c) (.fill k n first) = (s, c') ∧ Rehandled k (d.filled n first) c c' := by
  simp only [applyRelease, hk, hBits_of_unshared hs]
  exact setHBits_rehandles hs ..

theorem applyRelease_drain :
    ∃ c', applyRelease pos (s, c) (.drain k n first) = (s, c') ∧ Rehandled k (d.drained n first) c c' := by
  simp only [applyRelease, hk, hBits_of_unshared hs]
  exact setHBits_rehandles hs ..
end

/-- A gate's end has moved, and its release takes effect with one program counter, and is recorded with the engines apart (R198). -/
theorem release_moved {pos k : Nat} {s : State} {r : Release} {d d' : Handle}
    (happly : ∀ {c : Context}, c.handle? k = some d → ∃ c', applyRelease pos (s, c) r = (s, c') ∧ Rehandled k d' c c')
    (c : Context) (hs : Store Handle) (e : Engine) :
    ∃ c', release pos s ({ c with handles := put hs k d }.purgeEnds k) e r = (s, c') ∧
      c'.handle? k = some (if c.together then d' else d) ∧ c'.r = c.r ∧ c'.lines = c.lines ∧
      c'.releases = if c.together then c.releases else c.releases ++ [⟨r, (c.pos.get e).idx, c.stamp⟩] := by
  obtain ⟨l, hl⟩ := Context.purgeEnds_eq { c with handles := put hs k d } k
  have hk : Context.handle? { c with handles := put hs k d, owed := l } k = some d := find?_put_same ..
  obtain ⟨c', hc', hset⟩ := happly hk
  have htog : Context.together { c with handles := put hs k d, owed := l } = c.together := rfl
  rw [hl, release, htog]
  cases c.together with
  | true => exact ⟨c', hc', hset.handle, hset.regs, hset.lines, hset.releases⟩
  | false => exact ⟨_, rfl, hk, rfl, rfl, rfl⟩

section
variable {d : Handle} (hpos : 0 < d.count) (hle : d.count ≤ 64) (n first i : Nat)
include hpos hle

theorem Handle.filled_full : (d.filled n first).full.getLsbD i = true ↔
    (d.full.getLsbD i = true ∨ amongSlots d.count first n i) := by
  rw [Handle.filled, BitVec.getLsbD_or, Bool.or_eq_true, getLsbD_slotMask hpos hle]

theorem Handle.drained_full (hi : i < 64) : (d.drained n first).full.getLsbD i = true ↔
    (d.full.getLsbD i = true ∧ ¬ amongSlots d.count first n i) := by
  rw [Handle.drained, BitVec.getLsbD_and, BitVec.getLsbD_not, ← getLsbD_slotMask hpos hle]
  simp [hi]
end

@[simp] theorem Context.advance_handle? (c : Context) (e : Engine) (k : Nat) : (c.advance e).handle? k = c.handle? k := by
  simp [Context.handle?]

/-! The gates (R198). -/

section
variable {c : Context} {o : GateOp}

theorem gateHandle_of_none (h1 : 1 ≤ o.n.toNat) (h64 : o.n.toNat ≤ 64) (hk : c.handle? o.h.toNat = none) :
    gateHandle c o = .error (.trap { code := .hndl }) := by
  rw [gateHandle, check_bind_true (by simp [h1, h64]), hk]
  rfl

theorem gateHandle_of_some {d : Handle} (h1 : 1 ≤ o.n.toNat) (hn : o.n.toNat ≤ d.count) (hle : d.count ≤ 64)
    (hk : c.handle? o.h.toNat = some d) : gateHandle c o = .ok d := by
  rw [gateHandle, check_bind_true (by simp [h1, Nat.le_trans hn hle]), hk]
  exact check_bind_true (decide_eq_true hn) ..
end

section
variable {s : State} {c : Context} (h : runs s c) {o : GateOp}
include h

theorem gates_trap {x : Trap} (hg : gateHandle c o = .error (.trap x)) : execWaitf o s = traps s c x ∧
    execWaite o s = traps s c x ∧ execAdvc o s = traps s c x ∧ execAdvp o s = traps s c x :=
  ⟨runC_trap h (res_bind_of_error hg _), runC_trap h (res_bind_of_error hg _), runS_trap h (res_bind_of_error hg _),
    runS_trap h (res_bind_of_error hg _)⟩

variable {d : Handle} (hg : gateHandle c o = .ok d) (hs : d.shared = false)
include hg hs

theorem execWaitf_passes (hfull : (d.full &&& slotMask d.count d.head o.n.toNat == slotMask d.count d.head o.n.toNat) = true) :
    execWaitf o s = passes s c := by
  refine runC_ok h ?_
  rw [res_bind_of_ok hg, hBits_of_unshared hs, await_bind_true hfull]

theorem execWaitf_waits (hfull : (d.full &&& slotMask d.count d.head o.n.toNat == slotMask d.count d.head o.n.toNat) = false) :
    execWaitf o s = waits s := by
  refine runC_wait h ?_
  rw [res_bind_of_ok hg, hBits_of_unshared hs, await_bind_false hfull]

theorem execWaite_passes (hempty : (d.full &&& slotMask d.count d.tail o.n.toNat == 0) = true) :
    execWaite o s = passes s c := by
  refine runC_ok h ?_
  rw [res_bind_of_ok hg, hBits_of_unshared hs, await_bind_true hempty]

theorem execWaite_waits (hempty : (d.full &&& slotMask d.count d.tail o.n.toNat == 0) = false) :
    execWaite o s = waits s := by
  refine runC_wait h ?_
  rw [res_bind_of_ok hg, hBits_of_unshared hs, await_bind_false hempty]

theorem execAdvc_traps (hfull : (d.full &&& slotMask d.count d.head o.n.toNat == slotMask d.count d.head o.n.toNat) = false) :
    execAdvc o s = traps s c { code := .hndl } := by
  refine runS_trap h ?_
  rw [res_bind_of_ok hg]
  dsimp only
  rw [hBits_of_unshared hs, check_bind_false (by simp only [hfull, Bool.false_and])]

theorem execAdvp_traps (hempty : (d.full &&& slotMask d.count d.tail o.n.toNat == 0) = false) :
    execAdvp o s = traps s c { code := .hndl } := by
  refine runS_trap h ?_
  rw [res_bind_of_ok hg]
  dsimp only
  rw [hBits_of_unshared hs, check_bind_false (by simp only [hempty, Bool.false_and])]

/-- ADVP moves the tail at once, and fills the slots at once or records it. -/
theorem execAdvp_moves (hempty : (d.full &&& slotMask d.count d.tail o.n.toNat == 0) = true)
    (hfree : ((d.fillPend ||| d.clearPend) &&& slotMask d.count d.tail o.n.toNat == 0) = true) :
    ∃ c', execAdvp o s = passes s c' ∧ c'.handle? o.h.toNat = some (if c.together then
      (d.produced o.n.toNat).filled o.n.toNat d.tail else d.produced o.n.toNat) ∧ c'.r = c.r ∧ c'.lines = c.lines ∧
      c'.releases = if c.together then c.releases
        else c.releases ++ [⟨.fill o.h.toNat o.n.toNat d.tail, (c.pos.get s.eng).idx, c.stamp⟩] := by
  obtain ⟨c', hrel, hmoved⟩ := release_moved (pos := s.cur) (s := s) (r := .fill o.h.toNat o.n.toNat d.tail)
    (fun hk => applyRelease_fill (d := d.produced o.n.toNat) hs hk ..) c
    (put c.handles o.h.toNat { d with fillPend := d.fillPend ||| slotMask d.count d.tail o.n.toNat }) s.eng
  refine ⟨c', runS_ok h ?_, hmoved⟩
  rw [res_bind_of_ok hg]
  dsimp only
  rw [hBits_of_unshared hs, check_bind_true (by simp only [hempty, hfree, Bool.true_and])]
  dsimp only
  rw [setHBits_marks hs]
  simp only [Context.handle?, find?_put_same, Option.getD_some]
  exact congrArg (fun x : State × Context => Except.ok (x.1.setCtx s.cur (x.2.advance s.eng))) hrel

/-- ADVC moves the head at once, and empties the slots at once or records it. -/
theorem execAdvc_moves (hfull : (d.full &&& slotMask d.count d.head o.n.toNat == slotMask d.count d.head o.n.toNat) = true)
    (hfree : ((d.fillPend ||| d.clearPend) &&& slotMask d.count d.head o.n.toNat == 0) = true) :
    ∃ c', execAdvc o s = passes s c' ∧ c'.handle? o.h.toNat = some (if c.together then
      (d.consumed o.n.toNat).drained o.n.toNat d.head else d.consumed o.n.toNat) ∧ c'.r = c.r ∧ c'.lines = c.lines ∧
      c'.releases = if c.together then c.releases
        else c.releases ++ [⟨.drain o.h.toNat o.n.toNat d.head, (c.pos.get s.eng).idx, c.stamp⟩] := by
  obtain ⟨c', hrel, hmoved⟩ := release_moved (pos := s.cur) (s := s) (r := .drain o.h.toNat o.n.toNat d.head)
    (fun hk => applyRelease_drain (d := d.consumed o.n.toNat) hs hk ..) c
    (put c.handles o.h.toNat { d with clearPend := d.clearPend ||| slotMask d.count d.head o.n.toNat }) s.eng
  refine ⟨c', runS_ok h ?_, hmoved⟩
  rw [res_bind_of_ok hg]
  dsimp only
  rw [hBits_of_unshared hs, check_bind_true (by simp only [hfull, hfree, Bool.true_and])]
  dsimp only
  rw [setHBits_marks hs]
  simp only [Context.handle?, find?_put_same, Option.getD_some]
  exact congrArg (fun x : State × Context => Except.ok (x.1.setCtx s.cur (x.2.advance s.eng))) hrel
end

/-- The gates pass, wait, move the ends and raise HNDL as R198 says. -/
theorem handleGates : HandleGates := by
  intro s c o d h k n
  simp only [exec]
  refine ⟨fun h1 h64 hk => gates_trap h (gateHandle_of_none h1 h64 hk), fun h1 hn hle hk hs => ?_⟩
  have hpos : 0 < d.count := by omega
  have hg := gateHandle_of_some h1 hn hle hk
  have hfull := and_slotMask_eq_self_iff hpos hle d.full d.head n
  have hempty := and_slotMask_eq_zero_iff hpos hle d.full d.tail n
  have hfree := and_slotMask_eq_zero_iff hpos hle (d.fillPend ||| d.clearPend)
  refine ⟨fun hall => execWaitf_passes h hg hs (hfull.2 hall), fun ⟨i, hi, hin, hoff⟩ => ?_,
    fun hall => execWaite_passes h hg hs (hempty.2 hall), fun ⟨i, hi, hin, hon⟩ => ?_, fun hall => ?_, fun hall => ?_⟩
  · have hnot := Bool.eq_false_iff.2 fun hf => Bool.false_ne_true (hoff.symm.trans (hfull.1 hf i hi hin))
    exact ⟨execWaitf_waits h hg hs hnot, execAdvc_traps h hg hs hnot⟩
  · have hnot := Bool.eq_false_iff.2 fun he => Bool.false_ne_true ((hempty.1 he i hi hin).symm.trans hon)
    exact ⟨execWaite_waits h hg hs hnot, execAdvp_traps h hg hs hnot⟩
  · obtain ⟨c', hexec, hk', hr, hlines, hrel⟩ := execAdvp_moves h hg hs (hempty.2 fun i hi hin => (hall i hi hin).1)
      ((hfree _ _).2 fun i hi hin => by simp [hall i hi hin])
    refine ⟨_, c'.advance s.eng, _, hexec, State.ctx?_setCtx_same .., (c'.advance_handle? ..).trans hk', ?_⟩
    cases ht : c.together with
    | true => exact ⟨rfl, rfl, by simpa using hr, by simpa using hlines, rfl,
        fun _ => ⟨by simpa [ht] using hrel, fun i _ => (d.produced n).filled_full hpos hle ..⟩, nofun⟩
    | false => exact ⟨rfl, rfl, by simpa using hr, by simpa using hlines, rfl, nofun,
        fun _ => ⟨rfl, by simpa [ht] using hrel⟩⟩
  · obtain ⟨c', hexec, hk', hr, hlines, hrel⟩ := execAdvc_moves h hg hs (hfull.2 fun i hi hin => (hall i hi hin).1)
      ((hfree _ _).2 fun i hi hin => by simp [hall i hi hin])
    refine ⟨_, c'.advance s.eng, _, hexec, State.ctx?_setCtx_same .., (c'.advance_handle? ..).trans hk', ?_⟩
    cases ht : c.together with
    | true => exact ⟨rfl, rfl, by simpa using hr, by simpa using hlines, rfl,
        fun _ => ⟨by simpa [ht] using hrel, fun i hi => Handle.drained_full (d := d.consumed n) hpos hle _ _ _ hi⟩, nofun⟩
    | false => exact ⟨rfl, rfl, by simpa using hr, by simpa using hlines, rfl, nofun,
        fun _ => ⟨rfl, by simpa [ht] using hrel⟩⟩

/-! HCFG and HSTAT (R196, R197). -/

/-- Purging what is owed of a handle's ends leaves the handles, the registers and the lines. -/
theorem Context.purgeEnds_keeps (c : Context) (k : Nat) : (c.purgeEnds k).handles = c.handles ∧ (c.purgeEnds k).r = c.r ∧
    (c.purgeEnds k).lines = c.lines := by
  obtain ⟨l, hl⟩ := c.purgeEnds_eq k
  rw [hl]
  exact ⟨rfl, rfl, rfl⟩

/-- The line after a handle's last slot. -/
def Handle.endLine (d : Handle) : Nat := d.base + d.count * d.size

/-- The slots that HCFG's descriptor begins with. -/
theorem hcfgHandle_full (v : Word) (p q : Engine) (i : Nat) :
    (hcfgHandle v p q).full.getLsbD i = (v.getLsbD 23 && decide (i < v.toNat / 2 ^ 17 % 2 ^ 6 + 1)) := by
  have hle : v.toNat / 2 ^ 17 % 2 ^ 6 + 1 ≤ 64 := by omega
  have hmask := getLsbD_slotMask (Nat.succ_pos _) hle (v.toNat / 2 ^ 17 % 2 ^ 6 + 1) i 0
  rw [amongSlots_all, ← decide_eq_true_iff (p := i < _), ← Bool.eq_iff_iff] at hmask
  rw [← hmask, hcfgHandle, bitsOf]
  cases v.getLsbD 23 with
  | false => exact BitVec.getLsbD_zero
  | true => exact (Bool.true_and _).symm

section
variable {s : State} {c : Context} {o : HcfgOp} {v : Word} (hrel : c.releases = []) (hv : c.rdS s.eng o.a = v)
  (hres : v.toNat / 2 ^ 31 = 0) (hen : v.getLsbD 30 = true) {p q : Engine}
  (hp : Engine.ofCode (bitsOf v.toNat 24 3) = some p) (hq : Engine.ofCode (bitsOf v.toNat 27 3) = some q)
include hrel hv hres hen hp hq

/-- Of a descriptor of two engines, HCFG still checks that the number is not shared and that the slots lie in the window. -/
theorem execHcfg_checks : let d := hcfgHandle v p q
    ∃ f, execHcfg o s = runC s f ∧ f s.eng c =
      (check (!isShared c o.h.toNat && d.endLine ≤ 64 * c.bind.window) .hndl >>= fun _ =>
        .ok (({ c with handles := put c.handles o.h.toNat d }.purgeEnds o.h.toNat).advance s.eng)) := by
  refine ⟨_, rfl, ?_⟩
  subst hv
  rw [await_bind_true (by rw [hrel]; rfl)]
  dsimp only
  rw [check_bind_true (beq_iff_eq.2 ((bitsOf_top_eq_zero _ rfl).2 hres)), if_pos hen, hp, hq]
  rfl

variable (h : runs s c)
include h

theorem execHcfg_configures (hok : isShared c o.h.toNat = false) (hfits : (hcfgHandle v p q).endLine ≤ 64 * c.bind.window) :
    execHcfg o s = passes s ({ c with handles := put c.handles o.h.toNat (hcfgHandle v p q) }.purgeEnds o.h.toNat) := by
  obtain ⟨f, hf, hfc⟩ := execHcfg_checks hrel hv hres hen hp hq
  rw [hf]
  exact runC_ok h (hfc.trans (check_bind_true (by simpa [hok] using hfits) ..))

theorem execHcfg_traps (hover : 64 * c.bind.window < (hcfgHandle v p q).endLine) : execHcfg o s = traps s c { code := .hndl } := by
  obtain ⟨f, hf, hfc⟩ := execHcfg_checks hrel hv hres hen hp hq
  rw [hf]
  exact runC_trap h (hfc.trans (check_bind_false (by simpa using fun _ => hover) ..))
end

section
variable {s : State} {c : Context} (h : runs s c) (hrel : c.releases = [])
include h hrel

theorem execHcfg_removes {o : HcfgOp} (hv : c.rdS s.eng o.a = 0) (hok : isShared c o.h.toNat = false) :
    execHcfg o s = passes s ({ c with handles := del c.handles o.h.toNat }.purgeEnds o.h.toNat) := by
  refine runC_ok h ?_
  rw [await_bind_true (by rw [hrel]; rfl), hv]
  dsimp only
  rw [check_bind_true (b := bitsOf (0 : Word).toNat 31 33 == 0) rfl, if_neg (by decide),
    check_bind_true (b := (0 : Word).toNat == 0) rfl, check_bind_true (by rw [hok]; rfl)]

theorem execHstat_writes (x : HstatOp) : execHstat x s = writes s c x.d (hstatWord s c s.cur x.h.toNat) :=
  runC_ok h (await_bind_true (by rw [hrel]; rfl) _)
end

/-- HSTAT counts bits as POPC does. -/
theorem countBits_eq_popCount (b : BitVec 64) (n : Nat) : countBits b n = popCount b n := by
  induction n with
  | zero => rfl
  | succ n ih => rw [countBits, popCount, ih]

theorem hstatWord_of_none {s : State} {c : Context} {k : Nat} (hk : c.handle? k = none) (pos : Nat) :
    hstatWord s c pos k = 0 := by
  rw [hstatWord, hk]

theorem hstatWord_of_unshared {s : State} {c : Context} {k : Nat} {d : Handle} (hk : c.handle? k = some d)
    (hs : d.shared = false) (pos : Nat) : hstatWord s c pos k = BitVec.ofNat 64
      (d.head + d.tail * 2 ^ 8 + ((List.range 64).countP fun i => d.full.getLsbD i) * 2 ^ 16 + 2 ^ 32) := by
  have hcount : countBits (hBits s c pos k d).full 64 = (List.range 64).countP fun i => d.full.getLsbD i := by
    rw [hBits_of_unshared hs, countBits_eq_popCount, popCount_eq_countP]
  simp only [hstatWord, hk, hcount, hs, Bool.false_eq_true, if_false, Nat.add_zero]

/-- HCFG and HSTAT do what R196 and R197 say. -/
theorem handleConfiguration : HandleConfiguration := by
  intro s c o x p q h hrel v k base size count
  simp only [exec]
  have hbase : (hcfgHandle v p q).base = base := by simp [hcfgHandle, bitsOf, base]
  have hend : (hcfgHandle v p q).endLine = base + count * size := congrArg (· + count * size) hbase
  have hkept (hs : Store Handle) : let c' := ({ c with handles := hs }.purgeEnds k).advance s.eng
      c'.handles = hs ∧ c'.r = c.r ∧ c'.lines = c.lines := by
    simpa using Context.purgeEnds_keeps { c with handles := hs } k
  refine ⟨fun hres hen hp hq hok => ⟨fun hfits => ?_, fun hover => ?_⟩, fun hv hok => ?_, fun hk => ?_, fun d hk hs => ?_⟩
  · obtain ⟨hh, hr, hlines⟩ := hkept (put c.handles k (hcfgHandle v p q))
    exact ⟨_, hcfgHandle v p q, execHcfg_configures hrel rfl hres hen hp hq h hok (hend ▸ hfits),
      by rw [Context.handle?, hh, find?_put_same], hbase, rfl, rfl, rfl, rfl, rfl, rfl, rfl, rfl, rfl,
      fun i _ => hcfgHandle_full v p q i,
      fun j hj => by rw [Context.handle?, hh, find?_put_other _ _ _ _ hj, Context.handle?], hr, hlines⟩
  · exact execHcfg_traps hrel rfl hres hen hp hq h (hend ▸ hover)
  · obtain ⟨hh, hr, hlines⟩ := hkept (del c.handles k)
    exact ⟨_, execHcfg_removes h hrel hv hok, by rw [Context.handle?, hh, find?_del_same],
      fun j hj => by rw [Context.handle?, hh, find?_del_other _ _ _ hj, Context.handle?], hr, hlines⟩
  · rw [execHstat_writes h hrel, hstatWord_of_none hk]
  · rw [execHstat_writes h hrel, hstatWord_of_unshared hk hs]

/-- Settles O37: HCFG, HSTAT and the gates, each by the rule of its answer; a mask of slots is read as the set of them. -/
theorem handles : Obligations.Handles := ⟨handleConfiguration, handleGates⟩

end Sys2Proof.Machine
end

section
/-!
SBAR of an engine that walks apart from the others (R201): what `ReleasesAndTokens` overlooks.
-/
namespace Sys2Proof.Machine
open Sys2Proof.Says

/-- A context becomes one context. -/
theorem becomes_inj {s : State} {c c' : Context} (h : becomes s c = becomes s c') : c = c' := by
  have hctx := congrArg (·.ctx? s.cur) (Host.Outcome.next.inj h)
  simpa using hctx

section
variable {s : State} {c : Context} (h : runs s c) {m : BitVec 3} (hm : m ≠ 0) (ht : c.together = false)
include h hm ht

/-- Apart from the other engines, SBAR leaves a record of its place and its streams, which holds the accesses after it (R201). -/
theorem execSbar_apart :
    execSbar m s = becomes s
      ({ c with bars := c.bars ++ [({ idx := (c.pos.get s.eng).idx, mask := m } : Bar)] }.advance s.eng) := by
  refine runC_ok h ?_
  rw [check_bind_true (bne_iff_ne.2 hm), if_neg (by simp [ht])]

/-- Such an SBAR does more than pass. -/
theorem execSbar_apart_ne_passes : execSbar m s ≠ passes s c := by
  rw [execSbar_apart h hm ht]
  intro hpasses
  have hbars := congrArg Context.bars (becomes_inj hpasses)
  simp at hbars
end

/-- Refutes O38: Tokens says that SBAR of a stream passes and does nothing else, but where the engines walk apart it also leaves
its record (R201). The counterexample is SBAR of stream 0 by a task with SPAN 1. -/
theorem not_releasesAndTokens : ¬ Obligations.ReleasesAndTokens := by
  rintro ⟨-, htokens⟩
  have hruns : runs { ctxs := [(0, { r := { span := 1 } })] } { r := { span := 1 } } := rfl
  obtain ⟨-, -, -, -, -, -, hpasses⟩ := htokens _ _ ⟨.ctl, .vec, 1⟩ 1 hruns
  exact execSbar_apart_ne_passes hruns (by decide) (by decide) (hpasses (by decide))

end Sys2Proof.Machine
end

section
/-!
Fetch-and-ops (R188, R275 to R278): what puts a request on its way, and what performing the request of a context does where it
is homed on the context's own die.
-/
namespace Sys2Proof.Machine
open Sys2Proof.Says

/-! A request on its way. -/

theorem noteTrans_m (core root : Nat) (s : State) (t : Trans) : (noteTrans core root s t).m = s.m := by
  unfold noteTrans; dsimp only; split <;> rfl

@[simp] theorem State.noteParts_m (s : State) (w : Who) (ps : List Part) : (s.noteParts w ps).m = s.m :=
  foldl_keeps State.m (by exact fun s p => noteTrans_m w.core w.root s p.t) ps s

@[simp] theorem addReq_ctx? (s : State) (r : Req) (p : Nat) : (addReq s r).ctx? p = s.ctx? p := by
  unfold addReq takeId; dsimp only; split <;> rfl

/-- The request stands at the next free number. -/
theorem addReq_reqs (s : State) (r : Req) : find? (addReq s r).reqs s.m.nextReq = some r := by
  unfold addReq takeId; dsimp only; split <;> exact find?_put_same ..

section
variable {s : State} {c : Context} (h : runs s c) {o : MA}
include h

theorem execAtom_leaves {ps : List Part} (hps : atomCheck s c o (c.rdS s.eng o.a).toNat = .ok ps) (hop : o.aop = .cas ∨ o.c = 0)
    (hatom : atomOut s c = false) (hsent : hasSent s c s.eng = false) {q : Req}
    (hq : q = ctxReq s c o false s.eng (c.rdS s.eng o.a).toNat (partLoc ps) ((c.rdS s.eng o.b).toNat % 2 ^ aopWidth o.w64)
      ((c.rdS s.eng o.c).toNat % 2 ^ aopWidth o.w64))
    (hroom : roomFor s q = true) : execAtom o s = .next (addReq (s.noteParts (c.who s.cur) ps) q) := by
  subst hq
  refine runS_ok h ?_
  rw [check_bind_true (by simpa using hop), await_bind_true (by simp [hatom, hsent]), res_bind_of_ok hps, await_bind_true hroom]

theorem execAtom_waits (hop : o.aop = .cas ∨ o.c = 0) (hout : atomOut s c = true ∨ hasSent s c s.eng = true) :
    execAtom o s = waits s := by
  refine runS_wait h ?_
  rw [check_bind_true (by simpa using hop), await_bind_false]
  rcases hout with hout | hout <;> simp [hout]

theorem execRed_leaves {ps : List Part} (hps : atomCheck s c o (c.rdS s.eng o.a).toNat = .ok ps)
    (hop : o.aop ≠ .cas) (hc : o.c = 0) (hd : o.d = 0) (hsent : hasSent s c s.eng = false) {r : Req}
    (hr : r = ctxReq s c o true s.eng (c.rdS s.eng o.a).toNat (partLoc ps) ((c.rdS s.eng o.b).toNat % 2 ^ aopWidth o.w64) 0)
    (hroom : roomFor s r = true) :
    execRed o s = .next (if c.together then addReq (s.noteParts (c.who s.cur) ps) r
      else (addReq (s.noteParts (c.who s.cur) ps) r).setCtx s.cur (c.advance s.eng)) := by
  subst hr
  refine runS_ok h ?_
  rw [check_bind_true (by simp [hop, hc, hd]), await_bind_true (by simp [hsent]), res_bind_of_ok hps, await_bind_true hroom]

theorem execRed_waits (hop : o.aop ≠ .cas) (hc : o.c = 0) (hd : o.d = 0) (hsent : hasSent s c s.eng = true) :
    execRed o s = waits s := by
  refine runS_wait h ?_
  rw [check_bind_true (by simp [hop, hc, hd]), await_bind_false (by simp [hsent])]

theorem execRed_traps (hbad : o.aop = .cas ∨ o.c ≠ 0 ∨ o.d ≠ 0) : execRed o s = traps s c { code := .illop } := by
  refine runS_trap h (check_bind_false ?_ ..)
  rcases hbad with hop | hc | hd
  · rw [hop]; rfl
  · rw [beq_false_of_ne hc, Bool.and_false, Bool.false_and]
  · rw [beq_false_of_ne hd, Bool.and_false]
end

/-! A request at its home (R276). -/

/-- The bytes of a number bound it. -/
theorem Memory.readN_lt (m : Memory) (n : Nat) : ∀ a, m.readN a n < 2 ^ (8 * n) := by
  induction n with
  | zero => intro a; simp [Memory.readN]
  | succ n ih =>
    intro a
    have hbyte := (m.read a).isLt
    have hrest := ih (a + 1)
    rw [Memory.readN, show 8 * (n + 1) = 8 * n + 8 by omega, Nat.pow_add]
    omega

theorem aopWidth_bytes (w64 : Bool) : 8 * (aopWidth w64 / 8) = aopWidth w64 := by cases w64 <;> rfl

/-- A fetch-and-op leaves its new value, also where a CAS fails. -/
theorem readN_atomicAt (m : Memory) (loc : Nat) (op : Aop) (w64 : Bool) (b c : Nat) :
    (atomicAt m loc op w64 b c).1.readN loc (aopWidth w64 / 8) =
      aopNew op w64 (m.readN loc (aopWidth w64 / 8)) b c % 2 ^ aopWidth w64 := by
  unfold atomicAt
  dsimp only
  split
  · next hfails =>
    obtain ⟨rfl, hne⟩ := hfails
    have hlt := m.readN_lt (aopWidth w64 / 8) loc
    rw [aopWidth_bytes] at hlt
    rw [aopNew, if_neg hne, Nat.mod_eq_of_lt hlt]
  · rw [Memory.readN_writeN, aopWidth_bytes]

/-- A fetch-and-op changes no byte outside its location. -/
theorem read_atomicAt_outside (m : Memory) {loc l : Nat} (op : Aop) (w64 : Bool) (b c : Nat)
    (hl : l < loc ∨ loc + aopWidth w64 / 8 ≤ l) : (atomicAt m loc op w64 b c).1.read l = m.read l := by
  unfold atomicAt
  dsimp only
  split
  · rfl
  · exact Memory.read_writeN_outside _ _ _ _ _ hl

/-- The machine once the location of a request has its new value and the request is on its way no longer. -/
def State.afterOp (s : State) (i : Nat) (r : Req) : State :=
  { s with reqs := del s.reqs i, mem := (atomicAt s.mem r.loc r.aop r.w64 r.b r.c).1 }

/-- The home of a request of its own die changes memory alone. -/
theorem homeStep_of_local {r : Req} (hword : r.word = none) (hext : r.ext = false) (hrem : r.remote = false) (s : State) :
    homeStep s r = ({ s with mem := (atomicAt s.mem r.loc r.aop r.w64 r.b r.c).1 }, s.mem.readN r.loc (aopWidth r.w64 / 8)) := by
  simp only [homeStep, hword, hext, keepReceipt, hrem]
  rfl

/-- A request of its own die that its home performs for the first time. -/
theorem performReq_of_local {s : State} {i : Nat} {r : Req} (hfind : find? s.reqs i = some r) (hback : r.back = none)
    (hword : r.word = none) (hext : r.ext = false) (hrem : r.remote = false) (hbad : isBad s r.loc = false) :
    performReq s i = if r.red then finishReds (s.afterOp i r) r.asker
      else sendBack (s.afterOp i r) i r (s.mem.readN r.loc (aopWidth r.w64 / 8)) := by
  unfold performReq
  rw [hfind]
  dsimp only
  rw [hback]
  dsimp only
  rw [if_neg (by simp [hbad]), homeStep_of_local hword hext hrem]
  rfl

/-- A RED that was not combined is the only one performed. -/
theorem finishReds_ctx {a : Asker} {lid wid slot addr idx : Nat} {d : Reg} {red : Bool}
    (ha : a = .ctx lid wid d red slot addr idx) (s : State) :
    finishReds s a = updTask s lid wid fun x => x.redPassed idx := by
  have hkept : s.parts.filter (fun e => !([] : List Nat).contains e.1) = s.parts := List.filter_eq_self.2 fun _ _ => rfl
  subst ha
  exact congrArg (fun ps => updTask { s with parts := ps } lid wid fun x => x.redPassed idx) hkept

/-- The old value reaches an ATOM at once where its request takes no circuit. -/
theorem sendBack_ctx {s : State} {r : Req} (hcirc : reqCirc? s r = none) {lid wid slot addr idx : Nat} {d : Reg}
    (hasker : r.asker = .ctx lid wid d false slot addr idx) (i x : Nat) :
    sendBack s i r x = updTask s lid wid fun y => atomDone y d x := by
  simp [sendBack, hasker, settleReds, hcirc, deliverReply]

section
variable {s : State} {c : Context} (h : runs s c) {o : MA} {a loc b cc i : Nat}

/-- A request of a context to its own die takes no circuit. -/
theorem reqCirc?_ctxReq {red : Bool} (hrem : (ctxReq s c o red s.eng a loc b cc).remote = false) (t : State) :
    reqCirc? t (ctxReq s c o red s.eng a loc b cc) = none :=
  if_neg (by simpa using hrem)

/-- The home performs the request of a context of its own die. -/
theorem execAtomicAtHome_performs {r : Req} (hfind : find? s.reqs i = some r) (hmoves : reqMoves s r = true)
    (hfree : heldBehind s [i] (i, r) = false) : execAtomicAtHome i s = .next (performReq s i) := by
  unfold execAtomicAtHome
  rw [hfind]
  dsimp only
  rw [if_pos (by simp [hmoves, hfree])]

include h

theorem execAtomicAtHome_ctxReq {red : Bool} {r : Req} (hr : r = ctxReq s c o red s.eng a loc b cc)
    (hrem : r.remote = false) (hbad : isBad s loc = false) (hfind : find? s.reqs i = some r)
    (hfree : heldBehind s [i] (i, r) = false) :
    ∃ t, execAtomicAtHome i s = .next t ∧ t.mem = (atomicAt s.mem loc o.aop o.w64 b cc).1 ∧ find? t.reqs i = none ∧
      t.ctx? s.cur = some (if red then c.redPassed (c.posOf s.eng).idx
        else atomDone c o.d (s.mem.readN loc (aopWidth o.w64 / 8))) := by
  have hcirc : ∀ t, reqCirc? t r = none := by subst hr; exact reqCirc?_ctxReq hrem
  refine ⟨_, execAtomicAtHome_performs hfind (by rw [reqMoves, hcirc]) hfree, ?_⟩
  have hctx : (s.afterOp i r).ctx? s.cur = some c := h
  rw [performReq_of_local hfind (hr ▸ rfl) (hr ▸ rfl) (hr ▸ rfl) hrem (by subst hr; exact hbad)]
  cases red with
  | false =>
    rw [if_neg (by simp [hr, ctxReq]), sendBack_ctx (hcirc _) (by rw [hr, ctxReq])]
    subst hr
    exact ⟨rfl, find?_del_same .., updTask_ctx?_own hctx _⟩
  | true =>
    rw [if_pos (by simp [hr, ctxReq]), finishReds_ctx (by rw [hr, ctxReq])]
    subst hr
    exact ⟨rfl, find?_del_same .., updTask_ctx?_own hctx _⟩
end

/-- Settles O40: what each instruction answers, and what the home does with the request that it sent. -/
theorem fetchAndOperate : Obligations.FetchAndOperate := by
  intro s c o ps h w a x b cmp did q r leaves hps
  simp only [exec]
  have hstands (p : Req) : find? (addReq (s.noteParts (c.who s.cur) ps) p).reqs s.m.nextReq = some p := by
    simpa using addReq_reqs (s.noteParts (c.who s.cur) ps) p
  have hctx (p : Req) : (addReq (s.noteParts (c.who s.cur) ps) p).ctx? s.cur = some c := by
    simpa using show s.ctx? s.cur = some c from h
  have hdid {t : State} {z : Nat} (hmem : t.mem = (atomicAt s.mem (partLoc ps) o.aop o.w64 b z).1) : did t z := by
    simp only [did, hmem]
    exact ⟨readN_atomicAt .., fun l hl => read_atomicAt_outside _ _ _ _ _ hl⟩
  refine ⟨fun hop hatom hsent hroom => ?_, execAtom_waits h, fun hop hc hd hsent hroom => ?_,
    fun hop hc hd => execRed_waits h hop hc hd, execRed_traps h, fun i hbad hrem => ⟨fun hfind hfree => ?_, fun hfind hfree => ?_⟩⟩
  · exact ⟨_, execAtom_leaves h hps hop hatom hsent rfl hroom, by simp, hctx q, hstands q⟩
  · refine ⟨_, execRed_leaves h hps hop hc hd hsent rfl hroom, ?_⟩
    cases c.together with
    | true => exact ⟨by simp, hctx r, hstands r⟩
    | false => exact ⟨by simp, State.ctx?_setCtx_same .., hstands r⟩
  · obtain ⟨t, hstep, hmem, hgone, hdone⟩ := execAtomicAtHome_ctxReq h (r := q) rfl hrem hbad hfind hfree
    exact ⟨t, hstep, hdid hmem, hgone, hdone⟩
  · obtain ⟨t, hstep, hmem, hgone, hdone⟩ := execAtomicAtHome_ctxReq h (r := r) rfl hrem hbad hfind hfree
    exact ⟨t, hstep, hdid hmem, hgone, hdone⟩

end Sys2Proof.Machine
end

section
/-!
BAR and PHASE (R221 to R223): what an arrival leaves, and what a barrier that completes makes of a member that waits at it.
-/
namespace Sys2Proof.Machine
open Sys2Proof.Says

/-- While no engine has a version to come, a scalar reads as what it holds. -/
theorem Context.rdS_of_owed_nil {c : Context} (h : c.owed = []) (e : Engine) (r : Reg) : c.rdS e r = held c r := by
  have hseen : c.seen e (.s r.toNat) = (lookD c.r.s r.toNat 0).toNat := by
    rw [Context.seen, h]
    exact ite_self _
  rw [Context.rdS, hseen, BitVec.ofNat_toNat, BitVec.setWidth_eq, held]

/-! The tasks of a launch, changed (R222, R223). -/

/-- A change of a launch's tasks is made of each of its contexts. -/
theorem updLaunchTasks_ctx?_own {s : State} {p lid : Nat} {c : Context} (h : s.ctx? p = some c) (hlid : c.bind.lid = lid)
    (f : Context → Context) : (updLaunchTasks s lid f).ctx? p = some (f c) := by
  rw [State.ctx?] at h
  rw [State.ctx?, updLaunchTasks, find?_map_if s.ctxs (fun x => x.bind.lid == lid) f, h]
  simp [hlid]

/-- A member that waits at a barrier leaves it when the barrier completes. -/
theorem releaseBar_ctx?_waiting {s : State} {p lid k g : Nat} {c : Context} {l : Launch} (h : s.ctx? p = some c)
    (hlid : c.bind.lid = lid) (hwait : c.barWait = some k) (hgroup : barGroup l c.bind.wid k = g) :
    (releaseBar s l lid k g).ctx? p = some c.leaveBar := by
  rw [releaseBar, updLaunchTasks_ctx?_own h hlid]
  simp [hwait, hgroup]

/-- Gathering teams changes of a context at most whether it is to be pre-empted. -/
theorem gatherTeams_ctx? {s : State} {p : Nat} {c : Context} (h : s.ctx? p = some c) (lid : Nat) (l : Launch) :
    ∃ b, (gatherTeams s lid l).ctx? p = some { c with preempting := b } := by
  rw [State.ctx?] at h
  rw [State.ctx?, gatherTeams,
    find?_map_if s.ctxs (fun x => x.bind.lid == lid && scattered s lid l (l.teamOf x.bind.wid))
      (fun x => { x with preempting := true }), h]
  dsimp only [Option.map_some]
  split
  · exact ⟨true, rfl⟩
  · exact ⟨c.preempting, rfl⟩

/-- The launch counts its new phase, and each of its contexts enters it (R223). -/
theorem newPhase_enters {s : State} {p lid : Nat} {c : Context} (h : s.ctx? p = some c) (hlid : c.bind.lid = lid)
    (l : Launch) : ∃ l' b, (newPhase s l lid).launch? lid = some l' ∧ l'.phase = l.phase + 1 ∧
      (newPhase s l lid).ctx? p = some { enterPhase l' c with preempting := b } := by
  obtain ⟨b, hb⟩ := gatherTeams_ctx? (updLaunchTasks_ctx?_own (by exact h) hlid _) lid _
  exact ⟨_, b, find?_put_same .., rfl, hb⟩

/-! Entering a phase and leaving a barrier (R223). -/

section
variable (l : Launch) (c : Context)

@[simp] theorem enterPhase_bind : (enterPhase l c).bind = { c.bind with
    tidx := groupIndex l.hdr l.pext c.bind.wid l.tl
    tsize := groupSize l.hdr l.pext l.tl
    phase := l.phase } := by simp [enterPhase]

@[simp] theorem enterPhase_barWait : (enterPhase l c).barWait = c.barWait := by simp [enterPhase]

@[simp] theorem enterPhase_handler : (enterPhase l c).handler = c.handler := by simp [enterPhase]

/-- s3 holds the task's place in its new team (R223). -/
theorem held_enterPhase : held (enterPhase l c) 3 =
    BitVec.ofNat 64 ((enterPhase l c).bind.tidx + (enterPhase l c).bind.tsize * 2 ^ 32) := by
  rw [enterPhase_bind]
  exact held_wrS_same _ _ (by decide)

/-- A member that leaves a barrier has at most its place and the marks of a debugger's halt other than before. -/
theorem Context.leaveBar_eq : c.leaveBar = { c with
    pos := c.leaveBar.pos
    barWait := none
    flt := c.leaveBar.flt
    halted := c.leaveBar.halted
    stepping := c.leaveBar.stepping
    preempting := c.leaveBar.preempting
    haltCode := c.leaveBar.haltCode } := by
  unfold Context.leaveBar
  dsimp only
  split <;> rfl

@[simp] theorem Context.leaveBar_bind : c.leaveBar.bind = c.bind := by rw [leaveBar_eq]

@[simp] theorem Context.leaveBar_barWait : c.leaveBar.barWait = none := by rw [leaveBar_eq]

@[simp] theorem held_leaveBar (r : Reg) : held c.leaveBar r = held c r := by rw [Context.leaveBar_eq]; rfl
end

/-- A member that waits at PHASE when it completes goes on in the next phase, with its new team in s3 (R223). -/
theorem releaseBar_newPhase {s : State} {p lid : Nat} {c : Context} (h : s.ctx? p = some c) (hlid : c.bind.lid = lid)
    (hwait : c.barWait = some 6) (l : Launch) :
    ∃ c' l', (releaseBar (newPhase s l lid) l lid 6 0).ctx? p = some c' ∧ c'.barWait = none ∧
      c'.bind.phase = l.phase + 1 ∧ (releaseBar (newPhase s l lid) l lid 6 0).launch? lid = some l' ∧
      l'.phase = l.phase + 1 ∧
      (c'.rdS .ctl 3 = BitVec.ofNat 64 (c'.bind.tidx + c'.bind.tsize * 2 ^ 32) ∨ c'.owed ≠ []) := by
  obtain ⟨l', b, hlaunch, hphase, hctx⟩ := newPhase_enters h hlid l
  refine ⟨_, l', releaseBar_ctx?_waiting hctx (by simp [hlid]) (by simp [hwait]) (if_pos rfl), by simp, by simp [hphase],
    hlaunch, hphase, or_iff_not_imp_right.2 fun howed => ?_⟩
  rw [Context.rdS_of_owed_nil (not_not.1 howed), held_leaveBar, Context.leaveBar_bind]
  exact held_enterPhase l' c

/-! The arrivals (R221, R222). -/

theorem barSize_of_lt (l : Launch) {k : Nat} (hk : k < 6) : barSize l k = groupSize l.hdr l.pext k :=
  if_neg (Nat.ne_of_lt hk)

theorem barSize_phase (l : Launch) : barSize l phaseLevel = taskCount l.hdr l.pext := if_pos rfl

@[simp] theorem Context.arrive_bind (c : Context) (k : Nat) : (c.arrive k).bind = c.bind := rfl

@[simp] theorem Context.arrive_r (c : Context) (k : Nat) : (c.arrive k).r = c.r := rfl

@[simp] theorem Context.arrive_lines (c : Context) (k : Nat) : (c.arrive k).lines = c.lines := rfl

@[simp] theorem Context.arrive_counts (c : Context) (k : Nat) :
    lookD (c.arrive k).barCount k 0 = lookD c.barCount k 0 + 1 := by simp [Context.arrive]

/-- Arriving changes nothing on which moving on depends. -/
theorem Context.arrive_advance_pos (c : Context) (k : Nat) (e : Engine) : ((c.arrive k).advance e).pos = (c.advance e).pos := by
  show (Context.move _ e _).pos = (Context.move _ e _).pos
  unfold Context.move
  rw [show (c.arrive k).handler = c.handler from rfl, show (c.arrive k).together = c.together from rfl]
  split
  · rfl
  · split <;> rfl

/-- At or below the team level the die's unit counts the arrivals of BAR, and nothing else of the machine changes. -/
theorem arriveAt_below {l : Launch} {k : Nat} (hk : k ≠ phaseLevel) (h : barAbove l k = false) (s : State) (c : Context)
    (p : Nat) : arriveAt s l c p k = s := by
  rw [arriveAt, if_neg (by simp [h]), arriveHere, if_neg hk]

/-- Above the team level the arrival leaves for its arrival word. -/
theorem arriveAt_above {l : Launch} {k : Nat} (h : barAbove l k = true) (s : State) (c : Context) (p : Nat) :
    ∃ q, find? (arriveAt s l c p k).reqs s.m.nextReq = some q ∧ q.asker = .arrival c.bind.lid c.bind.wid k ∧ q.aop = .add ∧
      q.b = 1 ∧ q.word = some (barKey c.bind.lid k (barGroup l c.bind.wid k),
        wordKey c.bind.lid k (barGroup l c.bind.wid k) (dieOf p)) := by
  rw [arriveAt, if_pos h]
  exact ⟨_, find?_put_same .., rfl, rfl, rfl, rfl⟩

@[simp] theorem arriveAt_launch? (s : State) (l : Launch) (c : Context) (p k lid : Nat) :
    (arriveAt s l c p k).launch? lid = s.launch? lid := by
  unfold arriveAt arriveHere
  split
  · rfl
  · split <;> rfl

/-- An arrival at its word adds to the word and to its group's total, and its request is on its way no longer. -/
theorem performReq_arrival {s : State} {i lid wid n total word : Nat} {q : Req} (hfind : find? s.reqs i = some q)
    (hasker : q.asker = .arrival lid wid n) (hword : q.word = some (total, word)) (hred : q.red = true) (hback : q.back = none) :
    performReq s i = { s with
      reqs := del s.reqs i
      arrivals := putD s.arrivals total (lookD s.arrivals total 0 + q.b) 0
      arrWords := putD s.arrWords word (lookD s.arrWords word 0 + q.b) 0 } := by
  have hkept : s.parts.filter (fun e => !([] : List Nat).contains e.1) = s.parts := List.filter_eq_self.2 fun _ _ => rfl
  unfold performReq
  rw [hfind]
  dsimp only
  rw [hback]
  dsimp only
  rw [if_neg (by simp [hword]), if_pos hred, homeStep, hword, hasker]
  exact congrArg (fun ps => ({ s with
    reqs := del s.reqs i
    arrivals := putD s.arrivals total (lookD s.arrivals total 0 + q.b) 0
    arrWords := putD s.arrWords word (lookD s.arrWords word 0 + q.b) 0
    parts := ps } : State)) hkept

/-! What each instruction answers. -/

section
variable {s : State} {lid : Nat} {l : Launch} (hl : s.launch? lid = some l)
include hl

theorem execBarrierComplete_of {k g m : Nat} (hk : k < 6) (hm : barTarget? s l lid k g = some m) :
    execBarrierComplete lid k g s =
      .next (if barDone s l lid k g m = true then releaseBar s l lid k g else s) := by
  unfold execBarrierComplete
  rw [hl]
  dsimp only
  rw [hm]
  simp [phaseLevel, hk]

theorem execPhaseComplete_of {m : Nat} (hm : barTarget? s l lid 6 0 = some m) :
    execPhaseComplete lid s = .next (if barDone s l lid 6 0 m = true then
      releaseBar (newPhase s l lid) l lid 6 0 else s) := by
  unfold execPhaseComplete
  rw [hl]
  dsimp only
  rw [show barTarget? s l lid phaseLevel 0 = some m from hm]
  rfl

end

section
variable {s : State} {c : Context} {l : Launch} (h : runs s c) (hl : s.launch? c.bind.lid = some l)
include h

theorem execBar_traps {k : BitVec 3} (hk : 6 ≤ k.toNat) : execBar k s = traps s c { code := .illop } :=
  runS_trap h (check_bind_false (decide_eq_false (by omega)) ..)

/-- The first request that carries an arrival of the task is performed. -/
theorem execBarrierArrivalAdd_performs {i : Nat} {q : Req}
    (hfirst : s.reqs.find? (fun e => carriesArrival s c.bind.lid c.bind.wid e.2) = some (i, q)) :
    execBarrierArrivalAdd s.cur s = .next (performReq s i) := by
  simp only [execBarrierArrivalAdd, show s.ctx? s.cur = some c from h]
  rw [hfirst]

theorem execBarrierArrivalAdd_idle
    (hnone : s.reqs.find? (fun e => carriesArrival s c.bind.lid c.bind.wid e.2) = none) :
    execBarrierArrivalAdd s.cur s = .next s := by
  simp only [execBarrierArrivalAdd, show s.ctx? s.cur = some c from h]
  rw [hnone]

include hl

theorem execPhase_traps (hp : hdrAt l.hdr 6 1 ≤ l.phase) (hwait : c.barWait = none) :
    execPhase s = traps s c { code := .illop } := by
  refine runS_trap h ?_
  rw [hl]
  exact check_bind_false (by simpa [hwait] using hp) ..

variable (hwait : c.barWait = none) (hrel : c.releases = []) (hout : requestsOut s c.bind.lid c.bind.wid = false)
include hwait hrel hout

/-- Nothing holds BAR: it arrives, and waits or, in a group of one, goes on. -/
theorem execBar_arrives {k : BitVec 3} (hk : k.toNat < 6) :
    execBar k s = .next (if groupSize l.hdr l.pext k.toNat ≤ 1 then
      s.setCtx s.cur { (c.arrive k.toNat).advance s.eng with barWait := none }
      else (arriveAt s l c s.cur k.toNat).setCtx s.cur (c.arrive k.toNat)) := by
  refine runS_ok h ?_
  rw [check_bind_true (decide_eq_true hk), hl]
  dsimp only
  rw [await_bind_true (by simp [hwait, barReady, hrel, hout]), barSize_of_lt l hk]

/-- Nothing holds PHASE: it arrives, and waits or, in a launch of one task, enters the next phase. -/
theorem execPhase_arrives (hp : l.phase < hdrAt l.hdr 6 1) :
    execPhase s = .next (if taskCount l.hdr l.pext ≤ 1 then
      newPhase (s.setCtx s.cur { (c.arrive 6).advance s.eng with barWait := none }) l c.bind.lid
      else (arriveAt s l c s.cur 6).setCtx s.cur (c.arrive 6)) := by
  refine runS_ok h ?_
  rw [hl]
  dsimp only
  rw [check_bind_true (by simp [hp]), await_bind_true (by simp [hwait, barReady, hrel, hout]), barSize_phase]
  rfl
end

/-- Settles O39: what each instruction and each event answers, with the context and the request that it leaves. -/
theorem barriersAndPhases : Obligations.BarriersAndPhases := by
  intro s c k l h hl lid ready
  simp only [exec]
  refine ⟨fun hk => execBar_traps h (by omega), ?bar, ?phase, execPhase_traps h hl, ?arrival,
    execBarrierArrivalAdd_idle h, ?complete, ?phaseComplete⟩
  case bar =>
    rintro hk ⟨hwait, hrel, hout⟩
    rw [execBar_arrives h hl hwait hrel hout hk]
    split
    · next hone =>
      exact ⟨_, _, rfl, State.ctx?_setCtx_same .., rfl, by simp, by simp, by simp,
        fun _ => by omega, fun _ => ⟨rfl, c.arrive_advance_pos .., rfl⟩⟩
    · next hmore =>
      refine ⟨_, _, rfl, State.ctx?_setCtx_same .., by simp, c.arrive_counts _, rfl, rfl,
        fun _ => ⟨rfl, rfl, fun hbelow => ?_, fun habove => arriveAt_above habove s c s.cur⟩, fun _ => by omega⟩
      rw [arriveAt_below (Nat.ne_of_lt hk) hbelow]
  case phase =>
    rintro hp ⟨hwait, hrel, hout⟩
    rw [execPhase_arrives h hl hwait hrel hout hp]
    split
    · next hone =>
      obtain ⟨l', b, hlaunch, hphase, hctx⟩ := newPhase_enters (lid := lid)
        (State.ctx?_setCtx_same s s.cur { (c.arrive 6).advance s.eng with barWait := none }) (by simp [lid]) l
      exact ⟨_, _, rfl, hctx, fun _ => by omega, fun _ => ⟨by simp, by simp [hphase], l', hlaunch, hphase⟩⟩
    · next hmore =>
      exact ⟨_, _, rfl, State.ctx?_setCtx_same .., fun _ => ⟨rfl, rfl, rfl, (arriveAt_launch? ..).trans hl⟩, fun _ => by omega⟩
  case arrival =>
    intro n i q total word hfirst hfind hasker hword hred _ hback
    refine ⟨_, execBarrierArrivalAdd_performs h hfirst, ?_⟩
    rw [performReq_arrival hfind hasker hword hred hback]
    exact ⟨h, find?_del_same .., lookD_putD_same .., lookD_putD_same .., rfl⟩
  case complete =>
    rintro n m g hn hwait rfl hm
    rw [execBarrierComplete_of hl hn hm]
    refine ⟨fun hdone => ?_, fun hdone => ?_⟩
    · rw [if_pos hdone]
      exact ⟨_, rfl, releaseBar_ctx?_waiting h rfl hwait rfl, rfl⟩
    · rw [if_neg (Bool.eq_false_iff.1 hdone)]
  case phaseComplete =>
    intro m hwait hm
    rw [execPhaseComplete_of hl hm]
    refine ⟨fun hdone => ?_, fun hdone => ?_⟩
    · obtain ⟨c', l', hctx, hleft, hphase, hlaunch, hnew, hs3⟩ := releaseBar_newPhase h (lid := lid) rfl hwait l
      rw [if_pos hdone]
      exact ⟨_, c', l', rfl, hctx, hleft, hphase, hlaunch, hnew, fun _ => hs3⟩
    · rw [if_neg (Bool.eq_false_iff.1 hdone)]

end Sys2Proof.Machine
end

section
/-!
Launches and their tasks (R208, R215, R216, R219, R224, R30, R407): submission, refusal, admission and the end of a launch, and
the binding and the dispatch of its tasks.
-/
namespace Sys2Proof.Machine
open Sys2Proof.Says

/-! LAUNCH (R224). -/

section
variable {s : State} {c : Context} (h : runs s c) {o : LaunchOp}
include h

/-- LAUNCH of a header at an address that is no multiple of 64. -/
theorem execLaunch_misaligned (ha : (c.rdS s.eng o.a).toNat % 64 ≠ 0) :
    execLaunch o s = traps s c { code := .align, addr := (c.rdS s.eng o.a).toNat % 2 ^ 56 } := by
  refine runS_trap h ?_
  dsimp only
  rw [res_bind_of_error (accessCheck_misaligned _ _ _ _ _ (by omega)), Nat.mod_mod]

/-- Nothing holds LAUNCH: the header's copy joins the queue of the context's die, and an exchange register is due. -/
theorem execLaunch_submits {ps : List Part} {l : Launch}
    (hps : accessCheck s (c.who s.cur) .read notWs 64 ((c.rdS s.eng o.a).toNat % 2 ^ 56) 512 = .ok ps)
    (hguard : guardCheck s c.r.gver ps = .ok ()) (hecc : readEcc s ps = .ok ()) (hrel : c.releases = [])
    (hout : requestsOut s c.bind.lid c.bind.wid = false) (hroom : (s.die (dieOf s.cur)).queue.length < 16)
    (hl : s.launch? c.bind.lid = some l) :
    ∃ x : Submission, x.hdr = some (BitVec.ofNat 4096 (readParts s.mem ps)) ∧ x.depth = l.depth + 1 ∧ x.root = c.bind.root ∧
      execLaunch o s = .next ({ (s.noteParts (c.who s.cur) ps).setDie (dieOf s.cur)
          { s.die (dieOf s.cur) with queue := (s.die (dieOf s.cur)).queue ++ [x] } with
            m := { (s.noteParts (c.who s.cur) ps).m with nextTicket := s.m.nextTicket + 1 } }.setCtx s.cur
        ({ c with fillsDue := c.fillsDue ++ [(⟨o.e.toNat, s.m.nextTicket, none⟩ : FillDue)] }.advance s.eng)) := by
  refine ⟨{
    addr := (c.rdS s.eng o.a).toNat % 2 ^ 56, hdr := some (BitVec.ofNat 4096 (readParts s.mem ps)), root := c.bind.root
    depth := l.depth + 1, grant := c.bind.grant, parent := some ⟨c.bind.lid, c.bind.wid, o.e.toNat, s.m.nextTicket⟩ },
    rfl, rfl, rfl, runS_ok h ?_⟩
  dsimp only
  rw [res_bind_of_ok hps, res_bind_of_ok hguard, res_bind_of_ok hecc, await_bind_true (by simp [hrel, hout]),
    await_bind_true (by simpa using hroom), hl]
  rfl
end

/-! The completion word (R216). -/

/-- What a write that meets no fault leaves. -/
theorem writeMem_ok {s u : State} {w : Who} {ver align va len v : Nat} {ok : Trans → Bool}
    (h : writeMem s w ver ok align va len v = .ok u) :
    ∃ ps, u = writeTags ((s.store ps v).noteParts w ps) ver ps := by
  unfold writeMem at h
  cases hps : accessCheck s w .write ok align va len with
  | error z => rw [res_bind_of_error hps] at h; cases h
  | ok ps =>
    rw [res_bind_of_ok hps] at h
    dsimp only at h
    split at h
    · cases h; exact ⟨ps, rfl⟩
    · cases hecc : writeEcc s ps with
      | error z => rw [res_bind_of_error hecc] at h; cases h
      | ok _ => rw [res_bind_of_ok hecc] at h; cases h; exact ⟨ps, rfl⟩

theorem noteTrans_launches (core root : Nat) (s : State) (t : Trans) : (noteTrans core root s t).launches = s.launches := by
  unfold noteTrans; dsimp only; split <;> rfl

@[simp] theorem State.noteParts_launches (s : State) (w : Who) (ps : List Part) : (s.noteParts w ps).launches = s.launches :=
  foldl_keeps State.launches (by exact fun s p => noteTrans_launches w.core w.root s p.t) ps s

/-- A change of the tags alone, block by block. -/
theorem writeTags_keeps {γ : Type} (g : State → γ) (hg : ∀ s t, g { s with tags := t } = g s) (s : State) (ver : Nat)
    (ps : List Part) : g (writeTags s ver ps) = g s := by
  refine foldl_keeps g (fun t p => ?_) ps s
  split
  · exact foldl_keeps g (by exact fun _ _ => hg ..) _ t
  · rfl

@[simp] theorem writeTags_launches (s : State) (ver : Nat) (ps : List Part) : (writeTags s ver ps).launches = s.launches :=
  writeTags_keeps State.launches (by exact fun _ _ => rfl) ..

@[simp] theorem writeTags_m (s : State) (ver : Nat) (ps : List Part) : (writeTags s ver ps).m = s.m :=
  writeTags_keeps State.m (by exact fun _ _ => rfl) ..

/-- A write changes no launch and no queue. -/
theorem writeMem_keeps {s u : State} {w : Who} {ver align va len v : Nat} {ok : Trans → Bool}
    (h : writeMem s w ver ok align va len v = .ok u) : u.launches = s.launches ∧ u.m = s.m := by
  obtain ⟨ps, rfl⟩ := writeMem_ok h
  simp [State.store]

section
variable {s : State} {root a w : Nat}

/-- A header that names no place for the word. -/
theorem writeDone_unnamed (h : a = 0 ∨ a % 8 ≠ 0 ∨ 2 ^ 56 ≤ a) : writeDone s root a w = some s := by
  refine if_pos ?_
  have hbits : a / 2 ^ 56 ≠ 0 ↔ 2 ^ 56 ≤ a := by rw [Ne, Nat.div_eq_zero_iff_lt (by positivity), not_lt]
  rwa [hbits]

section
variable (hne : a ≠ 0) (hal : a % 8 = 0) (hlt : a < 2 ^ 56)
include hne hal hlt

/-- Where the header names the word, its write decides. -/
theorem writeDone_named : writeDone s root a w = match writeMem s (firmware 0 root) 0 plainW 8 a 8 w with
    | .ok u => some u
    | .error .wait => none
    | .error (.trap _) => some s := by
  have hnamed : ¬ (a = 0 ∨ a % 8 ≠ 0 ∨ a / 2 ^ 56 ≠ 0) := by
    rw [Nat.div_eq_of_lt hlt]
    simp [hne, hal]
  rw [writeDone, if_neg hnamed]
  rcases writeMem s (firmware 0 root) 0 plainW 8 a 8 w with (_ | _) | _ <;> rfl
end

/-- Writing the word changes no launch and no queue. -/
theorem writeDone_keeps {t : State} (h : writeDone s root a w = some t) : t.launches = s.launches ∧ t.m = s.m := by
  by_cases hn : a = 0 ∨ a % 8 ≠ 0 ∨ 2 ^ 56 ≤ a
  · rw [writeDone_unnamed hn] at h
    cases h
    exact ⟨rfl, rfl⟩
  · simp only [not_or, not_not, not_le] at hn
    obtain ⟨hne, hal, hlt⟩ := hn
    rw [writeDone_named hne hal hlt] at h
    split at h
    · next hw => cases h; exact writeMem_keeps hw
    · cases h
    · cases h; exact ⟨rfl, rfl⟩
end

/-! Refusal and submission (R208, R215, R216). -/

@[simp] theorem answerParent_launches (s : State) (p : Option Parent) (lid code : Nat) :
    (answerParent s p lid code).launches = s.launches := by
  cases p <;> rfl

@[simp] theorem answerParent_m (s : State) (p : Option Parent) (lid code : Nat) : (answerParent s p lid code).m = s.m := by
  cases p <;> rfl

/-- A refusal changes no launch and no queue. -/
theorem refuseLaunch_keeps {s t : State} {x : Submission} {hd : Option (BitVec 4096)} {e : LErr}
    (h : refuseLaunch s x hd e = some t) : t.launches = s.launches ∧ t.m = s.m := by
  obtain ⟨u, hu, rfl⟩ := Option.map_eq_some_iff.1 h
  rw [answerParent_launches, answerParent_m]
  cases hd with
  | none => cases hu; exact ⟨rfl, rfl⟩
  | some _ => exact writeDone_keeps hu

section
variable {s : State} {x : Submission} (hdr : x.hdr = none) (hfull : x.full = true)
include hdr hfull

/-- A submission that the host's queue has no room for: the header that can be read names the word that tells of it. -/
theorem tryAdmit_full : tryAdmit s x = match fwRead s x.root x.addr 512 with
    | .ok v => refuseLaunch s x (some (BitVec.ofNat 4096 v)) .qfull
    | .error .wait => none
    | .error _ => some s := by
  rw [tryAdmit, hdr]
  cases fwRead s x.root x.addr 512 with
  | ok v => exact if_pos hfull
  | error e =>
    cases e with
    | wait => rfl
    | _ => exact if_pos hfull

/-- What becomes of it changes no launch and no queue, and is its refusal where the header can be read. -/
theorem tryAdmit_full_keeps {t : State} (h : tryAdmit s x = some t) : t.launches = s.launches ∧ t.m = s.m := by
  rw [tryAdmit_full hdr hfull] at h
  split at h
  · exact refuseLaunch_keeps h
  · cases h
  · cases h; exact ⟨rfl, rfl⟩
end

section
variable {s : State} {addr root : Nat}

theorem execLaunchSubmit_joins (h : Config.hostRefused s.freeCtr = false) : execLaunchSubmit addr root s =
    .next { s with m := { s.m with
      hostQ := s.m.hostQ ++ [{ addr := addr % 2 ^ 56, hdr := none, root := root, full := false }] } } := by
  rw [execLaunchSubmit, h]
  rfl

theorem execLaunchSubmit_full (h : Config.hostRefused s.freeCtr = true) : execLaunchSubmit addr root s =
    .next ((tryAdmit s { addr := addr % 2 ^ 56, hdr := none, root := root, full := true }).getD { s with m := { s.m with
      hostQ := s.m.hostQ ++ [{ addr := addr % 2 ^ 56, hdr := none, root := root, full := true }] } }) := by
  rw [execLaunchSubmit, h]
  rfl
end

/-! Admission (R215). -/

section
variable {s : State} {x : Submission} {h : BitVec 4096} (hdr : x.hdr = some h) (hfull : x.full = false)
include hdr hfull

/-- A launch without a circuit program whose checks pass and which nothing holds back is admitted. -/
theorem tryAdmit_admits {tb : Tables} {ch : Choice} {im : List (Nat × Nat)} (hprog : hdrAt h 0x38 8 = 0)
    (hok : choose s x h = .ok (tb, ch, im)) (hheld : heldBack s h ch none = false) :
    tryAdmit s x = some (admitLaunch s x h tb ch im none) := by
  simp [tryAdmit, hdr, hfull, hok, hprog, hheld]

/-- A launch whose checks fail is refused. -/
theorem tryAdmit_refuses {e : LErr} (herr : choose s x h = .error e) (he : e ≠ .wait) :
    tryAdmit s x = refuseLaunch s x (some h) e := by
  simp only [tryAdmit, hdr, hfull, herr]
  cases e with
  | wait => exact absurd rfl he
  | _ => rfl
end

/-- The first of the host's queue, where it does not wait. -/
theorem execAdmitNext_first {s t : State} {x : Submission} {r : List Submission} (hq : s.m.hostQ = x :: r)
    (hx : tryAdmit s x = some t) :
    execAdmitNext s = .next { t with m := { t.m with hostQ := t.m.hostQ.erase x } } := by
  rw [execAdmitNext, admitNext?, hq, admitFrom, hx]
  rfl

/-- Without submissions nothing is admitted. -/
theorem execAdmitNext_idle {s : State} (hq : s.m.hostQ = []) (hd : ∀ d < 16, (s.die d).queue = []) :
    execAdmitNext s = .next s := by
  have hdies : ∀ ds : List Nat, (∀ d ∈ ds, (s.die d).queue = []) → admitDies s ds = none := by
    intro ds hds
    induction ds with
    | nil => rfl
    | cons d r ih =>
      rw [admitDies, hds d List.mem_cons_self]
      exact ih fun d' hd' => hds d' (List.mem_cons_of_mem _ hd')
  rw [execAdmitNext, admitNext?, hq]
  dsimp only [admitFrom]
  rw [hdies _ fun d hd' => hd d (List.mem_range.1 hd')]
  rfl

/-- An admitted launch stands under the next launch id, with all its tasks to come. -/
theorem admitLaunch_stands (s : State) (x : Submission) (h : BitVec 4096) (tb : Tables) (ch : Choice) (im : List (Nat × Nat)) :
    (admitLaunch s x h tb ch im none).m.nextLid = s.m.nextLid + 1 ∧
    ∃ l, (admitLaunch s x h tb ch im none).launch? s.m.nextLid = some l ∧ l.hdr = h ∧ l.root = x.root ∧ l.entry = ch.entry ∧
      l.left = taskCount h ch.pext ∧ l.prog = none ∧ l.phase = 0 := by
  refine ⟨by rw [admitLaunch, answerParent_m], ?_⟩
  have hdies (u : State) (ds : List Nat) (f : State → Nat → Die) :
      (ds.foldl (fun t d => t.setDie d (f t d)) u).launches = u.launches :=
    foldl_keeps State.launches (by exact fun _ _ => rfl) ds u
  simp only [admitLaunch, State.launch?, answerParent_launches]
  split
  · rw [hdies]
    exact ⟨_, find?_put_same .., rfl, rfl, rfl, rfl, rfl, rfl⟩
  · exact ⟨_, find?_put_same .., rfl, rfl, rfl, rfl, rfl, rfl⟩

/-! The end of a launch (R216). -/

@[simp] theorem freeCircuit_launches (s : State) (k : Nat) : (freeCircuit s k).launches = s.launches := by
  unfold freeCircuit; dsimp only; split <;> rfl

/-- A launch that is cleared stands no longer. -/
theorem clearLaunch_launch? (s : State) (lid : Nat) : (clearLaunch s lid).launch? lid = none := by
  rw [State.launch?, clearLaunch]
  dsimp only
  rw [foldl_keeps State.launches freeCircuit_launches]
  exact find?_del_same ..

section
variable {s : State} {lid : Nat} {l : Launch} (hl : s.launch? lid = some l)
include hl

theorem execLaunchComplete_waits (hleft : l.left ≠ 0) : execLaunchComplete lid s = .next s := by
  rw [execLaunchComplete, hl]
  dsimp only
  rw [if_neg hleft]

variable (hleft : l.left = 0)
include hleft

/-- While the word cannot be written, the launch stays. -/
theorem execLaunchComplete_held (hdone : writeDone s l.root (hdrAt l.hdr 0xF8 8) (doneWord lid 0 l.faulted) = none) :
    execLaunchComplete lid s = .next s := by
  rw [execLaunchComplete, hl]
  dsimp only
  rw [if_pos hleft, endLaunch, hdone]
  rfl

/-- With the word written the launch is no more. -/
theorem execLaunchComplete_ends {u : State}
    (hdone : writeDone s l.root (hdrAt l.hdr 0xF8 8) (doneWord lid 0 l.faulted) = some u) :
    ∃ t, execLaunchComplete lid s = .next t ∧ t.launch? lid = none ∧ t.mem = u.mem := by
  refine ⟨clearLaunch u lid, ?_, clearLaunch_launch? .., clearLaunch_mem ..⟩
  rw [execLaunchComplete, hl]
  dsimp only
  rw [if_pos hleft, endLaunch, hdone]
  rfl
end

/-! Bind records (R219, R407). -/

/-- The bind record of a request: each field takes its bits (R219). -/
def bindRecordOf (b : BindReq) : BindRec :=
  { pad := b.pad, pers := b.pers, cls := b.cls.toNat, res := b.res, lid := b.lid % 2 ^ 32, wid := b.wid % 2 ^ 64
    tidx := b.tidx % 2 ^ 32, tsize := b.tsize % 2 ^ 32, ph := b.phase % 8 }

section
variable {s : State} {b : BindReq}

theorem execBindRecordWrite_discards (h : 2048 ≤ b.pos ∨ coreWorks s (dieOf b.pos) (b.pos % 128 / 4) = false) :
    execBindRecordWrite b s = .next s := by
  rw [execBindRecordWrite]
  exact if_pos h

variable (hpos : b.pos < 2048) (hworks : coreWorks s (dieOf b.pos) (b.pos % 128 / 4) = true)
include hpos hworks

theorem execBindRecordWrite_taken {r : BindRec} (hslot : find? (s.die (dieOf b.pos)).slots (b.pos % 128) = some r) :
    execBindRecordWrite b s = .next (s.report (.bindDiscarded b.pos)) := by
  rw [execBindRecordWrite]
  dsimp only
  rw [if_neg (by simp [posCount, hpos, hworks]), hslot]

/-- A record at a free position stands there; beside it only its launch's count of bound tasks changes. -/
theorem execBindRecordWrite_binds (hslot : find? (s.die (dieOf b.pos)).slots (b.pos % 128) = none) :
    ∃ t, execBindRecordWrite b s = .next t ∧ find? (t.die (dieOf b.pos)).slots (b.pos % 128) = some (bindRecordOf b) ∧
      t.ctxs = s.ctxs ∧ t.mem = s.mem := by
  have hfree : ¬ (posCount ≤ b.pos ∨ coreWorks s (dieOf b.pos) (b.pos % 128 / 4) = false) := by
    simp [posCount, hpos, hworks]
  have hstands (d : Die) : find? ((s.setDie (dieOf b.pos) { d with
      slots := put d.slots (b.pos % 128) (bindRecordOf b) }).die (dieOf b.pos)).slots (b.pos % 128) = some (bindRecordOf b) := by
    rw [State.die, State.setDie, lookD_putD_same, find?_put_same]
  unfold execBindRecordWrite
  dsimp only
  rw [if_neg hfree, hslot]
  refine ⟨_, rfl, ?_⟩
  split
  · split <;> exact ⟨hstands _, rfl, rfl⟩
  · exact ⟨hstands _, rfl, rfl⟩
end

/-! Dispatch (R219, R30). -/

section
variable {s : State} {pos : Nat} {r : BindRec} {l : Launch}

theorem execTaskDispatch_of (hslot : find? (s.die (dieOf pos)).slots (pos % 128) = some r) (hl : s.launch? r.lid = some l) :
    execTaskDispatch pos s = .next (if canStart s pos r l then startTask s pos r l else s) := by
  rw [execTaskDispatch, hslot]
  dsimp only
  rw [hl]

/-- A started task stands at its position in its first state. -/
theorem startTask_ctx? : (startTask s pos r l).ctx? pos = some (startContext s pos r l) := State.ctx?_setCtx_same ..

/-- A task starts outside handler mode with no version to come, so that a scalar reads as its register. -/
theorem startContext_rdS (d : Reg) :
    (startContext s pos r l).rdS .ctl d = if d = 0 then 0 else lookD (startContext s pos r l).r.s d.toNat 0 := by
  have howed : (startContext s pos r l).owed = [] := rfl
  have hhandler : (startContext s pos r l).handler = false := rfl
  rw [Context.rdS_of_owed_nil howed, held, hhandler]
  simp

theorem startContext_scalars (n : Nat) : lookD (startContext s pos r l).r.s n 0 =
    if n = 3 then BitVec.ofNat 64 (r.tidx + r.tsize * 2 ^ 32)
    else if n = 2 then BitVec.ofNat 64 r.wid
    else if n = 1 then BitVec.ofNat 64 (hdrAt l.hdr 0x20 8) else 0 := by
  simp only [startContext]
  split
  · next h => rw [h, lookD_putD_same]
  · next h3 =>
    rw [lookD_putD_other _ _ _ _ _ h3]
    split
    · next h => rw [h, lookD_putD_same]
    · next h2 =>
      rw [lookD_putD_other _ _ _ _ _ h2]
      split
      · next h => rw [h, lookD_putD_same]
      · next h1 => rw [lookD_putD_other _ _ _ _ _ h1]; rfl

/-- Every engine starts at the launch's entry. -/
theorem startContext_pos (e : Engine) : ((startContext s pos r l).pos.get e).addr = codeAddr l.entry ∧
    ((startContext s pos r l).pos.get e).slot = 0 := by
  cases e <;> exact ⟨rfl, rfl⟩
end

/-- Settles O50: what each instruction and each act of the firmware and of the dispatch unit answers. -/
theorem launchLife : Obligations.LaunchLife := by
  intro s pos lid addr root b
  simp only [exec]
  refine ⟨?launch, fun c o h ha => execLaunch_misaligned h ha, ⟨execLaunchSubmit_joins, fun hfull => ?full⟩, ?admits, ?refuses,
    execAdmitNext_idle, ?complete, execBindRecordWrite_discards, ?bind, fun _ hp hw => execBindRecordWrite_taken hp hw, ?dispatch⟩
  case launch =>
    intro c o ps l h hps hguard hecc hrel hout hroom hl
    obtain ⟨x, hhdr, hdepth, hroot, hstep⟩ := execLaunch_submits h hps hguard hecc hrel hout hroom hl
    refine ⟨_, _, x, hstep, State.ctx?_setCtx_same .., by simp, by simp, ?_, hhdr, hdepth, hroot, by simp⟩
    exact congrArg Die.queue (lookD_putD_same ..)
  case full =>
    rw [execLaunchSubmit_full hfull]
    refine ⟨_, rfl, ?_⟩
    cases hadmit : tryAdmit s { addr := addr % 2 ^ 56, hdr := none, root := root, full := true } with
    | none =>
      refine ⟨rfl, .inl rfl, fun v hv u hu => ?_⟩
      rw [tryAdmit_full rfl rfl, hv] at hadmit
      cases hadmit.symm.trans hu
    | some t =>
      obtain ⟨hlaunches, hm⟩ := tryAdmit_full_keeps rfl rfl hadmit
      refine ⟨hlaunches, .inr (congrArg (·.hostQ) hm), fun v hv u hu => ?_⟩
      rw [tryAdmit_full rfl rfl, hv] at hadmit
      exact Option.some.inj (hadmit.symm.trans hu)
  case admits =>
    intro x r h tb ch im hq hhdr hfull hprog hok hheld
    obtain ⟨hnext, l, hl, hfields⟩ := admitLaunch_stands s x h tb ch im
    obtain ⟨hlh, hlroot, hentry, hleft, hlprog, hphase⟩ := hfields
    exact ⟨_, l, execAdmitNext_first hq (tryAdmit_admits hhdr hfull hprog hok hheld), hl, hlh, hlroot, hentry, hleft, hlprog,
      hphase, hnext, admitLaunch_mem ..⟩
  case refuses =>
    intro x r h e u hq hhdr hfull herr he hu
    exact execAdmitNext_first hq ((tryAdmit_refuses hhdr hfull herr he).trans hu)
  case complete =>
    intro l hl
    refine ⟨execLaunchComplete_waits hl, fun hleft => ⟨fun hw => ?_, fun hne hal hlt => ?_⟩⟩
    · exact execLaunchComplete_ends hl hleft (writeDone_unnamed hw)
    · have hword := writeDone_named (s := s) (root := l.root) (w := doneWord lid 0 l.faulted) hne hal hlt
      refine ⟨fun u hu => execLaunchComplete_ends hl hleft ?_, fun x hx => execLaunchComplete_ends hl hleft ?_,
        fun hx => execLaunchComplete_held hl hleft ?_⟩
      · rw [hword, hu]
      · rw [hword, hx]
      · rw [hword, hx]
  case bind =>
    intro hpos hworks hslot
    obtain ⟨t, hstep, hstands, hctxs, hmem⟩ := execBindRecordWrite_binds hpos hworks hslot
    exact ⟨t, bindRecordOf b, hstep, hstands, rfl, rfl, rfl, rfl, rfl, hctxs, hmem⟩
  case dispatch =>
    intro r l hslot hl
    rw [execTaskDispatch_of hslot hl]
    refine ⟨fun hcan => by rw [hcan]; rfl, fun hcan => ⟨startTask s pos r l, startContext s pos r l, ?_, startTask_ctx?, ?_⟩⟩
    · rw [hcan]; rfl
    · refine ⟨by rw [startContext_rdS, startContext_scalars]; rfl, by rw [startContext_rdS, startContext_scalars]; rfl,
        by rw [startContext_rdS, startContext_scalars]; rfl, fun n hn => ?_, rfl, rfl, rfl, startContext_pos, startTask_mem ..⟩
      rw [startContext_scalars, if_neg (by omega), if_neg (by omega), if_neg (by omega)]

end Sys2Proof.Machine
end

section
/-!
The moves of whole lines (R237, R247 to R250, R253, R255, R256): the bytes of a window, then what an issue of each instruction
answers, and from that the statement.
-/
namespace Sys2Proof.Machine
open Sys2Proof.Says

/-! The bytes of a window (R15, R248). -/

/-- Bit `j` of an element is a bit of the line. -/
theorem testBit_elem (l : Line) (w i j : Nat) : (elem l w i).testBit j = (decide (j < w) && l.toNat.testBit (w * i + j)) := by
  rw [elem, Nat.testBit_mod_two_pow, Nat.testBit_div_two_pow, Nat.add_comm]

/-- Bit `j` of a byte of a window is a bit of the line that the byte lies in. -/
theorem testBit_windowByte (c : Context) (a j : Nat) : (windowByte c a).testBit j =
    (decide (j < 8) && (c.rdL (a / 512)).toNat.testBit (8 * (a % 512) + j)) := testBit_elem ..

/-- A bit of the line that is made of a number. -/
theorem testBit_ofNat_line (v k : Nat) : (BitVec.ofNat 4096 v).toNat.testBit k = (decide (k < 4096) && v.testBit k) := by
  rw [BitVec.testBit_toNat, BitVec.getLsbD_ofNat]

/-- Bits of two numbers of which the lower one has `b` bits. -/
theorem testBit_add_mul {x b : Nat} (h : x < 2 ^ b) (y k : Nat) :
    (x + y * 2 ^ b).testBit k = if k < b then x.testBit k else y.testBit (k - b) := by
  rw [Nat.add_comm, Nat.mul_comm, Nat.testBit_two_pow_mul_add _ h]

/-- The 512 bytes read at an offset of a window are the window's bytes from there on. -/
theorem elem_windowRead (c : Context) (off : Nat) {i : Nat} (hi : i < 512) :
    elem (windowRead c off) 8 i = windowByte c (off + i) := by
  refine Nat.eq_of_testBit_eq fun j => ?_
  rw [testBit_elem, testBit_windowByte]
  by_cases hj : j < 8
  case neg => simp [hj]
  unfold windowRead
  rw [testBit_ofNat_line, Nat.testBit_div_two_pow, decide_eq_true (show 8 * i + j < 4096 by omega), Bool.true_and]
  split
  case isTrue h0 => simp [show (off + i) / 512 = off / 512 by omega, show (off + i) % 512 = i by omega, h0]
  case isFalse h0 =>
    rw [testBit_add_mul (BitVec.isLt _)]
    split
    case isTrue hlow =>
      rw [show (off + i) / 512 = off / 512 by omega, show 8 * ((off + i) % 512) + j = 8 * i + j + 8 * (off % 512) by omega]
    case isFalse hhigh =>
      rw [show (off + i) / 512 = off / 512 + 1 by omega,
        show 8 * ((off + i) % 512) + j = 8 * i + j + 8 * (off % 512) - 4096 by omega]

/-- The bytes of a window after 512 are written at an offset: those written, and the others as before. -/
theorem windowByte_windowWrite (c : Context) (off : Nat) (l : Line) (i : Nat) : windowByte (windowWrite c off l) i =
    if off ≤ i ∧ i < off + 512 then elem l 8 (i - off) else windowByte c i := by
  refine Nat.eq_of_testBit_eq fun j => ?_
  rw [apply_ite (Nat.testBit · j), testBit_elem, testBit_windowByte, testBit_windowByte]
  by_cases hj : j < 8
  case neg => simp [hj]
  simp only [hj, decide_true, Bool.true_and]
  unfold windowWrite
  dsimp only
  split
  case isTrue h0 =>
    by_cases hn : i / 512 = off / 512
    · rw [hn, Context.rdL_wrL_same, if_pos (by omega), show i % 512 = i - off by omega]
    · rw [Context.rdL_wrL_other _ _ hn, if_neg (by omega)]
  case isFalse h0 =>
    have hlow : (c.rdL (off / 512)).toNat % 2 ^ (8 * (off % 512)) < 2 ^ (8 * (off % 512)) :=
      Nat.mod_lt _ (Nat.two_pow_pos _)
    have hhigh : l.toNat / 2 ^ (4096 - 8 * (off % 512)) < 2 ^ (8 * (off % 512)) := by
      rw [Nat.div_lt_iff_lt_mul (Nat.two_pow_pos _), ← Nat.pow_add,
        show 8 * (off % 512) + (4096 - 8 * (off % 512)) = 4096 by omega]
      exact l.isLt
    by_cases hnext : i / 512 = off / 512 + 1
    · rw [hnext, Context.rdL_wrL_same, testBit_ofNat_line, testBit_add_mul hhigh, Nat.testBit_div_two_pow,
        Nat.testBit_div_two_pow, decide_eq_true (show 8 * (i % 512) + j < 4096 by omega), Bool.true_and]
      by_cases hin : 8 * (i % 512) + j < 8 * (off % 512)
      · rw [if_pos hin, if_pos (by omega), show 8 * (i - off) + j = 8 * (i % 512) + j + (4096 - 8 * (off % 512)) by omega]
      · rw [if_neg hin, if_neg (by omega),
          show 8 * (i % 512) + j - 8 * (off % 512) + 8 * (off % 512) = 8 * (i % 512) + j by omega]
    rw [Context.rdL_wrL_other _ _ hnext]
    by_cases hn : i / 512 = off / 512
    · rw [hn, Context.rdL_wrL_same, testBit_ofNat_line, testBit_add_mul hlow, Nat.testBit_mod_two_pow,
        decide_eq_true (show 8 * (i % 512) + j < 4096 by omega), Bool.true_and]
      by_cases hin : 8 * (i % 512) + j < 8 * (off % 512)
      · rw [if_pos hin, if_neg (by omega), decide_eq_true hin, Bool.true_and]
      · rw [if_neg hin, if_pos (by omega), show 8 * (i - off) + j = 8 * (i % 512) + j - 8 * (off % 512) by omega]
    · rw [Context.rdL_wrL_other _ _ hn, if_neg (by omega)]

/-- A write at an offset of a window leaves registers, binding and positions. -/
theorem windowWrite_keeps (c : Context) (off : Nat) (l : Line) :
    (windowWrite c off l).r = c.r ∧ (windowWrite c off l).bind = c.bind ∧ (windowWrite c off l).pos = c.pos := by
  unfold windowWrite
  dsimp only
  split <;> exact ⟨rfl, rfl, rfl⟩

/-! Issues in a slot of their own. -/

/-- A line inside the window passes a source's check. -/
theorem Context.opdIn_line {c : Context} {n : Nat} (hn : n < 64 * c.bind.window) : c.opdIn 1 (.at (n : Int)) = .ok () :=
  Context.opdIn_ok (a := .at (n : Int)) ⟨Int.natCast_nonneg n, hn⟩

/-- A choice of two checks of which the one chosen passes goes on. -/
theorem ite_bind_of_ok {α : Type} {p : Prop} [Decidable p] {x y : Res Unit} (hx : p → x = .ok ()) (hy : ¬p → y = .ok ())
    (g : Unit → Res α) : (if p then x >>= g else y >>= g) = g () := by
  split
  case isTrue hp => exact res_bind_of_ok (hx hp) g
  case isFalse hp => exact res_bind_of_ok (hy hp) g

section
variable {s : State} {c : Context} (h : runs s c) {f : State → Engine → Context → Eff}
include h

/-- An issue that answers leaves the machine and the context it gives. -/
theorem memExec_ok {s1 : State} {c1 : Context} (hf : f s s.eng c = .ok (s1, c1)) :
    memExec f s = .next (s1.setCtx s.cur (c1.advance s.eng)) := runS_ok h (by rw [hf]; rfl)

/-- An issue that raises a fault takes it. -/
theorem memExec_trap {x : Trap} (hf : f s s.eng c = .error (.trap x)) : memExec f s = traps s c x :=
  runS_trap h (by rw [hf]; rfl)
end

/-! Loads (R248 to R250). -/

/-- The teammate whose window an address names: the task itself, or another one of its launch (R248). -/
def matesContext (s : State) (c : Context) (m : Nat) (x : Context) : Prop :=
  m = c.bind.wid ∧ x = c ∨ m ≠ c.bind.wid ∧ taskCtx? s c.bind.lid m = some x

/-- The context that an issue takes for a teammate is the teammate's. -/
theorem ite_taskCtx?_of_mate {s : State} {c x : Context} {m : Nat} (hx : matesContext s c m x) :
    (if m = c.bind.wid then c else (taskCtx? s c.bind.lid m).getD c) = x := by
  obtain ⟨hm, hx⟩ | ⟨hm, hx⟩ := hx
  · rw [if_pos hm, hx]
  · rw [if_neg hm, hx, Option.getD_some]

section
variable {s : State} {c : Context} {e : Engine} {o : MV} {n a : Nat}

/-- A load from memory answers with its access. -/
theorem loadIssue_mem {ok : Trans → Bool} {v : Nat} {ps : List Part} (hl : c.vdst e o.l 0 = .ok (n : Int))
    (hn : n < 64 * c.bind.window) (ht : mvTarget c e s.cur false o 0 = .ok (.mem a)) (ha : a % 64 = 0)
    (hr : readMem s (c.who s.cur) c.r.gver ok 1 (a % 2 ^ 56) 512 = .ok (v, ps)) :
    loadIssue ok o {} s e c = .ok (s.noteParts (c.who s.cur) ps, c.wrL n (BitVec.ofNat 4096 v)) := by
  rw [loadIssue, res_bind_of_ok hl, res_bind_of_ok (Context.inWin_ok (Int.natCast_nonneg n) hn), res_bind_of_ok ht]
  dsimp only
  rw [check_bind_true (beq_iff_eq.2 ha), res_bind_of_ok hr, Int.toNat_natCast]

/-- A load from a window of the team reads the window of the teammate. -/
theorem loadIssue_peer {ok : Trans → Bool} {m : Nat} {x : Context} (hl : c.vdst e o.l 0 = .ok (n : Int))
    (hn : n < 64 * c.bind.window) (ht : mvTarget c e s.cur false o 0 = .ok (.peer a)) (ha : a % 64 = 0)
    (hm : peerWid s c a = .ok m) (hx : matesContext s c m x) (hecc : windowEcc s x a = .ok ()) :
    loadIssue ok o {} s e c = .ok (s, c.wrL n (windowRead x (a % 2 ^ 20))) := by
  rw [loadIssue, res_bind_of_ok hl, res_bind_of_ok (Context.inWin_ok (Int.natCast_nonneg n) hn), res_bind_of_ok ht]
  dsimp only
  rw [check_bind_true (beq_iff_eq.2 ha), res_bind_of_ok hm, ite_taskCtx?_of_mate hx, res_bind_of_ok hecc, Int.toNat_natCast]
end

/-- PREF's issue changes nothing (R255), and a slot of it passes. -/
theorem execPref_passes {s : State} {c : Context} (h : runs s c) {o : MV} (hwf : o.wf .pref = true) :
    execPref o s = passes s c := memExec_ok h (check_bind_true hwf ..)

/-- SWFENCE empties the core's operand cache (R256). -/
theorem execSwfence_empties {s : State} {c : Context} (h : runs s c) : execSwfence s =
    .next ((s.setCore (coreOf s.cur) { s.core (coreOf s.cur) with ocache := [] }).setCtx s.cur (c.advance s.eng)) :=
  runS_ok h rfl

/-- A load from memory changes its line, and of the machine at most what the core keeps of translations. -/
theorem loaded_frame (s : State) (w : Who) (ps : List Part) (c : Context) :
    ((s.noteParts w ps).setCtx s.cur c).ctx? s.cur = some c ∧ ((s.noteParts w ps).setCtx s.cur c).mem = s.mem ∧
    ((s.noteParts w ps).setCtx s.cur c).tags = s.tags ∧
    ∀ p, p ≠ s.cur → ((s.noteParts w ps).setCtx s.cur c).ctx? p = s.ctx? p :=
  ⟨State.ctx?_setCtx_same .., by simp, by simp, fun p hp => by rw [State.ctx?_setCtx_other _ _ _ _ hp, State.noteParts_ctx?]⟩

/-- The loads, PREF and SWFENCE. -/
theorem lineLoads : LineLoads := by
  intro s c o n h hl hn
  refine ⟨fun a v ps hwf ht ha hr => ?_, fun a v ps hwf ht ha hr => ?_, fun a m x hwf ht ha hm hx hecc => ?_,
    execPref_passes h, ?_⟩
  · exact ⟨_, memExec_ok h ((check_bind_true hwf ..).trans (loadIssue_mem hl hn ht ha hr)), loaded_frame ..⟩
  · exact ⟨_, memExec_ok h ((check_bind_true hwf ..).trans (loadIssue_mem hl hn ht ha hr)), loaded_frame ..⟩
  · exact ⟨_, memExec_ok h ((check_bind_true hwf ..).trans (loadIssue_peer hl hn ht ha hm hx hecc)),
      fun i hi => elem_windowRead x _ hi⟩
  · exact ⟨_, execSwfence_empties h, State.ctx?_setCtx_same .., congrArg Core.ocache (lookD_putD_same ..), rfl⟩

/-! Stores (R248 to R250, R253). -/

section
variable {s : State} {c : Context} {e : Engine} {o : MV} {n a : Nat} {ws : Bool}

/-- The machine after a store of a number to the parts of an access. -/
def storedTo (s : State) (c : Context) (ps : List Part) (v : Nat) : State :=
  writeTags ((s.store ps v).noteParts (c.who s.cur) ps) c.r.gver ps

/-- A store to memory answers with its access. -/
theorem storeIssue_mem {ps : List Part} (hbad : s.bad = []) (hl : c.vsrc e o.l 0 = .ok (.at (n : Int)))
    (hn : n < 64 * c.bind.window) (ht : mvTarget c e s.cur true o 0 = .ok (.mem a)) (ha : a % 64 = 0)
    (hopen : ws = true → storeOpen s (c.who s.cur) (a % 2 ^ 56) = .ok ())
    (hr : accessCheck s (c.who s.cur) .write (fun t => t.ws == ws && (!t.grd || a % 2 ^ 56 % 512 == 0)) 1 (a % 2 ^ 56) 512 =
      .ok ps) :
    storeIssue ws o {} s e c = .ok (storedTo s c ps (c.rdL n).toNat, c) := by
  rw [storeIssue, res_bind_of_ok hl, res_bind_of_ok (Context.opdIn_line hn), res_bind_of_ok ht]
  dsimp only
  rw [check_bind_true (beq_iff_eq.2 ha), ite_bind_of_ok hopen fun _ => rfl, writeMem, res_bind_of_ok hr, hbad]
  rfl

/-- A store of a number to the parts of an access writes it there and nowhere else in memory. -/
theorem stored_frame (s : State) (c d : Context) (ps : List Part) (v : Nat) :
    ((storedTo s c ps v).setCtx s.cur d).mem = writeParts s.mem ps v ∧
    (∀ l, l ∉ locations ps → ((storedTo s c ps v).setCtx s.cur d).mem.read l = s.mem.read l) ∧
    ((storedTo s c ps v).setCtx s.cur d).ctx? s.cur = some d := by
  have hmem : ((storedTo s c ps v).setCtx s.cur d).mem = writeParts s.mem ps v := by simp [storedTo, State.store]
  exact ⟨hmem, fun l hl => by rw [hmem, read_writeParts_outside l ps _ _ hl], State.ctx?_setCtx_same ..⟩

/-- What a store to the window of a teammate does to the context whose window it is: the task's own window is written, and
another's from outside (R248, R269). -/
def putToWindow (c : Context) (m off : Nat) (l : Line) (x : Context) : Context :=
  if m = c.bind.wid then windowWrite x off l else x.outside [off / 512, (off + 511) / 512] (windowWrite x off l)

/-- A store to a window leaves registers, binding and positions, and writes its 512 bytes. -/
theorem putToWindow_says (c : Context) (m off : Nat) (l : Line) (y : Context) :
    (putToWindow c m off l y).r = y.r ∧ (putToWindow c m off l y).bind = y.bind ∧ (putToWindow c m off l y).pos = y.pos ∧
    ∀ i, windowByte (putToWindow c m off l y) i =
      if off ≤ i ∧ i < off + 512 then elem l 8 (i - off) else windowByte y i := by
  obtain ⟨hr, hb, hp⟩ := windowWrite_keeps y off l
  unfold putToWindow
  split <;> exact ⟨hr, hb, hp, windowByte_windowWrite y off l⟩

/-- A store to a window of the team writes the window of the teammate. -/
theorem storeIssue_peer {m : Nat} {x : Context} (hl : c.vsrc e o.l 0 = .ok (.at (n : Int))) (hn : n < 64 * c.bind.window)
    (ht : mvTarget c e s.cur true o 0 = .ok (.peer a)) (ha : a % 64 = 0) (hm : peerWid s c a = .ok m)
    (hx : matesContext s c m x) (hecc : a % 512 = 0 ∨ windowEcc s x a = .ok ()) :
    storeIssue ws o {} s e c = .ok (if m = c.bind.wid then (s, putToWindow c m (a % 2 ^ 20) (c.rdL n) c)
      else (updTask s c.bind.lid m (putToWindow c m (a % 2 ^ 20) (c.rdL n)), c)) := by
  rw [storeIssue, res_bind_of_ok hl, res_bind_of_ok (Context.opdIn_line hn), res_bind_of_ok ht]
  dsimp only
  rw [check_bind_true (beq_iff_eq.2 ha), res_bind_of_ok hm, ite_taskCtx?_of_mate hx,
    ite_bind_of_ok (fun _ => rfl) hecc.resolve_left]
  unfold putToWindow
  by_cases hown : m = c.bind.wid
  · simp only [if_pos hown]; rfl
  · simp only [if_neg hown]; rfl

/-- A store past the team's windows raises PROT (R248). -/
theorem storeIssue_prot (hl : c.vsrc e o.l 0 = .ok (.at (n : Int))) (hn : n < 64 * c.bind.window)
    (ht : mvTarget c e s.cur true o 0 = .ok (.peer a)) (ha : a % 64 = 0)
    (hout : c.bind.tsize ≤ a / 2 ^ 20 ∨ 32768 * c.bind.window < a % 2 ^ 20 + 512) :
    storeIssue ws o {} s e c = .error (.trap { code := .prot, addr := a }) := by
  have hbad : (decide (a / 2 ^ 20 < c.bind.tsize) && decide (a % 2 ^ 20 + 512 ≤ 32768 * c.bind.window)) = false := by
    simp only [Bool.and_eq_false_iff, decide_eq_false_iff_not]
    omega
  rw [storeIssue, res_bind_of_ok hl, res_bind_of_ok (Context.opdIn_line hn), res_bind_of_ok ht]
  dsimp only
  rw [check_bind_true (beq_iff_eq.2 ha), peerWid, check_bind_false hbad]
  rfl
end

/-- The stores. -/
theorem lineStores : LineStores := by
  intro s c o n h hbad hl hn
  refine ⟨fun a ps hwf ht ha hr => ?_, fun a ps hwf ht ha hopen hr => ?_, fun a m x hwf ht ha hm hx hecc => ?_,
    fun a hwf ht ha hout => ?_⟩
  · exact ⟨_, memExec_ok h ((check_bind_true hwf ..).trans (storeIssue_mem hbad hl hn ht ha nofun hr)), stored_frame ..⟩
  · exact ⟨_, memExec_ok h ((check_bind_true hwf ..).trans (storeIssue_mem hbad hl hn ht ha (fun _ => hopen) hr)),
      stored_frame ..⟩
  · refine ⟨putToWindow c m (a % 2 ^ 20) (c.rdL n), ?_, putToWindow_says c m _ _⟩
    have hissue : mvIssue .vst o {} s s.eng c = _ :=
      (check_bind_true hwf ..).trans (storeIssue_peer hl hn ht ha hm hx hecc)
    split at hissue <;> rename_i hown
    · rw [if_pos hown]; exact memExec_ok h hissue
    · rw [if_neg hown]; exact memExec_ok h hissue
  · exact memExec_trap h ((check_bind_true hwf ..).trans (storeIssue_prot hl hn ht ha hout))

/-- Settles O27: each issue answers what its access, or the window that it names, answers. -/
theorem lineMoves : Obligations.LineMoves := ⟨lineLoads, lineStores⟩

end Sys2Proof.Machine
end

section
/-!
The moves of the elements that a tensor or a line of indices names (R251 to R254): what a run of elements is in a number, then
what an issue of VLDT, VSTT, VGATH and VSCAT answers, and from that the statement.
-/
namespace Sys2Proof.Machine
open Sys2Proof.Says

/-! A run of bits written into a number (R252). -/

/-- The number `old` with the `m` bits from bit `sh` on replaced by `v`. -/
def withRun (old sh m v : Nat) : Nat := old % 2 ^ sh + v * 2 ^ sh + old / 2 ^ (sh + m) * 2 ^ (sh + m)

/-- The bits of a number into which a run is written: the run's, and the others as before. -/
theorem testBit_withRun {v m : Nat} (hv : v < 2 ^ m) (old sh j : Nat) : (withRun old sh m v).testBit j =
    if sh ≤ j ∧ j < sh + m then v.testBit (j - sh) else old.testBit j := by
  have hlow : old % 2 ^ sh < 2 ^ sh := Nat.mod_lt _ (Nat.two_pow_pos sh)
  have hrun : old % 2 ^ sh + v * 2 ^ sh < 2 ^ (sh + m) := by
    rw [Nat.pow_add]
    calc old % 2 ^ sh + v * 2 ^ sh < 2 ^ sh + v * 2 ^ sh := Nat.add_lt_add_right hlow _
      _ = 2 ^ sh * (v + 1) := by ring
      _ ≤ 2 ^ sh * 2 ^ m := Nat.mul_le_mul_left _ hv
  rw [withRun, testBit_add_mul hrun, testBit_add_mul hlow, Nat.testBit_mod_two_pow, Nat.testBit_div_two_pow]
  by_cases hin : j < sh + m
  · by_cases hbelow : j < sh
    · rw [if_pos hin, if_pos hbelow, if_neg (by omega), decide_eq_true hbelow, Bool.true_and]
    · rw [if_pos hin, if_neg hbelow, if_pos (by omega)]
  · rw [if_neg hin, if_neg (by omega), Nat.sub_add_cancel (Nat.le_of_not_lt hin)]

/-- Element `i` of a run of `n` elements of a line, from element `q` on, written into a number at bit `sh`. -/
theorem withRun_element (l : Line) (old sh : Nat) {w q n i : Nat} (hi : i < n) :
    withRun old sh (w * n) (l.toNat / 2 ^ (w * q) % 2 ^ (w * n)) / 2 ^ (sh + w * i) % 2 ^ w = elem l w (q + i) := by
  have hfit : w * i + w ≤ w * n := by rw [← Nat.mul_succ]; exact Nat.mul_le_mul_left w hi
  refine Nat.eq_of_testBit_eq fun j => ?_
  rw [Nat.testBit_mod_two_pow, Nat.testBit_div_two_pow, testBit_elem]
  by_cases hj : j < w
  case neg => simp [hj]
  rw [testBit_withRun (Nat.mod_lt _ (Nat.two_pow_pos _)), if_pos (by omega), Nat.testBit_mod_two_pow,
    Nat.testBit_div_two_pow, decide_eq_true (show j + (sh + w * i) - sh < w * n by omega), Bool.true_and,
    show j + (sh + w * i) - sh + w * q = w * (q + i) + j by rw [Nat.mul_add]; omega]

/-! Lines of a tensor (R252, R253). -/

section
variable {s : State} {c : Context} {t : TEnt} {k : TCoord} {i0 : Int}

/-- No line of elements lies inside the tensor: VLDT loads zeros. -/
theorem vldtLine_outside (hb : t.bfmt = 0) (hrun : (insideRun t k i0 (4096 / t.width)).2 = 0) :
    vldtLine s c t k i0 = .ok (0, []) := by
  simp only [vldtLine, hb, BFmt.ofCode, hrun, if_true]

/-- The elements of a plain tensor's run are read where they lie in the line. -/
theorem vldtLine_plain {ps : List Part} (hb : t.bfmt = 0) :
    let w := t.width
    let run := insideRun t k i0 (4096 / w)
    let span := runBytes w run.1 run.2
    run.2 ≠ 0 → tensorRead s (c.who s.cur) c.r.gver t (elemAlign w) (rowOf t k + span.1) span.2 = .ok ps →
    vldtLine s c t k i0 = .ok (BitVec.ofNat 4096 (packEls w (runEls w run.1 run.2 (tensorVal s.mem w ps)) *
      2 ^ (w * ((run.1 : Int) - i0).toNat)), ps) := by
  intro w run span hrun hr
  simp only [vldtLine, hb, BFmt.ofCode]
  rw [if_neg hrun, res_bind_of_ok hr]

/-- No line of elements lies inside the tensor: VSTT stores nothing. -/
theorem vsttLine_outside (l : Line) (hb : t.bfmt = 0) (hrun : (insideRun t k i0 (4096 / t.width)).2 = 0) :
    vsttLine s c t k i0 l = .ok (s, 0) := by
  simp only [vsttLine, hb, BFmt.ofCode, hrun, if_true]

/-- The line's elements are written into the bytes of a plain tensor's run. -/
theorem vsttLine_plain {ps : List Part} (l : Line) (hb : t.bfmt = 0) :
    let w := t.width
    let run := insideRun t k i0 (4096 / w)
    let span := runBytes w run.1 run.2
    run.2 ≠ 0 → tensorWrite s (c.who s.cur) t (elemAlign w) (rowOf t k + span.1) span.2 = .ok ps →
    vsttLine s c t k i0 l = .ok (putTensor s c w ps (withRun (tensorVal s.mem w ps) (run.1 * w - 8 * span.1) (w * run.2)
      (l.toNat / 2 ^ (w * ((run.1 : Int) - i0).toNat) % 2 ^ (w * run.2)))) := by
  intro w run span hrun hr
  simp only [vsttLine, hb, BFmt.ofCode]
  rw [if_neg hrun, res_bind_of_ok hr]
  rfl
end

/-- On pages that are not compressed the bytes of a tensor are written as they are. -/
theorem writeTensor_mem_of_plain (w : Nat) (ps : List Part) : ∀ (s : State) (v : Nat), (∀ x ∈ ps, x.t.cmp = false) →
    (writeTensor s w ps v).1.mem = writeParts s.mem ps v := by
  induction ps with
  | nil => exact fun s v _ => rfl
  | cons p r ih =>
    intro s v hplain
    have hp : writeTensorPart s w p v = (s.store [p] v, false) := if_neg (by simp [hplain p])
    rw [writeTensor, hp]
    exact ih (s.store [p] v) (v / 2 ^ (8 * p.len)) fun x hx => hplain x (List.mem_cons_of_mem p hx)

/-- On pages that are not compressed a run of a tensor is written as it is. -/
theorem putTensor_mem_of_plain (s : State) (c : Context) (w : Nat) {ps : List Part} (v : Nat)
    (hplain : ∀ x ∈ ps, x.t.cmp = false) : (putTensor s c w ps v).1.mem = writeParts s.mem ps v := by
  simp [putTensor, writeTensor_mem_of_plain w ps s v hplain]

/-! VLDT and VSTT (R252). -/

/-- The tests that VLDT and VSTT make of their entry and coordinates are passed (R121, R252). -/
structure TensorReady (c : Context) (e : Engine) (o : MX) : Prop where
  wf : o.wf = true
  usable : (c.tent o.x.toNat).usable = true
  coordOk : (c.tent o.x.toNat).coordOk (coordOf (c.rdS e o.s)) = true
  rowOk : (c.tent o.x.toNat).rowOk (coordOf (c.rdS e o.s)) = true
  segment : (c.tent o.x.toNat).bfmt ≠ 0 → (coordOf (c.rdS e o.s)).k % 256 = 0

section
variable {s : State} {c : Context} {e : Engine} {o : MX} {n : Nat} (hready : TensorReady c e o)
include hready

/-- What both issues test of the entry and the coordinates holds. -/
theorem TensorReady.tests : ((c.tent o.x.toNat).usable && (c.tent o.x.toNat).coordOk (coordOf (c.rdS e o.s)) &&
    (c.tent o.x.toNat).rowOk (coordOf (c.rdS e o.s)) &&
    ((c.tent o.x.toNat).bfmt == 0 || ((coordOf (c.rdS e o.s)).k : Int) % 256 == 0)) = true := by
  obtain ⟨-, hu, hc, hr, hseg⟩ := hready
  rw [hu, hc, hr, Bool.true_and, Bool.true_and, Bool.true_and, Bool.or_eq_true, beq_iff_eq, beq_iff_eq]
  exact or_iff_not_imp_left.2 fun hb => by have := hseg hb; omega

variable (hn : n < 64 * c.bind.window)
include hn

/-- VLDT's issue writes the line that its tensor gives. -/
theorem mxIssue_load {l : Line} {ps : List Part} (hl : c.vdst e o.l 0 = .ok (n : Int))
    (hline : vldtLine s c (c.tent o.x.toNat) (coordOf (c.rdS e o.s)) (coordOf (c.rdS e o.s)).k = .ok (l, ps)) :
    mxIssue false o {} s e c = .ok (s.noteParts (c.who s.cur) ps, c.wrL n l) := by
  rw [mxIssue, check_bind_true hready.wf]
  simp only [Int.mul_zero, Int.add_zero, Bool.false_eq_true, if_false]
  rw [check_bind_true (hready.tests), res_bind_of_ok hl, res_bind_of_ok (Context.inWin_ok (Int.natCast_nonneg n) hn),
    res_bind_of_ok hline, Int.toNat_natCast]

/-- VSTT's issue leaves the machine that its tensor gives, and its flags. -/
theorem mxIssue_store {s1 : State} {f : Flags} (hl : c.vsrc e o.l 0 = .ok (.at (n : Int)))
    (hline : vsttLine s c (c.tent o.x.toNat) (coordOf (c.rdS e o.s)) (coordOf (c.rdS e o.s)).k (c.rdL n) = .ok (s1, f)) :
    mxIssue true o {} s e c = .ok (s1, c.addFlags f) := by
  rw [mxIssue, check_bind_true hready.wf]
  simp only [Int.mul_zero, Int.add_zero, if_true]
  rw [check_bind_true (hready.tests), res_bind_of_ok hl, res_bind_of_ok (Context.opdIn_line hn)]
  exact res_bind_of_ok hline _
end

/-! VGATH and VSCAT (R254). -/

@[simp] theorem Opd.lineOr_at (d n : Nat) : (Opd.at (n : Int)).lineOr d = n := rfl

/-- The elements that VGATH and VSCAT move, each with its address (R254). -/
def gatherList (c : Context) (e : Engine) (q : MG) (ix : Opd) : List (Nat × Nat) :=
  ((List.range q.ty.count).filter fun i => enabled (c.rdP e q.pred.toNat) q.ty.width i).map fun i =>
    (i, gatherAddr (c.rdS e q.base) (q.m.getLsbD 2) q.ty.width (sourceElem c q.ty.width ix i))

/-- The addresses that an issue computes are those of the elements of its index source. -/
theorem gatherList_of_opdEls (c : Context) (e : Engine) (q : MG) (ix : Opd) :
    (((List.range q.ty.count).filter fun i => enabled (c.rdP e q.pred.toNat) q.ty.width i).map fun i =>
      (i, gatherAddr (c.rdS e q.base + BitVec.ofInt 64 0) (q.m.getLsbD 2) q.ty.width ((c.opdEls q.ty.width 0 ix).getD i 0))) =
    gatherList c e q ix := by
  refine List.map_congr_left fun i hi => ?_
  have hlt : i < q.ty.count := List.mem_range.1 (List.mem_filter.1 hi).1
  have hbase : c.rdS e q.base + BitVec.ofInt 64 0 = c.rdS e q.base := BitVec.add_zero _
  rw [Context.opdEls_eq_map_sourceElem, getD_map_range _ _ hlt, hbase]

/-- The machine with the translations of all elements kept (R242). -/
def notedAll (s : State) (c : Context) (ps : List (Nat × List Part)) : State :=
  ps.foldl (fun s x => s.noteParts (c.who s.cur) x.2) s

@[simp] theorem notedAll_mem (s : State) (c : Context) (ps : List (Nat × List Part)) : (notedAll s c ps).mem = s.mem := by
  simp [notedAll]

/-- The line that VGATH writes: the values read, and the other elements as before. -/
def gatheredLine (c : Context) (t : ElemType) (n : Nat) (vs : Store Nat) : Line :=
  lineOfEls t.width ((List.range t.count).map fun i => lookD vs i ((lineEls (c.rdL n) t.width).getD i 0))

/-- An element of the line that VGATH writes. -/
theorem elem_gatheredLine (c : Context) (t : ElemType) (n : Nat) (vs : Store Nat) {i : Nat} (hi : i < t.count) :
    elem (gatheredLine c t n vs) t.width i = lookD vs i (elem (c.rdL n) t.width i) % 2 ^ t.width := by
  rw [gatheredLine, elem_lineOfEls t _ hi, getD_map_range _ _ hi, lineEls_eq_map_elem, getD_map_range _ _ hi]

/-- Without uncorrectable sectors no scattered element raises ECCU. -/
theorem scatterEcc_of_noBad {s : State} (hbad : s.bad = []) (ps : List (Nat × List Part)) : scatterEcc s ps = .ok () := by
  induction ps with
  | nil => rfl
  | cons x r ih =>
    rw [scatterEcc, hbad]
    exact ih

/-- Scattered elements are written to memory one after another. -/
theorem scatterWrite_mem (l : Line) (w : Nat) (ps : List (Nat × List Part)) : ∀ s : State, (scatterWrite l w s ps).mem =
    ps.foldl (fun b x => writeParts b x.2 (elem l w x.1)) s.mem := by
  induction ps with
  | nil => intro s; rfl
  | cons x r ih =>
    intro s
    rw [scatterWrite, ih, List.foldl_cons]
    simp only [State.store, lineEl, elem, Nat.shiftRight_eq_div_pow]

/-- The bytes outside the scattered elements read as before. -/
theorem read_scattered_outside (l : Nat) (f : Nat → Nat) (ps : List (Nat × List Part)) : ∀ m : Memory,
    l ∉ locations (ps.flatMap (·.2)) → (ps.foldl (fun b x => writeParts b x.2 (f x.1)) m).read l = m.read l := by
  induction ps with
  | nil => intros; rfl
  | cons x r ih =>
    intro m hl
    rw [List.flatMap_cons, locations, List.flatMap_append, List.mem_append, not_or] at hl
    rw [List.foldl_cons, ih _ hl.2, read_writeParts_outside l x.2 _ _ hl.1]

section
variable {s : State} {c : Context} {e : Engine} {q : MG} {n : Nat} {ix : Opd} {ps : List (Nat × List Part)}
  (hwf : q.wf = true) (hn : n < 64 * c.bind.window) (hix : c.vsrc e q.i 0 = .ok ix) (hin : inside c 1 ix)
include hwf hn hix hin

/-- VGATH's issue writes what it reads to the enabled elements. -/
theorem mgIssue_gather {vs : Store Nat} (hl : c.vdst e q.l 0 = .ok (n : Int))
    (hps : gatherParts s (c.who s.cur) false (q.ty.width / 8) (gatherList c e q ix) = .ok ps)
    (hvs : gatherRead s c.r.gver ps = .ok vs) :
    mgIssue false q {} s e c = .ok (notedAll s c ps, c.wrL n (gatheredLine c q.ty n vs)) := by
  rw [mgIssue, check_bind_true hwf]
  simp only [Int.mul_zero, Bool.false_eq_true, if_false, bind_assoc]
  rw [res_bind_of_ok hl, res_bind_of_ok rfl, res_bind_of_ok (Context.opdIn_line hn), res_bind_of_ok hix,
    res_bind_of_ok (Context.opdIn_ok hin), gatherList_of_opdEls, res_bind_of_ok hps, res_bind_of_ok hvs,
    Opd.lineOr_at]
  rfl

/-- VSCAT's issue stores the enabled elements one after another. -/
theorem mgIssue_scatter (hbad : s.bad = []) (hl : c.vsrc e q.l 0 = .ok (.at (n : Int)))
    (hps : gatherParts s (c.who s.cur) true (q.ty.width / 8) (gatherList c e q ix) = .ok ps) :
    mgIssue true q {} s e c = .ok (scatterWrite (c.rdL n) q.ty.width (notedAll s c ps) ps, c) := by
  rw [mgIssue, check_bind_true hwf]
  simp only [Int.mul_zero, if_true]
  rw [res_bind_of_ok hl, res_bind_of_ok (Context.opdIn_line hn), res_bind_of_ok hix, res_bind_of_ok (Context.opdIn_ok hin),
    gatherList_of_opdEls, res_bind_of_ok hps, res_bind_of_ok (scatterEcc_of_noBad hbad ps), Opd.lineOr_at]
  rfl
end

/-! The moves. -/

section
variable {s : State} {c : Context} (h : runs s c) {n : Nat} (hn : n < 64 * c.bind.window)
include h hn

section
variable {o : MX} (hready : TensorReady c s.eng o)
include hready

/-- VLDT writes the line that its tensor gives. -/
theorem execVldt_loads {l : Line} {ps : List Part} (hl : c.vdst s.eng o.l 0 = .ok (n : Int))
    (hline : vldtLine s c (c.tent o.x.toNat) (coordOf (c.rdS s.eng o.s)) (coordOf (c.rdS s.eng o.s)).k = .ok (l, ps)) :
    execVldt o s = .next ((s.noteParts (c.who s.cur) ps).setCtx s.cur ((c.wrL n l).advance s.eng)) :=
  memExec_ok h (mxIssue_load hready hn hl hline)

/-- VSTT leaves the machine and the flags that its tensor gives. -/
theorem execVstt_stores {s1 : State} {f : Flags} (hl : c.vsrc s.eng o.l 0 = .ok (.at (n : Int)))
    (hline : vsttLine s c (c.tent o.x.toNat) (coordOf (c.rdS s.eng o.s)) (coordOf (c.rdS s.eng o.s)).k (c.rdL n) =
      .ok (s1, f)) :
    execVstt o s = .next (s1.setCtx s.cur ((c.addFlags f).advance s.eng)) :=
  memExec_ok h (mxIssue_store hready hn hl hline)
end
end

/-- Settles O28: a tensor's line and its run of bits, and the elements gathered or scattered one after another. -/
theorem tensorAndIndexedMoves : Obligations.TensorAndIndexedMoves := by
  intro s c o q n h hbad hn t k who w run span first v p
  refine ⟨?loadsPlain, ?storesPlain, ?loads, ?stores, ?gathers, ?scatters⟩
  case loadsPlain =>
    intro hwf hu hc hr hb hl
    have hready : TensorReady c s.eng o := ⟨hwf, hu, hc, hr, fun hne => absurd hb hne⟩
    refine ⟨fun hrun => execVldt_loads h hn hready hl (vldtLine_outside hb hrun), fun ps hrun hps => ?_⟩
    exact ⟨_, execVldt_loads h hn hready hl (vldtLine_plain hb hrun hps), by simp, State.ctx?_setCtx_same ..⟩
  case storesPlain =>
    intro hwf hu hc hr hb hl
    have hready : TensorReady c s.eng o := ⟨hwf, hu, hc, hr, fun hne => absurd hb hne⟩
    refine ⟨fun hrun => ?_, fun ps hrun hps hplain => ?_⟩
    · exact (execVstt_stores h hn hready hl (vsttLine_outside _ hb hrun)).trans (by rw [Context.addFlags_zero]; rfl)
    · have hstep := execVstt_stores h hn hready hl (vsttLine_plain (c.rdL n) hb hrun hps)
      have hmem := putTensor_mem_of_plain s c w (withRun (tensorVal s.mem w ps) first (w * run.2)
        ((c.rdL n).toNat / 2 ^ (w * ((run.1 : Int) - k.k).toNat) % 2 ^ (w * run.2))) hplain
      refine ⟨_, _, _, hstep, State.ctx?_setCtx_same .., rfl, hmem, fun i hi => withRun_element _ _ _ hi, fun j _ hj => ?_,
        fun l hl => (congrArg (·.read l) hmem).trans (read_writeParts_outside l ps _ _ hl)⟩
      rw [testBit_withRun (Nat.mod_lt _ (Nat.two_pow_pos _)), if_neg (by omega)]
  case loads =>
    intro l ps hwf hu hc hr hseg hl hline
    exact ⟨_, execVldt_loads h hn ⟨hwf, hu, hc, hr, hseg⟩ hl hline, by simp, State.ctx?_setCtx_same ..⟩
  case stores =>
    intro s1 f hwf hu hc hr hseg hl hline
    exact execVstt_stores h hn ⟨hwf, hu, hc, hr, hseg⟩ hl hline
  case gathers =>
    intro ix ps vs hwf hl hix hin hps hvs
    exact ⟨_, _, memExec_ok h (mgIssue_gather hwf hn hix hin hl hps hvs), State.ctx?_setCtx_same .., notedAll_mem ..,
      fun i hi => elem_gatheredLine c q.ty n vs hi⟩
  case scatters =>
    intro ix ps hwf hl hix hin hps
    have hmem : (scatterWrite (c.rdL n) v (notedAll s c ps) ps).mem =
        ps.foldl (fun b x => writeParts b x.2 (elem (c.rdL n) v x.1)) s.mem := by
      rw [scatterWrite_mem, notedAll_mem]
    exact ⟨_, memExec_ok h (mgIssue_scatter hwf hn hix hin hbad hl hps), State.ctx?_setCtx_same .., hmem,
      fun l hl => (congrArg (·.read l) hmem).trans (read_scattered_outside l (elem (c.rdL n) v) ps _ hl)⟩

end Sys2Proof.Machine
end

section
/-!
Readiness bits and laser banks (R326, R328, R345, R407, R414): the bits, the circuits that are re-established, the places at which
banks serve, and then a bank's removal and return.
-/
namespace Sys2Proof.Machine
open Sys2Proof.Says

/-! Readiness bits (R407). -/

/-- A readiness bit that is written holds what was written. -/
theorem readyBit_setReady_same (s : State) {n : Nat} (b : Bool) (hn : n < 2048) : readyBit (setReady s n b) n = b := by
  cases b <;> simp [readyBit, setReady, hn]

/-- A readiness bit that is cleared is clear. -/
theorem readyBit_setReady_false (s : State) (n : Nat) : readyBit (setReady s n false) n = false := by
  by_cases hn : n < 2048
  · exact readyBit_setReady_same s false hn
  · exact BitVec.getLsbD_of_ge _ _ (Nat.le_of_not_lt hn)

/-- A readiness bit that is written leaves the others. -/
theorem readyBit_setReady_other (s : State) {n k : Nat} (b : Bool) (h : k ≠ n) :
    readyBit (setReady s n b) k = readyBit s k := by
  by_cases hk : k < 2048
  · have hout : (1#2048 <<< n).getLsbD k = false := by
      rw [← BitVec.twoPow_eq, BitVec.getLsbD_twoPow, decide_eq_false h.symm, Bool.and_false]
    cases b with
    | true => exact (BitVec.getLsbD_or ..).trans (by rw [hout, Bool.or_false]; rfl)
    | false =>
      refine (BitVec.getLsbD_and ..).trans ?_
      rw [BitVec.getLsbD_not, hout, decide_eq_true hk, Bool.not_false, Bool.and_true, Bool.and_true]
      rfl
  · rw [readyBit, readyBit, BitVec.getLsbD_of_ge _ _ (Nat.le_of_not_lt hk), BitVec.getLsbD_of_ge _ _ (Nat.le_of_not_lt hk)]

/-- A bit that is set stands, and no other changes. -/
theorem setReady_sets (s : State) {n : Nat} (hn : n < 2048) : readyBit (setReady s n true) n = true ∧
    (∀ j < 2048, j ≠ n → readyBit (setReady s n true) j = readyBit s j) ∧ (setReady s n true).mem = s.mem :=
  ⟨readyBit_setReady_same s true hn, fun _ _ hj => readyBit_setReady_other s true hj, rfl⟩

theorem lt_of_readyAssigned {n : Nat} (h : readyAssigned n = true) : n < 2048 := by
  simp [readyAssigned] at h
  omega

/-! Entries that a write of another key leaves. -/

section
variable {α : Type} {m : Store α} {e : Nat × α} {n : Nat}

theorem mem_del_of_ne (h : e ∈ m) (hn : e.1 ≠ n) : e ∈ del m n := by
  induction m with
  | nil => exact h
  | cons x r ih =>
    obtain ⟨k, v⟩ := x
    rw [del]
    obtain rfl | h := List.mem_cons.1 h
    · rw [if_neg hn]; exact List.mem_cons_self
    · split
      · exact ih h
      · exact List.mem_cons_of_mem _ (ih h)

theorem mem_put_of_ne (v : α) (h : e ∈ m) (hn : e.1 ≠ n) : e ∈ put m n v := by
  induction m with
  | nil => cases h
  | cons x r ih =>
    obtain ⟨k, u⟩ := x
    rw [put]
    split
    · exact List.mem_cons_of_mem _ h
    · obtain rfl | h := List.mem_cons.1 h
      · rw [if_neg hn.symm]; exact List.mem_cons_self
      · split
        · exact List.mem_cons_of_mem _ h
        · exact List.mem_cons_of_mem _ (ih h)

theorem mem_putD_of_ne [DecidableEq α] (v d : α) (h : e ∈ m) (hn : e.1 ≠ n) : e ∈ putD m n v d := by
  unfold putD
  split
  · exact mem_del_of_ne h hn
  · exact mem_put_of_ne v h hn
end

/-! Circuits that are re-established (R328, R345, R414). -/

/-- A circuit that is re-established is written, and nothing else. -/
theorem reEstablish_eq (s : State) (e : Nat × Circuit) : ∃ k, reEstablish s e = s.setCircuit e.1 k := by
  unfold reEstablish
  dsimp only
  split <;> exact ⟨_, rfl⟩

/-- What writing a circuit leaves, re-establishing some leaves. -/
theorem foldl_reEstablish_keeps {γ : Type} (g : State → γ) (hg : ∀ s n k, g (s.setCircuit n k) = g s)
    (es : List (Nat × Circuit)) (s : State) : g (es.foldl reEstablish s) = g s := by
  refine foldl_keeps g (fun t e => ?_) es s
  obtain ⟨k, hk⟩ := reEstablish_eq t e
  rw [hk, hg]

theorem renewCircuits_m (s : State) (all : Bool) : (renewCircuits s all).m = s.m :=
  foldl_reEstablish_keeps State.m (fun _ _ _ => rfl) _ s

theorem renewCircuits_ctxs (s : State) (all : Bool) : (renewCircuits s all).ctxs = s.ctxs :=
  foldl_reEstablish_keeps State.ctxs (fun _ _ _ => rfl) _ s

/-- A circuit stays while others are re-established. -/
theorem mem_circuits_foldl_reEstablish {e : Nat × Circuit} (es : List (Nat × Circuit)) (hne : ∀ x ∈ es, e.1 ≠ x.1) :
    ∀ s : State, e ∈ s.circuits → e ∈ (es.foldl reEstablish s).circuits := by
  induction es with
  | nil => exact fun s he => he
  | cons x r ih =>
    intro s he
    obtain ⟨k, hk⟩ := reEstablish_eq s x
    rw [List.foldl_cons, hk]
    exact ih (fun y hy => hne y (List.mem_cons_of_mem x hy)) _ (mem_putD_of_ne k {} he (hne x List.mem_cons_self))

/-! Laser banks (R326, R407, R414). -/

/-- Bank `y` serves at place `p` in `t` for the one that served there in `s`: its bit is set, that one's is clear, no bank is
spare, and of the circuits at most those that the place feeds are re-established (R414). -/
structure BankServes (s t : State) (p y : Nat) : Prop where
  spare : t.m.spare = none
  place : bankAt t p = y
  others : ∀ q < 4, q ≠ p → bankAt t q = bankAt s q
  ready : readyBit t (18 + y) = true
  out : readyBit t (18 + bankAt s p) = false
  bits : ∀ n, n ≠ 18 + y → n ≠ 18 + bankAt s p → readyBit t n = readyBit s n
  ctxs : t.ctxs = s.ctxs
  mem : t.mem = s.mem
  circuits : (∀ e ∈ s.circuits, e.2.renew = false) → ∀ e ∈ s.circuits, Config.bankFeeds p e.1 = false → e ∈ t.circuits

/-- The circuits that a change of the bank at a place marks for re-establishment (R414). -/
def renewFed (p : Nat) (e : Nat × Circuit) : Nat × Circuit :=
  if e.2.state != .idle && Config.bankFeeds p e.1 then (e.1, { e.2 with renew := true }) else e

/-- A marked circuit is one that the place feeds, where none was marked before. -/
theorem bankFeeds_of_renewFed {p : Nat} {e : Nat × Circuit} (h0 : e.2.renew = false) (h : (renewFed p e).2.renew = true) :
    Config.bankFeeds p (renewFed p e).1 = true := by
  unfold renewFed at h ⊢
  split
  case isTrue hfed => exact (Bool.and_eq_true_iff.1 hfed).2
  case isFalse hfed => rw [if_neg hfed, h0] at h; cases h

/-- A circuit that the place does not feed is not marked. -/
theorem renewFed_of_unfed {p : Nat} {e : Nat × Circuit} (h : Config.bankFeeds p e.1 = false) : renewFed p e = e :=
  if_neg (by simp [h])

/-- The machine once bank `y`, the spare, stands at a place and the circuits that the place feeds are marked (R414). -/
def spareAtPlace (s : State) (p y : Nat) : State :=
  let s1 := setReady { s with m := { s.m with spare := none, serves := putD s.m.serves p y p } } (18 + bankAt s p) false
  { s1 with circuits := s1.circuits.map (renewFed p) }

/-- A spare bank that is ready is switched to, and the marked circuits in a window are re-established (R414). -/
theorem switchBank_of_ready {s : State} (p : Nat) {y : Nat} (hspare : s.m.spare = some y)
    (hready : readyBit s (18 + y) = true) : switchBank s p = renewCircuits (spareAtPlace s p y) false := by
  unfold switchBank
  simp only [hspare, hready, if_true]
  rfl

/-- A spare bank that is ready takes a place (R414). -/
theorem switchBank_serves {s : State} {p y : Nat} (hspare : s.m.spare = some y) (hready : readyBit s (18 + y) = true)
    (hne : bankAt s p ≠ y) : BankServes s (switchBank s p) p y := by
  have hswitch := switchBank_of_ready p hspare hready
  have hm : (switchBank s p).m = (spareAtPlace s p y).m := by rw [hswitch, renewCircuits_m]
  have hbank (q : Nat) : bankAt (switchBank s p) q = lookD (putD s.m.serves p y p) q q := by rw [bankAt, hm]; rfl
  have hbit (n : Nat) : readyBit (switchBank s p) n = readyBit (setReady s (18 + bankAt s p) false) n := by
    rw [readyBit, hm]; rfl
  refine ⟨by rw [hm]; rfl, by rw [hbank, lookD_putD_same], fun q _ hq => ?_, ?_, ?_, fun n _ hn => ?_, ?_, by simp, ?_⟩
  · rw [hbank, lookD_putD_other_key _ _ _ _ _ _ hq, bankAt]
  · rw [hbit, readyBit_setReady_other _ _ (by omega), hready]
  · rw [hbit, readyBit_setReady_false]
  · rw [hbit, readyBit_setReady_other _ _ hn]
  · rw [hswitch, renewCircuits_ctxs]; rfl
  · intro hnone e he hfed
    rw [hswitch]
    refine mem_circuits_foldl_reEstablish _ (fun x hx hkey => ?_) _ (List.mem_map.2 ⟨e, he, renewFed_of_unfed hfed⟩)
    obtain ⟨hx, hrenew⟩ := List.mem_filter.1 hx
    obtain ⟨e0, he0, rfl⟩ := List.mem_map.1 hx
    rw [hkey, bankFeeds_of_renewFed (hnone e0 he0) (Bool.and_eq_true_iff.1 hrenew).1] at hfed
    cases hfed

/-- Without a spare bank that is ready no place changes its bank (log 64). -/
theorem switchBank_of_noSpare {s : State} (p : Nat)
    (h : s.m.spare = none ∨ ∃ y, s.m.spare = some y ∧ readyBit s (18 + y) = false) : switchBank s p = s := by
  obtain h | ⟨y, hy, hbit⟩ := h
  · simp [switchBank, h]
  · simp [switchBank, hy, hbit]

/-- A change of a place's bank leaves the defect map. -/
theorem switchBank_defects (s : State) (p : Nat) : (switchBank s p).m.defects = s.m.defects := by
  cases hspare : s.m.spare with
  | none => rw [switchBank_of_noSpare p (.inl hspare)]
  | some y =>
    cases hready : readyBit s (18 + y) with
    | false => rw [switchBank_of_noSpare p (.inr ⟨y, hspare, hready⟩)]
    | true => rw [switchBank_of_ready p hspare hready, renewCircuits_m]; rfl

/-- The first place at which a bank serves. -/
theorem placeOf?_eq_some {s : State} {b p : Nat} (hp : p < 4) (hb : bankAt s p = b) (hfirst : ∀ q < p, bankAt s q ≠ b) :
    placeOf? s b = some p := by
  rw [placeOf?, List.find?_range_eq_some]
  exact ⟨beq_iff_eq.2 hb, List.mem_range.2 hp, fun q hq => by simp [hfirst q hq]⟩

/-- A bank that serves at no place has none. -/
theorem placeOf?_eq_none {s : State} {b : Nat} (h : ¬ ∃ p < 4, bankAt s p = b) : placeOf? s b = none := by
  rw [placeOf?, List.find?_range_eq_none]
  exact fun q hq => by simpa using fun hb => h ⟨q, hq, hb⟩

/-- A bank that serves at a place has one. -/
theorem placeOf?_isSome {s : State} {b : Nat} (h : ∃ p < 4, bankAt s p = b) : ∃ p, placeOf? s b = some p := by
  obtain ⟨p, hp, hb⟩ := h
  exact Option.isSome_iff_exists.1 (List.find?_isSome.2 ⟨p, List.mem_range.2 hp, beq_iff_eq.2 hb⟩)

/-- The bank of a place has been retired (R326, R414). -/
def retiredAt (s : State) (p : Nat) : Prop := readyBit s (18 + bankAt s p) = false ∧
  defectWord { kind := 6, die := 0, index := BitVec.ofNat 32 (bankAt s p) } ∈ s.m.defects

theorem retired_iff (s : State) (p : Nat) : (!readyBit s (18 + bankAt s p) &&
    s.m.defects.contains (defectWord { kind := 6, die := 0, index := BitVec.ofNat 32 (bankAt s p) })) = true ↔
    retiredAt s p := by
  simp [retiredAt]

theorem retiredPlace?_eq_some {s : State} {p : Nat} (hp : p < 4) (hr : retiredAt s p) (hfirst : ∀ q < p, ¬ retiredAt s q) :
    retiredPlace? s = some p := by
  rw [retiredPlace?, List.find?_range_eq_some]
  refine ⟨(retired_iff s p).2 hr, List.mem_range.2 hp, fun q hq => ?_⟩
  rw [Bool.not_eq_true', ← Bool.not_eq_true, retired_iff]
  exact hfirst q hq

theorem retiredPlace?_eq_none {s : State} (h : ∀ p < 4, ¬ retiredAt s p) : retiredPlace? s = none := by
  rw [retiredPlace?, List.find?_range_eq_none]
  intro q hq
  rw [Bool.not_eq_true', ← Bool.not_eq_true, retired_iff]
  exact h q hq

/-- A bank in service that is removed is switched to the spare (R414). -/
theorem execLaserBankRemove_switches {s : State} {b p y : Nat} (hp : p < 4) (hb : bankAt s p = b)
    (hfirst : ∀ q < p, bankAt s q ≠ b) (hspare : s.m.spare = some y) (hne : y ≠ b) (hbit : readyBit s (18 + b) = true)
    (hy : readyBit s (18 + y) = true) :
    ∃ t, execLaserBankRemove b s = .next t ∧ BankServes s t p y := by
  refine ⟨switchBank s p, ?_, switchBank_serves hspare hy fun h => hne (h.symm.trans hb)⟩
  simp only [execLaserBankRemove, removeBank, hbit, if_true, placeOf?_eq_some hp hb hfirst]

/-- A removal with no place to change, or no spare bank that is ready, does nothing (log 64). -/
theorem execLaserBankRemove_idle {s : State} {b : Nat} (hbit : readyBit s (18 + b) = true)
    (h : (¬ ∃ p < 4, bankAt s p = b) ∨ s.m.spare = none ∨ ∃ y, s.m.spare = some y ∧ readyBit s (18 + y) = false) :
    execLaserBankRemove b s = .next s := by
  have hremove : removeBank s b = s := by
    unfold removeBank
    obtain h | h := h
    · rw [placeOf?_eq_none h]
    · split
      · rw [switchBank_of_noSpare _ h, ite_self]
      · rfl
  rw [execLaserBankRemove, hbit, hremove]
  rfl

/-- A bank that is out has the circuits re-established for which no window has come (R414). -/
theorem execLaserBankRemove_out {s : State} {b : Nat} (hbit : readyBit s (18 + b) = false) :
    execLaserBankRemove b s = .next (renewCircuits s true) := by
  rw [execLaserBankRemove, hbit]
  rfl

/-- The machine once a bank's bit is set and the bank is the spare. -/
def withSpare (s : State) (b : Nat) : State :=
  { setReady s (18 + b) true with m := { (setReady s (18 + b) true).m with spare := some b } }

theorem readyBit_withSpare_other {s : State} {b n : Nat} (h : n ≠ 18 + b) :
    readyBit (withSpare s b) n = readyBit s n := readyBit_setReady_other s true h

theorem readyBit_withSpare_same {s : State} {b : Nat} (h : b < 5) : readyBit (withSpare s b) (18 + b) = true :=
  readyBit_setReady_same s true (by omega)

/-- A bank that serves nowhere is not among those that are retired at a place, before its return and after. -/
theorem retiredAt_withSpare {s : State} {b p : Nat} (h : bankAt s p ≠ b) : retiredAt (withSpare s b) p ↔ retiredAt s p := by
  have hbit : readyBit (withSpare s b) (18 + bankAt s p) = readyBit s (18 + bankAt s p) :=
    readyBit_withSpare_other (by omega)
  unfold retiredAt
  rw [← hbit]
  rfl

section
variable {s : State} {b : Nat} (hb : b < 5) (hbit : readyBit s (18 + b) = false)
include hb hbit

/-- A bank that is out and passes is taken back. -/
theorem returnTaken : (true && decide (b < 5) && !readyBit s (18 + b)) = true := by rw [hbit, decide_eq_true hb]; rfl

/-- A bank whose place no other has taken serves there again (log 64). -/
theorem execLaserBankReturn_serves (hplace : ∃ p < 4, bankAt s p = b) :
    execLaserBankReturn b true s = .next (setReady s (18 + b) true) := by
  obtain ⟨p, hp⟩ := placeOf?_isSome hplace
  rw [execLaserBankReturn, if_pos (returnTaken hb hbit)]
  simp only [hp]

/-- A bank that comes back when no retired one waits for it is the spare (R414). -/
theorem execLaserBankReturn_spare (hplace : ¬ ∃ p < 4, bankAt s p = b) (hret : ∀ p < 4, ¬ retiredAt s p) :
    execLaserBankReturn b true s = .next (withSpare s b) := by
  have hnone : retiredPlace? (withSpare s b) = none := retiredPlace?_eq_none fun p hp hr =>
    hret p hp ((retiredAt_withSpare fun h => hplace ⟨p, hp, h⟩).1 hr)
  rw [execLaserBankReturn, if_pos (returnTaken hb hbit)]
  simp only [placeOf?_eq_none hplace]
  rw [← withSpare, hnone]

/-- A bank that comes back takes the first place whose bank was retired (R326, R414). -/
theorem execLaserBankReturn_replaces {p : Nat} (hp : p < 4) (hplace : ¬ ∃ p < 4, bankAt s p = b) (hret : retiredAt s p)
    (hfirst : ∀ q < p, ¬ retiredAt s q) :
    ∃ t, execLaserBankReturn b true s = .next t ∧ BankServes s t p b := by
  have hne (q : Nat) (hq : q < 4) : bankAt s q ≠ b := fun h => hplace ⟨q, hq, h⟩
  have hsome : retiredPlace? (withSpare s b) = some p := retiredPlace?_eq_some hp ((retiredAt_withSpare (hne p hp)).2 hret)
    fun q hq hr => hfirst q hq ((retiredAt_withSpare (hne q (hq.trans hp))).1 hr)
  have hserves : BankServes (withSpare s b) (switchBank (withSpare s b) p) p b :=
    switchBank_serves rfl (readyBit_withSpare_same hb) (hne p hp)
  refine ⟨switchBank (withSpare s b) p, ?_, { hserves with
    bits := fun n hn ho => (hserves.bits n hn ho).trans (readyBit_withSpare_other hn) }⟩
  rw [execLaserBankReturn, if_pos (returnTaken hb hbit)]
  simp only [placeOf?_eq_none hplace]
  rw [← withSpare, hsome]
end

/-- A bank that does not pass, has no bit, or is ready changes nothing (R414). -/
theorem execLaserBankReturn_idle (s : State) {b : Nat} {passed : Bool}
    (h : passed = false ∨ 5 ≤ b ∨ readyBit s (18 + b) = true) : execLaserBankReturn b passed s = .next s := by
  have hstop : (passed && decide (b < 5) && !readyBit s (18 + b)) = false := by
    obtain h | h | h := h
    · rw [h]; rfl
    · rw [decide_eq_false (Nat.not_lt.2 h), Bool.and_false]; rfl
    · rw [h, Bool.not_true, Bool.and_false]
  rw [execLaserBankReturn, hstop]
  rfl

/-- The removal and the return of a bank, by the place it serves at and what stands ready for it. -/
theorem laserBanks (s : State) (b : Nat) : LaserBanks s b := by
  unfold LaserBanks
  intro gives ready retired placed comes stays
  have hcomes {i : Instr} {p y : Nat} : (∃ t, exec i s = .next t ∧ BankServes s t p y) → comes i p y none :=
    fun ⟨t, hstep, ht⟩ => ⟨t, hstep, ht.spare, ht.place, ht.others, ht.ready, ht.out, ht.bits, ht.ctxs, ht.mem, ht.circuits⟩
  refine ⟨fun p y hp hb hfirst hspare hne _ _ hbit hy => hcomes (execLaserBankRemove_switches hp hb hfirst hspare hne hbit hy),
    execLaserBankRemove_idle, execLaserBankRemove_out, fun hb hbit => ⟨fun hplace => ?_, fun hplace hret => ?_,
    fun p hp hplace hret hfirst => hcomes (execLaserBankReturn_replaces hb hbit hp hplace hret hfirst)⟩,
    fun h => execLaserBankReturn_idle s (.inr h), execLaserBankReturn_idle s (.inl rfl)⟩
  · exact ⟨_, execLaserBankReturn_serves hb hbit hplace, rfl, fun _ _ => rfl, readyBit_setReady_same s true (by omega),
      fun n hn => readyBit_setReady_other s true hn, rfl, rfl, rfl⟩
  · exact ⟨_, execLaserBankReturn_spare hb hbit hplace hret, rfl, fun _ _ => rfl, readyBit_withSpare_same hb,
      fun n hn => readyBit_withSpare_other hn, rfl, rfl, rfl⟩

end Sys2Proof.Machine
end

section
/-!
Errors and their rows, retirement, and what the firmware writes on the dies (R233, R235 to R239, R242, R325 to R328, R412, R413).
-/
namespace Sys2Proof.Machine
open Sys2Proof.Says

/-! The rows of errors (R233, R238, R239, R326). -/

theorem sliceOf_lt (loc : Nat) : sliceOf loc < 2 ^ 5 := by
  unfold sliceOf
  refine Nat.xor_lt_two_pow (Nat.xor_lt_two_pow (Nat.xor_lt_two_pow (Nat.xor_lt_two_pow (Nat.xor_lt_two_pow ?_ ?_) ?_) ?_) ?_) ?_
  all_goals omega

theorem cacheSetOf_lt (loc : Nat) : cacheSetOf loc < 2 ^ 9 := by
  unfold cacheSetOf
  exact Nat.xor_lt_two_pow (by omega) (by omega)

theorem chanOf_lt (loc : Nat) : chanOf loc < 2 ^ 5 := by
  unfold chanOf
  exact Nat.xor_lt_two_pow (by omega) (by omega)

/-- A row of the weight store is indexed by its bank group (R238). -/
theorem memRow_weightStore {s : State} {loc : Nat} (h : loc / 2 ^ 44 ≠ 0) : memRow s loc =
    { kind := 0x11
      die := BitVec.ofNat 4 (loc / 2 ^ 40)
      index := BitVec.ofNat 32 (bankGroupOf loc + Config.memoryRow loc % 2 ^ 16 * 2 ^ 4) } := by
  rw [memRow, if_pos (bne_iff_ne.2 h)]

/-- A row that the die cache has locked is indexed by its slice, set and way (R233). -/
theorem memRow_locked {s : State} {loc w : Nat} (h : loc / 2 ^ 44 = 0) (hw : find? s.bad (loc / 64) = some (some w)) :
    memRow s loc =
    { kind := 0x10
      die := BitVec.ofNat 4 (loc / 2 ^ 40)
      index := BitVec.ofNat 32 (sliceOf loc + cacheSetOf loc * 2 ^ 5 + w % 16 * 2 ^ 14) } := by
  rw [memRow, if_neg fun hne => bne_iff_ne.1 hne h]
  simp only [hw]

/-- Another row of the HBM is indexed by its channel (R239). -/
theorem memRow_hbm {s : State} {loc : Nat} (h : loc / 2 ^ 44 = 0) (hw : ∀ w, find? s.bad (loc / 64) ≠ some (some w)) :
    memRow s loc =
    { kind := 0x12
      die := BitVec.ofNat 4 (loc / 2 ^ 40)
      index := BitVec.ofNat 32 (chanOf loc + Config.memoryRow loc % 2 ^ 16 * 2 ^ 5) } := by
  rw [memRow, if_neg fun hne => bne_iff_ne.1 hne h]
  split
  case h_1 w hfound => exact absurd hfound (hw w)
  case h_2 => rfl

/-- A row lies on the die of its location. -/
theorem memRow_die (s : State) (loc : Nat) : (memRow s loc).die = BitVec.ofNat 4 (loc / 2 ^ 40) := by
  unfold memRow
  split
  · rfl
  · split <;> rfl

/-- The row of a location depends on what is known of its own sector. -/
theorem memRow_congr {s t : State} {loc : Nat} (h : find? s.bad (loc / 64) = find? t.bad (loc / 64)) :
    memRow s loc = memRow t loc := by
  unfold memRow
  rw [h]

/-- The fields of the row of an error, case by case of its memory. -/
theorem rowsOfErrors (s : State) (loc : Nat) : RowsOfErrors s loc := by
  have hslice := sliceOf_lt loc
  have hset := cacheSetOf_lt loc
  have hchan := chanOf_lt loc
  refine ⟨fun _ => by rw [memRow_die, BitVec.toNat_ofNat], fun h => ?_, fun w h hw => ?_, fun h hw => ?_⟩
  · rw [memRow_weightStore h, BitVec.toNat_ofNat, bankGroupOf]
    exact ⟨rfl, by omega, by omega⟩
  · rw [memRow_locked h hw, BitVec.toNat_ofNat, ← cacheSetOf]
    exact ⟨rfl, by omega, by omega, by omega⟩
  · rw [memRow_hbm h hw, BitVec.toNat_ofNat, ← chanOf]
    exact ⟨rfl, by omega, by omega⟩

/-! Errors (R324 to R326). -/

section
variable (s : State) (loc : Nat) (way : Option (BitVec 4))

/-- A sector in which an uncorrectable error lies is bad. -/
theorem isBad_spoilAt : isBad (spoilAt s (.mem loc way)) loc = true := by
  simp [isBad, spoilAt]

/-- An error reported where it lies names the row that it names where it lies already. -/
theorem memRow_spoilAt_reported (r : Report) :
    memRow (spoilAt ((spoilAt s (.mem loc way)).report r) (.mem loc way)) loc = memRow (spoilAt s (.mem loc way)) loc :=
  memRow_congr (by simp [spoilAt])

/-- An error meets no read on its way where there is none. -/
theorem lateFault_of_noLate (e : Nat × Context) (h : e.2.late = []) : lateFault loc s e = s := by
  simp [lateFault, h]

theorem lateFaults_of_noLate (h : ∀ e ∈ s.ctxs, e.2.late = []) : lateFaults s (.mem loc way) = s :=
  List.foldlRecOn s.ctxs (lateFault loc) (motive := (· = s)) rfl fun t ht e he => by
    rw [ht, lateFault_of_noLate s loc e (h e he)]
end

/-- An uncorrectable error that no consumer has found is told to the firmware, and schedules the assay of its row (R325, R326). -/
theorem execScrubError_scrubbed (s : State) (loc : Nat) (way : Option (BitVec 4)) :
    execScrubError ⟨.mem loc way, .scrubbed⟩ s = .next (((spoilAt s (.mem loc way)).report (.scrub (.mem loc way))).report
      (.assayDue (memRow (spoilAt s (.mem loc way)) loc))) := by
  rw [← memRow_spoilAt_reported s loc way (.scrub (.mem loc way))]
  rfl

/-- An error that nothing has found stays where it is until it is read (R325). -/
theorem execScrubError_latent {s : State} (loc : Nat) (way : Option (BitVec 4)) (h : ∀ e ∈ s.ctxs, e.2.late = []) :
    execScrubError ⟨.mem loc way, .latent⟩ s = .next (spoilAt s (.mem loc way)) :=
  congrArg _ (lateFaults_of_noLate (spoilAt s (.mem loc way)) loc way h)

/-- An uncorrectable part of a context is noted in it, and nothing else of it changes (R324). -/
theorem spoil_marks {s : State} {pos : Nat} {c : Context} (hc : s.ctx? pos = some c) (part : OwnPart) :
    ∃ c', (spoil s pos part).ctx? pos = some c' ∧ part ∈ c'.own ∧ c'.r = c.r ∧ c'.lines = c.lines := by
  unfold spoil
  simp only [hc]
  split
  case isTrue hin => exact ⟨c, hc, List.contains_iff_mem.1 hin, rfl, rfl⟩
  case isFalse hout => exact ⟨_, State.ctx?_setCtx_same .., List.mem_cons_self, rfl, rfl⟩

/-! Retirement (R326 to R328). -/

section
variable (s : State) (pos : Nat)

theorem setHBits_m (c : Context) (h : Nat) (d : Handle) (b : HBits) : (setHBits s c pos h d b).1.m = s.m := by
  unfold setHBits
  split
  · dsimp only
    split <;> rfl
  · rfl

theorem applyRelease_m (c : Context) (r : Release) : (applyRelease pos (s, c) r).1.m = s.m := by
  cases r with
  | fill h n first | drain h n first =>
    simp only [applyRelease]
    split
    · rfl
    · exact setHBits_m s pos ..
  | token a b n => rfl

theorem applyReleases_m (c : Context) : (applyReleases pos s c).1.m = s.m :=
  foldl_keeps (fun sc : State × Context => sc.1.m) (by exact fun sc r => applyRelease_m sc.1 pos sc.2 r.rel) c.releases (s, c)

theorem stopReports_defects (c : Context) : (stopReports c s).m.defects = s.m.defects := by
  unfold stopReports
  dsimp only
  split <;> split <;> (try split) <;> rfl

/-- A pre-emption leaves the defect map. -/
theorem askPreempt_defects (c : Context) : (askPreempt s pos c).m.defects = s.m.defects := by
  unfold askPreempt
  split
  · rfl
  · rw [preemptCtx, stopReports_defects]
    exact congrArg Mgmt.defects (applyReleases_m s pos _)
end

/-- A fenced core leaves the defect map. -/
theorem fence_defects (s : State) (k : Nat) : (fence s k).m.defects = s.m.defects := by
  have hunbind (t : State) : (unbindCore t k).m = t.m := by
    refine (foldl_keeps State.m (fun u e => ?_) _ _).trans rfl
    split <;> rfl
  rw [fence, hunbind]
  exact foldl_keeps (fun t : State => t.m.defects) (fun t (e : Nat × Context) => askPreempt_defects t e.1 e.2) _ s

theorem removeBank_defects (s : State) (b : Nat) : (removeBank s b).m.defects = s.m.defects := by
  unfold removeBank
  split
  · split
    · exact switchBank_defects ..
    · rfl
  · rfl

/-- An entry that is added where it is missing stands in the list, and so do those that stood there. -/
theorem mem_added {ds es : List Word} (h : ds = es) (w : Word) :
    w ∈ (if ds.contains w then ds else ds ++ [w]) ∧ ∀ y ∈ es, y ∈ if ds.contains w then ds else ds ++ [w] := by
  subst h
  split
  case isTrue hin => exact ⟨List.contains_iff_mem.1 hin, fun y hy => hy⟩
  case isFalse hout => exact ⟨by simp, fun y hy => List.mem_append_left _ hy⟩

/-- A retirement adds its entry to the defect map and takes none out (R327). -/
theorem retire_defects (s : State) (r : Resource) :
    defectWord r ∈ (retire s r).m.defects ∧ ∀ y ∈ s.m.defects, y ∈ (retire s r).m.defects := by
  have hcircuits (es : List (Nat × Circuit)) : (es.foldl reEstablish s).m.defects = s.m.defects :=
    foldl_reEstablish_keeps (fun t : State => t.m.defects) (fun _ _ _ => rfl) es s
  unfold retire
  dsimp only
  split
  all_goals
    split
    case h_1 => exact mem_added (fence_defects ..) _
    case h_2 => exact mem_added (removeBank_defects ..) _
    case h_6 => exact mem_added (by rfl) _
    all_goals exact mem_added (hcircuits _) _

/-- An assay of a resource that nothing uses and no deterministic launch holds: it passes, or the resource is retired (R326). -/
theorem execAssay_tests {s : State} {r : Resource} (hkind : defectKind (trimRes r).kind.toNat = true)
    (hdet : detHolds s (trimRes r) = false) (huse : inUse s (trimRes r) = false) (passed : Bool) :
    execAssay r passed s = .next (if passed then s.report (.transient (trimRes r)) else retire s (trimRes r)) := by
  simp only [execAssay, hkind, hdet, huse, Bool.not_true, Bool.or_self, Bool.false_eq_true, if_false]

/-- An assay of a resource that is in use or held does nothing (R326). -/
theorem execAssay_idle {s : State} {r : Resource} (h : detHolds s (trimRes r) = true ∨ inUse s (trimRes r) = true)
    (passed : Bool) : execAssay r passed s = .next s := by
  refine congrArg _ (if_pos ?_)
  obtain h | h := h <;> simp [h]

/-! What the firmware writes on the dies (R235 to R237, R242). -/

/-- A die that is written is read back. -/
theorem State.die_setDie_same (s : State) (n : Nat) (x : Die) : (s.setDie n x).die n = x := lookD_putD_same ..

/-- A shootdown leaves no translation of its range (R242). -/
theorem execTlbShootdown_drops (s : State) (root va size : Nat) : ∃ t, execTlbShootdown root va size s = .next t ∧
    t.mem = s.mem ∧ t.ctxs = s.ctxs ∧
    ∀ e ∈ t.cores, ∀ y ∈ e.2.tlb, ¬ (y.root = root ∧ rangesMeet y.va y.size va size = true) := by
  refine ⟨_, rfl, rfl, rfl, fun e he y hy hmeet => ?_⟩
  obtain ⟨e0, -, rfl⟩ := List.mem_map.1 he
  have hkept := (List.mem_filter.1 hy).2
  simp [hmeet.1, hmeet.2] at hkept

/-- A write of range register `n` writes its two words, without their reserved bits (R235, R236, log 39). -/
theorem execRangeRegisterWrite_eq (s : State) {d n : Nat} (hd : d < 16) (hn : n < 16) (w x : Word) :
    execRangeRegisterWrite d n w x s = .next (s.setDie d { s.die d with
      ranges := putD (putD (s.die d).ranges (2 * n) (w &&& 0x0000_FFFF_FFFF_0003) 0) (2 * n + 1)
        (x &&& 0x01FF_FFFF_FFFF_FFFF) 0 }) := by
  rw [execRangeRegisterWrite, if_pos ⟨hd, hn⟩]

theorem execRangeRegisterWrite_takes (s : State) {d n : Nat} (hd : d < 16) (hn : n < 16) (w x : Word) :
    ∃ t, execRangeRegisterWrite d n w x s = .next t ∧ lookD (t.die d).ranges (2 * n) 0 = w &&& 0x0000_FFFF_FFFF_0003 ∧
      lookD (t.die d).ranges (2 * n + 1) 0 = x &&& 0x01FF_FFFF_FFFF_FFFF ∧ t.mem = s.mem := by
  refine ⟨_, execRangeRegisterWrite_eq s hd hn w x, ?_, ?_, rfl⟩ <;> rw [State.die_setDie_same]
  · rw [lookD_putD_other _ _ _ _ _ (by omega), lookD_putD_same]
  · rw [lookD_putD_same]

/-- A weight store is opened for a launch that is alone on the die (R237). -/
theorem execWsctlOpen_opens {s : State} {d lid : Nat} (hd : d < 16) (hl : (s.launch? lid).isSome = true)
    (hsole : soleOn s d lid = true) :
    execWsctlOpen d lid true s = .next { s with wsOpen := put s.wsOpen (lid * 16 + d) () } := by
  simp only [execWsctlOpen, hd, hl, hsole, decide_true, Bool.and_self, if_true]

/-- A weight store is opened for no launch that shares the die (R237). -/
theorem execWsctlOpen_refuses {s : State} {d lid : Nat} (hsole : soleOn s d lid = false) :
    execWsctlOpen d lid true s = .next s := by
  simp only [execWsctlOpen, hsole, Bool.and_false, Bool.false_eq_true, if_false, if_true]

/-- Every assigned readiness bit can be set (R407). -/
theorem execReadinessSet_sets {s : State} {n : Nat} (h : readyAssigned n = true) :
    execReadinessSet n s = .next (setReady s n true) := by
  rw [execReadinessSet, if_pos h]

/-- A bit that is not assigned is not set (R407). -/
theorem execReadinessSet_idle {s : State} {n : Nat} (h : readyAssigned n = false) : execReadinessSet n s = .next s := by
  rw [execReadinessSet, h]
  rfl

/-- A copied channel serves again where one of its stack's spares is left (R328, R414). -/
theorem execChannelCopyComplete_mends {s : State} {d n : Nat} (hd : d < 16) (hn : n < 32)
    (h : defectWord { kind := 5, die := BitVec.ofNat 4 d, index := BitVec.ofNat 32 n } ∈ s.m.defects ∧
      readyBit s (1216 + 32 * d + n) = false ∧ lookD s.m.copied d 0 < 2) :
    execChannelCopyComplete d n s = .next (setReady
      { s with m := { s.m with copied := putD s.m.copied d (lookD s.m.copied d 0 + 1) 0 } } (1216 + 32 * d + n) true) := by
  obtain ⟨hgone, hbit, hused⟩ := h
  exact congrArg _ (if_pos ⟨hd, hn, List.contains_iff_mem.2 hgone, hbit, hused⟩)

/-- Where no channel is gone, or no spare is left, a copy changes nothing. -/
theorem execChannelCopyComplete_idle {s : State} {d n : Nat}
    (h : ¬ (defectWord { kind := 5, die := BitVec.ofNat 4 d, index := BitVec.ofNat 32 n } ∈ s.m.defects ∧
      readyBit s (1216 + 32 * d + n) = false ∧ lookD s.m.copied d 0 < 2)) :
    execChannelCopyComplete d n s = .next s :=
  congrArg _ (if_neg fun ⟨_, _, hgone, hbit, hused⟩ => h ⟨List.contains_iff_mem.1 hgone, hbit, hused⟩)

/-- Settles O53: each event by what it writes. -/
theorem management : Obligations.Management := by
  intro s b d n loc root va size lid pos part w x nonce image draw r0 f gives r sets
  refine ⟨fun hb => ?_, fun hb => ?_, fun hd hn => ⟨fun h => ?_, fun h => ?_⟩, rfl, ⟨_, rfl, rfl, rfl, rfl, rfl⟩, rfl,
    ⟨quoteBody s nonce, rfl, rfl⟩, laserBanks s b, rowsOfErrors s loc, rfl, fun way => ⟨rfl, ?_, fun hlate => ?_⟩,
    fun c hc => ?_, fun hkind hdet huse => ⟨?_, ?_⟩, fun h => ?_, execTlbShootdown_drops s root va size,
    fun hd hn => execRangeRegisterWrite_takes s hd hn w x, fun hd hl hsole => ?_, fun hsole => ?_, ?_⟩
  · exact ⟨_, execReadinessSet_sets hb, setReady_sets s (lt_of_readyAssigned hb)⟩
  · exact execReadinessSet_idle hb
  · exact ⟨_, execChannelCopyComplete_mends hd hn h, setReady_sets _ (by omega)⟩
  · exact execChannelCopyComplete_idle h
  · exact ⟨_, execScrubError_scrubbed s loc way, isBad_spoilAt s loc way, by simp [State.report], by simp [State.report],
      rfl, rfl⟩
  · exact ⟨_, execScrubError_latent loc way hlate, isBad_spoilAt s loc way, rfl, rfl, rfl⟩
  · obtain ⟨c', hc', hpart, hr, hlines⟩ := spoil_marks hc part
    exact ⟨_, c', rfl, hc', hpart, hr, hlines, spoil_mem s pos part⟩
  · exact execAssay_tests hkind hdet huse true
  · exact ⟨_, execAssay_tests hkind hdet huse false, (retire_defects s r).1, (retire_defects s r).2, retire_mem s r⟩
  · exact execAssay_idle h f
  · exact ⟨_, execWsctlOpen_opens hd hl hsole, by simp, rfl⟩
  · exact execWsctlOpen_refuses hsole
  · exact ⟨_, rfl, find?_del_same .., rfl⟩

end Sys2Proof.Machine
end
